-- ==== Sys2Proof/Word.lean ====
section
/-! DEFINITION. The word types of the FK-640 (R6, R42) and the bit-field helpers every layer reads fields with. -/

namespace Sys2Proof

/-- One byte of memory. -/
abbrev Byte := BitVec 8
/-- One 32-bit register slot (R42). -/
abbrev Word := BitVec 32
/-- One 64-bit word of a register, a descriptor or a table (R6). -/
abbrev DWord := BitVec 64
/-- One 96-bit instruction slot (R129). -/
abbrev SlotWord := BitVec 96

/-- `bits(v, hi, lo)` of R9 on a natural number: the field [hi:lo] as an unsigned value. -/
def field (v hi lo : Nat) : Nat := (v >>> lo) % 2 ^ (hi + 1 - lo)

/-- Bit `i` of `v`. -/
def bitOf (v i : Nat) : Bool := Nat.testBit v i

/-- 1 for true, 0 for false. -/
def b2n (b : Bool) : Nat := if b then 1 else 0

/-- `v` with the field [hi:lo] replaced by the low bits of `f`. -/
def putField (v hi lo f : Nat) : Nat :=
  v - (field v hi lo) * 2 ^ lo + (f % 2 ^ (hi + 1 - lo)) * 2 ^ lo

/-- `sext(v, n)` of R9: the n-bit value `v` as a signed number. -/
def sext (v n : Nat) : Int :=
  let u := v % 2 ^ n
  if n ≠ 0 ∧ u ≥ 2 ^ (n - 1) then (u : Int) - (2 ^ n : Nat) else (u : Int)

/-- A signed number reduced modulo 2^n, as an unsigned value. -/
def wrapInt (x : Int) (n : Nat) : Nat := (x % ((2 ^ n : Nat) : Int)).toNat

/-- ⌈a ÷ b⌉. -/
def ceilDiv (a b : Nat) : Nat := (a + b - 1) / b

end Sys2Proof
end

