-- ==== Sys2Proof/Config.lean ====
section
/-! DEFINITION. What this module fixes (R1, R11, R13, R356) and the free values: constants with no body that stand for what the
spec leaves open or does not hold. -/

namespace Sys2Proof.Config

/-- Dies of the package (R11). -/
def dies : Nat := 8
/-- Clusters on a die (R11). -/
def clustersPerDie : Nat := 5
/-- Cores of a cluster (R11). -/
def coresPerCluster : Nat := 16
/-- Cores of the package (R13). -/
def cores : Nat := 640
/-- Clusters of the package. -/
def clusters : Nat := 40
/-- HBM4E stacks (R11). -/
def hbmStacks : Nat := 16
/-- Home slices (R13). -/
def slices : Nat := 128
/-- Control cores (R13). -/
def controlCores : Nat := 16
/-- Hardware queues (R13). -/
def queues : Nat := 131072
/-- Address-space contexts (R13). -/
def contexts : Nat := 1024
/-- Register slots of a core's register file (R13). -/
def coreSlots : Nat := 262144
/-- Resident threads of a core (R18). -/
def coreThreads : Nat := 4096
/-- Bytes of a core's team memory (R12). -/
def teamBytes : Nat := 393216
/-- Lines of 128 bytes in a core's near cache of 192 KiB (R12). -/
def nearLines : Nat := 1536
/-- Resident groups of a bay (R16). -/
def bayGroups : Nat := 128
/-- Bytes of a die's scratchpad (R87). -/
def scratchBytes : Nat := 67108864
/-- Identification: part number (R356). -/
def part : Nat := 0x0640
/-- Identification: stepping of compute, I/O and SRAM dies (R356). -/
def stepping : Nat := 0xB1
/-- Identification: base-die stepping (R356). -/
def baseStep : Nat := 0xC0
/-- Reported instruction-set level (R2, R356). -/
def isaLevel : Nat := 2
/-- Core clock in MHz (R356). -/
def clockMhz : Nat := 4000
/-- HBM4E capacity in GiB (R356). -/
def hbmGib : Nat := 1024
/-- The module limit in mW (R15, R325). -/
def limitMw : Nat := 2600000
/-- Slots of one Auger (R267). -/
def raySlots : Nat := 2048
/-- Entries of a cluster's job queue (R249). -/
def jobEntries : Nat := 1024
/-- Words a die's watch table holds (R93). -/
def watchEntries : Nat := 4096
/-- Waiters a home slice's watch list holds (R222). -/
def sysWatchEntries : Nat := 1024
/-- Contributions a slice can hold (R334). -/
def heldEntries : Nat := 4096
/-- Entries of a slice's side log (R424). -/
def sideLogEntries : Nat := 4096
/-- Requests unacknowledged per destination (R341). -/
def e2eWindow : Nat := 512
/-- Cached results of one I/O die (R342). -/
def cachedResults : Nat := 65536

/-- FREE VALUE (DESIGN CHOICE, log 3): a byte the spec leaves undefined, fresh for each use (R4, R250, R277). -/
opaque freeByte : Nat → Byte
/-- FREE VALUE (DESIGN CHOICE, log 3): a choice the spec leaves open between two allowed outcomes, fresh for each use (R102, R130). -/
opaque freeBool : Nat → Bool
/-- FREE VALUE (DESIGN CHOICE, log 10): the FP32 value ISO/CIE 11664-1 tabulates for an observer (true: 1964), a function 0 to 2 (X, Y, Z)
and a wavelength in nm, 360 to 830. The tables are not in the spec (R187). -/
opaque cieTable : Bool → Nat → Nat → Word
/-- FREE VALUE (DESIGN CHOICE, log 11): SHA3-512 of a byte string (R352 to R355): the standard's function, whose body the spec does not hold. -/
opaque sha3 : List Byte → BitVec 512
/-- FREE VALUE (DESIGN CHOICE, log 11): the ROM's root key digest (R352). -/
opaque rootKeyDigest : BitVec 512
/-- FREE VALUE (DESIGN CHOICE, log 11): ML-DSA-87 verification of a signature over a digest under a public key (R352). -/
opaque signatureVerifies : List Byte → BitVec 512 → List Byte → Bool
/-- FREE VALUES (DESIGN CHOICE, log 11): the fields of a part record (R354), whose layout the spec does not give: the helper data, the
digest of the public key it names, the part number and stepping it binds that to, the bytes its signature covers, and the signature. -/
opaque recordHelper : List Byte → List Byte
opaque recordKey : List Byte → BitVec 512
opaque recordPart : List Byte → BitVec 16
opaque recordStepping : List Byte → BitVec 8
opaque recordSigned : List Byte → List Byte
opaque recordSignature : List Byte → List Byte
/-- FREE VALUE (DESIGN CHOICE, log 11): the seed that the PUF's response gives with helper data; none where its error correction fails (R354,
R454). -/
opaque pufSeed : List Byte → Option (BitVec 256)
/-- FREE VALUE (DESIGN CHOICE, log 11): the ML-DSA-87 public key derived from a seed (R354). -/
opaque publicKey : BitVec 256 → List Byte
/-- FREE VALUE (DESIGN CHOICE, log 11): the signature of a digest under the identity key (R355). -/
opaque identitySignature : BitVec 512 → List Byte
/-- FREE VALUE (DESIGN CHOICE, log 12): the generation drawn from the part's random source at the first streaming since power good (R345). -/
opaque randomGeneration : Nat → BitVec 16

/-- Bytes of the retry buffer of an I/O die, and of a base die's Dumund layer (R343). -/
def ioBuffer : Nat := 33554432
def dumundBuffer : Nat := 1048576

/-- FREE VALUE (DESIGN CHOICE, log 100): the generation that a message between stack agents expects of its destination, an endpoint (R341,
R345); fresh for each use. -/
opaque agentGeneration : Nat → Nat → BitVec 16

/-- FREE VALUE (DESIGN CHOICE, log 93): a host's answer to an ATS request of a port for a page of its memory: the page's number there, or a
failure (R346). -/
opaque atsAnswer : Nat → Nat → Nat → Option (BitVec 40)

end Sys2Proof.Config
end

