-- ==== Sys2Proof/Syntax.lean ====
section
/-! DEFINITION. The instructions of the Tvedog set and the events of the FK-640, one constructor for each row of the opcode
table. Rows 0 to 164 are instructions: a control part (guard, switch marker, hints), the fields of their modifier byte, and
operands D, A, B. Rows 165 to 277 are what agents other than the lanes do; they have no encoding, and their arguments hold
what the agent or the outside decides. -/

namespace Sys2Proof

/-- Widths of class 0 (R154), in code order. -/
inductive IWidth where
  | w32 | w64 | w16 | w8
  deriving DecidableEq, Repr

/-- Saturation of `add` and `sub` (R138, R173). -/
inductive ISat where
  | wrap | unsigned | signed
  deriving DecidableEq, Repr

/-- Formats of class 1 (R155). -/
inductive FFmt where
  | f32 | f64
  deriving DecidableEq, Repr

/-- Rounding modes (R66), in code order 000 to 101. -/
inductive Rnd where
  | rne | rtz | rdn | rup | rna | sr
  deriving DecidableEq, Repr

/-- Conditions (R139), in code order. -/
inductive Cond where
  | eq | ne | lt | le | gt | ge | unord | ord
  deriving DecidableEq, Repr

/-- Packet shapes (R156), in code order. -/
inductive Shape where
  | f32x8 | f16x16 | bf16x16 | e4m3x32 | e5m2x32 | e3m2x32 | e2m3x32 | e2m1x64 | i32x8 | n32x8 | i16x16 | n16x16 | i8x32 | n8x32 | i4x64 | n4x64
  deriving DecidableEq, Repr

/-- Element widths of the class 3 element moves (R158), in code order. -/
inductive EWidth where
  | e32 | e16 | e8 | e4
  deriving DecidableEq, Repr

/-- Shapes of `prng` (R189). -/
inductive PrngShape where
  | b32 | f32 | b32x8 | f32x8
  deriving DecidableEq, Repr

/-- Shapes of `sfu` (R159). -/
inductive SfuShape where
  | f32 | f32x8 | f16x16 | bf16x16
  deriving DecidableEq, Repr

/-- Scalar conversion types (R159), in code order. -/
inductive CType where
  | f32 | f64 | f16 | bf16 | i32 | n32 | i64 | n64
  deriving DecidableEq, Repr

/-- Source shapes of packet conversions (R159), in code order. -/
inductive PktSrc where
  | f32x8 | f16x16 | bf16x16 | e4m3x32 | e5m2x32 | e2m1x64 | i32x8 | i8x32
  deriving DecidableEq, Repr

/-- Sizes of `shfl` (R197). -/
inductive ShflSize where
  | b32 | b64 | b256
  deriving DecidableEq, Repr

/-- Where `shfl` reads (R197): `.at .by .flip .rot`. -/
inductive ShflMode where
  | atLane | byOffset | flip | rot
  deriving DecidableEq, Repr

/-- Modes of `vote` (R198). -/
inductive VoteMode where
  | someOf | everyOf | mask | cnt | pre | same
  deriving DecidableEq, Repr

/-- Modes of `match` (R199). -/
inductive MatchMode where
  | mask | lead | cnt
  deriving DecidableEq, Repr

/-- Operators of `scan` (R200). -/
inductive ScanOp where
  | addI32 | addF32 | minI32 | maxI32 | minN32 | maxN32 | orB32 | xorB32
  deriving DecidableEq, Repr

/-- Modes of `xset` (R229). -/
inductive XsetMode where
  | whole | cur | add
  deriving DecidableEq, Repr

/-- Fields of `xget` (R230). -/
inductive XgetField where
  | whole | cur | base | bound | step | view | wrap
  deriving DecidableEq, Repr

/-- Access widths of loads and stores (R161, R206). -/
inductive MWidth where
  | b8 | b16 | b32 | b64 | b128 | b256
  deriving DecidableEq, Repr

/-- Memory orders (R139). -/
inductive MOrder where
  | rlx | acq | rel | acqrel
  deriving DecidableEq, Repr

/-- Memory scopes (R139). -/
inductive Scope where
  | thr | grp | team | pair | clu | die | pkg | sys
  deriving DecidableEq, Repr

/-- Memory types (R139). -/
inductive MType where
  | b32 | b64 | i32 | i64 | n32 | n64 | f32 | f64
  deriving DecidableEq, Repr

/-- Comparisons of `wait` (R223). -/
inductive WaitCmp where
  | eq | ne | ge
  deriving DecidableEq, Repr

/-- The fields of R66 that every rounding instruction shares. -/
structure FpMod where
  /-- clamp results to the largest finite magnitude -/
  sat : Bool
  /-- flush subnormal results -/
  ftzo : Bool
  /-- flush subnormal inputs -/
  ftzi : Bool
  /-- rounding mode -/
  rnd : Rnd
  deriving DecidableEq, Repr

/-- Operations of `stex` (R271). -/
inductive StexMode where
  | spec | up | mueller (pair col : BitVec 2)
  deriving DecidableEq, Repr

/-- Register files (R44), in code order 000 to 110. -/
inductive File where
  | g | y | p | x | h | t | sr
  deriving DecidableEq, Repr

/-- One operand field (R131 to R136). -/
inductive Operand where
  /-- class 00: a register, with negate and absolute -/
  | reg (f : File) (neg abs : Bool) (i : BitVec 9)
  /-- class 01: file g through an index register (R51) -/
  | ind (xr : BitVec 3) (off : BitVec 6) (post : Bool)
  /-- class 10: an immediate payload (R132) -/
  | imm (v : BitVec 20)
  /-- class 11, banks 0 to 14: word offset in a constant bank (R133) -/
  | cbank (bank : BitVec 4) (off : BitVec 16)
  /-- class 11, bank 15: a literal slot, word selection and distance (R135) -/
  | lit (sel : BitVec 2) (dist : BitVec 3)
  /-- the unused field 0x0E_0000 (R136) -/
  | none
  deriving DecidableEq, Repr

/-- Guard, switch marker and hints (R129, R137, R140). -/
structure Ctl where
  gpred : BitVec 3
  gneg : Bool
  switch : Bool
  reuse : BitVec 2
  yld : Bool
  uniform : Bool
  deriving DecidableEq, Repr

/-- One function of a host port (R323). -/
structure HostFn where
  port : Nat
  fn : Nat
  deriving DecidableEq, Repr

/-- A link port of the package (R457): one of the UALink ports or, with `dumund`, of the Dumund ports. -/
structure LinkId where
  dumund : Bool
  port : Nat
  deriving DecidableEq, Repr

/-- A destination or source of the end-to-end layer (R341): an endpoint, or for a stack agent of another package
2^23 + its identifier + 2^24 · the stack of this package whose pair with it is meant. -/
abbrev PeerId := Nat

/-- The end-to-end header of a message between stack agents (R341): the sender's identifier, its number in the pair, the generation
expected of this package, and the Dumund port by which it arrived. -/
structure AgentHead where
  src : Nat
  seq : Nat
  gen : Nat
  plane : Nat
  deriving DecidableEq, Repr

/-- What a peer stack agent sends: its head, and what it says. -/
structure Posted (α : Type) where
  head : AgentHead
  body : α
  deriving DecidableEq, Repr

/-- A firing message of a peer stack agent (R471). -/
structure FireMsg where
  entry : Nat
  rank : Nat
  /-- earlier firings of the sender's entry, modulo 2^16 -/
  count : Nat
  /-- word 0 of the sender's entry: op, type, kind, npeers_m1, chunk_log2, size -/
  head : DWord
  peers : List Nat
  deriving DecidableEq, Repr

/-- A chunk of a collective that reaches a stack agent (R336, R338). -/
structure CollChunk where
  entry : Nat
  /-- rank of the member that sent it -/
  rank : Nat
  count : Nat
  /-- a result on its way to the members; false: a contribution or partial combination -/
  down : Bool
  /-- members it has passed since its first (ring plan) -/
  hop : Nat
  /-- byte offset in the buffer -/
  off : Nat
  bytes : List Byte
  deriving DecidableEq, Repr

/-- What stack agents say to each other (R336, R469 to R471); a re-plan message names the plane to avoid. -/
inductive AgentMsg where
  | fire (m : FireMsg)
  | chunk (c : CollChunk)
  | abort (entry count : Nat)
  | propose (entry count rank plane : Nat)
  | agree (entry count rank plane : Nat)
  deriving DecidableEq, Repr

/-- How a re-plan comes to an agent (R469): it saw a link of the plan fail or slow down, or a member's proposal or answer arrives. -/
inductive ReplanMsg where
  | seen
  | message (h : AgentHead) (agrees : Bool) (count rank plane : Nat)
  deriving DecidableEq, Repr

/-- Header of an IEEE 1588 message (R348): transport (0 Layer 2, 1 UDP over IPv4), domain, the sender's clock, the sequence number. -/
structure PtpHead where
  transport : Nat
  domain : Nat
  source : Nat
  seq : Nat
  deriving DecidableEq, Repr

/-- What reaches the timing port (R348); times and corrections in ns. -/
inductive PtpMsg where
  /-- the master's data set in the order of the best master comparison, the lesser the better -/
  | announce (quality : List Nat)
  /-- a one-step master gives the origin time here, a two-step master in its follow-up -/
  | sync (twoStep : Bool) (origin corr : Int)
  | followUp (origin corr : Int)
  | delayResp (received corr : Int)
  /-- the peer-delay mechanism, which the part does not support -/
  | peerDelay
  /-- the master's announcements have stopped -/
  | silence
  deriving DecidableEq, Repr

/-- An access of a port to the port semaphores (R326). -/
inductive SemAccess where
  | read (n : Nat)
  | write (n : Nat) (v : Word)
  deriving DecidableEq, Repr

/-- A port's write of a semaphore (R326), and the other port's write in the same fabric cycle: its semaphore and value. -/
structure SemWrite where
  value : Word
  same : Option (Nat × Word)
  deriving DecidableEq, Repr

/-- Where an uncorrectable error is found (R428 to R430, R433). -/
inductive PoisonSite where
  /-- a sector of HBM, by its key; `moving` names the frame of a move that meets it -/
  | hbm (addr : Nat)
  | scr (addr : Nat)
  | tmem (addr : Nat)
  | tile (addr : Nat)
  /-- a register slot of a thread's bank -/
  | slot (team gid tid slot : Nat)
  /-- the side log of a slice, entry index -/
  | sideLog (slice index : Nat)
  /-- a write-queue entry with held contributions: a line of a slice -/
  | held (line : Nat)
  /-- a word of a home slice's cache or write queue, by its physical address -/
  | cache (addr : Nat)
  /-- a word of a core's near cache, by its physical address -/
  | near (core addr : Nat)
  /-- an entry of a cluster's job queue -/
  | job (cluster slot : Nat)
  deriving DecidableEq, Repr

/-- Where a parity error is found (R431): state of one context, or state that several share, whose unit is reset. -/
inductive ParitySite where
  | own (ctx kind index : Nat)
  | watch (die : Nat)
  | barriers (cluster : Nat)
  | joiner (cluster : Nat)
  | queueUnit (die : Nat)
  | scheduler (die : Nat)
  deriving DecidableEq, Repr

/-- A read or a write of a host window (R323, R324), or a read of a register of BAR0 by a function. -/
inductive BarOp where
  | read (off len : Nat) | write (off : Nat) (bytes : List Byte)
  | register (fn : HostFn) (off : Nat)
  deriving DecidableEq, Repr

/-- A PCIe AtomicOp that a host makes (R346): in the BAR4 window or the BAR2 window, of `n` bytes. -/
inductive PcieAtomic where
  | fetchAdd (bar4 : Bool) (n off v : Nat) | swap (bar4 : Bool) (n off v : Nat) | cas (bar4 : Bool) (n off cmp v : Nat)
  deriving DecidableEq, Repr

/-- What an atomic does (R209, R212). -/
inductive AtomOp where
  | exch | cas | add | min | max | and | or | xor | kahan
  deriving DecidableEq, Repr

/-- What a request of another package asks (R340). -/
inductive RemoteOp where
  | read (n : Nat)
  /-- a write of `n` bytes, byte i where bit i of `enables` is set -/
  | write (n v enables : Nat)
  /-- an atomic that returns the old value -/
  | atomic (op : AtomOp) (ty : MType) (v cmp : Nat)
  /-- a contribution, through the reduction window or as an atomic whose result is discarded -/
  | reduce (op : AtomOp) (ty : MType) (v : Nat)
  /-- `red.commit` -/
  | commit
  /-- the add of a `bar.sys` with its count (R222) -/
  | barSys (count : Nat)
  /-- a message to the stack agent of a stack -/
  | agent (stack : Nat) (m : AgentMsg)
  /-- a request that uses an optional feature the part does not support -/
  | unsupported
  deriving DecidableEq, Repr

/-- A request of another package (R341): header, remote context, device-physical address, stamp and logical tag. -/
structure RemoteReq where
  src : PeerId
  seq : Nat
  gen : Nat
  rctx : Nat
  addr : Nat
  op : RemoteOp
  stamp : DWord
  ltag : Nat
  /-- plane by which it arrived -/
  plane : Nat
  deriving DecidableEq, Repr

/-- The instructions and events, one constructor for each row of the opcode table, in its order. -/
inductive Instr where
  | add (c : Ctl) (w : IWidth) (sat : ISat) (d a b : Operand)
  | sub (c : Ctl) (w : IWidth) (sat : ISat) (d a b : Operand)
  | mul (c : Ctl) (w : IWidth) (d a b : Operand)
  | mulHiI (c : Ctl) (w : IWidth) (d a b : Operand)
  | mulHiN (c : Ctl) (w : IWidth) (d a b : Operand)
  | mad (c : Ctl) (w : IWidth) (d a b : Operand)
  | minI (c : Ctl) (w : IWidth) (d a b : Operand)
  | minN (c : Ctl) (w : IWidth) (d a b : Operand)
  | maxI (c : Ctl) (w : IWidth) (d a b : Operand)
  | maxN (c : Ctl) (w : IWidth) (d a b : Operand)
  | shl (c : Ctl) (w : IWidth) (d a b : Operand)
  | shrN (c : Ctl) (w : IWidth) (d a b : Operand)
  | shrI (c : Ctl) (w : IWidth) (d a b : Operand)
  | rol (c : Ctl) (w : IWidth) (d a b : Operand)
  | lop3 (c : Ctl) (w : IWidth) (tab : Byte) (d a b : Operand)
  | popc (c : Ctl) (w : IWidth) (d a b : Operand)
  | clz (c : Ctl) (w : IWidth) (d a b : Operand)
  | ctz (c : Ctl) (w : IWidth) (d a b : Operand)
  | brev (c : Ctl) (w : IWidth) (d a b : Operand)
  | bfeN (c : Ctl) (w : IWidth) (d a b : Operand)
  | bfeI (c : Ctl) (w : IWidth) (d a b : Operand)
  | bfi (c : Ctl) (w : IWidth) (d a b : Operand)
  | lea (c : Ctl) (w : IWidth) (k : BitVec 3) (d a b : Operand)
  | cmpI (c : Ctl) (w : IWidth) (cond : Cond) (d a b : Operand)
  | cmpN (c : Ctl) (w : IWidth) (cond : Cond) (d a b : Operand)
  | sel (c : Ctl) (w : IWidth) (np : Bool) (k : BitVec 3) (d a b : Operand)
  | mov (c : Ctl) (w : IWidth) (d a b : Operand)
  | addFp (c : Ctl) (fmt : FFmt) (m : FpMod) (d a b : Operand)
  | subFp (c : Ctl) (fmt : FFmt) (m : FpMod) (d a b : Operand)
  | mulFp (c : Ctl) (fmt : FFmt) (m : FpMod) (d a b : Operand)
  | fmaAcc (c : Ctl) (fmt : FFmt) (m : FpMod) (d a b : Operand)
  | fmaHor (c : Ctl) (fmt : FFmt) (m : FpMod) (d a b : Operand)
  | minFp (c : Ctl) (ftzi : Bool) (d a b : Operand)
  | maxFp (c : Ctl) (ftzi : Bool) (d a b : Operand)
  | cmpFp (c : Ctl) (fmt : FFmt) (ftzi : Bool) (cond : Cond) (d a b : Operand)
  | classFp (c : Ctl) (d a b : Operand)
  | addPkt (c : Ctl) (sh : Shape) (lam : Bool) (m : FpMod) (d a b : Operand)
  | subPkt (c : Ctl) (sh : Shape) (lam : Bool) (m : FpMod) (d a b : Operand)
  | mulPkt (c : Ctl) (sh : Shape) (lam : Bool) (m : FpMod) (d a b : Operand)
  | fmaAccPkt (c : Ctl) (sh : Shape) (lam : Bool) (m : FpMod) (d a b : Operand)
  | fmaHorPkt (c : Ctl) (sh : Shape) (lam : Bool) (m : FpMod) (d a b : Operand)
  | minPkt (c : Ctl) (sh : Shape) (lam : Bool) (m : FpMod) (d a b : Operand)
  | maxPkt (c : Ctl) (sh : Shape) (lam : Bool) (m : FpMod) (d a b : Operand)
  | cmpPkt (c : Ctl) (sh : Shape) (ftzi : Bool) (cond : Cond) (d a b : Operand)
  | dot (c : Ctl) (sh : Shape) (lam : Bool) (m : FpMod) (d a b : Operand)
  | hsum (c : Ctl) (sh : Shape) (lam : Bool) (m : FpMod) (d a b : Operand)
  | hmax (c : Ctl) (sh : Shape) (lam : Bool) (m : FpMod) (d a b : Operand)
  | omse (c : Ctl) (lam : Bool) (d a b : Operand)
  | pperm (c : Ctl) (d a b : Operand)
  | plut (c : Ctl) (half : Bool) (hi : Bool) (d a b : Operand)
  | eshl (c : Ctl) (ew : EWidth) (d a b : Operand)
  | eshr (c : Ctl) (ew : EWidth) (d a b : Operand)
  | bcast (c : Ctl) (ew : EWidth) (d a b : Operand)
  | esel (c : Ctl) (ew : EWidth) (d a b : Operand)
  | eins (c : Ctl) (ew : EWidth) (d a b : Operand)
  | eext (c : Ctl) (ew : EWidth) (d a b : Operand)
  | specLerp (c : Ctl) (m : FpMod) (d a b : Operand)
  | specCie (c : Ctl) (obs64 : Bool) (m : FpMod) (d a b : Operand)
  | specMueller (c : Ctl) (k : BitVec 2) (m : FpMod) (d a b : Operand)
  | prng (c : Ctl) (shape : PrngShape) (d a b : Operand)
  | sfuRcp (c : Ctl) (v : SfuShape) (m : FpMod) (d a b : Operand)
  | sfuRsqrt (c : Ctl) (v : SfuShape) (m : FpMod) (d a b : Operand)
  | sfuSqrt (c : Ctl) (v : SfuShape) (m : FpMod) (d a b : Operand)
  | sfuExp2 (c : Ctl) (v : SfuShape) (m : FpMod) (d a b : Operand)
  | sfuLog2 (c : Ctl) (v : SfuShape) (m : FpMod) (d a b : Operand)
  | sfuSin (c : Ctl) (v : SfuShape) (m : FpMod) (d a b : Operand)
  | sfuCos (c : Ctl) (v : SfuShape) (m : FpMod) (d a b : Operand)
  | sfuTanh (c : Ctl) (v : SfuShape) (m : FpMod) (d a b : Operand)
  | sfuSigm (c : Ctl) (v : SfuShape) (m : FpMod) (d a b : Operand)
  | sfuErf (c : Ctl) (v : SfuShape) (m : FpMod) (d a b : Operand)
  | sfuGelu (c : Ctl) (v : SfuShape) (m : FpMod) (d a b : Operand)
  | sfuSilu (c : Ctl) (v : SfuShape) (m : FpMod) (d a b : Operand)
  | mxqE4M3 (c : Ctl) (m : FpMod) (d a b : Operand)
  | mxqE5M2 (c : Ctl) (m : FpMod) (d a b : Operand)
  | mxqE3M2 (c : Ctl) (m : FpMod) (d a b : Operand)
  | mxqE2M3 (c : Ctl) (m : FpMod) (d a b : Operand)
  | mxqE2M1 (c : Ctl) (half : Bool) (m : FpMod) (d a b : Operand)
  | mxqI8 (c : Ctl) (m : FpMod) (d a b : Operand)
  | cvtScalar (c : Ctl) (dst : CType) (src : CType) (m : FpMod) (d a b : Operand)
  | cvtPacket (c : Ctl) (dst : Shape) (src : PktSrc) (part : BitVec 2) (m : FpMod) (d a b : Operand)
  | shfl (c : Ctl) (size : ShflSize) (mode : ShflMode) (d a b : Operand)
  | vote (c : Ctl) (mode : VoteMode) (d a b : Operand)
  | matchV (c : Ctl) (b64 : Bool) (mode : MatchMode) (d a b : Operand)
  | scan (c : Ctl) (excl : Bool) (op : ScanOp) (d a b : Operand)
  | regroup (c : Ctl) (d a b : Operand)
  | bra (c : Ctl) (d a b : Operand)
  | brx (c : Ctl) (d a b : Operand)
  | call (c : Ctl) (d a b : Operand)
  | ret (c : Ctl) (d a b : Operand)
  | loop (c : Ctl) (d a b : Operand)
  | rep (c : Ctl) (d a b : Operand)
  | exit (c : Ctl) (d a b : Operand)
  | yield (c : Ctl) (d a b : Operand)
  | nop (c : Ctl) (d a b : Operand)
  | plop3 (c : Ctl) (tab : Byte) (d a b : Operand)
  | pget (c : Ctl) (d a b : Operand)
  | pset (c : Ctl) (d a b : Operand)
  | racq (c : Ctl) (d a b : Operand)
  | rrel (c : Ctl) (d a b : Operand)
  | xset (c : Ctl) (mode : XsetMode) (d a b : Operand)
  | xget (c : Ctl) (fld : XgetField) (d a b : Operand)
  | ld (c : Ctl) (w : MWidth) (d a b : Operand)
  | st (c : Ctl) (w : MWidth) (d a b : Operand)
  | atomExch (c : Ctl) (ord : MOrder) (sc : Scope) (ty : MType) (d a b : Operand)
  | atomCas (c : Ctl) (ord : MOrder) (sc : Scope) (ty : MType) (d a b : Operand)
  | atomAdd (c : Ctl) (ord : MOrder) (sc : Scope) (ty : MType) (d a b : Operand)
  | atomMin (c : Ctl) (ord : MOrder) (sc : Scope) (ty : MType) (d a b : Operand)
  | atomMax (c : Ctl) (ord : MOrder) (sc : Scope) (ty : MType) (d a b : Operand)
  | atomAnd (c : Ctl) (ord : MOrder) (sc : Scope) (ty : MType) (d a b : Operand)
  | atomOr (c : Ctl) (ord : MOrder) (sc : Scope) (ty : MType) (d a b : Operand)
  | atomXor (c : Ctl) (ord : MOrder) (sc : Scope) (ty : MType) (d a b : Operand)
  | stG (c : Ctl) (w : MWidth) (d a b : Operand)
  | redGAdd (c : Ctl) (ord : MOrder) (sc : Scope) (ty : MType) (d a b : Operand)
  | redGMin (c : Ctl) (ord : MOrder) (sc : Scope) (ty : MType) (d a b : Operand)
  | redGMax (c : Ctl) (ord : MOrder) (sc : Scope) (ty : MType) (d a b : Operand)
  | redGAnd (c : Ctl) (ord : MOrder) (sc : Scope) (ty : MType) (d a b : Operand)
  | redGOr (c : Ctl) (ord : MOrder) (sc : Scope) (ty : MType) (d a b : Operand)
  | redGXor (c : Ctl) (ord : MOrder) (sc : Scope) (ty : MType) (d a b : Operand)
  | redGKahan (c : Ctl) (ord : MOrder) (sc : Scope) (ty : MType) (d a b : Operand)
  | atomGExch (c : Ctl) (ord : MOrder) (sc : Scope) (ty : MType) (d a b : Operand)
  | atomGCas (c : Ctl) (ord : MOrder) (sc : Scope) (ty : MType) (d a b : Operand)
  | atomGAdd (c : Ctl) (ord : MOrder) (sc : Scope) (ty : MType) (d a b : Operand)
  | redCommit (c : Ctl) (ord : MOrder) (sc : Scope) (d a b : Operand)
  | fence (c : Ctl) (ord : MOrder) (sc : Scope) (d a b : Operand)
  | barTeam (c : Ctl) (d a b : Operand)
  | barPair (c : Ctl) (d a b : Operand)
  | barClu (c : Ctl) (d a b : Operand)
  | barSys (c : Ctl) (rel : Bool) (d a b : Operand)
  | wait (c : Ctl) (cmp : WaitCmp) (d a b : Operand)
  | qpush (c : Ctl) (d a b : Operand)
  | qpop (c : Ctl) (d a b : Operand)
  | jpostCopy (c : Ctl) (ordered : Bool) (d a b : Operand)
  | jpostGather (c : Ctl) (ordered : Bool) (d a b : Operand)
  | jpostMma (c : Ctl) (ordered : Bool) (d a b : Operand)
  | jpostMmaGather (c : Ctl) (ordered : Bool) (d a b : Operand)
  | jpostEpilogue (c : Ctl) (ordered : Bool) (d a b : Operand)
  | jwait (c : Ctl) (d a b : Operand)
  | jtest (c : Ctl) (d a b : Operand)
  | jcancel (c : Ctl) (d a b : Operand)
  | hstore (c : Ctl) (d a b : Operand)
  | hload (c : Ctl) (d a b : Operand)
  | tacq (c : Ctl) (d a b : Operand)
  | trel (c : Ctl) (d a b : Operand)
  | tstat (c : Ctl) (d a b : Operand)
  | tld (c : Ctl) (d a b : Operand)
  | tst (c : Ctl) (d a b : Operand)
  | trace (c : Ctl) (d a b : Operand)
  | traceResume (c : Ctl) (d a b : Operand)
  | stex (c : Ctl) (v : StexMode) (d a b : Operand)
  | shcProbe (c : Ctl) (d a b : Operand)
  | shcFill (c : Ctl) (d a b : Operand)
  | collArm (c : Ctl) (d a b : Operand)
  | collReady (c : Ctl) (d a b : Operand)
  | dtime (c : Ctl) (d a b : Operand)
  | sysr (c : Ctl) (d a b : Operand)
  | sysw (c : Ctl) (d a b : Operand)
  | trap (c : Ctl) (d a b : Operand)
  | tret (c : Ctl) (d a b : Operand)
  | brk (c : Ctl) (d a b : Operand)
  | launch (c : Ctl) (d a b : Operand)
  | semWaitGe (c : Ctl) (d a b : Operand)
  | semSig (c : Ctl) (set : Bool) (d a b : Operand)
  | ttrig (c : Ctl) (d a b : Operand)
  | intr (c : Ctl) (d a b : Operand)
  | qnext (c : Ctl) (d a b : Operand)
  | regroupDone (team : Nat)
  | longResultReturn (id : Nat)
  | laneRunLimit (core : Nat) (lane : Nat)
  | activeTimeLimit (core : Nat) (gslot : Nat)
  | reliefCut (core : Nat) (gslot : Nat)
  | reliefCutEnd (core : Nat) (gslot : Nat)
  | racqGrant (core : Nat)
  | groupEnd (team : Nat) (gid : Nat)
  | teamPlacement (die : Nat)
  | saveComplete (team : Nat)
  | restoreComplete (team : Nat)
  | stagingComplete (team : Nat)
  | gridEnd (grid : Nat)
  | diePortWrite (id : Nat)
  | waitPoll (team : Nat) (tid : Nat)
  | queuePushArrival (id : Nat)
  | queuePopArrival (id : Nat)
  | homeSliceRequest (id : Nat)
  | barSysPoll (team : Nat) (tid : Nat)
  | requestAck (id : Nat)
  | jobEnterQueue (core : Nat)
  | jobIssue (cluster : Nat)
  | shareComplete (cluster : Nat) (slot : Nat)
  | jobFail (cluster : Nat) (slot : Nat) (reason : Nat)
  | traceRecord (core : Nat) (slot : Nat) (pick : Nat) (fuel : Nat)
  | raySlotGrant (core : Nat)
  | stexResult (id : Nat)
  | shcRequestArrival (id : Nat)
  | shcReserveExpiry (core : Nat) (set : Nat) (way : Nat)
  | collFire (stack : Nat) (entry : Nat)
  | firingMessage (stack : Nat) (m : Posted FireMsg)
  | chunkArrival (stack : Nat) (c : Posted CollChunk)
  | collReplan (stack : Nat) (entry : Nat) (m : ReplanMsg)
  | replanTimeout (stack : Nat) (entry : Nat)
  | firingTimeout (stack : Nat) (entry : Nat)
  | collAbortArrival (stack : Nat) (entry : Nat) (count : Posted Nat)
  | migrationPeriodEnd (slice : Nat)
  | moveSwitch (frame : Nat)
  | scrubPass (unit : Nat) (corrections : Nat)
  | eccUncorrectable (site : PoisonSite)
  | parityError (site : ParitySite)
  | refreshSubarray (stack : Nat) (bank : Nat) (sub : Nat)
  | mgmtHeartbeat (stack : Nat) (missed : Bool)
  | refreshTakeover (stack : Nat)
  | refreshAllBank (stack : Nat)
  | watchdogFire (team : Nat)
  | serviceQuantumExpiry (cc : Nat)
  | ttrigTimeReached (queue : Nat)
  | kerfSample (die : Nat) (mw : Nat) (temp : Int)
  | thermalRecovery (die : Nat)
  | emergencyTimeout (die : Nat)
  | powerSensorSilent (die : Nat)
  | dieIdle (die : Nat)
  | powerGood
  | pcieLinkTrained (port : Nat)
  | bootWaitTimer
  | bootStart (p0 : Bool) (p1 : Bool)
  | bootLength (port : Nat) (units : Nat)
  | bundleVerifyDone
  | loadingDone
  | bootGen (port : Nat) (v : DWord)
  | attestTrigger (port : Nat)
  | attestReportReady (selfTest : Bool)
  | standbyEnter (port : Nat)
  | standbyExit (port : Nat)
  | portSemaphoreRead (port : Nat) (n : Nat) (same : Option SemAccess)
  | portSemaphoreRelease (port : Nat) (n : Nat) (v : SemWrite)
  | doorbell (fn : HostFn) (queue : Nat) (v : DWord)
  | queueEnable (fn : HostFn) (queue : Nat) (w0 : DWord)
  | queueDisable (fn : HostFn) (queue : Nat) (w0 : DWord)
  | queueProgWrite (fn : HostFn) (queue : Nat) (v : DWord)
  | ownerEntryWrite (port : Nat) (die : Nat) (granule : Nat) (v : Word)
  | migrationRead (port : Nat) (frame : Nat)
  | migrationWrite (port : Nat) (frame : Nat)
  | contextInvalidation (port : Nat) (ctx : Nat)
  | invalidationComplete
  | faultRetry (port : Nat) (ctx : Nat) (page : Nat)
  | faultFail (port : Nat) (ctx : Nat) (page : Nat)
  | rayDiscard (port : Nat) (ctx : Nat)
  | pairReopen (port : Nat) (v : DWord)
  | resyncArrival (src : PeerId) (seq : Nat)
  | timeSet (port : Nat) (v : DWord)
  | mgmtRegisterWrite (fn : HostFn) (off : Nat) (v : DWord)
  | bar2Access (port : Nat) (op : BarOp)
  | bar4Access (port : Nat) (op : BarOp)
  | pcieAtomicOp (port : Nat) (op : PcieAtomic)
  | hostPortLost (port : Nat)
  | portSemReleaseTimeout (port : Nat)
  | ptpMessage (h : PtpHead) (m : PtpMsg)
  | ppsInput
  | flitCrcError (link : LinkId)
  | laneSignalLoss (link : LinkId)
  | replayLimit (link : LinkId)
  | creditTimeout (link : LinkId)
  | portRetrain (link : LinkId)
  | portUp (link : LinkId)
  | portDegraded (link : LinkId) (low : Bool)
  | e2eResendTimeout (dst : PeerId) (seq : Nat)
  | suspectExpiry (link : LinkId) (dst : PeerId)
  | e2eRequestArrival (r : RemoteReq)
  | e2eAckArrival (dst : PeerId) (seq : Nat) (ans : Option DWord)
  | e2eBusyAnswer (dst : PeerId) (seq : Nat)
  | unreachableAnswer (dst : PeerId) (gen : Nat)
  | unreachableDeclare (dst : PeerId)
  | contextTableWrite (port : Nat) (ctx : Nat) (word : Nat) (v : DWord)
  | portDisable (port : Nat) (link : LinkId) (v : DWord)
  | deferredFaultArrival (id : Nat)
  | receiptAcknowledgement (src : PeerId) (seq : Nat)
  | reopenRetry
  | refreshEnd (stack : Nat)
  | powerOff
  | referenceInputChange (present : Bool)
  | ppsOutputEdge
  deriving DecidableEq, Repr

end Sys2Proof
end

