-- ==== Sys2Proof/Machine/Roles.lean ====
section
/-! DEFINITION. Which operands and modifier fields each instruction accepts (R43 to R51, R131 to R139, R166, R202, R239 and the
instruction tables): the part of R141 that depends on the slot alone. -/

namespace Sys2Proof.Roles

/-- How a role reads an immediate (R132). -/
inductive ImmTy where
  | int | f32 | f64 | bf16 | f16 | pat8 | pat6 | pat4
  deriving DecidableEq, Repr

/-- The role kinds of R166, R202, R239 and R240. -/
inductive Role where
  /-- the field holds 0x0E_0000 (R136) -/
  | unused
  /-- scalar destination, 32 bits or narrower, or 64 bits (`wide`) -/
  | dst (wide : Bool)
  /-- the same, or unused -/
  | optDst (wide : Bool)
  /-- 32-bit scalar destination, file g only (R189, R195, R231) -/
  | gDst
  /-- 128-bit source, and 128-bit destination, file g (R202) -/
  | quad
  | quadDst
  /-- packet destination -/
  | pktDst
  /-- predicate source or destination -/
  | pred
  /-- the predicate set p0 to p6 (R195) -/
  | predSet
  /-- scalar source, 32 bits or narrower, or 64 bits; `flt`: negate and absolute accepted -/
  | src (wide : Bool) (t : ImmTy) (flt : Bool)
  /-- packet source -/
  | pkt (t : ImmTy) (flt : Bool)
  /-- `n` consecutive packets of file g (R186, R191, R239) -/
  | packets (n : Nat)
  /-- index register -/
  | index
  /-- handle -/
  | handle
  /-- handle, or unused -/
  | optHandle
  /-- tile operand -/
  | tile
  /-- immediate from 0 to `hi` -/
  | immTo (hi : Nat)
  /-- allocation units: an immediate from 1 to 4 -/
  | units
  /-- branch target: any immediate -/
  | branch
  /-- `sr.lambda` as the destination of `sysw` (R280) -/
  | lambda
  deriving DecidableEq, Repr

/-- The sr indices of R48 that a role of 32 bits or narrower may name. -/
def srNarrow (i : Nat) : Bool :=
  i ≤ 10 || (12 ≤ i && i ≤ 14) || (16 ≤ i && i ≤ 18) || i == 20 || i == 21 || i == 24 || i == 25

/-- The 32-bit sr registers of R48, which packet roles accept. -/
def sr32 (i : Nat) : Bool := i ≤ 10 || (12 ≤ i && i ≤ 14) || i == 18

/-- The even indices of the 64-bit sr registers (R48). -/
def srWide (i : Nat) : Bool := i == 16 || i == 20 || i == 24

/-- Whether an immediate payload is an encoding of the role's type (R132). -/
def immOk (t : ImmTy) (v : BitVec 20) : Bool :=
  match t with
  | .int | .f32 | .f64 => true
  | .bf16 => v.toNat % 16 == 0
  | .f16 => v.toNat < 65536
  | .pat8 => v.toNat < 256
  | .pat6 => v.toNat < 64
  | .pat4 => v.toNat < 16

/-- Whether a role accepts an operand (R136). -/
def accepts : Role → Operand → Bool
  | .unused, o => o == .none
  | .dst false, .reg .g false false _ => true
  | .dst true, .reg .g false false i => i.toNat < 256
  | .dst w, .reg .y false false i => i.toNat < 64 && (!w || i.toNat % 2 == 0)
  | .dst _, .ind _ _ _ => true
  | .optDst _, .none => true
  | .optDst false, .reg .g false false _ => true
  | .optDst true, .reg .g false false i => i.toNat < 256
  | .optDst w, .reg .y false false i => i.toNat < 64 && (!w || i.toNat % 2 == 0)
  | .optDst _, .ind _ _ _ => true
  | .gDst, .reg .g false false _ => true
  | .gDst, .ind _ _ _ => true
  | .quad, .reg .g false false i => i.toNat < 256 && i.toNat % 2 == 0
  | .quad, .ind _ _ _ => true
  | .quadDst, .reg .g false false i => i.toNat < 256 && i.toNat % 2 == 0
  | .quadDst, .ind _ _ _ => true
  | .pktDst, .reg .g false false i => i.toNat < 64
  | .pktDst, .ind _ _ _ => true
  | .pred, .reg .p false false i => i.toNat < 8
  | .predSet, .reg .p false false i => i.toNat == 0
  | .src w _ flt, .reg .g neg abs i => (flt || (!neg && !abs)) && (!w || i.toNat < 256)
  | .src w _ flt, .reg .y neg abs i => (flt || (!neg && !abs)) && i.toNat < 64 && (!w || i.toNat % 2 == 0)
  | .src w _ flt, .reg .sr neg abs i => (flt || (!neg && !abs)) && (if w then srWide i.toNat else srNarrow i.toNat)
  | .src _ _ _, .ind _ _ _ => true
  | .src _ t _, .imm v => immOk t v
  | .src w _ _, .cbank b o => b.toNat < 15 && o.toNat < 16384 && (!w || o.toNat % 2 == 0)
  | .src w _ _, .lit sel d => d.toNat ≠ 0 && (if w then sel.toNat == 2 else sel.toNat < 2)
  | .pkt _ flt, .reg .g neg abs i => (flt || (!neg && !abs)) && i.toNat < 64
  | .pkt _ flt, .reg .y neg abs i => (flt || (!neg && !abs)) && i.toNat < 64
  | .pkt _ flt, .reg .sr neg abs i => (flt || (!neg && !abs)) && sr32 i.toNat
  | .pkt _ _, .ind _ _ _ => true
  | .pkt t _, .imm v => immOk t v
  | .pkt _ _, .cbank b o => b.toNat < 15 && o.toNat < 16384
  | .pkt _ _, .lit sel d => d.toNat ≠ 0 && sel.toNat < 2
  | .packets n, .reg .g false false i => i.toNat + n ≤ 64
  | .packets _, .ind _ _ _ => true
  | .index, .reg .x false false i => i.toNat < 8
  | .handle, .reg .h false false i => i.toNat < 16
  | .optHandle, .reg .h false false i => i.toNat < 16
  | .optHandle, .none => true
  | .tile, .reg .t false false i => i.toNat < 8
  | .immTo hi, .imm v => v.toNat ≤ hi
  | .units, .imm v => 1 ≤ v.toNat && v.toNat ≤ 4
  | .branch, .imm _ => true
  | .lambda, .reg .sr false false i => i.toNat == 16
  | _, _ => false

/-- The immediate type of an element of a shape (R132). -/
def shapeImm : Shape → ImmTy
  | .f32x8 => .f32 | .f16x16 => .f16 | .bf16x16 => .bf16
  | .e4m3x32 | .e5m2x32 => .pat8
  | .e3m2x32 | .e2m3x32 => .pat6
  | .e2m1x64 | .i4x64 | .n4x64 => .pat4
  | .i32x8 | .n32x8 | .i16x16 | .n16x16 | .i8x32 | .n8x32 => .int

/-- Whether a shape is floating point (R156). -/
def shapeFp : Shape → Bool
  | .f32x8 | .f16x16 | .bf16x16 | .e4m3x32 | .e5m2x32 | .e3m2x32 | .e2m3x32 | .e2m1x64 => true
  | .i32x8 | .n32x8 | .i16x16 | .n16x16 | .i8x32 | .n8x32 | .i4x64 | .n4x64 => false

/-- Whether a type of R139 is 64 bits wide. -/
def mWide : MType → Bool
  | .b64 | .i64 | .n64 | .f64 => true
  | .b32 | .i32 | .n32 | .f32 => false

def mImm : MType → ImmTy
  | .f32 => .f32 | .f64 => .f64 | _ => .int

/-- Whether a type of R159 is 64 bits wide. -/
def cWide : CType → Bool
  | .f64 | .i64 | .n64 => true
  | _ => false

def cImm : CType → ImmTy
  | .f32 => .f32 | .f64 => .f64 | .f16 => .f16 | .bf16 => .bf16 | _ => .int

def cFp : CType → Bool
  | .f32 | .f64 | .f16 | .bf16 => true
  | _ => false

/-- The source shape of a packet conversion as a shape (R159). -/
def pktSrcShape : PktSrc → Shape
  | .f32x8 => .f32x8 | .f16x16 => .f16x16 | .bf16x16 => .bf16x16 | .e4m3x32 => .e4m3x32
  | .e5m2x32 => .e5m2x32 | .e2m1x64 => .e2m1x64 | .i32x8 => .i32x8 | .i8x32 => .i8x32

/-- Elements of a shape (R156). -/
def shapeCount : Shape → Nat
  | .f32x8 | .i32x8 | .n32x8 => 8
  | .f16x16 | .bf16x16 | .i16x16 | .n16x16 => 16
  | .e4m3x32 | .e5m2x32 | .e3m2x32 | .e2m3x32 | .i8x32 | .n8x32 => 32
  | .e2m1x64 | .i4x64 | .n4x64 => 64

def fImm : FFmt → ImmTy
  | .f32 => .f32 | .f64 => .f64

def isW64 : IWidth → Bool
  | .w64 => true
  | _ => false

/-- Widths 32 and 64 only (R154). -/
def wide32 : IWidth → Bool
  | .w32 | .w64 => true
  | _ => false

/-- Shapes 0x0 to 0x2 (R157). -/
def shape3 : Shape → Bool
  | .f32x8 | .f16x16 | .bf16x16 => true
  | _ => false

/-- Shapes of `add` (R157): 0x0 to 0x2 and 0x8 to 0xD. -/
def shapeAdd : Shape → Bool
  | .f32x8 | .f16x16 | .bf16x16 | .i32x8 | .n32x8 | .i16x16 | .n16x16 | .i8x32 | .n8x32 => true
  | _ => false

/-- No modifier of R66 set. -/
def plain (m : FpMod) : Bool := m == ⟨false, false, false, .rne⟩

/-- Only ftzi may be set. -/
def onlyFtzi (m : FpMod) : Bool := !m.sat && !m.ftzo && m.rnd == .rne

/-- The modifiers of class 2 (R177): R66 with `.lam` on f32x8 for floating shapes; `.lam` on 32-bit elements and sat where
`satOk` for integer shapes. -/
def pktMod (sh : Shape) (lam : Bool) (m : FpMod) (satOk : Bool) : Bool :=
  if shapeFp sh then !lam || sh == .f32x8
  else (!lam || sh == .i32x8 || sh == .n32x8) && (plain m || (satOk && m == ⟨true, false, false, .rne⟩))

/-- `min` and `max` on packets (R178): ftzi and `.lam` on floating shapes, `.lam` alone on integer shapes. -/
def pktMinMax (sh : Shape) (lam : Bool) (m : FpMod) : Bool :=
  shapeAdd sh && pktMod sh lam m false && (if shapeFp sh then onlyFtzi m else plain m)

/-- The ordered conditions of integer comparisons (R173, R179): codes 000 to 101. -/
def ordCond : Cond → Bool
  | .unord | .ord => false
  | _ => true

/-- Types of `atom` exch, cas, and, or, xor (R209): b32, b64. -/
def tyBits : MType → Bool
  | .b32 | .b64 => true
  | _ => false

/-- Types of `atom` add, min, max (R209, R214) and of `red.g` min, max (R212): i32, i64, n32, n64, f32. -/
def tyArith : MType → Bool
  | .i32 | .i64 | .n32 | .n64 | .f32 => true
  | _ => false

/-- Types of `red.g` add (R212): those and f64. -/
def tyRed : MType → Bool
  | .i32 | .i64 | .n32 | .n64 | .f32 | .f64 => true
  | _ => false

/-- Orders of posted reductions and commits (R212, R216): rlx, rel. -/
def ordRed : MOrder → Bool
  | .rlx | .rel => true
  | _ => false

/-- `.f32` and `.f32x8` special functions require RNE (R190). -/
def sfuMod (v : SfuShape) (m : FpMod) : Bool :=
  match v with
  | .f32 | .f32x8 => m.rnd == .rne
  | .f16x16 | .bf16x16 => true

/-- Element counts of a packet conversion: not a factor of 8, and the part below the ratio (R193). -/
def cvtPart (ds ss : Shape) (p : BitVec 2) : Bool :=
  let nd := shapeCount ds
  let ns := shapeCount ss
  let r := if ns < nd then nd / ns else ns / nd
  r < 8 && p.toNat < r

def sfuD : SfuShape → Role
  | .f32 => .dst false
  | _ => .pktDst

def sfuA : SfuShape → Role
  | .f32 => .src false .f32 true
  | .f32x8 => .pkt .f32 true
  | .f16x16 => .pkt .f16 true
  | .bf16x16 => .pkt .bf16 true

/-- The source role of `st` and `st.g` data (R206). -/
def stD : MWidth → Role
  | .b8 | .b16 | .b32 => .src false .int false
  | .b64 => .src true .int false
  | .b128 => .quad
  | .b256 => .pkt .int false

/-- The destination role of `ld` (R206). -/
def ldD : MWidth → Role
  | .b8 | .b16 | .b32 => .dst false
  | .b64 => .dst true
  | .b128 => .quadDst
  | .b256 => .pktDst

def shflD : ShflSize → Role
  | .b32 => .dst false | .b64 => .dst true | .b256 => .pktDst

def shflA : ShflSize → Role
  | .b32 => .src false .int false | .b64 => .src true .int false | .b256 => .pkt .int false

def prngD : PrngShape → Role
  | .b32 | .f32 => .gDst
  | .b32x8 | .f32x8 => .pktDst

/-- A 32-bit source whose immediate is an integer. -/
def s32 : Role := .src false .int false
/-- A 64-bit source whose immediate is an integer. -/
def s64 : Role := .src true .int false
/-- A packet source of 32-bit elements whose immediate is an integer. -/
def pk32 : Role := .pkt .int false

/-- The roles of operands D, A and B of each instruction (R171 to R201, R206 to R238, R240). Events have none. Packet sources take negate
and absolute where their description is that of R174 (R178), and R179 to R182 name no such role (DEDUCED, log 50). -/
def rolesOf : Instr → Role × Role × Role
  | .add _ w _ _ _ _ => (.dst (isW64 w), .src (isW64 w) .int false, .src (isW64 w) .int false)
  | .sub _ w _ _ _ _ => (.dst (isW64 w), .src (isW64 w) .int false, .src (isW64 w) .int false)
  | .mul _ w _ _ _ => (.dst (isW64 w), .src (isW64 w) .int false, .src (isW64 w) .int false)
  | .mulHiI _ w _ _ _ => (.dst (isW64 w), .src (isW64 w) .int false, .src (isW64 w) .int false)
  | .mulHiN _ w _ _ _ => (.dst (isW64 w), .src (isW64 w) .int false, .src (isW64 w) .int false)
  | .mad _ w _ _ _ => (.dst (isW64 w), .src (isW64 w) .int false, .src (isW64 w) .int false)
  | .minI _ w _ _ _ => (.dst (isW64 w), .src (isW64 w) .int false, .src (isW64 w) .int false)
  | .minN _ w _ _ _ => (.dst (isW64 w), .src (isW64 w) .int false, .src (isW64 w) .int false)
  | .maxI _ w _ _ _ => (.dst (isW64 w), .src (isW64 w) .int false, .src (isW64 w) .int false)
  | .maxN _ w _ _ _ => (.dst (isW64 w), .src (isW64 w) .int false, .src (isW64 w) .int false)
  | .shl _ w _ _ _ => (.dst (isW64 w), .src (isW64 w) .int false, s32)
  | .shrN _ w _ _ _ => (.dst (isW64 w), .src (isW64 w) .int false, s32)
  | .shrI _ w _ _ _ => (.dst (isW64 w), .src (isW64 w) .int false, s32)
  | .rol _ w _ _ _ => (.dst (isW64 w), .src (isW64 w) .int false, s32)
  | .lop3 _ w _ _ _ _ => (.dst (isW64 w), .src (isW64 w) .int false, .src (isW64 w) .int false)
  | .popc _ w _ _ _ => (.dst (isW64 w), .src (isW64 w) .int false, .unused)
  | .clz _ w _ _ _ => (.dst (isW64 w), .src (isW64 w) .int false, .unused)
  | .ctz _ w _ _ _ => (.dst (isW64 w), .src (isW64 w) .int false, .unused)
  | .brev _ w _ _ _ => (.dst (isW64 w), .src (isW64 w) .int false, .unused)
  | .bfeN _ w _ _ _ => (.dst (isW64 w), .src (isW64 w) .int false, s32)
  | .bfeI _ w _ _ _ => (.dst (isW64 w), .src (isW64 w) .int false, s32)
  | .bfi _ w _ _ _ => (.dst (isW64 w), .src (isW64 w) .int false, s32)
  | .lea _ w _ _ _ _ => (.dst (isW64 w), .src (isW64 w) .int false, .src (isW64 w) .int false)
  | .cmpI _ w _ _ _ _ => (.pred, .src (isW64 w) .int false, .src (isW64 w) .int false)
  | .cmpN _ w _ _ _ _ => (.pred, .src (isW64 w) .int false, .src (isW64 w) .int false)
  | .sel _ w _ _ _ _ _ => (.dst (isW64 w), .src (isW64 w) .int false, .src (isW64 w) .int false)
  | .mov _ w _ _ _ => (.dst (isW64 w), .src (isW64 w) .int false, .unused)
  | .addFp _ fmt _ _ _ _ => (.dst (fmt == .f64), .src (fmt == .f64) (fImm fmt) true, .src (fmt == .f64) (fImm fmt) true)
  | .subFp _ fmt _ _ _ _ => (.dst (fmt == .f64), .src (fmt == .f64) (fImm fmt) true, .src (fmt == .f64) (fImm fmt) true)
  | .mulFp _ fmt _ _ _ _ => (.dst (fmt == .f64), .src (fmt == .f64) (fImm fmt) true, .src (fmt == .f64) (fImm fmt) true)
  | .fmaAcc _ fmt _ _ _ _ => (.dst (fmt == .f64), .src (fmt == .f64) (fImm fmt) true, .src (fmt == .f64) (fImm fmt) true)
  | .fmaHor _ fmt _ _ _ _ => (.dst (fmt == .f64), .src (fmt == .f64) (fImm fmt) true, .src (fmt == .f64) (fImm fmt) true)
  | .minFp _ _ _ _ _ => (.dst false, .src false .f32 true, .src false .f32 true)
  | .maxFp _ _ _ _ _ => (.dst false, .src false .f32 true, .src false .f32 true)
  | .cmpFp _ fmt _ _ _ _ _ => (.pred, .src (fmt == .f64) (fImm fmt) true, .src (fmt == .f64) (fImm fmt) true)
  | .classFp _ _ _ _ => (.dst false, .src false .f32 true, .unused)
  | .addPkt _ sh _ _ _ _ _ => (.pktDst, .pkt (shapeImm sh) (shapeFp sh), .pkt (shapeImm sh) (shapeFp sh))
  | .subPkt _ sh _ _ _ _ _ => (.pktDst, .pkt (shapeImm sh) (shapeFp sh), .pkt (shapeImm sh) (shapeFp sh))
  | .mulPkt _ sh _ _ _ _ _ => (.pktDst, .pkt (shapeImm sh) (shapeFp sh), .pkt (shapeImm sh) (shapeFp sh))
  | .fmaAccPkt _ sh _ _ _ _ _ => (.pktDst, .pkt (shapeImm sh) (shapeFp sh), .pkt (shapeImm sh) (shapeFp sh))
  | .fmaHorPkt _ sh _ _ _ _ _ => (.pktDst, .pkt (shapeImm sh) (shapeFp sh), .pkt (shapeImm sh) (shapeFp sh))
  | .minPkt _ sh _ _ _ _ _ => (.pktDst, .pkt (shapeImm sh) (shapeFp sh), .pkt (shapeImm sh) (shapeFp sh))
  | .maxPkt _ sh _ _ _ _ _ => (.pktDst, .pkt (shapeImm sh) (shapeFp sh), .pkt (shapeImm sh) (shapeFp sh))
  | .cmpPkt _ sh _ _ _ _ _ => (.dst false, .pkt (shapeImm sh) false, .pkt (shapeImm sh) false)
  | .dot _ sh _ _ _ _ _ => (.dst false, .pkt (shapeImm sh) false, .pkt (shapeImm sh) false)
  | .hsum _ sh _ _ _ _ _ => (.dst false, .pkt (shapeImm sh) false, .unused)
  | .hmax _ sh _ _ _ _ _ => (.dst false, .pkt (shapeImm sh) false, .unused)
  | .omse _ _ _ _ _ => (.dst true, .pkt .f32 false, .unused)
  | .pperm _ _ _ _ => (.pktDst, pk32, pk32)
  | .plut _ _ _ _ _ _ => (.pktDst, pk32, pk32)
  | .eshl _ _ _ _ _ => (.pktDst, pk32, s32)
  | .eshr _ _ _ _ _ => (.pktDst, pk32, s32)
  | .bcast _ _ _ _ _ => (.pktDst, pk32, s32)
  | .esel _ ew _ _ _ => (.pktDst, pk32, .src (ew == .e4) .int false)
  | .eins _ _ _ _ _ => (.pktDst, s32, s32)
  | .eext _ _ _ _ _ => (.dst false, pk32, s32)
  | .specLerp _ _ _ _ _ => (.pktDst, .packets 2, s32)
  | .specCie _ _ _ _ _ _ => (.pktDst, .pkt .f32 true, .src false .f32 true)
  | .specMueller _ _ _ _ _ _ => (.pktDst, .pkt .f32 true, .pkt .f32 true)
  | .prng _ shape _ _ _ => (prngD shape, .unused, .unused)
  | .sfuRcp _ v _ _ _ _ => (sfuD v, sfuA v, .unused)
  | .sfuRsqrt _ v _ _ _ _ => (sfuD v, sfuA v, .unused)
  | .sfuSqrt _ v _ _ _ _ => (sfuD v, sfuA v, .unused)
  | .sfuExp2 _ v _ _ _ _ => (sfuD v, sfuA v, .unused)
  | .sfuLog2 _ v _ _ _ _ => (sfuD v, sfuA v, .unused)
  | .sfuSin _ v _ _ _ _ => (sfuD v, sfuA v, .unused)
  | .sfuCos _ v _ _ _ _ => (sfuD v, sfuA v, .unused)
  | .sfuTanh _ v _ _ _ _ => (sfuD v, sfuA v, .unused)
  | .sfuSigm _ v _ _ _ _ => (sfuD v, sfuA v, .unused)
  | .sfuErf _ v _ _ _ _ => (sfuD v, sfuA v, .unused)
  | .sfuGelu _ v _ _ _ _ => (sfuD v, sfuA v, .unused)
  | .sfuSilu _ v _ _ _ _ => (sfuD v, sfuA v, .unused)
  | .mxqE4M3 _ _ _ _ _ => (.pktDst, .packets 4, .dst false)
  | .mxqE5M2 _ _ _ _ _ => (.pktDst, .packets 4, .dst false)
  | .mxqE3M2 _ _ _ _ _ => (.pktDst, .packets 4, .dst false)
  | .mxqE2M3 _ _ _ _ _ => (.pktDst, .packets 4, .dst false)
  | .mxqE2M1 _ _ _ _ _ _ => (.pktDst, .packets 4, .dst false)
  | .mxqI8 _ _ _ _ _ => (.pktDst, .packets 4, .dst false)
  | .cvtScalar _ dst src _ _ _ _ => (.dst (cWide dst), .src (cWide src) (cImm src) (cFp src), .unused)
  | .cvtPacket _ _ src _ _ _ _ _ => (.pktDst, .pkt (shapeImm (pktSrcShape src)) (shapeFp (pktSrcShape src)), .unused)
  | .shfl _ size _ _ _ _ => (shflD size, shflA size, s32)
  | .vote _ mode _ _ _ => ((match mode with | .someOf | .everyOf | .same => .pred | .mask => .dst true | .cnt | .pre => .dst false), .pred, .unused)
  | .matchV _ b64 mode _ _ _ => (.dst (mode == .mask), .src b64 .int false, .unused)
  | .scan _ _ op _ _ _ => (.dst false, .src false (if op == .addF32 then .f32 else .int) false, .unused)
  | .regroup _ _ _ _ => (.unused, s32, s32)
  | .bra _ _ _ _ => (.unused, .branch, .unused)
  | .brx _ _ _ _ => (.unused, s32, .unused)
  | .call _ _ _ _ => (.gDst, s32, .unused)
  | .ret _ _ _ _ => (.unused, s32, .unused)
  | .loop _ _ _ _ => (.dst false, .branch, .unused)
  | .rep _ _ _ _ => (.unused, s32, .unused)
  | .exit _ _ _ _ => (.unused, .unused, .unused)
  | .yield _ _ _ _ => (.unused, .unused, .unused)
  | .nop _ _ _ _ => (.unused, .unused, .unused)
  | .plop3 _ _ _ _ _ => (.pred, .pred, .pred)
  | .pget _ _ _ _ => (.gDst, .unused, .unused)
  | .pset _ _ _ _ => (.predSet, s32, s32)
  | .racq _ _ _ _ => (.unused, .units, .unused)
  | .rrel _ _ _ _ => (.unused, .units, .unused)
  | .xset _ mode _ _ _ => (.index, .src (mode == .whole) .int false, .unused)
  | .xget _ fld _ _ _ => (.dst (fld == .whole), .index, .unused)
  | .ld _ w _ _ _ => (ldD w, s64, s32)
  | .st _ w _ _ _ => (stD w, s64, s32)
  | .atomExch _ _ _ ty _ _ _ => (.optDst (mWide ty), s64, .src (mWide ty) (mImm ty) (ty == .f32))
  | .atomCas _ _ _ ty _ _ _ => (.dst (mWide ty), s64, .src (mWide ty) (mImm ty) (ty == .f32))
  | .atomAdd _ _ _ ty _ _ _ => (.optDst (mWide ty), s64, .src (mWide ty) (mImm ty) (ty == .f32))
  | .atomMin _ _ _ ty _ _ _ => (.optDst (mWide ty), s64, .src (mWide ty) (mImm ty) (ty == .f32))
  | .atomMax _ _ _ ty _ _ _ => (.optDst (mWide ty), s64, .src (mWide ty) (mImm ty) (ty == .f32))
  | .atomAnd _ _ _ ty _ _ _ => (.optDst (mWide ty), s64, .src (mWide ty) (mImm ty) (ty == .f32))
  | .atomOr _ _ _ ty _ _ _ => (.optDst (mWide ty), s64, .src (mWide ty) (mImm ty) (ty == .f32))
  | .atomXor _ _ _ ty _ _ _ => (.optDst (mWide ty), s64, .src (mWide ty) (mImm ty) (ty == .f32))
  | .stG _ w _ _ _ => (stD w, s64, s32)
  | .redGAdd _ _ _ ty _ _ _ => (.src (mWide ty) (mImm ty) (ty == .f32 || ty == .f64), s64, s32)
  | .redGMin _ _ _ ty _ _ _ => (.src (mWide ty) (mImm ty) (ty == .f32 || ty == .f64), s64, s32)
  | .redGMax _ _ _ ty _ _ _ => (.src (mWide ty) (mImm ty) (ty == .f32 || ty == .f64), s64, s32)
  | .redGAnd _ _ _ ty _ _ _ => (.src (mWide ty) (mImm ty) (ty == .f32 || ty == .f64), s64, s32)
  | .redGOr _ _ _ ty _ _ _ => (.src (mWide ty) (mImm ty) (ty == .f32 || ty == .f64), s64, s32)
  | .redGXor _ _ _ ty _ _ _ => (.src (mWide ty) (mImm ty) (ty == .f32 || ty == .f64), s64, s32)
  | .redGKahan _ _ _ ty _ _ _ => (.src (mWide ty) (mImm ty) (ty == .f32 || ty == .f64), s64, s32)
  | .atomGExch _ _ _ ty _ _ _ => (.optDst (mWide ty), s64, .src (mWide ty) (mImm ty) (ty == .f32))
  | .atomGCas _ _ _ ty _ _ _ => (.dst (mWide ty), s64, .src (mWide ty) (mImm ty) (ty == .f32))
  | .atomGAdd _ _ _ ty _ _ _ => (.optDst (mWide ty), s64, .src (mWide ty) (mImm ty) (ty == .f32))
  | .redCommit _ _ _ _ _ _ => (.unused, s64, s32)
  | .fence _ _ _ _ _ _ => (.unused, .unused, .unused)
  | .barTeam _ _ _ _ => (.unused, s32, .unused)
  | .barPair _ _ _ _ => (.unused, s32, s32)
  | .barClu _ _ _ _ => (.unused, s32, s32)
  | .barSys _ _ _ _ _ => (.unused, s64, s32)
  | .wait _ _ _ _ _ => (.unused, s64, s64)
  | .qpush _ _ _ _ => (.unused, s32, s64)
  | .qpop _ _ _ _ => (.dst true, s32, .unused)
  | .jpostCopy _ _ _ _ _ => (.optHandle, .packets 2, .unused)
  | .jpostGather _ _ _ _ _ => (.optHandle, .packets 2, .unused)
  | .jpostMma _ _ _ _ _ => (.optHandle, .packets 2, .unused)
  | .jpostMmaGather _ _ _ _ _ => (.optHandle, .packets 2, .unused)
  | .jpostEpilogue _ _ _ _ _ => (.optHandle, .packets 2, .unused)
  | .jwait _ _ _ _ => (.optDst false, .handle, .unused)
  | .jtest _ _ _ _ => (.pred, .handle, .unused)
  | .jcancel _ _ _ _ => (.unused, .handle, .unused)
  | .hstore _ _ _ _ => (.handle, s64, s32)
  | .hload _ _ _ _ => (.handle, s64, s32)
  | .tacq _ _ _ _ => (.pred, .tile, .unused)
  | .trel _ _ _ _ => (.unused, .tile, .unused)
  | .tstat _ _ _ _ => (.dst false, .tile, .unused)
  | .tld _ _ _ _ => (.pktDst, .tile, s32)
  | .tst _ _ _ _ => (.tile, pk32, s32)
  | .trace _ _ _ _ => (.pktDst, .packets 2, s64)
  | .traceResume _ _ _ _ => (.pktDst, s32, s32)
  | .stex _ _ _ _ _ => (.pktDst, pk32, s32)
  | .shcProbe _ _ _ _ => (.pktDst, s64, .unused)
  | .shcFill _ _ _ _ => (.unused, s64, pk32)
  | .collArm _ _ _ _ => (.optDst false, s64, s32)
  | .collReady _ _ _ _ => (.unused, s32, .unused)
  | .dtime _ _ _ _ => (.quadDst, .unused, .unused)
  | .sysr _ _ _ _ => (.dst true, .immTo 7, .unused)
  | .sysw _ _ _ _ => (.lambda, s64, .unused)
  | .trap _ _ _ _ => (.unused, .immTo 65535, .unused)
  | .tret _ _ _ _ => (.unused, .unused, .unused)
  | .brk _ _ _ _ => (.unused, .immTo 65535, .unused)
  | .launch _ _ _ _ => (.unused, s64, .unused)
  | .semWaitGe _ _ _ _ => (.unused, s64, s64)
  | .semSig _ _ _ _ _ => (.unused, s64, s64)
  | .ttrig _ _ _ _ => (.unused, s64, .unused)
  | .intr _ _ _ _ => (.unused, s32, .unused)
  | .qnext _ _ _ _ => (.dst true, .unused, .unused)
  | .regroupDone _ => (.unused, .unused, .unused)
  | .longResultReturn _ => (.unused, .unused, .unused)
  | .laneRunLimit _ _ => (.unused, .unused, .unused)
  | .activeTimeLimit _ _ => (.unused, .unused, .unused)
  | .reliefCut _ _ => (.unused, .unused, .unused)
  | .reliefCutEnd _ _ => (.unused, .unused, .unused)
  | .racqGrant _ => (.unused, .unused, .unused)
  | .groupEnd _ _ => (.unused, .unused, .unused)
  | .teamPlacement _ => (.unused, .unused, .unused)
  | .saveComplete _ => (.unused, .unused, .unused)
  | .restoreComplete _ => (.unused, .unused, .unused)
  | .stagingComplete _ => (.unused, .unused, .unused)
  | .gridEnd _ => (.unused, .unused, .unused)
  | .diePortWrite _ => (.unused, .unused, .unused)
  | .waitPoll _ _ => (.unused, .unused, .unused)
  | .queuePushArrival _ => (.unused, .unused, .unused)
  | .queuePopArrival _ => (.unused, .unused, .unused)
  | .homeSliceRequest _ => (.unused, .unused, .unused)
  | .barSysPoll _ _ => (.unused, .unused, .unused)
  | .requestAck _ => (.unused, .unused, .unused)
  | .jobEnterQueue _ => (.unused, .unused, .unused)
  | .jobIssue _ => (.unused, .unused, .unused)
  | .shareComplete _ _ => (.unused, .unused, .unused)
  | .jobFail _ _ _ => (.unused, .unused, .unused)
  | .traceRecord _ _ _ _ => (.unused, .unused, .unused)
  | .raySlotGrant _ => (.unused, .unused, .unused)
  | .stexResult _ => (.unused, .unused, .unused)
  | .shcRequestArrival _ => (.unused, .unused, .unused)
  | .shcReserveExpiry _ _ _ => (.unused, .unused, .unused)
  | .collFire _ _ => (.unused, .unused, .unused)
  | .firingMessage _ _ => (.unused, .unused, .unused)
  | .chunkArrival _ _ => (.unused, .unused, .unused)
  | .collReplan _ _ _ => (.unused, .unused, .unused)
  | .replanTimeout _ _ => (.unused, .unused, .unused)
  | .firingTimeout _ _ => (.unused, .unused, .unused)
  | .collAbortArrival _ _ _ => (.unused, .unused, .unused)
  | .migrationPeriodEnd _ => (.unused, .unused, .unused)
  | .moveSwitch _ => (.unused, .unused, .unused)
  | .scrubPass _ _ => (.unused, .unused, .unused)
  | .eccUncorrectable _ => (.unused, .unused, .unused)
  | .parityError _ => (.unused, .unused, .unused)
  | .refreshSubarray _ _ _ => (.unused, .unused, .unused)
  | .mgmtHeartbeat _ _ => (.unused, .unused, .unused)
  | .refreshTakeover _ => (.unused, .unused, .unused)
  | .refreshAllBank _ => (.unused, .unused, .unused)
  | .watchdogFire _ => (.unused, .unused, .unused)
  | .serviceQuantumExpiry _ => (.unused, .unused, .unused)
  | .ttrigTimeReached _ => (.unused, .unused, .unused)
  | .kerfSample _ _ _ => (.unused, .unused, .unused)
  | .thermalRecovery _ => (.unused, .unused, .unused)
  | .emergencyTimeout _ => (.unused, .unused, .unused)
  | .powerSensorSilent _ => (.unused, .unused, .unused)
  | .dieIdle _ => (.unused, .unused, .unused)
  | .powerGood => (.unused, .unused, .unused)
  | .pcieLinkTrained _ => (.unused, .unused, .unused)
  | .bootWaitTimer => (.unused, .unused, .unused)
  | .bootStart _ _ => (.unused, .unused, .unused)
  | .bootLength _ _ => (.unused, .unused, .unused)
  | .bundleVerifyDone => (.unused, .unused, .unused)
  | .loadingDone => (.unused, .unused, .unused)
  | .bootGen _ _ => (.unused, .unused, .unused)
  | .attestTrigger _ => (.unused, .unused, .unused)
  | .attestReportReady _ => (.unused, .unused, .unused)
  | .standbyEnter _ => (.unused, .unused, .unused)
  | .standbyExit _ => (.unused, .unused, .unused)
  | .portSemaphoreRead _ _ _ => (.unused, .unused, .unused)
  | .portSemaphoreRelease _ _ _ => (.unused, .unused, .unused)
  | .doorbell _ _ _ => (.unused, .unused, .unused)
  | .queueEnable _ _ _ => (.unused, .unused, .unused)
  | .queueDisable _ _ _ => (.unused, .unused, .unused)
  | .queueProgWrite _ _ _ => (.unused, .unused, .unused)
  | .ownerEntryWrite _ _ _ _ => (.unused, .unused, .unused)
  | .migrationRead _ _ => (.unused, .unused, .unused)
  | .migrationWrite _ _ => (.unused, .unused, .unused)
  | .contextInvalidation _ _ => (.unused, .unused, .unused)
  | .invalidationComplete => (.unused, .unused, .unused)
  | .faultRetry _ _ _ => (.unused, .unused, .unused)
  | .faultFail _ _ _ => (.unused, .unused, .unused)
  | .rayDiscard _ _ => (.unused, .unused, .unused)
  | .pairReopen _ _ => (.unused, .unused, .unused)
  | .resyncArrival _ _ => (.unused, .unused, .unused)
  | .timeSet _ _ => (.unused, .unused, .unused)
  | .mgmtRegisterWrite _ _ _ => (.unused, .unused, .unused)
  | .bar2Access _ _ => (.unused, .unused, .unused)
  | .bar4Access _ _ => (.unused, .unused, .unused)
  | .pcieAtomicOp _ _ => (.unused, .unused, .unused)
  | .hostPortLost _ => (.unused, .unused, .unused)
  | .portSemReleaseTimeout _ => (.unused, .unused, .unused)
  | .ptpMessage _ _ => (.unused, .unused, .unused)
  | .ppsInput => (.unused, .unused, .unused)
  | .flitCrcError _ => (.unused, .unused, .unused)
  | .laneSignalLoss _ => (.unused, .unused, .unused)
  | .replayLimit _ => (.unused, .unused, .unused)
  | .creditTimeout _ => (.unused, .unused, .unused)
  | .portRetrain _ => (.unused, .unused, .unused)
  | .portUp _ => (.unused, .unused, .unused)
  | .portDegraded _ _ => (.unused, .unused, .unused)
  | .e2eResendTimeout _ _ => (.unused, .unused, .unused)
  | .suspectExpiry _ _ => (.unused, .unused, .unused)
  | .e2eRequestArrival _ => (.unused, .unused, .unused)
  | .e2eAckArrival _ _ _ => (.unused, .unused, .unused)
  | .e2eBusyAnswer _ _ => (.unused, .unused, .unused)
  | .unreachableAnswer _ _ => (.unused, .unused, .unused)
  | .unreachableDeclare _ => (.unused, .unused, .unused)
  | .contextTableWrite _ _ _ _ => (.unused, .unused, .unused)
  | .portDisable _ _ _ => (.unused, .unused, .unused)
  | .deferredFaultArrival _ => (.unused, .unused, .unused)
  | .receiptAcknowledgement _ _ => (.unused, .unused, .unused)
  | .reopenRetry => (.unused, .unused, .unused)
  | .refreshEnd _ => (.unused, .unused, .unused)
  | .powerOff => (.unused, .unused, .unused)
  | .referenceInputChange _ => (.unused, .unused, .unused)
  | .ppsOutputEdge => (.unused, .unused, .unused)

/-- Whether an instruction's widths, shapes and modifier fields form an assigned encoding (R153 to R164, R173 to R200,
R209 to R217). Events have no encoding and pass. -/
def modOk : Instr → Bool
  | .add _ _ _ _ _ _ => true
  | .sub _ _ _ _ _ _ => true
  | .mul _ _ _ _ _ => true
  | .mulHiI _ w _ _ _ => wide32 w
  | .mulHiN _ w _ _ _ => wide32 w
  | .mad _ w _ _ _ => wide32 w
  | .minI _ _ _ _ _ => true
  | .minN _ _ _ _ _ => true
  | .maxI _ _ _ _ _ => true
  | .maxN _ _ _ _ _ => true
  | .shl _ _ _ _ _ => true
  | .shrN _ _ _ _ _ => true
  | .shrI _ _ _ _ _ => true
  | .rol _ w _ _ _ => wide32 w
  | .lop3 _ w _ _ _ _ => wide32 w
  | .popc _ w _ _ _ => wide32 w
  | .clz _ w _ _ _ => wide32 w
  | .ctz _ w _ _ _ => wide32 w
  | .brev _ w _ _ _ => wide32 w
  | .bfeN _ w _ _ _ => wide32 w
  | .bfeI _ w _ _ _ => wide32 w
  | .bfi _ w _ _ _ => wide32 w
  | .lea _ w _ _ _ _ => wide32 w
  | .cmpI _ _ cond _ _ _ => ordCond cond
  | .cmpN _ _ cond _ _ _ => ordCond cond
  | .sel _ _ _ _ _ _ _ => true
  | .mov _ _ _ _ _ => true
  | .addFp _ _ _ _ _ _ => true
  | .subFp _ _ _ _ _ _ => true
  | .mulFp _ _ _ _ _ _ => true
  | .fmaAcc _ _ _ _ _ _ => true
  | .fmaHor _ _ _ _ _ _ => true
  | .minFp _ _ _ _ _ => true
  | .maxFp _ _ _ _ _ => true
  | .cmpFp _ _ _ _ _ _ _ => true
  | .classFp _ _ _ _ => true
  | .addPkt _ sh lam m _ _ _ => shapeAdd sh && pktMod sh lam m true
  | .subPkt _ sh lam m _ _ _ => shapeAdd sh && pktMod sh lam m true
  | .mulPkt _ sh lam m _ _ _ => shapeAdd sh && pktMod sh lam m true
  | .fmaAccPkt _ sh lam m _ _ _ => shape3 sh && pktMod sh lam m false
  | .fmaHorPkt _ sh lam m _ _ _ => shape3 sh && pktMod sh lam m false
  | .minPkt _ sh lam m _ _ _ => pktMinMax sh lam m
  | .maxPkt _ sh lam m _ _ _ => pktMinMax sh lam m
  | .cmpPkt _ sh ftzi cond _ _ _ => shapeAdd sh && (if shapeFp sh then true else !ftzi && ordCond cond)
  | .dot _ sh lam m _ _ _ => pktMod sh lam m true
  | .hsum _ sh lam m _ _ _ => shape3 sh && pktMod sh lam m false
  | .hmax _ sh lam m _ _ _ => shape3 sh && pktMod sh lam m false && onlyFtzi m
  | .omse _ _ _ _ _ => true
  | .pperm _ _ _ _ => true
  | .plut _ _ _ _ _ _ => true
  | .eshl _ _ _ _ _ => true
  | .eshr _ _ _ _ _ => true
  | .bcast _ _ _ _ _ => true
  | .esel _ _ _ _ _ => true
  | .eins _ _ _ _ _ => true
  | .eext _ _ _ _ _ => true
  | .specLerp _ _ _ _ _ => true
  | .specCie _ _ _ _ _ _ => true
  | .specMueller _ _ _ _ _ _ => true
  | .prng _ _ _ _ _ => true
  | .sfuRcp _ v m _ _ _ => sfuMod v m
  | .sfuRsqrt _ v m _ _ _ => sfuMod v m
  | .sfuSqrt _ v m _ _ _ => sfuMod v m
  | .sfuExp2 _ v m _ _ _ => sfuMod v m
  | .sfuLog2 _ v m _ _ _ => sfuMod v m
  | .sfuSin _ v m _ _ _ => sfuMod v m
  | .sfuCos _ v m _ _ _ => sfuMod v m
  | .sfuTanh _ v m _ _ _ => sfuMod v m
  | .sfuSigm _ v m _ _ _ => sfuMod v m
  | .sfuErf _ v m _ _ _ => sfuMod v m
  | .sfuGelu _ v m _ _ _ => sfuMod v m
  | .sfuSilu _ v m _ _ _ => sfuMod v m
  | .mxqE4M3 _ _ _ _ _ => true
  | .mxqE5M2 _ _ _ _ _ => true
  | .mxqE3M2 _ _ _ _ _ => true
  | .mxqE2M3 _ _ _ _ _ => true
  | .mxqE2M1 _ _ _ _ _ _ => true
  | .mxqI8 _ _ _ _ _ => true
  | .cvtScalar _ dst src _ _ _ _ => dst != src
  | .cvtPacket _ dst src part _ _ _ _ => dst != pktSrcShape src && cvtPart dst (pktSrcShape src) part
  | .shfl _ _ _ _ _ _ => true
  | .vote _ _ _ _ _ => true
  | .matchV _ _ _ _ _ _ => true
  | .scan _ _ _ _ _ _ => true
  | .regroup _ _ _ _ => true
  | .bra _ _ _ _ => true
  | .brx _ _ _ _ => true
  | .call _ _ _ _ => true
  | .ret _ _ _ _ => true
  | .loop _ _ _ _ => true
  | .rep _ _ _ _ => true
  | .exit _ _ _ _ => true
  | .yield _ _ _ _ => true
  | .nop _ _ _ _ => true
  | .plop3 _ _ _ _ _ => true
  | .pget _ _ _ _ => true
  | .pset _ _ _ _ => true
  | .racq _ _ _ _ => true
  | .rrel _ _ _ _ => true
  | .xset _ _ _ _ _ => true
  | .xget _ _ _ _ _ => true
  | .ld _ _ _ _ _ => true
  | .st _ _ _ _ _ => true
  | .atomExch _ _ _ ty _ _ _ => tyBits ty
  | .atomCas _ _ _ ty _ _ _ => tyBits ty
  | .atomAdd _ _ _ ty _ _ _ => tyArith ty
  | .atomMin _ _ _ ty _ _ _ => tyArith ty
  | .atomMax _ _ _ ty _ _ _ => tyArith ty
  | .atomAnd _ _ _ ty _ _ _ => tyBits ty
  | .atomOr _ _ _ ty _ _ _ => tyBits ty
  | .atomXor _ _ _ ty _ _ _ => tyBits ty
  | .stG _ _ _ _ _ => true
  | .redGAdd _ ord _ ty _ _ _ => ordRed ord && tyRed ty
  | .redGMin _ ord _ ty _ _ _ => ordRed ord && tyArith ty
  | .redGMax _ ord _ ty _ _ _ => ordRed ord && tyArith ty
  | .redGAnd _ ord _ ty _ _ _ => ordRed ord && tyBits ty
  | .redGOr _ ord _ ty _ _ _ => ordRed ord && tyBits ty
  | .redGXor _ ord _ ty _ _ _ => ordRed ord && tyBits ty
  | .redGKahan _ ord _ ty _ _ _ => ordRed ord && ty == .f32
  | .atomGExch _ _ _ ty _ _ _ => tyBits ty
  | .atomGCas _ _ _ ty _ _ _ => tyBits ty
  | .atomGAdd _ _ _ ty _ _ _ => tyArith ty
  | .redCommit _ ord _ _ _ _ => ordRed ord
  | .fence _ ord _ _ _ _ => ord != .rlx
  | .barTeam _ _ _ _ => true
  | .barPair _ _ _ _ => true
  | .barClu _ _ _ _ => true
  | .barSys _ _ _ _ _ => true
  | .wait _ _ _ _ _ => true
  | .qpush _ _ _ _ => true
  | .qpop _ _ _ _ => true
  | .jpostCopy _ _ _ _ _ => true
  | .jpostGather _ _ _ _ _ => true
  | .jpostMma _ _ _ _ _ => true
  | .jpostMmaGather _ _ _ _ _ => true
  | .jpostEpilogue _ _ _ _ _ => true
  | .jwait _ _ _ _ => true
  | .jtest _ _ _ _ => true
  | .jcancel _ _ _ _ => true
  | .hstore _ _ _ _ => true
  | .hload _ _ _ _ => true
  | .tacq _ _ _ _ => true
  | .trel _ _ _ _ => true
  | .tstat _ _ _ _ => true
  | .tld _ _ _ _ => true
  | .tst _ _ _ _ => true
  | .trace _ _ _ _ => true
  | .traceResume _ _ _ _ => true
  | .stex _ _ _ _ _ => true
  | .shcProbe _ _ _ _ => true
  | .shcFill _ _ _ _ => true
  | .collArm _ _ _ _ => true
  | .collReady _ _ _ _ => true
  | .dtime _ _ _ _ => true
  | .sysr _ _ _ _ => true
  | .sysw _ _ _ _ => true
  | .trap _ _ _ _ => true
  | .tret _ _ _ _ => true
  | .brk _ _ _ _ => true
  | .launch _ _ _ _ => true
  | .semWaitGe _ _ _ _ => true
  | .semSig _ _ _ _ _ => true
  | .ttrig _ _ _ _ => true
  | .intr _ _ _ _ => true
  | .qnext _ _ _ _ => true
  | .regroupDone _ => true
  | .longResultReturn _ => true
  | .laneRunLimit _ _ => true
  | .activeTimeLimit _ _ => true
  | .reliefCut _ _ => true
  | .reliefCutEnd _ _ => true
  | .racqGrant _ => true
  | .groupEnd _ _ => true
  | .teamPlacement _ => true
  | .saveComplete _ => true
  | .restoreComplete _ => true
  | .stagingComplete _ => true
  | .gridEnd _ => true
  | .diePortWrite _ => true
  | .waitPoll _ _ => true
  | .queuePushArrival _ => true
  | .queuePopArrival _ => true
  | .homeSliceRequest _ => true
  | .barSysPoll _ _ => true
  | .requestAck _ => true
  | .jobEnterQueue _ => true
  | .jobIssue _ => true
  | .shareComplete _ _ => true
  | .jobFail _ _ _ => true
  | .traceRecord _ _ _ _ => true
  | .raySlotGrant _ => true
  | .stexResult _ => true
  | .shcRequestArrival _ => true
  | .shcReserveExpiry _ _ _ => true
  | .collFire _ _ => true
  | .firingMessage _ _ => true
  | .chunkArrival _ _ => true
  | .collReplan _ _ _ => true
  | .replanTimeout _ _ => true
  | .firingTimeout _ _ => true
  | .collAbortArrival _ _ _ => true
  | .migrationPeriodEnd _ => true
  | .moveSwitch _ => true
  | .scrubPass _ _ => true
  | .eccUncorrectable _ => true
  | .parityError _ => true
  | .refreshSubarray _ _ _ => true
  | .mgmtHeartbeat _ _ => true
  | .refreshTakeover _ => true
  | .refreshAllBank _ => true
  | .watchdogFire _ => true
  | .serviceQuantumExpiry _ => true
  | .ttrigTimeReached _ => true
  | .kerfSample _ _ _ => true
  | .thermalRecovery _ => true
  | .emergencyTimeout _ => true
  | .powerSensorSilent _ => true
  | .dieIdle _ => true
  | .powerGood => true
  | .pcieLinkTrained _ => true
  | .bootWaitTimer => true
  | .bootStart _ _ => true
  | .bootLength _ _ => true
  | .bundleVerifyDone => true
  | .loadingDone => true
  | .bootGen _ _ => true
  | .attestTrigger _ => true
  | .attestReportReady _ => true
  | .standbyEnter _ => true
  | .standbyExit _ => true
  | .portSemaphoreRead _ _ _ => true
  | .portSemaphoreRelease _ _ _ => true
  | .doorbell _ _ _ => true
  | .queueEnable _ _ _ => true
  | .queueDisable _ _ _ => true
  | .queueProgWrite _ _ _ => true
  | .ownerEntryWrite _ _ _ _ => true
  | .migrationRead _ _ => true
  | .migrationWrite _ _ => true
  | .contextInvalidation _ _ => true
  | .invalidationComplete => true
  | .faultRetry _ _ _ => true
  | .faultFail _ _ _ => true
  | .rayDiscard _ _ => true
  | .pairReopen _ _ => true
  | .resyncArrival _ _ => true
  | .timeSet _ _ => true
  | .mgmtRegisterWrite _ _ _ => true
  | .bar2Access _ _ => true
  | .bar4Access _ _ => true
  | .pcieAtomicOp _ _ => true
  | .hostPortLost _ => true
  | .portSemReleaseTimeout _ => true
  | .ptpMessage _ _ => true
  | .ppsInput => true
  | .flitCrcError _ => true
  | .laneSignalLoss _ => true
  | .replayLimit _ => true
  | .creditTimeout _ => true
  | .portRetrain _ => true
  | .portUp _ => true
  | .portDegraded _ _ => true
  | .e2eResendTimeout _ _ => true
  | .suspectExpiry _ _ => true
  | .e2eRequestArrival _ => true
  | .e2eAckArrival _ _ _ => true
  | .e2eBusyAnswer _ _ => true
  | .unreachableAnswer _ _ => true
  | .unreachableDeclare _ => true
  | .contextTableWrite _ _ _ _ => true
  | .portDisable _ _ _ => true
  | .deferredFaultArrival _ => true
  | .receiptAcknowledgement _ _ => true
  | .reopenRetry => true
  | .refreshEnd _ => true
  | .powerOff => true
  | .referenceInputChange _ => true
  | .ppsOutputEdge => true

/-- The operands D, A and B; events have none. -/
def opsOf : Instr → Operand × Operand × Operand
  | .add _ _ _ d a b => (d, a, b)
  | .sub _ _ _ d a b => (d, a, b)
  | .mul _ _ d a b => (d, a, b)
  | .mulHiI _ _ d a b => (d, a, b)
  | .mulHiN _ _ d a b => (d, a, b)
  | .mad _ _ d a b => (d, a, b)
  | .minI _ _ d a b => (d, a, b)
  | .minN _ _ d a b => (d, a, b)
  | .maxI _ _ d a b => (d, a, b)
  | .maxN _ _ d a b => (d, a, b)
  | .shl _ _ d a b => (d, a, b)
  | .shrN _ _ d a b => (d, a, b)
  | .shrI _ _ d a b => (d, a, b)
  | .rol _ _ d a b => (d, a, b)
  | .lop3 _ _ _ d a b => (d, a, b)
  | .popc _ _ d a b => (d, a, b)
  | .clz _ _ d a b => (d, a, b)
  | .ctz _ _ d a b => (d, a, b)
  | .brev _ _ d a b => (d, a, b)
  | .bfeN _ _ d a b => (d, a, b)
  | .bfeI _ _ d a b => (d, a, b)
  | .bfi _ _ d a b => (d, a, b)
  | .lea _ _ _ d a b => (d, a, b)
  | .cmpI _ _ _ d a b => (d, a, b)
  | .cmpN _ _ _ d a b => (d, a, b)
  | .sel _ _ _ _ d a b => (d, a, b)
  | .mov _ _ d a b => (d, a, b)
  | .addFp _ _ _ d a b => (d, a, b)
  | .subFp _ _ _ d a b => (d, a, b)
  | .mulFp _ _ _ d a b => (d, a, b)
  | .fmaAcc _ _ _ d a b => (d, a, b)
  | .fmaHor _ _ _ d a b => (d, a, b)
  | .minFp _ _ d a b => (d, a, b)
  | .maxFp _ _ d a b => (d, a, b)
  | .cmpFp _ _ _ _ d a b => (d, a, b)
  | .classFp _ d a b => (d, a, b)
  | .addPkt _ _ _ _ d a b => (d, a, b)
  | .subPkt _ _ _ _ d a b => (d, a, b)
  | .mulPkt _ _ _ _ d a b => (d, a, b)
  | .fmaAccPkt _ _ _ _ d a b => (d, a, b)
  | .fmaHorPkt _ _ _ _ d a b => (d, a, b)
  | .minPkt _ _ _ _ d a b => (d, a, b)
  | .maxPkt _ _ _ _ d a b => (d, a, b)
  | .cmpPkt _ _ _ _ d a b => (d, a, b)
  | .dot _ _ _ _ d a b => (d, a, b)
  | .hsum _ _ _ _ d a b => (d, a, b)
  | .hmax _ _ _ _ d a b => (d, a, b)
  | .omse _ _ d a b => (d, a, b)
  | .pperm _ d a b => (d, a, b)
  | .plut _ _ _ d a b => (d, a, b)
  | .eshl _ _ d a b => (d, a, b)
  | .eshr _ _ d a b => (d, a, b)
  | .bcast _ _ d a b => (d, a, b)
  | .esel _ _ d a b => (d, a, b)
  | .eins _ _ d a b => (d, a, b)
  | .eext _ _ d a b => (d, a, b)
  | .specLerp _ _ d a b => (d, a, b)
  | .specCie _ _ _ d a b => (d, a, b)
  | .specMueller _ _ _ d a b => (d, a, b)
  | .prng _ _ d a b => (d, a, b)
  | .sfuRcp _ _ _ d a b => (d, a, b)
  | .sfuRsqrt _ _ _ d a b => (d, a, b)
  | .sfuSqrt _ _ _ d a b => (d, a, b)
  | .sfuExp2 _ _ _ d a b => (d, a, b)
  | .sfuLog2 _ _ _ d a b => (d, a, b)
  | .sfuSin _ _ _ d a b => (d, a, b)
  | .sfuCos _ _ _ d a b => (d, a, b)
  | .sfuTanh _ _ _ d a b => (d, a, b)
  | .sfuSigm _ _ _ d a b => (d, a, b)
  | .sfuErf _ _ _ d a b => (d, a, b)
  | .sfuGelu _ _ _ d a b => (d, a, b)
  | .sfuSilu _ _ _ d a b => (d, a, b)
  | .mxqE4M3 _ _ d a b => (d, a, b)
  | .mxqE5M2 _ _ d a b => (d, a, b)
  | .mxqE3M2 _ _ d a b => (d, a, b)
  | .mxqE2M3 _ _ d a b => (d, a, b)
  | .mxqE2M1 _ _ _ d a b => (d, a, b)
  | .mxqI8 _ _ d a b => (d, a, b)
  | .cvtScalar _ _ _ _ d a b => (d, a, b)
  | .cvtPacket _ _ _ _ _ d a b => (d, a, b)
  | .shfl _ _ _ d a b => (d, a, b)
  | .vote _ _ d a b => (d, a, b)
  | .matchV _ _ _ d a b => (d, a, b)
  | .scan _ _ _ d a b => (d, a, b)
  | .regroup _ d a b => (d, a, b)
  | .bra _ d a b => (d, a, b)
  | .brx _ d a b => (d, a, b)
  | .call _ d a b => (d, a, b)
  | .ret _ d a b => (d, a, b)
  | .loop _ d a b => (d, a, b)
  | .rep _ d a b => (d, a, b)
  | .exit _ d a b => (d, a, b)
  | .yield _ d a b => (d, a, b)
  | .nop _ d a b => (d, a, b)
  | .plop3 _ _ d a b => (d, a, b)
  | .pget _ d a b => (d, a, b)
  | .pset _ d a b => (d, a, b)
  | .racq _ d a b => (d, a, b)
  | .rrel _ d a b => (d, a, b)
  | .xset _ _ d a b => (d, a, b)
  | .xget _ _ d a b => (d, a, b)
  | .ld _ _ d a b => (d, a, b)
  | .st _ _ d a b => (d, a, b)
  | .atomExch _ _ _ _ d a b => (d, a, b)
  | .atomCas _ _ _ _ d a b => (d, a, b)
  | .atomAdd _ _ _ _ d a b => (d, a, b)
  | .atomMin _ _ _ _ d a b => (d, a, b)
  | .atomMax _ _ _ _ d a b => (d, a, b)
  | .atomAnd _ _ _ _ d a b => (d, a, b)
  | .atomOr _ _ _ _ d a b => (d, a, b)
  | .atomXor _ _ _ _ d a b => (d, a, b)
  | .stG _ _ d a b => (d, a, b)
  | .redGAdd _ _ _ _ d a b => (d, a, b)
  | .redGMin _ _ _ _ d a b => (d, a, b)
  | .redGMax _ _ _ _ d a b => (d, a, b)
  | .redGAnd _ _ _ _ d a b => (d, a, b)
  | .redGOr _ _ _ _ d a b => (d, a, b)
  | .redGXor _ _ _ _ d a b => (d, a, b)
  | .redGKahan _ _ _ _ d a b => (d, a, b)
  | .atomGExch _ _ _ _ d a b => (d, a, b)
  | .atomGCas _ _ _ _ d a b => (d, a, b)
  | .atomGAdd _ _ _ _ d a b => (d, a, b)
  | .redCommit _ _ _ d a b => (d, a, b)
  | .fence _ _ _ d a b => (d, a, b)
  | .barTeam _ d a b => (d, a, b)
  | .barPair _ d a b => (d, a, b)
  | .barClu _ d a b => (d, a, b)
  | .barSys _ _ d a b => (d, a, b)
  | .wait _ _ d a b => (d, a, b)
  | .qpush _ d a b => (d, a, b)
  | .qpop _ d a b => (d, a, b)
  | .jpostCopy _ _ d a b => (d, a, b)
  | .jpostGather _ _ d a b => (d, a, b)
  | .jpostMma _ _ d a b => (d, a, b)
  | .jpostMmaGather _ _ d a b => (d, a, b)
  | .jpostEpilogue _ _ d a b => (d, a, b)
  | .jwait _ d a b => (d, a, b)
  | .jtest _ d a b => (d, a, b)
  | .jcancel _ d a b => (d, a, b)
  | .hstore _ d a b => (d, a, b)
  | .hload _ d a b => (d, a, b)
  | .tacq _ d a b => (d, a, b)
  | .trel _ d a b => (d, a, b)
  | .tstat _ d a b => (d, a, b)
  | .tld _ d a b => (d, a, b)
  | .tst _ d a b => (d, a, b)
  | .trace _ d a b => (d, a, b)
  | .traceResume _ d a b => (d, a, b)
  | .stex _ _ d a b => (d, a, b)
  | .shcProbe _ d a b => (d, a, b)
  | .shcFill _ d a b => (d, a, b)
  | .collArm _ d a b => (d, a, b)
  | .collReady _ d a b => (d, a, b)
  | .dtime _ d a b => (d, a, b)
  | .sysr _ d a b => (d, a, b)
  | .sysw _ d a b => (d, a, b)
  | .trap _ d a b => (d, a, b)
  | .tret _ d a b => (d, a, b)
  | .brk _ d a b => (d, a, b)
  | .launch _ d a b => (d, a, b)
  | .semWaitGe _ d a b => (d, a, b)
  | .semSig _ _ d a b => (d, a, b)
  | .ttrig _ d a b => (d, a, b)
  | .intr _ d a b => (d, a, b)
  | .qnext _ d a b => (d, a, b)
  | .regroupDone _ => (.none, .none, .none)
  | .longResultReturn _ => (.none, .none, .none)
  | .laneRunLimit _ _ => (.none, .none, .none)
  | .activeTimeLimit _ _ => (.none, .none, .none)
  | .reliefCut _ _ => (.none, .none, .none)
  | .reliefCutEnd _ _ => (.none, .none, .none)
  | .racqGrant _ => (.none, .none, .none)
  | .groupEnd _ _ => (.none, .none, .none)
  | .teamPlacement _ => (.none, .none, .none)
  | .saveComplete _ => (.none, .none, .none)
  | .restoreComplete _ => (.none, .none, .none)
  | .stagingComplete _ => (.none, .none, .none)
  | .gridEnd _ => (.none, .none, .none)
  | .diePortWrite _ => (.none, .none, .none)
  | .waitPoll _ _ => (.none, .none, .none)
  | .queuePushArrival _ => (.none, .none, .none)
  | .queuePopArrival _ => (.none, .none, .none)
  | .homeSliceRequest _ => (.none, .none, .none)
  | .barSysPoll _ _ => (.none, .none, .none)
  | .requestAck _ => (.none, .none, .none)
  | .jobEnterQueue _ => (.none, .none, .none)
  | .jobIssue _ => (.none, .none, .none)
  | .shareComplete _ _ => (.none, .none, .none)
  | .jobFail _ _ _ => (.none, .none, .none)
  | .traceRecord _ _ _ _ => (.none, .none, .none)
  | .raySlotGrant _ => (.none, .none, .none)
  | .stexResult _ => (.none, .none, .none)
  | .shcRequestArrival _ => (.none, .none, .none)
  | .shcReserveExpiry _ _ _ => (.none, .none, .none)
  | .collFire _ _ => (.none, .none, .none)
  | .firingMessage _ _ => (.none, .none, .none)
  | .chunkArrival _ _ => (.none, .none, .none)
  | .collReplan _ _ _ => (.none, .none, .none)
  | .replanTimeout _ _ => (.none, .none, .none)
  | .firingTimeout _ _ => (.none, .none, .none)
  | .collAbortArrival _ _ _ => (.none, .none, .none)
  | .migrationPeriodEnd _ => (.none, .none, .none)
  | .moveSwitch _ => (.none, .none, .none)
  | .scrubPass _ _ => (.none, .none, .none)
  | .eccUncorrectable _ => (.none, .none, .none)
  | .parityError _ => (.none, .none, .none)
  | .refreshSubarray _ _ _ => (.none, .none, .none)
  | .mgmtHeartbeat _ _ => (.none, .none, .none)
  | .refreshTakeover _ => (.none, .none, .none)
  | .refreshAllBank _ => (.none, .none, .none)
  | .watchdogFire _ => (.none, .none, .none)
  | .serviceQuantumExpiry _ => (.none, .none, .none)
  | .ttrigTimeReached _ => (.none, .none, .none)
  | .kerfSample _ _ _ => (.none, .none, .none)
  | .thermalRecovery _ => (.none, .none, .none)
  | .emergencyTimeout _ => (.none, .none, .none)
  | .powerSensorSilent _ => (.none, .none, .none)
  | .dieIdle _ => (.none, .none, .none)
  | .powerGood => (.none, .none, .none)
  | .pcieLinkTrained _ => (.none, .none, .none)
  | .bootWaitTimer => (.none, .none, .none)
  | .bootStart _ _ => (.none, .none, .none)
  | .bootLength _ _ => (.none, .none, .none)
  | .bundleVerifyDone => (.none, .none, .none)
  | .loadingDone => (.none, .none, .none)
  | .bootGen _ _ => (.none, .none, .none)
  | .attestTrigger _ => (.none, .none, .none)
  | .attestReportReady _ => (.none, .none, .none)
  | .standbyEnter _ => (.none, .none, .none)
  | .standbyExit _ => (.none, .none, .none)
  | .portSemaphoreRead _ _ _ => (.none, .none, .none)
  | .portSemaphoreRelease _ _ _ => (.none, .none, .none)
  | .doorbell _ _ _ => (.none, .none, .none)
  | .queueEnable _ _ _ => (.none, .none, .none)
  | .queueDisable _ _ _ => (.none, .none, .none)
  | .queueProgWrite _ _ _ => (.none, .none, .none)
  | .ownerEntryWrite _ _ _ _ => (.none, .none, .none)
  | .migrationRead _ _ => (.none, .none, .none)
  | .migrationWrite _ _ => (.none, .none, .none)
  | .contextInvalidation _ _ => (.none, .none, .none)
  | .invalidationComplete => (.none, .none, .none)
  | .faultRetry _ _ _ => (.none, .none, .none)
  | .faultFail _ _ _ => (.none, .none, .none)
  | .rayDiscard _ _ => (.none, .none, .none)
  | .pairReopen _ _ => (.none, .none, .none)
  | .resyncArrival _ _ => (.none, .none, .none)
  | .timeSet _ _ => (.none, .none, .none)
  | .mgmtRegisterWrite _ _ _ => (.none, .none, .none)
  | .bar2Access _ _ => (.none, .none, .none)
  | .bar4Access _ _ => (.none, .none, .none)
  | .pcieAtomicOp _ _ => (.none, .none, .none)
  | .hostPortLost _ => (.none, .none, .none)
  | .portSemReleaseTimeout _ => (.none, .none, .none)
  | .ptpMessage _ _ => (.none, .none, .none)
  | .ppsInput => (.none, .none, .none)
  | .flitCrcError _ => (.none, .none, .none)
  | .laneSignalLoss _ => (.none, .none, .none)
  | .replayLimit _ => (.none, .none, .none)
  | .creditTimeout _ => (.none, .none, .none)
  | .portRetrain _ => (.none, .none, .none)
  | .portUp _ => (.none, .none, .none)
  | .portDegraded _ _ => (.none, .none, .none)
  | .e2eResendTimeout _ _ => (.none, .none, .none)
  | .suspectExpiry _ _ => (.none, .none, .none)
  | .e2eRequestArrival _ => (.none, .none, .none)
  | .e2eAckArrival _ _ _ => (.none, .none, .none)
  | .e2eBusyAnswer _ _ => (.none, .none, .none)
  | .unreachableAnswer _ _ => (.none, .none, .none)
  | .unreachableDeclare _ => (.none, .none, .none)
  | .contextTableWrite _ _ _ _ => (.none, .none, .none)
  | .portDisable _ _ _ => (.none, .none, .none)
  | .deferredFaultArrival _ => (.none, .none, .none)
  | .receiptAcknowledgement _ _ => (.none, .none, .none)
  | .reopenRetry => (.none, .none, .none)
  | .refreshEnd _ => (.none, .none, .none)
  | .powerOff => (.none, .none, .none)
  | .referenceInputChange _ => (.none, .none, .none)
  | .ppsOutputEdge => (.none, .none, .none)

/-- The control part; events have none, given as p7 without marker or hints. -/
def ctlOf : Instr → Ctl
  | .add c _ _ _ _ _ => c
  | .sub c _ _ _ _ _ => c
  | .mul c _ _ _ _ => c
  | .mulHiI c _ _ _ _ => c
  | .mulHiN c _ _ _ _ => c
  | .mad c _ _ _ _ => c
  | .minI c _ _ _ _ => c
  | .minN c _ _ _ _ => c
  | .maxI c _ _ _ _ => c
  | .maxN c _ _ _ _ => c
  | .shl c _ _ _ _ => c
  | .shrN c _ _ _ _ => c
  | .shrI c _ _ _ _ => c
  | .rol c _ _ _ _ => c
  | .lop3 c _ _ _ _ _ => c
  | .popc c _ _ _ _ => c
  | .clz c _ _ _ _ => c
  | .ctz c _ _ _ _ => c
  | .brev c _ _ _ _ => c
  | .bfeN c _ _ _ _ => c
  | .bfeI c _ _ _ _ => c
  | .bfi c _ _ _ _ => c
  | .lea c _ _ _ _ _ => c
  | .cmpI c _ _ _ _ _ => c
  | .cmpN c _ _ _ _ _ => c
  | .sel c _ _ _ _ _ _ => c
  | .mov c _ _ _ _ => c
  | .addFp c _ _ _ _ _ => c
  | .subFp c _ _ _ _ _ => c
  | .mulFp c _ _ _ _ _ => c
  | .fmaAcc c _ _ _ _ _ => c
  | .fmaHor c _ _ _ _ _ => c
  | .minFp c _ _ _ _ => c
  | .maxFp c _ _ _ _ => c
  | .cmpFp c _ _ _ _ _ _ => c
  | .classFp c _ _ _ => c
  | .addPkt c _ _ _ _ _ _ => c
  | .subPkt c _ _ _ _ _ _ => c
  | .mulPkt c _ _ _ _ _ _ => c
  | .fmaAccPkt c _ _ _ _ _ _ => c
  | .fmaHorPkt c _ _ _ _ _ _ => c
  | .minPkt c _ _ _ _ _ _ => c
  | .maxPkt c _ _ _ _ _ _ => c
  | .cmpPkt c _ _ _ _ _ _ => c
  | .dot c _ _ _ _ _ _ => c
  | .hsum c _ _ _ _ _ _ => c
  | .hmax c _ _ _ _ _ _ => c
  | .omse c _ _ _ _ => c
  | .pperm c _ _ _ => c
  | .plut c _ _ _ _ _ => c
  | .eshl c _ _ _ _ => c
  | .eshr c _ _ _ _ => c
  | .bcast c _ _ _ _ => c
  | .esel c _ _ _ _ => c
  | .eins c _ _ _ _ => c
  | .eext c _ _ _ _ => c
  | .specLerp c _ _ _ _ => c
  | .specCie c _ _ _ _ _ => c
  | .specMueller c _ _ _ _ _ => c
  | .prng c _ _ _ _ => c
  | .sfuRcp c _ _ _ _ _ => c
  | .sfuRsqrt c _ _ _ _ _ => c
  | .sfuSqrt c _ _ _ _ _ => c
  | .sfuExp2 c _ _ _ _ _ => c
  | .sfuLog2 c _ _ _ _ _ => c
  | .sfuSin c _ _ _ _ _ => c
  | .sfuCos c _ _ _ _ _ => c
  | .sfuTanh c _ _ _ _ _ => c
  | .sfuSigm c _ _ _ _ _ => c
  | .sfuErf c _ _ _ _ _ => c
  | .sfuGelu c _ _ _ _ _ => c
  | .sfuSilu c _ _ _ _ _ => c
  | .mxqE4M3 c _ _ _ _ => c
  | .mxqE5M2 c _ _ _ _ => c
  | .mxqE3M2 c _ _ _ _ => c
  | .mxqE2M3 c _ _ _ _ => c
  | .mxqE2M1 c _ _ _ _ _ => c
  | .mxqI8 c _ _ _ _ => c
  | .cvtScalar c _ _ _ _ _ _ => c
  | .cvtPacket c _ _ _ _ _ _ _ => c
  | .shfl c _ _ _ _ _ => c
  | .vote c _ _ _ _ => c
  | .matchV c _ _ _ _ _ => c
  | .scan c _ _ _ _ _ => c
  | .regroup c _ _ _ => c
  | .bra c _ _ _ => c
  | .brx c _ _ _ => c
  | .call c _ _ _ => c
  | .ret c _ _ _ => c
  | .loop c _ _ _ => c
  | .rep c _ _ _ => c
  | .exit c _ _ _ => c
  | .yield c _ _ _ => c
  | .nop c _ _ _ => c
  | .plop3 c _ _ _ _ => c
  | .pget c _ _ _ => c
  | .pset c _ _ _ => c
  | .racq c _ _ _ => c
  | .rrel c _ _ _ => c
  | .xset c _ _ _ _ => c
  | .xget c _ _ _ _ => c
  | .ld c _ _ _ _ => c
  | .st c _ _ _ _ => c
  | .atomExch c _ _ _ _ _ _ => c
  | .atomCas c _ _ _ _ _ _ => c
  | .atomAdd c _ _ _ _ _ _ => c
  | .atomMin c _ _ _ _ _ _ => c
  | .atomMax c _ _ _ _ _ _ => c
  | .atomAnd c _ _ _ _ _ _ => c
  | .atomOr c _ _ _ _ _ _ => c
  | .atomXor c _ _ _ _ _ _ => c
  | .stG c _ _ _ _ => c
  | .redGAdd c _ _ _ _ _ _ => c
  | .redGMin c _ _ _ _ _ _ => c
  | .redGMax c _ _ _ _ _ _ => c
  | .redGAnd c _ _ _ _ _ _ => c
  | .redGOr c _ _ _ _ _ _ => c
  | .redGXor c _ _ _ _ _ _ => c
  | .redGKahan c _ _ _ _ _ _ => c
  | .atomGExch c _ _ _ _ _ _ => c
  | .atomGCas c _ _ _ _ _ _ => c
  | .atomGAdd c _ _ _ _ _ _ => c
  | .redCommit c _ _ _ _ _ => c
  | .fence c _ _ _ _ _ => c
  | .barTeam c _ _ _ => c
  | .barPair c _ _ _ => c
  | .barClu c _ _ _ => c
  | .barSys c _ _ _ _ => c
  | .wait c _ _ _ _ => c
  | .qpush c _ _ _ => c
  | .qpop c _ _ _ => c
  | .jpostCopy c _ _ _ _ => c
  | .jpostGather c _ _ _ _ => c
  | .jpostMma c _ _ _ _ => c
  | .jpostMmaGather c _ _ _ _ => c
  | .jpostEpilogue c _ _ _ _ => c
  | .jwait c _ _ _ => c
  | .jtest c _ _ _ => c
  | .jcancel c _ _ _ => c
  | .hstore c _ _ _ => c
  | .hload c _ _ _ => c
  | .tacq c _ _ _ => c
  | .trel c _ _ _ => c
  | .tstat c _ _ _ => c
  | .tld c _ _ _ => c
  | .tst c _ _ _ => c
  | .trace c _ _ _ => c
  | .traceResume c _ _ _ => c
  | .stex c _ _ _ _ => c
  | .shcProbe c _ _ _ => c
  | .shcFill c _ _ _ => c
  | .collArm c _ _ _ => c
  | .collReady c _ _ _ => c
  | .dtime c _ _ _ => c
  | .sysr c _ _ _ => c
  | .sysw c _ _ _ => c
  | .trap c _ _ _ => c
  | .tret c _ _ _ => c
  | .brk c _ _ _ => c
  | .launch c _ _ _ => c
  | .semWaitGe c _ _ _ => c
  | .semSig c _ _ _ _ => c
  | .ttrig c _ _ _ => c
  | .intr c _ _ _ => c
  | .qnext c _ _ _ => c
  | .regroupDone _ => ⟨7, false, false, 0, false, false⟩
  | .longResultReturn _ => ⟨7, false, false, 0, false, false⟩
  | .laneRunLimit _ _ => ⟨7, false, false, 0, false, false⟩
  | .activeTimeLimit _ _ => ⟨7, false, false, 0, false, false⟩
  | .reliefCut _ _ => ⟨7, false, false, 0, false, false⟩
  | .reliefCutEnd _ _ => ⟨7, false, false, 0, false, false⟩
  | .racqGrant _ => ⟨7, false, false, 0, false, false⟩
  | .groupEnd _ _ => ⟨7, false, false, 0, false, false⟩
  | .teamPlacement _ => ⟨7, false, false, 0, false, false⟩
  | .saveComplete _ => ⟨7, false, false, 0, false, false⟩
  | .restoreComplete _ => ⟨7, false, false, 0, false, false⟩
  | .stagingComplete _ => ⟨7, false, false, 0, false, false⟩
  | .gridEnd _ => ⟨7, false, false, 0, false, false⟩
  | .diePortWrite _ => ⟨7, false, false, 0, false, false⟩
  | .waitPoll _ _ => ⟨7, false, false, 0, false, false⟩
  | .queuePushArrival _ => ⟨7, false, false, 0, false, false⟩
  | .queuePopArrival _ => ⟨7, false, false, 0, false, false⟩
  | .homeSliceRequest _ => ⟨7, false, false, 0, false, false⟩
  | .barSysPoll _ _ => ⟨7, false, false, 0, false, false⟩
  | .requestAck _ => ⟨7, false, false, 0, false, false⟩
  | .jobEnterQueue _ => ⟨7, false, false, 0, false, false⟩
  | .jobIssue _ => ⟨7, false, false, 0, false, false⟩
  | .shareComplete _ _ => ⟨7, false, false, 0, false, false⟩
  | .jobFail _ _ _ => ⟨7, false, false, 0, false, false⟩
  | .traceRecord _ _ _ _ => ⟨7, false, false, 0, false, false⟩
  | .raySlotGrant _ => ⟨7, false, false, 0, false, false⟩
  | .stexResult _ => ⟨7, false, false, 0, false, false⟩
  | .shcRequestArrival _ => ⟨7, false, false, 0, false, false⟩
  | .shcReserveExpiry _ _ _ => ⟨7, false, false, 0, false, false⟩
  | .collFire _ _ => ⟨7, false, false, 0, false, false⟩
  | .firingMessage _ _ => ⟨7, false, false, 0, false, false⟩
  | .chunkArrival _ _ => ⟨7, false, false, 0, false, false⟩
  | .collReplan _ _ _ => ⟨7, false, false, 0, false, false⟩
  | .replanTimeout _ _ => ⟨7, false, false, 0, false, false⟩
  | .firingTimeout _ _ => ⟨7, false, false, 0, false, false⟩
  | .collAbortArrival _ _ _ => ⟨7, false, false, 0, false, false⟩
  | .migrationPeriodEnd _ => ⟨7, false, false, 0, false, false⟩
  | .moveSwitch _ => ⟨7, false, false, 0, false, false⟩
  | .scrubPass _ _ => ⟨7, false, false, 0, false, false⟩
  | .eccUncorrectable _ => ⟨7, false, false, 0, false, false⟩
  | .parityError _ => ⟨7, false, false, 0, false, false⟩
  | .refreshSubarray _ _ _ => ⟨7, false, false, 0, false, false⟩
  | .mgmtHeartbeat _ _ => ⟨7, false, false, 0, false, false⟩
  | .refreshTakeover _ => ⟨7, false, false, 0, false, false⟩
  | .refreshAllBank _ => ⟨7, false, false, 0, false, false⟩
  | .watchdogFire _ => ⟨7, false, false, 0, false, false⟩
  | .serviceQuantumExpiry _ => ⟨7, false, false, 0, false, false⟩
  | .ttrigTimeReached _ => ⟨7, false, false, 0, false, false⟩
  | .kerfSample _ _ _ => ⟨7, false, false, 0, false, false⟩
  | .thermalRecovery _ => ⟨7, false, false, 0, false, false⟩
  | .emergencyTimeout _ => ⟨7, false, false, 0, false, false⟩
  | .powerSensorSilent _ => ⟨7, false, false, 0, false, false⟩
  | .dieIdle _ => ⟨7, false, false, 0, false, false⟩
  | .powerGood => ⟨7, false, false, 0, false, false⟩
  | .pcieLinkTrained _ => ⟨7, false, false, 0, false, false⟩
  | .bootWaitTimer => ⟨7, false, false, 0, false, false⟩
  | .bootStart _ _ => ⟨7, false, false, 0, false, false⟩
  | .bootLength _ _ => ⟨7, false, false, 0, false, false⟩
  | .bundleVerifyDone => ⟨7, false, false, 0, false, false⟩
  | .loadingDone => ⟨7, false, false, 0, false, false⟩
  | .bootGen _ _ => ⟨7, false, false, 0, false, false⟩
  | .attestTrigger _ => ⟨7, false, false, 0, false, false⟩
  | .attestReportReady _ => ⟨7, false, false, 0, false, false⟩
  | .standbyEnter _ => ⟨7, false, false, 0, false, false⟩
  | .standbyExit _ => ⟨7, false, false, 0, false, false⟩
  | .portSemaphoreRead _ _ _ => ⟨7, false, false, 0, false, false⟩
  | .portSemaphoreRelease _ _ _ => ⟨7, false, false, 0, false, false⟩
  | .doorbell _ _ _ => ⟨7, false, false, 0, false, false⟩
  | .queueEnable _ _ _ => ⟨7, false, false, 0, false, false⟩
  | .queueDisable _ _ _ => ⟨7, false, false, 0, false, false⟩
  | .queueProgWrite _ _ _ => ⟨7, false, false, 0, false, false⟩
  | .ownerEntryWrite _ _ _ _ => ⟨7, false, false, 0, false, false⟩
  | .migrationRead _ _ => ⟨7, false, false, 0, false, false⟩
  | .migrationWrite _ _ => ⟨7, false, false, 0, false, false⟩
  | .contextInvalidation _ _ => ⟨7, false, false, 0, false, false⟩
  | .invalidationComplete => ⟨7, false, false, 0, false, false⟩
  | .faultRetry _ _ _ => ⟨7, false, false, 0, false, false⟩
  | .faultFail _ _ _ => ⟨7, false, false, 0, false, false⟩
  | .rayDiscard _ _ => ⟨7, false, false, 0, false, false⟩
  | .pairReopen _ _ => ⟨7, false, false, 0, false, false⟩
  | .resyncArrival _ _ => ⟨7, false, false, 0, false, false⟩
  | .timeSet _ _ => ⟨7, false, false, 0, false, false⟩
  | .mgmtRegisterWrite _ _ _ => ⟨7, false, false, 0, false, false⟩
  | .bar2Access _ _ => ⟨7, false, false, 0, false, false⟩
  | .bar4Access _ _ => ⟨7, false, false, 0, false, false⟩
  | .pcieAtomicOp _ _ => ⟨7, false, false, 0, false, false⟩
  | .hostPortLost _ => ⟨7, false, false, 0, false, false⟩
  | .portSemReleaseTimeout _ => ⟨7, false, false, 0, false, false⟩
  | .ptpMessage _ _ => ⟨7, false, false, 0, false, false⟩
  | .ppsInput => ⟨7, false, false, 0, false, false⟩
  | .flitCrcError _ => ⟨7, false, false, 0, false, false⟩
  | .laneSignalLoss _ => ⟨7, false, false, 0, false, false⟩
  | .replayLimit _ => ⟨7, false, false, 0, false, false⟩
  | .creditTimeout _ => ⟨7, false, false, 0, false, false⟩
  | .portRetrain _ => ⟨7, false, false, 0, false, false⟩
  | .portUp _ => ⟨7, false, false, 0, false, false⟩
  | .portDegraded _ _ => ⟨7, false, false, 0, false, false⟩
  | .e2eResendTimeout _ _ => ⟨7, false, false, 0, false, false⟩
  | .suspectExpiry _ _ => ⟨7, false, false, 0, false, false⟩
  | .e2eRequestArrival _ => ⟨7, false, false, 0, false, false⟩
  | .e2eAckArrival _ _ _ => ⟨7, false, false, 0, false, false⟩
  | .e2eBusyAnswer _ _ => ⟨7, false, false, 0, false, false⟩
  | .unreachableAnswer _ _ => ⟨7, false, false, 0, false, false⟩
  | .unreachableDeclare _ => ⟨7, false, false, 0, false, false⟩
  | .contextTableWrite _ _ _ _ => ⟨7, false, false, 0, false, false⟩
  | .portDisable _ _ _ => ⟨7, false, false, 0, false, false⟩
  | .deferredFaultArrival _ => ⟨7, false, false, 0, false, false⟩
  | .receiptAcknowledgement _ _ => ⟨7, false, false, 0, false, false⟩
  | .reopenRetry => ⟨7, false, false, 0, false, false⟩
  | .refreshEnd _ => ⟨7, false, false, 0, false, false⟩
  | .powerOff => ⟨7, false, false, 0, false, false⟩
  | .referenceInputChange _ => ⟨7, false, false, 0, false, false⟩
  | .ppsOutputEdge => ⟨7, false, false, 0, false, false⟩

/-- Whether the constructor is an event (rows 165 to 277): it has no encoding. -/
def isEvent : Instr → Bool
  | .add _ _ _ _ _ _ => false
  | .sub _ _ _ _ _ _ => false
  | .mul _ _ _ _ _ => false
  | .mulHiI _ _ _ _ _ => false
  | .mulHiN _ _ _ _ _ => false
  | .mad _ _ _ _ _ => false
  | .minI _ _ _ _ _ => false
  | .minN _ _ _ _ _ => false
  | .maxI _ _ _ _ _ => false
  | .maxN _ _ _ _ _ => false
  | .shl _ _ _ _ _ => false
  | .shrN _ _ _ _ _ => false
  | .shrI _ _ _ _ _ => false
  | .rol _ _ _ _ _ => false
  | .lop3 _ _ _ _ _ _ => false
  | .popc _ _ _ _ _ => false
  | .clz _ _ _ _ _ => false
  | .ctz _ _ _ _ _ => false
  | .brev _ _ _ _ _ => false
  | .bfeN _ _ _ _ _ => false
  | .bfeI _ _ _ _ _ => false
  | .bfi _ _ _ _ _ => false
  | .lea _ _ _ _ _ _ => false
  | .cmpI _ _ _ _ _ _ => false
  | .cmpN _ _ _ _ _ _ => false
  | .sel _ _ _ _ _ _ _ => false
  | .mov _ _ _ _ _ => false
  | .addFp _ _ _ _ _ _ => false
  | .subFp _ _ _ _ _ _ => false
  | .mulFp _ _ _ _ _ _ => false
  | .fmaAcc _ _ _ _ _ _ => false
  | .fmaHor _ _ _ _ _ _ => false
  | .minFp _ _ _ _ _ => false
  | .maxFp _ _ _ _ _ => false
  | .cmpFp _ _ _ _ _ _ _ => false
  | .classFp _ _ _ _ => false
  | .addPkt _ _ _ _ _ _ _ => false
  | .subPkt _ _ _ _ _ _ _ => false
  | .mulPkt _ _ _ _ _ _ _ => false
  | .fmaAccPkt _ _ _ _ _ _ _ => false
  | .fmaHorPkt _ _ _ _ _ _ _ => false
  | .minPkt _ _ _ _ _ _ _ => false
  | .maxPkt _ _ _ _ _ _ _ => false
  | .cmpPkt _ _ _ _ _ _ _ => false
  | .dot _ _ _ _ _ _ _ => false
  | .hsum _ _ _ _ _ _ _ => false
  | .hmax _ _ _ _ _ _ _ => false
  | .omse _ _ _ _ _ => false
  | .pperm _ _ _ _ => false
  | .plut _ _ _ _ _ _ => false
  | .eshl _ _ _ _ _ => false
  | .eshr _ _ _ _ _ => false
  | .bcast _ _ _ _ _ => false
  | .esel _ _ _ _ _ => false
  | .eins _ _ _ _ _ => false
  | .eext _ _ _ _ _ => false
  | .specLerp _ _ _ _ _ => false
  | .specCie _ _ _ _ _ _ => false
  | .specMueller _ _ _ _ _ _ => false
  | .prng _ _ _ _ _ => false
  | .sfuRcp _ _ _ _ _ _ => false
  | .sfuRsqrt _ _ _ _ _ _ => false
  | .sfuSqrt _ _ _ _ _ _ => false
  | .sfuExp2 _ _ _ _ _ _ => false
  | .sfuLog2 _ _ _ _ _ _ => false
  | .sfuSin _ _ _ _ _ _ => false
  | .sfuCos _ _ _ _ _ _ => false
  | .sfuTanh _ _ _ _ _ _ => false
  | .sfuSigm _ _ _ _ _ _ => false
  | .sfuErf _ _ _ _ _ _ => false
  | .sfuGelu _ _ _ _ _ _ => false
  | .sfuSilu _ _ _ _ _ _ => false
  | .mxqE4M3 _ _ _ _ _ => false
  | .mxqE5M2 _ _ _ _ _ => false
  | .mxqE3M2 _ _ _ _ _ => false
  | .mxqE2M3 _ _ _ _ _ => false
  | .mxqE2M1 _ _ _ _ _ _ => false
  | .mxqI8 _ _ _ _ _ => false
  | .cvtScalar _ _ _ _ _ _ _ => false
  | .cvtPacket _ _ _ _ _ _ _ _ => false
  | .shfl _ _ _ _ _ _ => false
  | .vote _ _ _ _ _ => false
  | .matchV _ _ _ _ _ _ => false
  | .scan _ _ _ _ _ _ => false
  | .regroup _ _ _ _ => false
  | .bra _ _ _ _ => false
  | .brx _ _ _ _ => false
  | .call _ _ _ _ => false
  | .ret _ _ _ _ => false
  | .loop _ _ _ _ => false
  | .rep _ _ _ _ => false
  | .exit _ _ _ _ => false
  | .yield _ _ _ _ => false
  | .nop _ _ _ _ => false
  | .plop3 _ _ _ _ _ => false
  | .pget _ _ _ _ => false
  | .pset _ _ _ _ => false
  | .racq _ _ _ _ => false
  | .rrel _ _ _ _ => false
  | .xset _ _ _ _ _ => false
  | .xget _ _ _ _ _ => false
  | .ld _ _ _ _ _ => false
  | .st _ _ _ _ _ => false
  | .atomExch _ _ _ _ _ _ _ => false
  | .atomCas _ _ _ _ _ _ _ => false
  | .atomAdd _ _ _ _ _ _ _ => false
  | .atomMin _ _ _ _ _ _ _ => false
  | .atomMax _ _ _ _ _ _ _ => false
  | .atomAnd _ _ _ _ _ _ _ => false
  | .atomOr _ _ _ _ _ _ _ => false
  | .atomXor _ _ _ _ _ _ _ => false
  | .stG _ _ _ _ _ => false
  | .redGAdd _ _ _ _ _ _ _ => false
  | .redGMin _ _ _ _ _ _ _ => false
  | .redGMax _ _ _ _ _ _ _ => false
  | .redGAnd _ _ _ _ _ _ _ => false
  | .redGOr _ _ _ _ _ _ _ => false
  | .redGXor _ _ _ _ _ _ _ => false
  | .redGKahan _ _ _ _ _ _ _ => false
  | .atomGExch _ _ _ _ _ _ _ => false
  | .atomGCas _ _ _ _ _ _ _ => false
  | .atomGAdd _ _ _ _ _ _ _ => false
  | .redCommit _ _ _ _ _ _ => false
  | .fence _ _ _ _ _ _ => false
  | .barTeam _ _ _ _ => false
  | .barPair _ _ _ _ => false
  | .barClu _ _ _ _ => false
  | .barSys _ _ _ _ _ => false
  | .wait _ _ _ _ _ => false
  | .qpush _ _ _ _ => false
  | .qpop _ _ _ _ => false
  | .jpostCopy _ _ _ _ _ => false
  | .jpostGather _ _ _ _ _ => false
  | .jpostMma _ _ _ _ _ => false
  | .jpostMmaGather _ _ _ _ _ => false
  | .jpostEpilogue _ _ _ _ _ => false
  | .jwait _ _ _ _ => false
  | .jtest _ _ _ _ => false
  | .jcancel _ _ _ _ => false
  | .hstore _ _ _ _ => false
  | .hload _ _ _ _ => false
  | .tacq _ _ _ _ => false
  | .trel _ _ _ _ => false
  | .tstat _ _ _ _ => false
  | .tld _ _ _ _ => false
  | .tst _ _ _ _ => false
  | .trace _ _ _ _ => false
  | .traceResume _ _ _ _ => false
  | .stex _ _ _ _ _ => false
  | .shcProbe _ _ _ _ => false
  | .shcFill _ _ _ _ => false
  | .collArm _ _ _ _ => false
  | .collReady _ _ _ _ => false
  | .dtime _ _ _ _ => false
  | .sysr _ _ _ _ => false
  | .sysw _ _ _ _ => false
  | .trap _ _ _ _ => false
  | .tret _ _ _ _ => false
  | .brk _ _ _ _ => false
  | .launch _ _ _ _ => false
  | .semWaitGe _ _ _ _ => false
  | .semSig _ _ _ _ _ => false
  | .ttrig _ _ _ _ => false
  | .intr _ _ _ _ => false
  | .qnext _ _ _ _ => false
  | .regroupDone _ => true
  | .longResultReturn _ => true
  | .laneRunLimit _ _ => true
  | .activeTimeLimit _ _ => true
  | .reliefCut _ _ => true
  | .reliefCutEnd _ _ => true
  | .racqGrant _ => true
  | .groupEnd _ _ => true
  | .teamPlacement _ => true
  | .saveComplete _ => true
  | .restoreComplete _ => true
  | .stagingComplete _ => true
  | .gridEnd _ => true
  | .diePortWrite _ => true
  | .waitPoll _ _ => true
  | .queuePushArrival _ => true
  | .queuePopArrival _ => true
  | .homeSliceRequest _ => true
  | .barSysPoll _ _ => true
  | .requestAck _ => true
  | .jobEnterQueue _ => true
  | .jobIssue _ => true
  | .shareComplete _ _ => true
  | .jobFail _ _ _ => true
  | .traceRecord _ _ _ _ => true
  | .raySlotGrant _ => true
  | .stexResult _ => true
  | .shcRequestArrival _ => true
  | .shcReserveExpiry _ _ _ => true
  | .collFire _ _ => true
  | .firingMessage _ _ => true
  | .chunkArrival _ _ => true
  | .collReplan _ _ _ => true
  | .replanTimeout _ _ => true
  | .firingTimeout _ _ => true
  | .collAbortArrival _ _ _ => true
  | .migrationPeriodEnd _ => true
  | .moveSwitch _ => true
  | .scrubPass _ _ => true
  | .eccUncorrectable _ => true
  | .parityError _ => true
  | .refreshSubarray _ _ _ => true
  | .mgmtHeartbeat _ _ => true
  | .refreshTakeover _ => true
  | .refreshAllBank _ => true
  | .watchdogFire _ => true
  | .serviceQuantumExpiry _ => true
  | .ttrigTimeReached _ => true
  | .kerfSample _ _ _ => true
  | .thermalRecovery _ => true
  | .emergencyTimeout _ => true
  | .powerSensorSilent _ => true
  | .dieIdle _ => true
  | .powerGood => true
  | .pcieLinkTrained _ => true
  | .bootWaitTimer => true
  | .bootStart _ _ => true
  | .bootLength _ _ => true
  | .bundleVerifyDone => true
  | .loadingDone => true
  | .bootGen _ _ => true
  | .attestTrigger _ => true
  | .attestReportReady _ => true
  | .standbyEnter _ => true
  | .standbyExit _ => true
  | .portSemaphoreRead _ _ _ => true
  | .portSemaphoreRelease _ _ _ => true
  | .doorbell _ _ _ => true
  | .queueEnable _ _ _ => true
  | .queueDisable _ _ _ => true
  | .queueProgWrite _ _ _ => true
  | .ownerEntryWrite _ _ _ _ => true
  | .migrationRead _ _ => true
  | .migrationWrite _ _ => true
  | .contextInvalidation _ _ => true
  | .invalidationComplete => true
  | .faultRetry _ _ _ => true
  | .faultFail _ _ _ => true
  | .rayDiscard _ _ => true
  | .pairReopen _ _ => true
  | .resyncArrival _ _ => true
  | .timeSet _ _ => true
  | .mgmtRegisterWrite _ _ _ => true
  | .bar2Access _ _ => true
  | .bar4Access _ _ => true
  | .pcieAtomicOp _ _ => true
  | .hostPortLost _ => true
  | .portSemReleaseTimeout _ => true
  | .ptpMessage _ _ => true
  | .ppsInput => true
  | .flitCrcError _ => true
  | .laneSignalLoss _ => true
  | .replayLimit _ => true
  | .creditTimeout _ => true
  | .portRetrain _ => true
  | .portUp _ => true
  | .portDegraded _ _ => true
  | .e2eResendTimeout _ _ => true
  | .suspectExpiry _ _ => true
  | .e2eRequestArrival _ => true
  | .e2eAckArrival _ _ _ => true
  | .e2eBusyAnswer _ _ => true
  | .unreachableAnswer _ _ => true
  | .unreachableDeclare _ => true
  | .contextTableWrite _ _ _ _ => true
  | .portDisable _ _ _ => true
  | .deferredFaultArrival _ => true
  | .receiptAcknowledgement _ _ => true
  | .reopenRetry => true
  | .refreshEnd _ => true
  | .powerOff => true
  | .referenceInputChange _ => true
  | .ppsOutputEdge => true

/-- Whether the three operands meet their roles (R136). -/
def operandsOk (i : Instr) : Bool :=
  let r := rolesOf i
  let o := opsOf i
  accepts r.1 o.1 && accepts r.2.1 o.2.1 && accepts r.2.2 o.2.2

end Sys2Proof.Roles
end

