-- ==== Sys2Proof/Machine/Fp.lean ====
section
/-! DEFINITION. Number formats, exact values, rounding, conversion, blocks and compensated pairs (R60 to R76), and the Philox
stream (R69, R70). Values are exact: a sign and a quotient of naturals. -/

namespace Sys2Proof.Machine

/-! ## Formats -/

/-- What the all-ones exponent field means (R60). -/
inductive Special where
  | ieee | e4m3 | finite
  deriving DecidableEq, Repr

/-- A binary format (R60). -/
structure Fmt where
  ebits : Nat
  fbits : Nat
  special : Special
  deriving DecidableEq, Repr

def Fmt.f64 : Fmt := ⟨11, 52, .ieee⟩
def Fmt.f32 : Fmt := ⟨8, 23, .ieee⟩
def Fmt.f16 : Fmt := ⟨5, 10, .ieee⟩
def Fmt.bf16 : Fmt := ⟨8, 7, .ieee⟩
def Fmt.e4m3 : Fmt := ⟨4, 3, .e4m3⟩
def Fmt.e5m2 : Fmt := ⟨5, 2, .ieee⟩
def Fmt.e3m2 : Fmt := ⟨3, 2, .finite⟩
def Fmt.e2m3 : Fmt := ⟨2, 3, .finite⟩
def Fmt.e2m1 : Fmt := ⟨2, 1, .finite⟩

/-- Bits of an element. -/
def Fmt.bits (f : Fmt) : Nat := 1 + f.ebits + f.fbits
/-- Exponent bias (R60). -/
def Fmt.bias (f : Fmt) : Nat := 2 ^ (f.ebits - 1) - 1
/-- The magnitude code of the largest finite value: magnitudes read as integers rise with the value. -/
def Fmt.maxCode (f : Fmt) : Nat :=
  match f.special with
  | .ieee => (2 ^ f.ebits - 1) * 2 ^ f.fbits - 1
  | .e4m3 => 2 ^ (f.ebits + f.fbits) - 2
  | .finite => 2 ^ (f.ebits + f.fbits) - 1
/-- The canonical NaN (R61, R68). -/
def Fmt.nan (f : Fmt) : Nat :=
  match f.special with
  | .ieee => (2 ^ f.ebits - 1) * 2 ^ f.fbits + 2 ^ (f.fbits - 1)
  | .e4m3 => 2 ^ (f.ebits + f.fbits) - 1
  | .finite => 0
/-- The pattern of a magnitude code with a sign. -/
def Fmt.pattern (f : Fmt) (neg : Bool) (code : Nat) : Nat := b2n neg * 2 ^ (f.ebits + f.fbits) + code

/-! ## Values -/

/-- An exact value: a NaN, an infinity, or a sign with the magnitude num / den. -/
inductive Val where
  | nan
  | inf (neg : Bool)
  | fin (neg : Bool) (num den : Nat)
  deriving DecidableEq, Repr

/-- num / den · 2^e as a value. -/
def Val.scaled (neg : Bool) (num : Nat) (e : Int) : Val :=
  if 0 ≤ e then .fin neg (num * 2 ^ e.toNat) 1 else .fin neg num (2 ^ (-e).toNat)

/-- +0. -/
def Val.zero : Val := .fin false 0 1
/-- A signed number as a value. -/
def Val.ofInt (i : Int) : Val := .fin (i < 0) i.natAbs 1

def Val.isZero : Val → Bool
  | .fin _ n _ => n == 0
  | _ => false

def Val.isNan : Val → Bool
  | .nan => true
  | _ => false

def Val.sign : Val → Bool
  | .fin s _ _ => s
  | .inf s => s
  | .nan => false

def Val.neg : Val → Val
  | .nan => .nan
  | .inf s => .inf !s
  | .fin s n d => .fin (!s) n d

/-- The value of a pattern (R60). -/
def decodeFp (f : Fmt) (v : Nat) : Val :=
  let s := bitOf v (f.ebits + f.fbits)
  let code := v % 2 ^ (f.ebits + f.fbits)
  let e := code / 2 ^ f.fbits
  let m := code % 2 ^ f.fbits
  if f.maxCode < code then
    match f.special with
    | .ieee => if m = 0 then .inf s else .nan
    | _ => .nan
  else if e = 0 then Val.scaled s m (1 - (f.bias : Int) - f.fbits)
  else Val.scaled s (2 ^ f.fbits + m) ((e : Int) - f.bias - f.fbits)

/-- Whether a pattern is a nonzero subnormal of its format. -/
def isSubnormal (f : Fmt) (v : Nat) : Bool :=
  let code := v % 2 ^ (f.ebits + f.fbits)
  0 < code && code < 2 ^ f.fbits

/-- flush_sub of a pattern (R66): a subnormal becomes zero of its sign. -/
def flushPattern (f : Fmt) (v : Nat) : Nat :=
  if isSubnormal f v then f.pattern (bitOf v (f.ebits + f.fbits)) 0 else v

/-- An input read with the modifier's ftzi (R66, R67). -/
def readFp (f : Fmt) (ftzi : Bool) (v : Nat) : Val :=
  decodeFp f (if ftzi then flushPattern f v else v)

/-- The exact sum; an exact zero sum of opposite signs is +0, or −0 under RDN (R71). -/
def Val.add (rdn : Bool) : Val → Val → Val
  | .nan, _ => .nan
  | _, .nan => .nan
  | .inf s, .inf t => if s = t then .inf s else .nan
  | .inf s, _ => .inf s
  | _, .inf t => .inf t
  | .fin s n d, .fin t m e =>
    let (a, b, c) :=
      if d = e then (n, m, d)
      else if e % d = 0 then (n * (e / d), m, e)
      else if d % e = 0 then (n, m * (d / e), d)
      else (n * e, m * d, d * e)
    if s = t then .fin s (a + b) c
    else if a = b then .fin rdn 0 1
    else if b < a then .fin s (a - b) c
    else .fin t (b - a) c

/-- The exact product. -/
def Val.mul : Val → Val → Val
  | .nan, _ => .nan
  | _, .nan => .nan
  | .inf s, .inf t => .inf (s != t)
  | .inf s, .fin t n _ => if n = 0 then .nan else .inf (s != t)
  | .fin s n _, .inf t => if n = 0 then .nan else .inf (s != t)
  | .fin s n d, .fin t m e => .fin (s != t) (n * m) (d * e)

def Val.sub (rdn : Bool) (a b : Val) : Val := a.add rdn b.neg

/-- The order of two values that are not NaN, zeros equal. -/
def Val.lt : Val → Val → Bool
  | .inf s, .inf t => s && !t
  | .inf s, .fin _ _ _ => s
  | .fin _ _ _, .inf t => !t
  | .fin s n d, .fin t m e =>
    let l : Int := (if s then -1 else 1) * (n * e : Nat)
    let r : Int := (if t then -1 else 1) * (m * d : Nat)
    l < r
  | _, _ => false

/-- The sum of a list, from the left; exact sums lose nothing, so the order matters for no result. -/
def Val.sum (rdn : Bool) (l : List Val) : Val :=
  match l with
  | [] => .zero
  | v :: r => r.foldl (Val.add rdn) v

/-! ## Rounding -/

/-- ⌊log₂ (n / d)⌋ for n, d above zero. -/
def floorLog2 (n d : Nat) : Int :=
  let e : Int := (n.log2 : Int) - d.log2
  let below : Bool := if 0 ≤ e then n < d * 2 ^ e.toNat else n * 2 ^ (-e).toNat < d
  if below then e - 1 else e

/-- Whether rounding goes away from zero: quotient q with remainder r of divisor d (R66, R69). `w` is the Philox word. -/
def roundsUp (rnd : Rnd) (neg : Bool) (q r d : Nat) (w : Word) : Bool :=
  match rnd with
  | .rne => d < 2 * r || (2 * r == d && q % 2 == 1)
  | .rtz => false
  | .rdn => neg && r != 0
  | .rup => !neg && r != 0
  | .rna => d ≤ 2 * r
  | .sr => w.toNat < r * 2 ^ 32 / d

/-- The magnitude code of num / den rounded with unbounded exponent and gradual underflow (R67). -/
def roundCode (f : Fmt) (rnd : Rnd) (neg : Bool) (n d : Nat) (w : Word) : Nat :=
  if n = 0 then 0 else
    let emin : Int := 1 - (f.bias : Int)
    let e := max (floorLog2 n d) emin
    let u := e - f.fbits
    let num := if 0 ≤ u then n else n * 2 ^ (-u).toNat
    let den := if 0 ≤ u then d * 2 ^ u.toNat else d
    let q := num / den
    let code := (e - emin).toNat * 2 ^ f.fbits + q
    if roundsUp rnd neg q (num % den) den w then code + 1 else code

/-- Whether an overflow of this sign becomes the largest finite value (R67). -/
def overflowFinite (rnd : Rnd) (neg : Bool) : Bool :=
  match rnd with
  | .rne | .rna | .sr => false
  | .rtz => true
  | .rdn => !neg
  | .rup => neg

/-- An infinity encoded (R68). -/
def encodeInf (f : Fmt) (sat neg : Bool) : Nat :=
  if sat then f.pattern neg f.maxCode else
    match f.special with
    | .ieee => f.pattern neg (f.maxCode + 1)
    | .e4m3 => f.nan
    | .finite => f.pattern neg f.maxCode

/-- fp_result of an exact value (R67, R68). Inputs are flushed by the reader. -/
def fpResult (f : Fmt) (m : FpMod) (w : Word) (x : Val) : Nat :=
  match x with
  | .nan => f.nan
  | .inf s => encodeInf f m.sat s
  | .fin s n d =>
    let code := roundCode f m.rnd s n d w
    if f.maxCode < code then
      if overflowFinite m.rnd s then f.pattern s f.maxCode else encodeInf f m.sat s
    else if m.ftzo && code < 2 ^ f.fbits then f.pattern s 0
    else f.pattern s code

/-- The plain modifiers: RNE, nothing flushed or saturated. -/
def rneMod : FpMod := ⟨false, false, false, .rne⟩

/-- round_rne(x, f32) without flushing. -/
def rne32 (x : Val) : Nat := fpResult .f32 rneMod 0 x

/-- An FP32 pattern's value. -/
def val32 (v : Nat) : Val := decodeFp .f32 v

/-- Conversion to an integer from `lo` to `hi` (R63): round, then clamp; a NaN becomes 0. -/
def toInt (rnd : Rnd) (lo hi : Int) (w : Word) (x : Val) : Int :=
  match x with
  | .nan => 0
  | .inf s => if s then lo else hi
  | .fin s n d =>
    let q := n / d
    let a := if roundsUp rnd s q (n % d) d w then q + 1 else q
    let i : Int := if s then -(a : Int) else a
    if i < lo then lo else if hi < i then hi else i

/-- Words that one rounding step draws (R69). -/
def draws (m : FpMod) : Nat := if m.rnd = .sr then 1 else 0

/-- minimumNumber of two FP32 or other patterns of one format (R71); the bits of the chosen operand stand. -/
def minNum (f : Fmt) (a b : Nat) : Nat :=
  let x := decodeFp f a
  let y := decodeFp f b
  if x.isNan then (if y.isNan then f.nan else b)
  else if y.isNan then a
  else if x.isZero && y.isZero then (if x.sign then a else b)
  else if y.lt x then b else a

/-- maximumNumber (R71). -/
def maxNum (f : Fmt) (a b : Nat) : Nat :=
  let x := decodeFp f a
  let y := decodeFp f b
  if x.isNan then (if y.isNan then f.nan else b)
  else if y.isNan then a
  else if x.isZero && y.isZero then (if x.sign then b else a)
  else if x.lt y then b else a

/-! ## Compensated pairs (R76) -/

/-- kahan_add on FP32 patterns: the new s and c. -/
def kahanAdd (s c x : Nat) : Nat × Nat :=
  let isFin (v : Nat) : Bool := match val32 v with | .fin _ _ _ => true | _ => false
  let sx := rne32 ((val32 s).add false (val32 x))
  if isFin s && isFin x && isFin sx then
    let y := rne32 ((val32 x).sub false (val32 c))
    let t := rne32 ((val32 s).add false (val32 y))
    let d := rne32 ((val32 t).sub false (val32 s))
    (t, rne32 ((val32 d).sub false (val32 y)))
  else (sx, 0)

/-! ## Microscaling blocks (R64, R65) -/

/-- Element formats of a block. -/
inductive MxFmt where
  | fp (f : Fmt) | int8
  deriving DecidableEq, Repr

/-- The exponent of the largest power of two of an element format (R65). -/
def MxFmt.emax : MxFmt → Int
  | .int8 => 0
  | .fp f => if f = .e4m3 then 8 else if f = .e5m2 then 15 else if f = .e3m2 then 4 else 2

/-- Bits of an element. -/
def MxFmt.bits : MxFmt → Nat
  | .int8 => 8
  | .fp f => f.bits

/-- The magnitude of a value times 2^k. -/
def Val.shift (k : Int) : Val → Val
  | .fin s n d => if 0 ≤ k then .fin s (n * 2 ^ k.toNat) d else .fin s n (d * 2 ^ (-k).toNat)
  | v => v

/-- amax of R65 as a quotient: the greatest finite magnitude. -/
def maxMag (l : List Val) : Nat × Nat :=
  l.foldl (fun acc v => match v with
    | .fin _ n d => if acc.1 * d < n * acc.2 then (n, d) else acc
    | _ => acc) (0, 1)

/-- mx_quantise (R65): the scale byte and the element patterns; `w` lists one Philox word for each element. With sat an infinity becomes the
largest finite E5M2 value, as R67's sat step has it, where a comment of R65's pseudocode leaves it infinite (DEDUCED, log 123). -/
def mxQuantise (f : MxFmt) (m : FpMod) (w : List Word) (v : List Val) : Nat × List Nat :=
  if v.any Val.isNan then (0xFF, v.map fun _ => 0)
  else if v.any (fun x => match x with | .inf _ => f != .fp .e5m2 && !m.sat | _ => false) then (0xFF, v.map fun _ => 0)
  else
    let a := maxMag v
    let e : Int := if a.1 = 0 then -127 else min (max (floorLog2 a.1 a.2 - f.emax) (-127)) 127
    let elem (x : Val) (r : Word) : Nat :=
      match f with
      | .fp g => fpResult g m r (x.shift (-e))
      | .int8 => wrapInt (toInt m.rnd (-128) 127 r (x.shift (6 - e))) 8
    ((e + 127).toNat, (v.zip (w ++ List.replicate v.length 0)).map fun p => elem p.1 p.2)

/-- The value of a block element under a scale byte (R64). -/
def mxValue (f : MxFmt) (scale v : Nat) : Val :=
  if scale = 0xFF then .nan
  else match f with
    | .fp g => (decodeFp g v).shift ((scale : Int) - 127)
    | .int8 => (Val.ofInt (sext v 8)).shift ((scale : Int) - 127 - 6)

/-! ## Philox-4x32-10 (R70); the multipliers and round constants are the published ones (PRESUMED, log 13) -/

/-- One round on a counter with a key. -/
def philoxRound (c : Nat × Nat × Nat × Nat) (k : Nat × Nat) : Nat × Nat × Nat × Nat :=
  let (c0, c1, c2, c3) := c
  let a := 0xD2511F53 * c0
  let b := 0xCD9E8D57 * c2
  (Nat.xor (Nat.xor (b / 2 ^ 32) c1) k.1, b % 2 ^ 32, Nat.xor (Nat.xor (a / 2 ^ 32) c3) k.2, a % 2 ^ 32)

/-- `n` rounds, the key stepped between them. -/
def philoxRounds : Nat → Nat × Nat × Nat × Nat → Nat × Nat → Nat × Nat × Nat × Nat
  | 0, c, _ => c
  | n + 1, c, k =>
    philoxRounds n (philoxRound c k) ((k.1 + 0x9E3779B9) % 2 ^ 32, (k.2 + 0xBB67AE85) % 2 ^ 32)

/-- Word `p` of the stream of a seed, thread index and team linear index (R70). -/
def philoxWord (seed : DWord) (tid team : Nat) (p : Nat) : Word :=
  let q := p % 2 ^ 64
  let b := q / 4
  let r := philoxRounds 10 (b % 2 ^ 32, b / 2 ^ 32, tid % 2 ^ 32, team % 2 ^ 32)
    (seed.toNat % 2 ^ 32, seed.toNat / 2 ^ 32)
  BitVec.ofNat 32 (match q % 4 with | 0 => r.1 | 1 => r.2.1 | 2 => r.2.2.1 | _ => r.2.2.2)

end Sys2Proof.Machine
end

