-- ==== Sys2Proof/WellFormed.lean ====
section
/-! DEFINITION. A well-formed instruction: one whose slot is an assigned encoding by R141, as far as the slot alone decides it.
The rest of R141 (the literal slot it names, the slot after a `rep`, the core that fetched it) depends on where it stands and is
checked at fetch. -/

namespace Sys2Proof

/-- Modifiers and operands are those the instruction accepts (R136, R138). -/
def Instr.wellFormed (i : Instr) : Bool := Roles.modOk i && Roles.operandsOk i

end Sys2Proof
end

