-- ==== Sys2Proof/Machine/State.lean ====
section
/-! DEFINITION. The machine's state as plain data: memories and register files as sorted association lists, teams with their
groups and threads, everything in flight between the units, and the host's management registers. `mgmt` holds what only host
writes, boot and the ports change; `dev` holds the rest. -/

namespace Sys2Proof.Machine

/-! ## Sorted association lists

Keys rise strictly and no listed value equals the default, so equal contents are equal data. -/

/-- A finite map from naturals with a default value elsewhere. -/
abbrev AMap (α : Type) := List (Nat × α)

/-- The value at `k`; `d` where nothing is listed. -/
def AMap.get {α : Type} (d : α) : AMap α → Nat → α
  | [], _ => d
  | (j, v) :: r, k => if j = k then v else AMap.get d r k

/-- The map without `k`. -/
def AMap.drop {α : Type} (m : AMap α) (k : Nat) : AMap α := m.filter fun e => e.1 != k

/-- An entry put before the first higher key. -/
def AMap.insert {α : Type} : AMap α → Nat → α → AMap α
  | [], k, v => [(k, v)]
  | (j, w) :: r, k, v => if k < j then (k, v) :: (j, w) :: r else (j, w) :: AMap.insert r k v

/-- The map with `v` at `k`; the default is not listed. -/
def AMap.set {α : Type} [DecidableEq α] (d : α) (m : AMap α) (k : Nat) (v : α) : AMap α :=
  if v = d then AMap.drop m k else AMap.insert (AMap.drop m k) k v

/-- Every key of the map is above `k`. -/
def AMap.above {α : Type} (k : Nat) (m : AMap α) : Bool := m.all fun e => k < e.1

/-- The canonical form: keys strictly rising, no default listed. -/
def AMap.wf {α : Type} [DecidableEq α] (d : α) : AMap α → Bool
  | [] => true
  | (k, v) :: r => decide (v ≠ d) && AMap.above k r && AMap.wf d r

/-- A byte memory: addresses strictly rising, no listed byte zero. An unlisted byte reads 0 (DESIGN CHOICE, log 5). -/
abbrev Memory := List Host.Cell

/-- What an unlisted address reads as (DESIGN CHOICE, log 5). -/
def Memory.unlisted : Byte := 0

/-- The canonical form of a memory. -/
def Memory.wf (m : Memory) : Bool := AMap.wf Memory.unlisted m

/-- One byte of a memory. -/
def Memory.read (m : Memory) (a : Nat) : Byte := AMap.get Memory.unlisted m a

/-- One byte written. -/
def Memory.write (m : Memory) (a : Nat) (b : Byte) : Memory := AMap.set Memory.unlisted m a b

/-! ## Kernels and grids -/

/-- One region entry of a kernel descriptor (R90). -/
structure Region where
  src : Nat
  rowBytes : Nat
  stride : Nat
  rows : Nat
  dst : Nat
  zeroFill : Bool
  perTeam : Bool
  advX : Nat
  advY : Nat
  advZ : Nat
  deriving DecidableEq, Repr

/-- A launched kernel: its descriptor's fields (R149) and the copies of its constant banks (R151). -/
structure Kernel where
  codeBase : Nat
  codeSlots : Nat
  isaLevel : Nat
  entryPc : Nat
  /-- group width: 16, 32 or 64 -/
  width : Nat
  pair : Bool
  /-- groups of a team -/
  groups : Nat
  /-- base block B in slots -/
  base : Nat
  tiles : Nat
  /-- declared team memory D in bytes -/
  tmem : Nat
  /-- stack bytes per thread S, and its team-resident part T -/
  stackS : Nat
  stackT : Nat
  /-- 0 row-major, 1 Morton, 2 Hilbert, 3 swizzle -/
  curve : Nat
  affinity : Option Nat
  energy : Nat
  /-- sfu_compat (R80) -/
  compat : Bool
  swizzle : Nat
  lambda : DWord
  seed : DWord
  /-- bytes of each constant bank -/
  bankSize : AMap Nat
  /-- bank copies, byte o of bank b at 65,536·b + o -/
  bankData : Memory
  regions : List Region
  deriving DecidableEq, Repr

/-- A grid in flight (R20 to R23, R314 to R316). -/
structure Grid where
  id : Nat
  ctx : Nat
  queue : Nat
  /-- launches of its queue before it (R279) -/
  seq : Nat
  kernel : Kernel
  gx : Nat
  gy : Nat
  gz : Nat
  /-- next point of the curve, over all planes -/
  next : Nat
  /-- teams placed so far, and teams ended -/
  placed : Nat
  ended : Nat
  prio : Nat
  energy : Nat
  /-- the absolute deadline its launch carried, in 2^-16 ns of device time; none for no deadline -/
  deadline : Option Nat
  /-- end semaphore and the value added to it (R283) -/
  endSem : Option (Nat × DWord)
  /-- die of the queue's ring, for own-die addresses of its launch record -/
  ringDie : Nat
  cluster : Option Nat
  /-- Kerf passes (R319) -/
  passes : Nat
  /-- it fitted nowhere: out of `choose` until a team ends (R315) -/
  out : Bool
  /-- the context-table entry as its launch found it (R322) -/
  entry : List DWord
  deriving DecidableEq, Repr

/-! ## Threads, groups, teams -/

/-- What a thread waits for (R31). -/
inductive Wait where
  /-- `bar.team` number `b` (R32) -/
  | barTeam (b : Nat)
  /-- a counting barrier's entry (R220) -/
  | barCount (entry : Nat)
  /-- no entry was free: it waits at the instruction for one (R221) -/
  | barRetry (kind number count : Nat) (post : List Nat)
  /-- `bar.sys .rel` before its arrival: R122 not yet met -/
  | barSysRelease (addr : Nat) (count : Nat)
  /-- `bar.sys` whose add is on its way -/
  | barSysSent (addr : Nat) (count : Nat)
  /-- `bar.sys` after its arrival, until the word is at least the target (R222) -/
  | barSysTarget (addr : Nat) (target : Nat) (count : Nat)
  /-- `wait` whose test is on its way, or which is watched at the port; the test repeats on a wake (R93) -/
  | word (addr : Nat) (post : List Nat)
  /-- `qpush` or `qpop` (R95) -/
  | queue
  /-- `regroup` (R35) -/
  | regroup
  /-- a fence of a scope code (R218) -/
  | fence (scope : Nat)
  deriving DecidableEq, Repr

/-- The states of a thread (R24). -/
inductive TState where
  | ready | parked (w : Wait) | exited
  deriving DecidableEq, Repr

/-- A pending deferred fault (R388). -/
structure Deferred where
  cause : Nat
  fpc : Nat
  addr : Nat
  detail : Nat
  deriving DecidableEq, Repr

/-- One entry of the forwarding window as one thread holds it: the group's count of the instruction and the slots it wrote
(R53). -/
structure WinEntry where
  seq : Nat
  slots : List (Nat × Word)
  deriving DecidableEq, Repr

/-- One thread. The queue threads of the control cores use the same record; what they lack stays at its first value (R282). -/
structure Thread where
  tid : Nat
  lane : Nat
  st : TState
  pc : Word
  /-- base and slots of the image it runs (R390) -/
  imgBase : Nat
  imgSlots : Nat
  /-- `sr.trap` (R392) -/
  trap : DWord
  /-- `sr.rep` (R234) -/
  rep : Word
  /-- register slots as the bank holds them -/
  bank : AMap Word
  /-- its part of the forwarding window, oldest first -/
  win : List WinEntry
  /-- p0 to p6 -/
  p : BitVec 7
  /-- x0 to x7 -/
  x : AMap DWord
  /-- Philox stream position (R70) -/
  pos : DWord
  /-- reduction ordinal (R333) -/
  ordinal : Nat
  pend : Option Deferred
  /-- poisoned slots of its bank (R428) -/
  bad : List Nat
  /-- names of accesses whose reads every later access of it follows (R111) -/
  acqs : List Nat
  /-- a posted access of it waits for room in a side log: it issues nothing (R424) -/
  stopped : Bool
  deriving DecidableEq, Repr

/-- Why a whole group is blocked or held at an instruction (R31, R47, R56, R249, R262). -/
inductive Block where
  /-- `racq n` of a head run, blocked since a cycle -/
  | racq (n : Nat) (since : Nat) (lanes : List Nat)
  /-- `rrel n` held for outstanding results -/
  | rrel (n : Nat)
  /-- `jwait` of a pending handle -/
  | handle (h : DWord)
  /-- `trel` of a tile in flight -/
  | trel (tile : Nat)
  /-- `jpost` without a free card place -/
  | jpost
  /-- an instruction held by the interlock on pending indirect writes (R56) -/
  | interlock
  deriving DecidableEq, Repr

/-- A group (R16). -/
structure Group where
  gid : Nat
  core : Nat
  /-- group slot as `sr.gslot`: [7:1] position, [0] bay -/
  gslot : Nat
  /-- extended units U (R46) -/
  units : Nat
  /-- y0 to y63 -/
  y : AMap Word
  /-- h0 to h15 -/
  h : AMap DWord
  /-- final status of the handle in each h register plus 1; 0 where not final (R256) -/
  hfin : AMap Nat
  lambda : DWord
  /-- instructions that entered the forwarding window so far (R53) -/
  seq : Nat
  /-- cycle of entry into the active set; none: pending (R29) -/
  active : Option Nat
  /-- lane of its core, 0 to 3 in bay 0 and 4 to 7 in bay 1 (R11, R28) -/
  laneNo : Option Nat
  /-- runs issued in a row on the lane -/
  runs : Nat
  /-- cycle since when it waits for a lane, or is ready to enter the active set -/
  since : Option Nat
  /-- backward branches counted, and the cut's B and runs left (R38) -/
  relief : Nat
  /-- PC of the branch that brought the count to 1,024 -/
  reliefPc : Nat
  cut : Option (Nat × Nat)
  block : Option Block
  /-- slots whose fetch waits on a page fault: image base, PC, page (R421) -/
  fetchWait : List (Nat × Nat × Nat)
  /-- ranges of the pending indirect writes: instruction, first slot, end slot (R56) -/
  pendInd : List (Nat × Nat × Nat)
  /-- cluster and post count of the job posted last (R125) -/
  lastPost : Option (Nat × Nat)
  /-- all threads exited and everything left the core (R33) -/
  ended : Bool
  threads : List Thread
  deriving DecidableEq, Repr

/-- A team barrier generation in progress (R32). -/
structure TeamBar where
  number : Nat
  arrivals : Nat
  start : Nat
  deriving DecidableEq, Repr

/-- One arrival at a `regroup`: thread index, key, live mask (R34). -/
structure Arrival where
  tid : Nat
  key : Nat
  mask : Nat
  deriving DecidableEq, Repr

/-- A gathering `regroup` (R34, R416). -/
structure Gather where
  pc : Nat
  start : Nat
  arrivals : List Arrival
  deriving DecidableEq, Repr

/-- Where a team stands. `halting`: its context has halted and what it sent is still on its way (R395). -/
inductive TeamStat where
  | staging | running | regrouping | saving | saved | restoring | halting
  deriving DecidableEq, Repr

/-- One piece of a saved team's memory, from its first byte on, with the poisoned words of 8 bytes. -/
structure Kept where
  mem : Memory
  bad : List Nat
  deriving DecidableEq, Repr

/-- A team (R16, R18, R19). -/
structure Team where
  id : Nat
  ctx : Nat
  grid : Nat
  tx : Nat
  ty : Nat
  tz : Nat
  core : Nat
  kernel : Kernel
  stat : TeamStat
  /-- place in the order of placement (R321) -/
  order : Nat
  /-- first byte of its declared team memory on its core, and on the second core of a pair -/
  tmBase : Nat
  tmBase2 : Nat
  /-- stack block of each group in team memory and in die scratchpad (R84) -/
  stkBase : AMap Nat
  ovfBase : AMap Nat
  /-- physical tile + 1 of each team tile index held (R45, R261) -/
  tiles : AMap Nat
  bars : List TeamBar
  gather : Option Gather
  /-- counting barriers and `bar.sys` words its threads wait at, with the cycle of its first arrival in the generation: kind (1, 2
  or 3), entry or address, cycle (R413); of kind 4, a thread whose arrival was answered unreachable: address + 2^64 · `sr.tid` (R436) -/
  waits : List (Nat × Nat × Nat)
  /-- cycle of its last save (R413) -/
  savedAt : Nat
  /-- bytes of the save area it uses: first byte and length (R321) -/
  save : Option (Nat × Nat)
  /-- its regions are staged (R91); a page fault holds its staging -/
  staged : Bool
  held : Bool
  /-- what its last save kept, while it is saved: its pieces of memory in order, and the tile status by team index (R263, R321) -/
  kept : List Kept
  keptStat : AMap Nat
  groups : List Group
  deriving DecidableEq, Repr

/-! ## Items in flight -/

/-- A thread by name. -/
structure TRef where
  team : Nat
  gid : Nat
  tid : Nat
  deriving DecidableEq, Repr

/-- Where a long-latency result goes: direct or indirect slots, a y register, an h register, or nowhere. `mask` names the bits
written. -/
structure Dest where
  slot : Option Nat
  indirect : Bool
  y : Option Nat
  h : Option Nat
  /-- 32-bit slots the destination has -/
  slots : Nat
  deriving DecidableEq, Repr

/-- A long-latency result that has not returned to its thread (R26). -/
structure Result where
  id : Nat
  who : TRef
  dest : Dest
  /-- the value, once the unit has produced it -/
  value : Option Nat
  /-- units that a torn load has read so far, low first: of 1 byte in team memory, of 8 elsewhere (R110, R432) -/
  part : List Nat
  mask : Nat
  /-- the pending indirect write it belongs to (R56) -/
  instr : Nat
  /-- a save of its team waits for it: a local load or atomic (R444) -/
  awaited : Bool
  deriving DecidableEq, Repr

/-- What an access does with its bytes. -/
inductive AccKind where
  /-- load of `n` bytes -/
  | load (n : Nat)
  /-- store of `n` bytes of a value -/
  | store (n : Nat) (v : Nat)
  /-- atomic of a type with operand and compare value -/
  | atom (op : AtomOp) (ty : MType) (v : Nat) (cmp : Nat)
  /-- contribution of a reduction -/
  | red (op : AtomOp) (ty : MType) (v : Nat)
  /-- `red.commit` -/
  | commit
  /-- the add of `bar.sys` with its count -/
  | barSys (count : Nat)
  /-- the test of `wait`: comparison code and operand -/
  | test (cmp : Nat) (v : Nat)
  /-- a message of a stack agent to another (R341) -/
  | message (m : AgentMsg)
  deriving DecidableEq, Repr

/-- Who made an access: a thread, a queue thread, the part for a context, a remote package's source, a job of a cluster, the agent of a
stack for an entry of its tile table. -/
inductive Issuer where
  | thread (t : TRef) (core : Nat) | queue (q : Nat) | part (ctx : Nat) | remote (src : Nat) (seq : Nat)
  | job (cluster : Nat) (seq : Nat)
  | agent (stack : Nat) (entry : Nat)
  deriving DecidableEq, Repr

/-- An access on its way to a die's scratchpad port or to a home slice (R115, R116). -/
structure Access where
  id : Nat
  who : Issuer
  ctx : Nat
  /-- PC of the instruction -/
  pc : Nat
  /-- 0 glob, 1 die scratchpad, 2 team memory, 3 tile, 4 register window -/
  space : Nat
  /-- generic address, and outside glob the key of its first byte -/
  addr : Nat
  key : Nat
  /-- release at this scope: it waits for the thread's earlier writes (R116) -/
  rel : Option Nat
  /-- names of accesses of its thread that are performed before it (R111) -/
  after : List Nat
  /-- the context's determinism mode at the launch (R215) -/
  det : Bool
  /-- waits on a page fault until host software resolves it (R421); a posted access, for room in a side log (R424) -/
  faulted : Bool
  kind : AccKind
  /-- the result it fills -/
  result : Option Nat
  /-- logical tag of a contribution in determinism mode (R333), and its device time -/
  ltag : Nat
  stamp : DWord
  /-- issuing die, for near placement -/
  die : Nat
  /-- grid of its thread -/
  grid : Option Nat := none
  deriving DecidableEq, Repr

/-- A performed request whose acknowledgement is on its way (R116, R117). -/
structure Ack where
  id : Nat
  who : Issuer
  slice : Nat
  tag : Nat
  deriving DecidableEq, Repr

/-- A `qpush` or `qpop` on its way to, or waiting at, a queue unit (R95). -/
structure QueueOp where
  id : Nat
  who : TRef
  ctx : Nat
  pc : Nat
  die : Nat
  number : Nat
  /-- its instruction, by name (R45) -/
  instr : Nat
  /-- the pushed value; none for a pop -/
  value : Option DWord
  dest : Dest
  /-- index registers it advances when it completes (R52) -/
  post : List Nat
  /-- waits in the queue's list -/
  waiting : Bool
  deriving DecidableEq, Repr

/-- A watch on a die word, or on a glob word at its home slice (R93, R222): the waiting thread or queue thread. -/
structure Watch where
  key : Nat
  who : Issuer
  /-- comparison code (0 eq, 1 ne, 2 ge) and operand -/
  cmp : Nat
  value : Nat
  /-- in the table; false: polls -/
  held : Bool
  deriving DecidableEq, Repr

/-- A `bar.sys` word of this package in a generation that is not complete: its count, and the word after the last arrival (R222). -/
structure SysUse where
  /-- device-physical address -/
  pa : Nat
  count : Nat
  word : Nat
  deriving DecidableEq, Repr

/-- A pair or cluster barrier's entry (R220, R221). -/
structure CountBar where
  id : Nat
  ctx : Nat
  /-- 1 pair, 2 cluster -/
  kind : Nat
  place : Nat
  number : Nat
  count : Nat
  arrivals : Nat
  start : Nat
  deriving DecidableEq, Repr

/-- A cached translation (R102): context, page address, page bytes, leaf. -/
structure Cached where
  ctx : Nat
  page : Nat
  size : Nat
  leaf : DWord
  deriving DecidableEq, Repr

/-- A line in the accumulate state of a near cache (R101, R118, R332): contributions not yet merged. -/
structure Partial where
  core : Nat
  ctx : Nat
  /-- device-physical address -/
  addr : Nat
  op : AtomOp
  ty : MType
  value : Nat
  /-- grid of the first contribution, for its record -/
  grid : Option Nat
  deriving DecidableEq, Repr

/-- A frame move in progress (R106): the frame, the entry that names its destination, and the lines of 128 bytes copied so far. -/
structure FrameMove where
  frame : Nat
  dest : DWord
  copied : Nat
  deriving DecidableEq, Repr

/-- A contribution that a home slice holds in determinism mode (R215). -/
structure Contribution where
  ctx : Nat
  addr : Nat
  op : AtomOp
  ty : MType
  value : Nat
  ltag : Nat
  stamp : DWord
  /-- the slice's tag for its request, and the grid of its thread, for its record -/
  tag : Nat
  grid : Option Nat
  deriving DecidableEq, Repr

/-- One entry of a slice's side log (R424): an access that waits for a page. -/
structure SideEntry where
  slice : Nat
  access : Access
  page : Nat
  /-- host software has resolved the page: it is replayed after the page's earlier entries (R425) -/
  due : Bool
  deriving DecidableEq, Repr

/-! ## Jobs -/

/-- States of a job (R285). -/
inductive JobState where
  | waiting | ready | issued
  /-- issued, a share waits on a page fault, its engine given up (R421) -/
  | paged (page : Nat)
  | completed | cancelled | failed (reason : Nat)
  deriving DecidableEq, Repr

/-- A share of an issued job, not complete: its number, and the core whose Truss it holds; none while it waits for one (R291, R292). -/
structure Share where
  num : Nat
  truss : Option Nat
  deriving DecidableEq, Repr

/-- A job of a cluster (R243, R248, R285). -/
structure Job where
  /-- post count of the cluster at posting, and entry of the queue -/
  seq : Nat
  slot : Nat
  card : List DWord
  who : TRef
  ctx : Nat
  core : Nat
  team : Nat
  grid : Nat
  state : JobState
  /-- post counts of the jobs it has edges from (R124, R125) -/
  preds : List Nat
  /-- handle of the job whose failure reached it (R440, R441) -/
  failedRoot : Option Nat
  /-- its shares that are not complete (R291, R292), by number -/
  shares : List Share
  /-- copy engine it holds, of the cluster's four (R289) -/
  engine : Option Nat
  /-- its work is done, and its requests to other packages are not yet acknowledged (R126) -/
  drain : Bool
  /-- address of its first request answered unreachable (R436) -/
  lost : Option Nat
  passes : Nat
  cancelAsked : Bool
  deriving DecidableEq, Repr

/-- A card held at its core (R249). -/
structure HeldCard where
  core : Nat
  job : Job
  /-- accesses made before it bear names below this one (R123) -/
  upto : Nat
  /-- the job it must follow for `.ord`, by its post count (R125) -/
  ordAfter : Option Nat
  deriving DecidableEq, Repr

/-- A cluster's Joiner. -/
structure Join where
  count : Nat
  jobs : List Job
  deriving DecidableEq, Repr

/-! ## Rays, textures, shading cache, collectives -/

/-- A hit found so far (R268, R270). -/
structure Hit where
  t : Word
  u : Word
  v : Word
  prim : Nat
  inst : Nat
  tag : Nat
  back : Bool
  deriving DecidableEq, Repr

/-- A pending entry of a ray's traversal (R302): a node, a leaf from its triangle `tri` on, or an instance, with the ray in that space. -/
structure RayEntry where
  /-- 1 node, 2 leaf, 3 instance -/
  kind : Nat
  addr : Nat
  tri : Nat
  /-- instance index; 0xFFFFFFFF outside an instance -/
  inst : Nat
  /-- address of the instance it lies below, plus 1; 0 outside an instance -/
  via : Nat
  org : List Word
  dir : List Word
  /-- distance at which the ray enters the box, rounded RDN -/
  enter : Word
  deriving DecidableEq, Repr

/-- A ray in a slot, or waiting for one (R267). -/
structure Ray where
  core : Nat
  /-- its slot; none while it waits -/
  slot : Option Nat
  who : TRef
  ctx : Nat
  root : Nat
  /-- the sixteen elements of the ray (R266) -/
  elems : List Word
  tmax : Word
  pending : List RayEntry
  best : Option Hit
  /-- candidates already offered: 4 · leaf address + triangle, and the instance as in `via` -/
  offered : List (Nat × Nat)
  /-- a candidate waits for `trace.resume` -/
  candidate : Option Hit
  procedural : Bool
  /-- the result the next record fills -/
  result : Option Nat
  /-- page of a read that waits on a page fault (R421) -/
  held : Option Nat
  deriving DecidableEq, Repr

/-- A texture request (R271). -/
structure TexReq where
  id : Nat
  who : TRef
  ctx : Nat
  core : Nat
  mode : StexMode
  index : Nat
  packet : Nat
  lambda : DWord
  result : Nat
  /-- page of a read that waits on a page fault (R421) -/
  held : Option Nat
  deriving DecidableEq, Repr

/-- An entry of a shading reuse cache (R273). -/
structure ShcEntry where
  core : Nat
  set : Nat
  way : Nat
  ctx : Nat
  key : DWord
  valid : Bool
  values : List Word
  /-- order of its last hit, or the cycle of its reservation -/
  age : Nat
  deriving DecidableEq, Repr

/-- A probe or fill on its way to the cache (R274). -/
structure ShcReq where
  id : Nat
  who : TRef
  ctx : Nat
  core : Nat
  key : DWord
  fill : Option (List Word)
  result : Option Nat
  deriving DecidableEq, Repr

/-- A `coll.arm` or `coll.ready` on its way to a stack agent (R276, R277). -/
structure CollReq where
  id : Nat
  who : TRef
  core : Nat
  ctx : Nat
  selector : Nat
  /-- the image of `coll.arm`; none for `coll.ready` -/
  image : Option (List DWord)
  result : Option Nat
  deriving DecidableEq, Repr

/-- Plans of a firing (R338). -/
inductive Plan where
  | direct | ring | tree
  deriving DecidableEq, Repr

/-- A re-plan being agreed (R469): its start, the plane to avoid, whether this member has answered, and the ranks that have. -/
structure Replan where
  since : Nat
  plane : Nat
  own : Bool
  answered : List Nat
  deriving DecidableEq, Repr

/-- What a stack agent holds for one entry's firings (R338, R469 to R471). -/
structure Firing where
  /-- firings of the entry before this one, modulo 2^16 -/
  count : Nat
  plan : Plan
  determinism : Bool
  rank : Nat
  /-- cycle of the `coll.ready` of the firing that runs -/
  since : Option Nat
  /-- grid of the thread that made the entry ready, for its records (R322) -/
  grid : Option Nat
  /-- ranks whose firing message has agreed -/
  agreed : List Nat
  /-- a re-plan being agreed, and the plane that the chunks after one avoid -/
  replan : Option Replan
  avoid : Option Nat
  /-- messages and aborts for firings that have not come -/
  early : List FireMsg
  aborts : List Nat
  later : List AgentMsg
  /-- chunks received and not yet used, and offsets whose result stands in the buffer -/
  got : List CollChunk
  done : List Nat
  /-- chunks sent: rank of the receiver, offset, and 2 · hop + [down] -/
  sent : List (Nat × Nat × Nat)
  relayed : Bool
  /-- the member wrote its buffer while the entry ran; offsets of the chunks that then hold undefined bytes (R277) -/
  spoiled : Bool
  freed : List Nat
  /-- the reason of R470 that an answer to a request of it gives -/
  lost : Option Nat
  deriving DecidableEq, Repr

/-- Refresh state of a stack (R335, R434). -/
structure Stack where
  missed : Nat
  allBank : Bool
  /-- bank and subarray of each refresh in progress -/
  refreshing : List (Nat × Nat)
  /-- an all-bank refresh in progress -/
  busy : Bool
  deriving DecidableEq, Repr

/-- A record made at most once a millisecond (R428, R447, R448, R464): occurrences since the last one, its value, and its cycle. -/
structure Rate where
  count : Nat
  value : Nat
  extra : Nat
  at_ : Option Nat
  deriving DecidableEq, Repr

/-- A deferred fault on its way to its thread (R388, R426). -/
structure LateFault where
  /-- the name of the refused access -/
  id : Nat
  who : Issuer
  fault : Deferred
  /-- the result that the refused access will not fill; outstanding until the fault is there -/
  result : Option Nat
  /-- the thread is parked at the refused access -/
  parks : Bool
  deriving DecidableEq, Repr

/-! ## Queues and control cores -/

/-- What a queue thread waits for (R284, R312). -/
inductive QWait where
  /-- ready, or never started -/
  | none
  /-- `qnext`: its ring is empty -/
  | ring
  /-- `launch`: the grid has not ended -/
  | grid (id : Nat)
  /-- a test of a die word on its way or watched -/
  | word (addr : Nat)
  /-- `ttrig` until a time -/
  | time (t : DWord)
  /-- a fence -/
  | fence
  /-- `intr`: earlier writes not yet performed -/
  | intr (vector : Nat)
  deriving DecidableEq, Repr

/-- A hardware queue (R310): the four words of its descriptor and its queue thread. -/
structure Queue where
  w0 : DWord
  w1 : DWord
  w2 : DWord
  w3 : DWord
  /-- its registers (R282) -/
  thread : Thread
  /-- has fetched its first instruction since the descriptor's prog was written -/
  started : Bool
  exited : Bool
  wait : QWait
  /-- disable asked for: takes effect at the next park (R310) -/
  stopping : Bool
  /-- page of a fetch, or of a read for its launch, that waits on a page fault (R421) -/
  held : Option Nat
  /-- isa_level of its program's descriptor -/
  level : Nat
  /-- current absolute deadline (R312), in 2^-16 ns of device time -/
  deadline : Option Nat
  /-- cycle of its most recent ready instant -/
  readyAt : Nat
  /-- launches made -/
  launches : Nat
  deriving DecidableEq, Repr

/-- Kerf's view of one die (R318, R320, R357, R451). -/
structure KerfDie where
  /-- samples kept: cycle and mW, the last 50 µs and the last one -/
  samples : List (Nat × Nat)
  /-- 1/16 degree -/
  temp : Int
  /-- admissions of the last 50 µs: cycle and mW -/
  recent : List (Nat × Nat)
  throttled : Bool
  emergency : Bool
  /-- cycle at which the emergency began, and of the last sample -/
  since : Nat
  sampled : Nat
  silent : Bool
  gated : Bool
  /-- cycle since which the temperature has been below 92 and below 100 degrees -/
  below92 : Option Nat
  below100 : Option Nat
  deriving DecidableEq, Repr

/-! ## Fabric -/

/-- State of a link port (R457 to R459). -/
inductive PortState where
  | down | training | up | degraded | failed
  deriving DecidableEq, Repr

/-- A link port. -/
structure Port where
  state : PortState
  failures : Nat
  reason : Nat
  disable : Bool
  /-- cycle of the last failure or of the last attempt to train since, and of the start of training or its last link-level replay -/
  failedAt : Nat
  trainedAt : Nat
  deriving DecidableEq, Repr

/-- A request sent to a remote package and not yet acknowledged (R341). -/
structure Sent where
  seq : Nat
  access : Access
  endpoint : Nat
  gen : Nat
  rctx : Nat
  /-- device-physical address at the destination -/
  raddr : Nat
  planes : Nat
  /-- port of the last sending (255: none was usable), its cycle, and the cycle of the first -/
  port : Nat
  at_ : Nat
  since : Nat
  deriving DecidableEq, Repr

/-- A port suspect for a destination (R461). -/
structure Suspect where
  port : Nat
  /-- cycle since which no request tries it -/
  since : Nat
  /-- 10 ms are over: the next request tries it -/
  trial : Bool
  deriving DecidableEq, Repr

/-- The end-to-end layer towards one destination (R341 to R343, R461, R465, R466). -/
structure PeerOut where
  next : Nat
  sent : List Sent
  /-- messages of a stack agent that wait for room, oldest first (R341, R343) -/
  queue : List AgentMsg
  closed : Bool
  closedAt : Nat
  /-- closed by an unreachable answer: reopens with sequence number 0, when a request names the generation that the answer reported
  (R467) -/
  fresh : Bool
  reported : Nat
  /-- ports suspect for this destination (R461) -/
  suspects : List Suspect
  /-- requests in a row resent without acknowledgement: port and sequence number -/
  misses : List (Nat × Nat)
  /-- port used last -/
  rotation : Option Nat
  deriving DecidableEq, Repr

/-- The end-to-end layer from one source (R342, R462, R466). -/
structure PeerIn where
  next : Nat
  waiting : List RemoteReq
  /-- results kept for re-sent requests: sequence, I/O die, and the old value; none for an atomic answered unreachable -/
  results : List (Nat × Nat × Option Nat)
  deriving DecidableEq, Repr

/-- A message that has left the part. -/
inductive Notice where
  /-- an MSI-X message: port, function, vector (R401) -/
  | msi (port fn vector : Nat)
  /-- a request sent, or sent again, to another package on a port -/
  | request (peer seq port : Nat)
  /-- an acknowledgement to another package on a port, with an old value; none: unreachable -/
  | answer (peer seq port : Nat) (v : Option Nat)
  /-- an answer of kind 0 busy, 1 unsupported to another package on a port (R340, R342) -/
  | refusal (kind peer seq port : Nat)
  /-- messages of kinds 2 resynchronisation (R466), 3 the wake of a remote waiter (R222), 4 the receipt of an answer (R342) -/
  | fabric (kind peer seq : Nat)
  /-- a message of a stack agent to another, sent or sent again on a plane (R468) -/
  | agent (peer seq plane : Nat) (m : AgentMsg)
  /-- a Delay_Req of the timing port (R348) -/
  | delayReq (seq : Nat)
  /-- a PCIe write or AtomicOp to a host -/
  | pcie (port addr : Nat) (n : Nat) (v : Nat)
  /-- the 1PPS output edge (R350) -/
  | pps
  /-- data answering a host's read -/
  | readData (port : Nat) (ep : Bool) (bytes : List Byte)
  deriving DecidableEq, Repr

/-! ## Error records -/

/-- Fields of an error record that a class sets; the rest are zero (R397). -/
structure ErrRec where
  cls : Nat
  sev : Nat
  /-- source kind and index -/
  kind : Nat
  index : Nat
  /-- the context it names; none for records that concern no single context (R400) -/
  ctx : Option Nat
  /-- the grid whose launch found the context-table entry (R322); none: the entry as it stands -/
  grid : Option Nat := none
  queue : Option Nat := none
  /-- slice and tag, where flag t is set -/
  slice : Option (Nat × Nat) := none
  unhandled : Bool := false
  addr : Nat := 0
  pc : Nat := 0
  tid : Nat := 0
  team : Nat := 0
  ltag : Nat := 0
  stamp : DWord := 0
  /-- words 11 to 14 -/
  d0 : Nat := 0
  d1 : Nat := 0
  d2 : Nat := 0
  d3 : Nat := 0
  deriving DecidableEq, Repr

/-- Posted accesses of a thread to an endpoint answered unreachable: the record to come, its word 11 their count (R436). -/
structure LostWrites where
  who : TRef
  endpoint : Nat
  record : ErrRec
  deriving DecidableEq, Repr

/-! ## The whole machine -/

/-- What issues next, as the host of this model decides it (DESIGN CHOICE, log 1). -/
inductive Move where
  /-- the head run of the group in a core's group slot -/
  | issue (core gslot : Nat)
  /-- one instruction of the queue thread that a control core serves -/
  | serve (cc : Nat)
  /-- one event (rows 165 to 277) -/
  | event (i : Instr)
  /-- `n` core cycles pass -/
  | tick (n : Nat)
  deriving DecidableEq, Repr

/-- Who executes the instruction that `step` has fetched, with the literal slots it names. -/
inductive Cur where
  | none
  /-- head-run threads of a group, by `sr.lane`, ascending -/
  | run (team gid : Nat) (lanes : List Nat) (lits : AMap DWord) (word0 : Word)
  /-- a queue thread -/
  | queue (q : Nat) (lits : AMap DWord) (word0 : Word)
  deriving DecidableEq, Repr

/-- Where poison stands (R428 to R430): a space and a word of it. -/
structure Poison where
  /-- 0 HBM (32-byte sectors); 1 scratchpad, 2 team memory, 3 tile, 4 near cache (core · 2^41 + physical address), 5 home-slice cache or
  write queue (8-byte words); 6 job-queue entry (8 · (cluster · 1,024 + slot)) -/
  space : Nat
  addr : Nat
  deriving DecidableEq, Repr

/-! ## The host's management registers (R323) -/

/-- A port semaphore (R326). -/
structure Sem where
  held : Bool
  owner : Nat
  gen : Nat
  /-- cycle in which its owner was lost; it is released 1 ms later (R453) -/
  lostAt : Option Nat := none
  deriving DecidableEq, Repr

/-- Boot states (R351). -/
inductive BootState where
  | reset | waiting | verifying | loading | running | failed
  deriving DecidableEq, Repr

/-- Power of the module (R357, R452, POWER_OFF). -/
inductive Power where
  | off | active | standby | stopped
  deriving DecidableEq, Repr

/-- Boot control and status (R351, R356), the generation (R345) and what a streaming leaves (R355). -/
structure Boot where
  state : BootState
  reason : Nat
  owner : Option Nat
  /-- bundle length in bytes -/
  length : Nat
  /-- boot_gen written since the last streaming -/
  pending : Option Nat
  gen : Nat
  /-- streamed before since power good -/
  streamed : Bool
  trained0 : Bool
  trained1 : Bool
  /-- section digests of the running bundle -/
  digests : List (BitVec 512)
  deriving DecidableEq, Repr

/-- Attestation (R355, R455). -/
structure Attest where
  nonce : List DWord
  building : Bool
  ready : Bool
  failed : Bool
  reason : Nat
  report : List Byte
  /-- the self-test failed: unavailable until firmware is streamed again -/
  broken : Bool
  deriving DecidableEq, Repr

/-- The timing port (R348): the master followed with its data set, a two-step Sync whose follow-up is to come and the time it was
received, the last exchange's origin and receipt, and the Delay_Req on its way with the time it left; times in ns. -/
structure Ptp where
  best : Option (Nat × List Nat)
  pending : Option (Nat × Int × Int)
  down : Option (Int × Int)
  asked : Option (Nat × Int)
  next : Nat
  deriving DecidableEq, Repr

/-- The registers only host writes, boot and the ports change. An unlisted entry of a table holds its reset value. -/
structure Mgmt where
  /-- (reserve, budget) of die n; reset (20,000, 260,000) (R325) -/
  budgets : AMap (Nat × Nat)
  share : Nat
  /-- K (R319) -/
  k : Nat
  /-- energy class n·16 + c; none: the reset value (R317) -/
  energy : AMap (Option DWord)
  sems : AMap Sem
  /-- port that lost the last tie (R326) -/
  tieLoser : Option Nat
  /-- BAR4 window bases (R324) -/
  windows : AMap Nat
  wdLog2 : Nat
  inval : DWord
  faultReg : DWord
  rayReg : DWord
  reopenReg : DWord
  migCfg : DWord
  migReq : DWord
  migData : DWord
  timeCtl : DWord
  /-- [63] written and not yet adopted, [47:0] seconds -/
  ppsSecs : DWord
  setSecs : DWord
  /-- last measured offset in ns (R349) -/
  offset : Int
  /-- consecutive offsets within 100 ns, and master present -/
  good : Nat
  master : Bool
  ptp : Ptp
  boot : Boot
  attest : Attest
  power : Power
  /-- Standby is being entered: its first steps are done, and requests are still outstanding (R358) -/
  entering : Bool
  deriving DecidableEq, Repr

/-- Everything but the host's management registers. -/
structure Dev where
  cur : Cur
  cycle : Nat
  fresh : Nat
  nextId : Nat
  notices : List Notice
  /-- 1 while a host port is lost (R453) -/
  lost : AMap Nat
  /-- losses of host ports whose semaphores are still to be released: port and cycle (R453) -/
  losses : List (Nat × Nat)
  hbm : Memory
  scr : Memory
  tmem : Memory
  tiles : Memory
  host : Memory
  poison : List Poison
  /-- status bits valid (1) and dirty (2) of the tile core·8 + phys (R263) -/
  tileStat : AMap Nat
  /-- tiles of ended teams kept for jobs not yet final: core·8 + phys, and context (R442) -/
  keptTiles : List (Nat × Nat)
  teams : List Team
  grids : List Grid
  /-- blocked `racq` requests by core: team and group, oldest first (R47) -/
  racq : List (Nat × Nat × Nat)
  bars : List CountBar
  /-- threads that wait for a free barrier entry, in the order in which they parked (R221) -/
  barWait : List TRef
  results : List Result
  scrWrites : List Access
  watch : List Watch
  sysUse : List SysUse
  /-- owner tables: entry die·1,024 + granule (R88) -/
  owners : AMap Word
  qops : List QueueOp
  /-- queues (die·256 + n) whose malformed record was made (R427) -/
  qbad : List Nat
  /-- context table: word ctx·8 + i (R322) -/
  ctxs : AMap DWord
  /-- indirection table (R103) -/
  indir : AMap DWord
  /-- access counters of the running period (R104) -/
  counts : AMap Nat
  /-- frame moves in progress (R106) -/
  migr : List FrameMove
  /-- frames whose move met an uncorrectable error: not offered again until eligible is cleared and set (R433) -/
  barred : List Nat
  tlb : List Cached
  /-- ATS translations cached at the I/O dies: port, page, page of the host (R346) -/
  ats : List (Nat × Nat × Nat)
  reqs : List Access
  acks : List Ack
  /-- slice sequence tags (R117) -/
  tags : AMap Word
  partials : List Partial
  /-- shared near copies: line and core (R332) -/
  shared : List (Nat × Nat)
  contribs : List Contribution
  side : List SideEntry
  /-- pages with a class 0x40 record outstanding: context and page (R420) -/
  faulted : List (Nat × Nat)
  joins : AMap Join
  cards : List HeldCard
  rays : List Ray
  tex : List TexReq
  shc : List ShcEntry
  shcReqs : List ShcReq
  /-- tile tables: word (stack·4,096 + entry)·8 + i (R275) -/
  entries : AMap DWord
  collReqs : List CollReq
  queues : AMap Queue
  /-- queue served by each control core + 1, and the cycle its service began (R313) -/
  serving : AMap Nat
  serveAt : AMap Nat
  /-- round-robin pointers (R314), as distance from their reset value -/
  ptr : AMap Nat
  kerf : AMap KerfDie
  /-- cycle + 1 of the last move after which each die had a resident team or an issued job (R357) -/
  idle : AMap Nat
  /-- cycle in which each slice's counting period began (R104) -/
  periods : AMap Nat
  /-- global log: wr, rd, dropped, armed bits (2), vectors; records as words of 64 bits (R398) -/
  gwr : Nat
  grd : Nat
  gdropped : Nat
  garmed : Nat
  gvec0 : Nat
  gvec1 : Nat
  glog : AMap DWord
  /-- records made by each source, key kind·4,096 + index (R397) -/
  recSeq : AMap Nat
  /-- device time: seconds, nanoseconds, fraction (R347) -/
  secs : Nat
  nanos : Nat
  frac : Nat
  /-- offset still to be absorbed by slewing, in 2^-16 ns (R350), and the reference input (R347) -/
  slew : Int
  /-- running at half rate until the offset is absorbed -/
  half : Bool
  reference : Bool
  /-- UALink port p at p, Dumund port s at 16 + s -/
  ports : AMap Port
  outs : AMap PeerOut
  /-- names of requests that wait at an I/O die for a full retry buffer (R464) -/
  ioWait : List Nat
  ins : AMap PeerIn
  /-- remote translations cached: context, slot, words of the entry (R344) -/
  remotes : List (Nat × Nat × DWord × DWord)
  /-- own endpoint identifier (R275, R341) -/
  endpoint : Nat
  firings : AMap Firing
  hstacks : AMap Stack
  /-- rate-limited records by class·4,096 + unit -/
  rates : AMap Rate
  late : List LateFault
  /-- context errors found while contributions were applied, made at the end of the step (R429) -/
  owed : List ErrRec
  /-- posted accesses answered unreachable whose class 0x4B record is to follow (R436) -/
  lostWrites : List LostWrites
  deriving DecidableEq, Repr

/-- The machine. -/
structure State where
  /-- what happens next, oldest first (DESIGN CHOICE, log 1) -/
  moves : List Move
  mgmt : Mgmt
  dev : Dev
  deriving DecidableEq, Repr

/-! ## Reset -/

def Sem.free : Sem := { held := false, owner := 0, gen := 0 }

/-- A die before its first sample (DESIGN CHOICE, log 8). -/
def KerfDie.blank : KerfDie :=
  { samples := [], temp := 0, recent := [], throttled := false, emergency := false, since := 0, sampled := 0, silent := false,
    gated := false, below92 := none, below100 := none }

def Port.blank : Port := { state := .down, failures := 0, reason := 0, disable := false, failedAt := 0, trainedAt := 0 }
def PeerOut.blank : PeerOut :=
  { next := 0, sent := [], queue := [], closed := false, closedAt := 0, fresh := false, reported := 0, suspects := [], misses := [], rotation := none }
def PeerIn.blank : PeerIn := { next := 0, waiting := [], results := [] }
def Stack.blank : Stack := { missed := 0, allBank := false, refreshing := [], busy := false }
def Rate.blank : Rate := { count := 0, value := 0, extra := 0, at_ := none }
def Join.blank : Join := { count := 0, jobs := [] }
def Firing.blank : Firing :=
  { count := 0, plan := .direct, determinism := false, rank := 0, since := none, grid := none, agreed := [], replan := none, early := [],
    aborts := [], later := [], got := [], done := [], sent := [], relayed := false, spoiled := false, freed := [], avoid := none,
    lost := none }

/-- A thread as it stands before anything wrote it. -/
def Thread.blank : Thread :=
  { tid := 0, lane := 0, st := .ready, pc := 0, imgBase := 0, imgSlots := 0, trap := 0, rep := 0, bank := [], win := [], p := 0,
    x := [], pos := 0, ordinal := 0, pend := none, bad := [], acqs := [], stopped := false }

/-- A queue at reset (R310). -/
def Queue.blank : Queue :=
  { w0 := 0, w1 := 0, w2 := 0, w3 := 0, thread := Thread.blank, started := false, exited := false, wait := .none,
    stopping := false, held := none, level := 2, deadline := none, readyAt := 0, launches := 0 }

def Boot.blank : Boot :=
  { state := .reset, reason := 0, owner := none, length := 0, pending := none, gen := 0, streamed := false, trained0 := false,
    trained1 := false, digests := [] }
def Ptp.blank : Ptp := { best := none, pending := none, down := none, asked := none, next := 0 }
def Attest.blank : Attest :=
  { nonce := List.replicate 8 0, building := false, ready := false, failed := false, reason := 0, report := [], broken := false }

/-- The registers at power good (R105, R317, R319, R324 to R327, R349, R351, R414). -/
def Mgmt.reset : Mgmt :=
  { budgets := [], share := 520000, k := 4, energy := [], sems := [], tieLoser := none, windows := [], wdLog2 := 32, inval := 0,
    faultReg := 0, rayReg := 0, reopenReg := 0, migCfg := 0x0000004000100008, migReq := 0, migData := 0,
    timeCtl := 0x0000000A00000000, ppsSecs := 0, setSecs := 0, offset := 0, good := 0, master := false, ptp := Ptp.blank, boot := Boot.blank,
    attest := Attest.blank, power := .active, entering := false }

/-- Everything else at power good. -/
def Dev.reset : Dev :=
  { cur := .none, cycle := 0, fresh := 0, nextId := 0, notices := [], lost := [], losses := [], hbm := [], scr := [], tmem := [], tiles := [], host := [],
    poison := [], tileStat := [], keptTiles := [], teams := [], grids := [], racq := [], bars := [], barWait := [], results := [], scrWrites := [], watch := [], sysUse := [],
    owners := [], qops := [], qbad := [], ctxs := [], indir := [], counts := [], migr := [], barred := [], tlb := [], ats := [], reqs := [], acks := [],
    tags := [], partials := [], shared := [], contribs := [], side := [], faulted := [], joins := [], cards := [], rays := [],
    tex := [], shc := [], shcReqs := [], entries := [], collReqs := [], queues := [], serving := [], serveAt := [], ptr := [],
    kerf := [], idle := [], periods := [], gwr := 0, grd := 0, gdropped := 0, garmed := 0, gvec0 := 0, gvec1 := 0, glog := [], recSeq := [], secs := 0,
    nanos := 0, frac := 0, slew := 0, half := false, reference := false, ports := [], outs := [], ioWait := [], ins := [], remotes := [], endpoint := 0,
    firings := [], hstacks := [], rates := [], late := [], owed := [], lostWrites := [] }

/-- The machine at power good, the boot in state Reset (R351). -/
def State.reset : State := { moves := [], mgmt := Mgmt.reset, dev := Dev.reset }

/-- Why the machine stops. -/
inductive Fault where
  /-- raised by `step` when the module has no power and the move is not POWER_GOOD (R351): nothing happens in an unpowered part.
  Safe: the machine stops where the hardware has no behaviour. -/
  | unpowered
  deriving DecidableEq, Repr

/-- Why an instruction has no meaning. -/
inductive Refusal where
  /-- raised by a constructor's arm that has no meaning yet, by its mnemonic. Safe: the machine stops. -/
  | notModelled (mnemonic : String)
  deriving DecidableEq, Repr

end Sys2Proof.Machine
end

