-- ==== Sys2Proof/Machine/Flags.lean ====
section
/-! DEFINITION. Conditions (R139, R175) and the arithmetic of atomics and reductions (R209, R210, R212). -/

namespace Sys2Proof.Machine

/-- Bytes of a memory type (R139). -/
def tyBytes (t : MType) : Nat := if Roles.mWide t then 8 else 4

/-- Whether a type is floating point, and its format. -/
def tyFmt : MType → Option Fmt
  | .f32 => some .f32
  | .f64 => some .f64
  | _ => none

/-- Whether a type is signed. -/
def tySigned : MType → Bool
  | .i32 | .i64 => true
  | _ => false

/-- Signed or unsigned comparison of two n-bit values. -/
def intLt (signed : Bool) (n a b : Nat) : Bool := if signed then sext a n < sext b n else a % 2 ^ n < b % 2 ^ n

/-- An integer condition (R171, R173) on n-bit values; the unordered codes never hold for integers. -/
def condInt (c : Cond) (signed : Bool) (n a b : Nat) : Bool :=
  match c with
  | .eq => a % 2 ^ n == b % 2 ^ n
  | .ne => a % 2 ^ n != b % 2 ^ n
  | .lt => intLt signed n a b
  | .le => !intLt signed n b a
  | .gt => intLt signed n b a
  | .ge => !intLt signed n a b
  | .unord => false
  | .ord => true

/-- A floating-point condition (R175): ordered comparisons are false on a NaN, ne and unord true. -/
def condFp (c : Cond) (a b : Val) : Bool :=
  let nan := a.isNan || b.isNan
  match c with
  | .eq => !nan && !a.lt b && !b.lt a
  | .ne => nan || a.lt b || b.lt a
  | .lt => !nan && a.lt b
  | .le => !nan && !b.lt a
  | .gt => !nan && b.lt a
  | .ge => !nan && !a.lt b
  | .unord => nan
  | .ord => !nan

/-- New value of an atomic or reduction on a location of `ty` (R209, R210, R212). `cmp` is the compare value of `cas`; for `kahan`
the location is the 8-byte pair, s in the low word. -/
def atomApply (op : AtomOp) (ty : MType) (old v cmp : Nat) : Nat :=
  let n := 8 * tyBytes ty
  match op with
  | .exch => v % 2 ^ n
  | .cas => if old % 2 ^ n = cmp % 2 ^ n then v % 2 ^ n else old % 2 ^ n
  | .add =>
    match tyFmt ty with
    | some f => fpResult f rneMod 0 ((decodeFp f old).add false (decodeFp f v))
    | none => (old + v) % 2 ^ n
  | .min =>
    match tyFmt ty with
    | some f => minNum f old v
    | none => if intLt (tySigned ty) n v old then v % 2 ^ n else old % 2 ^ n
  | .max =>
    match tyFmt ty with
    | some f => maxNum f old v
    | none => if intLt (tySigned ty) n old v then v % 2 ^ n else old % 2 ^ n
  | .and => Nat.land old v % 2 ^ n
  | .or => Nat.lor old v % 2 ^ n
  | .xor => Nat.xor old v % 2 ^ n
  | .kahan =>
    let r := kahanAdd (old % 2 ^ 32) (old / 2 ^ 32) (v % 2 ^ 32)
    r.1 + r.2 * 2 ^ 32

/-- Bytes of the location of an atomic or reduction. -/
def atomBytes (op : AtomOp) (ty : MType) : Nat := if op = .kahan then 8 else tyBytes ty

/-- The identity that a near partial starts from (R332). -/
def atomIdentity (op : AtomOp) (ty : MType) : Nat :=
  let n := 8 * tyBytes ty
  match op with
  | .min => match tyFmt ty with
    | some f => f.pattern false (f.maxCode + 1)
    | none => if tySigned ty then 2 ^ (n - 1) - 1 else 2 ^ n - 1
  | .max => match tyFmt ty with
    | some f => f.pattern true (f.maxCode + 1)
    | none => if tySigned ty then 2 ^ (n - 1) else 0
  | .and => 2 ^ n - 1
  | _ => 0

/-- A comparison of `wait` (R223): 0 eq, 1 ne, 2 ge, unsigned 64-bit. -/
def waitHolds (cmp v w : Nat) : Bool :=
  match cmp with
  | 0 => v == w
  | 1 => v != w
  | _ => w ≤ v

end Sys2Proof.Machine
end

