-- ==== Sys2Proof/Machine/Mem.lean ====
section
/-! DEFINITION. Bytes in the memories, the places of the apertures, the device-physical space and its frames (R103, R106), and the
translation of glob addresses (R97 to R102, R419). -/

namespace Sys2Proof.Machine

/-! ## Sorting by a key, stable -/

/-- `x` put into a list sorted by `key`, after the entries of equal key. -/
def insertBy {α : Type} (key : α → Nat) (x : α) : List α → List α
  | [] => [x]
  | y :: r => if key x < key y then x :: y :: r else y :: insertBy key x r

/-- A list sorted by `key`, ascending, equal keys in their order. -/
def sortBy {α : Type} (key : α → Nat) (l : List α) : List α := l.foldl (fun acc x => insertBy key x acc) []

/-! ## Bytes, little-endian (R207) -/

/-- `n` bytes from address `a` as a number. -/
def Memory.readN (m : Memory) (a : Nat) : Nat → Nat
  | 0 => 0
  | n + 1 => (Memory.read m a).toNat + 256 * Memory.readN m (a + 1) n

/-- The low `n` bytes of `v` written at `a`. -/
def Memory.writeN (m : Memory) (a : Nat) : Nat → Nat → Memory
  | 0, _ => m
  | n + 1, v => Memory.writeN (Memory.write m a (BitVec.ofNat 8 v)) (a + 1) n (v / 256)

/-- `n` bytes from `a`, as a list. -/
def Memory.bytes (m : Memory) (a : Nat) : Nat → List Byte
  | 0 => []
  | n + 1 => Memory.read m a :: Memory.bytes m (a + 1) n

/-- A list of bytes written at `a`. -/
def Memory.writeBytes (m : Memory) (a : Nat) : List Byte → Memory
  | [] => m
  | b :: r => Memory.writeBytes (Memory.write m a b) (a + 1) r

/-- `n` bytes from `a` set to zero. -/
def Memory.clear (m : Memory) (a n : Nat) : Memory := m.filter fun c => c.1 < a || a + n ≤ c.1

/-- A number as its `n` little-endian bytes. -/
def toBytes : Nat → Nat → List Byte
  | 0, _ => []
  | n + 1, v => BitVec.ofNat 8 v :: toBytes n (v / 256)

/-- Little-endian bytes as a number. -/
def ofBytes : List Byte → Nat
  | [] => 0
  | b :: r => b.toNat + 256 * ofBytes r

/-! ## Apertures (R81) -/

/-- The six apertures, or none. -/
inductive Aperture where
  | glob | rwin | die | peer | team | stk | unassigned
  deriving DecidableEq, Repr

/-- The aperture of a generic address, by its top byte (R81). -/
def apertureOf (a : Nat) : Aperture :=
  match a / 2 ^ 56 with
  | 0x00 => .glob
  | 0xFB => .rwin
  | 0xFC => .die
  | 0xFD => .peer
  | 0xFE => .team
  | 0xFF => .stk
  | _ => .unassigned

/-- Offset bits an aperture uses (R81). -/
def offsetBits : Aperture → Nat
  | .glob => 56 | .rwin => 35 | .die => 30 | .peer => 23 | .team => 20 | .stk => 16 | .unassigned => 0

/-- The base of an aperture (R81). -/
def apertureBase : Aperture → Nat
  | .glob => 0
  | .rwin => 0xFB * 2 ^ 56 | .die => 0xFC * 2 ^ 56 | .peer => 0xFD * 2 ^ 56 | .team => 0xFE * 2 ^ 56 | .stk => 0xFF * 2 ^ 56
  | .unassigned => 0

/-- The die of a core (R11). -/
def dieOf (core : Nat) : Nat := core / 80
/-- The cluster of a core, 0 to 39 (R11). -/
def clusterOf (core : Nat) : Nat := core / 16

/-- A die offset (R87) as die and byte, own-die offsets against `own`; none when an own-die offset names a die. -/
def dieOffset (own off : Nat) : Option (Nat × Nat) :=
  if bitOf off 29 then (if field off 28 26 = 0 then some (own, off % 2 ^ 26) else none)
  else some (field off 28 26, off % 2 ^ 26)

/-- Key of a scratchpad byte. -/
def scrKey (die off : Nat) : Nat := die * 2 ^ 26 + off
/-- Key of a team-memory byte of a core. -/
def tmemKey (core off : Nat) : Nat := core * 2 ^ 19 + off
/-- Key of a tile byte. -/
def tileKey (core phys off : Nat) : Nat := (core * 8 + phys) * 2 ^ 16 + off

/-- The owner entry of a granule; granule 1,023 reads as valid and system with context 0 (R88, R94). -/
def ownerEntry (d : Dev) (key : Nat) : Word :=
  let g := key % 2 ^ 26 / 65536
  if g = 1023 then 0xA0000000#32 else AMap.get 0 d.owners (key / 2 ^ 26 * 1024 + g)

/-- Whether a context may use a scratchpad byte (R88): valid, not spill, its own; system granules only where `sys`. -/
def granuleOk (d : Dev) (ctx : Nat) (sys : Bool) (key : Nat) : Bool :=
  let e := (ownerEntry d key).toNat
  bitOf e 31 && !bitOf e 28 && (sys || !bitOf e 29) && e % 1024 == ctx

/-! ## Poison (R428, R429) -/

/-- The word of a space that holds a byte: 8 bytes, or a 32-byte sector in HBM. -/
def poisonWord (space a : Nat) : Nat := if space = 0 then a / 32 else a / 8

/-- Whether any byte of `n` from `a` is poisoned. -/
def poisoned (d : Dev) (space a n : Nat) : Bool :=
  d.poison.any fun p => p.space == space && poisonWord space a ≤ p.addr && p.addr ≤ poisonWord space (a + n - 1)

/-- Poison that a write of `n` bytes at `a` does not cover whole (R429). -/
def unpoison (d : Dev) (space a n : Nat) : List Poison :=
  let u := if space = 0 then 32 else 8
  d.poison.filter fun p => !(p.space == space && a ≤ p.addr * u && p.addr * u + u ≤ a + n)

/-! ## Device-physical space (R103) -/

/-- The home slice of a frame (R330). -/
def sliceOf (f : Nat) : Nat :=
  Nat.xor (Nat.xor (field f 6 0) (field f 13 7)) (Nat.xor (field f 20 14) (field f 24 21))

/-- The die of a slice (R11): 16 slices a die. -/
def sliceDie (s : Nat) : Nat := s / 16

/-- Where bytes of a frame lie: HBM of a die, or host memory. -/
inductive Place where
  | hbm (key : Nat) | host (key : Nat)
  deriving DecidableEq, Repr

/-- Key of a host byte. -/
def hostKey (port a : Nat) : Nat := port * 2 ^ 52 + a

/-- The place that an indirection entry gives a byte of frame f (R103). -/
def placeOf (f off : Nat) (e : DWord) : Place :=
  if bitOf e.toNat 60 then .host (hostKey (field e.toNat 36 36) (field e.toNat 35 0 * 65536 + off))
  else .hbm (sliceDie (sliceOf f) * 2 ^ 40 + field e.toNat 23 0 * 65536 + off)

/-- The place that serves a read of a device-physical byte; none for an invalid frame. -/
def readPlace (d : Dev) (pa : Nat) : Option Place :=
  let e := AMap.get 0 d.indir (pa / 65536)
  if bitOf e.toNat 63 then some (placeOf (pa / 65536) (pa % 65536) e) else none

def Place.read (d : Dev) : Place → Byte
  | .hbm k => Memory.read d.hbm k
  | .host k => Memory.read d.host k

/-- Whether a host port is lost (R453). -/
def Dev.isLost (d : Dev) (p : Nat) : Bool := AMap.get 0 d.lost p != 0

/-- A byte written at a place; nothing reaches a host whose port is lost (R433, R453). -/
def Place.write (d : Dev) (b : Byte) : Place → Dev
  | .hbm k => { d with hbm := Memory.write d.hbm k b }
  | .host k => if d.isLost (k / 2 ^ 52) then d else { d with host := Memory.write d.host k b }

/-- One device-physical byte; 0 for an invalid frame (checked before by `frameOk`). -/
def physRead (d : Dev) (pa : Nat) : Byte :=
  match readPlace d pa with
  | some p => p.read d
  | none => 0

/-- Whether a move's destination is the place of another frame that moves: the two change places, and the bytes of both wait for the
switch (DEDUCED, log 92). -/
def FrameMove.swaps (d : Dev) (m : FrameMove) : Bool :=
  d.migr.any fun x => x.frame != m.frame && placeOf x.frame 0 (AMap.get 0 d.indir x.frame) == placeOf m.frame 0 m.dest

/-- Where a byte of a frame stands in the destination of its move, which every write reaches too (R106). -/
def dualPlace (d : Dev) (pa : Nat) : Option Place :=
  (d.migr.find? fun m => m.frame == pa / 65536 && !m.swaps d).map fun m => placeOf m.frame (pa % 65536) m.dest

/-- Bytes from one place copied to another. -/
def copyBytes (d : Dev) (src dst : Place) (from_ n : Nat) : Dev :=
  let at_ (p : Place) (i : Nat) : Place := match p with | .hbm k => .hbm (k + i) | .host k => .host (k + i)
  (List.range n).foldl (fun d i => (at_ dst (from_ + i)).write d ((at_ src (from_ + i)).read d)) d

/-- Lines of a frame (R103). -/
def frameLines : Nat := 512

/-- A move that has `n` more of its lines copied, each line as it then stands; a swap waits for its switch (R106). -/
def copyLines (n : Nat) (d : Dev) (m : FrameMove) : Dev :=
  if m.swaps d then d
  else
    let k := min n (frameLines - m.copied)
    let d := copyBytes d (placeOf m.frame 0 (AMap.get 0 d.indir m.frame)) (placeOf m.frame 0 m.dest) (128 * m.copied) (128 * k)
    { d with migr := d.migr.map fun x => if x.frame = m.frame then { x with copied := m.copied + k } else x }

/-- One device-physical byte written, during a move at source and destination both (R106). -/
def physWrite (d : Dev) (pa : Nat) (b : Byte) : Dev :=
  match readPlace d pa with
  | some p =>
    match dualPlace d pa with
    | some q => q.write (p.write d b) b
    | none => p.write d b
  | none => d

/-- `n` device-physical bytes from `pa`, one within a frame. -/
def physReadN (d : Dev) (pa : Nat) : Nat → Nat
  | 0 => 0
  | n + 1 => (physRead d pa).toNat + 256 * physReadN d (pa + 1) n

def physWriteN (d : Dev) (pa : Nat) : Nat → Nat → Dev
  | 0, _ => d
  | n + 1, v => physWriteN (physWrite d pa (BitVec.ofNat 8 v)) (pa + 1) n (v / 256)

/-- Whether the frame of a byte is valid. -/
def frameOk (d : Dev) (pa : Nat) : Bool := bitOf (AMap.get 0 d.indir (pa / 65536)).toNat 63

/-- A frame in the host memory tier whose port is lost: writes are discarded and recorded, reads are poison (R433). -/
def tierLost (d : Dev) (lost : Nat → Bool) (pa : Nat) : Bool :=
  let e := (AMap.get 0 d.indir (pa / 65536)).toNat
  bitOf e 60 && lost (field e 36 36)

/-- Whether a read of device-physical bytes is answered as poisoned: in a home slice's cache or write queue, or in HBM (R428, R429, R433). -/
def physPoisoned (d : Dev) (pa n : Nat) : Bool :=
  poisoned d 5 pa n || match readPlace d pa with
  | some (.hbm k) => poisoned d 0 k n
  | some (.host k) => d.isLost (k / 2 ^ 52)
  | none => false

/-! ## Translation (R97 to R102, R419) -/

/-- How a walk ends. -/
inductive Walk where
  /-- the leaf, the first glob address of its page, and the page's bytes -/
  | leaf (e : DWord) (page size : Nat)
  /-- page fault: level, reason, entry (R422) -/
  | pageFault (level reason : Nat) (e : DWord)
  /-- translation fault (R419) -/
  | bad
  deriving DecidableEq, Repr

/-- Permissions an access needs, as R422 codes them: [0] read, [1] write, [2] execute. -/
abbrev Need := Nat
def needR : Need := 1
def needW : Need := 2
def needRW : Need := 3
def needX : Need := 4

/-- The permissions of a leaf in the same code. -/
def leafPerms (e : DWord) : Nat := field e.toNat 4 2

/-- Whether a leaf is well formed at a level (R99 to R101): `small` bits of page size, `contigOk` where R100 allows contig. -/
def leafOk (e : DWord) (ctx bits : Nat) (contigOk : Bool) : Bool :=
  let n := e.toNat
  let target := field n 53 52
  let place := field n 8 7
  let out := field n 51 12 * 4096
  field n 63 54 == ctx && target != 3 && field n 11 10 == 0
    && (if target = 1 then field n 39 12 * 4096 else if target = 2 then field n 50 12 * 4096 else out) % 2 ^ bits == 0
    && (target != 0 || out < 2 ^ 41)
    && (match target with | 0 => place < 2 | 1 => place == 0 | _ => place == 2)
    && (!bitOf n 9 || contigOk)

/-- The walk from a table at `level` (R97): `coarse` as the parent pointer gave it; the first argument counts levels left. A table at 2^41
or above lies in no frame, a page fault as any such table (R98 does not call the pointer malformed; DEDUCED, log 57). A poisoned word of a
table, as every word of a frame with a lost port is (R433), is a malformed entry (DESIGN CHOICE, log 119). -/
def walkFrom (d : Dev) (ctx va : Nat) (need : Need) : Nat → Nat → Nat → Bool → Walk
  | 0, _, _, _ => .bad
  | k + 1, level, table, coarse =>
    let lo := match level with
      | 4 => 48 | 3 => 39 | 2 => if coarse then 34 else 30 | 1 => 21 | _ => if coarse then 16 else 12
    let hi := match level with | 4 => 55 | 3 => 47 | 2 => 38 | 1 => 29 | _ => 20
    let at_ := table + 8 * field va hi lo
    if !frameOk d at_ then .pageFault 5 2 0
    else if physPoisoned d at_ 8 then .bad
    else
      let e := BitVec.ofNat 64 (physReadN d at_ 8)
      let n := e.toNat
      if !bitOf n 0 then .pageFault level 0 e
      else if bitOf n 1 then
        if 3 ≤ level then .bad
        else if !leafOk e ctx lo (level == 1 || (level == 0 && !coarse)) then .bad
        else if Nat.land (leafPerms e) need ≠ need then .pageFault level 1 e
        else .leaf e (va / 2 ^ lo * 2 ^ lo) (2 ^ lo)
      else if level = 0 || (level == 2 && coarse) then .bad
      else if field n 63 52 ≠ 0 || field n 11 3 ≠ 0 || ((level == 4 || level == 2) && bitOf n 2) then .bad
      else walkFrom d ctx va need k (level - 1) (field n 51 12 * 4096) (bitOf n 2)

/-- The root table of a context (R322). -/
def ctxWord (d : Dev) (ctx i : Nat) : DWord := AMap.get 0 d.ctxs (ctx * 8 + i)

/-- A walk of the tables as they stand. -/
def walk (d : Dev) (ctx va : Nat) (need : Need) : Walk :=
  walkFrom d ctx va need 5 4 (field (ctxWord d ctx 0).toNat 51 12 * 4096) false

/-- The next free choice between two allowed outcomes (DESIGN CHOICE, log 3). -/
def Dev.choose (d : Dev) : Bool × Dev := (Config.freeBool d.fresh, { d with fresh := d.fresh + 1 })

/-- A translation (R102): the walk, or a translation cached since the last invalidation that differs from it, as a free value
decides; a cached one without a permission that the access needs is passed over (DESIGN CHOICE, log 15). A completed walk is cached; an entry
whose valid bit is 0 never is (R419). -/
def translate (d : Dev) (ctx va : Nat) (need : Need) : Walk × Dev :=
  let w := walk d ctx va need
  let old := d.tlb.find? fun c => c.ctx == ctx && c.page ≤ va && va < c.page + c.size && w != .leaf c.leaf c.page c.size
    && Nat.land (leafPerms c.leaf) need == need
  match old with
  | some c =>
    let (b, d') := d.choose
    if b then (.leaf c.leaf c.page c.size, d') else (w, d')
  | none =>
    match w with
    | .leaf e p s =>
      if d.tlb.any fun c => c.ctx == ctx && c.page == p && c.size == s && c.leaf == e then (w, d)
      else (w, { d with tlb := d.tlb ++ [⟨ctx, p, s, e⟩] })
    | _ => (w, d)

/-- A request to a line through a leaf with migrate set counted for its frame (R104). What was counted before migration is enabled is cleared
then, and nothing reads it before (R105). -/
def countAccess (d : Dev) (leaf : DWord) (pa : Nat) : Dev :=
  if bitOf leaf.toNat 6 then
    { d with counts := AMap.set 0 d.counts (pa / 65536) (AMap.get 0 d.counts (pa / 65536) + 1) }
  else d

/-- What a leaf's output names (R99). -/
inductive Target where
  | phys (pa : Nat) | remote (slot addr : Nat) | host (port addr : Nat)
  deriving DecidableEq, Repr

/-- The target of a glob address through a leaf (R99). -/
def targetOf (e : DWord) (va size : Nat) : Target :=
  let n := e.toNat
  match field n 53 52 with
  | 0 => .phys (field n 51 12 * 4096 + va % size)
  | 1 => .remote (field n 51 40) (field n 39 12 * 4096 + va % size)
  | _ => .host (field n 51 51) (field n 50 12 * 4096 + va % size)

/-- The host address of an untranslated one (R346): as a translation cached at the I/O die has it, else as the host answers, which is
open and may be a failure (DESIGN CHOICE, log 93). An answer is cached. -/
def atsAsk (d : Dev) (port a : Nat) : Option Nat × Dev :=
  match d.ats.find? fun x => x.1 == port && x.2.1 == a / 4096 with
  | some x => (some (x.2.2 * 4096 + a % 4096), d)
  | none =>
    match Config.atsAnswer d.fresh port (a / 4096) with
    | some p => (some (p.toNat * 4096 + a % 4096), { d with fresh := d.fresh + 1, ats := d.ats ++ [(port, a / 4096, p.toNat)] })
    | none => (none, { d with fresh := d.fresh + 1 })

/-! ## Near partials and shared copies (R118, R332) -/

/-- The 128-byte line of a device-physical address. -/
def lineOf (pa : Nat) : Nat := pa / 128

/-- A write of `n` bytes to a device-physical address, with the poison it covers gone. -/
def physStore (d : Dev) (pa n v : Nat) : Dev :=
  let d := physWriteN d pa n v
  match readPlace d pa with
  | some (.hbm k) => { d with poison := unpoison { d with poison := unpoison d 0 k n } 5 pa n }
  | _ => { d with poison := unpoison d 5 pa n }

/-- One operation applied to a location of its home slice. -/
def applyAt (d : Dev) (pa : Nat) (op : AtomOp) (ty : MType) (v cmp : Nat) : Dev :=
  let n := atomBytes op ty
  physWriteN d pa n (atomApply op ty (physReadN d pa n) v cmp)

/-- The home slice of a device-physical address. -/
def sliceAt (pa : Nat) : Nat := sliceOf (pa / 65536)

/-- Name of a byte of a line in a core's near cache. -/
def nearKey (core pa : Nat) : Nat := core * 2 ^ 41 + pa

/-- Poison of near-cache lines that are held no more goes with them (R428, R332). -/
def tidyNear (d : Dev) : Dev :=
  let held (p : Poison) : Bool :=
    (d.partials.any fun x => nearKey x.core (lineOf x.addr * 128) / 128 == p.addr / 16) || d.shared.any fun s => nearKey s.2 (s.1 * 128) / 128 == p.addr / 16
  { d with poison := d.poison.filter fun p => p.space != 4 || held p }

/-- One contribution applied at its home slice. A poisoned word takes none, and a context error is owed (R429); so is the record of one
discarded with the tier's port lost (R433). `r` names its issuer. -/
def contribute (d : Dev) (pa : Nat) (op : AtomOp) (ty : MType) (v : Nat) (r : ErrRec) : Dev :=
  if tierLost d d.isLost pa then { d with owed := d.owed ++ [{ r with cls := 0x4B, sev := 1, addr := pa, d0 := 1 }] }
  else if physPoisoned d pa (atomBytes op ty) then { d with owed := d.owed ++ [{ r with cls := 0x44, sev := 2, addr := pa }] }
  else applyAt d pa op ty v 0

/-- Every partial that satisfies `sel` applied as one contribution each, holders in ascending core number, and dropped; a merge takes
no tag of its slice (DEDUCED, log 118). One in a poisoned
word of a near cache is lost, and a context error is owed (R428, R429). -/
def mergePartials (d : Dev) (sel : Partial → Bool) : Dev :=
  let ps := sortBy (·.core) (d.partials.filter sel)
  tidyNear (ps.foldl (fun d p =>
      let r : ErrRec := { cls := 0, sev := 0, kind := 0, index := p.core, ctx := some p.ctx, grid := p.grid }
      if poisoned d 4 (nearKey p.core p.addr) (atomBytes p.op p.ty) then { d with owed := d.owed ++ [{ r with cls := 0x44, sev := 2, addr := p.addr }] }
      else contribute d p.addr p.op p.ty p.value r)
    { d with partials := d.partials.filter fun p => !sel p })

/-- The directory recalls a line: its partials are merged and its read copies invalidated (R332). -/
def recallLine (d : Dev) (line : Nat) : Dev :=
  tidyNear { mergePartials d (fun p => lineOf p.addr == line) with shared := d.shared.filter fun s => s.1 != line }

/-! ## What a near cache holds (R12, R332) -/

/-- The lines a core's near cache holds: partials and read copies. -/
def nearLines (d : Dev) (core : Nat) : List Nat :=
  (((d.partials.filter fun p => p.core == core).map fun p => lineOf p.addr)
    ++ (d.shared.filter fun s => s.2 == core).map (·.1)).eraseDups

/-- A line of a near cache evicted: its partials merged, its read copy gone. Which one goes is open (DESIGN CHOICE, log 95). -/
def evictNear (d : Dev) (core : Nat) : Dev :=
  let l := nearLines d core
  let k := (Config.freeByte d.fresh).toNat + 256 * (Config.freeByte (d.fresh + 1)).toNat
  match l[k % l.length]? with
  | none => d
  | some x =>
    let d := mergePartials { d with fresh := d.fresh + 2 } fun p => p.core == core && lineOf p.addr == x
    tidyNear { d with shared := d.shared.filter fun s => s != (x, core) }

/-- Room for a line in a near cache. A full one evicts; one that holds other lines may (DESIGN CHOICE, log 95). -/
def roomNear (d : Dev) (core line : Nat) : Dev :=
  let l := nearLines d core
  if l.isEmpty || l.contains line then d
  else if Config.nearLines ≤ l.length then evictNear d core
  else
    let (b, d) := d.choose
    if b then evictNear d core else d

/-- A read copy of a line taken by an engine of a core, under a cacheable leaf (R99, R332). -/
def shareLine (d : Dev) (core line : Nat) : Dev :=
  if d.shared.contains (line, core) then d
  else
    let d := if Config.nearLines ≤ (nearLines d core).length then evictNear d core else d
    { d with shared := d.shared ++ [(line, core)] }

end Sys2Proof.Machine
end

