-- ==== Sys2Proof/Machine/Remote.lean ====
section
/-! DEFINITION. Messages that leave the part (R401, R453), requests to other packages (R341 to R344), and the part's own reads and
writes through a context's translation. -/

namespace Sys2Proof.Machine

/-- A message sent (R401); nothing goes to a lost host port (R453). -/
def Dev.notify (d : Dev) (n : Notice) : Dev :=
  let gone := match n with
    | .msi p _ _ | .pcie p _ _ _ | .readData p _ _ => d.isLost p
    | _ => false
  if gone then d else { d with notices := d.notices ++ [n] }

/-- Device time in the layout of `sr.dtime` (R48, R347). -/
def dtime64 (d : Dev) : DWord := BitVec.ofNat 64 (d.secs % 2 ^ 16 * 2 ^ 48 + d.nanos * 2 ^ 16 + d.frac)

/-- A fresh name for an item in flight (DESIGN CHOICE, log 4). -/
def Dev.freshId (d : Dev) : Nat × Dev := (d.nextId, { d with nextId := d.nextId + 1 })

/-- `n` bytes that the spec leaves open, fresh for each use (DESIGN CHOICE, log 3). -/
def freeBytes : Nat → Dev → List Byte × Dev
  | 0, d => ([], d)
  | n + 1, d =>
    let r := freeBytes n { d with fresh := d.fresh + 1 }
    (Config.freeByte d.fresh :: r.1, r.2)

/-! ## Endpoints and ports (R343, R344, R457) -/

/-- The two words of an endpoint-table slot, or none for a slot that R344 rejects; one with a poisoned word is rejected (DESIGN CHOICE, log 119). -/
def endpointEntry (d : Dev) (ctx slot : Nat) : Option (DWord × DWord) :=
  let w2 := (ctxWord d ctx 2).toNat
  if field w2 15 0 ≤ slot then none
  else
    let at_ := field w2 63 16 * 65536 + 16 * slot
    let w0 := BitVec.ofNat 64 (physReadN d at_ 8)
    let w1 := BitVec.ofNat 64 (physReadN d (at_ + 8) 8)
    if bitOf w0.toNat 63 && field w1.toNat 47 32 != 0 && !physPoisoned d at_ 16 then some (w0, w1) else none

/-- The endpoint entry an access uses: cached or as it stands, as a free value decides where they differ (R102, R344, DESIGN CHOICE, log 15). -/
def useEndpoint (d : Dev) (ctx slot : Nat) : Option (DWord × DWord) × Dev :=
  match d.remotes.find? fun r => r.1 == ctx && r.2.1 == slot with
  | some r =>
    if endpointEntry d ctx slot == some r.2.2 then (some r.2.2, d)
    else
      let (old, d) := d.choose
      (if old then some r.2.2 else endpointEntry d ctx slot, d)
  | none =>
    match endpointEntry d ctx slot with
    | some e => (some e, { d with remotes := d.remotes ++ [(ctx, slot, e.1, e.2)] })
    | none => (none, d)

/-- The end-to-end layer towards a destination. -/
def Dev.out (d : Dev) (dst : Nat) : PeerOut := AMap.get PeerOut.blank d.outs dst
def Dev.setOut (d : Dev) (dst : Nat) (o : PeerOut) : Dev := { d with outs := AMap.set PeerOut.blank d.outs dst o }

/-- Whether a port may carry a new request for a destination (R457): one that is suspect for it only the request that tries it (R461). -/
def portUsable (d : Dev) (o : PeerOut) (p : Nat) : Bool :=
  let s := (AMap.get Port.blank d.ports p).state
  (s == .up || s == .degraded) && !o.suspects.any fun x => x.port == p && !x.trial

/-- A request has gone out on a port: the one that a suspect port awaited has tried it (R461). -/
def PeerOut.tried (o : PeerOut) (p : Nat) : PeerOut :=
  { o with suspects := o.suspects.map fun x => if x.port = p then { x with trial := false } else x }

/-- A pair that an unreachable answer closed, reopened: its next number is 0 (R467). Requests of it that name the reported generation already
are not among those answered unreachable; they come first, numbered anew, and are sent again (DEDUCED, log 121). -/
def PeerOut.reopen (o : PeerOut) : PeerOut :=
  { PeerOut.blank with
    next := o.sent.length
    sent := (o.sent.zip (List.range o.sent.length)).map fun p => { p.1 with seq := p.2, port := 255, at_ := 0 } }

/-- The next usable port of a plane mask after the one used last, ascending and wrapping (R343); 255 where there is none. -/
def nextPort (d : Dev) (o : PeerOut) (planes : Nat) : Nat :=
  let ok (p : Nat) : Bool := bitOf planes p && portUsable d o p
  let from_ := match o.rotation with | some p => p + 1 | none => 0
  match (List.range 16).find? fun k => ok ((from_ + k) % 16) with
  | some k => (from_ + k) % 16
  | none => 255

/-- The destination of an endpoint entry, reopened where the entry names the generation that its unreachable answer reported (R467). -/
def peerOf (d : Dev) (w0 w1 : DWord) : PeerOut :=
  let o := d.out (field w0.toNat 18 0)
  if o.closed && o.fresh && o.reported = field w1.toNat 31 16 then o.reopen else o

/-- Bytes that a request takes in a retry buffer: its data, and 64 for its header (DESIGN CHOICE, log 113). -/
def retryBytes (a : Access) : Nat :=
  64 + match a.kind with
    | .store n _ => n
    | .atom op ty _ _ | .red op ty _ => atomBytes op ty
    | .message (.chunk c) => c.bytes.length
    | _ => 0

/-- The retry buffer that holds a request sent on a port: an I/O die's, 0 or 1, or that of a base die, 2 + its stack (R343). -/
def bufferOf (a : Access) (port planes : Nat) : Nat :=
  match a.who, a.kind with
  | .agent stack _, .message _ => 2 + stack
  | _, _ => (if port = 255 then ((List.range 16).find? (bitOf planes)).getD 0 else port) / 8

/-- Whether a retry buffer has no room for a request; an empty one takes any (R343, DESIGN CHOICE, log 113). -/
def bufferFull (d : Dev) (buffer : Nat) (a : Access) : Bool :=
  let l := d.outs.flatMap fun o => (o.2.sent.filter fun x => bufferOf x.access x.port x.planes == buffer).map fun x => retryBytes x.access
  !l.isEmpty && decide ((if buffer < 2 then Config.ioBuffer else Config.dumundBuffer) < l.sum + retryBytes a)

/-- Whether a request of an endpoint entry finds its I/O die's retry buffer full (R464). -/
def remoteFull (d : Dev) (a : Access) (w0 w1 : DWord) : Bool :=
  let planes := field w1.toNat 47 32
  bufferFull d (bufferOf a (nextPort d (peerOf d w0 w1) planes) planes) a

/-- A request given the next sequence number of its pair, kept until it is acknowledged, and sent on the next port of its plane mask
(R341, R343); none while 512 are unacknowledged, or the retry buffer is full. The pair is open. -/
def postRemote (d : Dev) (a : Access) (w0 w1 : DWord) (raddr : Nat) : Option Dev :=
  let dst := field w0.toNat 18 0
  let o := peerOf d w0 w1
  let planes := field w1.toNat 47 32
  let p := nextPort d o planes
  if Config.e2eWindow ≤ o.sent.length || bufferFull d (bufferOf a p planes) a then none
  else
    let x : Sent :=
      { seq := o.next, access := a, endpoint := dst, gen := field w1.toNat 31 16, rctx := field w1.toNat 9 0, raddr, planes, port := p,
        at_ := d.cycle, since := d.cycle }
    let d := d.setOut dst
      { o.tried p with next := (o.next + 1) % 65536, sent := o.sent ++ [x], rotation := if p = 255 then o.rotation else some p }
    some (if p = 255 then d else d.notify (.request dst x.seq p))

/-- An access that the part makes for a context, an engine or a job (R341). -/
def partAccess (d : Dev) (who : Issuer) (ctx addr die : Nat) (kind : AccKind) : Access × Dev :=
  let (id, d) := d.freshId
  ({ id, who, ctx, pc := 0, space := 0, addr, key := 0, rel := none, after := [], det := false, faulted := false, kind, result := none,
     ltag := 0, stamp := dtime64 d, die }, d)

/-- What a request of the part to another package comes to. -/
inductive Asked where
  /-- sent -/
  | sent
  /-- no endpoint entry: a translation fault (R344) -/
  | bad
  /-- the pair is closed: unreachable (R435, R465) -/
  | closed
  /-- 512 requests are unacknowledged, or the retry buffer is full: it waits (R341, R464) -/
  | full
  deriving DecidableEq, Repr

/-- A request of the part through a leaf with target 01. -/
def askRemote (d : Dev) (who : Issuer) (ctx addr die slot raddr : Nat) (kind : AccKind) : Asked × Dev :=
  match useEndpoint d ctx slot with
  | (none, d) => (.bad, d)
  | (some (w0, w1), d) =>
    if (peerOf d w0 w1).closed then (.closed, d)
    else
      let (a, e) := partAccess d who ctx addr die kind
      match postRemote e a w0 w1 raddr with
      | some e => (.sent, e)
      | none => (.full, d)

/-- The same for a source that goes on: a request that finds no room waits among those on their way, and its later ones behind it (R341,
R464). -/
def askOrWait (d : Dev) (who : Issuer) (ctx addr die slot raddr : Nat) (kind : AccKind) : Asked × Dev :=
  let wait (d : Dev) : Asked × Dev :=
    let (q, d) := partAccess d who ctx addr die kind
    (.sent, { d with reqs := d.reqs ++ [q] })
  if d.reqs.any fun x => x.who == who then wait d
  else
    match askRemote d who ctx addr die slot raddr kind with
    | (.full, d) => wait d
    | x => x

/-! ## Reads and writes of the part through a context's translation -/

/-- The slice's next tag taken (R117). -/
def takeTag (d : Dev) (slice : Nat) : Nat × Dev :=
  let t := (AMap.get 0 d.tags slice).toNat
  (t, { d with tags := AMap.set 0 d.tags slice (BitVec.ofNat 32 (t + 1)) })

/-- A read of `n` bytes served by their home slice (R331): tagged, the line's partials merged first; read copies stay (R332). -/
def sliceRead (d : Dev) (pa n : Nat) : Nat × Dev :=
  let d := mergePartials (takeTag d (sliceAt pa)).2 fun p => lineOf p.addr == lineOf pa
  (physReadN d pa n, d)

/-- The key of a byte of a present host's memory that a leaf with target 10 names; none for a failed translation or a lost port. -/
def hostPlace (d : Dev) (port a : Nat) : Option Nat × Dev :=
  if d.isLost port then (none, d)
  else
    match atsAsk d port a with
    | (some x, d) => (some (hostKey port x), d)
    | (none, d) => (none, d)

/-- A read of up to 8 aligned bytes, one request at its home slice (DEDUCED, log 110); none for any failure of R419 (a page fault
included), for poisoned data, and for a closed pair. What another package holds is open (DESIGN CHOICE, log 37). -/
def partRead (d : Dev) (ctx va n : Nat) : Option Nat × Dev :=
  let (w, d) := translate d ctx va needR
  match w with
  | .leaf e _ size =>
    match targetOf e va size with
    | .phys pa =>
      if !frameOk d pa then (none, d)
      else
        let x := sliceRead (countAccess d e pa) pa n
        (if physPoisoned d pa n then none else some x.1, x.2)
    | .host port a =>
      match hostPlace d port a with
      | (some k, d) => (some (Memory.readN d.host k n), d)
      | (none, d) => (none, d)
    | .remote slot raddr =>
      match askOrWait d (.part ctx) ctx va 0 slot raddr (.load n) with
      | (.sent, d) | (.full, d) =>
        let l := freeBytes n d
        (some (ofBytes l.1), l.2)
      | (.bad, d) | (.closed, d) => (none, d)
  | _ => (none, d)

/-- Whether a walk for a write ends at a page that takes it. -/
def leafWritable (d : Dev) (ctx va : Nat) : Bool :=
  match walk d ctx va needW with
  | .leaf e _ size => match targetOf e va size with
    | .phys pa => frameOk d pa && !tierLost d d.isLost pa
    | .host port _ => !d.isLost port
    | .remote slot _ => (endpointEntry d ctx slot).isSome
  | _ => false

/-- A write of up to 8 aligned bytes; false for a failure. -/
def partWrite (d : Dev) (ctx va n v : Nat) : Bool × Dev :=
  let (w, d) := translate d ctx va needW
  match w with
  | .leaf e _ size =>
    match targetOf e va size with
    | .phys pa =>
      if !frameOk d pa then (false, d)
      else
        let d := (takeTag (countAccess d e pa) (sliceAt pa)).2
        if tierLost d d.isLost pa then (false, d) else (true, physStore (recallLine d (lineOf pa)) pa n v)
    | .host port a =>
      match hostPlace d port a with
      | (some k, d) => (true, { d with host := Memory.writeN d.host k n v })
      | (none, d) => (false, d)
    | .remote slot raddr =>
      match askOrWait d (.part ctx) ctx va 0 slot raddr (.store n v) with
      | (.sent, d) | (.full, d) => (true, d)
      | (.bad, d) | (.closed, d) => (false, d)
  | _ => (false, d)

end Sys2Proof.Machine
end

