-- ==== Sys2Proof/Machine/Agent.lean ====
section
/-! DEFINITION. Tile tables and firings as they stand (R275, R338), and the messages of the stack agents to other packages: their pairs,
planes, retry buffers and order (R337, R341 to R343, R465, R468). -/

namespace Sys2Proof.Machine

/-! ## Tile-table entries (R275) -/

def entryKey (stack entry : Nat) : Nat := stack * 4096 + entry

/-- Word i of an entry. -/
def entryWord (d : Dev) (stack entry i : Nat) : Nat := (AMap.get 0 d.entries (entryKey stack entry * 8 + i)).toNat

def setEntryWord (d : Dev) (stack entry i v : Nat) : Dev :=
  { d with entries := AMap.set 0 d.entries (entryKey stack entry * 8 + i) (BitVec.ofNat 64 v) }

def entryValid (w0 : Nat) : Bool := bitOf w0 63
def entryReady (w0 : Nat) : Bool := bitOf w0 62
def entryRunning (w0 : Nat) : Bool := bitOf w0 61
def entryCtx (w0 : Nat) : Nat := field w0 60 51

/-- Peer k of an image. -/
def peerAt (w : Nat → Nat) (k : Nat) : Nat := field (w (3 + k / 2)) (32 * (k % 2) + 31) (32 * (k % 2))

/-- Members of an image. -/
def members (w : Nat → Nat) : Nat := field (w 0) 43 40 + 1

/-- The identifier of a stack agent of this package. -/
def agentId (d : Dev) (stack : Nat) : Nat := d.endpoint * 16 + stack

def Dev.firing (d : Dev) (stack entry : Nat) : Firing := AMap.get Firing.blank d.firings (entryKey stack entry)
def Dev.setFiring (d : Dev) (stack entry : Nat) (f : Firing) : Dev :=
  { d with firings := AMap.set Firing.blank d.firings (entryKey stack entry) f }

/-- The entries that run: stack and entry. -/
def runningEntries (d : Dev) : List (Nat × Nat) :=
  (d.entries.filter fun e => e.1 % 8 == 0 && entryRunning e.2.toNat).map fun e => (e.1 / 8 / 4096, e.1 / 8 % 4096)

/-- A running entry's buffer as generic addresses of its context: first byte and length (R277). -/
def bufferRange (d : Dev) (stack entry : Nat) : Nat × Nat :=
  let w (i : Nat) : Nat := entryWord d stack entry i
  (field (w 1) 55 0, field (w 0) 31 0 * 256 * if bitOf (w 0) 44 then members w else 1)

/-- A write of a context's thread or job to `n` bytes of glob: the results of the running entries whose buffer it meets are undefined
(R277); what it meets is told by generic addresses (DEDUCED, log 109). -/
def spoilBuffers (d : Dev) (ctx a n : Nat) : Dev :=
  (runningEntries d).foldl (fun d p =>
    let b := bufferRange d p.1 p.2
    if entryCtx (entryWord d p.1 p.2 0) = ctx ∧ a < b.1 + b.2 ∧ b.1 < a + n then d.setFiring p.1 p.2 { d.firing p.1 p.2 with spoiled := true }
    else d) d

/-- A running firing marked with a reason of R470; the first one stands. -/
def loseFiring (d : Dev) (stack entry reason : Nat) : Dev :=
  let f := d.firing stack entry
  if entryRunning (entryWord d stack entry 0) then d.setFiring stack entry { f with lost := some (f.lost.getD reason) } else d

/-! ## Pairs and planes (R341, R465, R468) -/

/-- The pair of a stack of this package with an agent of another. -/
def agentPair (stack id : Nat) : PeerId := 2 ^ 23 + id % 2 ^ 23 + stack * 2 ^ 24

/-- Whether a pair is one of stack agents; the agent it names, and the stack of this package. -/
def isAgent (p : PeerId) : Bool := bitOf p 23
def pairAgent (p : PeerId) : Nat := p % 2 ^ 23
def pairStack (p : PeerId) : Nat := p / 2 ^ 24

/-- The entry that a message is about. -/
def msgEntry : AgentMsg → Nat
  | .fire m => m.entry
  | .chunk c => c.entry
  | .abort e _ => e
  | .propose e _ _ _ | .agree e _ _ _ => e

def isChunk : AgentMsg → Bool
  | .chunk _ => true
  | _ => false

/-- The pair of stack agents of the sibling stack with the same agent: a Dumund port suspect for that agent is so for both (R461, R468). -/
def siblingPair (dst : PeerId) : PeerId := agentPair (Nat.xor (pairStack dst) 1) (pairAgent dst)

/-- The pairs of this package with one destination: an endpoint's, or those of a stack and its sibling with an agent. -/
def pairsOf (dst : PeerId) : List PeerId := if isAgent dst then [dst, siblingPair dst] else [dst]

/-- The plane of a message (R468): the stack's own, else its sibling's; one that a re-plan avoids is taken last (R339). -/
def planeOf (d : Dev) (o : PeerOut) (stack : Nat) (avoid : Option Nat) : Option Nat :=
  let l := [stack, Nat.xor stack 1]
  match l.find? fun q => portUsable d o (16 + q) && avoid != some q with
  | some q => some q
  | none => l.find? fun q => portUsable d o (16 + q)

/-- The plane that a message of an entry avoids. -/
def avoidOf (d : Dev) (a : Access) : Option Nat :=
  match a.who with
  | .agent stack entry => (d.firing stack entry).avoid
  | _ => none

/-- The port of the next sending of a request: its port index, or 255 for none. -/
def routeOf (d : Dev) (dst : PeerId) (o : PeerOut) (a : Access) (planes : Nat) : Nat :=
  if isAgent dst then
    match planeOf d o (pairStack dst) (avoidOf d a) with
    | some q => 16 + q
    | none => 255
  else nextPort d o planes

/-- A request goes out on a port: a message of a stack agent, or a request of UALink. -/
def noteSending (d : Dev) (dst seq port : Nat) (a : Access) : Dev :=
  if port = 255 then d
  else
    match a.kind with
    | .message m => d.notify (.agent dst seq (port - 16) m)
    | _ => d.notify (.request dst seq port)

/-! ## Messages in order (R341, R343, R464) -/

/-- The first chunk of a firing that is relayed owes its record (R468). -/
def noteRelay (d : Dev) (stack : Nat) (m : AgentMsg) (port : Nat) : Dev :=
  let f := d.firing stack (msgEntry m)
  if !isChunk m || port = 255 || port = 16 + stack || f.relayed then d
  else
    { d.setFiring stack (msgEntry m) { f with relayed := true } with
      owed := d.owed ++ [{ cls := 0x86, sev := 0, kind := 4, index := stack, ctx := none, d0 := stack, d1 := port - 16 }] }

/-- A message given the next number of its pair and sent; none while 512 are unacknowledged or the base die's retry buffer is full. -/
def sendAgent (d : Dev) (dst : PeerId) (m : AgentMsg) : Option Dev :=
  let stack := pairStack dst
  let o := d.out dst
  let (a, e) := partAccess d (.agent stack (msgEntry m)) 0 0 (stack / 2) (.message m)
  let p := routeOf d dst o a 0
  if Config.e2eWindow ≤ o.sent.length || bufferFull d (2 + stack) a then none
  else
    let x : Sent :=
      { seq := o.next, access := a, endpoint := pairAgent dst / 16, gen := (Config.agentGeneration e.fresh (pairAgent dst / 16)).toNat
        rctx := 0, raddr := 0, planes := 0, port := p, at_ := d.cycle, since := d.cycle }
    let e := { e with fresh := e.fresh + 1 }
    let e := e.setOut dst { o.tried p with next := (o.next + 1) % 65536, sent := o.sent ++ [x] }
    some (noteRelay (noteSending e dst x.seq p a) stack m p)

/-- Waiting messages of a pair sent while there is room; the first argument bounds them. -/
def drainQueue (dst : PeerId) : Nat → Dev → Dev
  | 0, d => d
  | k + 1, d =>
    match (d.out dst).queue with
    | [] => d
    | m :: r =>
      match sendAgent d dst m with
      | some d => drainQueue dst k (d.setOut dst { d.out dst with queue := r })
      | none => d

/-- Waiting messages of every pair sent while there is room. -/
def settleAgents (d : Dev) : Dev :=
  d.outs.foldl (fun d o => if o.2.queue.isEmpty then d else drainQueue o.1 o.2.queue.length d) d

/-- A message to an agent of another package, behind those that wait. A closed pair takes none (R465): its firing has lost a peer. -/
def postAgent (d : Dev) (stack id : Nat) (m : AgentMsg) : Dev :=
  let dst := agentPair stack id
  let o := d.out dst
  if o.closed then (match m with | .abort _ _ => d | _ => loseFiring d stack (msgEntry m) 1)
  else drainQueue dst (o.queue.length + 1) (d.setOut dst { o with queue := o.queue ++ [m] })

/-- Chunks of an entry that wait, dropped as its firing stops (R470). -/
def dropChunks (d : Dev) (stack entry : Nat) : Dev :=
  { d with outs := d.outs.map fun o =>
      if isAgent o.1 && pairStack o.1 == stack then
        (o.1, { o.2 with queue := o.2.queue.filter fun m => !(isChunk m && msgEntry m == entry) })
      else o }

/-- Whether a chunk of an entry waits or is unacknowledged. -/
def chunksOut (d : Dev) (stack entry : Nat) : Bool :=
  d.outs.any fun o => isAgent o.1 && pairStack o.1 == stack
    && ((o.2.queue.any fun m => isChunk m && msgEntry m == entry)
      || o.2.sent.any fun x => match x.access.kind with | .message m => isChunk m && msgEntry m == entry | _ => false)

/-- Whether a request of an entry's agent to a buffer on another package is not yet acknowledged. -/
def agentWaits (d : Dev) (stack entry : Nat) : Bool :=
  let mine (a : Access) : Bool := a.who == .agent stack entry && !(a.kind matches .message _)
  d.reqs.any mine || d.outs.any fun o => o.2.sent.any fun x => mine x.access

end Sys2Proof.Machine
end

