-- ==== Sys2Proof/Decode.lean ====
section
/-! DEFINITION. From the 96 bits of a slot to an instruction, or a named rejection (R129 to R141, R153 to R164), and the encoder. -/

namespace Sys2Proof

/-- Why a slot is not an instruction (R141). -/
inductive DecodeError where
  /-- a literal slot (R134) -/
  | literalSlot
  /-- reserved bit [95] set (R5, R129) -/
  | reservedBit
  /-- an operand field breaks R131 to R135 -/
  | operandField
  /-- an opcode the map does not assign, or a modifier outside its layout (R138, R153 to R164) -/
  | unassigned
  /-- a width, shape, type, file or class the instruction does not accept (R136, R154 to R163) -/
  | notAccepted
  deriving DecidableEq, Repr

/-! ## Coded fields -/

/-- The code of a `IWidth` field. -/
def IWidth.code : IWidth → Nat
  | .w32 => 0
  | .w64 => 1
  | .w16 => 2
  | .w8 => 3

/-- The `IWidth` of a code; none for an unassigned code. -/
def IWidth.ofCode : Nat → Option IWidth
  | 0 => some .w32
  | 1 => some .w64
  | 2 => some .w16
  | 3 => some .w8
  | _ => none

/-- The code of a `FFmt` field. -/
def FFmt.code : FFmt → Nat
  | .f32 => 0
  | .f64 => 1

/-- The `FFmt` of a code; none for an unassigned code. -/
def FFmt.ofCode : Nat → Option FFmt
  | 0 => some .f32
  | 1 => some .f64
  | _ => none

/-- The code of a `Rnd` field. -/
def Rnd.code : Rnd → Nat
  | .rne => 0
  | .rtz => 1
  | .rdn => 2
  | .rup => 3
  | .rna => 4
  | .sr => 5

/-- The `Rnd` of a code; none for an unassigned code. -/
def Rnd.ofCode : Nat → Option Rnd
  | 0 => some .rne
  | 1 => some .rtz
  | 2 => some .rdn
  | 3 => some .rup
  | 4 => some .rna
  | 5 => some .sr
  | _ => none

/-- The code of a `Cond` field. -/
def Cond.code : Cond → Nat
  | .eq => 0
  | .ne => 1
  | .lt => 2
  | .le => 3
  | .gt => 4
  | .ge => 5
  | .unord => 6
  | .ord => 7

/-- The `Cond` of a code; none for an unassigned code. -/
def Cond.ofCode : Nat → Option Cond
  | 0 => some .eq
  | 1 => some .ne
  | 2 => some .lt
  | 3 => some .le
  | 4 => some .gt
  | 5 => some .ge
  | 6 => some .unord
  | 7 => some .ord
  | _ => none

/-- The code of a `Shape` field. -/
def Shape.code : Shape → Nat
  | .f32x8 => 0
  | .f16x16 => 1
  | .bf16x16 => 2
  | .e4m3x32 => 3
  | .e5m2x32 => 4
  | .e3m2x32 => 5
  | .e2m3x32 => 6
  | .e2m1x64 => 7
  | .i32x8 => 8
  | .n32x8 => 9
  | .i16x16 => 10
  | .n16x16 => 11
  | .i8x32 => 12
  | .n8x32 => 13
  | .i4x64 => 14
  | .n4x64 => 15

/-- The `Shape` of a code; none for an unassigned code. -/
def Shape.ofCode : Nat → Option Shape
  | 0 => some .f32x8
  | 1 => some .f16x16
  | 2 => some .bf16x16
  | 3 => some .e4m3x32
  | 4 => some .e5m2x32
  | 5 => some .e3m2x32
  | 6 => some .e2m3x32
  | 7 => some .e2m1x64
  | 8 => some .i32x8
  | 9 => some .n32x8
  | 10 => some .i16x16
  | 11 => some .n16x16
  | 12 => some .i8x32
  | 13 => some .n8x32
  | 14 => some .i4x64
  | 15 => some .n4x64
  | _ => none

/-- The code of a `EWidth` field. -/
def EWidth.code : EWidth → Nat
  | .e32 => 0
  | .e16 => 1
  | .e8 => 2
  | .e4 => 3

/-- The `EWidth` of a code; none for an unassigned code. -/
def EWidth.ofCode : Nat → Option EWidth
  | 0 => some .e32
  | 1 => some .e16
  | 2 => some .e8
  | 3 => some .e4
  | _ => none

/-- The code of a `PrngShape` field. -/
def PrngShape.code : PrngShape → Nat
  | .b32 => 0
  | .f32 => 1
  | .b32x8 => 2
  | .f32x8 => 3

/-- The `PrngShape` of a code; none for an unassigned code. -/
def PrngShape.ofCode : Nat → Option PrngShape
  | 0 => some .b32
  | 1 => some .f32
  | 2 => some .b32x8
  | 3 => some .f32x8
  | _ => none

/-- The code of a `SfuShape` field. -/
def SfuShape.code : SfuShape → Nat
  | .f32 => 0
  | .f32x8 => 1
  | .f16x16 => 2
  | .bf16x16 => 3

/-- The `SfuShape` of a code; none for an unassigned code. -/
def SfuShape.ofCode : Nat → Option SfuShape
  | 0 => some .f32
  | 1 => some .f32x8
  | 2 => some .f16x16
  | 3 => some .bf16x16
  | _ => none

/-- The code of a `CType` field. -/
def CType.code : CType → Nat
  | .f32 => 0
  | .f64 => 1
  | .f16 => 2
  | .bf16 => 3
  | .i32 => 4
  | .n32 => 5
  | .i64 => 6
  | .n64 => 7

/-- The `CType` of a code; none for an unassigned code. -/
def CType.ofCode : Nat → Option CType
  | 0 => some .f32
  | 1 => some .f64
  | 2 => some .f16
  | 3 => some .bf16
  | 4 => some .i32
  | 5 => some .n32
  | 6 => some .i64
  | 7 => some .n64
  | _ => none

/-- The code of a `PktSrc` field. -/
def PktSrc.code : PktSrc → Nat
  | .f32x8 => 0
  | .f16x16 => 1
  | .bf16x16 => 2
  | .e4m3x32 => 3
  | .e5m2x32 => 4
  | .e2m1x64 => 5
  | .i32x8 => 6
  | .i8x32 => 7

/-- The `PktSrc` of a code; none for an unassigned code. -/
def PktSrc.ofCode : Nat → Option PktSrc
  | 0 => some .f32x8
  | 1 => some .f16x16
  | 2 => some .bf16x16
  | 3 => some .e4m3x32
  | 4 => some .e5m2x32
  | 5 => some .e2m1x64
  | 6 => some .i32x8
  | 7 => some .i8x32
  | _ => none

/-- The code of a `ShflSize` field. -/
def ShflSize.code : ShflSize → Nat
  | .b32 => 0
  | .b64 => 1
  | .b256 => 2

/-- The `ShflSize` of a code; none for an unassigned code. -/
def ShflSize.ofCode : Nat → Option ShflSize
  | 0 => some .b32
  | 1 => some .b64
  | 2 => some .b256
  | _ => none

/-- The code of a `ShflMode` field. -/
def ShflMode.code : ShflMode → Nat
  | .atLane => 0
  | .byOffset => 1
  | .flip => 2
  | .rot => 3

/-- The `ShflMode` of a code; none for an unassigned code. -/
def ShflMode.ofCode : Nat → Option ShflMode
  | 0 => some .atLane
  | 1 => some .byOffset
  | 2 => some .flip
  | 3 => some .rot
  | _ => none

/-- The code of a `VoteMode` field. -/
def VoteMode.code : VoteMode → Nat
  | .someOf => 0
  | .everyOf => 1
  | .mask => 2
  | .cnt => 3
  | .pre => 4
  | .same => 5

/-- The `VoteMode` of a code; none for an unassigned code. -/
def VoteMode.ofCode : Nat → Option VoteMode
  | 0 => some .someOf
  | 1 => some .everyOf
  | 2 => some .mask
  | 3 => some .cnt
  | 4 => some .pre
  | 5 => some .same
  | _ => none

/-- The code of a `MatchMode` field. -/
def MatchMode.code : MatchMode → Nat
  | .mask => 0
  | .lead => 1
  | .cnt => 2

/-- The `MatchMode` of a code; none for an unassigned code. -/
def MatchMode.ofCode : Nat → Option MatchMode
  | 0 => some .mask
  | 1 => some .lead
  | 2 => some .cnt
  | _ => none

/-- The code of a `ScanOp` field. -/
def ScanOp.code : ScanOp → Nat
  | .addI32 => 0
  | .addF32 => 1
  | .minI32 => 2
  | .maxI32 => 3
  | .minN32 => 4
  | .maxN32 => 5
  | .orB32 => 6
  | .xorB32 => 7

/-- The `ScanOp` of a code; none for an unassigned code. -/
def ScanOp.ofCode : Nat → Option ScanOp
  | 0 => some .addI32
  | 1 => some .addF32
  | 2 => some .minI32
  | 3 => some .maxI32
  | 4 => some .minN32
  | 5 => some .maxN32
  | 6 => some .orB32
  | 7 => some .xorB32
  | _ => none

/-- The code of a `XsetMode` field. -/
def XsetMode.code : XsetMode → Nat
  | .whole => 0
  | .cur => 1
  | .add => 2

/-- The `XsetMode` of a code; none for an unassigned code. -/
def XsetMode.ofCode : Nat → Option XsetMode
  | 0 => some .whole
  | 1 => some .cur
  | 2 => some .add
  | _ => none

/-- The code of a `XgetField` field. -/
def XgetField.code : XgetField → Nat
  | .whole => 0
  | .cur => 1
  | .base => 2
  | .bound => 3
  | .step => 4
  | .view => 5
  | .wrap => 6

/-- The `XgetField` of a code; none for an unassigned code. -/
def XgetField.ofCode : Nat → Option XgetField
  | 0 => some .whole
  | 1 => some .cur
  | 2 => some .base
  | 3 => some .bound
  | 4 => some .step
  | 5 => some .view
  | 6 => some .wrap
  | _ => none

/-- The code of a `MWidth` field. -/
def MWidth.code : MWidth → Nat
  | .b8 => 0
  | .b16 => 1
  | .b32 => 2
  | .b64 => 3
  | .b128 => 4
  | .b256 => 5

/-- The `MWidth` of a code; none for an unassigned code. -/
def MWidth.ofCode : Nat → Option MWidth
  | 0 => some .b8
  | 1 => some .b16
  | 2 => some .b32
  | 3 => some .b64
  | 4 => some .b128
  | 5 => some .b256
  | _ => none

/-- The code of a `MOrder` field. -/
def MOrder.code : MOrder → Nat
  | .rlx => 0
  | .acq => 1
  | .rel => 2
  | .acqrel => 3

/-- The `MOrder` of a code; none for an unassigned code. -/
def MOrder.ofCode : Nat → Option MOrder
  | 0 => some .rlx
  | 1 => some .acq
  | 2 => some .rel
  | 3 => some .acqrel
  | _ => none

/-- The code of a `Scope` field. -/
def Scope.code : Scope → Nat
  | .thr => 0
  | .grp => 1
  | .team => 2
  | .pair => 3
  | .clu => 4
  | .die => 5
  | .pkg => 6
  | .sys => 7

/-- The `Scope` of a code; none for an unassigned code. -/
def Scope.ofCode : Nat → Option Scope
  | 0 => some .thr
  | 1 => some .grp
  | 2 => some .team
  | 3 => some .pair
  | 4 => some .clu
  | 5 => some .die
  | 6 => some .pkg
  | 7 => some .sys
  | _ => none

/-- The code of a `MType` field. -/
def MType.code : MType → Nat
  | .b32 => 0
  | .b64 => 1
  | .i32 => 2
  | .i64 => 3
  | .n32 => 4
  | .n64 => 5
  | .f32 => 6
  | .f64 => 7

/-- The `MType` of a code; none for an unassigned code. -/
def MType.ofCode : Nat → Option MType
  | 0 => some .b32
  | 1 => some .b64
  | 2 => some .i32
  | 3 => some .i64
  | 4 => some .n32
  | 5 => some .n64
  | 6 => some .f32
  | 7 => some .f64
  | _ => none

/-- The code of a `WaitCmp` field. -/
def WaitCmp.code : WaitCmp → Nat
  | .eq => 0
  | .ne => 1
  | .ge => 2

/-- The `WaitCmp` of a code; none for an unassigned code. -/
def WaitCmp.ofCode : Nat → Option WaitCmp
  | 0 => some .eq
  | 1 => some .ne
  | 2 => some .ge
  | _ => none

/-- [21] sat and [16] signed of `add` and `sub` (R138, R173). -/
def ISat.code : ISat → Nat
  | .wrap => 0x00
  | .unsigned => 0x20
  | .signed => 0x21

def ISat.ofCode : Nat → Option ISat
  | 0x00 => some .wrap
  | 0x20 => some .unsigned
  | 0x21 => some .signed
  | _ => none

/-- Bits [21:16] of the modifier byte in the layout of R66. -/
def FpMod.code (m : FpMod) : Nat := 32 * b2n m.sat + 16 * b2n m.ftzo + 8 * b2n m.ftzi + m.rnd.code

/-- The fields of R66 from the modifier byte; none for rnd 110 and 111. -/
def FpMod.ofCode (v : Nat) : Option FpMod :=
  (Rnd.ofCode (v % 8)).map fun r => ⟨v / 32 % 2 == 1, v / 16 % 2 == 1, v / 8 % 2 == 1, r⟩

/-- [23:22] V, [19:18] pair, [17:16] column of `stex` (R240, R271). -/
def StexMode.code : StexMode → Nat
  | .spec => 0x00
  | .up => 0x40
  | .mueller p c => 0x80 + 4 * p.toNat + c.toNat

def StexMode.ofCode (v : Nat) : Option StexMode :=
  if v = 0 then some .spec
  else if v = 0x40 then some .up
  else if v / 16 = 8 then some (.mueller (BitVec.ofNat 2 (v / 4)) (BitVec.ofNat 2 v))
  else none

/-- A modifier byte that must be zero. -/
def noMod (m : Nat) (i : Instr) : Option Instr := if m = 0 then some i else none

/-- A modifier byte of one flag, at bit `k`. -/
def flagMod (m k : Nat) (f : Bool → Instr) : Option Instr :=
  if m = 0 then some (f false) else if m = 2 ^ k then some (f true) else none

/-- A modifier byte in the layout of R66 with the variant `v`. -/
def fpMod (m v : Nat) (f : FpMod → Instr) : Option Instr :=
  if m / 64 = v then (FpMod.ofCode m).map f else none

/-- A modifier byte in the layout of R66 whose variant is 00 or 01. -/
def fpModBit (m : Nat) (f : Bool → FpMod → Instr) : Option Instr :=
  if m / 64 < 2 then (FpMod.ofCode m).map (f (m / 64 == 1)) else none

/-- Order, scope and type of classes 7 and 8 (R138, R139). -/
def memMod (m : Nat) (f : MOrder → Scope → MType → Instr) : Option Instr :=
  (MOrder.ofCode (m / 64)).bind fun o => (Scope.ofCode (m / 8 % 8)).bind fun s => (MType.ofCode (m % 8)).map (f o s)

/-- Order and scope with a zero type field (R216, R217). -/
def ordMod (m : Nat) (f : MOrder → Scope → Instr) : Option Instr :=
  if m % 8 = 0 then (MOrder.ofCode (m / 64)).bind fun o => (Scope.ofCode (m / 8 % 8)).map (f o) else none

/-- ftzi at [19] and a condition at [18:16] (R138). -/
def condMod (m : Nat) (f : Bool → Cond → Instr) : Option Instr :=
  if m < 16 then (Cond.ofCode (m % 8)).map (f (m / 8 == 1)) else none

/-! ## Opcode and modifier to an instruction, by class. `m` is the modifier byte. -/

/-- Class 0 (R154, R171, R173). -/
def class0 (op : Nat) (w : IWidth) (m : Nat) (c : Ctl) (d a b : Operand) : Option Instr :=
  match op with
  | 0x00 => (ISat.ofCode m).map fun s => .add c w s d a b
  | 0x01 => (ISat.ofCode m).map fun s => .sub c w s d a b
  | 0x02 => noMod m (.mul c w d a b)
  | 0x03 => noMod m (.mulHiI c w d a b)
  | 0x04 => noMod m (.mulHiN c w d a b)
  | 0x05 => noMod m (.mad c w d a b)
  | 0x06 => noMod m (.minI c w d a b)
  | 0x07 => noMod m (.minN c w d a b)
  | 0x08 => noMod m (.maxI c w d a b)
  | 0x09 => noMod m (.maxN c w d a b)
  | 0x0A => noMod m (.shl c w d a b)
  | 0x0B => noMod m (.shrN c w d a b)
  | 0x0C => noMod m (.shrI c w d a b)
  | 0x0D => noMod m (.rol c w d a b)
  | 0x0E => some (.lop3 c w (BitVec.ofNat 8 m) d a b)
  | 0x0F => noMod m (.popc c w d a b)
  | 0x10 => noMod m (.clz c w d a b)
  | 0x11 => noMod m (.ctz c w d a b)
  | 0x12 => noMod m (.brev c w d a b)
  | 0x13 => noMod m (.bfeN c w d a b)
  | 0x14 => noMod m (.bfeI c w d a b)
  | 0x15 => noMod m (.bfi c w d a b)
  | 0x16 => if m < 8 then some (.lea c w (BitVec.ofNat 3 m) d a b) else none
  | 0x17 => if m < 8 then (Cond.ofCode m).map fun q => .cmpI c w q d a b else none
  | 0x18 => if m < 8 then (Cond.ofCode m).map fun q => .cmpN c w q d a b else none
  | 0x19 => if m < 16 then some (.sel c w (m / 8 == 1) (BitVec.ofNat 3 m) d a b) else none
  | 0x1A => noMod m (.mov c w d a b)
  | _ => none

/-- Class 1 (R155, R174, R175). -/
def class1 (op : Nat) (f : FFmt) (m : Nat) (c : Ctl) (d a b : Operand) : Option Instr :=
  match op with
  | 0x00 => fpMod m 0 fun q => .addFp c f q d a b
  | 0x01 => fpMod m 0 fun q => .subFp c f q d a b
  | 0x02 => fpMod m 0 fun q => .mulFp c f q d a b
  | 0x03 => fpMod m 0 fun q => .fmaAcc c f q d a b
  | 0x04 => fpMod m 0 fun q => .fmaHor c f q d a b
  | 0x05 => if f = .f32 then flagMod m 3 fun z => .minFp c z d a b else none
  | 0x06 => if f = .f32 then flagMod m 3 fun z => .maxFp c z d a b else none
  | 0x07 => condMod m fun z q => .cmpFp c f z q d a b
  | 0x08 => if f = .f32 then noMod m (.classFp c d a b) else none
  | _ => none

/-- Class 2 (R157, R177 to R182). -/
def class2 (op : Nat) (sh : Shape) (m : Nat) (c : Ctl) (d a b : Operand) : Option Instr :=
  match op with
  | 0x00 => fpModBit m fun l q => .addPkt c sh l q d a b
  | 0x01 => fpModBit m fun l q => .subPkt c sh l q d a b
  | 0x02 => fpModBit m fun l q => .mulPkt c sh l q d a b
  | 0x03 => fpModBit m fun l q => .fmaAccPkt c sh l q d a b
  | 0x04 => fpModBit m fun l q => .fmaHorPkt c sh l q d a b
  | 0x05 => fpModBit m fun l q => .minPkt c sh l q d a b
  | 0x06 => fpModBit m fun l q => .maxPkt c sh l q d a b
  | 0x07 => condMod m fun z q => .cmpPkt c sh z q d a b
  | 0x08 => fpModBit m fun l q => .dot c sh l q d a b
  | 0x09 => fpModBit m fun l q => .hsum c sh l q d a b
  | 0x0A => fpModBit m fun l q => .hmax c sh l q d a b
  | 0x0B => if sh = .f32x8 then flagMod m 6 fun l => .omse c l d a b else none
  | _ => none

/-- Class 3 (R158, R183 to R189). -/
def class3 (fn : Nat) (m : Nat) (c : Ctl) (d a b : Operand) : Option Instr :=
  match fn with
  | 0x00 => noMod m (.pperm c d a b)
  | 0x01 => if m < 4 then some (.plut c (m / 2 == 1) (m % 2 == 1) d a b) else none
  | 0x02 => if m % 64 = 0 then (EWidth.ofCode (m / 64)).map fun w => .eshl c w d a b else none
  | 0x03 => if m % 64 = 0 then (EWidth.ofCode (m / 64)).map fun w => .eshr c w d a b else none
  | 0x04 => if m % 64 = 0 then (EWidth.ofCode (m / 64)).map fun w => .bcast c w d a b else none
  | 0x05 => if m % 64 = 0 then (EWidth.ofCode (m / 64)).map fun w => .esel c w d a b else none
  | 0x06 => if m % 64 = 0 then (EWidth.ofCode (m / 64)).map fun w => .eins c w d a b else none
  | 0x07 => if m % 64 = 0 then (EWidth.ofCode (m / 64)).map fun w => .eext c w d a b else none
  | 0x10 => fpMod m 0 fun q => .specLerp c q d a b
  | 0x11 => fpModBit m fun o q => .specCie c o q d a b
  | 0x12 => (FpMod.ofCode m).map fun q => .specMueller c (BitVec.ofNat 2 (m / 64)) q d a b
  | 0x20 => if m % 64 = 0 then (PrngShape.ofCode (m / 64)).map fun s => .prng c s d a b else none
  | _ => none

/-- Class 4 (R159, R190 to R193). -/
def class4 (fn : Nat) (m : Nat) (c : Ctl) (d a b : Operand) : Option Instr :=
  match fn with
  | 0x00 => (SfuShape.ofCode (m / 64)).bind fun v => (FpMod.ofCode m).map fun q => .sfuRcp c v q d a b
  | 0x01 => (SfuShape.ofCode (m / 64)).bind fun v => (FpMod.ofCode m).map fun q => .sfuRsqrt c v q d a b
  | 0x02 => (SfuShape.ofCode (m / 64)).bind fun v => (FpMod.ofCode m).map fun q => .sfuSqrt c v q d a b
  | 0x03 => (SfuShape.ofCode (m / 64)).bind fun v => (FpMod.ofCode m).map fun q => .sfuExp2 c v q d a b
  | 0x04 => (SfuShape.ofCode (m / 64)).bind fun v => (FpMod.ofCode m).map fun q => .sfuLog2 c v q d a b
  | 0x05 => (SfuShape.ofCode (m / 64)).bind fun v => (FpMod.ofCode m).map fun q => .sfuSin c v q d a b
  | 0x06 => (SfuShape.ofCode (m / 64)).bind fun v => (FpMod.ofCode m).map fun q => .sfuCos c v q d a b
  | 0x07 => (SfuShape.ofCode (m / 64)).bind fun v => (FpMod.ofCode m).map fun q => .sfuTanh c v q d a b
  | 0x08 => (SfuShape.ofCode (m / 64)).bind fun v => (FpMod.ofCode m).map fun q => .sfuSigm c v q d a b
  | 0x09 => (SfuShape.ofCode (m / 64)).bind fun v => (FpMod.ofCode m).map fun q => .sfuErf c v q d a b
  | 0x0A => (SfuShape.ofCode (m / 64)).bind fun v => (FpMod.ofCode m).map fun q => .sfuGelu c v q d a b
  | 0x0B => (SfuShape.ofCode (m / 64)).bind fun v => (FpMod.ofCode m).map fun q => .sfuSilu c v q d a b
  | 0x20 => fpMod m 0 fun q => .mxqE4M3 c q d a b
  | 0x21 => fpMod m 0 fun q => .mxqE5M2 c q d a b
  | 0x22 => fpMod m 0 fun q => .mxqE3M2 c q d a b
  | 0x23 => fpMod m 0 fun q => .mxqE2M3 c q d a b
  | 0x24 => fpModBit m fun h q => .mxqE2M1 c h q d a b
  | 0x25 => fpMod m 0 fun q => .mxqI8 c q d a b
  | _ =>
    if fn < 0x40 then none
    else if fn < 0x80 then
      (CType.ofCode ((fn - 0x40) / 8)).bind fun t => (CType.ofCode (fn % 8)).bind fun s =>
        fpMod m 0 fun q => .cvtScalar c t s q d a b
    else
      (Shape.ofCode ((fn - 0x80) / 8)).bind fun t => (PktSrc.ofCode (fn % 8)).bind fun s =>
        (FpMod.ofCode m).map fun q => .cvtPacket c t s (BitVec.ofNat 2 (m / 64)) q d a b

/-- Class 5 (R160). -/
def class5 (fn : Nat) (m : Nat) (c : Ctl) (d a b : Operand) : Option Instr :=
  match fn with
  | 0x00 => if m < 16 then (ShflSize.ofCode (m / 4)).bind fun s => (ShflMode.ofCode (m % 4)).map fun q => .shfl c s q d a b else none
  | 0x01 => (VoteMode.ofCode m).map fun q => .vote c q d a b
  | 0x02 => if m < 8 then (MatchMode.ofCode (m % 4)).map fun q => .matchV c (m / 4 == 1) q d a b else none
  | 0x03 => if m < 16 then (ScanOp.ofCode (m % 8)).map fun q => .scan c (m / 8 == 1) q d a b else none
  | 0x04 => noMod m (.regroup c d a b)
  | 0x10 => noMod m (.bra c d a b)
  | 0x11 => noMod m (.brx c d a b)
  | 0x12 => noMod m (.call c d a b)
  | 0x13 => noMod m (.ret c d a b)
  | 0x14 => noMod m (.loop c d a b)
  | 0x15 => noMod m (.rep c d a b)
  | 0x16 => noMod m (.exit c d a b)
  | 0x17 => noMod m (.yield c d a b)
  | 0x18 => noMod m (.nop c d a b)
  | _ => none

/-- Class 6 (R160). -/
def class6 (fn : Nat) (m : Nat) (c : Ctl) (d a b : Operand) : Option Instr :=
  match fn with
  | 0x00 => some (.plop3 c (BitVec.ofNat 8 m) d a b)
  | 0x02 => noMod m (.pget c d a b)
  | 0x03 => noMod m (.pset c d a b)
  | 0x10 => noMod m (.racq c d a b)
  | 0x11 => noMod m (.rrel c d a b)
  | 0x20 => (XsetMode.ofCode m).map fun q => .xset c q d a b
  | 0x21 => (XgetField.ofCode m).map fun q => .xget c q d a b
  | _ => none

/-- Class 7 (R161). -/
def class7 (fn : Nat) (m : Nat) (c : Ctl) (d a b : Operand) : Option Instr :=
  match fn with
  | 0x00 => noMod m (.ld c .b8 d a b)
  | 0x01 => noMod m (.ld c .b16 d a b)
  | 0x02 => noMod m (.ld c .b32 d a b)
  | 0x03 => noMod m (.ld c .b64 d a b)
  | 0x04 => noMod m (.ld c .b128 d a b)
  | 0x05 => noMod m (.ld c .b256 d a b)
  | 0x08 => noMod m (.st c .b8 d a b)
  | 0x09 => noMod m (.st c .b16 d a b)
  | 0x0A => noMod m (.st c .b32 d a b)
  | 0x0B => noMod m (.st c .b64 d a b)
  | 0x0C => noMod m (.st c .b128 d a b)
  | 0x0D => noMod m (.st c .b256 d a b)
  | 0x10 => memMod m fun o s t => .atomExch c o s t d a b
  | 0x11 => memMod m fun o s t => .atomCas c o s t d a b
  | 0x12 => memMod m fun o s t => .atomAdd c o s t d a b
  | 0x13 => memMod m fun o s t => .atomMin c o s t d a b
  | 0x14 => memMod m fun o s t => .atomMax c o s t d a b
  | 0x15 => memMod m fun o s t => .atomAnd c o s t d a b
  | 0x16 => memMod m fun o s t => .atomOr c o s t d a b
  | 0x17 => memMod m fun o s t => .atomXor c o s t d a b
  | _ => none

/-- Class 8 (R162). -/
def class8 (fn : Nat) (m : Nat) (c : Ctl) (d a b : Operand) : Option Instr :=
  match fn with
  | 0x00 => noMod m (.stG c .b8 d a b)
  | 0x01 => noMod m (.stG c .b16 d a b)
  | 0x02 => noMod m (.stG c .b32 d a b)
  | 0x03 => noMod m (.stG c .b64 d a b)
  | 0x04 => noMod m (.stG c .b128 d a b)
  | 0x05 => noMod m (.stG c .b256 d a b)
  | 0x10 => memMod m fun o s t => .redGAdd c o s t d a b
  | 0x11 => memMod m fun o s t => .redGMin c o s t d a b
  | 0x12 => memMod m fun o s t => .redGMax c o s t d a b
  | 0x13 => memMod m fun o s t => .redGAnd c o s t d a b
  | 0x14 => memMod m fun o s t => .redGOr c o s t d a b
  | 0x15 => memMod m fun o s t => .redGXor c o s t d a b
  | 0x16 => memMod m fun o s t => .redGKahan c o s t d a b
  | 0x20 => memMod m fun o s t => .atomGExch c o s t d a b
  | 0x21 => memMod m fun o s t => .atomGCas c o s t d a b
  | 0x22 => memMod m fun o s t => .atomGAdd c o s t d a b
  | 0x30 => ordMod m fun o s => .redCommit c o s d a b
  | _ => none

/-- Class 9 (R160, R163). -/
def class9 (fn : Nat) (m : Nat) (c : Ctl) (d a b : Operand) : Option Instr :=
  match fn with
  | 0x00 => ordMod m fun o s => .fence c o s d a b
  | 0x10 => noMod m (.barTeam c d a b)
  | 0x11 => noMod m (.barPair c d a b)
  | 0x12 => noMod m (.barClu c d a b)
  | 0x13 => flagMod m 7 fun r => .barSys c r d a b
  | 0x20 => (WaitCmp.ofCode m).map fun q => .wait c q d a b
  | 0x30 => noMod m (.qpush c d a b)
  | 0x31 => noMod m (.qpop c d a b)
  | _ => none

/-- Class A (R160, R240). -/
def classA (fn : Nat) (m : Nat) (c : Ctl) (d a b : Operand) : Option Instr :=
  match fn with
  | 0x00 => flagMod m 0 fun o => .jpostCopy c o d a b
  | 0x01 => flagMod m 0 fun o => .jpostGather c o d a b
  | 0x02 => flagMod m 0 fun o => .jpostMma c o d a b
  | 0x03 => flagMod m 0 fun o => .jpostMmaGather c o d a b
  | 0x04 => flagMod m 0 fun o => .jpostEpilogue c o d a b
  | 0x10 => noMod m (.jwait c d a b)
  | 0x11 => noMod m (.jtest c d a b)
  | 0x12 => noMod m (.jcancel c d a b)
  | 0x13 => noMod m (.hstore c d a b)
  | 0x14 => noMod m (.hload c d a b)
  | 0x20 => noMod m (.tacq c d a b)
  | 0x21 => noMod m (.trel c d a b)
  | 0x22 => noMod m (.tstat c d a b)
  | 0x23 => noMod m (.tld c d a b)
  | 0x24 => noMod m (.tst c d a b)
  | 0x30 => noMod m (.trace c d a b)
  | 0x31 => noMod m (.traceResume c d a b)
  | 0x38 => (StexMode.ofCode m).map fun q => .stex c q d a b
  | 0x40 => noMod m (.shcProbe c d a b)
  | 0x41 => noMod m (.shcFill c d a b)
  | 0x50 => noMod m (.collArm c d a b)
  | 0x51 => noMod m (.collReady c d a b)
  | _ => none

/-- Class B (R160, R240). -/
def classB (fn : Nat) (m : Nat) (c : Ctl) (d a b : Operand) : Option Instr :=
  match fn with
  | 0x00 => noMod m (.dtime c d a b)
  | 0x01 => noMod m (.sysr c d a b)
  | 0x02 => noMod m (.sysw c d a b)
  | 0x10 => noMod m (.trap c d a b)
  | 0x11 => noMod m (.tret c d a b)
  | 0x12 => noMod m (.brk c d a b)
  | _ => none

/-- Class C (R160, R240). -/
def classC (fn : Nat) (m : Nat) (c : Ctl) (d a b : Operand) : Option Instr :=
  match fn with
  | 0x00 => noMod m (.launch c d a b)
  | 0x01 => noMod m (.semWaitGe c d a b)
  | 0x02 => flagMod m 0 fun s => .semSig c s d a b
  | 0x03 => noMod m (.ttrig c d a b)
  | 0x04 => noMod m (.intr c d a b)
  | 0x05 => noMod m (.qnext c d a b)
  | _ => none

/-- The instruction of an opcode ([11:0], R153) with a modifier byte, a control part and three operands; none when the opcode
map does not assign it or the modifier breaks its layout. -/
def instrOf (op m : Nat) (c : Ctl) (d a b : Operand) : Option Instr :=
  let fn := op % 256
  match op / 256 with
  | 0x0 => (IWidth.ofCode (fn % 4)).bind fun w => class0 (fn / 4) w m c d a b
  | 0x1 => (FFmt.ofCode (fn % 2)).bind fun f => class1 (fn / 2) f m c d a b
  | 0x2 => (Shape.ofCode (fn % 16)).bind fun s => class2 (fn / 16) s m c d a b
  | 0x3 => class3 fn m c d a b
  | 0x4 => class4 fn m c d a b
  | 0x5 => class5 fn m c d a b
  | 0x6 => class6 fn m c d a b
  | 0x7 => class7 fn m c d a b
  | 0x8 => class8 fn m c d a b
  | 0x9 => class9 fn m c d a b
  | 0xA => classA fn m c d a b
  | 0xB => classB fn m c d a b
  | 0xC => classC fn m c d a b
  | _ => none

/-! ## Operand fields -/

/-- The code of a file (R44). -/
def File.code : File → Nat
  | .g => 0 | .y => 1 | .p => 2 | .x => 3 | .h => 4 | .t => 5 | .sr => 6

def File.ofCode : Nat → Option File
  | 0 => some .g | 1 => some .y | 2 => some .p | 3 => some .x | 4 => some .h | 5 => some .t | 6 => some .sr
  | _ => none

/-- The operand of a 22-bit field (R131 to R135); none when the field breaks its layout. -/
def decodeOperand (v : BitVec 22) : Option Operand :=
  let n := v.toNat
  match n / 2 ^ 20 with
  | 0 =>
    if n = 0x0E0000 then some .none
    else if n / 2 ^ 9 % 64 ≠ 0 then none
    else (File.ofCode (n / 2 ^ 17 % 8)).map fun f =>
      .reg f (n / 2 ^ 16 % 2 == 1) (n / 2 ^ 15 % 2 == 1) (BitVec.ofNat 9 n)
  | 1 =>
    if n / 2 ^ 17 % 8 ≠ 0 ∨ n % 128 ≠ 0 then none
    else some (.ind (BitVec.ofNat 3 (n / 2 ^ 14)) (BitVec.ofNat 6 (n / 2 ^ 8)) (n / 2 ^ 7 % 2 == 1))
  | 2 => some (.imm (BitVec.ofNat 20 n))
  | _ =>
    if n / 2 ^ 16 % 16 = 15 then
      if n / 2 ^ 5 % 2 ^ 11 ≠ 0 then none
      else some (.lit (BitVec.ofNat 2 (n / 8)) (BitVec.ofNat 3 n))
    else some (.cbank (BitVec.ofNat 4 (n / 2 ^ 16)) (BitVec.ofNat 16 n))

/-- The 22-bit field of an operand (R131). A `cbank` operand with bank 15 has no encoding of its own; well-formed instructions
hold none. -/
def encodeOperand : Operand → BitVec 22
  | .reg f neg abs i => BitVec.ofNat 22 (f.code * 2 ^ 17 + b2n neg * 2 ^ 16 + b2n abs * 2 ^ 15 + i.toNat)
  | .ind x o post => BitVec.ofNat 22 (2 ^ 20 + x.toNat * 2 ^ 14 + o.toNat * 2 ^ 8 + b2n post * 2 ^ 7)
  | .imm v => BitVec.ofNat 22 (2 * 2 ^ 20 + v.toNat)
  | .cbank b w => BitVec.ofNat 22 (3 * 2 ^ 20 + b.toNat * 2 ^ 16 + w.toNat)
  | .lit s d => BitVec.ofNat 22 (3 * 2 ^ 20 + 15 * 2 ^ 16 + s.toNat * 8 + d.toNat)
  | .none => BitVec.ofNat 22 0x0E0000

/-! ## Slots -/

/-- Bits [hi:lo] of a slot. -/
def slotField (w : SlotWord) (hi lo : Nat) : Nat := field w.toNat hi lo

/-- A literal slot: opcode 0xFFF with [95:76] zero (R134). -/
def isLiteral (w : SlotWord) : Bool := slotField w 11 0 == 0xFFF && slotField w 95 76 == 0

/-- The two words of a literal slot (R134). -/
def literalWords (w : SlotWord) : Word × Word := (BitVec.ofNat 32 (slotField w 43 12), BitVec.ofNat 32 (slotField w 75 44))

/-- The guard, switch marker and hints of a slot (R129, R137, R140). -/
def decodeCtl (w : SlotWord) : Ctl :=
  ⟨BitVec.ofNat 3 (slotField w 14 12), slotField w 15 15 == 1, slotField w 90 90 == 1, BitVec.ofNat 2 (slotField w 92 91),
    slotField w 93 93 == 1, slotField w 94 94 == 1⟩

/-- A slot to its instruction (R141): total, rejecting by name. -/
def decode (w : SlotWord) : Except DecodeError Instr :=
  if isLiteral w then .error .literalSlot
  else if slotField w 95 95 = 1 then .error .reservedBit
  else
    match decodeOperand (BitVec.ofNat 22 (slotField w 45 24)), decodeOperand (BitVec.ofNat 22 (slotField w 67 46)),
        decodeOperand (BitVec.ofNat 22 (slotField w 89 68)) with
    | some d, some a, some b =>
      match instrOf (slotField w 11 0) (slotField w 23 16) (decodeCtl w) d a b with
      | some i => if i.wellFormed then .ok i else .error .notAccepted
      | none => .error .unassigned
    | _, _, _ => .error .operandField

/-- The fields of R129 put together. -/
def packSlot (op m : Nat) (c : Ctl) (d a b : BitVec 22) : SlotWord :=
  BitVec.ofNat 96 (op % 2 ^ 12 + c.gpred.toNat * 2 ^ 12 + b2n c.gneg * 2 ^ 15 + m % 2 ^ 8 * 2 ^ 16 + d.toNat * 2 ^ 24
    + a.toNat * 2 ^ 46 + b.toNat * 2 ^ 68 + b2n c.switch * 2 ^ 90 + c.reuse.toNat * 2 ^ 91 + b2n c.yld * 2 ^ 93
    + b2n c.uniform * 2 ^ 94)

/-- The opcode of an instruction (R153 to R162); events have none and answer 0xFFF, which is no opcode. -/
def opcodeOf : Instr → Nat
  | .add _ w _ _ _ _ => 0x000 + w.code
  | .sub _ w _ _ _ _ => 0x004 + w.code
  | .mul _ w _ _ _ => 0x008 + w.code
  | .mulHiI _ w _ _ _ => 0x00C + w.code
  | .mulHiN _ w _ _ _ => 0x010 + w.code
  | .mad _ w _ _ _ => 0x014 + w.code
  | .minI _ w _ _ _ => 0x018 + w.code
  | .minN _ w _ _ _ => 0x01C + w.code
  | .maxI _ w _ _ _ => 0x020 + w.code
  | .maxN _ w _ _ _ => 0x024 + w.code
  | .shl _ w _ _ _ => 0x028 + w.code
  | .shrN _ w _ _ _ => 0x02C + w.code
  | .shrI _ w _ _ _ => 0x030 + w.code
  | .rol _ w _ _ _ => 0x034 + w.code
  | .lop3 _ w _ _ _ _ => 0x038 + w.code
  | .popc _ w _ _ _ => 0x03C + w.code
  | .clz _ w _ _ _ => 0x040 + w.code
  | .ctz _ w _ _ _ => 0x044 + w.code
  | .brev _ w _ _ _ => 0x048 + w.code
  | .bfeN _ w _ _ _ => 0x04C + w.code
  | .bfeI _ w _ _ _ => 0x050 + w.code
  | .bfi _ w _ _ _ => 0x054 + w.code
  | .lea _ w _ _ _ _ => 0x058 + w.code
  | .cmpI _ w _ _ _ _ => 0x05C + w.code
  | .cmpN _ w _ _ _ _ => 0x060 + w.code
  | .sel _ w _ _ _ _ _ => 0x064 + w.code
  | .mov _ w _ _ _ => 0x068 + w.code
  | .addFp _ fmt _ _ _ _ => 0x100 + fmt.code
  | .subFp _ fmt _ _ _ _ => 0x102 + fmt.code
  | .mulFp _ fmt _ _ _ _ => 0x104 + fmt.code
  | .fmaAcc _ fmt _ _ _ _ => 0x106 + fmt.code
  | .fmaHor _ fmt _ _ _ _ => 0x108 + fmt.code
  | .minFp _ _ _ _ _ => 0x10A
  | .maxFp _ _ _ _ _ => 0x10C
  | .cmpFp _ fmt _ _ _ _ _ => 0x10E + fmt.code
  | .classFp _ _ _ _ => 0x110
  | .addPkt _ sh _ _ _ _ _ => 0x200 + sh.code
  | .subPkt _ sh _ _ _ _ _ => 0x210 + sh.code
  | .mulPkt _ sh _ _ _ _ _ => 0x220 + sh.code
  | .fmaAccPkt _ sh _ _ _ _ _ => 0x230 + sh.code
  | .fmaHorPkt _ sh _ _ _ _ _ => 0x240 + sh.code
  | .minPkt _ sh _ _ _ _ _ => 0x250 + sh.code
  | .maxPkt _ sh _ _ _ _ _ => 0x260 + sh.code
  | .cmpPkt _ sh _ _ _ _ _ => 0x270 + sh.code
  | .dot _ sh _ _ _ _ _ => 0x280 + sh.code
  | .hsum _ sh _ _ _ _ _ => 0x290 + sh.code
  | .hmax _ sh _ _ _ _ _ => 0x2A0 + sh.code
  | .omse _ _ _ _ _ => 0x2B0
  | .pperm _ _ _ _ => 0x300
  | .plut _ _ _ _ _ _ => 0x301
  | .eshl _ _ _ _ _ => 0x302
  | .eshr _ _ _ _ _ => 0x303
  | .bcast _ _ _ _ _ => 0x304
  | .esel _ _ _ _ _ => 0x305
  | .eins _ _ _ _ _ => 0x306
  | .eext _ _ _ _ _ => 0x307
  | .specLerp _ _ _ _ _ => 0x310
  | .specCie _ _ _ _ _ _ => 0x311
  | .specMueller _ _ _ _ _ _ => 0x312
  | .prng _ _ _ _ _ => 0x320
  | .sfuRcp _ _ _ _ _ _ => 0x400
  | .sfuRsqrt _ _ _ _ _ _ => 0x401
  | .sfuSqrt _ _ _ _ _ _ => 0x402
  | .sfuExp2 _ _ _ _ _ _ => 0x403
  | .sfuLog2 _ _ _ _ _ _ => 0x404
  | .sfuSin _ _ _ _ _ _ => 0x405
  | .sfuCos _ _ _ _ _ _ => 0x406
  | .sfuTanh _ _ _ _ _ _ => 0x407
  | .sfuSigm _ _ _ _ _ _ => 0x408
  | .sfuErf _ _ _ _ _ _ => 0x409
  | .sfuGelu _ _ _ _ _ _ => 0x40A
  | .sfuSilu _ _ _ _ _ _ => 0x40B
  | .mxqE4M3 _ _ _ _ _ => 0x420
  | .mxqE5M2 _ _ _ _ _ => 0x421
  | .mxqE3M2 _ _ _ _ _ => 0x422
  | .mxqE2M3 _ _ _ _ _ => 0x423
  | .mxqE2M1 _ _ _ _ _ _ => 0x424
  | .mxqI8 _ _ _ _ _ => 0x425
  | .cvtScalar _ dst src _ _ _ _ => 0x440 + 8 * dst.code + src.code
  | .cvtPacket _ dst src _ _ _ _ _ => 0x480 + 8 * dst.code + src.code
  | .shfl _ _ _ _ _ _ => 0x500
  | .vote _ _ _ _ _ => 0x501
  | .matchV _ _ _ _ _ _ => 0x502
  | .scan _ _ _ _ _ _ => 0x503
  | .regroup _ _ _ _ => 0x504
  | .bra _ _ _ _ => 0x510
  | .brx _ _ _ _ => 0x511
  | .call _ _ _ _ => 0x512
  | .ret _ _ _ _ => 0x513
  | .loop _ _ _ _ => 0x514
  | .rep _ _ _ _ => 0x515
  | .exit _ _ _ _ => 0x516
  | .yield _ _ _ _ => 0x517
  | .nop _ _ _ _ => 0x518
  | .plop3 _ _ _ _ _ => 0x600
  | .pget _ _ _ _ => 0x602
  | .pset _ _ _ _ => 0x603
  | .racq _ _ _ _ => 0x610
  | .rrel _ _ _ _ => 0x611
  | .xset _ _ _ _ _ => 0x620
  | .xget _ _ _ _ _ => 0x621
  | .ld _ w _ _ _ => 0x700 + w.code
  | .st _ w _ _ _ => 0x708 + w.code
  | .atomExch _ _ _ _ _ _ _ => 0x710
  | .atomCas _ _ _ _ _ _ _ => 0x711
  | .atomAdd _ _ _ _ _ _ _ => 0x712
  | .atomMin _ _ _ _ _ _ _ => 0x713
  | .atomMax _ _ _ _ _ _ _ => 0x714
  | .atomAnd _ _ _ _ _ _ _ => 0x715
  | .atomOr _ _ _ _ _ _ _ => 0x716
  | .atomXor _ _ _ _ _ _ _ => 0x717
  | .stG _ w _ _ _ => 0x800 + w.code
  | .redGAdd _ _ _ _ _ _ _ => 0x810
  | .redGMin _ _ _ _ _ _ _ => 0x811
  | .redGMax _ _ _ _ _ _ _ => 0x812
  | .redGAnd _ _ _ _ _ _ _ => 0x813
  | .redGOr _ _ _ _ _ _ _ => 0x814
  | .redGXor _ _ _ _ _ _ _ => 0x815
  | .redGKahan _ _ _ _ _ _ _ => 0x816
  | .atomGExch _ _ _ _ _ _ _ => 0x820
  | .atomGCas _ _ _ _ _ _ _ => 0x821
  | .atomGAdd _ _ _ _ _ _ _ => 0x822
  | .redCommit _ _ _ _ _ _ => 0x830
  | .fence _ _ _ _ _ _ => 0x900
  | .barTeam _ _ _ _ => 0x910
  | .barPair _ _ _ _ => 0x911
  | .barClu _ _ _ _ => 0x912
  | .barSys _ _ _ _ _ => 0x913
  | .wait _ _ _ _ _ => 0x920
  | .qpush _ _ _ _ => 0x930
  | .qpop _ _ _ _ => 0x931
  | .jpostCopy _ _ _ _ _ => 0xA00
  | .jpostGather _ _ _ _ _ => 0xA01
  | .jpostMma _ _ _ _ _ => 0xA02
  | .jpostMmaGather _ _ _ _ _ => 0xA03
  | .jpostEpilogue _ _ _ _ _ => 0xA04
  | .jwait _ _ _ _ => 0xA10
  | .jtest _ _ _ _ => 0xA11
  | .jcancel _ _ _ _ => 0xA12
  | .hstore _ _ _ _ => 0xA13
  | .hload _ _ _ _ => 0xA14
  | .tacq _ _ _ _ => 0xA20
  | .trel _ _ _ _ => 0xA21
  | .tstat _ _ _ _ => 0xA22
  | .tld _ _ _ _ => 0xA23
  | .tst _ _ _ _ => 0xA24
  | .trace _ _ _ _ => 0xA30
  | .traceResume _ _ _ _ => 0xA31
  | .stex _ _ _ _ _ => 0xA38
  | .shcProbe _ _ _ _ => 0xA40
  | .shcFill _ _ _ _ => 0xA41
  | .collArm _ _ _ _ => 0xA50
  | .collReady _ _ _ _ => 0xA51
  | .dtime _ _ _ _ => 0xB00
  | .sysr _ _ _ _ => 0xB01
  | .sysw _ _ _ _ => 0xB02
  | .trap _ _ _ _ => 0xB10
  | .tret _ _ _ _ => 0xB11
  | .brk _ _ _ _ => 0xB12
  | .launch _ _ _ _ => 0xC00
  | .semWaitGe _ _ _ _ => 0xC01
  | .semSig _ _ _ _ _ => 0xC02
  | .ttrig _ _ _ _ => 0xC03
  | .intr _ _ _ _ => 0xC04
  | .qnext _ _ _ _ => 0xC05
  | .regroupDone _ => 0xFFF
  | .longResultReturn _ => 0xFFF
  | .laneRunLimit _ _ => 0xFFF
  | .activeTimeLimit _ _ => 0xFFF
  | .reliefCut _ _ => 0xFFF
  | .reliefCutEnd _ _ => 0xFFF
  | .racqGrant _ => 0xFFF
  | .groupEnd _ _ => 0xFFF
  | .teamPlacement _ => 0xFFF
  | .saveComplete _ => 0xFFF
  | .restoreComplete _ => 0xFFF
  | .stagingComplete _ => 0xFFF
  | .gridEnd _ => 0xFFF
  | .diePortWrite _ => 0xFFF
  | .waitPoll _ _ => 0xFFF
  | .queuePushArrival _ => 0xFFF
  | .queuePopArrival _ => 0xFFF
  | .homeSliceRequest _ => 0xFFF
  | .barSysPoll _ _ => 0xFFF
  | .requestAck _ => 0xFFF
  | .jobEnterQueue _ => 0xFFF
  | .jobIssue _ => 0xFFF
  | .shareComplete _ _ => 0xFFF
  | .jobFail _ _ _ => 0xFFF
  | .traceRecord _ _ _ _ => 0xFFF
  | .raySlotGrant _ => 0xFFF
  | .stexResult _ => 0xFFF
  | .shcRequestArrival _ => 0xFFF
  | .shcReserveExpiry _ _ _ => 0xFFF
  | .collFire _ _ => 0xFFF
  | .firingMessage _ _ => 0xFFF
  | .chunkArrival _ _ => 0xFFF
  | .collReplan _ _ _ => 0xFFF
  | .replanTimeout _ _ => 0xFFF
  | .firingTimeout _ _ => 0xFFF
  | .collAbortArrival _ _ _ => 0xFFF
  | .migrationPeriodEnd _ => 0xFFF
  | .moveSwitch _ => 0xFFF
  | .scrubPass _ _ => 0xFFF
  | .eccUncorrectable _ => 0xFFF
  | .parityError _ => 0xFFF
  | .refreshSubarray _ _ _ => 0xFFF
  | .mgmtHeartbeat _ _ => 0xFFF
  | .refreshTakeover _ => 0xFFF
  | .refreshAllBank _ => 0xFFF
  | .watchdogFire _ => 0xFFF
  | .serviceQuantumExpiry _ => 0xFFF
  | .ttrigTimeReached _ => 0xFFF
  | .kerfSample _ _ _ => 0xFFF
  | .thermalRecovery _ => 0xFFF
  | .emergencyTimeout _ => 0xFFF
  | .powerSensorSilent _ => 0xFFF
  | .dieIdle _ => 0xFFF
  | .powerGood => 0xFFF
  | .pcieLinkTrained _ => 0xFFF
  | .bootWaitTimer => 0xFFF
  | .bootStart _ _ => 0xFFF
  | .bootLength _ _ => 0xFFF
  | .bundleVerifyDone => 0xFFF
  | .loadingDone => 0xFFF
  | .bootGen _ _ => 0xFFF
  | .attestTrigger _ => 0xFFF
  | .attestReportReady _ => 0xFFF
  | .standbyEnter _ => 0xFFF
  | .standbyExit _ => 0xFFF
  | .portSemaphoreRead _ _ _ => 0xFFF
  | .portSemaphoreRelease _ _ _ => 0xFFF
  | .doorbell _ _ _ => 0xFFF
  | .queueEnable _ _ _ => 0xFFF
  | .queueDisable _ _ _ => 0xFFF
  | .queueProgWrite _ _ _ => 0xFFF
  | .ownerEntryWrite _ _ _ _ => 0xFFF
  | .migrationRead _ _ => 0xFFF
  | .migrationWrite _ _ => 0xFFF
  | .contextInvalidation _ _ => 0xFFF
  | .invalidationComplete => 0xFFF
  | .faultRetry _ _ _ => 0xFFF
  | .faultFail _ _ _ => 0xFFF
  | .rayDiscard _ _ => 0xFFF
  | .pairReopen _ _ => 0xFFF
  | .resyncArrival _ _ => 0xFFF
  | .timeSet _ _ => 0xFFF
  | .mgmtRegisterWrite _ _ _ => 0xFFF
  | .bar2Access _ _ => 0xFFF
  | .bar4Access _ _ => 0xFFF
  | .pcieAtomicOp _ _ => 0xFFF
  | .hostPortLost _ => 0xFFF
  | .portSemReleaseTimeout _ => 0xFFF
  | .ptpMessage _ _ => 0xFFF
  | .ppsInput => 0xFFF
  | .flitCrcError _ => 0xFFF
  | .laneSignalLoss _ => 0xFFF
  | .replayLimit _ => 0xFFF
  | .creditTimeout _ => 0xFFF
  | .portRetrain _ => 0xFFF
  | .portUp _ => 0xFFF
  | .portDegraded _ _ => 0xFFF
  | .e2eResendTimeout _ _ => 0xFFF
  | .suspectExpiry _ _ => 0xFFF
  | .e2eRequestArrival _ => 0xFFF
  | .e2eAckArrival _ _ _ => 0xFFF
  | .e2eBusyAnswer _ _ => 0xFFF
  | .unreachableAnswer _ _ => 0xFFF
  | .unreachableDeclare _ => 0xFFF
  | .contextTableWrite _ _ _ _ => 0xFFF
  | .portDisable _ _ _ => 0xFFF
  | .deferredFaultArrival _ => 0xFFF
  | .receiptAcknowledgement _ _ => 0xFFF
  | .reopenRetry => 0xFFF
  | .refreshEnd _ => 0xFFF
  | .powerOff => 0xFFF
  | .referenceInputChange _ => 0xFFF
  | .ppsOutputEdge => 0xFFF

/-- The modifier byte of an instruction (R138); events answer 0. -/
def modOf : Instr → Nat
  | .add _ _ sat _ _ _ => sat.code
  | .sub _ _ sat _ _ _ => sat.code
  | .mul _ _ _ _ _ => 0
  | .mulHiI _ _ _ _ _ => 0
  | .mulHiN _ _ _ _ _ => 0
  | .mad _ _ _ _ _ => 0
  | .minI _ _ _ _ _ => 0
  | .minN _ _ _ _ _ => 0
  | .maxI _ _ _ _ _ => 0
  | .maxN _ _ _ _ _ => 0
  | .shl _ _ _ _ _ => 0
  | .shrN _ _ _ _ _ => 0
  | .shrI _ _ _ _ _ => 0
  | .rol _ _ _ _ _ => 0
  | .lop3 _ _ tab _ _ _ => tab.toNat
  | .popc _ _ _ _ _ => 0
  | .clz _ _ _ _ _ => 0
  | .ctz _ _ _ _ _ => 0
  | .brev _ _ _ _ _ => 0
  | .bfeN _ _ _ _ _ => 0
  | .bfeI _ _ _ _ _ => 0
  | .bfi _ _ _ _ _ => 0
  | .lea _ _ k _ _ _ => k.toNat
  | .cmpI _ _ cond _ _ _ => cond.code
  | .cmpN _ _ cond _ _ _ => cond.code
  | .sel _ _ np k _ _ _ => 8 * b2n np + k.toNat
  | .mov _ _ _ _ _ => 0
  | .addFp _ _ m _ _ _ => m.code
  | .subFp _ _ m _ _ _ => m.code
  | .mulFp _ _ m _ _ _ => m.code
  | .fmaAcc _ _ m _ _ _ => m.code
  | .fmaHor _ _ m _ _ _ => m.code
  | .minFp _ ftzi _ _ _ => 8 * b2n ftzi
  | .maxFp _ ftzi _ _ _ => 8 * b2n ftzi
  | .cmpFp _ _ ftzi cond _ _ _ => 8 * b2n ftzi + cond.code
  | .classFp _ _ _ _ => 0
  | .addPkt _ _ lam m _ _ _ => 64 * b2n lam + m.code
  | .subPkt _ _ lam m _ _ _ => 64 * b2n lam + m.code
  | .mulPkt _ _ lam m _ _ _ => 64 * b2n lam + m.code
  | .fmaAccPkt _ _ lam m _ _ _ => 64 * b2n lam + m.code
  | .fmaHorPkt _ _ lam m _ _ _ => 64 * b2n lam + m.code
  | .minPkt _ _ lam m _ _ _ => 64 * b2n lam + m.code
  | .maxPkt _ _ lam m _ _ _ => 64 * b2n lam + m.code
  | .cmpPkt _ _ ftzi cond _ _ _ => 8 * b2n ftzi + cond.code
  | .dot _ _ lam m _ _ _ => 64 * b2n lam + m.code
  | .hsum _ _ lam m _ _ _ => 64 * b2n lam + m.code
  | .hmax _ _ lam m _ _ _ => 64 * b2n lam + m.code
  | .omse _ lam _ _ _ => 64 * b2n lam
  | .pperm _ _ _ _ => 0
  | .plut _ half hi _ _ _ => 2 * b2n half + b2n hi
  | .eshl _ ew _ _ _ => 64 * ew.code
  | .eshr _ ew _ _ _ => 64 * ew.code
  | .bcast _ ew _ _ _ => 64 * ew.code
  | .esel _ ew _ _ _ => 64 * ew.code
  | .eins _ ew _ _ _ => 64 * ew.code
  | .eext _ ew _ _ _ => 64 * ew.code
  | .specLerp _ m _ _ _ => m.code
  | .specCie _ obs64 m _ _ _ => 64 * b2n obs64 + m.code
  | .specMueller _ k m _ _ _ => 64 * k.toNat + m.code
  | .prng _ shape _ _ _ => 64 * shape.code
  | .sfuRcp _ v m _ _ _ => 64 * v.code + m.code
  | .sfuRsqrt _ v m _ _ _ => 64 * v.code + m.code
  | .sfuSqrt _ v m _ _ _ => 64 * v.code + m.code
  | .sfuExp2 _ v m _ _ _ => 64 * v.code + m.code
  | .sfuLog2 _ v m _ _ _ => 64 * v.code + m.code
  | .sfuSin _ v m _ _ _ => 64 * v.code + m.code
  | .sfuCos _ v m _ _ _ => 64 * v.code + m.code
  | .sfuTanh _ v m _ _ _ => 64 * v.code + m.code
  | .sfuSigm _ v m _ _ _ => 64 * v.code + m.code
  | .sfuErf _ v m _ _ _ => 64 * v.code + m.code
  | .sfuGelu _ v m _ _ _ => 64 * v.code + m.code
  | .sfuSilu _ v m _ _ _ => 64 * v.code + m.code
  | .mxqE4M3 _ m _ _ _ => m.code
  | .mxqE5M2 _ m _ _ _ => m.code
  | .mxqE3M2 _ m _ _ _ => m.code
  | .mxqE2M3 _ m _ _ _ => m.code
  | .mxqE2M1 _ half m _ _ _ => 64 * b2n half + m.code
  | .mxqI8 _ m _ _ _ => m.code
  | .cvtScalar _ _ _ m _ _ _ => m.code
  | .cvtPacket _ _ _ part m _ _ _ => 64 * part.toNat + m.code
  | .shfl _ size mode _ _ _ => 4 * size.code + mode.code
  | .vote _ mode _ _ _ => mode.code
  | .matchV _ b64 mode _ _ _ => 4 * b2n b64 + mode.code
  | .scan _ excl op _ _ _ => 8 * b2n excl + op.code
  | .regroup _ _ _ _ => 0
  | .bra _ _ _ _ => 0
  | .brx _ _ _ _ => 0
  | .call _ _ _ _ => 0
  | .ret _ _ _ _ => 0
  | .loop _ _ _ _ => 0
  | .rep _ _ _ _ => 0
  | .exit _ _ _ _ => 0
  | .yield _ _ _ _ => 0
  | .nop _ _ _ _ => 0
  | .plop3 _ tab _ _ _ => tab.toNat
  | .pget _ _ _ _ => 0
  | .pset _ _ _ _ => 0
  | .racq _ _ _ _ => 0
  | .rrel _ _ _ _ => 0
  | .xset _ mode _ _ _ => mode.code
  | .xget _ fld _ _ _ => fld.code
  | .ld _ _ _ _ _ => 0
  | .st _ _ _ _ _ => 0
  | .atomExch _ ord sc ty _ _ _ => 64 * ord.code + 8 * sc.code + ty.code
  | .atomCas _ ord sc ty _ _ _ => 64 * ord.code + 8 * sc.code + ty.code
  | .atomAdd _ ord sc ty _ _ _ => 64 * ord.code + 8 * sc.code + ty.code
  | .atomMin _ ord sc ty _ _ _ => 64 * ord.code + 8 * sc.code + ty.code
  | .atomMax _ ord sc ty _ _ _ => 64 * ord.code + 8 * sc.code + ty.code
  | .atomAnd _ ord sc ty _ _ _ => 64 * ord.code + 8 * sc.code + ty.code
  | .atomOr _ ord sc ty _ _ _ => 64 * ord.code + 8 * sc.code + ty.code
  | .atomXor _ ord sc ty _ _ _ => 64 * ord.code + 8 * sc.code + ty.code
  | .stG _ _ _ _ _ => 0
  | .redGAdd _ ord sc ty _ _ _ => 64 * ord.code + 8 * sc.code + ty.code
  | .redGMin _ ord sc ty _ _ _ => 64 * ord.code + 8 * sc.code + ty.code
  | .redGMax _ ord sc ty _ _ _ => 64 * ord.code + 8 * sc.code + ty.code
  | .redGAnd _ ord sc ty _ _ _ => 64 * ord.code + 8 * sc.code + ty.code
  | .redGOr _ ord sc ty _ _ _ => 64 * ord.code + 8 * sc.code + ty.code
  | .redGXor _ ord sc ty _ _ _ => 64 * ord.code + 8 * sc.code + ty.code
  | .redGKahan _ ord sc ty _ _ _ => 64 * ord.code + 8 * sc.code + ty.code
  | .atomGExch _ ord sc ty _ _ _ => 64 * ord.code + 8 * sc.code + ty.code
  | .atomGCas _ ord sc ty _ _ _ => 64 * ord.code + 8 * sc.code + ty.code
  | .atomGAdd _ ord sc ty _ _ _ => 64 * ord.code + 8 * sc.code + ty.code
  | .redCommit _ ord sc _ _ _ => 64 * ord.code + 8 * sc.code
  | .fence _ ord sc _ _ _ => 64 * ord.code + 8 * sc.code
  | .barTeam _ _ _ _ => 0
  | .barPair _ _ _ _ => 0
  | .barClu _ _ _ _ => 0
  | .barSys _ rel _ _ _ => 128 * b2n rel
  | .wait _ cmp _ _ _ => cmp.code
  | .qpush _ _ _ _ => 0
  | .qpop _ _ _ _ => 0
  | .jpostCopy _ ordered _ _ _ => b2n ordered
  | .jpostGather _ ordered _ _ _ => b2n ordered
  | .jpostMma _ ordered _ _ _ => b2n ordered
  | .jpostMmaGather _ ordered _ _ _ => b2n ordered
  | .jpostEpilogue _ ordered _ _ _ => b2n ordered
  | .jwait _ _ _ _ => 0
  | .jtest _ _ _ _ => 0
  | .jcancel _ _ _ _ => 0
  | .hstore _ _ _ _ => 0
  | .hload _ _ _ _ => 0
  | .tacq _ _ _ _ => 0
  | .trel _ _ _ _ => 0
  | .tstat _ _ _ _ => 0
  | .tld _ _ _ _ => 0
  | .tst _ _ _ _ => 0
  | .trace _ _ _ _ => 0
  | .traceResume _ _ _ _ => 0
  | .stex _ v _ _ _ => v.code
  | .shcProbe _ _ _ _ => 0
  | .shcFill _ _ _ _ => 0
  | .collArm _ _ _ _ => 0
  | .collReady _ _ _ _ => 0
  | .dtime _ _ _ _ => 0
  | .sysr _ _ _ _ => 0
  | .sysw _ _ _ _ => 0
  | .trap _ _ _ _ => 0
  | .tret _ _ _ _ => 0
  | .brk _ _ _ _ => 0
  | .launch _ _ _ _ => 0
  | .semWaitGe _ _ _ _ => 0
  | .semSig _ set _ _ _ => b2n set
  | .ttrig _ _ _ _ => 0
  | .intr _ _ _ _ => 0
  | .qnext _ _ _ _ => 0
  | .regroupDone _ => 0
  | .longResultReturn _ => 0
  | .laneRunLimit _ _ => 0
  | .activeTimeLimit _ _ => 0
  | .reliefCut _ _ => 0
  | .reliefCutEnd _ _ => 0
  | .racqGrant _ => 0
  | .groupEnd _ _ => 0
  | .teamPlacement _ => 0
  | .saveComplete _ => 0
  | .restoreComplete _ => 0
  | .stagingComplete _ => 0
  | .gridEnd _ => 0
  | .diePortWrite _ => 0
  | .waitPoll _ _ => 0
  | .queuePushArrival _ => 0
  | .queuePopArrival _ => 0
  | .homeSliceRequest _ => 0
  | .barSysPoll _ _ => 0
  | .requestAck _ => 0
  | .jobEnterQueue _ => 0
  | .jobIssue _ => 0
  | .shareComplete _ _ => 0
  | .jobFail _ _ _ => 0
  | .traceRecord _ _ _ _ => 0
  | .raySlotGrant _ => 0
  | .stexResult _ => 0
  | .shcRequestArrival _ => 0
  | .shcReserveExpiry _ _ _ => 0
  | .collFire _ _ => 0
  | .firingMessage _ _ => 0
  | .chunkArrival _ _ => 0
  | .collReplan _ _ _ => 0
  | .replanTimeout _ _ => 0
  | .firingTimeout _ _ => 0
  | .collAbortArrival _ _ _ => 0
  | .migrationPeriodEnd _ => 0
  | .moveSwitch _ => 0
  | .scrubPass _ _ => 0
  | .eccUncorrectable _ => 0
  | .parityError _ => 0
  | .refreshSubarray _ _ _ => 0
  | .mgmtHeartbeat _ _ => 0
  | .refreshTakeover _ => 0
  | .refreshAllBank _ => 0
  | .watchdogFire _ => 0
  | .serviceQuantumExpiry _ => 0
  | .ttrigTimeReached _ => 0
  | .kerfSample _ _ _ => 0
  | .thermalRecovery _ => 0
  | .emergencyTimeout _ => 0
  | .powerSensorSilent _ => 0
  | .dieIdle _ => 0
  | .powerGood => 0
  | .pcieLinkTrained _ => 0
  | .bootWaitTimer => 0
  | .bootStart _ _ => 0
  | .bootLength _ _ => 0
  | .bundleVerifyDone => 0
  | .loadingDone => 0
  | .bootGen _ _ => 0
  | .attestTrigger _ => 0
  | .attestReportReady _ => 0
  | .standbyEnter _ => 0
  | .standbyExit _ => 0
  | .portSemaphoreRead _ _ _ => 0
  | .portSemaphoreRelease _ _ _ => 0
  | .doorbell _ _ _ => 0
  | .queueEnable _ _ _ => 0
  | .queueDisable _ _ _ => 0
  | .queueProgWrite _ _ _ => 0
  | .ownerEntryWrite _ _ _ _ => 0
  | .migrationRead _ _ => 0
  | .migrationWrite _ _ => 0
  | .contextInvalidation _ _ => 0
  | .invalidationComplete => 0
  | .faultRetry _ _ _ => 0
  | .faultFail _ _ _ => 0
  | .rayDiscard _ _ => 0
  | .pairReopen _ _ => 0
  | .resyncArrival _ _ => 0
  | .timeSet _ _ => 0
  | .mgmtRegisterWrite _ _ _ => 0
  | .bar2Access _ _ => 0
  | .bar4Access _ _ => 0
  | .pcieAtomicOp _ _ => 0
  | .hostPortLost _ => 0
  | .portSemReleaseTimeout _ => 0
  | .ptpMessage _ _ => 0
  | .ppsInput => 0
  | .flitCrcError _ => 0
  | .laneSignalLoss _ => 0
  | .replayLimit _ => 0
  | .creditTimeout _ => 0
  | .portRetrain _ => 0
  | .portUp _ => 0
  | .portDegraded _ _ => 0
  | .e2eResendTimeout _ _ => 0
  | .suspectExpiry _ _ => 0
  | .e2eRequestArrival _ => 0
  | .e2eAckArrival _ _ _ => 0
  | .e2eBusyAnswer _ _ => 0
  | .unreachableAnswer _ _ => 0
  | .unreachableDeclare _ => 0
  | .contextTableWrite _ _ _ _ => 0
  | .portDisable _ _ _ => 0
  | .deferredFaultArrival _ => 0
  | .receiptAcknowledgement _ _ => 0
  | .reopenRetry => 0
  | .refreshEnd _ => 0
  | .powerOff => 0
  | .referenceInputChange _ => 0
  | .ppsOutputEdge => 0

/-- The slot of an instruction. Defined on every constructor; the words are an instruction's only for a well-formed one that is no
event (`Instr.encodable`). -/
def encode (i : Instr) : SlotWord :=
  let o := Roles.opsOf i
  packSlot (opcodeOf i) (modOf i) (Roles.ctlOf i) (encodeOperand o.1) (encodeOperand o.2.1) (encodeOperand o.2.2)

/-- Well-formed and no event: the instructions that a slot holds. -/
def Instr.encodable (i : Instr) : Bool := i.wellFormed && !Roles.isEvent i

/-- The instruction this decoder reads from bits numbered as the opcode table numbers them: a slot is 96 bits, its words stored
little-endian in order (R129), so a shorter row is the low bits of a slot. -/
def decodeTableWord (_nbits w : Nat) : Option Instr :=
  match decode (BitVec.ofNat 96 w) with
  | .ok i => some i
  | .error _ => none

end Sys2Proof
end

