-- ==== Sys2Proof/Machine/Report.lean ====
section
/-! DEFINITION. Error records, logs and notices (R397 to R401), and context errors with the halt of a context (R394, R395). -/

namespace Sys2Proof.Machine

/-- The sixteen words of a record (R397), with its seq and the overflow flag. -/
def ErrRec.words (r : ErrRec) (d : Dev) (seq : Nat) (overflow : Bool) : List Nat :=
  let slice := r.slice.getD (0, 0)
  [d.secs % 2 ^ 48,
    d.nanos * 2 ^ 32 + d.frac * 2 ^ 16,
    r.kind * 2 ^ 60 + r.index * 2 ^ 48 + seq % 2 ^ 32,
    r.cls * 2 ^ 56 + r.sev * 2 ^ 54 + b2n r.queue.isSome * 2 ^ 53 + b2n r.slice.isSome * 2 ^ 52 + b2n r.unhandled * 2 ^ 51
      + b2n overflow * 2 ^ 50 + r.ctx.getD 0,
    slice.1 * 2 ^ 57 + slice.2,
    r.ltag % 2 ^ 64, r.ltag / 2 ^ 64 % 2 ^ 32,
    r.stamp.toNat,
    r.addr,
    r.pc * 2 ^ 32 + r.queue.getD 0,
    r.team * 2 ^ 32 + r.tid,
    r.d0, r.d1, r.d2, r.d3,
    2 ^ 63]

/-- A record placed in the global log (R398 to R400): when the log is full it is lost and counted. -/
def placeGlobal (d : Dev) (ws : List Nat) : Dev :=
  if 512 ≤ (d.gwr + 2 ^ 32 - d.grd) % 2 ^ 32 then { d with gdropped := (d.gdropped + 1) % 2 ^ 32 }
  else
    let base := d.gwr % 512 * 16
    let log := (ws.zip (List.range 16)).foldl (fun l p => AMap.set 0 l (base + p.2) (BitVec.ofNat 64 p.1)) d.glog
    let d := { d with glog := log, gwr := (d.gwr + 1) % 2 ^ 32 }
    let d := if bitOf d.garmed 0 then d.notify (.msi 0 0 d.gvec0) else d
    let d := if bitOf d.garmed 1 then d.notify (.msi 1 0 d.gvec1) else d
    { d with garmed := 0 }

/-- The words 0 to `n` - 1 of a part of a context's log, when the part can read and write each of them (R400). -/
def logWords (ctx base : Nat) : Nat → Dev → Option (List Nat) × Dev
  | 0, d => (some [], d)
  | n + 1, d =>
    match logWords ctx base n d with
    | (none, d) => (none, d)
    | (some l, d) =>
      match partRead d ctx (base + 8 * n) 8 with
      | (none, d) => (none, d)
      | (some w, d) => (if leafWritable d ctx (base + 8 * n) then some (l ++ [w]) else none, d)

/-- Writes of a list of 8-byte words at a glob address through a context's translation; false as soon as one fails. -/
def partWriteWords (ctx : Nat) : List Nat → Nat → Dev → Bool × Dev
  | [], _, d => (true, d)
  | w :: r, a, d =>
    let (ok, d') := partWrite d ctx a 8 w
    if ok then partWriteWords ctx r (a + 8) d' else (false, d')

/-- The function and port that own a queue (R310, R328). -/
def queueOwner (d : Dev) (q : Nat) (deflt : Queue) : Nat × Nat :=
  let w := (AMap.get deflt d.queues q).w0.toNat
  (field w 51 51, field w 50 45)

def Dev.queue (d : Dev) (q : Nat) : Queue := AMap.get Queue.blank d.queues q
def Dev.setQueue (d : Dev) (q : Nat) (v : Queue) : Dev := { d with queues := AMap.set Queue.blank d.queues q v }

/-- Whether a context's log takes a record (R399, R400): the words of its header, and whether a place is free in it. -/
inductive LogPlace where
  /-- no header that the part can read and write -/
  | none
  /-- a header, and no place for the record: it is counted in the header's word 2 -/
  | full (w2 : Nat)
  /-- a slot at this address that the part can read and write, with words 0, 2 and 3 of the header -/
  | slot (addr w0 w2 w3 : Nat)
  deriving DecidableEq, Repr

/-- The place that the log at `base` has for a record. -/
def logPlace (d : Dev) (c base : Nat) : LogPlace × Dev :=
  if base = 0 then (.none, d)
  else
    match logWords c base 4 d with
    | (some [w0, w1, w2, w3], d) =>
      let size := field w2 3 0
      let wr := w0 % 2 ^ 32
      if size < 4 || 2 ^ size ≤ (wr + 2 ^ 32 - w1 % 2 ^ 32) % 2 ^ 32 then (.full w2, d)
      else
        let at_ := base + 128 + 128 * (wr % 2 ^ size)
        match logWords c at_ 16 d with
        | (some _, d) => (.slot at_ w0 w2 w3, d)
        | (none, d) => (.full w2, d)
    | (_, d) => (.none, d)

/-- log_base of a context for a record: as the launch of its grid found it, else as it stands (R322). -/
def logBase (d : Dev) (c : Nat) (grid : Option Nat) : Nat :=
  match grid.bind fun g => (d.grids.find? fun x => x.id == g).bind fun x => x.entry[4]? with
  | some w => w.toNat
  | none => (ctxWord d c 4).toNat

/-- A record that a context's log does not take, counted in its header (R400). -/
def countDropped (d : Dev) (c base w2 : Nat) : Dev := (partWrite d c (base + 16) 8 (putField w2 63 32 (field w2 63 32 + 1))).2

/-- A record put in a context's log: its words, word 15 last, then the count, then the message of an armed log (R399, R401). A log whose
words the part turns out not to be able to write is not usable (R400). -/
def placeContext (d : Dev) (r : ErrRec) (c base seq at_ w0 w2 w3 : Nat) : Dev :=
  match partWriteWords c (r.words d seq false) at_ d with
  | (false, d) => placeGlobal (countDropped d c base w2) (r.words d seq true)
  | (true, d) =>
    let (ok, d) := partWrite d c base 8 ((w0 + 1) % 2 ^ 32)
    if !ok then placeGlobal (countDropped d c base w2) (r.words d seq true)
    else if bitOf w2 31 then
      let (_, d) := partWrite d c (base + 16) 8 (putField w2 31 31 0)
      let own := match r.queue with
        | some q => queueOwner d q Queue.blank
        | none => (field w3 17 17, field w3 16 11)
      d.notify (.msi own.1 own.2 (field w3 10 0))
    else d

/-- A record made: numbered by its source and placed by R399 and R400. -/
def report (d : Dev) (r : ErrRec) : Dev :=
  let k := r.kind * 4096 + r.index
  let seq := AMap.get 0 d.recSeq k
  let d := { d with recSeq := AMap.set 0 d.recSeq k ((seq + 1) % 2 ^ 32) }
  match r.ctx with
  | none => placeGlobal d (r.words d seq false)
  | some c =>
    if r.sev = 3 then placeGlobal d (r.words d seq false)
    else
      let base := logBase d c r.grid
      match logPlace d c base with
      | (.none, d) => placeGlobal d (r.words d seq true)
      | (.full w2, d) => placeGlobal (countDropped d c base w2) (r.words d seq true)
      | (.slot at_ w0 w2 w3, d) => placeContext d r c base seq at_ w0 w2 w3

/-- One more occurrence of a record that a unit makes at most once a millisecond (R428, R447, R448, R464): counted, and made when a
millisecond has passed since the last one (DEDUCED, log 25). `first` keeps the first value since the last record, else the last one stands. -/
def rateNote (d : Dev) (cls unit n value extra : Nat) (first : Bool) (mk : Rate → ErrRec) : Dev :=
  let k := cls * 4096 + unit
  let r := AMap.get Rate.blank d.rates k
  let r := { r with
    count := r.count + n
    value := if first && r.count != 0 then r.value else value
    extra := if first && r.count != 0 then r.extra else extra }
  let due := match r.at_ with | some c => decide (c + 4000000 ≤ d.cycle) | none => true
  if due then report { d with rates := AMap.set Rate.blank d.rates k { Rate.blank with at_ := some d.cycle } } (mk r)
  else { d with rates := AMap.set Rate.blank d.rates k r }

/-! ## Halting a context (R395) -/

/-- A contribution that a slice holds, applied (R216, R437); its record where the word is poisoned names the slice. -/
def applyHeldOne (d : Dev) (c : Contribution) : Dev :=
  contribute (recallLine d (lineOf c.addr)) c.addr c.op c.ty c.value
    { cls := 0, sev := 0, kind := 3, index := sliceAt c.addr, ctx := some c.ctx, grid := c.grid, slice := some (sliceAt c.addr, c.tag)
      ltag := c.ltag, stamp := c.stamp }

/-- Held contributions of a context applied by every slice as commits would (R437), with one 0x4E record for each slice. -/
def applyHeld (d : Dev) (ctx : Nat) : Dev :=
  let mine := sortBy (·.ltag) (d.contribs.filter fun c => c.ctx == ctx)
  let d := mine.foldl applyHeldOne { d with contribs := d.contribs.filter fun c => c.ctx != ctx }
  (List.range Config.slices).foldl (fun d s =>
    let n := (mine.filter fun c => sliceAt c.addr == s).length
    if n = 0 then d else report d { cls := 0x4E, sev := 0, kind := 3, index := s, ctx := some ctx, d0 := n }) d

/-- The edges from a job released: each successor loses the predecessor, and is ready when it was the last; `root` is the handle of
the failure that the edges carry (R287, R440). -/
def Join.release (j : Join) (seq : Nat) (root : Option Nat) : Join :=
  { j with jobs := j.jobs.map fun b =>
      if b.preds.contains seq then
        let p := b.preds.filter (· != seq)
        let r := match b.failedRoot with | some h => some h | none => root
        { b with preds := p, failedRoot := r, state := if b.state == .waiting && p.isEmpty && r.isNone then .ready else b.state }
      else b }

/-- A job that has not issued. -/
def Job.unissued (j : Job) : Bool := j.state == .waiting || j.state == .ready

/-- A job of the queue that has not issued becomes cancelled, its edges released as completions (R259, R395). -/
def Join.cancel (j : Join) (seq : Nat) : Join :=
  if j.jobs.any fun b => b.seq == seq && b.unissued then
    Join.release { j with jobs := j.jobs.map fun b => if b.seq == seq && b.unissued then { b with state := .cancelled } else b } seq none
  else j

/-- A queue stopped: at once when parked, else at its next park (R310). A thread stopped at a park retries its instruction when it is
enabled again, a `launch` too. -/
def Queue.stop (q : Queue) : Queue :=
  let w := BitVec.ofNat 64 (putField q.w0.toNat 63 63 0)
  if !bitOf q.w0.toNat 63 then q
  else if q.wait == .none then { q with w0 := w, stopping := true }
  else { q with w0 := w, wait := .none }

/-- A resident team of a halted context stops where it stands (R395): nothing of it issues, and what it sent completes. -/
def Team.halt (t : Team) : Team :=
  { t with stat := .halting, save := none, bars := [], gather := none, waits := [], held := false
           groups := t.groups.map fun g => { g with active := none, laneNo := none, since := none, block := none, cut := none, fetchWait := [] } }

/-- What stood for a context in the units is given up as it halts (R395, R446): its queues, barriers, watched words, queue waits, rays,
shading-cache and collective entries, and its jobs that have not issued. -/
def dropContext (d : Dev) (ctx : Nat) : Dev :=
  let mine := (d.teams.filter fun t => t.ctx == ctx).map (·.id)
  let rays := d.rays.filter fun r => r.ctx == ctx
  { d with
    queues := d.queues.map fun q => (q.1, if field q.2.w0.toNat 44 35 = ctx then q.2.stop else q.2)
    racq := d.racq.filter fun r => !mine.contains r.2.1
    bars := d.bars.filter fun b => b.ctx != ctx
    barWait := d.barWait.filter fun r => !mine.contains r.team
    watch := d.watch.filter fun v => match v.who with
      | .thread t _ => !mine.contains t.team
      | .queue q => field (d.queue q).w0.toNat 44 35 != ctx
      | _ => true
    qops := d.qops.filter fun q => !(q.waiting && mine.contains q.who.team)
    results := d.results.filter fun x => !rays.any fun r => r.result == some x.id
    rays := d.rays.filter fun r => r.ctx != ctx
    shc := d.shc.filter fun e => e.ctx != ctx
    entries := d.entries.foldl (fun m e =>
      if e.1 % 8 = 0 && bitOf e.2.toNat 63 && field e.2.toNat 60 51 == ctx then
        AMap.set 0 m e.1 (BitVec.ofNat 64 (putField e.2.toNat 63 61 0))
      else m) d.entries
    cards := d.cards.map fun c => if c.job.ctx = ctx then { c with job := { c.job with cancelAsked := true } } else c
    joins := d.joins.map fun j => (j.1, (j.2.jobs.filter fun b => b.ctx == ctx).foldl (fun q b => q.cancel b.seq) j.2) }

/-- R395, steps 1 to 6. Resident teams stop; they are freed when what they sent has completed (`freeHalted`). Saved teams are freed at
once. -/
def haltContext (d : Dev) (ctx : Nat) : Dev :=
  let w := BitVec.ofNat 64 (putField (ctxWord d ctx 0).toNat 63 63 0)
  let d := dropContext d ctx
  let d := { d with
    ctxs := AMap.set 0 d.ctxs (ctx * 8) w
    teams := (d.teams.filter fun t => t.ctx != ctx || t.stat != .saved).map fun t => if t.ctx = ctx then t.halt else t
    grids := d.grids.filter fun g => g.ctx != ctx }
  applyHeld (mergePartials d fun p => p.ctx == ctx) ctx

/-- Whether anything of a context still runs: its entry is valid, a grid of it is in flight, a team of it is not yet stopped, or a queue of
it is enabled. -/
def ctxRuns (d : Dev) (c : Nat) : Bool :=
  bitOf (ctxWord d c 0).toNat 63 || (d.grids.any fun g => g.ctx == c) || (d.teams.any fun t => t.ctx == c && t.stat != .halting)
    || d.queues.any fun q => field q.2.w0.toNat 44 35 == c && bitOf q.2.w0.toNat 63

/-- A context error (R394): its record, and the halt of the context where anything of it still runs. -/
def contextError (d : Dev) (r : ErrRec) : Dev :=
  let d := report d { r with sev := 2 }
  match r.ctx with
  | some c => if ctxRuns d c then haltContext d c else d
  | none => d

/-- The context errors and records that applied contributions owe (R429, R433), made. -/
def settleOwed (d : Dev) : Dev :=
  d.owed.foldl (fun d r => if r.sev = 2 then contextError d r else report d r) { d with owed := [] }

/-! ## Reads of the part that may fault (R419 to R422, R429) -/

/-- Whether a side log holds entries of a context's page (R425). -/
def sideBlocked (d : Dev) (ctx va : Nat) : Bool := d.side.any fun e => e.access.ctx == ctx && e.page == va / 4096

/-- A class 0x40 record and the note that the page's fault waits (R420, R422). -/
def pageFaultRecord (d : Dev) (ctx va level reason need source : Nat) (e : DWord) (base : ErrRec) : Dev :=
  if d.faulted.contains (ctx, va / 4096) then d
  else
    report { d with faulted := d.faulted ++ [(ctx, va / 4096)] }
      { base with
        cls := 0x40, sev := 1, ctx := some ctx, addr := va,
        d0 := reason * 256 + (need % 2 * 16 + need / 2 % 2 * 32 + need / 4 * 64) + source,
        d1 := level, d2 := if reason = 2 ∨ reason = 3 then 0 else e.toNat }

/-- Whether a read of `n` bytes at a glob address would return poisoned data. -/
def globPoisoned (d : Dev) (ctx va n : Nat) : Bool :=
  match walk d ctx va needR with
  | .leaf e _ size => match targetOf e va size with | .phys pa => frameOk d pa && physPoisoned d pa n | _ => false
  | _ => false

/-- An 8-byte read of the part for some source: a page fault is recorded, and the source waits for host software; a translation fault or
poison is a context error; `base` names who reads. A read of a package whose pair is closed comes again, without a record (DESIGN CHOICE,
log 125). -/
def readOrFault (d : Dev) (ctx va source : Nat) (base : ErrRec) : Option Nat × Dev :=
  if sideBlocked d ctx va then (none, d)
  else
    match walk d ctx va needR with
    | .pageFault l r e => (none, pageFaultRecord d ctx va l r needR source e base)
    | .bad => (none, contextError d { base with cls := 0x41, sev := 2, addr := va })
    | .leaf e _ size =>
      match targetOf e va size with
      | .phys pa =>
        if !frameOk d pa then (none, pageFaultRecord d ctx va 5 2 needR source 0 base)
        else if physPoisoned d pa 8 then (none, contextError d { base with cls := 0x44, sev := 2, addr := va })
        else partRead d ctx va 8
      | .host port a =>
        if d.isLost port then (none, contextError d { base with cls := 0x44, sev := 2, addr := va })
        else
          match atsAsk d port a with
          | (some x, d) => (some (Memory.readN d.host (hostKey port x) 8), d)
          | (none, d) => (none, pageFaultRecord d ctx va 6 3 needR source 0 base)
      | .remote slot _ =>
        if (endpointEntry d ctx slot).isNone then (none, contextError d { base with cls := 0x41, sev := 2, addr := va })
        else partRead d ctx va 8

end Sys2Proof.Machine
end

