-- ==== Sys2Proof/Machine/Ops.lean ====
section
/-! DEFINITION. The named operations over teams, groups, threads and their slots (R16 to R58), the group stack (R84), taking a trap
and returning from one (R386 to R393). -/

namespace Sys2Proof.Machine

/-! ## Finding and changing teams, groups and threads -/

def Dev.team? (d : Dev) (id : Nat) : Option Team := d.teams.find? fun t => t.id == id

/-- The team `id` changed by `f`. -/
def Dev.mapTeam (d : Dev) (id : Nat) (f : Team → Team) : Dev :=
  { d with teams := d.teams.map fun t => if t.id = id then f t else t }

def Team.group? (t : Team) (gid : Nat) : Option Group := t.groups.find? fun g => g.gid == gid

def Team.mapGroup (t : Team) (gid : Nat) (f : Group → Group) : Team :=
  { t with groups := t.groups.map fun g => if g.gid = gid then f g else g }

def Dev.group? (d : Dev) (team gid : Nat) : Option Group := (d.team? team).bind fun t => t.group? gid

def Dev.mapGroup (d : Dev) (team gid : Nat) (f : Group → Group) : Dev := d.mapTeam team fun t => t.mapGroup gid f

def Group.thread? (g : Group) (tid : Nat) : Option Thread := g.threads.find? fun h => h.tid == tid
def Group.atLane? (g : Group) (lane : Nat) : Option Thread := g.threads.find? fun h => h.lane == lane

def Group.mapThread (g : Group) (tid : Nat) (f : Thread → Thread) : Group :=
  { g with threads := g.threads.map fun h => if h.tid = tid then f h else h }

def Dev.thread? (d : Dev) (r : TRef) : Option Thread := (d.group? r.team r.gid).bind fun g => g.thread? r.tid

def Dev.mapThread (d : Dev) (r : TRef) (f : Thread → Thread) : Dev :=
  d.mapGroup r.team r.gid fun g => g.mapThread r.tid f

/-- A thread found by its index in its team: `regroup` changes its group (R35). -/
def Dev.threadOf? (d : Dev) (team tid : Nat) : Option (Nat × Thread) :=
  (d.team? team).bind fun t => t.groups.findSome? fun g => (g.thread? tid).map fun h => (g.gid, h)

/-- A thread's reference as it stands now. -/
def Dev.refNow (d : Dev) (r : TRef) : TRef :=
  match d.threadOf? r.team r.tid with
  | some (g, _) => { r with gid := g }
  | none => r

def Dev.grid? (d : Dev) (id : Nat) : Option Grid := d.grids.find? fun g => g.id == id

def Dev.mapGrid (d : Dev) (id : Nat) (f : Grid → Grid) : Dev :=
  { d with grids := d.grids.map fun g => if g.id = id then f g else g }

/-- Word `i` of the context-table entry as the team's launch found it (R322). -/
def ctxAt (d : Dev) (t : Team) (i : Nat) : DWord :=
  match (d.grid? t.grid).bind fun g => g.entry[i]? with
  | some w => w
  | none => ctxWord d t.ctx i

/-- The team's linear index, c3 of R70: x + X·(y + Y·z). -/
def linearIndex (d : Dev) (t : Team) : Nat :=
  match d.grid? t.grid with
  | some g => t.tx + g.gx * (t.ty + g.gy * t.tz)
  | none => t.tx

/-! ## Register slots and the forwarding window (R42, R46, R53, R54) -/

/-- Slots of the architectural allocation A (R46). -/
def allocSlots (k : Kernel) (g : Group) : Nat := k.base + 64 * g.units

/-- The value a list of slot writes leaves in a slot: the last one. -/
def lastWrite (s : Nat) : List (Nat × Word) → Option Word
  | [] => none
  | p :: r =>
    match lastWrite s r with
    | some v => some v
    | none => if p.1 = s then some p.2 else none

/-- The newest window value of a slot. -/
def winLookup (s : Nat) : List WinEntry → Option Word
  | [] => none
  | e :: r =>
    match winLookup s r with
    | some v => some v
    | none => lastWrite s e.slots

/-- A slot as the owning thread reads it directly: from its window while that holds the slot, else from the bank (R58). -/
def Thread.slot (h : Thread) (s : Nat) : Word := (winLookup s h.win).getD (AMap.get 0 h.bank s)

/-- `n` slots from `s`, slot s lowest, as one number. -/
def Thread.slots (h : Thread) (s : Nat) : Nat → Nat
  | 0 => 0
  | n + 1 => (h.slot s).toNat + 2 ^ 32 * Thread.slots h (s + 1) n

/-- `n` slots of the bank. -/
def Thread.bankSlots (h : Thread) (s : Nat) : Nat → Nat
  | 0 => 0
  | n + 1 => (AMap.get 0 h.bank s).toNat + 2 ^ 32 * Thread.bankSlots h (s + 1) n

/-- Slot values written to the bank. -/
def bankWrite (b : AMap Word) (l : List (Nat × Word)) : AMap Word := l.foldl (fun b p => AMap.set 0 b p.1 p.2) b

/-- The whole window written to the bank, in instruction order (R53). -/
def Thread.flush (h : Thread) : Thread :=
  { h with bank := h.win.foldl (fun b e => bankWrite b e.slots) h.bank, win := [] }

/-- The window flushed in every thread of a group. -/
def Group.flush (g : Group) : Group := { g with threads := g.threads.map Thread.flush }

/-- Whether later entries cover every slot of an entry. -/
def coveredBy (e : WinEntry) (later : List WinEntry) : Bool :=
  e.slots.all fun p => later.any fun x => x.slots.any fun q => q.1 == p.1

/-- The oldest entries leave, those of instructions 8 or more before `seq`: each is written whole unless later entries cover all its
slots (R53). -/
def retireWin (seq : Nat) : List WinEntry → AMap Word → AMap Word × List WinEntry
  | [], b => (b, [])
  | e :: r, b =>
    if e.seq + 8 ≤ seq then retireWin seq r (if coveredBy e r then b else bankWrite b e.slots)
    else (b, e :: r)

/-- The window after the group's instruction `seq` entered it. -/
def Thread.retire (h : Thread) (seq : Nat) : Thread :=
  { h with bank := (retireWin seq h.win h.bank).1, win := (retireWin seq h.win h.bank).2 }

/-- Whether a slot lies in one of the ranges. -/
def inRanges (rs : List (Nat × Nat)) (s : Nat) : Bool := rs.any fun r => r.1 ≤ s && s < r.2

/-- An indirect source (R54): every window entry that overlaps a range is written to the bank and stays, over an aperture store to the slot
since then (R58 has such a source see the store, R54 writes the entry; which stands is DEDUCED, log 53). -/
def Thread.spillFor (rs : List (Nat × Nat)) (h : Thread) : Thread :=
  { h with bank := h.win.foldl (fun b e => if e.slots.any fun p => inRanges rs p.1 then bankWrite b e.slots else b) h.bank }

/-- An indirect destination (R54): the overlapping slots of every entry are written to the bank and given up. -/
def Thread.yieldFor (rs : List (Nat × Nat)) (h : Thread) : Thread :=
  { h with
    bank := h.win.foldl (fun b e => bankWrite b (e.slots.filter fun p => inRanges rs p.1)) h.bank
    win := (h.win.map fun e => { e with slots := e.slots.filter fun p => !inRanges rs p.1 }).filter fun e => !e.slots.isEmpty }

/-! ## Predicates, program counter, trap state -/

/-- Predicate `i`; p7 reads as true (R45). -/
def Thread.pred (h : Thread) (i : Nat) : Bool := if i = 7 then true else bitOf h.p.toNat i

/-- Predicate `i` written; a write to p7 is discarded (R45). -/
def Thread.setPred (h : Thread) (i : Nat) (v : Bool) : Thread :=
  if 7 ≤ i then h else { h with p := BitVec.ofNat 7 (putField h.p.toNat i i (b2n v)) }

/-- The guard (R137). -/
def Thread.guard (h : Thread) (c : Ctl) : Bool := h.pred c.gpred.toNat != c.gneg

def Thread.depth (h : Thread) : Nat := field h.trap.toNat 22 21
def Thread.sp (h : Thread) : Nat := field h.trap.toNat 16 0
def Thread.repActive (h : Thread) : Bool := bitOf h.rep.toNat 31

/-- The PC after an instruction that does not branch, in a thread that executed it: a repeated slot counts down and stays until its
last repetition (R235). -/
def Thread.advance (h : Thread) : Thread :=
  if h.repActive then
    let left := field h.rep.toNat 15 0 - 1
    if left = 0 then { h with rep := BitVec.ofNat 32 (putField (putField h.rep.toNat 15 0 0) 31 31 0), pc := h.pc + 1 }
    else { h with rep := BitVec.ofNat 32 (putField h.rep.toNat 15 0 left) }
  else { h with pc := h.pc + 1 }

/-! ## Group stack (R84) -/

/-- A byte of a thread's stack: in team memory of the group's core, or in die scratchpad of its die. -/
inductive StkByte where
  | tmem (key : Nat) | scr (key : Nat)
  deriving DecidableEq, Repr

def stkByte (t : Team) (g : Group) (lane o : Nat) : StkByte :=
  let k := t.kernel
  if o < k.stackT then .tmem (tmemKey g.core (AMap.get 0 t.stkBase g.gid + lane * k.stackT + o))
  else .scr (scrKey (dieOf g.core) (AMap.get 0 t.ovfBase g.gid + lane * (k.stackS - k.stackT) + (o - k.stackT)))

def StkByte.read (d : Dev) : StkByte → Byte
  | .tmem k => Memory.read d.tmem k
  | .scr k => Memory.read d.scr k

def StkByte.write (d : Dev) (b : Byte) : StkByte → Dev
  | .tmem k => { d with tmem := Memory.write d.tmem k b }
  | .scr k => { d with scr := Memory.write d.scr k b }

/-- One byte of a thread's stack. Offset S and above, which only a frame that software has edited can name, holds nothing: a byte of
it reads as a free value (R4; DESIGN CHOICE, log 90). -/
def stkRead (d : Dev) (t : Team) (g : Group) (lane o : Nat) : Byte :=
  if o < t.kernel.stackS then (stkByte t g lane o).read d else Config.freeByte (d.fresh + o)

/-- One byte of a thread's stack written; nothing at offset S and above (R4; DESIGN CHOICE, log 90). -/
def stkWrite (d : Dev) (t : Team) (g : Group) (lane o : Nat) (b : Byte) : Dev :=
  if o < t.kernel.stackS then (stkByte t g lane o).write d b else d

/-- `n` bytes of a thread's stack from offset `o`. -/
def stkReadN (d : Dev) (t : Team) (g : Group) (lane o : Nat) : Nat → Nat
  | 0 => 0
  | n + 1 => (stkRead d t g lane o).toNat + 256 * stkReadN d t g lane (o + 1) n

/-- The low `n` bytes of `v` put on a thread's stack from offset `o`, poison aside. -/
def stkPutN (d : Dev) (t : Team) (g : Group) (lane o : Nat) : Nat → Nat → Dev
  | 0, _ => d
  | n + 1, v => stkPutN (stkWrite d t g lane o (BitVec.ofNat 8 v)) t g lane (o + 1) n (v / 256)

/-- The poison that a write of `n` aligned bytes of a thread's stack covers whole ends (R429). -/
def stkCure (d : Dev) (t : Team) (g : Group) (lane o n : Nat) : Dev :=
  if t.kernel.stackS ≤ o then d
  else match stkByte t g lane o with
    | .tmem k => { d with poison := unpoison d 2 k n }
    | .scr k => { d with poison := unpoison d 1 k n }

/-- Whether `n` aligned bytes of a thread's stack are poisoned. -/
def stkPoisoned (d : Dev) (t : Team) (g : Group) (lane o n : Nat) : Bool :=
  decide (o < t.kernel.stackS) && match stkByte t g lane o with
    | .tmem k => poisoned d 2 k n
    | .scr k => poisoned d 1 k n

/-- `n` aligned bytes of a thread's stack written. -/
def stkWriteN (d : Dev) (t : Team) (g : Group) (lane o n v : Nat) : Dev := stkCure (stkPutN d t g lane o n v) t g lane o n

/-! ## Traps -/

/-- A trap as its cause gives it (R386). -/
structure Trap where
  cause : Nat
  fpc : Nat
  resume : Nat
  deferred : Bool := false
  detail : Nat := 0
  addr : Nat := 0
  code : Nat := 0
  deriving DecidableEq, Repr

/-- Words 0 to 3 of a trap frame (R391): also the detail words of its record (R396, R397). -/
def frameWords (x : Trap) (p : BitVec 7) (rep : Word) : Nat × Nat × Nat × Nat :=
  (x.resume % 2 ^ 32 * 2 ^ 32 + x.fpc % 2 ^ 32,
    x.cause * 2 ^ 56 + b2n x.deferred * 2 ^ 55 + p.toNat * 2 ^ 48 + x.code % 2 ^ 16 * 2 ^ 32 + rep.toNat,
    x.addr, x.detail)

/-- A context error of a trap that no handler takes (R394, R407). -/
def trapError (d : Dev) (t : Team) (g : Group) (h : Thread) (cls : Nat) (unhandled : Bool) (x : Trap) : Dev :=
  let f := frameWords x h.p h.rep
  contextError d
    { cls, sev := 2, kind := 0, index := g.core, ctx := some t.ctx, grid := some t.grid, unhandled, addr := x.addr, pc := x.fpc, tid := h.tid,
      team := linearIndex d t, d0 := f.1, d1 := f.2.1, d2 := f.2.2.1, d3 := f.2.2.2 }

/-- take_trap (R390), its conditions tested in the order of R407: the frame pushed on the thread's stack, `sr.trap`, image and PC
set to the handler; else the context error. Every trap of a compute thread is taken here. -/
def takeTrap (d : Dev) (r : TRef) (x : Trap) : Dev :=
  match d.team? r.team with
  | none => d
  | some t =>
    match t.group? r.gid with
    | none => d
    | some g =>
      match g.thread? r.tid with
      | none => d
      | some h =>
        let base := (ctxAt d t 3).toNat
        let entry := base + 16 * x.cause
        if base ≠ 0 && (globPoisoned d t.ctx entry 8 || globPoisoned d t.ctx (entry + 8) 8) then
          contextError d
            { cls := 0x44, sev := 2, kind := 0, index := g.core, ctx := some t.ctx, grid := some t.grid, addr := entry, pc := x.fpc,
              tid := h.tid, team := linearIndex d t }
        else
          let (w0, d) := if base = 0 then (none, d) else partRead d t.ctx entry 8
          let (w1, d) := if base = 0 then (none, d) else partRead d t.ctx (entry + 8) 8
          match w0, w1 with
          | some b, some e =>
            let slots := field e 63 32
            let pc := field e 31 0
            if slots ≤ pc then trapError d t g h x.cause true x
            else if h.depth = 3 then trapError d t g h 0x22 false x
            else if h.sp < 64 then trapError d t g h 0x21 false x
            else
              let sp := h.sp - 64
              let f := frameWords x h.p h.rep
              let d := stkWriteN d t g h.lane sp 8 f.1
              let d := stkWriteN d t g h.lane (sp + 8) 8 f.2.1
              let d := stkWriteN d t g h.lane (sp + 16) 8 f.2.2.1
              let d := stkWriteN d t g h.lane (sp + 24) 8 f.2.2.2
              let d := stkWriteN d t g h.lane (sp + 32) 8 h.trap.toNat
              let d := stkWriteN d t g h.lane (sp + 40) 8 h.imgBase
              let d := stkWriteN d t g h.lane (sp + 48) 8 h.imgSlots
              let d := stkWriteN d t g h.lane (sp + 56) 8 0
              let trap := x.fpc % 2 ^ 32 * 2 ^ 32 + x.cause * 2 ^ 24 + b2n x.deferred * 2 ^ 23 + (h.depth + 1) * 2 ^ 21 + sp
              d.mapThread r fun h =>
                { h with trap := BitVec.ofNat 64 trap, imgBase := b, imgSlots := slots, pc := BitVec.ofNat 32 pc, st := .ready }
          | _, _ => trapError d t g h x.cause true x

/-- tret (R393): the frame at sp gives the image, the PC, the predicates, `sr.rep` and `sr.trap` back; reserved bits of both registers
stay zero (R5, R392). A poisoned word of the frame is consumed (R429). At depth 0 it is an illegal instruction, decided by the caller. -/
def returnTrap (d : Dev) (r : TRef) : Dev :=
  match d.team? r.team with
  | none => d
  | some t =>
    match t.group? r.gid with
    | none => d
    | some g =>
      match g.thread? r.tid with
      | none => d
      | some h =>
        let w (i : Nat) : Nat := stkReadN d t g h.lane (h.sp + 8 * i) 8
        match [0, 1, 4, 5, 6].find? fun i => stkPoisoned d t g h.lane (h.sp + 8 * i) 8 with
        | some i =>
          contextError d
            { cls := 0x44, sev := 2, kind := 0, index := g.core, ctx := some t.ctx, grid := some t.grid, addr := apertureBase .stk + h.sp + 8 * i,
              pc := h.pc.toNat, tid := h.tid, team := linearIndex d t }
        | none =>
        { d with fresh := d.fresh + 2 ^ 17 }.mapThread r fun h =>
          { h with
            imgBase := w 5
            imgSlots := field (w 6) 31 0
            pc := BitVec.ofNat 32 (field (w 0) 63 32)
            p := BitVec.ofNat 7 (field (w 1) 54 48)
            rep := BitVec.ofNat 32 (putField (field (w 1) 31 0) 30 16 0)
            trap := BitVec.ofNat 64 (putField (w 4) 20 17 0) }

/-- A deferred fault given to a thread (R388): kept pending; a second one, or one for an exited thread, is a context error. -/
def giveDeferred (d : Dev) (r : TRef) (x : Deferred) : Dev :=
  let r := d.refNow r
  match d.team? r.team, d.thread? r with
  | some t, some h =>
    let rec_ (cls : Nat) : ErrRec :=
      { cls, sev := 2, kind := 0, index := ((t.group? r.gid).map (·.core)).getD t.core, ctx := some t.ctx, grid := some t.grid, addr := x.addr,
        pc := x.fpc, tid := h.tid, team := linearIndex d t }
    if h.st == .exited then contextError d (rec_ 0x23)
    else if h.pend.isSome then contextError d (rec_ 0x24)
    else d.mapThread r fun h => { h with pend := some x }
  | _, _ => d

/-- Delivery of a thread's pending deferred fault at the instruction it stands at (R388). -/
def deliverDeferred (d : Dev) (r : TRef) : Dev :=
  match d.thread? r with
  | some h =>
    match h.pend with
    | some x =>
      takeTrap (d.mapThread r fun h => { h with pend := none, st := .ready }) r
        { cause := x.cause, fpc := x.fpc, resume := h.pc.toNat, deferred := true, detail := x.detail, addr := x.addr }
    | none => d
  | none => d

/-- An at-issue trap of a thread: where a deferred fault is pending, that fault is delivered first and the instruction issues again
after its handler (R388). -/
def raiseTrap (d : Dev) (r : TRef) (x : Trap) : Dev :=
  match (d.thread? r).bind (·.pend) with
  | some _ => deliverDeferred d r
  | none => takeTrap d r x

/-! ## Head runs (R24, R25, R38) -/

/-- Whether a thread stands in front of another in the PC table: depth greatest first, then image base, then PC (R390); two images of
one base by their slots (DESIGN CHOICE, log 90), then the lane. -/
def tableBefore (a b : Thread) : Bool :=
  if a.depth ≠ b.depth then b.depth < a.depth
  else if a.imgBase ≠ b.imgBase then a.imgBase < b.imgBase
  else if a.pc ≠ b.pc then a.pc.toNat < b.pc.toNat
  else if a.imgSlots ≠ b.imgSlots then a.imgSlots < b.imgSlots
  else a.lane < b.lane

/-- Whether a thread of a group can issue: it is ready, its fetch does not wait on a page fault (R421), and no full side log stops it
(R424). -/
def Group.able (g : Group) (h : Thread) : Bool :=
  h.st == .ready && !h.stopped && !g.fetchWait.any fun w => w.1 == h.imgBase && w.2.1 == h.pc.toNat

/-- The threads among which a head run is selected: those that can issue, during a relief cut those whose PC exceeds B (R38). -/
def Group.selectable (g : Group) : List Thread :=
  let ready := g.threads.filter g.able
  match g.cut with
  | some (b, _) => ready.filter fun h => b < h.pc.toNat
  | none => ready

/-- The first thread of the PC table. -/
def firstInTable : List Thread → Option Thread
  | [] => none
  | h :: r =>
    match firstInTable r with
    | some k => some (if tableBefore k h then k else h)
    | none => some h

/-- The head run: the selectable threads that share depth, image and PC with the first, by `sr.lane` (R25). -/
def Group.headRun (g : Group) : List Nat :=
  match firstInTable g.selectable with
  | none => []
  | some f =>
    sortBy id ((g.selectable.filter fun h =>
      h.depth == f.depth && h.imgBase == f.imgBase && h.imgSlots == f.imgSlots && h.pc == f.pc).map (·.lane))

end Sys2Proof.Machine
end

