-- ==== Sys2Proof/Machine/Operands.lean ====
section
/-! DEFINITION. Reading operands: register files and views (R42 to R49), indirect operands (R50 to R52), immediates (R132),
constants (R133) and literals (R135); the register-range checks (R43, R51, R408); writing a destination. -/

namespace Sys2Proof.Machine

/-- Who reads: a thread with its team and group, or the thread of queue `q`; and the literal slots the instruction names. -/
structure Env where
  d : Dev
  own : Option (Team × Group)
  q : Nat
  h : Thread
  lits : AMap DWord

/-- Slots of the allocation: A of R46, or the 64 of a queue thread (R282). -/
def Env.alloc (e : Env) : Nat :=
  match e.own with
  | some (t, g) => allocSlots t.kernel g
  | none => 64

/-- sr registers by index, 32 bits each; a 64-bit register's low word at its even index (R48). -/
def Env.sr (e : Env) (i : Nat) : Nat :=
  let half (v i : Nat) : Nat := if i % 2 = 0 then v % 2 ^ 32 else v / 2 ^ 32
  match e.own with
  | none => if i = 0 then e.q else if i = 24 ∨ i = 25 then half (dtime64 e.d).toNat i else 0
  | some (t, g) =>
    let gr := e.d.grid? t.grid
    match i with
    | 0 => e.h.tid
    | 1 => g.gid
    | 2 => e.h.lane
    | 3 => t.kernel.width
    | 4 => t.kernel.groups
    | 5 => g.core
    | 6 => g.gslot
    | 7 => g.units * 1024 + t.kernel.base
    | 8 => t.tx
    | 9 => t.ty
    | 10 => t.tz
    | 12 => (gr.map (·.gx)).getD 0
    | 13 => (gr.map (·.gy)).getD 0
    | 14 => (gr.map (·.gz)).getD 0
    | 16 | 17 => half g.lambda.toNat i
    | 18 => e.h.rep.toNat
    | 20 | 21 => half e.h.trap.toNat i
    | 24 | 25 => half (dtime64 e.d).toNat i
    | _ => 0

/-- Word `o` of constant bank `b`; zero at or beyond its declared size (R133). A word that the size cuts has its copied bytes with zeros
above (DESIGN CHOICE, log 106). -/
def Env.bankWord (e : Env) (b o : Nat) : Nat :=
  match e.own with
  | some (t, _) =>
    if 4 * o < AMap.get 0 t.kernel.bankSize b then Memory.readN t.kernel.bankData (65536 * b + 4 * o) 4 else 0
  | none => 0

/-- A literal slot's words as the selection reads them (R135). -/
def Env.litWord (e : Env) (sel dist : Nat) : Nat :=
  let v := (AMap.get 0 e.lits dist).toNat
  match sel with
  | 0 => v % 2 ^ 32
  | 1 => v / 2 ^ 32
  | _ => v

/-- y register i, or the pair from i for 64 bits (R45). -/
def Env.yVal (e : Env) (wide : Bool) (i : Nat) : Nat :=
  match e.own with
  | some (_, g) =>
    (AMap.get 0 g.y i).toNat + if wide then 2 ^ 32 * (AMap.get 0 g.y (i + 1)).toNat else 0
  | none => 0

/-- An immediate's value in a role of n bits (R132). -/
def immValue (t : Roles.ImmTy) (n : Nat) (v : BitVec 20) : Nat :=
  match t with
  | .int => wrapInt (sext v.toNat 20) n
  | .f32 => v.toNat * 4096
  | .f64 => fpResult .f64 rneMod 0 (val32 (v.toNat * 4096))
  | .bf16 => v.toNat / 16
  | .f16 | .pat8 | .pat6 | .pat4 => v.toNat

/-! ## Indirect operands -/

/-- Slots of one name in a view code (R50). -/
def viewSize (view : Nat) : Nat := match view with | 0 => 1 | 1 => 2 | _ => 8

/-- Fields of an index register (R50). -/
def xCur (x : DWord) : Nat := field x.toNat 9 0
def xBase (x : DWord) : Nat := field x.toNat 19 10
def xBound (x : DWord) : Nat := field x.toNat 29 20
def xStep (x : DWord) : Int := sext (field x.toNat 34 30) 5
def xView (x : DWord) : Nat := field x.toNat 36 35
def xWrap (x : DWord) : Bool := bitOf x.toNat 37

/-- Brought into [base, bound) by the wrap rule of R51. -/
def wrapRange (base bound : Nat) (i : Int) : Int := base + (i - base) % ((bound - base : Nat) : Int)

/-- resolve of R51: the first slot for an operand of `size` slots aligned to `align`, or the slot number that the trap reports
(R408). -/
def resolve (x : DWord) (off : BitVec 6) (align size alloc : Nat) : Except Nat Nat :=
  if xView x = 3 ∨ field x.toNat 63 38 ≠ 0 then .error 0xFFFFFFFF
  else
    let e : Int := (xCur x : Int) + sext off.toNat 6
    let out := e < xBase x || (xBound x : Int) ≤ e
    if out && !(xWrap x && decide (xBase x < xBound x)) then .error (wrapInt (e * (viewSize (xView x) : Int)) 32)
    else
      let e := if out then wrapRange (xBase x) (xBound x) e else e
      let slot := e.toNat * viewSize (xView x)
      if slot % align ≠ 0 then .error slot
      else if alloc < slot + size then .error (max slot alloc)
      else .ok slot

/-- advance of R51: cur moved by step, wrapped where the register wraps. -/
def advanceX (x : DWord) : DWord :=
  let nc : Int := (xCur x : Int) + xStep x
  let nc := if xWrap x && decide (xBase x < xBound x) && (nc < xBase x || (xBound x : Int) ≤ nc)
    then wrapRange (xBase x) (xBound x) nc else nc
  BitVec.ofNat 64 (putField x.toNat 9 0 (wrapInt nc 10))

/-! ## Where a register operand lies -/

/-- 32-bit slots and alignment of a role that names registers or values of file g; 0 for roles that name none (R42, R202). -/
def roleSlots : Roles.Role → Nat × Nat
  | .dst w | .optDst w => if w then (2, 2) else (1, 1)
  | .src w _ _ => if w then (2, 2) else (1, 1)
  | .gDst => (1, 1)
  | .quad | .quadDst => (4, 4)
  | .pktDst | .pkt _ _ => (8, 8)
  | .packets n => (8 * n, 8)
  | _ => (0, 1)

/-- The slots of one name of the role's view: indices of a 128-bit role are d indices (R202). -/
def roleView : Roles.Role → Nat
  | .dst w | .optDst w => if w then 2 else 1
  | .src w _ _ => if w then 2 else 1
  | .quad | .quadDst => 2
  | .pktDst | .pkt _ _ | .packets _ => 8
  | _ => 1

/-- The first slot of an operand of file g in a role, checked against the allocation (R43, R51); `ok none` for an operand that is
not in file g; the reported slot on a failure. -/
def locate (e : Env) (r : Roles.Role) (o : Operand) : Except Nat (Option Nat) :=
  let sz := roleSlots r
  match o with
  | .reg .g _ _ i =>
    let s := i.toNat * roleView r
    if e.alloc < s + sz.1 then .error (max s e.alloc) else .ok (some s)
  | .ind x off _ => (resolve (AMap.get 0 e.h.x x.toNat) off sz.2 sz.1 e.alloc).map some
  | _ => .ok none

/-- The register-range check of the three operands in the order D, A, B: the detail word of the trap (R408). -/
def rangeCheck (e : Env) (i : Instr) : Option Nat :=
  let r := Roles.rolesOf i
  let o := Roles.opsOf i
  match locate e r.1 o.1 with
  | .error s => some s
  | .ok _ =>
    match locate e r.2.1 o.2.1 with
    | .error s => some (2 ^ 32 + s)
    | .ok _ =>
      match locate e r.2.2 o.2.2 with
      | .error s => some (2 * 2 ^ 32 + s)
      | .ok _ => none

/-- The first slot of an operand whose check has passed. -/
def firstSlot (e : Env) (r : Roles.Role) (o : Operand) : Nat :=
  match locate e r o with
  | .ok (some s) => s
  | _ => 0

/-- The range an index register declares, scaled to slots (R54, R56). -/
def declaredRange (x : DWord) : Nat × Nat := (xBase x * viewSize (xView x), xBound x * viewSize (xView x))

/-- The slots of file g an operand may touch, for the interlock of R56: a direct operand's own, an indirect one's declared range. -/
def touchRange (h : Thread) (r : Roles.Role) (o : Operand) : List (Nat × Nat) :=
  match o with
  | .reg .g _ _ i =>
    let s := i.toNat * roleView r
    [(s, s + (roleSlots r).1)]
  | .ind x _ _ => [declaredRange (AMap.get 0 h.x x.toNat)]
  | _ => []

/-- Whether two ranges overlap. -/
def overlaps (a b : Nat × Nat) : Bool := a.1 < b.2 && b.1 < a.2

/-! ## Reading values -/

/-- Elements of width w in a packet: 32 for 6-bit elements, 256 ÷ w otherwise (R42, R62). -/
def elemCount (w : Nat) : Nat := if w = 6 then 32 else 256 / w

/-- Element k of width w of a packet. -/
def elem (w v k : Nat) : Nat := v / 2 ^ (w * k) % 2 ^ w

/-- Elements put together, element 0 lowest. -/
def packElems (w : Nat) : List Nat → Nat
  | [] => 0
  | v :: r => v % 2 ^ w + 2 ^ w * packElems w r

/-- A value's low w bits in every element (R45). -/
def broadcast (w v : Nat) : Nat := packElems w (List.replicate (elemCount w) (v % 2 ^ w))

/-- Absolute, then negate, on the sign bit of an n-bit value (R136, R71). -/
def signMods (neg abs : Bool) (n v : Nat) : Nat :=
  let v := if abs then v % 2 ^ (n - 1) else v
  if neg then Nat.xor v (2 ^ (n - 1)) else v

/-- The value of a scalar source of n bits (R166). -/
def Env.scalar (e : Env) (n : Nat) (t : Roles.ImmTy) (o : Operand) : Nat :=
  let wide := n == 64
  let r : Roles.Role := .src wide t true
  match o with
  | .reg .g neg abs _ => signMods neg abs n (e.h.slots (firstSlot e r o) (roleSlots r).1 % 2 ^ n)
  | .reg .y neg abs i => signMods neg abs n (e.yVal wide i.toNat % 2 ^ n)
  | .reg .sr neg abs i =>
    signMods neg abs n ((if wide then e.sr i.toNat + 2 ^ 32 * e.sr (i.toNat + 1) else e.sr i.toNat) % 2 ^ n)
  | .ind _ _ _ => e.h.bankSlots (firstSlot e r o) (roleSlots r).1 % 2 ^ n
  | .imm v => immValue t n v % 2 ^ n
  | .cbank b w => (e.bankWord b.toNat w.toNat + if wide then 2 ^ 32 * e.bankWord b.toNat (w.toNat + 1) else 0) % 2 ^ n
  | .lit s k => e.litWord s.toNat k.toNat % 2 ^ n
  | _ => 0

/-- The value of a packet source of elements of width w (R166, R45); negate and absolute act on every element. -/
def Env.packet (e : Env) (w : Nat) (t : Roles.ImmTy) (o : Operand) : Nat :=
  let r : Roles.Role := .pkt t true
  let mods (neg abs : Bool) (v : Nat) : Nat :=
    if neg || abs then
      packElems w ((List.range (elemCount w)).map fun k => signMods neg abs w (elem w v k))
    else v
  match o with
  | .reg .g neg abs _ => mods neg abs (e.h.slots (firstSlot e r o) 8)
  | .reg .y neg abs i => broadcast w (signMods neg abs w (e.yVal false i.toNat % 2 ^ w))
  | .reg .sr neg abs i => broadcast w (signMods neg abs w (e.sr i.toNat % 2 ^ w))
  | .ind _ _ _ => e.h.bankSlots (firstSlot e r o) 8
  | .imm v => broadcast w (immValue t w v)
  | .cbank b o => broadcast w (e.bankWord b.toNat o.toNat)
  | .lit s k => broadcast w (e.litWord s.toNat k.toNat)
  | .none => 0
  | .reg _ _ _ _ => 0

/-- `n` consecutive packets of file g as one number (R186, R191, R239). -/
def Env.packets (e : Env) (n : Nat) (o : Operand) : Nat :=
  match o with
  | .ind _ _ _ => e.h.bankSlots (firstSlot e (.packets n) o) (8 * n)
  | _ => e.h.slots (firstSlot e (.packets n) o) (8 * n)

/-- A 128-bit source (R202, R207). -/
def Env.quad (e : Env) (o : Operand) : Nat :=
  match o with
  | .ind _ _ _ => e.h.bankSlots (firstSlot e .quad o) 4
  | _ => e.h.slots (firstSlot e .quad o) 4

/-- A predicate source (R45). -/
def Env.pred (e : Env) (o : Operand) : Bool :=
  match o with
  | .reg .p _ _ i => e.h.pred i.toNat
  | _ => false

/-- An index register's value. -/
def Env.index (e : Env) (o : Operand) : DWord :=
  match o with
  | .reg .x _ _ i => AMap.get 0 e.h.x i.toNat
  | _ => 0

/-- An h register's value. -/
def Env.handle (e : Env) (o : Operand) : DWord :=
  match o, e.own with
  | .reg .h _ _ i, some (_, g) => AMap.get 0 g.h i.toNat
  | _, _ => 0

/-- Count and wavelength fields of `sr.lambda` (R49). -/
def Env.lambda (e : Env) : Nat := match e.own with | some (_, g) => g.lambda.toNat | none => 0
def Env.lamCount (e : Env) : Nat := field e.lambda 43 40
def Env.lamStep (e : Env) : Nat := field e.lambda 39 20
def Env.lamStart (e : Env) : Nat := field e.lambda 19 0

/-- The kernel's special-function compatibility bit (R80). -/
def Env.compat (e : Env) : Bool := match e.own with | some (t, _) => t.kernel.compat | none => false

/-- Philox word `k` after the thread's position (R70). A queue thread has no seed, tid or team: zeros stand for them (DESIGN CHOICE, log
105). -/
def Env.philox (e : Env) (k : Nat) : Word :=
  match e.own with
  | some (t, _) => philoxWord t.kernel.seed e.h.tid (linearIndex e.d t) (e.h.pos.toNat + k)
  | none => philoxWord 0 0 0 (e.h.pos.toNat + k)

/-- The word that rounding step `k` of the instruction uses. -/
def Env.word (e : Env) (m : FpMod) (k : Nat) : Word := if m.rnd = .sr then e.philox k else 0

/-- The destination's value from before the instruction, in a scalar role of n bits. -/
def Env.oldScalar (e : Env) (n : Nat) (o : Operand) : Nat := e.scalar n .int o

/-- The destination's packet from before the instruction. -/
def Env.oldPacket (e : Env) (o : Operand) : Nat := e.packet 32 .int o

/-! ## Writing destinations -/

/-- Slot values that a masked write of `n` slots from `s` stores; slots whose mask is zero are not written (R168). -/
def slotWrites (s : Nat) (old val mask : Nat) : Nat → List (Nat × Word)
  | 0 => []
  | n + 1 =>
    let m := mask % 2 ^ 32
    let v := Nat.lor (Nat.land val m % 2 ^ 32) (Nat.land old (2 ^ 32 - 1 - m) % 2 ^ 32)
    let rest := slotWrites (s + 1) (old / 2 ^ 32) (val / 2 ^ 32) (mask / 2 ^ 32) n
    if m = 0 then rest else (s, BitVec.ofNat 32 v) :: rest

/-- A masked write of one y register, or of the pair for masks above 32 bits (R45). -/
def yWrite (y : AMap Word) (i val mask : Nat) : AMap Word :=
  let one (y : AMap Word) (i v m : Nat) : AMap Word :=
    if m = 0 then y
    else
      let old := (AMap.get 0 y i).toNat
      AMap.set 0 y i (BitVec.ofNat 32 (Nat.lor (Nat.land v m) (Nat.land old (2 ^ 32 - 1 - m))))
  one (one y i (val % 2 ^ 32) (mask % 2 ^ 32)) (i + 1) (val / 2 ^ 32 % 2 ^ 32) (mask / 2 ^ 32 % 2 ^ 32)

end Sys2Proof.Machine
end

