-- ==== Sys2Proof/Machine/Run.lean ====
section
/-! DEFINITION. How an instruction acts on the threads of a head run, or on a queue thread: guards, the register-range check, uniform
issue (R27), destinations through the forwarding window (R53, R54), post-advances (R52), traps (R387, R396). -/

namespace Sys2Proof.Machine

/-- A thread of a head run, or the thread of a queue. -/
inductive Who where
  | thr (r : TRef) | que (q : Nat)
  deriving DecidableEq, Repr

/-- The thread changed by `f`. -/
def Dev.mapWho (d : Dev) (w : Who) (f : Thread → Thread) : Dev :=
  match w with
  | .thr r => d.mapThread r f
  | .que q => d.setQueue q { d.queue q with thread := f (d.queue q).thread }

/-- A trap on a control core (R396): its record, and the queue thread disabled with its registers and PC kept. -/
def queueTrap (d : Dev) (q : Nat) (x : Trap) : Dev :=
  let v := d.queue q
  let f := frameWords x v.thread.p 0
  let d := d.setQueue q
    { v with w0 := BitVec.ofNat 64 (putField v.w0.toNat 63 63 0), wait := .none, stopping := false }
  let d := { d with serving := AMap.set 0 d.serving (q / 8192) 0 }
  report d
    { cls := x.cause, sev := 1, kind := 1, index := q / 8192, ctx := some (field v.w0.toNat 44 35), queue := some q,
      addr := x.addr, pc := x.fpc, d0 := f.1, d1 := f.2.1, d2 := f.2.2.1, d3 := f.2.2.2 }

/-- A trap in the thread that raised it. -/
def Dev.trap (d : Dev) (w : Who) (x : Trap) : Dev :=
  match w with
  | .thr r => raiseTrap d r x
  | .que q => queueTrap d q x

/-- Whether the thread still executes: a context error earlier in the run stops its team (R395). -/
def Dev.alive (d : Dev) (w : Who) : Bool :=
  match w with
  | .thr r => (d.team? r.team).any fun t => t.stat != .halting
  | .que _ => true

/-! ## Destinations and uniform issue -/

/-- Whether a role is a destination. -/
def isDestRole : Roles.Role → Bool
  | .dst _ | .optDst _ | .gDst | .quadDst | .pktDst => true
  | _ => false

/-- A uniform register, an immediate, a constant word, a literal, or an unused field (R27). -/
def uniformOp : Operand → Bool
  | .reg .y _ _ _ | .imm _ | .cbank _ _ | .lit _ _ | .none => true
  | _ => false

/-- Whether an instruction issues once for the whole head run, by its operand fields alone (R27). -/
def uniformIssue (i : Instr) : Bool :=
  let o := Roles.opsOf i
  uniformOp o.1 && uniformOp o.2.1 && uniformOp o.2.2

/-- The index registers that an instruction's operands name, with post-advance. -/
def postIndices (i : Instr) : List Nat :=
  let f (o : Operand) : List Nat := match o with | .ind x _ true => [x.toNat] | _ => []
  let o := Roles.opsOf i
  (f o.1 ++ f o.2.1 ++ f o.2.2).eraseDups

/-- The index register that an instruction writes as its destination (R52). -/
def destIndex (i : Instr) : Option Nat :=
  match (Roles.opsOf i).1 with
  | .reg .x _ _ n => match (Roles.rolesOf i).1 with | .index => some n.toNat | _ => none
  | _ => none

/-- Post-advances of an instruction in one thread (R52). -/
def postAdvance (i : Instr) (h : Thread) : Thread :=
  (postIndices i).foldl (fun h n =>
    if destIndex i = some n then h else { h with x := AMap.set 0 h.x n (advanceX (AMap.get 0 h.x n)) }) h

/-- Declared ranges of an instruction's indirect operands over some threads; `dest` chooses destinations or sources. -/
def indRanges (i : Instr) (dest : Bool) (hs : List Thread) : List (Nat × Nat) :=
  let r := Roles.rolesOf i
  let o := Roles.opsOf i
  let one (r : Roles.Role) (o : Operand) : List (Nat × Nat) :=
    match o with
    | .ind x _ _ => if isDestRole r == dest then hs.map fun h => declaredRange (AMap.get 0 h.x x.toNat) else []
    | _ => []
  one r.1 o.1 ++ one r.2.1 o.2.1 ++ one r.2.2 o.2.2

/-- The window cleared for the indirect operands of a head run before it issues (R54). -/
def prepareWindow (i : Instr) (lanes : List Nat) (g : Group) : Group :=
  let hs := g.threads.filter fun h => lanes.contains h.lane
  let src := indRanges i false hs
  let dst := indRanges i true hs
  let g := if src.isEmpty then g else { g with threads := g.threads.map (Thread.spillFor src) }
  if dst.isEmpty then g else { g with threads := g.threads.map (Thread.yieldFor dst) }

/-- Whether an instruction has a register destination, in any file: those are the instructions that the forwarding window counts (R53). -/
def hasRegDest (i : Instr) : Bool :=
  let r := Roles.rolesOf i
  let o := Roles.opsOf i
  let one (r : Roles.Role) (o : Operand) : Bool := isDestRole r && o != .none
  one r.1 o.1 || one r.2.2 o.2.2
    || match r.1, i with
      | .pred, _ | .predSet, _ | .index, _ | .lambda, _ => true
      | .optHandle, _ => o.1 != .none
      | .handle, .hload _ _ _ _ => true
      | _, _ => false

/-- Slots put into the window entry of instruction `seq`. -/
def windowPut (seq : Nat) (l : List (Nat × Word)) (win : List WinEntry) : List WinEntry :=
  match win.getLast? with
  | some e => if e.seq = seq then win.dropLast ++ [{ e with slots := e.slots ++ l }] else win ++ [⟨seq, l⟩]
  | none => [⟨seq, l⟩]

/-- Slots that a masked write covers whole, which ends their poison (R429). -/
def wholeSlots (s mask : Nat) : Nat → List Nat
  | 0 => []
  | n + 1 => (if mask % 2 ^ 32 = 2 ^ 32 - 1 then [s] else []) ++ wholeSlots (s + 1) (mask / 2 ^ 32) n

def Thread.cure (l : List Nat) (h : Thread) : Thread := { h with bad := h.bad.filter fun s => !l.contains s }

/-- A fixed-latency or run-collective result in its destination: `val` under `mask`. `first` is the operand's first slot in file
g and `seq` the group's count of the instruction. -/
def writeDest (d : Dev) (w : Who) (r : Roles.Role) (o : Operand) (first seq val mask : Nat) : Dev :=
  let n := (roleSlots r).1
  match o with
  | .reg .g _ _ _ =>
    match w with
    | .thr _ => d.mapWho w fun h =>
      { h.cure (wholeSlots first mask n) with win := windowPut seq (slotWrites first (h.slots first n) val mask n) h.win }
    | .que _ => d.mapWho w fun h => { h.flush with bank := bankWrite h.flush.bank (slotWrites first (h.slots first n) val mask n) }
  | .ind _ _ _ => d.mapWho w fun h =>
    { h.cure (wholeSlots first mask n) with bank := bankWrite h.bank (slotWrites first (h.bankSlots first n) val mask n) }
  | .reg .y _ _ i =>
    match w with
    | .thr t => d.mapGroup t.team t.gid fun g => { g with y := yWrite g.y i.toNat val mask }
    | .que _ => d
  | .reg .p _ _ i => d.mapWho w fun h => h.setPred i.toNat (val % 2 == 1)
  | .reg .x _ _ i => d.mapWho w fun h => { h with x := AMap.set 0 h.x i.toNat (BitVec.ofNat 64 val) }
  | _ => d

/-! ## The threads that execute -/

/-- The environments of the threads that issue, in ascending `sr.lane`, as they stand before the instruction; none of a team that its
context's halt has stopped (R395). -/
def issuers (d : Dev) : List (Who × Env) :=
  match d.cur with
  | .none => []
  | .run team gid lanes lits _ =>
    match d.team? team with
    | none => []
    | some t =>
      if t.stat = .halting then []
      else match t.group? gid with
      | none => []
      | some g =>
        lanes.filterMap fun l => (g.atLane? l).map fun h =>
          (.thr ⟨team, gid, h.tid⟩, { d, own := some (t, g), q := 0, h, lits })
  | .queue q lits _ => [(.que q, { d, own := none, q, h := (d.queue q).thread, lits })]

/-- The window prepared in the issuing group. -/
def Dev.prepare (d : Dev) (i : Instr) : Dev :=
  match d.cur with
  | .run team gid lanes _ _ => d.mapGroup team gid (prepareWindow i lanes)
  | _ => d

/-- The PC advanced past the instruction (R235 for a repeated slot), with the post-advances. -/
def Dev.pass (d : Dev) (i : Instr) (w : Who) : Dev := d.mapWho w fun h => (postAdvance i h).advance

/-- The PC advanced, nothing else: a false guard, or a thread for which another performed the single issue. -/
def Dev.skip (d : Dev) (w : Who) : Dev := d.mapWho w Thread.advance

/-- The register-range trap (cause 0x02) of a failed check (R408). -/
def rangeTrap (e : Env) (detail : Nat) : Trap :=
  { cause := 0x02, fpc := e.h.pc.toNat, resume := e.h.pc.toNat, detail }

/-- Whether the value that a destination had before the instruction is an operand of it. -/
def readsDest (i : Instr) : Bool :=
  match i with
  | .mad _ _ _ _ _ | .lop3 _ _ _ _ _ _ | .bfi _ _ _ _ _ | .fmaAcc _ _ _ _ _ _ | .fmaHor _ _ _ _ _ _ | .fmaAccPkt _ _ _ _ _ _ _
  | .fmaHorPkt _ _ _ _ _ _ _ | .dot _ _ _ _ _ _ _ | .omse _ _ _ _ _ | .pperm _ _ _ _ | .specMueller _ _ _ _ _ _ | .loop _ _ _ _
  | .atomCas _ _ _ _ _ _ _ | .atomGCas _ _ _ _ _ _ _ => true
  | _ => false

/-- The first poisoned slot among those that an instruction reads in a thread: its sources, and the destination where its value from
before the instruction is an operand (R429). -/
def poisonRead (e : Env) (i : Instr) : Option Nat :=
  if e.h.bad.isEmpty then none
  else
    let r := Roles.rolesOf i
    let o := Roles.opsOf i
    let one (r : Roles.Role) (o : Operand) (read : Bool) : List Nat :=
      if isDestRole r && !read then [] else match locate e r o with
        | .ok (some s) => (List.range (roleSlots r).1).map (s + ·)
        | _ => []
    (one r.1 o.1 (readsDest i) ++ one r.2.1 o.2.1 true ++ one r.2.2 o.2.2 false).find? e.h.bad.contains

/-- Consumption of poisoned data by a thread: context error 0x44 with the address or the slot (R429). -/
def consumePoison (e : Env) (addr : Nat) (d : Dev) : Dev :=
  match e.own with
  | some (t, g) =>
    contextError d
      { cls := 0x44, sev := 2, kind := 0, index := g.core, ctx := some t.ctx, grid := some t.grid, addr, pc := e.h.pc.toNat, tid := e.h.tid,
        team := linearIndex d t }
  | none => d

/-- What one executing thread does: nothing but advance for a false guard; the register-range trap; a trap of the instruction; or
its effect. -/
def issueOne (i : Instr) (check : Env → Option Trap) (eff : Env → Who → Dev → Dev) (p : Who × Env) (d : Dev) : Dev :=
  if !d.alive p.1 then d
  else if !p.2.h.guard (Roles.ctlOf i) then d.skip p.1
  else match rangeCheck p.2 i with
    | some detail => d.trap p.1 (rangeTrap p.2 detail)
    | none =>
      match check p.2, poisonRead p.2 i with
      | some x, _ => d.trap p.1 x
      | none, some s => consumePoison p.2 s d
      | none, none => eff p.2 p.1 d

/-- Each thread of the run in turn, from the values before the instruction (R167). -/
def eachThread (i : Instr) (check : Env → Option Trap) (eff : Env → Who → Dev → Dev) (d : Dev) : Dev :=
  let d := d.prepare i
  (issuers d).foldl (fun d p => issueOne i check eff p d) d

/-- The single issue of R27: the first thread with a true guard performs it, every other thread advances. -/
def uniformOnce (i : Instr) (check : Env → Option Trap) (eff : Env → Who → Dev → Dev) (d : Dev) : Dev :=
  let l := issuers d
  match l.find? fun p => p.2.h.guard (Roles.ctlOf i) with
  | none => l.foldl (fun d p => d.skip p.1) d
  | some p =>
    l.foldl (fun d q => if q.1 = p.1 then issueOne i check eff q d else if d.alive q.1 then d.skip q.1 else d) d

/-- Uniform or per-thread issue by R27, for the instructions it applies to. -/
def issueAll (i : Instr) (check : Env → Option Trap) (eff : Env → Who → Dev → Dev) (d : Dev) : Dev :=
  if uniformIssue i then uniformOnce i check eff d else eachThread i check eff d

/-- No trap but the register-range check. -/
def noCheck (_ : Env) : Option Trap := none

/-! ## Register-to-register instructions -/

/-- A thread's result: D under a mask, a second result for operand B (`mxq`), and the Philox words drawn. -/
structure Out where
  val : Nat
  mask : Nat
  scale : Option Nat := none
  draws : Nat := 0
  deriving DecidableEq, Repr

/-- The group's count that an instruction entering the window takes. -/
def nextSeq (e : Env) : Nat :=
  match e.own with
  | some (_, g) => g.seq + 1
  | none => 0

/-- A result written, the Philox position advanced, the PC advanced (R166 to R170). -/
def writeOut (i : Instr) (o : Out) (e : Env) (w : Who) (d : Dev) : Dev :=
  let r := Roles.rolesOf i
  let p := Roles.opsOf i
  let d := writeDest d w r.1 p.1 (firstSlot e r.1 p.1) (nextSeq e) o.val o.mask
  let d := match o.scale with
    | some v => writeDest d w r.2.2 p.2.2 (firstSlot e r.2.2 p.2.2) (nextSeq e) v 0xFF
    | none => d
  let d := d.mapWho w fun h => { h with pos := h.pos + BitVec.ofNat 64 o.draws }
  d.pass i w

/-- The window counts an instruction with a register destination, and gives up the oldest entries (R53). -/
def Dev.closeWindow (d : Dev) (i : Instr) : Dev :=
  match d.cur with
  | .run team gid _ _ _ =>
    if hasRegDest i then
      d.mapGroup team gid fun g => { g with seq := g.seq + 1, threads := g.threads.map fun h => h.retire (g.seq + 1) }
    else d
  | _ => d

/-- A register-to-register instruction of fixed latency: `f` gives each executing thread's result from the values before it. -/
def aluRun (i : Instr) (f : Env → Out) (d : Dev) : Dev :=
  (issueAll i noCheck (fun e w d => writeOut i (f e) e w d) d).closeWindow i

/-- The participants of a run-collective instruction (R196): executing threads that do not trap on their operands. -/
def participants (i : Instr) (l : List (Who × Env)) : List (Who × Env) :=
  l.filter fun p => p.2.h.guard (Roles.ctlOf i) && (rangeCheck p.2 i).isNone && (poisonRead p.2 i).isNone

/-- A run-collective instruction: `f` gives each participant's result from all of them, by ascending `sr.lane` (R196). One that issues
uniformly has the same participants, and its performing thread's result is the one written (R27; DEDUCED, log 54). -/
def collectiveRun (i : Instr) (f : List Env → Env → Out) (d : Dev) : Dev :=
  let ps := participants i (issuers (d.prepare i))
  (issueAll i noCheck (fun e w d => writeOut i (f (ps.map (·.2)) e) e w d) d).closeWindow i

/-- A next state that differs in `dev` alone. -/
def State.onDev (s : State) (f : Dev → Dev) : Host.Outcome State Fault Refusal := .next { s with dev := f s.dev }

end Sys2Proof.Machine
end

