-- ==== Sys2Proof/Machine/Fetch.lean ====
section
/-! DEFINITION. Fetching an instruction (R130, R134, R135, R141, R165, R236, R404 to R406), the bays' active sets and lanes (R28 to
R30), what holds a head run before it issues (R55, R56, R388, R421), and the control cores' choice of a queue thread (R310, R313,
R314). -/

namespace Sys2Proof.Machine

/-! ## Reading code -/

/-- What a fetch finds. -/
inductive Fetched where
  /-- an instruction, the literal slots it names, and its word 0 -/
  | instr (i : Instr) (lits : AMap DWord) (word0 : Word)
  /-- no instruction: the illegal-instruction trap with this detail (R406) -/
  | illegal (detail : Nat)
  /-- a page fault at an address (R421) -/
  | wait (addr level reason : Nat) (e : DWord)
  /-- replays of the page are due first (R425) -/
  | later
  /-- a translation fault at an address (R419) -/
  | bad (addr : Nat)
  /-- poisoned code at an address (R429) -/
  | poison (addr : Nat)
  deriving DecidableEq, Repr

/-- One 32-bit word of code as memory holds it at the fetch, or why it cannot be read: a fetch that races with a write of the code sees
the writes performed so far (R130 allows the old word and the new; DESIGN CHOICE, log 40). What another package holds is open (log
37). A fetch of a package whose pair is closed is a translation fault (DESIGN CHOICE, log 125). `first`: the word is the first that the
fetch asks of its line, and so a request of it (R104). -/
def codeWord (first : Bool) (d : Dev) (ctx va : Nat) : Except Fetched Word × Dev :=
  if sideBlocked d ctx va then (.error .later, d)
  else
    let (w, d) := translate d ctx va needX
    match w with
    | .bad => (.error (.bad va), d)
    | .pageFault l r e => (.error (.wait va l r e), d)
    | .leaf e _ size =>
      match targetOf e va size with
      | .phys pa =>
        if !frameOk d pa then (.error (.wait va 5 2 0), d)
        else if physPoisoned d pa 4 then (.error (.poison va), d)
        else
          let x := sliceRead (if first then countAccess d e pa else d) pa 4
          (.ok (BitVec.ofNat 32 x.1), x.2)
      | .host port a =>
        if d.isLost port then (.error (.poison va), d)
        else
          match hostPlace d port a with
          | (some k, d) => (.ok (BitVec.ofNat 32 (Memory.readN d.host k 4)), d)
          | (none, d) => (.error (.wait va 6 3 0), d)
      | .remote slot raddr =>
        match askRemote d (.part ctx) ctx va 0 slot raddr (.load 4) with
        | (.sent, d) =>
          let l := freeBytes 4 d
          (.ok (BitVec.ofNat 32 (ofBytes l.1)), l.2)
        | (.full, d) => (.error .later, d)
        | (.bad, d) | (.closed, d) => (.error (.bad va), d)

/-- The slot at `pc` of an image (R130); each line it touches is one request for the count of R104. -/
def codeSlot (d : Dev) (ctx base pc : Nat) : Except Fetched SlotWord × Dev :=
  let a := base + 12 * pc
  match codeWord true d ctx a with
  | (.error f, d) => (.error f, d)
  | (.ok w0, d) =>
    match codeWord ((a + 4) % 128 == 0) d ctx (a + 4) with
    | (.error f, d) => (.error f, d)
    | (.ok w1, d) =>
      match codeWord ((a + 8) % 128 == 0) d ctx (a + 8) with
      | (.error f, d) => (.error f, d)
      | (.ok w2, d) => (.ok (BitVec.ofNat 96 (w0.toNat + 2 ^ 32 * w1.toNat + 2 ^ 64 * w2.toNat)), d)

/-- Distances of the literal slots that an instruction names (R135). -/
def litDistances (i : Instr) : List Nat :=
  let one (o : Operand) : List Nat := match o with | .lit _ k => [k.toNat] | _ => []
  let o := Roles.opsOf i
  (one o.1 ++ one o.2.1 ++ one o.2.2).eraseDups

/-- The literal slots at some distances from a PC; none when one is not a literal slot of the image (R135). -/
def fetchLits (ctx base slots pc : Nat) : List Nat → Dev → Except Fetched (Option (AMap DWord)) × Dev
  | [], d => (.ok (some []), d)
  | k :: r, d =>
    if slots ≤ pc + k then (.ok none, d)
    else
      match codeSlot d ctx base (pc + k) with
      | (.error f, d) => (.error f, d)
      | (.ok w, d) =>
        if !isLiteral w then (.ok none, d)
        else
          match fetchLits ctx base slots pc r d with
          | (.ok (some m), d) =>
            let p := literalWords w
            (.ok (some (AMap.set 0 m k (BitVec.ofNat 64 (p.1.toNat + 2 ^ 32 * p.2.toNat)))), d)
          | x => x

/-- The repeatable instructions (R236). -/
def repeatable (i : Instr) : Bool :=
  let c := opcodeOf i / 256
  c ≤ 4 || c == 7 || c == 8 || (c == 6 && opcodeOf i != 0x610 && opcodeOf i != 0x611)

/-- Opcodes that exist only at level 2 (R164). -/
def levelTwo (i : Instr) : Bool :=
  match i with
  | .omse _ _ _ _ _ | .mxqE3M2 _ _ _ _ _ | .mxqE2M3 _ _ _ _ _ | .mxqE2M1 _ _ _ _ _ _ => true
  | _ => false

/-- Operands a queue thread has (R282): g0 to g63 as g and d, predicates, its sr registers, immediates, literals. -/
def queueOperand (r : Roles.Role) (o : Operand) : Bool :=
  match o with
  | .reg .g _ _ i => decide (i.toNat * roleView r + (roleSlots r).1 ≤ 64) && (match r with | .pktDst | .pkt _ _ | .packets _ => false | _ => true)
  | .reg .p _ _ _ => true
  | .reg .sr _ _ i => i == 0 || i == 24 || i == 25
  | .reg _ _ _ _ => false
  | .ind _ _ _ => false
  | .cbank _ _ => false
  | .imm _ | .lit _ _ | .none => true

/-- The control-core subset (R165), with the register files of R282. -/
def queueAllows (i : Instr) : Bool :=
  let op := opcodeOf i
  let c := op / 256
  let r := Roles.rolesOf i
  let o := Roles.opsOf i
  let wide := match i with
    | .mov _ w _ _ _ | .add _ w _ _ _ _ | .sub _ w _ _ _ _ | .mul _ w _ _ _ | .mulHiI _ w _ _ _ | .mulHiN _ w _ _ _ | .mad _ w _ _ _
    | .minI _ w _ _ _ | .minN _ w _ _ _ | .maxI _ w _ _ _ | .maxN _ w _ _ _ | .shl _ w _ _ _ | .shrN _ w _ _ _ | .shrI _ w _ _ _
    | .rol _ w _ _ _ | .lop3 _ w _ _ _ _ | .popc _ w _ _ _ | .clz _ w _ _ _ | .ctz _ w _ _ _ | .brev _ w _ _ _ | .bfeN _ w _ _ _
    | .bfeI _ w _ _ _ | .bfi _ w _ _ _ | .lea _ w _ _ _ _ | .cmpI _ w _ _ _ _ | .cmpN _ w _ _ _ _ | .sel _ w _ _ _ _ _ =>
      w == .w32 || w == .w64
    | _ => true
  wide && queueOperand r.1 o.1 && queueOperand r.2.1 o.2.1 && queueOperand r.2.2 o.2.2
    && (c == 0 || c == 1 || (0x510 ≤ op && op ≤ 0x514) || op == 0x516 || op == 0x518 || op == 0x600 || c == 7 || op == 0x900
      || (c == 0xB && op != 0xB02) || c == 0xC)

/-- The instruction at `pc` of an image of `slots` slots, the next slot of a `rep` aside: decoded, with its literals, for a compute core
or a control core. An image whose base is not a multiple of 256 has none (R393; DEDUCED for kernels and queue programs, log 91). -/
def fetchOne (d : Dev) (ctx base slots pc level : Nat) (control : Bool) : Fetched × Dev :=
  if slots ≤ pc || base % 256 != 0 then (.illegal 0, d)
  else
    match codeSlot d ctx base pc with
    | (.error f, d) => (f, d)
    | (.ok w, d) =>
      let w0 := slotField w 31 0
      match decode w with
      | .error _ => (.illegal w0, d)
      | .ok i =>
        let home := if control then queueAllows i else opcodeOf i / 256 != 0xC
        if !home || (levelTwo i && level < 2) then (.illegal w0, d)
        else
          match fetchLits ctx base slots pc (litDistances i) d with
          | (.error f, d) => (f, d)
          | (.ok none, d) => (.illegal w0, d)
          | (.ok (some lits), d) => (.instr i lits (BitVec.ofNat 32 w0), d)

/-- The instruction at `pc` of an image; a `rep` is decoded with the slot after it, which must hold a repeatable instruction (R236,
R404). -/
def fetch (d : Dev) (ctx base slots pc level : Nat) (control : Bool) : Fetched × Dev :=
  match fetchOne d ctx base slots pc level control with
  | (.instr (.rep c x a b) lits w0, d) =>
    match fetchOne d ctx base slots (pc + 1) level control with
    | (.instr j _ _, d) => (if repeatable j then .instr (.rep c x a b) lits w0 else .illegal w0.toNat, d)
    | (.illegal _, d) => (.illegal w0.toNat, d)
    | r => r
  | r => r

/-! ## Bays (R28 to R30) -/

/-- Whether a group keeps a place in the active set, or may take one: a ready thread, and no block that acts as though all its threads were
parked (R29, R31). One held at an instruction keeps its place (R56, R249). -/
def Group.stays (g : Group) : Bool :=
  !g.ended && (g.threads.any fun h => h.st == .ready)
    && match g.block with | some (.racq _ _ _) | some (.handle _) => false | _ => true

/-- Whether a lane may serve a group of the active set (R28): nothing holds it at an instruction, and one of its threads can issue. -/
def Group.canRun (g : Group) : Bool := g.stays && g.block.isNone && g.threads.any g.able

/-- Long-latency results of a group that have not returned (R55). -/
def Dev.outstanding (d : Dev) (team gid : Nat) : Bool := d.results.any fun r => r.who.team == team && r.who.gid == gid

/-- A group leaves the active set; its window is written to the bank (R29, R53). -/
def Group.leave (g : Group) : Group := { g.flush with active := none, laneNo := none, runs := 0, since := none }

/-- The groups of a bay whose team runs, with their teams. -/
def Dev.bay (d : Dev) (core bay : Nat) : List (Nat × Group) :=
  (d.teams.filter fun t => t.stat == .running).flatMap fun t =>
    (t.groups.filter fun g => g.core == core && g.gslot % 2 == bay).map fun g => (t.id, g)

/-- The lanes of a bay that no group holds: 0 to 3, or 4 to 7 (R11). -/
def freeLanes (bay : Nat) (l : List (Nat × Group)) : List Nat :=
  ((List.range 4).map (4 * bay + ·)).filter fun n => !l.any fun p => p.2.laneNo == some n

/-- Groups sorted by since when they wait, then by group slot. -/
def byWait (l : List (Nat × Group)) : List (Nat × Group) :=
  sortBy (fun p => p.2.since.getD 0 * 256 + p.2.gslot) l

/-- The membership of a group of a bay at cycle `now`, and since when it waits: one that cannot stay leaves the active set, one that
is not eligible gives up its lane, a pending one is ready from the first cycle in which it could run with no result outstanding (R28,
R29). -/
def Group.settle (now : Nat) (outstanding : Bool) (g : Group) : Group :=
  let g := if g.active.isSome && !g.stays then g.leave else g
  let g := if g.active.isSome && !g.canRun then { g with laneNo := none, runs := 0, since := none } else g
  let waits := if g.active.isSome then g.laneNo.isNone && g.canRun else g.stays && !outstanding
  if g.laneNo.isSome then g else { g with since := if waits then some (g.since.getD now) else none }

/-- A bay brought up to date: its groups settled, ready pending groups put into the active set oldest first, eligible groups without a
lane given the free ones, longest waiting first (R28, R29). -/
def settleBay (d : Dev) (core bay : Nat) : Dev :=
  let now := d.cycle
  let upd (d : Dev) (p : Nat × Group) (f : Group → Group) : Dev := d.mapGroup p.1 p.2.gid f
  let d := (d.bay core bay).foldl (fun d p => upd d p (Group.settle now (d.outstanding p.1 p.2.gid))) d
  let l := d.bay core bay
  let room := 8 - (l.filter fun p => p.2.active.isSome).length
  let enter := (byWait (l.filter fun p => p.2.active.isNone && p.2.since.isSome)).take room
  let d := enter.foldl (fun d p =>
    upd d p fun g => { g with active := some now, laneNo := none, runs := 0, since := if g.canRun then some now else none }) d
  let l := d.bay core bay
  let next := (byWait (l.filter fun p => p.2.active.isSome && p.2.laneNo.isNone && p.2.canRun)).zip (freeLanes bay l)
  next.foldl (fun d p => upd d p.1 fun g => { g with laneNo := some p.2, runs := 0 }) d

/-- Every bay that holds a group of a running team brought up to date. -/
def settleBays (d : Dev) : Dev :=
  let bays := ((d.teams.filter fun t => t.stat == .running).flatMap fun t => t.groups.map fun g => 2 * g.core + g.gslot % 2).eraseDups
  bays.foldl (fun d b => settleBay d (b / 2) (b % 2)) d

/-- A group gives up its lane and waits again (R28). -/
def Group.giveLane (now : Nat) (g : Group) : Group := { g with laneNo := none, runs := 0, since := some now }

/-- Whether a relief cut has ended: no thread that can issue beyond B, or its runs are used up (R38). -/
def Group.cutOver (g : Group) : Bool :=
  match g.cut with
  | some (b, left) => left == 0 || !g.threads.any fun h => g.able h && decide (b < h.pc.toNat)
  | none => false

/-- An event of the bay that is due before the group's next run (R28, R29, R38). -/
def dueEvent (d : Dev) (core gslot : Nat) (g : Group) : Option Instr :=
  let l := d.bay core (gslot % 2)
  if g.cut.isNone && 1024 ≤ g.relief then some (.reliefCut core gslot)
  else if g.cutOver then some (.reliefCutEnd core gslot)
  else if 64 ≤ g.runs && l.any fun p => p.2.active.isSome && p.2.laneNo.isNone && p.2.canRun then
    some (.laneRunLimit core (g.laneNo.getD 0))
  else if (g.active.map fun c => decide (c + 4096 ≤ d.cycle)) == some true
      && l.any fun p => p.2.active.isNone && p.2.since.isSome then
    some (.activeTimeLimit core gslot)
  else none

/-! ## What holds a head run -/

/-- Long-latency destinations: an instruction whose result returns later (R26). -/
def longLatency (i : Instr) : Bool :=
  match i with
  | .ld _ _ _ _ _ | .atomExch _ _ _ _ _ _ _ | .atomCas _ _ _ _ _ _ _ | .atomAdd _ _ _ _ _ _ _ | .atomMin _ _ _ _ _ _ _
  | .atomMax _ _ _ _ _ _ _ | .atomAnd _ _ _ _ _ _ _ | .atomOr _ _ _ _ _ _ _ | .atomXor _ _ _ _ _ _ _
  | .atomGExch _ _ _ _ _ _ _ | .atomGCas _ _ _ _ _ _ _ | .atomGAdd _ _ _ _ _ _ _ | .tld _ _ _ _ | .trace _ _ _ _
  | .traceResume _ _ _ _ | .stex _ _ _ _ _ | .shcProbe _ _ _ _ | .sysr _ _ _ _ | .hload _ _ _ _ | .collArm _ _ _ _ => true
  | _ => false

/-- Instructions before which a pending deferred fault is delivered (R388). -/
def deliveryPoint (i : Instr) : Bool :=
  (Roles.ctlOf i).switch ||
  match i with
  | .fence _ _ _ _ _ _ | .barTeam _ _ _ _ | .barPair _ _ _ _ | .barClu _ _ _ _ | .barSys _ _ _ _ _ | .wait _ _ _ _ _
  | .qpush _ _ _ _ | .qpop _ _ _ _ | .regroup _ _ _ _ | .exit _ _ _ _ | .tret _ _ _ _ => true
  | _ => false

/-- The slot ranges an instruction touches in some threads (R56). -/
def touched (i : Instr) (hs : List Thread) : List (Nat × Nat) :=
  let r := Roles.rolesOf i
  let o := Roles.opsOf i
  hs.flatMap fun h => touchRange h r.1 o.1 ++ touchRange h r.2.1 o.2.1 ++ touchRange h r.2.2 o.2.2

/-- The indirect destination ranges of some threads. -/
def indDest (i : Instr) (hs : List Thread) : List (Nat × Nat) := indRanges i true hs

/-- The interlock of R56: an overlap with a range of a pending indirect write, or a fifth such write. -/
def interlocked (g : Group) (i : Instr) (hs : List Thread) : Bool :=
  (touched i hs).any (fun a => g.pendInd.any fun p => overlaps a (p.2.1, p.2.2))
    || (longLatency i && !(indDest i hs).isEmpty && decide (4 ≤ ((g.pendInd.map (·.1)).eraseDups).length))

/-- The fetch at the head run of a group: translated by its context, decoded for a compute core. -/
def fetchFor (d : Dev) (t : Team) (h : Thread) : Fetched × Dev :=
  fetch d t.ctx h.imgBase h.imgSlots h.pc.toNat t.kernel.isaLevel false

/-- The illegal-instruction trap in one thread (R405, R406). -/
def illegalTrap (pc detail : Nat) : Trap := { cause := 0x01, fpc := pc, resume := pc, detail }

/-- What an issue attempt comes to. -/
inductive Attempt where
  /-- nothing issues now -/
  | hold (d : Dev)
  /-- this event of the bay is due first -/
  | due (i : Instr) (d : Dev)
  /-- this instruction issues, by `cur` -/
  | run (i : Instr) (d : Dev)

/-- The group in a group slot of a core. -/
def Dev.inSlot (d : Dev) (core gslot : Nat) : Option (Team × Group) :=
  d.teams.findSome? fun t =>
    if t.stat == .saved then none
    else (t.groups.find? fun g => g.core == core && g.gslot == gslot && !g.ended).map fun g => (t, g)

/-- Threads of a head run that do not issue the instruction: a pending deferred fault is delivered first, or a repeat is active at a
slot that cannot be repeated (R388, R418). -/
def settleThreads (d : Dev) (t : Team) (g : Group) (i : Instr) (w0 : Nat) : List Nat → Dev × List Nat
  | [] => (d, [])
  | l :: r =>
    match g.atLane? l with
    | none => settleThreads d t g i w0 r
    | some h =>
      let ref : TRef := ⟨t.id, g.gid, h.tid⟩
      if deliveryPoint i && h.pend.isSome then settleThreads (deliverDeferred d ref) t g i w0 r
      else if h.repActive && !repeatable i then settleThreads (raiseTrap d ref (illegalTrap h.pc.toNat w0)) t g i w0 r
      else
        let x := settleThreads d t g i w0 r
        (x.1, l :: x.2)

/-- A record of the fetch of a thread. -/
def fetchRec (d : Dev) (t : Team) (core : Nat) (h : Thread) (cls sev addr : Nat) : ErrRec :=
  { cls, sev, kind := 0, index := core, ctx := some t.ctx, grid := some t.grid, addr, pc := h.pc.toNat, tid := h.tid, team := linearIndex d t }

/-! ## Control cores (R310, R313, R314) -/

/-- The context of a queue, its die of the ring, priority and die offset of the ring (R310). -/
def Queue.ctx (q : Queue) : Nat := field q.w0.toNat 44 35
def Queue.prio (q : Queue) : Nat := field q.w0.toNat 61 56
def Queue.enabled (q : Queue) : Bool := bitOf q.w0.toNat 63
def Queue.ringDie (q : Queue) : Nat := field q.w0.toNat 28 26

/-- A queue thread that a control core may serve (R312). -/
def Queue.ready (q : Queue) : Bool := (q.enabled || q.stopping) && !q.exited && q.wait == .none && q.held.isNone

/-- The absolute deadline of a queue thread that is a deadline item (R312). -/
def Queue.deadlineOf (q : Queue) : Option Nat := if bitOf q.w0.toNat 62 then q.deadline else none

/-- Distance of a queue number after the pointer of a level, wrapping (R314); the pointer is kept as its distance from 131,071. -/
def afterPtr (d : Dev) (key q : Nat) : Nat := (q + 131072 - (AMap.get 0 d.ptr key + 131071 + 1) % 131072) % 131072

/-- The pointer of a chooser's level moved to a queue number. -/
def setPtr (d : Dev) (key q : Nat) : Dev := { d with ptr := AMap.set 0 d.ptr key ((q + 131072 - 131071) % 131072) }

/-- Chooser keys: control core c at level L, the scheduler for die n at level L. -/
def ccKey (cc level : Nat) : Nat := cc * 64 + level
def dieKey (die level : Nat) : Nat := (16 + die) * 64 + level

/-- The items of one level in the order of R314: deadline items by absolute deadline, then the others, both by queue number after the
pointer. -/
def chooseOrder {α : Type} (deadline : α → Option Nat) (after : α → Nat) (l : List α) : List α :=
  let l := sortBy after l
  sortBy (fun x => (deadline x).getD 0) (l.filter fun x => (deadline x).isSome) ++ l.filter fun x => (deadline x).isNone

/-- `choose` without Kerf among queues (R314): the first of the highest level that has one. -/
def chooseQueue (d : Dev) (cc : Nat) (l : List (Nat × Queue)) : Option (Nat × Queue) :=
  (List.range 64).findSome? fun n =>
    (chooseOrder (fun p => p.2.deadlineOf) (fun p => afterPtr d (ccKey cc (63 - n)) p.1) (l.filter fun p => p.2.prio == 63 - n)).head?

/-- The queue a control core serves next: the one in service, else the chosen ready one, which it takes into service. -/
def serveNext (d : Dev) (cc : Nat) : Option Nat × Dev :=
  let cur := AMap.get 0 d.serving cc
  if cur ≠ 0 && (d.queue (cur - 1)).ready then (some (cur - 1), d)
  else
    match chooseQueue d cc (d.queues.filter fun p => p.1 / 8192 == cc && p.2.ready) with
    | none => (none, { d with serving := AMap.set 0 d.serving cc 0 })
    | some (q, v) =>
      let d := setPtr d (ccKey cc v.prio) q
      (some q, { d with serving := AMap.set 0 d.serving cc (q + 1), serveAt := AMap.set 0 d.serveAt cc d.cycle })

/-- Whether the service of a control core has lasted 120 control cycles, 240 core cycles (R313). -/
def serviceOver (d : Dev) (cc : Nat) : Bool :=
  AMap.get 0 d.serving cc != 0 && decide (AMap.get 0 d.serveAt cc + 240 ≤ d.cycle)

/-- A queue thread's read waits on a page fault of an address, if one is outstanding there (R421). -/
def Dev.holdQueue (d : Dev) (q va : Nat) : Dev :=
  if d.faulted.contains ((d.queue q).ctx, va / 4096) then d.setQueue q { d.queue q with held := some (va / 4096) } else d

/-- The start of a queue thread at entry_pc of its program's descriptor (R310): code_base, code_slots, isa_level and entry_pc. -/
def startQueue (d : Dev) (q : Nat) : Bool × Dev :=
  let v := d.queue q
  if v.started then (true, d)
  else
    let rec_ : ErrRec := { cls := 0, sev := 1, kind := 1, index := q / 8192, ctx := some v.ctx, queue := some q }
    match readOrFault d v.ctx v.w2.toNat 5 rec_ with
    | (none, d) => (false, d.holdQueue q v.w2.toNat)
    | (some w0, d) =>
      match readOrFault d v.ctx (v.w2.toNat + 8) 5 rec_ with
      | (none, d) => (false, d.holdQueue q (v.w2.toNat + 8))
      | (some w1, d) =>
        match readOrFault d v.ctx (v.w2.toNat + 16) 5 rec_ with
        | (none, d) => (false, d.holdQueue q (v.w2.toNat + 16))
        | (some w2, d) => (true, d.setQueue q
            { v with
              started := true
              level := field w1 47 40
              thread := { v.thread with pc := BitVec.ofNat 32 (field w2 31 0), imgBase := w0, imgSlots := field w1 31 0 } })

/-- An attempt to run one instruction of the queue thread that a control core serves; a service that has lasted its time ends first. -/
def attemptServe (d : Dev) (cc : Nat) : Attempt :=
  if serviceOver d cc then .due (.serviceQuantumExpiry cc) d
  else
  match serveNext d cc with
  | (none, d) => .hold d
  | (some q, d) =>
    match startQueue d q with
    | (false, d) => .hold d
    | (true, d) =>
      let v := d.queue q
      let h := v.thread
      let rec_ (cls sev a : Nat) : ErrRec :=
        { cls, sev, kind := 1, index := cc, ctx := some v.ctx, queue := some q, addr := a, pc := h.pc.toNat }
      match fetch d v.ctx h.imgBase h.imgSlots h.pc.toNat v.level true with
      | (.later, d) => .hold d
      | (.wait a l r e, d) => .hold ((pageFaultRecord d v.ctx a l r needX 3 e (rec_ 0x40 1 a)).holdQueue q a)
      | (.bad a, d) => .hold (contextError d (rec_ 0x41 2 a))
      | (.poison a, d) => .hold (contextError d (rec_ 0x44 2 a))
      | (.illegal x, d) => .hold (queueTrap d q (illegalTrap h.pc.toNat x))
      | (.instr i lits w0, d) => .run i { d with cur := .queue q lits w0 }

/-! ## After an instruction -/

/-- A group all of whose threads wait leaves the active set at once (R29, R53); the service of a queue thread that parked, exited or
trapped ends (R313). -/
def settleAfter (d : Dev) : Dev :=
  match d.cur with
  | .run team gid _ _ _ =>
    d.mapGroup team gid fun g => if g.active.isSome && !g.stays then g.leave else g
  | .queue q _ _ => if (d.queue q).ready then d else { d with serving := AMap.set 0 d.serving (q / 8192) 0 }
  | .none => d

end Sys2Proof.Machine
end

