-- ==== Sys2Proof/Machine/Access.lean ====
section
/-! DEFINITION. Thread accesses to the local apertures (R57, R58, R81 to R88, R203 to R210): where the bytes lie, what is performed
at issue and what is on its way; results of long latency (R26, R55, R56); releases and what they wait for (R116, R121, R218);
words watched at the die's port (R93). -/

namespace Sys2Proof.Machine

/-! ## Items on their way -/

/-- The same thread, whatever group it stands in. -/
def sameThread (a b : TRef) : Bool := a.team == b.team && a.tid == b.tid

def Issuer.isThread (w : Issuer) (r : TRef) : Bool :=
  match w with
  | .thread t _ => sameThread t r
  | _ => false

/-- Bytes an access touches. -/
def AccKind.bytes : AccKind → Nat
  | .load n => n
  | .store n _ => n
  | .atom op ty _ _ => atomBytes op ty
  | .red op ty _ => atomBytes op ty
  | .commit => 128
  | .barSys _ => 8
  | .test _ _ => 8
  | .message _ => 0

/-- Whether an access may write its bytes. -/
def AccKind.writes : AccKind → Bool
  | .store _ _ | .atom _ _ _ _ | .red _ _ _ | .barSys _ => true
  | .load _ | .commit | .test _ _ | .message _ => false

/-- The same issuer; a thread stays itself when it changes its group or core. -/
def Issuer.same (a b : Issuer) : Bool :=
  match a, b with
  | .thread t _, .thread u _ => sameThread t u
  | _, _ => a == b

/-- First byte of an access in its space. -/
def Access.start (a : Access) : Nat := if a.space = 0 then a.addr else a.key

/-- Whether `m` bytes from `a` and `n` bytes from `b` have one in common. -/
def bytesMeet (a m b n : Nat) : Bool := a < b + n && b < a + m

/-- What a glob access names as the tables stand. -/
def Access.target? (d : Dev) (a : Access) : Option Target :=
  match walk d a.ctx a.addr 0 with
  | .leaf e _ size => some (targetOf e a.addr size)
  | _ => none

/-- The memory that holds a target's bytes: none for another package and for an invalid frame. -/
def Target.place? (d : Dev) : Target → Option Place
  | .phys pa => readPlace d pa
  | .host port x => some (.host (hostKey port ((atsAsk d port x).1.getD x)))
  | .remote _ _ => none

/-- Whether `m` bytes of a target and `n` bytes of another are the same somewhere. -/
def Target.meets (d : Dev) (a b : Target) (m n : Nat) : Bool :=
  match a, b with
  | .remote s x, .remote u y => s == u && bytesMeet x m y n
  | _, _ =>
    match a.place? d, b.place? d with
    | some (.hbm x), some (.hbm y) => bytesMeet x m y n
    | some (.host x), some (.host y) => bytesMeet x m y n
    | _, _ => false

/-- Whether two accesses touch a common byte: in glob, by their addresses or by what these name (R120). -/
def Access.meets (d : Dev) (a b : Access) : Bool :=
  a.space == b.space
    && (bytesMeet a.start a.kind.bytes b.start b.kind.bytes
      || (a.space == 0 && match a.target? d, b.target? d with
        | some x, some y => x.meets d y a.kind.bytes b.kind.bytes
        | _, _ => false))

/-- Whether an earlier access of the same issuer touches a byte of `a` and is still on its way (R119, R120). -/
def behindOwn (d : Dev) (l : List Access) (a : Access) : Bool := l.any fun b => b.who.same a.who && b.id < a.id && b.meets d a

/-! ## Acquires (R111, R112) -/

/-- Whether the access of a name is still on its way. -/
def stillOut (d : Dev) (n : Nat) : Bool :=
  (d.scrWrites.any fun a => a.id == n) || (d.reqs.any fun a => a.id == n) || (d.side.any fun e => e.access.id == n)
    || d.outs.any fun o => o.2.sent.any fun x => x.access.id == n

/-- Whether a read that acquires for an access is still on its way: the access is performed after it. -/
def heldBy (d : Dev) (names : List Nat) : Bool := names.any (stillOut d)

/-- The reads among a thread's accesses that are on their way. -/
def readsOut (d : Dev) (r : TRef) : List Nat :=
  let read (a : Access) : Bool := a.who.isThread r && match a.kind with | .load _ | .atom _ _ _ _ | .red _ _ _ => true | _ => false
  ((d.scrWrites.filter read) ++ (d.reqs.filter read) ++ ((d.side.map (·.access)).filter read) ++ d.outs.flatMap fun o => (o.2.sent.map (·.access)).filter read).map (·.id)

/-- A thread's later accesses follow the reads of these names. -/
def acquireReads (d : Dev) (r : TRef) (names : List Nat) : Dev :=
  d.mapThread r fun h => { h with acqs := h.acqs.filter (stillOut d) ++ names }

/-! ## Releases (R116, R218) -/

/-- Whether accesses of a thread made before item `upto` are not yet performed at a scope. For scopes within the group, a glob access of
this package is performed once its home slice has accepted it (R218). A refused access counts until its fault is in the thread (DEDUCED,
log 85). -/
def outstandingBefore (d : Dev) (r : TRef) (scope upto : Nat) : Bool :=
  (d.scrWrites.any fun a => a.who.isThread r && a.id < upto)
    || (d.reqs.any fun a => a.who.isThread r && a.id < upto)
    || (d.late.any fun x => x.who.isThread r && x.id < upto)
    || (d.qops.any fun q => sameThread q.who r && q.id < upto && !q.waiting && q.value.isSome)
    || (d.side.any fun e => e.access.who.isThread r && e.access.id < upto)
    || (d.outs.any fun o => o.2.sent.any fun x => x.access.who.isThread r && x.access.id < upto)
    || (2 ≤ scope && d.acks.any fun a => a.who.isThread r && a.id < upto)

/-- A release of a thread at a scope: whether nothing is outstanding; at `.die` or wider, the core's near partials are merged
(R332). -/
def tryRelease (d : Dev) (r : TRef) (core scope upto : Nat) : Bool × Dev :=
  if outstandingBefore d r scope upto then (false, d)
  else (true, if 5 ≤ scope then mergePartials d fun p => p.core == core else d)

/-! ## Long-latency results (R26, R55, R56) -/

/-- Where an operand names a destination, for a result that returns later. -/
def destOf (e : Env) (r : Roles.Role) (o : Operand) : Dest :=
  match o with
  | .reg .g _ _ _ => { slot := some (firstSlot e r o), indirect := false, y := none, h := none, slots := (roleSlots r).1 }
  | .ind _ _ _ => { slot := some (firstSlot e r o), indirect := true, y := none, h := none, slots := (roleSlots r).1 }
  | .reg .y _ _ i => { slot := none, indirect := false, y := some i.toNat, h := none, slots := (roleSlots r).1 }
  | .reg .h _ _ i => { slot := none, indirect := false, y := none, h := some i.toNat, slots := 2 }
  | _ => { slot := none, indirect := false, y := none, h := none, slots := 0 }

/-- A new outstanding result, by its name. -/
def newResult (d : Dev) (who : TRef) (dest : Dest) (value : Option Nat) (mask instr : Nat) (awaited : Bool := false) : Nat × Dev :=
  let (id, d) := d.freshId
  (id, { d with results := d.results ++ [⟨id, who, dest, value, [], mask, instr, awaited⟩] })

/-- The value of a result produced. -/
def setResult (d : Dev) (id v : Nat) : Dev :=
  { d with results := d.results.map fun r => if r.id = id then { r with value := some v } else r }

/-- The bytes of an access that are performed together where it tears: a byte in team memory (R432), 8 bytes at a die and in a bank (R58,
R110). -/
def Access.unit (a : Access) : Nat := if a.space = 2 then 1 else 8

/-- The next unit of a load's result read (R110). -/
def addPart (d : Dev) (id v : Nat) : Dev :=
  { d with results := d.results.map fun r => if r.id = id then { r with part := r.part ++ [v] } else r }

/-- A load's result produced: the units read before, and the rest. -/
def finishLoad (d : Dev) (id unit v : Nat) : Dev :=
  let whole (l : List Nat) : Nat := l.foldr (fun p acc => p % 2 ^ (8 * unit) + 2 ^ (8 * unit) * acc) v
  { d with results := d.results.map fun r => if r.id = id then { r with value := some (whole r.part) } else r }

/-- Pending indirect writes none of whose results is outstanding are over; an instruction that they held is tested again (R56). -/
def retireInd (d : Dev) (team gid : Nat) : Dev :=
  d.mapGroup team gid fun g =>
    { g with
      pendInd := g.pendInd.filter fun p => d.results.any fun r => r.instr == p.1
      block := if g.block = some .interlock then none else g.block }

/-- A result that never comes: its destination is not written. -/
def dropResult (d : Dev) (id : Nat) : Dev :=
  match d.results.find? fun r => r.id == id with
  | some r => retireInd { d with results := d.results.filter fun x => x.id != id } r.who.team r.who.gid
  | none => d

def dropResult? (d : Dev) (id : Option Nat) : Dev := match id with | some n => dropResult d n | none => d

/-- Direct slots of a long-latency destination leave the window of the executing threads: what is read before the result returns
is the bank's old value (R55). -/
def clearLong (i : Instr) (d : Dev) : Dev :=
  match d.cur with
  | .run team gid lanes _ _ =>
    let r := (Roles.rolesOf i).1
    match (Roles.opsOf i).1 with
    | .reg .g _ _ n =>
      if !isDestRole r then d else
      let s := n.toNat * roleView r
      d.mapGroup team gid fun g =>
        { g with threads := g.threads.map fun h => if lanes.contains h.lane then h.yieldFor [(s, s + (roleSlots r).1)] else h }
    | _ => d
  | _ => d

/-- The executing threads of the head run. -/
def runThreads (d : Dev) : List Thread := (issuers d).map (·.2.h)

/-- The pending indirect write of an instruction recorded: the ranges that its threads declare, together their union (R56). -/
def recordInd (i : Instr) (k : Nat) (before d : Dev) : Dev :=
  match before.cur with
  | .run team gid _ _ _ =>
    let rs := ((indDest i (runThreads before)).filter fun p => p.1 < p.2).eraseDups
    if !d.results.any fun r => r.instr == k then d
    else d.mapGroup team gid fun g => { g with pendInd := g.pendInd ++ rs.map fun p => (k, p.1, p.2) }
  | _ => d

/-- An instruction whose results return later; `eff` is given the instruction's name. -/
def longRun (i : Instr) (check : Env → Option Trap) (eff : Nat → Env → Who → Dev → Dev) (d : Dev) : Dev :=
  let (k, d) := d.freshId
  (recordInd i k d (issueAll i check (eff k) (clearLong i d))).closeWindow i

/-- The same for instructions that R27 does not reduce to one issue (R241). -/
def longEach (i : Instr) (check : Env → Option Trap) (eff : Nat → Env → Who → Dev → Dev) (d : Dev) : Dev :=
  let (k, d) := d.freshId
  (recordInd i k d (eachThread i check (eff k) (clearLong i d))).closeWindow i

/-! ## Where local addresses lie -/

/-- Where the bytes of a local access lie. -/
inductive Loc where
  /-- nothing there: reads zero, discards (R57, R86) -/
  | miss
  | scr (key : Nat)
  | tmem (key : Nat)
  | stk (o : Nat)
  /-- bank of a thread: slot and byte in it -/
  | bank (who : TRef) (slot byte : Nat)
  deriving DecidableEq, Repr

/-- The split H of a pair team's memory (R85). -/
def pairSplit (k : Kernel) : Nat := ceilDiv (ceilDiv k.tmem 2) 1024 * 1024

/-- The key of a team-memory offset of a team (R85). -/
def Team.tmemAt (t : Team) (o : Nat) : Nat :=
  if t.kernel.pair && pairSplit t.kernel ≤ o then tmemKey (t.core + 1) (t.tmBase2 + (o - pairSplit t.kernel))
  else tmemKey t.core (t.tmBase + o)

/-- Bytes of declared team memory that a team holds on a core: first byte and length. -/
def Team.declared (t : Team) (core : Nat) : Nat × Nat :=
  if core = t.core then (t.tmBase, if t.kernel.pair then pairSplit t.kernel else t.kernel.tmem)
  else if t.kernel.pair && core == t.core + 1 then (t.tmBase2, t.kernel.tmem - pairSplit t.kernel)
  else (0, 0)

/-- Whether a team's memory and registers are on its core. -/
def Team.resident (t : Team) : Bool := t.stat != .saved

/-- Whether a byte of a core's team memory is declared memory of a resident team of a context (R86). -/
def peerHit (d : Dev) (ctx core off : Nat) : Bool :=
  d.teams.any fun t => t.ctx == ctx && t.resident && (t.declared core).1 ≤ off && off < (t.declared core).1 + (t.declared core).2

/-- The bank byte that an rwin offset names, for a context (R57). -/
def rwinAt (d : Dev) (ctx off : Nat) : Loc :=
  let slot := field off 10 2
  match d.inSlot (field off 34 25) (field off 24 17) with
  | none => .miss
  | some (t, g) =>
    if t.ctx != ctx || !t.resident || allocSlots t.kernel g ≤ slot then .miss
    else
      match g.atLane? (field off 16 11) with
      | some h => .bank ⟨t.id, g.gid, h.tid⟩ slot (off % 4)
      | none => .miss

/-- The context, core and own die of the issuer. -/
def Env.ctx (e : Env) : Nat :=
  match e.own with
  | some (t, _) => t.ctx
  | none => field (e.d.queue e.q).w0.toNat 44 35

def Env.die (e : Env) : Nat :=
  match e.own with
  | some (_, g) => dieOf g.core
  | none => field (e.d.queue e.q).w0.toNat 28 26

/-- An aligned address whose unused offset bits are zero (R81, R82). -/
def addrOk (n ea : Nat) : Bool :=
  apertureOf ea != .unassigned && ea % 2 ^ 56 < 2 ^ offsetBits (apertureOf ea) && ea % n == 0

/-- Where the bytes of a local access lie, or none for the aperture trap (R82 to R87). `atomic` excludes rwin and stk. -/
def localAt (e : Env) (n ea : Nat) (atomic : Bool) : Option Loc :=
  let o := ea % 2 ^ 56
  if !addrOk n ea then none
  else
    match apertureOf ea, e.own with
    | .die, _ => (dieOffset e.die o).map fun p => .scr (scrKey p.1 p.2)
    | .rwin, some (t, _) => if atomic then none else some (rwinAt e.d t.ctx o)
    | .peer, some (t, g) =>
      let core := clusterOf g.core * 16 + field o 22 19
      let b := o % 2 ^ 19
      if Config.teamBytes ≤ b then none else some (if peerHit e.d t.ctx core b then .tmem (tmemKey core b) else .miss)
    | .team, some (t, _) => if t.kernel.tmem ≤ o then none else some (.tmem (t.tmemAt o))
    | .stk, some (t, _) => if atomic || decide (t.kernel.stackS ≤ o) then none else some (.stk o)
    | _, _ => none

/-- The aperture trap (R82), with the effective address. -/
def apertureTrap (e : Env) (ea : Nat) : Trap := { cause := 0x03, fpc := e.h.pc.toNat, resume := e.h.pc.toNat, addr := ea }

/-- Effective address (R203). -/
def Env.ea (e : Env) (a b : Operand) : Nat := wrapInt ((e.scalar 64 .int a : Int) + sext (e.scalar 32 .int b) 32) 64

/-! ## Bytes at a location -/

/-- `n` bytes of the bank of a thread from a slot's byte; slots at or above the allocation read zero. -/
def bankBytes (d : Dev) (r : TRef) (slot byte n : Nat) : Nat :=
  match d.team? r.team, d.group? r.team r.gid, d.thread? r with
  | some t, some g, some h =>
    let a := allocSlots t.kernel g
    let l := (List.range (ceilDiv (byte + n) 4)).map fun k =>
      if slot + k < a then (AMap.get 0 h.bank (slot + k)).toNat else 0
    packElems 32 l / 2 ^ (8 * byte) % 2 ^ (8 * n)
  | _, _, _ => 0

/-- `n` bytes written to a thread's bank. -/
def bankPut (d : Dev) (r : TRef) (slot byte n v : Nat) : Dev :=
  match d.team? r.team, d.group? r.team r.gid with
  | some t, some g =>
    let a := allocSlots t.kernel g
    let k := ceilDiv (byte + n) 4
    let mask := (2 ^ (8 * n) - 1) * 2 ^ (8 * byte)
    d.mapThread r fun h =>
      { h.cure (wholeSlots slot mask k) with
        bank := bankWrite h.bank ((slotWrites slot (h.bankSlots slot k) (v * 2 ^ (8 * byte)) mask k).filter fun p => decide (p.1 < a)) }
  | _, _ => d

/-- `n` bytes at a location, as the issuing thread reads them. -/
def Loc.read (d : Dev) (own : Option (Team × Group)) (lane n : Nat) : Loc → Nat
  | .miss => 0
  | .scr k => Memory.readN d.scr k n
  | .tmem k => Memory.readN d.tmem k n
  | .stk o => match own with | some (t, g) => stkReadN d t g lane o n | none => 0
  | .bank r s b => bankBytes d r s b n

/-- `n` bytes written at a location. -/
def Loc.write (d : Dev) (own : Option (Team × Group)) (lane n v : Nat) : Loc → Dev
  | .miss => d
  | .scr k => { d with scr := Memory.writeN d.scr k n v, poison := unpoison d 1 k n }
  | .tmem k => { d with tmem := Memory.writeN d.tmem k n v, poison := unpoison d 2 k n }
  | .stk o => match own with | some (t, g) => stkWriteN d t g lane o n v | none => d
  | .bank r s b => bankPut d r s b n v

/-- Whether bytes at a location are poisoned. -/
def Loc.poisoned (d : Dev) (own : Option (Team × Group)) (lane n : Nat) : Loc → Bool
  | .scr k => Machine.poisoned d 1 k n
  | .tmem k => Machine.poisoned d 2 k n
  | .stk o =>
    match own with
    | some (t, g) => stkPoisoned d t g lane o n
    | none => false
  | .bank r s _ => match d.thread? r with | some h => (List.range (ceilDiv n 4)).any fun k => h.bad.contains (s + k) | none => false
  | .miss => false

/-! ## Words watched at a die's port (R93, R284, R312) -/

/-- An absolute deadline: now plus nanoseconds, in 2^-16 ns of device time (R312). -/
def deadlineAfter (d : Dev) (ns : Nat) : Nat := (d.secs * 10 ^ 9 + d.nanos + ns) * 65536 + d.frac

/-- A queue thread becomes ready (R312). -/
def Dev.readyQueue (d : Dev) (q : Nat) : Dev :=
  let v := d.queue q
  let dl := if bitOf v.w0.toNat 62 then some (deadlineAfter d (field v.w1.toNat 63 32)) else none
  d.setQueue q { v with wait := .none, readyAt := d.cycle, deadline := dl }

/-- A thread parked at an instruction becomes ready to retry it. -/
def Dev.wakeRef (d : Dev) (r : TRef) : Dev :=
  d.mapThread (d.refNow r) fun h => match h.st with | .parked _ => { h with st := .ready } | _ => h

/-- The waiter of a watch becomes ready. -/
def Dev.wakeIssuer (d : Dev) (w : Issuer) : Dev :=
  match w with
  | .thread t _ => d.wakeRef t
  | .queue q => if (d.queue q).wait == .none then d else d.readyQueue q
  | .remote src seq => d.notify (.fabric 3 src seq)
  | .part _ | .job _ _ | .agent _ _ => d

/-- A write to the word at a key tested against its waiters (R93): every one that the value satisfies wakes. -/
def wakeWatch (d : Dev) (key : Nat) : Dev :=
  let w := Memory.readN d.scr key 8
  let hit (v : Watch) : Bool := v.key == key && v.held && waitHolds v.cmp w v.value
  (d.watch.filter hit).foldl (fun d v => d.wakeIssuer v.who) { d with watch := d.watch.filter fun v => !hit v }

/-- Every word that a write of `n` bytes at a key touches is tested. -/
def wakeWords (d : Dev) (key n : Nat) : Dev :=
  (List.range (ceilDiv (key % 8 + n) 8)).foldl (fun d k => wakeWatch d (key / 8 * 8 + 8 * k)) d

/-- Whether the die's watch table takes the word (R93). -/
def watchRoom (d : Dev) (key : Nat) : Bool :=
  let mine := d.watch.filter fun v => v.held && v.key / 2 ^ 26 == key / 2 ^ 26
  (mine.any fun v => v.key == key) || decide ((mine.map (·.key)).eraseDups.length < Config.watchEntries)

end Sys2Proof.Machine
end

