-- ==== Sys2Proof/Machine/IntAlu.lean ====
section
/-! DEFINITION. The integer and logic instructions of class 0 (R171 to R173). -/

namespace Sys2Proof.Machine

/-- Bits of a width (R154). -/
def widthBits : IWidth → Nat
  | .w32 => 32 | .w64 => 64 | .w16 => 16 | .w8 => 8

/-- An n-bit scalar result, reduced modulo 2^n (R168, R171). -/
def intOut (n : Nat) (v : Nat) : Out := { val := v % 2 ^ n, mask := 2 ^ n - 1 }

/-- A predicate result. -/
def predOut (v : Bool) : Out := { val := b2n v, mask := 1 }

/-- Operands A, B at width n and B as a 32-bit count. -/
def srcI (e : Env) (w : IWidth) (o : Operand) : Nat := e.scalar (widthBits w) .int o
def srcC (e : Env) (o : Operand) : Nat := e.scalar 32 .int o

/-- sat of `add` and `sub` (R173): the exact result clamped. Without sat, as it is. -/
def satInt (sat : ISat) (n : Nat) (x : Int) : Int :=
  match sat with
  | .wrap => x
  | .signed => max (-(2 ^ (n - 1) : Nat)) (min x ((2 ^ (n - 1) : Nat) - 1))
  | .unsigned => max 0 (min x ((2 ^ n : Nat) - 1))

/-- An operand as the saturation mode reads it: signed for the signed form, unsigned otherwise (R173). -/
def satRead (sat : ISat) (n v : Nat) : Int :=
  match sat with
  | .signed => sext v n
  | _ => (v : Int)

/-- lop3 and plop3 (R138): bit 7 − (d + 2a + 4b) of the truth table. -/
def lutBit (tab : Byte) (d a b : Bool) : Bool := bitOf tab.toNat (7 - (b2n d + 2 * b2n a + 4 * b2n b))

/-- A number from its bits below n, given as a function. -/
def bitsOf (f : Nat → Bool) : Nat → Nat
  | 0 => 0
  | n + 1 => bitsOf f n + b2n (f n) * 2 ^ n

/-- Count of 1 bits below n. -/
def popCount (v : Nat) : Nat → Nat
  | 0 => 0
  | n + 1 => popCount v n + b2n (bitOf v n)

/-- Leading zeros of an n-bit value: n for zero. -/
def leadZeros (n v : Nat) : Nat := if v = 0 then n else n - 1 - v.log2

/-- Trailing zeros, looking at `k` bits from bit i. -/
def trailZeros (v : Nat) : Nat → Nat → Nat
  | 0, i => i
  | k + 1, i => if bitOf v i then i else trailZeros v k (i + 1)

/-- p and l of R172 from a field specification. -/
def fieldSpec (n b : Nat) : Nat × Nat :=
  let p := min (field b 7 0) n
  (p, min (field b 15 8) (n - p))

/-- bfe (R172), unsigned and signed. -/
def bfe (signed : Bool) (n a b : Nat) : Nat :=
  let (p, l) := fieldSpec n b
  let v := a / 2 ^ p % 2 ^ l
  if l = 0 then 0 else if signed then wrapInt (sext v l) n else v

/-- bfi (R172). -/
def bfi (n d a b : Nat) : Nat :=
  let (p, l) := fieldSpec n b
  if l = 0 then d else putField d (p + l - 1) p a

/-- Rotation left by c mod n. -/
def rotl (n a c : Nat) : Nat := (a * 2 ^ (c % n) + a / 2 ^ (n - c % n)) % 2 ^ n

/-- `add` (R171, R173). -/
def execAdd (c : Ctl) (w : IWidth) (sat : ISat) (d a b : Operand) (s : State) :
    Host.Outcome State Fault Refusal :=
  s.onDev (aluRun (.add c w sat d a b) fun e =>
    intOut (widthBits w) (wrapInt (satInt sat (widthBits w) (satRead sat (widthBits w) (srcI e w a) + satRead sat (widthBits w) (srcI e w b))) (widthBits w)))

/-- `sub` (R171, R173). -/
def execSub (c : Ctl) (w : IWidth) (sat : ISat) (d a b : Operand) (s : State) :
    Host.Outcome State Fault Refusal :=
  s.onDev (aluRun (.sub c w sat d a b) fun e =>
    intOut (widthBits w) (wrapInt (satInt sat (widthBits w) (satRead sat (widthBits w) (srcI e w a) - satRead sat (widthBits w) (srcI e w b))) (widthBits w)))

/-- `mul`, low half (R171). -/
def execMul (c : Ctl) (w : IWidth) (d a b : Operand) (s : State) :
    Host.Outcome State Fault Refusal :=
  s.onDev (aluRun (.mul c w d a b) fun e =>
    intOut (widthBits w) (srcI e w a * srcI e w b))

/-- `mul.hi.i` (R171): bits 2n − 1 to n of the signed product. -/
def execMulHiI (c : Ctl) (w : IWidth) (d a b : Operand) (s : State) :
    Host.Outcome State Fault Refusal :=
  s.onDev (aluRun (.mulHiI c w d a b) fun e =>
    intOut (widthBits w) (wrapInt (sext (srcI e w a) (widthBits w) * sext (srcI e w b) (widthBits w)) (2 * (widthBits w)) / 2 ^ (widthBits w)))

/-- `mul.hi.n` (R171). -/
def execMulHiN (c : Ctl) (w : IWidth) (d a b : Operand) (s : State) :
    Host.Outcome State Fault Refusal :=
  s.onDev (aluRun (.mulHiN c w d a b) fun e =>
    intOut (widthBits w) (srcI e w a * srcI e w b / 2 ^ (widthBits w)))

/-- `mad` (R171): D is read and written. -/
def execMad (c : Ctl) (w : IWidth) (d a b : Operand) (s : State) :
    Host.Outcome State Fault Refusal :=
  s.onDev (aluRun (.mad c w d a b) fun e =>
    intOut (widthBits w) (srcI e w a * srcI e w b + e.oldScalar (widthBits w) d))

/-- `min.i` (R171). -/
def execMinI (c : Ctl) (w : IWidth) (d a b : Operand) (s : State) :
    Host.Outcome State Fault Refusal :=
  s.onDev (aluRun (.minI c w d a b) fun e =>
    intOut (widthBits w) (if intLt true (widthBits w) (srcI e w b) (srcI e w a) then srcI e w b else srcI e w a))

/-- `min.n` (R171). -/
def execMinN (c : Ctl) (w : IWidth) (d a b : Operand) (s : State) :
    Host.Outcome State Fault Refusal :=
  s.onDev (aluRun (.minN c w d a b) fun e =>
    intOut (widthBits w) (min (srcI e w a) (srcI e w b)))

/-- `max.i` (R171). -/
def execMaxI (c : Ctl) (w : IWidth) (d a b : Operand) (s : State) :
    Host.Outcome State Fault Refusal :=
  s.onDev (aluRun (.maxI c w d a b) fun e =>
    intOut (widthBits w) (if intLt true (widthBits w) (srcI e w a) (srcI e w b) then srcI e w b else srcI e w a))

/-- `max.n` (R171). -/
def execMaxN (c : Ctl) (w : IWidth) (d a b : Operand) (s : State) :
    Host.Outcome State Fault Refusal :=
  s.onDev (aluRun (.maxN c w d a b) fun e =>
    intOut (widthBits w) (max (srcI e w a) (srcI e w b)))

/-- `shl` (R171): 0 for a count of n or more. -/
def execShl (c : Ctl) (w : IWidth) (d a b : Operand) (s : State) :
    Host.Outcome State Fault Refusal :=
  s.onDev (aluRun (.shl c w d a b) fun e =>
    intOut (widthBits w) (if (widthBits w) ≤ srcC e b then 0 else srcI e w a * 2 ^ srcC e b))

/-- `shr.n`, `shr.b` (R171). -/
def execShrN (c : Ctl) (w : IWidth) (d a b : Operand) (s : State) :
    Host.Outcome State Fault Refusal :=
  s.onDev (aluRun (.shrN c w d a b) fun e =>
    intOut (widthBits w) (if (widthBits w) ≤ srcC e b then 0 else srcI e w a / 2 ^ srcC e b))

/-- `shr.i` (R171). -/
def execShrI (c : Ctl) (w : IWidth) (d a b : Operand) (s : State) :
    Host.Outcome State Fault Refusal :=
  s.onDev (aluRun (.shrI c w d a b) fun e =>
    intOut (widthBits w) (wrapInt (sext (srcI e w a) (widthBits w) / ((2 ^ min (widthBits w) (srcC e b) : Nat) : Int)) (widthBits w)))

/-- `rol` (R171). -/
def execRol (c : Ctl) (w : IWidth) (d a b : Operand) (s : State) :
    Host.Outcome State Fault Refusal :=
  s.onDev (aluRun (.rol c w d a b) fun e =>
    intOut (widthBits w) (rotl (widthBits w) (srcI e w a) (srcC e b)))

/-- `lop3` (R138, R171): D is read and written. -/
def execLop3 (c : Ctl) (w : IWidth) (tab : Byte) (d a b : Operand) (s : State) :
    Host.Outcome State Fault Refusal :=
  s.onDev (aluRun (.lop3 c w tab d a b) fun e =>
    intOut (widthBits w) (bitsOf (fun k => lutBit tab (bitOf (e.oldScalar (widthBits w) d) k) (bitOf (srcI e w a) k) (bitOf (srcI e w b) k)) (widthBits w)))

/-- `popc` (R171). -/
def execPopc (c : Ctl) (w : IWidth) (d a b : Operand) (s : State) :
    Host.Outcome State Fault Refusal :=
  s.onDev (aluRun (.popc c w d a b) fun e =>
    intOut (widthBits w) (popCount (srcI e w a) (widthBits w)))

/-- `clz` (R171). -/
def execClz (c : Ctl) (w : IWidth) (d a b : Operand) (s : State) :
    Host.Outcome State Fault Refusal :=
  s.onDev (aluRun (.clz c w d a b) fun e =>
    intOut (widthBits w) (leadZeros (widthBits w) (srcI e w a)))

/-- `ctz` (R171). -/
def execCtz (c : Ctl) (w : IWidth) (d a b : Operand) (s : State) :
    Host.Outcome State Fault Refusal :=
  s.onDev (aluRun (.ctz c w d a b) fun e =>
    intOut (widthBits w) (trailZeros (srcI e w a) (widthBits w) 0))

/-- `brev` (R171). -/
def execBrev (c : Ctl) (w : IWidth) (d a b : Operand) (s : State) :
    Host.Outcome State Fault Refusal :=
  s.onDev (aluRun (.brev c w d a b) fun e =>
    intOut (widthBits w) (bitsOf (fun k => bitOf (srcI e w a) ((widthBits w) - 1 - k)) (widthBits w)))

/-- `bfe.n` (R172). -/
def execBfeN (c : Ctl) (w : IWidth) (d a b : Operand) (s : State) :
    Host.Outcome State Fault Refusal :=
  s.onDev (aluRun (.bfeN c w d a b) fun e =>
    intOut (widthBits w) (bfe false (widthBits w) (srcI e w a) (srcC e b)))

/-- `bfe.i` (R172). -/
def execBfeI (c : Ctl) (w : IWidth) (d a b : Operand) (s : State) :
    Host.Outcome State Fault Refusal :=
  s.onDev (aluRun (.bfeI c w d a b) fun e =>
    intOut (widthBits w) (bfe true (widthBits w) (srcI e w a) (srcC e b)))

/-- `bfi` (R172): D is read and written. -/
def execBfi (c : Ctl) (w : IWidth) (d a b : Operand) (s : State) :
    Host.Outcome State Fault Refusal :=
  s.onDev (aluRun (.bfi c w d a b) fun e =>
    intOut (widthBits w) (bfi (widthBits w) (e.oldScalar (widthBits w) d) (srcI e w a) (srcC e b)))

/-- `lea.sK` (R171). -/
def execLea (c : Ctl) (w : IWidth) (k : BitVec 3) (d a b : Operand) (s : State) :
    Host.Outcome State Fault Refusal :=
  s.onDev (aluRun (.lea c w k d a b) fun e =>
    intOut (widthBits w) (srcI e w a + srcI e w b * 2 ^ k.toNat))

/-- `cmp.C.i` (R171, R173). -/
def execCmpI (c : Ctl) (w : IWidth) (cond : Cond) (d a b : Operand) (s : State) :
    Host.Outcome State Fault Refusal :=
  s.onDev (aluRun (.cmpI c w cond d a b) fun e =>
    predOut (condInt cond true (widthBits w) (srcI e w a) (srcI e w b)))

/-- `cmp.C.n`, `cmp.C.b` (R171, R173). -/
def execCmpN (c : Ctl) (w : IWidth) (cond : Cond) (d a b : Operand) (s : State) :
    Host.Outcome State Fault Refusal :=
  s.onDev (aluRun (.cmpN c w cond d a b) fun e =>
    predOut (condInt cond false (widthBits w) (srcI e w a) (srcI e w b)))

/-- `sel.pK`, `sel.npK` (R171, R173). -/
def execSel (c : Ctl) (w : IWidth) (np : Bool) (k : BitVec 3) (d a b : Operand) (s : State) :
    Host.Outcome State Fault Refusal :=
  s.onDev (aluRun (.sel c w np k d a b) fun e =>
    intOut (widthBits w) (if e.h.pred k.toNat != np then srcI e w a else srcI e w b))

/-- `mov` (R171). -/
def execMov (c : Ctl) (w : IWidth) (d a b : Operand) (s : State) :
    Host.Outcome State Fault Refusal :=
  s.onDev (aluRun (.mov c w d a b) fun e =>
    intOut (widthBits w) (srcI e w a))

end Sys2Proof.Machine
end

