-- ==== Sys2Proof/Machine/FpAlu.lean ====
section
/-! DEFINITION. The scalar floating-point instructions of class 1 (R174 to R176). -/

namespace Sys2Proof.Machine

/-- The format of class 1 (R155). -/
def scalarFmt : FFmt → Fmt
  | .f32 => .f32 | .f64 => .f64

/-- A source of class 1, read with ftzi (R66, R67). -/
def srcF (e : Env) (f : FFmt) (ftzi : Bool) (o : Operand) : Val :=
  readFp (scalarFmt f) ftzi (e.scalar (scalarFmt f).bits (Roles.fImm f) o)

/-- A rounded scalar result (R67), with its Philox word (R69). -/
def fpOut (e : Env) (f : FFmt) (m : FpMod) (x : Val) : Out :=
  { val := fpResult (scalarFmt f) m (e.word m 0) x, mask := 2 ^ (scalarFmt f).bits - 1, draws := draws m }

/-- Whether exact zero sums are −0 (R71). -/
def isRdn (m : FpMod) : Bool := m.rnd == .rdn

/-- An FP32 source pattern with ftzi. -/
def srcPattern (e : Env) (ftzi : Bool) (o : Operand) : Nat :=
  let v := e.scalar 32 .f32 o
  if ftzi then flushPattern .f32 v else v

/-- The class bit of an FP32 pattern (R176). -/
def classBit (v : Nat) : Nat :=
  let neg := bitOf v 31
  let code := v % 2 ^ 31
  if 0x7F800000 < code then (if bitOf v 22 then 1 else 0)
  else if code = 0x7F800000 then (if neg then 2 else 9)
  else if code = 0 then (if neg then 5 else 6)
  else if code < 0x800000 then (if neg then 4 else 7)
  else if neg then 3 else 8

/-- `add` on f32, f64 (R174). -/
def execAddFp (c : Ctl) (fmt : FFmt) (m : FpMod) (d a b : Operand) (s : State) :
    Host.Outcome State Fault Refusal :=
  s.onDev (aluRun (.addFp c fmt m d a b) fun e =>
    fpOut e fmt m ((srcF e fmt m.ftzi a).add (isRdn m) (srcF e fmt m.ftzi b)))

/-- `sub` on f32, f64 (R174). -/
def execSubFp (c : Ctl) (fmt : FFmt) (m : FpMod) (d a b : Operand) (s : State) :
    Host.Outcome State Fault Refusal :=
  s.onDev (aluRun (.subFp c fmt m d a b) fun e =>
    fpOut e fmt m ((srcF e fmt m.ftzi a).sub (isRdn m) (srcF e fmt m.ftzi b)))

/-- `mul` on f32, f64 (R174). -/
def execMulFp (c : Ctl) (fmt : FFmt) (m : FpMod) (d a b : Operand) (s : State) :
    Host.Outcome State Fault Refusal :=
  s.onDev (aluRun (.mulFp c fmt m d a b) fun e =>
    fpOut e fmt m ((srcF e fmt m.ftzi a).mul (srcF e fmt m.ftzi b)))

/-- `fma.acc` (R174): a × b + d, one rounding. -/
def execFmaAcc (c : Ctl) (fmt : FFmt) (m : FpMod) (d a b : Operand) (s : State) :
    Host.Outcome State Fault Refusal :=
  s.onDev (aluRun (.fmaAcc c fmt m d a b) fun e =>
    fpOut e fmt m (((srcF e fmt m.ftzi a).mul (srcF e fmt m.ftzi b)).add (isRdn m) (srcF e fmt m.ftzi d)))

/-- `fma.hor` (R174): d × a + b, one rounding. -/
def execFmaHor (c : Ctl) (fmt : FFmt) (m : FpMod) (d a b : Operand) (s : State) :
    Host.Outcome State Fault Refusal :=
  s.onDev (aluRun (.fmaHor c fmt m d a b) fun e =>
    fpOut e fmt m (((srcF e fmt m.ftzi d).mul (srcF e fmt m.ftzi a)).add (isRdn m) (srcF e fmt m.ftzi b)))

/-- `min.f32` (R71, R174): not rounded. -/
def execMinFp (c : Ctl) (ftzi : Bool) (d a b : Operand) (s : State) :
    Host.Outcome State Fault Refusal :=
  s.onDev (aluRun (.minFp c ftzi d a b) fun e =>
    intOut 32 (minNum .f32 (srcPattern e ftzi a) (srcPattern e ftzi b)))

/-- `max.f32` (R71, R174): not rounded. -/
def execMaxFp (c : Ctl) (ftzi : Bool) (d a b : Operand) (s : State) :
    Host.Outcome State Fault Refusal :=
  s.onDev (aluRun (.maxFp c ftzi d a b) fun e =>
    intOut 32 (maxNum .f32 (srcPattern e ftzi a) (srcPattern e ftzi b)))

/-- `cmp` on f32, f64 (R175). -/
def execCmpFp (c : Ctl) (fmt : FFmt) (ftzi : Bool) (cond : Cond) (d a b : Operand) (s : State) :
    Host.Outcome State Fault Refusal :=
  s.onDev (aluRun (.cmpFp c fmt ftzi cond d a b) fun e =>
    predOut (condFp cond (srcF e fmt ftzi a) (srcF e fmt ftzi b)))

/-- `class.f32` (R176). -/
def execClassFp (c : Ctl) (d a b : Operand) (s : State) :
    Host.Outcome State Fault Refusal :=
  s.onDev (aluRun (.classFp c d a b) fun e =>
    intOut 32 (2 ^ classBit (e.scalar 32 .f32 a)))

end Sys2Proof.Machine
end

