-- ==== Sys2Proof/Machine/Sfu.lean ====
section
/-! DEFINITION. The special functions (R77 to R80). Each table coefficient is formed from its definition: the reduced function at
the segment's ends and middle, in fixed point of 832 fraction bits (exact where R78 makes it exact), then rounded RNE to the
coefficient's significant bits (DEDUCED, log 14). Everything after the coefficients is exact. -/

namespace Sys2Proof.Machine

/-! ## Signed quotients -/

/-- An exact rational: a signed numerator over a positive denominator. -/
structure Rat' where
  n : Int
  d : Nat
  deriving DecidableEq, Repr

def Rat'.ofInt (i : Int) : Rat' := ⟨i, 1⟩
def Rat'.add (a b : Rat') : Rat' :=
  if a.d = b.d then ⟨a.n + b.n, a.d⟩ else ⟨a.n * b.d + b.n * a.d, a.d * b.d⟩
def Rat'.mul (a b : Rat') : Rat' := ⟨a.n * b.n, a.d * b.d⟩
def Rat'.neg (a : Rat') : Rat' := ⟨-a.n, a.d⟩
def Rat'.sub (a b : Rat') : Rat' := a.add b.neg
/-- a · 2^e. -/
def Rat'.shift (a : Rat') (e : Int) : Rat' := if 0 ≤ e then ⟨a.n * (2 ^ e.toNat : Nat), a.d⟩ else ⟨a.n, a.d * 2 ^ (-e).toNat⟩
/-- The greatest integer not above. -/
def Rat'.floor (a : Rat') : Int := a.n / (a.d : Int)
/-- As a value; a zero is +0. -/
def Rat'.val (a : Rat') : Val := .fin (a.n < 0) a.n.natAbs a.d
/-- The rational of a finite value; zero for the others. -/
def Val.rat : Val → Rat'
  | .fin s n d => ⟨if s then -(n : Int) else n, d⟩
  | _ => ⟨0, 1⟩

/-- Rounded RNE to `k` significant bits. -/
def Rat'.round (a : Rat') (k : Nat) : Rat' :=
  if a.n = 0 then ⟨0, 1⟩ else
    let m := a.n.natAbs
    let u := floorLog2 m a.d - k + 1
    let num := if 0 ≤ u then m else m * 2 ^ (-u).toNat
    let den := if 0 ≤ u then a.d * 2 ^ u.toNat else a.d
    let q := num / den
    let q := if roundsUp .rne false q (num % den) den 0 then q + 1 else q
    Rat'.shift ⟨if a.n < 0 then -(q : Int) else q, 1⟩ u

/-! ## Fixed point: signed numbers scaled by 2^832 -/

/-- Fraction bits of the working precision. -/
def fxBits : Nat := 832
/-- 1.0. -/
def fxOne : Int := 2 ^ fxBits
def fxMul (a b : Int) : Int := a * b / fxOne
def fxDiv (a b : Int) : Int := a * fxOne / b
/-- A quotient in fixed point, rounded down. -/
def fxOf (a : Rat') : Int := a.n * fxOne / (a.d : Int)
def fxRat (a : Int) : Rat' := ⟨a, 2 ^ fxBits⟩

/-- Σ tᵏ⁺¹-style series: `n` more terms; the term is multiplied by `x2` and divided by `2k + 1`; atanh for `alt` false, arctangent
for true. -/
def fxAtanSum (alt : Bool) (x2 : Int) : Nat → Nat → Int → Int → Int
  | 0, _, _, acc => acc
  | n + 1, k, t, acc =>
    let c := t / ((2 * k + 1 : Nat) : Int)
    fxAtanSum alt x2 n (k + 1) (fxMul t x2) (if alt && k % 2 == 1 then acc - c else acc + c)

/-- artanh of x, |x| ≤ 1/3. -/
def fxAtanh (x : Int) : Int := fxAtanSum false (fxMul x x) 300 0 x 0
/-- arctangent of 1/q. -/
def fxAtanInv (q : Nat) : Int := let x := fxOne / (q : Int); fxAtanSum true (fxMul x x) 300 0 x 0

/-- ln 2 and π. -/
def fxLn2 : Int := 2 * fxAtanh (fxOne / 3)
def fxPi : Int := 16 * fxAtanInv 5 - 4 * fxAtanInv 239

/-- Σ xᵏ/k!: `n` more terms. -/
def fxExpSum (x : Int) : Nat → Nat → Int → Int → Int
  | 0, _, _, acc => acc
  | n + 1, k, t, acc => fxExpSum x n (k + 1) (fxMul t x / ((k + 1 : Nat) : Int)) (acc + t)

/-- eˣ for |x| ≤ 64: x = k ln 2 + r. -/
def fxExp (x : Int) : Int :=
  let k := x / fxLn2
  let r := fxExpSum (x - k * fxLn2) 170 0 fxOne 0
  if 0 ≤ k then r * (2 ^ k.toNat : Nat) else r / ((2 ^ (-k).toNat : Nat) : Int)

/-- Σ for sine and cosine: terms x^k/k! with alternating signs, stepping k by 2. -/
def fxTrigSum (x2 : Int) : Nat → Nat → Int → Int → Int
  | 0, _, _, acc => acc
  | n + 1, k, t, acc => fxTrigSum x2 n (k + 2) (-(fxMul t x2 / (((k + 1) * (k + 2) : Nat) : Int))) (acc + t)

/-- sin 2πφ for φ from 0 to 1/4. -/
def fxSinTurn (phi : Rat') : Int :=
  let x := fxMul (2 * fxPi) (fxOf phi)
  fxTrigSum (fxMul x x) 110 1 x 0

/-- sin 2πφ for any φ, exact at the quarters (R78). -/
def sinTurn (phi : Rat') : Rat' :=
  let f := phi.sub (.ofInt phi.floor)
  let q := (f.shift 2).floor
  let r := f.sub ⟨q, 4⟩
  let back := Rat'.sub ⟨1, 4⟩ r
  let s (p : Rat') : Rat' := if p.n = 0 then ⟨0, 1⟩ else if p.n * 4 = p.d then ⟨1, 1⟩ else fxRat (fxSinTurn p)
  if q = 0 then s r else if q = 1 then s back else if q = 2 then (s r).neg else (s back).neg

/-- Σ for erf: terms 2ᵏ x^(2k+1) / (2k+1)!!, all of one sign. -/
def fxErfSum (x2 : Int) : Nat → Nat → Int → Int → Int
  | 0, _, _, acc => acc
  | n + 1, k, t, acc => fxErfSum x2 n (k + 1) (2 * fxMul t x2 / ((2 * k + 3 : Nat) : Int)) (acc + t)

/-- √x for x ≥ 0. -/
def fxSqrt (x : Int) : Int := ((x.toNat * 2 ^ fxBits).sqrt : Nat)

/-- erf x for x ≥ 0: (2/√π) e^(−x²) Σ. -/
def fxErf (x x2 : Int) : Int :=
  let k := fxDiv (2 * fxOne) (fxSqrt fxPi)
  let e := fxDiv fxOne (fxExp (x2 / 4))
  let e2 := fxMul (fxMul e e) (fxMul e e)
  fxMul k (fxMul e2 (fxErfSum x2 1500 0 x 0))

/-! ## Reduced functions -/

/-- The functions of R77, in the order of R159. -/
inductive SfuFn where
  | rcp | rsqrt | sqrt | exp2 | log2 | sin | cos | tanh | sigm | erf | gelu | silu
  deriving DecidableEq, Repr

/-- The square root of a quotient, exact for perfect squares. -/
def sqrtRat (a : Rat') : Rat' :=
  let n := a.n.toNat
  if n.sqrt * n.sqrt = n ∧ a.d.sqrt * a.d.sqrt = a.d then ⟨n.sqrt, a.d.sqrt⟩ else fxRat (fxSqrt (fxOf a))

/-- erf of a signed quotient times 1/√(`two`). -/
def erfRat (a : Rat') (half : Bool) : Rat' :=
  let m : Rat' := ⟨a.n.natAbs, a.d⟩
  let x2 := fxOf ((m.mul m).shift (if half then -1 else 0))
  let x := if half then fxSqrt x2 else fxOf m
  let r := fxErf x x2
  fxRat (if a.n < 0 then -r else r)

/-- g of R78 at a point. -/
def reduced (f : SfuFn) (v : Rat') : Rat' :=
  match f with
  | .rcp => ⟨v.d, v.n.toNat⟩
  | .rsqrt => let s := sqrtRat v; ⟨s.d, s.n.toNat⟩
  | .sqrt => sqrtRat v
  | .exp2 => if v.n = 0 then ⟨1, 1⟩ else if v.n = v.d then ⟨2, 1⟩ else fxRat (fxExp (fxMul fxLn2 (fxOf v)))
  | .log2 =>
    if v.n = v.d then ⟨0, 1⟩ else if v.n = 2 * v.d then ⟨1, 1⟩
    else fxRat (fxDiv (2 * fxAtanh (fxOf ⟨v.n - v.d, (v.n + v.d).toNat⟩)) fxLn2)
  | .sin => sinTurn v
  | .cos => sinTurn (v.add ⟨1, 4⟩)
  | .tanh =>
    let e := fxExp (fxOf ⟨-2 * v.n.natAbs, v.d⟩)
    let t := fxDiv (fxOne - e) (fxOne + e)
    fxRat (if v.n < 0 then -t else t)
  | .sigm => fxRat (fxDiv fxOne (fxOne + fxExp (fxOf v.neg)))
  | .erf => erfRat v false
  | .gelu => (v.shift (-1)).mul ((Rat'.ofInt 1).add (erfRat v true))
  | .silu => v.mul (fxRat (fxDiv fxOne (fxOne + fxExp (fxOf v.neg))))

/-- The coefficients of a segment from a to a + w of h, at fraction u (R77, and R80 with `compat`): the exact q(u). Where the tables of R77
and R78 give a result outside the bounds that R79 states, the model follows the tables (DEDUCED, log 124). -/
def segment (compat : Bool) (h : Rat' → Rat') (a w u : Rat') : Rat' :=
  let g0 := h a
  let g2 := h (a.add w)
  if compat then
    let c0 := g0.round 24
    let c1 := (g2.sub g0).round 16
    c0.add (c1.mul u)
  else
    let g1 := h (a.add (w.shift (-1)))
    let c2 := ((g0.add g2).sub (g1.shift 1)).shift 1
    let c1 := (g2.sub g0).sub c2
    ((g0.round 28).add ((c1.round 22).mul u)).add ((c2.round 16).mul (u.mul u))

/-- q of the segment that holds `t`, where segments of width `w` start at `lo` (R78, R80). -/
def tableAt (compat : Bool) (h : Rat' → Rat') (lo w t : Rat') : Rat' :=
  let w := if compat then w.shift 1 else w
  let k := Rat'.mul (t.sub lo) ⟨w.d, w.n.toNat⟩
  let j := k.floor
  segment compat h (lo.add (w.mul (.ofInt j))) w (k.sub (.ofInt j))

/-- |x| = 2^e · m with m in [1, 2). -/
def normalise (x : Rat') : Int × Rat' :=
  let e := floorLog2 x.n.natAbs x.d
  (e, Rat'.shift ⟨x.n.natAbs, x.d⟩ (-e))

/-- 1/(2π) to 192 significant bits; κ = 2/√π, λ = 1/√(2π) and log₂ e to 64 (R78). -/
def inv2pi : Rat' := (fxRat (fxDiv fxOne (2 * fxPi))).round 192
def kappa : Rat' := (fxRat (fxDiv (2 * fxOne) (fxSqrt fxPi))).round 64
def lambdaC : Rat' := (fxRat (fxDiv fxOne (fxSqrt (2 * fxPi)))).round 64
def log2e : Rat' := (fxRat (fxDiv fxOne fxLn2)).round 64

/-- The unrounded exp2 of a rational: 2^n q. Exponents beyond ±4,096 are taken as ±4,096: with every format of R60 and every
rounding mode the rounded result is the same. -/
def exp2Rat (compat : Bool) (x : Rat') : Rat' :=
  let n := x.floor
  (tableAt compat (reduced .exp2) ⟨0, 1⟩ ⟨1, 256⟩ (x.sub (.ofInt n))).shift (max (-4096) (min 4096 n))

/-- x^k. -/
def Rat'.pow (x : Rat') : Nat → Rat'
  | 0 => ⟨1, 1⟩
  | k + 1 => x.mul (Rat'.pow x k)

/-- c · x^k with c = n/d. -/
def term (n : Int) (d : Nat) (x : Rat') (k : Nat) : Rat' := (Rat'.mk n d).mul (x.pow k)

/-- The series of R78 for |x| below 2^−4. -/
def sfuSeries (f : SfuFn) (x : Rat') : Rat' :=
  let sg := ((term 1 2 x 0).add (term 1 4 x 1)).add ((term (-1) 48 x 3).add (term 1 480 x 5))
  match f with
  | .sin => (x.add (term (-1) 6 x 3)).add (term 1 120 x 5)
  | .cos => ((term 1 1 x 0).add (term (-1) 2 x 2)).add (term 1 24 x 4)
  | .tanh => (x.add (term (-1) 3 x 3)).add (term 2 15 x 5)
  | .sigm => sg
  | .erf => kappa.mul ((x.add (term (-1) 3 x 3)).add ((term 1 10 x 5).add (term (-1) 42 x 7)))
  | .gelu => x.mul ((term 1 2 x 0).add (lambdaC.mul ((x.add (term (-1) 6 x 3)).add (term 1 40 x 5))))
  | .silu => x.mul sg
  | _ => x

/-- E of R78: exp2 of −|x| log₂ e, the argument truncated toward zero to 40 fraction bits; with the compatibility bit by the table of R80,
which does not say whether it reaches these tails (DEDUCED, log 56). -/
def tailE (compat : Bool) (x : Rat') : Rat' :=
  let a := (Rat'.mk x.n.natAbs x.d).mul log2e
  exp2Rat compat (Rat'.mk (-((a.shift 40).floor)) (2 ^ 40))

/-- The tails of R78 for |x| ≥ 16; `none` stands for the signed zero of gelu below −16. -/
def sfuTail (compat : Bool) (f : SfuFn) (x : Rat') : Val :=
  let s := decide (x.n < 0)
  match f with
  | .tanh | .erf => .fin s 1 1
  | .gelu => if s then .fin true 0 1 else x.val
  | .sigm => if s then (tailE compat x).val else ((Rat'.ofInt 1).sub (tailE compat x)).val
  | .silu => (if s then x.mul (tailE compat x) else x.mul ((Rat'.ofInt 1).sub (tailE compat x))).val
  | _ => x.val

/-- Results at the infinities (R78). -/
def sfuInf (f : SfuFn) (neg : Bool) : Val :=
  match f with
  | .rcp => .fin neg 0 1
  | .rsqrt => if neg then .nan else .fin false 0 1
  | .sqrt | .log2 => if neg then .nan else .inf false
  | .exp2 => if neg then .fin false 0 1 else .inf false
  | .sin | .cos => .nan
  | .tanh | .erf => .fin neg 1 1
  | .sigm => if neg then .fin false 0 1 else .fin false 1 1
  | .gelu | .silu => if neg then .fin true 0 1 else .inf false

/-- Results at ±0: R78's special inputs, and the series, whose odd functions keep the zero's sign. -/
def sfuZero (f : SfuFn) (neg : Bool) : Val :=
  match f with
  | .rcp | .rsqrt => .inf neg
  | .sqrt | .sin | .tanh | .erf | .gelu | .silu => .fin neg 0 1
  | .exp2 | .cos => .fin false 1 1
  | .log2 => .inf true
  | .sigm => .fin false 1 2

/-- The value of a function at a nonzero finite x, before the one rounding (R77, R78). -/
def sfuFinite (compat : Bool) (f : SfuFn) (x : Rat') : Val :=
  let s := decide (x.n < 0)
  let (e, m) := normalise x
  match f with
  | .rcp =>
    let q := (tableAt compat (reduced .rcp) ⟨1, 1⟩ ⟨1, 256⟩ m).shift (-e)
    (if s then q.neg else q).val
  | .rsqrt | .sqrt =>
    if s then .nan else
      let par := e % 2
      let lo : Rat' := if par = 0 then ⟨1, 1⟩ else ⟨2, 1⟩
      let w : Rat' := if par = 0 then ⟨1, 128⟩ else ⟨1, 64⟩
      let q := tableAt compat (reduced f) lo w (m.shift par)
      (q.shift (if f = .sqrt then e / 2 else -(e / 2))).val
  | .exp2 => (exp2Rat compat x).val
  | .log2 => if s then .nan else ((Rat'.ofInt e).add (tableAt compat (reduced .log2) ⟨1, 1⟩ ⟨1, 256⟩ m)).val
  | .sin | .cos =>
    if e < -4 then (sfuSeries f x).val else
      let y := x.mul inv2pi
      let phi := y.sub (.ofInt y.floor)
      (tableAt compat (reduced f) ⟨0, 1⟩ ⟨1, 256⟩ ⟨(phi.shift 40).floor, 2 ^ 40⟩).val
  | .tanh | .sigm | .erf | .gelu | .silu =>
    if e < -4 then (sfuSeries f x).val
    else if 4 ≤ e then sfuTail compat f x
    else
      let h (t : Rat') : Rat' := reduced f ((if s then t.neg else t).shift e)
      (tableAt compat h ⟨1, 1⟩ ⟨1, 16⟩ m).val

/-- The unrounded value of a special function (R77, R78; R80 with `compat`). -/
def sfuValue (compat : Bool) (f : SfuFn) (x : Val) : Val :=
  match x with
  | .nan => .nan
  | .inf s => sfuInf f s
  | .fin s n d => if n = 0 then sfuZero f s else sfuFinite compat f ⟨if s then -(n : Int) else n, d⟩

/-- A special function rounded RNE to FP32, of an FP32 pattern, nothing flushed (R182, R254, R272). -/
def sfu32 (compat : Bool) (f : SfuFn) (v : Nat) : Nat := rne32 (sfuValue compat f (val32 v))

end Sys2Proof.Machine
end

