-- ==== Sys2Proof/Machine/Packet.lean ====
section
/-! DEFINITION. The packet instructions of class 2 (R177 to R182). -/

namespace Sys2Proof.Machine

/-- Element bits of a shape (R156). -/
def shapeBits : Shape → Nat
  | .f32x8 | .i32x8 | .n32x8 => 32
  | .f16x16 | .bf16x16 | .i16x16 | .n16x16 => 16
  | .e4m3x32 | .e5m2x32 | .i8x32 | .n8x32 => 8
  | .e3m2x32 | .e2m3x32 => 6
  | .e2m1x64 | .i4x64 | .n4x64 => 4

/-- The floating-point format of a shape's elements; none for integers. -/
def shapeFmt : Shape → Option Fmt
  | .f32x8 => some .f32 | .f16x16 => some .f16 | .bf16x16 => some .bf16
  | .e4m3x32 => some .e4m3 | .e5m2x32 => some .e5m2 | .e3m2x32 => some .e3m2 | .e2m3x32 => some .e2m3 | .e2m1x64 => some .e2m1
  | _ => none

/-- Whether a shape's integers are signed. -/
def shapeSigned : Shape → Bool
  | .i32x8 | .i16x16 | .i8x32 | .i4x64 => true
  | _ => false

/-- An integer element as a number. -/
def elemInt (sh : Shape) (v : Nat) : Int := if shapeSigned sh then sext v (shapeBits sh) else (v : Int)

/-- The range of a shape's integers. -/
def clampElem (sh : Shape) (x : Int) : Int :=
  let n := shapeBits sh
  if shapeSigned sh then max (-(2 ^ (n - 1) : Nat)) (min x ((2 ^ (n - 1) : Nat) - 1)) else max 0 (min x ((2 ^ n : Nat) - 1))

/-- A packet source of a shape. -/
def srcP (e : Env) (sh : Shape) (o : Operand) : Nat := e.packet (shapeBits sh) (Roles.shapeImm sh) o

/-- The elements an instruction acts on: all, or with `.lam` those below the count of `sr.lambda` (R177). -/
def liveElems (e : Env) (sh : Shape) (lam : Bool) : List Nat :=
  (List.range (Roles.shapeCount sh)).filter fun k => !lam || k < e.lamCount

/-- Element results laid in a packet: value and mask. -/
def scatter (w : Nat) : List (Nat × Nat) → Nat × Nat
  | [] => (0, 0)
  | (k, v) :: r =>
    let x := scatter w r
    (x.1 + v % 2 ^ w * 2 ^ (w * k), x.2 + (2 ^ w - 1) * 2 ^ (w * k))

/-- A packet result over listed elements: `f` gives element k's value from its place among them. -/
def packetOut (w : Nat) (els : List Nat) (draws : Nat) (f : Nat → Nat → Nat) : Out :=
  let r := scatter w ((els.zip (List.range els.length)).map fun p => (p.1, f p.1 p.2))
  { val := r.1, mask := r.2, draws := draws }

/-- An element-wise operation (R178): `fp` on exact values, `int` on integers with wrap or sat. -/
def elementwise (e : Env) (sh : Shape) (lam : Bool) (m : FpMod) (d a b : Operand)
    (fp : Val → Val → Val → Val) (int : Int → Int → Int) : Out :=
  let w := shapeBits sh
  let va := srcP e sh a
  let vb := srcP e sh b
  let vd := e.oldPacket d
  let els := liveElems e sh lam
  match shapeFmt sh with
  | some f =>
    packetOut w els (els.length * draws m) fun k i =>
      fpResult f m (e.word m i) (fp (readFp f m.ftzi (elem w vd k)) (readFp f m.ftzi (elem w va k)) (readFp f m.ftzi (elem w vb k)))
  | none =>
    packetOut w els 0 fun k _ =>
      let x := int (elemInt sh (elem w va k)) (elemInt sh (elem w vb k))
      wrapInt (if m.sat then clampElem sh x else x) w

/-- `min` and `max` on packets (R178): chosen, not rounded. -/
def chooseElems (e : Env) (sh : Shape) (lam : Bool) (m : FpMod) (greater : Bool) (a b : Operand) : Out :=
  let w := shapeBits sh
  let va := srcP e sh a
  let vb := srcP e sh b
  packetOut w (liveElems e sh lam) 0 fun k _ =>
    let x := elem w va k
    let y := elem w vb k
    match shapeFmt sh with
    | some f =>
      let x := if m.ftzi then flushPattern f x else x
      let y := if m.ftzi then flushPattern f y else y
      if greater then maxNum f x y else minNum f x y
    | none =>
      let lt := intLt (shapeSigned sh) w x y
      if lt == greater then y else x

/-- One level of the pairwise tree (R72): `f` combines a node with both children present, given the nodes formed so far. -/
def treeLevel (f : Nat → Nat → Nat → Nat) : List (Option Nat) → Nat → List (Option Nat) × Nat
  | some x :: some y :: r, k =>
    let t := treeLevel f r (k + 1)
    (some (f k x y) :: t.1, t.2)
  | some x :: none :: r, k =>
    let t := treeLevel f r k
    (some x :: t.1, t.2)
  | none :: y :: r, k =>
    let t := treeLevel f r k
    (y :: t.1, t.2)
  | [x], k => ([x], k)
  | [], k => ([], k)

/-- `n` levels: the one value left and the nodes formed (R72). -/
def treeLevels (f : Nat → Nat → Nat → Nat) : Nat → List (Option Nat) → Nat → List (Option Nat) × Nat
  | 0, l, k => (l, k)
  | n + 1, l, k =>
    let t := treeLevel f l k
    treeLevels f n t.1 t.2

/-- The tree over up to 64 leaves: +0 when all are absent (R72). -/
def pairTree (f : Nat → Nat → Nat → Nat) (l : List (Option Nat)) : Nat × Nat :=
  let t := treeLevels f 6 l 0
  ((t.1.head?.join).getD 0, t.2)

/-- An element as it enters the tree of `hsum` or `hmax`, as an FP32 pattern (R181). -/
def enterTree (sh : Shape) (ftzi : Bool) (v : Nat) : Nat :=
  match sh with
  | .f32x8 => if ftzi then flushPattern .f32 v else v
  | .bf16x16 => rne32 (readFp .bf16 ftzi v)
  | _ => rne32 (readFp .f16 ftzi v)

/-- The leaves of the tree: absent where masked off. -/
def treeLeaves (e : Env) (sh : Shape) (lam ftzi : Bool) (a : Operand) : List (Option Nat) :=
  let v := srcP e sh a
  (List.range (Roles.shapeCount sh)).map fun k =>
    if lam && e.lamCount ≤ k then none else some (enterTree sh ftzi (elem (shapeBits sh) v k))

/-- `dot` (R180): the sum with D exact, one rounding; integers modulo 2^32 or clamped. -/
def dotOut (e : Env) (sh : Shape) (lam : Bool) (m : FpMod) (d a b : Operand) : Out :=
  let w := shapeBits sh
  let va := srcP e sh a
  let vb := srcP e sh b
  let els := liveElems e sh lam
  match shapeFmt sh with
  | some f =>
    let ps := els.map fun k => (readFp f m.ftzi (elem w va k)).mul (readFp f m.ftzi (elem w vb k))
    let x := Val.sum (isRdn m) (readFp .f32 m.ftzi (e.oldScalar 32 d) :: ps)
    { val := fpResult .f32 m (e.word m 0) x, mask := 2 ^ 32 - 1, draws := draws m }
  | none =>
    let ps := els.map fun k => elemInt sh (elem w va k) * elemInt sh (elem w vb k)
    let d0 : Int := if shapeSigned sh then sext (e.oldScalar 32 d) 32 else (e.oldScalar 32 d : Int)
    let x := ps.foldl (· + ·) d0
    let x := if m.sat then satInt (if shapeSigned sh then .signed else .unsigned) 32 x else x
    intOut 32 (wrapInt x 32)

/-- `omse` (R182) on the pair (m, s) and the unmasked elements: the new pair; none where D is unchanged. -/
def omsePair (compat : Bool) (m s : Nat) (els : List (Option Nat)) : Option (Nat × Nat) :=
  let xs := els.filterMap id
  if (val32 m).isNan || (val32 s).isNan || xs.any fun v => (val32 v).isNan then some (0x7FC00000, 0x7FC00000)
  else
    let mx := xs.foldl (maxNum .f32) m
    if mx = 0xFF800000 then none
    else if mx = 0x7F800000 then some (0x7F800000, 0x7FC00000)
    else
      let ex (v : Nat) : Nat := sfu32 compat .exp2 (rne32 ((val32 v).sub false (val32 mx)))
      let q := els.map fun x => x.map ex
      let t := (pairTree (fun _ x y => rne32 ((val32 x).add false (val32 y))) q).1
      some (mx, rne32 (((val32 s).mul (val32 (ex m))).add false (val32 t)))

/-- `add` on packets (R178). -/
def execAddPkt (c : Ctl) (sh : Shape) (lam : Bool) (m : FpMod) (d a b : Operand) (s : State) :
    Host.Outcome State Fault Refusal :=
  s.onDev (aluRun (.addPkt c sh lam m d a b) fun e =>
    elementwise e sh lam m d a b (fun _ x y => x.add (isRdn m) y) fun x y => x + y)

/-- `sub` on packets (R178). -/
def execSubPkt (c : Ctl) (sh : Shape) (lam : Bool) (m : FpMod) (d a b : Operand) (s : State) :
    Host.Outcome State Fault Refusal :=
  s.onDev (aluRun (.subPkt c sh lam m d a b) fun e =>
    elementwise e sh lam m d a b (fun _ x y => x.sub (isRdn m) y) fun x y => x - y)

/-- `mul` on packets (R178). -/
def execMulPkt (c : Ctl) (sh : Shape) (lam : Bool) (m : FpMod) (d a b : Operand) (s : State) :
    Host.Outcome State Fault Refusal :=
  s.onDev (aluRun (.mulPkt c sh lam m d a b) fun e =>
    elementwise e sh lam m d a b (fun _ x y => x.mul y) fun x y => x * y)

/-- `fma.acc` on packets (R178). -/
def execFmaAccPkt (c : Ctl) (sh : Shape) (lam : Bool) (m : FpMod) (d a b : Operand) (s : State) :
    Host.Outcome State Fault Refusal :=
  s.onDev (aluRun (.fmaAccPkt c sh lam m d a b) fun e =>
    elementwise e sh lam m d a b (fun z x y => (x.mul y).add (isRdn m) z) fun x y => x * y)

/-- `fma.hor` on packets (R178). -/
def execFmaHorPkt (c : Ctl) (sh : Shape) (lam : Bool) (m : FpMod) (d a b : Operand) (s : State) :
    Host.Outcome State Fault Refusal :=
  s.onDev (aluRun (.fmaHorPkt c sh lam m d a b) fun e =>
    elementwise e sh lam m d a b (fun z x y => (z.mul x).add (isRdn m) y) fun x y => x * y)

/-- `min` on packets (R178). -/
def execMinPkt (c : Ctl) (sh : Shape) (lam : Bool) (m : FpMod) (d a b : Operand) (s : State) :
    Host.Outcome State Fault Refusal :=
  s.onDev (aluRun (.minPkt c sh lam m d a b) fun e =>
    chooseElems e sh lam m false a b)

/-- `max` on packets (R178). -/
def execMaxPkt (c : Ctl) (sh : Shape) (lam : Bool) (m : FpMod) (d a b : Operand) (s : State) :
    Host.Outcome State Fault Refusal :=
  s.onDev (aluRun (.maxPkt c sh lam m d a b) fun e =>
    chooseElems e sh lam m true a b)

/-- `cmp` on packets (R179): bit e of the whole slot. -/
def execCmpPkt (c : Ctl) (sh : Shape) (ftzi : Bool) (cond : Cond) (d a b : Operand) (s : State) :
    Host.Outcome State Fault Refusal :=
  s.onDev (aluRun (.cmpPkt c sh ftzi cond d a b) fun e =>
    let w := shapeBits sh
    let va := srcP e sh a
    let vb := srcP e sh b
    intOut 32 (bitsOf (fun k => decide (k < Roles.shapeCount sh) && match shapeFmt sh with
      | some f => condFp cond (readFp f ftzi (elem w va k)) (readFp f ftzi (elem w vb k))
      | none => condInt cond (shapeSigned sh) w (elem w va k) (elem w vb k)) 32))

/-- `dot` (R180). -/
def execDot (c : Ctl) (sh : Shape) (lam : Bool) (m : FpMod) (d a b : Operand) (s : State) :
    Host.Outcome State Fault Refusal :=
  s.onDev (aluRun (.dot c sh lam m d a b) fun e =>
    dotOut e sh lam m d a b)

/-- `hsum` (R181): the tree of R72, each addition node rounded. -/
def execHsum (c : Ctl) (sh : Shape) (lam : Bool) (m : FpMod) (d a b : Operand) (s : State) :
    Host.Outcome State Fault Refusal :=
  s.onDev (aluRun (.hsum c sh lam m d a b) fun e =>
    let t := pairTree (fun k x y => fpResult .f32 m (e.word m k) ((val32 x).add (isRdn m) (val32 y))) (treeLeaves e sh lam m.ftzi a)
    { val := t.1, mask := 2 ^ 32 - 1, draws := t.2 * draws m })

/-- `hmax` (R181): maximumNumber at each node. -/
def execHmax (c : Ctl) (sh : Shape) (lam : Bool) (m : FpMod) (d a b : Operand) (s : State) :
    Host.Outcome State Fault Refusal :=
  s.onDev (aluRun (.hmax c sh lam m d a b) fun e =>
    intOut 32 (pairTree (fun _ x y => maxNum .f32 x y) (treeLeaves e sh lam m.ftzi a)).1)

/-- `omse` (R182): D is the pair m, s. -/
def execOmse (c : Ctl) (lam : Bool) (d a b : Operand) (s : State) :
    Host.Outcome State Fault Refusal :=
  s.onDev (aluRun (.omse c lam d a b) fun e =>
    match omsePair e.compat (e.oldScalar 64 d % 2 ^ 32) (e.oldScalar 64 d / 2 ^ 32) (treeLeaves e .f32x8 lam false a) with
    | some p => intOut 64 (p.1 + p.2 * 2 ^ 32)
    | none => { val := 0, mask := 0 })

end Sys2Proof.Machine
end

