-- ==== Sys2Proof/Machine/Permute.lean ====
section
/-! DEFINITION. Class 3 (R183 to R189): permutes, lookups, element moves, spectral instructions and random numbers. -/

namespace Sys2Proof.Machine

/-- A whole-packet result. -/
def wholePacket (v : Nat) : Out := { val := v % 2 ^ 256, mask := 2 ^ 256 - 1 }

/-- A packet source of 32-bit elements. -/
def srcP32 (e : Env) (o : Operand) : Nat := e.packet 32 .int o

/-- Byte i of a packet. -/
def byteOf (v i : Nat) : Nat := elem 8 v i

/-- The byte that a selector of `pperm` names (R183). -/
def permByte (d a s : Nat) : Nat :=
  if bitOf s 7 then 0
  else
    let v := byteOf (if bitOf s 5 then d else a) (s % 32)
    if bitOf s 6 then (if bitOf v 7 then 0xFF else 0) else v

/-- Element width of the class 3 element moves (R158). -/
def ewBits : EWidth → Nat
  | .e32 => 32 | .e16 => 16 | .e8 => 8 | .e4 => 4

/-- A packet from its elements of width w, given as a function. -/
def genPacket (w : Nat) (f : Nat → Nat) : Nat := packElems w ((List.range (elemCount w)).map f)

/-- The FP32 value of a bin at x = j + f: bin j itself at f = 0, else the exact interpolation (R186). -/
def lerpBins (rdn : Bool) (bins : Nat → Val) (n d : Nat) : Val :=
  let j := n / d
  let r := n % d
  if r = 0 then bins j
  else (bins j).add rdn ((Val.fin false r d).mul ((bins (j + 1)).sub rdn (bins j)))

/-- The value of `spec.lerp` at a wavelength (R186): `ts`, `tw` the table's start and step. -/
def lerpAt (rdn : Bool) (bins : Nat → Val) (ts tw lam : Nat) : Val :=
  if tw = 0 then bins 0
  else
    let off := lam - ts
    if 15 * tw ≤ off then bins 15 else lerpBins rdn bins off tw

/-- A colour-matching function at a wavelength in 0.01 nm (R187): zero outside the table, else interpolated and rounded RNE to
FP32. -/
def cmfAt (obs64 : Bool) (k lam : Nat) : Val :=
  if lam < 36000 ∨ 83000 < lam then .zero
  else
    let c (nm : Nat) : Val := val32 (Config.cieTable obs64 k nm).toNat
    let nm := lam / 100
    let r := lam % 100
    if r = 0 then c nm
    else val32 (rne32 ((c nm).add false ((Val.fin false r 100).mul ((c (nm + 1)).sub false (c nm)))))

/-- `pperm` (R183). -/
def execPperm (c : Ctl) (d a b : Operand) (s : State) :
    Host.Outcome State Fault Refusal :=
  s.onDev (aluRun (.pperm c d a b) fun e =>
    wholePacket (genPacket 8 fun i => permByte (e.oldPacket d) (srcP32 e a) (byteOf (srcP32 e b) i)))

/-- `plut` (R184). -/
def execPlut (c : Ctl) (half : Bool) (hi : Bool) (d a b : Operand) (s : State) :
    Host.Outcome State Fault Refusal :=
  s.onDev (aluRun (.plut c half hi d a b) fun e =>
    wholePacket (genPacket 8 fun i =>
      let x := byteOf (srcP32 e a) i
      byteOf (srcP32 e b) (16 * b2n half + (if hi then x / 16 else x % 16))))

/-- `eshl` (R185). -/
def execEshl (c : Ctl) (ew : EWidth) (d a b : Operand) (s : State) :
    Host.Outcome State Fault Refusal :=
  s.onDev (aluRun (.eshl c ew d a b) fun e =>
    wholePacket (genPacket (ewBits ew) fun k => if k < srcC e b then 0 else elem (ewBits ew) (e.packet (ewBits ew) .int a) (k - srcC e b)))

/-- `eshr` (R185). -/
def execEshr (c : Ctl) (ew : EWidth) (d a b : Operand) (s : State) :
    Host.Outcome State Fault Refusal :=
  s.onDev (aluRun (.eshr c ew d a b) fun e =>
    wholePacket (genPacket (ewBits ew) fun k =>
      if elemCount (ewBits ew) ≤ k + srcC e b then 0 else elem (ewBits ew) (e.packet (ewBits ew) .int a) (k + srcC e b)))

/-- `bcast` (R185). -/
def execBcast (c : Ctl) (ew : EWidth) (d a b : Operand) (s : State) :
    Host.Outcome State Fault Refusal :=
  s.onDev (aluRun (.bcast c ew d a b) fun e =>
    wholePacket (broadcast (ewBits ew) (elem (ewBits ew) (e.packet (ewBits ew) .int a) (srcC e b % elemCount (ewBits ew)))))

/-- `esel` (R185): elements whose mask bit is 1. -/
def execEsel (c : Ctl) (ew : EWidth) (d a b : Operand) (s : State) :
    Host.Outcome State Fault Refusal :=
  s.onDev (aluRun (.esel c ew d a b) fun e =>
    let mask := e.scalar (if ew = .e4 then 64 else 32) .int b
    packetOut (ewBits ew) ((List.range (elemCount (ewBits ew))).filter fun k => bitOf mask k) 0 fun k _ => elem (ewBits ew) (e.packet (ewBits ew) .int a) k)

/-- `eins` (R185). -/
def execEins (c : Ctl) (ew : EWidth) (d a b : Operand) (s : State) :
    Host.Outcome State Fault Refusal :=
  s.onDev (aluRun (.eins c ew d a b) fun e =>
    packetOut (ewBits ew) [srcC e b % elemCount (ewBits ew)] 0 fun _ _ => e.scalar 32 .int a)

/-- `eext` (R185). -/
def execEext (c : Ctl) (ew : EWidth) (d a b : Operand) (s : State) :
    Host.Outcome State Fault Refusal :=
  s.onDev (aluRun (.eext c ew d a b) fun e =>
    intOut 32 (elem (ewBits ew) (e.packet (ewBits ew) .int a) (srcC e b % elemCount (ewBits ew))))

/-- `spec.lerp` (R186): a spectrum of 16 bins resampled at the group's wavelengths. -/
def execSpecLerp (c : Ctl) (m : FpMod) (d a b : Operand) (s : State) :
    Host.Outcome State Fault Refusal :=
  s.onDev (aluRun (.specLerp c m d a b) fun e =>
    let v := e.packets 2 a
    let t := e.scalar 32 .int b
    let bins (j : Nat) : Val := readFp .f32 m.ftzi (elem 32 v j)
    packetOut 32 (List.range e.lamCount) (e.lamCount * draws m) fun k i =>
      fpResult .f32 m (e.word m i) (lerpAt (isRdn m) bins (field t 19 0) (field t 31 20) (e.lamStart + k * e.lamStep)))

/-- `spec.cie` (R187): X, Y and Z of a spectral packet. -/
def execSpecCie (c : Ctl) (obs64 : Bool) (m : FpMod) (d a b : Operand) (s : State) :
    Host.Outcome State Fault Refusal :=
  s.onDev (aluRun (.specCie c obs64 m d a b) fun e =>
    let v := e.packet 32 .f32 a
    let s := readFp .f32 m.ftzi (e.scalar 32 .f32 b)
    packetOut 32 [0, 1, 2] (3 * draws m) fun k i =>
      let terms := (List.range e.lamCount).map fun j =>
        ((readFp .f32 m.ftzi (elem 32 v j)).mul (cmfAt obs64 k (e.lamStart + j * e.lamStep))).mul s
      fpResult .f32 m (e.word m i) (Val.sum (isRdn m) terms))

/-- `spec.mueller.cK` (R188): one column of a Mueller matrix. -/
def execSpecMueller (c : Ctl) (k : BitVec 2) (m : FpMod) (d a b : Operand) (s : State) :
    Host.Outcome State Fault Refusal :=
  s.onDev (aluRun (.specMueller c k m d a b) fun e =>
    let va := e.packet 32 .f32 a
    let vb := e.packet 32 .f32 b
    let vd := e.oldPacket d
    let f (v n : Nat) : Val := readFp .f32 m.ftzi (elem 32 v n)
    packetOut 32 (List.range 8) (8 * draws m) fun n i =>
      fpResult .f32 m (e.word m i) ((f vd n).add (isRdn m) ((f va n).mul (f vb (n / 4 * 4 + k.toNat)))))

/-- `prng` (R189): words of the thread's Philox stream. -/
def execPrng (c : Ctl) (shape : PrngShape) (d a b : Operand) (s : State) :
    Host.Outcome State Fault Refusal :=
  s.onDev (aluRun (.prng c shape d a b) fun e =>
    let w (k : Nat) : Nat := (e.philox k).toNat
    let f (k : Nat) : Nat := fpResult .f32 rneMod 0 (.fin false (w k / 256) (2 ^ 24))
    match shape with
    | .b32 => { intOut 32 (w 0) with draws := 1 }
    | .f32 => { intOut 32 (f 0) with draws := 1 }
    | .b32x8 => { wholePacket (genPacket 32 w) with draws := 8 }
    | .f32x8 => { wholePacket (genPacket 32 f) with draws := 8 })

end Sys2Proof.Machine
end

