-- ==== Sys2Proof/Machine/PredIndex.lean ====
section
/-! DEFINITION. The predicate and index-register instructions of class 6 (R194, R195, R229, R230). -/

namespace Sys2Proof.Machine

/-- `plop3.tabV` (R138, R194). -/
def execPlop3 (c : Ctl) (tab : Byte) (d a b : Operand) (s : State) :
    Host.Outcome State Fault Refusal :=
  s.onDev (aluRun (.plop3 c tab d a b) fun e =>
    predOut (lutBit tab (e.pred d) (e.pred a) (e.pred b)))

/-- `pget` (R195). -/
def execPget (c : Ctl) (d a b : Operand) (s : State) :
    Host.Outcome State Fault Refusal :=
  s.onDev (aluRun (.pget c d a b) fun e =>
    intOut 32 e.h.p.toNat)

/-- p0 to p6 under a mask (R195). -/
def setPredicates (p : BitVec 7) (a b : Nat) : BitVec 7 :=
  BitVec.ofNat 7 (Nat.lor (Nat.land a b) (Nat.land p.toNat (127 - b % 128)))

/-- `pset` (R195). -/
def execPset (c : Ctl) (d a b : Operand) (s : State) :
    Host.Outcome State Fault Refusal :=
  s.onDev fun m => (eachThread (.pset c d a b) noCheck (fun e w d' =>
    (d'.mapWho w fun h => { h with p := setPredicates h.p (e.scalar 32 .int a) (e.scalar 32 .int b) }).pass (.pset c d a b) w) m).closeWindow
      (.pset c d a b)

/-- `xset.M` (R229). -/
def execXset (c : Ctl) (mode : XsetMode) (d a b : Operand) (s : State) :
    Host.Outcome State Fault Refusal :=
  s.onDev (aluRun (.xset c mode d a b) fun e =>
    match mode with
    | .whole => intOut 64 (e.scalar 64 .int a)
    | .cur => intOut 64 (putField (e.index d).toNat 9 0 (e.scalar 32 .int a))
    | .add =>
      let x := e.index d
      let nc : Int := (xCur x : Int) + sext (e.scalar 32 .int a) 32
      let nc := if xWrap x && decide (xBase x < xBound x) && (nc < xBase x || (xBound x : Int) ≤ nc)
        then wrapRange (xBase x) (xBound x) nc else nc
      intOut 64 (putField x.toNat 9 0 (wrapInt nc 10)))

/-- `xget.F` (R230). -/
def execXget (c : Ctl) (fld : XgetField) (d a b : Operand) (s : State) :
    Host.Outcome State Fault Refusal :=
  s.onDev (aluRun (.xget c fld d a b) fun e =>
    let x := e.index a
    match fld with
    | .whole => intOut 64 x.toNat
    | .cur => intOut 32 (xCur x)
    | .base => intOut 32 (xBase x)
    | .bound => intOut 32 (xBound x)
    | .step => intOut 32 (wrapInt (xStep x) 32)
    | .view => intOut 32 (xView x)
    | .wrap => intOut 32 (b2n (xWrap x)))

end Sys2Proof.Machine
end

