-- ==== Sys2Proof/Machine/Control.lean ====
section
/-! DEFINITION. The control flow of class 5 (R201, R231 to R238), register allocation (R47, R227, R228), `regroup` (R34 to R37, R416),
barriers within a team (R32), and what a park, an exit or a fence does to a thread. -/

namespace Sys2Proof.Machine

/-! ## Program counters -/

/-- PC `n` slots on, modulo 2^32. -/
def pcPlus (pc : Word) (n : Int) : Word := BitVec.ofNat 32 (wrapInt (pc.toNat + n) 32)

/-- The distance of a branch-target operand (R231). -/
def branchDist (o : Operand) : Int :=
  match o with
  | .imm v => sext v.toNat 20
  | _ => 0

/-- A thread's PC set, with its post-advances. -/
def jumpTo (i : Instr) (w : Who) (pc : Word) (d : Dev) : Dev := d.mapWho w fun h => { postAdvance i h with pc }

/-- The head run's backward branches counted (R38): once a run, while a ready thread stands beyond the branch's PC. -/
def countBackward (before : Dev) (d : Dev) : Dev :=
  match before.cur with
  | .run team gid lanes _ _ =>
    match (before.group? team gid).bind fun g => lanes.head?.bind g.atLane? with
    | none => d
    | some h =>
      d.mapGroup team gid fun g =>
        let back := g.threads.any fun k => lanes.contains k.lane && k.depth == h.depth && decide (k.pc.toNat ≤ h.pc.toNat)
        let beyond := g.threads.any fun k => k.st == .ready && decide (h.pc.toNat < k.pc.toNat)
        if back && beyond && decide (g.relief < 1024) then { g with relief := g.relief + 1, reliefPc := h.pc.toNat } else g
  | _ => d

/-- A branch: each thread with a true guard gets the PC that `target` gives it (R231, R232). -/
def branchRun (i : Instr) (target : Env → Word) (d : Dev) : Dev :=
  countBackward d (eachThread i noCheck (fun e w d => jumpTo i w (target e) d) d)

/-- `bra` (R231). -/
def execBra (c : Ctl) (d a b : Operand) (s : State) : Host.Outcome State Fault Refusal :=
  s.onDev (branchRun (.bra c d a b) fun e => pcPlus e.h.pc (branchDist a))

/-- `brx` (R231). -/
def execBrx (c : Ctl) (d a b : Operand) (s : State) : Host.Outcome State Fault Refusal :=
  s.onDev (branchRun (.brx c d a b) fun e => BitVec.ofNat 32 (srcC e a))

/-- `ret` (R231). -/
def execRet (c : Ctl) (d a b : Operand) (s : State) : Host.Outcome State Fault Refusal :=
  s.onDev (branchRun (.ret c d a b) fun e => BitVec.ofNat 32 (srcC e a))

/-- `call` (R231): the return address, then the target, relative for an immediate. -/
def execCall (c : Ctl) (d a b : Operand) (s : State) : Host.Outcome State Fault Refusal :=
  let i : Instr := .call c d a b
  s.onDev fun m =>
    let t (e : Env) : Word := match a with
      | .imm _ => pcPlus e.h.pc (branchDist a)
      | _ => BitVec.ofNat 32 (srcC e a)
    let r := eachThread i noCheck (fun e w m =>
      jumpTo i w (t e) (writeDest m w .gDst d (firstSlot e .gDst d) (nextSeq e) (pcPlus e.h.pc 1).toNat (2 ^ 32 - 1))) m
    countBackward m (r.closeWindow i)

/-- The new PC of a `loop` on its decremented counter (R231). -/
def loopPc (e : Env) (a : Operand) (n : Nat) : Word := if n ≠ 0 then pcPlus e.h.pc (branchDist a) else e.h.pc + 1

/-- `loop` (R231, R233): a counter in g counts in each thread; one in y is decremented once for the run, and every thread with a
true guard branches on it. -/
def execLoop (c : Ctl) (d a b : Operand) (s : State) : Host.Outcome State Fault Refusal :=
  let i : Instr := .loop c d a b
  s.onDev fun m =>
    let n (e : Env) : Nat := (e.scalar 32 .int d + 2 ^ 32 - 1) % 2 ^ 32
    match d with
    | .reg .y _ _ _ =>
      let first := (issuers m).find? fun p => p.2.h.guard c
      let r := eachThread i noCheck (fun e w m =>
        let m := if (first.map (·.1)) = some w then writeDest m w (.dst false) d 0 0 (n e) (2 ^ 32 - 1) else m
        jumpTo i w (loopPc e a (n e)) m) m
      countBackward m (r.closeWindow i)
    | _ =>
      let r := eachThread i noCheck (fun e w m =>
        jumpTo i w (loopPc e a (n e))
          (writeDest m w (.dst false) d (firstSlot e (.dst false) d) (nextSeq e) (n e) (2 ^ 32 - 1))) m
      countBackward m (r.closeWindow i)

/-! ## Repeats (R234, R235, R417) -/

/-- The repeat trap of a count above 65,535. -/
def repTrap (a : Operand) (e : Env) : Option Trap :=
  if 65535 < srcC e a then
    some { cause := 0x09, fpc := e.h.pc.toNat, resume := e.h.pc.toNat, detail := srcC e a }
  else none

/-- `rep` (R235): count 0 skips the next slot, another count makes it repeat. -/
def execRep (c : Ctl) (d a b : Operand) (s : State) : Host.Outcome State Fault Refusal :=
  let i : Instr := .rep c d a b
  s.onDev (eachThread i (repTrap a) fun e w m =>
    if srcC e a = 0 then jumpTo i w (e.h.pc + 2) m
    else
      m.mapWho w fun h => { postAdvance i h with rep := BitVec.ofNat 32 (2 ^ 31 + srcC e a), pc := h.pc + 1 })

/-! ## Yield, nop -/

/-- `yield` (R238): every thread advances; the lane gives up the group when a guard is true. -/
def execYield (c : Ctl) (d a b : Operand) (s : State) : Host.Outcome State Fault Refusal :=
  let i : Instr := .yield c d a b
  s.onDev fun m =>
    let any := (issuers m).any fun p => p.2.h.guard c
    let r := eachThread i noCheck (fun _ w m => m.pass i w) m
    match m.cur with
    | .run team gid _ _ _ => if any then r.mapGroup team gid (Group.giveLane m.cycle) else r
    | _ => r

/-- `nop` (R238). -/
def execNop (c : Ctl) (d a b : Operand) (s : State) : Host.Outcome State Fault Refusal :=
  let i : Instr := .nop c d a b
  s.onDev (eachThread i noCheck fun _ w m => m.pass i w)

/-! ## Barriers of a team (R32) -/

/-- Threads of a team that have not exited. -/
def Team.live (t : Team) : Nat := (t.groups.map fun g => (g.threads.filter fun h => h.st != .exited).length).sum

/-- Every thread of a team parked for `p` made ready. -/
def Team.wake (t : Team) (p : Wait → Bool) : Team :=
  { t with groups := t.groups.map fun g => { g with threads := g.threads.map fun h =>
      match h.st with
      | .parked w => if p w then { h with st := .ready } else h
      | _ => h } }

/-- The threads of a team parked for a reason. -/
def Team.parkedFor (t : Team) (w : Wait) : List TRef :=
  t.groups.flatMap fun g => (g.threads.filter fun h => h.st == .parked w).map fun h => ⟨t.id, g.gid, h.tid⟩

/-- The start of a watched wait noted: the team's first arrival in a generation of kind `kind` (R413). `w` is the wait of its other
arrivals. -/
def Team.noteWait (now kind key : Nat) (w : Wait) (t : Team) : Team :=
  if t.parkedFor w != [] && t.waits.any fun x => x.1 == kind && x.2.1 == key then t
  else { t with waits := (t.waits.filter fun x => !(x.1 == kind && x.2.1 == key)) ++ [(kind, key, now)] }

/-- Whether every thread of a list has released at a scope (R116, R121). -/
def allReleased (d : Dev) (l : List TRef) (scope : Nat) : Bool := l.all fun r => !outstandingBefore d r scope d.nextId

/-- A generation completes when its arrivals equal the live threads and every arrival's release is done (R32, R121). -/
def barDone (d : Dev) (t : Team) (b : TeamBar) : Bool :=
  b.arrivals == t.live && b.arrivals != 0 && allReleased d (t.parkedFor (.barTeam b.number)) 2

/-- The completed generations of a team free their threads. -/
def checkBars (d : Dev) (t : Team) : Team :=
  (t.bars.filter (barDone d t)).foldl (fun t b =>
    { t.wake (fun w => w == .barTeam b.number) with bars := t.bars.filter fun x => x.number != b.number }) t

/-! ## Regroup (R34 to R37, R416) -/

/-- Key order with the thread index for ties. -/
def arrivalKey (a : Arrival) : Nat := a.key * 2 ^ 32 + a.tid

/-- The live mask that governs: that of the thread with the least `sr.tid`. -/
def liveMask (l : List Arrival) : Nat := ((sortBy (·.tid) l).head?.map (·.mask)).getD 0

/-- A value as `sr.lambda` stores it (R49): a count of 9 to 15 as 8, reserved bits zero. -/
def lambdaStored (v : Nat) : DWord :=
  BitVec.ofNat 64 (putField (v % 2 ^ 44) 43 40 (min 8 (field v 43 40)))

/-- A thread's base block with every slot outside the mask's packets zero (R36); no group has extended units at a `regroup` (R34). -/
def maskBank (mask : Nat) (b : AMap Word) : AMap Word := b.filter fun p => bitOf mask (p.1 / 8)

/-- The threads of a team in its new order, each at its position (R35). -/
def Team.regrouped (t : Team) (g : Gather) : Team :=
  let w := t.kernel.width
  let all := t.groups.flatMap fun x => x.threads.map Thread.flush
  let order := (sortBy arrivalKey g.arrivals).filterMap fun a => all.find? fun h => h.tid == a.tid
  let m := liveMask g.arrivals
  let gone := sortBy (·.tid) (all.filter fun h => h.st == .exited)
  let live := order.map fun h => { h with pc := BitVec.ofNat 32 (g.pc + 1), st := TState.ready }
  let masked (h : Thread) : Thread := { h with bank := maskBank m h.bank, bad := h.bad.filter fun s => bitOf m (s / 8) }
  let placed := ((live ++ gone).zip (List.range (order.length + gone.length))).map fun p =>
    (p.2 / w, { masked p.1 with lane := p.2 % w })
  { t with
    gather := none
    stat := .regrouping
    groups := t.groups.map fun x =>
      { x with
        threads := (placed.filter fun p => p.1 == x.gid).map (·.2)
        active := none, laneNo := none, runs := 0, since := none, relief := 0, cut := none } }

/-- `n` words that the spec leaves open, as a file from index 0 (DESIGN CHOICE, log 3). -/
def freeFile (w n : Nat) (d : Dev) : AMap (BitVec w) × Dev :=
  let l := freeBytes (n * (w / 8)) d
  ((List.range n).foldl (fun m k => AMap.set 0 m k (BitVec.ofNat w (ofBytes ((l.1.drop (k * (w / 8))).take (w / 8))))) [], l.2)

/-- The group slot of a group that ended before and receives threads: its own, else the lowest free one of its bay, else of the core. -/
def slotAgain (d : Dev) (g : Group) : Nat :=
  let ok (s : Nat) : Bool := (d.inSlot g.core s).isNone
  let bay (b : Nat) : List Nat := (List.range Config.bayGroups).map fun k => 2 * k + b
  ((g.gslot :: (bay (g.gslot % 2) ++ bay (1 - g.gslot % 2))).find? ok).getD g.gslot

/-- A group that had ended and now holds live threads takes part again. What it held as a group went when it ended, and what it holds now
is open; its base-block slots are its again, and whether the core has them free is not asked (R35, R36; DESIGN CHOICE, log 94). -/
def reviveGroup (d : Dev) (team gid : Nat) : Dev :=
  match d.group? team gid with
  | none => d
  | some g =>
    let s := slotAgain d g
    let (y, d) := freeFile 32 64 d
    let (h, d) := freeFile 64 16 d
    let (l, d) := freeFile 64 1 d
    d.mapGroup team gid fun g =>
      { g with
        ended := false, units := 0, gslot := s, y, h, hfin := [], lambda := lambdaStored (AMap.get 0 l 0).toNat, pendInd := []
        lastPost := none, fetchWait := [], block := none }

/-- The last member arrived: the team regroups and the core is occupied until REGROUP_DONE (R35, R37). -/
def Dev.checkGather (d : Dev) (id : Nat) : Dev :=
  match d.team? id with
  | none => d
  | some t =>
    match t.gather with
    | none => d
    | some g =>
      if g.arrivals.length == t.live && t.live != 0 && t.stat == .running && allReleased d (t.parkedFor .regroup) 2 then
        let t := t.regrouped g
        let back := (t.groups.filter fun x => x.ended && x.threads.any fun h => h.st != .exited).map (·.gid)
        back.foldl (fun d x => reviveGroup d id x) (d.mapTeam id fun _ => t)
      else d

/-- Barriers and a gathering regroup tested again, after an arrival, an exit or an acknowledgement. -/
def Dev.checkTeam (d : Dev) (id : Nat) : Dev := (d.mapTeam id (checkBars d)).checkGather id

/-- The regroup trap's reason for a thread (R416), in the order 1, 4, 3, 2. -/
def regroupReason (d : Dev) (e : Env) : Option Nat :=
  match e.own with
  | none => none
  | some (t0, _) =>
    match d.team? t0.id with
    | none => none
    | some t =>
      if t.kernel.pair then some 1
      else if e.h.depth ≠ 0 then some 4
      else if (match t.gather with | some g => g.pc != e.h.pc.toNat | none => false) then some 3
      else if t.groups.any fun g => g.units != 0 then some 2
      else none

/-- The PC at which a team gathers, for the trap's detail. -/
def gatherPc (d : Dev) (team : Nat) : Nat := (((d.team? team).bind (·.gather)).map (·.pc)).getD 0xFFFFFFFF

/-- `regroup` (R34, R201): each thread with a true guard arrives, with its key and live mask, and parks after the instruction. The trap's detail
is that of R416, where R386's table has a dash (DEDUCED, log 107). -/
def execRegroup (c : Ctl) (d a b : Operand) (s : State) : Host.Outcome State Fault Refusal :=
  let i : Instr := .regroup c d a b
  s.onDev fun m => eachThread i noCheck (fun e w m =>
    match w with
    | .que _ => m
    | .thr r =>
      match regroupReason m e with
      | some n =>
        m.trap w { cause := 0x0B, fpc := e.h.pc.toNat, resume := e.h.pc.toNat, detail := gatherPc m r.team * 2 ^ 32 + n }
      | none =>
        let x : Arrival := ⟨e.h.tid, srcC e a, srcC e b⟩
        let m := m.mapThread r fun h => { postAdvance i h with pc := h.pc + 1, st := .parked .regroup }
        let m := m.mapTeam r.team fun t =>
          { t with gather := match t.gather with
              | some g => some { g with arrivals := g.arrivals ++ [x] }
              | none => some ⟨e.h.pc.toNat, m.cycle, [x]⟩ }
        m.checkTeam r.team) m

/-! ## Exit (R33, R237) -/

/-- Whether everything a group issued has left the core: results, accesses and cards of its threads (R33). -/
def groupQuiet (d : Dev) (team gid : Nat) : Bool :=
  let mine (r : TRef) : Bool := (d.refNow r).team == team && (d.refNow r).gid == gid
  !d.results.any (fun r => mine r.who)
    && !(d.shcReqs.any fun x => mine x.who)
    && !(d.reqs.any fun a => match a.who with | .thread t _ => mine t | _ => false)
    && !(d.late.any fun a => match a.who with | .thread t _ => mine t | _ => false)
    && !(d.scrWrites.any fun a => match a.who with | .thread t _ => mine t | _ => false)
    && !(d.cards.any fun x => mine x.job.who)
    && !(d.rays.any fun x => mine x.who)

/-- `exit` (R237): each thread with a true guard becomes exited; barriers and a gathering regroup are tested again. Results still
outstanding are discarded when they return; a candidate's ray slot is freed (R445). -/
def execExit (c : Ctl) (d a b : Operand) (s : State) : Host.Outcome State Fault Refusal :=
  let i : Instr := .exit c d a b
  s.onDev (eachThread i noCheck fun _ w m =>
    match w with
    | .thr r =>
      let m := m.mapThread r fun h => { h with st := .exited }
      let m := { m with rays := m.rays.filter fun x => !(sameThread x.who r && x.candidate.isSome) }
      m.checkTeam r.team
    | .que q =>
      let v := m.queue q
      m.setQueue q { v with exited := true, started := false, stopping := false })

/-! ## Register allocation (R46, R47, R227, R228) -/

/-- Register slots of a group's physical allocation (R46). -/
def groupSlots (k : Kernel) (units : Nat) : Nat := k.width * (32 * ceilDiv k.base 32 + 64 * units)

/-- Slots in use on a core, and free. -/
def usedSlots (d : Dev) (core : Nat) : Nat :=
  (d.teams.map fun t => if t.stat == .saved then 0
    else ((t.groups.filter fun g => g.core == core && !g.ended).map fun g => groupSlots t.kernel g.units).sum).sum

def freeSlots (d : Dev) (core : Nat) : Nat := Config.coreSlots - usedSlots d core

/-- Number of units an operand asks for. -/
def unitCount (o : Operand) : Nat := match o with | .imm v => v.toNat | _ => 0

/-- `n` units granted to a group: its new slots read as zero (R47). The window holds none of them. -/
def grantUnits (d : Dev) (team gid n : Nat) : Dev :=
  match d.team? team with
  | none => d
  | some t => d.mapGroup team gid fun g =>
    let a := allocSlots t.kernel g
    { g with
      units := g.units + n
      threads := g.threads.map fun h =>
        { h with bank := h.bank.filter fun p => p.1 < a, bad := h.bad.filter fun s => decide (s < a) } }

/-- The head-run threads with a true guard advance past an instruction of the whole group. -/
def passRun (i : Instr) (d : Dev) : Dev := eachThread i noCheck (fun _ w d => d.pass i w) d

/-- The register-range trap of R47 and R408 in every head-run thread with a true guard. -/
def unitsTrap (i : Instr) (n : Nat) (d : Dev) : Dev :=
  eachThread i noCheck (fun e w d => d.trap w (rangeTrap e (2 ^ 32 + n))) d

/-- `racq` (R47, R228, R416): granted once for the run when the slots are free and no request of the core waits before it. -/
def execRacq (c : Ctl) (d a b : Operand) (s : State) : Host.Outcome State Fault Refusal :=
  let i : Instr := .racq c d a b
  s.onDev fun m =>
    let n := unitCount a
    match m.cur with
    | .run team gid lanes _ _ =>
      match m.team? team, m.group? team gid with
      | some t, some g =>
        if !((issuers m).any fun p => p.2.h.guard c) then passRun i m
        else if t.gather.isSome then
          eachThread i noCheck (fun e w m =>
            m.trap w { cause := 0x0B, fpc := e.h.pc.toNat, resume := e.h.pc.toNat, detail := gatherPc m team * 2 ^ 32 + 2 }) m
        else if 4 < g.units + n then unitsTrap i n m
        else if (m.racq.any fun r => r.1 == g.core) || freeSlots m g.core < t.kernel.width * 64 * n then
          { m.mapGroup team gid fun g => { g with block := some (.racq n m.cycle lanes) } with
            racq := m.racq ++ [(g.core, team, gid)] }
        else passRun i (grantUnits m team gid n)
      | _, _ => m
    | _ => m

/-- Whether outstanding results or pending indirect writes of a group lie in its last `n` units (R47). -/
def unitsBusy (d : Dev) (t : Team) (g : Group) (n : Nat) : Bool :=
  let top := allocSlots t.kernel g
  let freed : Nat × Nat := (top - 64 * n, top)
  g.pendInd.any (fun p => overlaps freed (p.2.1, p.2.2))
    || d.results.any fun r => r.who.team == t.id && r.who.gid == g.gid
        && (match r.dest.slot with | some s => overlaps freed (s, s + r.dest.slots) | none => false)

/-- What the window holds from slot `lo` on given up, not written to the bank. -/
def winBelow (lo : Nat) (l : List WinEntry) : List WinEntry :=
  (l.map fun e => { e with slots := e.slots.filter fun p => decide (p.1 < lo) }).filter fun e => !e.slots.isEmpty

/-- The last `n` units of a group freed, their contents lost (R47), those in the window too. -/
def releaseUnits (d : Dev) (t : Team) (g : Group) (n : Nat) : Dev :=
  let lo := allocSlots t.kernel g - 64 * n
  d.mapGroup t.id g.gid fun g =>
    { g with
      units := g.units - n, block := none
      threads := g.threads.map fun h =>
        { h with win := winBelow lo h.win, bank := h.bank.filter fun p => p.1 < lo, bad := h.bad.filter fun s => decide (s < lo) } }

/-- `rrel` (R47, R228): held until what is outstanding in the released units has retired. -/
def execRrel (c : Ctl) (d a b : Operand) (s : State) : Host.Outcome State Fault Refusal :=
  let i : Instr := .rrel c d a b
  s.onDev fun m =>
    let n := unitCount a
    match m.cur with
    | .run team gid _ _ _ =>
      match m.team? team, m.group? team gid with
      | some t, some g =>
        if !((issuers m).any fun p => p.2.h.guard c) then passRun i m
        else if g.units < n then unitsTrap i n m
        else if unitsBusy m t g n then m.mapGroup team gid fun g => { g with block := some (.rrel n) }
        else passRun i (releaseUnits m t g n)
      | _, _ => m
    | _ => m

end Sys2Proof.Machine
end

