-- ==== Sys2Proof/Machine/LocalMem.lean ====
section
/-! DEFINITION. Loads, stores and atomics in the local apertures (class 7, R203 to R210), and the loads and stores of handles
(R260). -/

namespace Sys2Proof.Machine

/-- Bytes of an access width (R206). -/
def mwBytes : MWidth → Nat
  | .b8 => 1 | .b16 => 2 | .b32 => 4 | .b64 => 8 | .b128 => 16 | .b256 => 32

/-- The data of a store (R206, R207). -/
def storeData (e : Env) (w : MWidth) (d : Operand) : Nat :=
  match w with
  | .b8 | .b16 | .b32 => e.scalar 32 .int d % 2 ^ (8 * mwBytes w)
  | .b64 => e.scalar 64 .int d
  | .b128 => e.quad d
  | .b256 => e.packet 32 .int d

/-- Scope codes (R139). -/
def scopeCode : Scope → Nat
  | .thr => 0 | .grp => 1 | .team => 2 | .pair => 3 | .clu => 4 | .die => 5 | .pkg => 6 | .sys => 7

/-- The release part of an order, at its scope. -/
def relOf (o : MOrder) (s : Scope) : Option Nat :=
  match o with
  | .rel | .acqrel => some (scopeCode s)
  | _ => none

/-- Whether an order has an acquire part that another thread can take part in: at scope `.thr` the instance holds the thread alone
(R107, R111). At a wider scope the reads order every later access of the thread, whichever instance that reaches (DEDUCED, log 108). -/
def acquires (o : MOrder) (s : Scope) : Bool :=
  match o with
  | .acq | .acqrel => s != .thr
  | _ => false

/-- Core of the issuer. -/
def Env.core (e : Env) : Nat := match e.own with | some (_, g) => g.core | none => 0

/-- Determinism mode as the launch found it (R215, R322). -/
def Env.det (e : Env) : Bool := match e.own with | some (t, _) => bitOf (ctxAt e.d t 0).toNat 62 | none => false

/-- An access of a thread, to be sent on its way. -/
def mkAccess (e : Env) (id : Nat) (r : TRef) (space addr key : Nat) (kind : AccKind) (rel : Option Nat) (result : Option Nat) :
    Access :=
  { id, who := .thread r e.core, ctx := e.ctx, pc := e.h.pc.toNat, space, addr, key, rel, after := e.h.acqs, det := e.det, faulted := false,
    kind, result, ltag := 0, stamp := dtime64 e.d, die := e.die, grid := e.own.map fun p => p.1.grid }

/-- An access joins those on their way to a die's port or to their ordering point. -/
def sendLocal (d : Dev) (a : Access) : Dev := { d with scrWrites := d.scrWrites ++ [a] }

/-- An atomic performed on a location: its new value, and the old one. A failed `cas` writes nothing (R210). -/
def atomAt (d : Dev) (loc : Loc) (op : AtomOp) (ty : MType) (v cmp : Nat) : Nat × Dev :=
  let n := tyBytes ty
  let old := loc.read d none 0 n
  if op = .cas && old != cmp % 2 ^ (8 * n) then (old, d)
  else (old, loc.write d none 0 n (atomApply op ty old v cmp))

/-- Whether a location is a slot of the thread itself. -/
def Loc.ownSlot (r : TRef) : Loc → Bool
  | .bank who _ _ => sameThread who r
  | _ => false

/-- What one thread's local access does at issue: performed at once, or sent on its way. Die accesses go to the die's port. Accesses to team
memory and to the banks go on their way when they wait for a release, for an acquiring read, or for an earlier access of the thread to
the same bytes (R111, R116, R120); to team memory also as a free value decides, since a race there has no defined order (R110, R432;
DESIGN CHOICE, log 62); to the banks of other threads when they are wider than 8 bytes, which may tear (R58, R110). `acq` makes it an
acquiring read, `dest` and `mask` are those of the result, if the access returns one. -/
def localAccess (e : Env) (r : TRef) (instr n ea : Nat) (loc : Loc) (kind : AccKind) (rel : Option Nat) (acq : Bool) (dest : Option Dest)
    (mask : Nat) (d : Dev) : Dev :=
  let own := e.own
  let give (d : Dev) (v : Option Nat) : Option Nat × Dev :=
    match dest with
    | some x => let (id, d) := newResult d r x v mask instr true; (some id, d)
    | none => (none, d)
  let away (space key : Nat) (d : Dev) : Dev :=
    let (res, d) := give d none
    let (id, d) := d.freshId
    let d := sendLocal d (mkAccess e id r space ea key kind rel res)
    if acq then acquireReads d r [id] else d
  let waits (space key : Nat) (d : Dev) : Bool :=
    heldBy d e.h.acqs || behindOwn d d.scrWrites (mkAccess e d.nextId r space ea key kind rel none)
  match loc with
  | .scr k => away 1 k d
  | .tmem k =>
    let (free, d) := match rel with | some s => tryRelease d r e.core s d.nextId | none => (true, d)
    let (late, d) := if !free || waits 2 k d then (true, d) else d.choose
    if late then away 2 k d
    else if kind matches .load _ | .atom _ _ _ _ then
      if loc.poisoned d own e.h.lane n then consumePoison e ea d
      else
        match kind with
        | .atom op ty v cmp => let (old, d) := atomAt d loc op ty v cmp; (give d (some old)).2
        | _ => (give d (some (loc.read d own e.h.lane n))).2
    else
      match kind with
      | .store n v => loc.write d own e.h.lane n v
      | _ => d
  | _ =>
    if apertureOf ea == .rwin && ((decide (8 < n) && !loc.ownSlot r) || waits 4 (ea % 2 ^ 35) d) then away 4 (ea % 2 ^ 35) d
    else
      match kind with
      | .store n v => loc.write d own e.h.lane n v
      | .load n => if loc.poisoned d own e.h.lane n then consumePoison e ea d else (give d (some (loc.read d own e.h.lane n))).2
      | .atom _ _ _ _ => (give d (some 0)).2
      | _ => d

/-- A queue thread's access (R165, R282): its granule checked (R88, R426), then performed at the die's port; the result is
written. -/
def queueAccess (i : Instr) (e : Env) (q ea n : Nat) (loc : Loc) (kind : AccKind) (mask : Nat) (d : Dev) : Dev :=
  match loc with
  | .scr k =>
    let pc := e.h.pc.toNat
    if !granuleOk d e.ctx true k then
      queueTrap d q { cause := 0x04, fpc := pc, resume := pc, deferred := true, detail := (ownerEntry d k).toNat, addr := ea }
    else
      let p := Roles.opsOf i
      let r := Roles.rolesOf i
      let put (d : Dev) (v : Nat) : Dev := if p.1 = .none then d else writeDest d (.que q) r.1 p.1 (firstSlot e r.1 p.1) 0 v mask
      let bad := poisoned d 1 k n
      match kind with
      | .load n =>
        if bad then contextError d { cls := 0x44, sev := 2, kind := 1, index := q / 8192, ctx := some e.ctx, queue := some q, addr := ea, pc }
        else (put d (loc.read d none 0 n)).pass i (.que q)
      | .store n v => (wakeWords (loc.write d none 0 n v) k n).pass i (.que q)
      | .atom op ty v cmp =>
        if bad then contextError d { cls := 0x44, sev := 2, kind := 1, index := q / 8192, ctx := some e.ctx, queue := some q, addr := ea, pc }
        else
          let (old, d) := atomAt d loc op ty v cmp
          (put (wakeWords d k n) old).pass i (.que q)
      | _ => d
  | _ => d

/-- A local access of an instruction: aperture check, then the access in each executing thread, then its PC advances. -/
def localRun (i : Instr) (n : Nat) (atomic : Bool) (permitted : Env → Nat → Bool) (ea : Env → Nat) (kind : Env → AccKind)
    (rel : Option Nat) (acq : Bool) (returns : Option Nat) (d : Dev) : Dev :=
  let check (e : Env) : Option Trap :=
    if (localAt e n (ea e) atomic).isSome && permitted e (ea e) then none else some (apertureTrap e (ea e))
  longRun i check (fun k e w d =>
    match localAt e n (ea e) atomic with
    | none => d
    | some loc =>
      match w with
      | .thr r =>
        let dest := returns.map fun _ => destOf e (Roles.rolesOf i).1 (Roles.opsOf i).1
        (localAccess e r k n (ea e) loc (kind e) rel acq dest (returns.getD 0) d).pass i w
      | .que q => queueAccess i e q (ea e) n loc (kind e) (returns.getD 0) d) d

/-- Every aperture that R83 allows. -/
def anyLocal (_ : Env) (_ : Nat) : Bool := true

/-- `ld.bW` (R206 to R208). -/
def execLd (c : Ctl) (w : MWidth) (d a b : Operand) (s : State) : Host.Outcome State Fault Refusal :=
  s.onDev (localRun (.ld c w d a b) (mwBytes w) false anyLocal (fun e => e.ea a b) (fun _ => .load (mwBytes w)) none false
    (some (2 ^ (8 * mwBytes w) - 1)))

/-- `st.bW` (R206 to R208). -/
def execSt (c : Ctl) (w : MWidth) (d a b : Operand) (s : State) : Host.Outcome State Fault Refusal :=
  s.onDev (localRun (.st c w d a b) (mwBytes w) false anyLocal (fun e => e.ea a b)
    (fun e => .store (mwBytes w) (storeData e w d)) none false none)

/-- A local atomic (R209, R210): operand B of the type, D the compare value of `cas` and the destination of the old value. -/
def atomRun (i : Instr) (op : AtomOp) (ord : MOrder) (sc : Scope) (ty : MType) (d a b : Operand) (m : Dev) : Dev :=
  let n := 8 * tyBytes ty
  localRun i (tyBytes ty) true anyLocal (fun e => e.scalar 64 .int a)
    (fun e => .atom op ty (e.scalar n (Roles.mImm ty) b) (if op = .cas then e.scalar n .int d else 0)) (relOf ord sc)
    (acquires ord sc) (if d = .none then none else some (2 ^ n - 1)) m

/-- `atom.exch` (R209). -/
def execAtomExch (c : Ctl) (ord : MOrder) (sc : Scope) (ty : MType) (d a b : Operand) (s : State) :
    Host.Outcome State Fault Refusal :=
  s.onDev (atomRun (.atomExch c ord sc ty d a b) .exch ord sc ty d a b)

/-- `atom.cas` (R209). -/
def execAtomCas (c : Ctl) (ord : MOrder) (sc : Scope) (ty : MType) (d a b : Operand) (s : State) :
    Host.Outcome State Fault Refusal :=
  s.onDev (atomRun (.atomCas c ord sc ty d a b) .cas ord sc ty d a b)

/-- `atom.add` (R209). -/
def execAtomAdd (c : Ctl) (ord : MOrder) (sc : Scope) (ty : MType) (d a b : Operand) (s : State) :
    Host.Outcome State Fault Refusal :=
  s.onDev (atomRun (.atomAdd c ord sc ty d a b) .add ord sc ty d a b)

/-- `atom.min` (R209). -/
def execAtomMin (c : Ctl) (ord : MOrder) (sc : Scope) (ty : MType) (d a b : Operand) (s : State) :
    Host.Outcome State Fault Refusal :=
  s.onDev (atomRun (.atomMin c ord sc ty d a b) .min ord sc ty d a b)

/-- `atom.max` (R209). -/
def execAtomMax (c : Ctl) (ord : MOrder) (sc : Scope) (ty : MType) (d a b : Operand) (s : State) :
    Host.Outcome State Fault Refusal :=
  s.onDev (atomRun (.atomMax c ord sc ty d a b) .max ord sc ty d a b)

/-- `atom.and` (R209). -/
def execAtomAnd (c : Ctl) (ord : MOrder) (sc : Scope) (ty : MType) (d a b : Operand) (s : State) :
    Host.Outcome State Fault Refusal :=
  s.onDev (atomRun (.atomAnd c ord sc ty d a b) .and ord sc ty d a b)

/-- `atom.or` (R209). -/
def execAtomOr (c : Ctl) (ord : MOrder) (sc : Scope) (ty : MType) (d a b : Operand) (s : State) :
    Host.Outcome State Fault Refusal :=
  s.onDev (atomRun (.atomOr c ord sc ty d a b) .or ord sc ty d a b)

/-- `atom.xor` (R209). -/
def execAtomXor (c : Ctl) (ord : MOrder) (sc : Scope) (ty : MType) (d a b : Operand) (s : State) :
    Host.Outcome State Fault Refusal :=
  s.onDev (atomRun (.atomXor c ord sc ty d a b) .xor ord sc ty d a b)

/-- The apertures of handle tokens (R260). -/
def tokenAperture (_ : Env) (ea : Nat) : Bool := apertureOf ea == .team || apertureOf ea == .die

/-- `hstore` (R260): the 8 bytes of handle d; each thread stores (R241). A die access of it or of `hload` is refused as R88 and R426 say, where
R409's table has a dash (DEDUCED, log 107). -/
def execHstore (c : Ctl) (d a b : Operand) (s : State) : Host.Outcome State Fault Refusal :=
  let i : Instr := .hstore c d a b
  s.onDev (eachThread i
    (fun e => if (localAt e 8 (e.ea a b) false).isSome && tokenAperture e (e.ea a b) then none else some (apertureTrap e (e.ea a b)))
    fun e w m =>
      match w, localAt e 8 (e.ea a b) false with
      | .thr r, some loc => (localAccess e r 0 8 (e.ea a b) loc (.store 8 (e.handle d).toNat) none false none 0 m).pass i w
      | _, _ => m)

/-- `hload` (R260): 8 bytes into an h register, a result of long latency; each thread loads (R241). -/
def execHload (c : Ctl) (d a b : Operand) (s : State) : Host.Outcome State Fault Refusal :=
  let i : Instr := .hload c d a b
  s.onDev (longEach i
    (fun e => if (localAt e 8 (e.ea a b) false).isSome && tokenAperture e (e.ea a b) then none else some (apertureTrap e (e.ea a b)))
    fun k e w m =>
      match w, localAt e 8 (e.ea a b) false with
      | .thr r, some loc =>
        (localAccess e r k 8 (e.ea a b) loc (.load 8) none false (some (destOf e .handle d)) (2 ^ 64 - 1) m).pass i w
      | _, _ => m)

end Sys2Proof.Machine
end

