-- ==== Sys2Proof/Machine/GlobMem.lean ====
section
/-! DEFINITION. Stores, reductions and atomics to glob (class 8, R96, R211 to R216): their issue. What happens at the home slice is in
HomeSlice. -/

namespace Sys2Proof.Machine

/-- The aperture check of a glob access: in glob, aligned to `n` (R82, R83). -/
def globCheck (n : Nat) (ea : Env → Nat) (e : Env) : Option Trap :=
  if apertureOf (ea e) == .glob && ea e % n == 0 then none else some (apertureTrap e (ea e))

/-- Floating-point reductions, which count in the thread's ordinal and which determinism mode holds (R215, R333). -/
def fpReduction (op : AtomOp) (ty : MType) : Bool := op == .kahan || (op == .add && (ty == .f32 || ty == .f64))

/-- The logical tag of a thread's next reduction (R333). -/
def logicalTag (e : Env) : Nat :=
  match e.own with
  | none => 0
  | some (t, _) =>
    let g := e.d.grid? t.grid
    ((g.map (·.queue)).getD 0 % 2 ^ 17) * 2 ^ 79 + ((g.map (·.seq)).getD 0 % 2 ^ 15) * 2 ^ 64
      + linearIndex e.d t % 2 ^ 32 * 2 ^ 32 + e.h.tid % 2 ^ 13 * 2 ^ 19 + e.h.ordinal

/-- A request to glob joins those on their way to their home slices. -/
def sendGlob (d : Dev) (a : Access) : Dev := { d with reqs := d.reqs ++ [a] }

/-- A posted access to glob: one request, and the thread continues. -/
def postRun (i : Instr) (n : Nat) (ea : Env → Nat) (kind : Env → AccKind) (rel : Option Nat) (counts : Bool) (d : Dev) : Dev :=
  issueAll i (globCheck n ea) (fun e w d =>
    match w with
    | .thr r =>
      let (id, d) := d.freshId
      let d := sendGlob d { mkAccess e id r 0 (ea e) 0 (kind e) rel none with ltag := logicalTag e }
      let d := if counts then d.mapWho w fun h => { h with ordinal := (h.ordinal + 1) % 2 ^ 19 } else d
      d.pass i w
    | .que _ => d) d

/-- A returning atomic to glob (R214): a request, and a result of long latency. -/
def atomGRun (i : Instr) (op : AtomOp) (ord : MOrder) (sc : Scope) (ty : MType) (d a b : Operand) (m : Dev) : Dev :=
  let n := 8 * tyBytes ty
  longRun i (globCheck (tyBytes ty) fun e => e.scalar 64 .int a) (fun k e w m =>
    match w with
    | .thr r =>
      let kind : AccKind := .atom op ty (e.scalar n (Roles.mImm ty) b) (if op = .cas then e.scalar n .int d else 0)
      let (res, m) := if d = .none then (none, m) else
        let x := newResult m r (destOf e (Roles.rolesOf i).1 d) none (2 ^ n - 1) k
        (some x.1, x.2)
      let (id, m) := m.freshId
      let m := sendGlob m { mkAccess e id r 0 (e.scalar 64 .int a) 0 kind (relOf ord sc) res with ltag := logicalTag e }
      (if acquires ord sc then acquireReads m r [id] else m).pass i w
    | .que _ => m) m

/-- `st.g.bW` (R211). -/
def execStG (c : Ctl) (w : MWidth) (d a b : Operand) (s : State) : Host.Outcome State Fault Refusal :=
  s.onDev (postRun (.stG c w d a b) (mwBytes w) (fun e => e.ea a b) (fun e => .store (mwBytes w) (storeData e w d)) none false)

/-- A reduction (R212): the contribution is D in the type. -/
def redRun (i : Instr) (op : AtomOp) (ord : MOrder) (sc : Scope) (ty : MType) (d a b : Operand) (m : Dev) : Dev :=
  postRun i (atomBytes op ty) (fun e => e.ea a b) (fun e => .red op ty (e.scalar (8 * tyBytes ty) (Roles.mImm ty) d)) (relOf ord sc)
    (fpReduction op ty) m

/-- `red.g.add` (R212). -/
def execRedGAdd (c : Ctl) (ord : MOrder) (sc : Scope) (ty : MType) (d a b : Operand) (s : State) :
    Host.Outcome State Fault Refusal :=
  s.onDev (redRun (.redGAdd c ord sc ty d a b) .add ord sc ty d a b)

/-- `red.g.min` (R212). -/
def execRedGMin (c : Ctl) (ord : MOrder) (sc : Scope) (ty : MType) (d a b : Operand) (s : State) :
    Host.Outcome State Fault Refusal :=
  s.onDev (redRun (.redGMin c ord sc ty d a b) .min ord sc ty d a b)

/-- `red.g.max` (R212). -/
def execRedGMax (c : Ctl) (ord : MOrder) (sc : Scope) (ty : MType) (d a b : Operand) (s : State) :
    Host.Outcome State Fault Refusal :=
  s.onDev (redRun (.redGMax c ord sc ty d a b) .max ord sc ty d a b)

/-- `red.g.and` (R212). -/
def execRedGAnd (c : Ctl) (ord : MOrder) (sc : Scope) (ty : MType) (d a b : Operand) (s : State) :
    Host.Outcome State Fault Refusal :=
  s.onDev (redRun (.redGAnd c ord sc ty d a b) .and ord sc ty d a b)

/-- `red.g.or` (R212). -/
def execRedGOr (c : Ctl) (ord : MOrder) (sc : Scope) (ty : MType) (d a b : Operand) (s : State) :
    Host.Outcome State Fault Refusal :=
  s.onDev (redRun (.redGOr c ord sc ty d a b) .or ord sc ty d a b)

/-- `red.g.xor` (R212). -/
def execRedGXor (c : Ctl) (ord : MOrder) (sc : Scope) (ty : MType) (d a b : Operand) (s : State) :
    Host.Outcome State Fault Refusal :=
  s.onDev (redRun (.redGXor c ord sc ty d a b) .xor ord sc ty d a b)

/-- `red.g.kahan` (R212, R76). -/
def execRedGKahan (c : Ctl) (ord : MOrder) (sc : Scope) (ty : MType) (d a b : Operand) (s : State) :
    Host.Outcome State Fault Refusal :=
  s.onDev (redRun (.redGKahan c ord sc ty d a b) .kahan ord sc ty d a b)

/-- `atom.g.exch` (R214). -/
def execAtomGExch (c : Ctl) (ord : MOrder) (sc : Scope) (ty : MType) (d a b : Operand) (s : State) :
    Host.Outcome State Fault Refusal :=
  s.onDev (atomGRun (.atomGExch c ord sc ty d a b) .exch ord sc ty d a b)

/-- `atom.g.cas` (R214). -/
def execAtomGCas (c : Ctl) (ord : MOrder) (sc : Scope) (ty : MType) (d a b : Operand) (s : State) :
    Host.Outcome State Fault Refusal :=
  s.onDev (atomGRun (.atomGCas c ord sc ty d a b) .cas ord sc ty d a b)

/-- `atom.g.add` (R214). -/
def execAtomGAdd (c : Ctl) (ord : MOrder) (sc : Scope) (ty : MType) (d a b : Operand) (s : State) :
    Host.Outcome State Fault Refusal :=
  s.onDev (atomGRun (.atomGAdd c ord sc ty d a b) .add ord sc ty d a b)

/-- `red.commit` (R216): its address is a multiple of 128. -/
def execRedCommit (c : Ctl) (ord : MOrder) (sc : Scope) (d a b : Operand) (s : State) : Host.Outcome State Fault Refusal :=
  s.onDev (postRun (.redCommit c ord sc d a b) 128 (fun e => e.ea a b) (fun _ => .commit) (relOf ord sc) false)

end Sys2Proof.Machine
end

