-- ==== Sys2Proof/Machine/Sync.lean ====
section
/-! DEFINITION. Fences, barriers, `wait` and the scratchpad queues (class 9, R92 to R95, R217 to R226), and what a thread's
performed accesses let proceed. -/

namespace Sys2Proof.Machine

/-! ## Counting barriers (R220, R221) -/

/-- The pair or cluster of a core, for a kind of counting barrier (1 pair, 2 cluster), and the cluster that holds the entry. -/
def barPlace (kind core : Nat) : Nat := if kind = 1 then core / 2 else clusterOf core
def barCluster (kind place : Nat) : Nat := if kind = 1 then place / 8 else place

/-- Threads parked in a generation. -/
def countParked (d : Dev) (id : Nat) : List TRef := d.teams.flatMap fun t => t.parkedFor (.barCount id)

/-- Whether an entry's generation still takes arrivals; one that has its count only waits for the releases of those that arrived, and
holds no entry any more (R121, R220). -/
def CountBar.opened (b : CountBar) : Bool := decide (b.arrivals < b.count)

/-- One arrival: the entry found or allocated, the thread parked after the barrier; false when no entry is free. -/
def arriveCount (d : Dev) (r : TRef) (core kind number count : Nat) (post : List Nat) (ctx : Nat) : Bool × Dev :=
  let place := barPlace kind core
  let park (d : Dev) (id : Nat) : Dev := (d.mapTeam r.team (Team.noteWait d.cycle kind id (.barCount id))).mapThread r fun h =>
    { post.foldl (fun h n => { h with x := AMap.set 0 h.x n (advanceX (AMap.get 0 h.x n)) }) h with
      pc := h.pc + 1, st := .parked (.barCount id) }
  match d.bars.find? fun b => b.opened && b.ctx == ctx && b.kind == kind && b.place == place && b.number == number with
  | some b =>
    (true, park { d with bars := d.bars.map fun x => if x.id = b.id then { x with arrivals := x.arrivals + 1 } else x } b.id)
  | none =>
    if 64 ≤ (d.bars.filter fun b => b.opened && barCluster b.kind b.place == clusterOf core).length then (false, d)
    else
      let (id, d) := d.freshId
      (true, park { d with bars := d.bars ++ [⟨id, ctx, kind, place, number, count, 1, d.cycle⟩] } id)

/-- The generation of an entry completes when it has its arrivals and their releases are done; its threads are freed. -/
def completeCount (d : Dev) (b : CountBar) : Dev :=
  let l := countParked d b.id
  if !b.opened && allReleased d l (if b.kind = 1 then 3 else 4) then
    l.foldl (fun d r => d.wakeRef r) { d with bars := d.bars.filter fun x => x.id != b.id }
  else d

/-- The core of a thread's group. -/
def coreOfRef (d : Dev) (r : TRef) : Nat := ((d.group? r.team r.gid).map (·.core)).getD 0

/-- Threads that wait for an entry arrive, in the order in which they parked, while entries are free (R221). -/
def retryBars : List TRef → Dev → Dev
  | [], d => d
  | r :: l, d =>
    let r := d.refNow r
    match d.thread? r, d.team? r.team with
    | some h, some t =>
      match h.st with
      | .parked (.barRetry kind number count post) =>
        match arriveCount d r (coreOfRef d r) kind number count post t.ctx with
        | (true, d) => retryBars l { d with barWait := d.barWait.filter fun x => !sameThread x r }
        | (false, d) => retryBars l d
      | _ => retryBars l { d with barWait := d.barWait.filter fun x => !sameThread x r }
    | _, _ => retryBars l { d with barWait := d.barWait.filter fun x => !sameThread x r }

/-- Free entries serve the waiting threads, and complete generations free theirs, until neither changes anything; the first argument
bounds the rounds. -/
def settleRounds : Nat → Dev → Dev
  | 0, d => d
  | n + 1, d =>
    let x := retryBars d.barWait d
    let x := x.bars.foldl completeCount x
    if x.bars.length = d.bars.length && x.barWait.length = d.barWait.length then x else settleRounds n x

/-- The counting barriers brought up to date (R220, R221). -/
def settleCount (d : Dev) : Dev := settleRounds (2 * d.barWait.length + d.bars.length + 1) d

/-! ## What performed accesses let proceed -/

/-- The add of a `bar.sys` sent (R222). -/
def sendBarSys (d : Dev) (r : TRef) (t : Team) (h : Thread) (pc addr count : Nat) : Dev :=
  let (id, d) := d.freshId
  let a : Access :=
    { id, who := .thread r (coreOfRef d r), ctx := t.ctx, pc, space := 0, addr, key := 0, rel := none, after := h.acqs, det := bitOf (ctxAt d t 0).toNat 62,
      faulted := false, kind := .barSys count, result := none, ltag := 0, stamp := dtime64 d, die := dieOf t.core, grid := some t.grid }
  sendGlob (d.mapThread r fun _ => { h with st := .parked (.barSysSent addr count) }) a

/-- A group held at an instruction by what its threads have on their way looks again. -/
def unholdGroup (d : Dev) (r : TRef) : Dev :=
  d.mapGroup r.team r.gid fun g => { g with block := if g.block = some .interlock then none else g.block }

/-- What a thread waits for tested again, after one of its accesses was performed or acknowledged. -/
def progress (d : Dev) (r : TRef) : Dev :=
  let r := d.refNow r
  let d := unholdGroup d r
  match d.team? r.team, d.thread? r with
  | some t, some h =>
    if t.stat = .halting then d
    else match h.st with
    | .parked (.fence s) =>
      let (ok, d) := tryRelease d r (coreOfRef d r) s d.nextId
      if ok then d.wakeRef r else d
    | .parked (.barSysRelease a c) =>
      let (ok, d) := tryRelease d r (coreOfRef d r) 7 d.nextId
      if ok then sendBarSys d r t h (h.pc.toNat - 1) a c else d
    | .parked (.barTeam _) | .parked .regroup => d.checkTeam r.team
    | .parked (.barCount _) => settleCount d
    | _ => d
  | _, _ => d

def progressIssuer (d : Dev) (w : Issuer) : Dev := match w with | .thread t _ => progress d t | _ => d

/-! ## Fences (R217, R218) -/

/-- The window of the issuing group written to the bank (R53). -/
def flushRun (d : Dev) : Dev :=
  match d.cur with
  | .run team gid _ _ _ => d.mapGroup team gid Group.flush
  | _ => d

/-- `fence.O.S` (R217): an acquire-only fence completes at issue; any other waits until R116 is met. What follows a fence with an acquire
part follows the reads that precede it (R111, R112). -/
def execFence (c : Ctl) (ord : MOrder) (sc : Scope) (d a b : Operand) (s : State) : Host.Outcome State Fault Refusal :=
  let i : Instr := .fence c ord sc d a b
  s.onDev fun m =>
    let any := (issuers m).any fun p => p.2.h.guard c
    eachThread i noCheck (fun e w m =>
      match w with
      | .que _ => m.pass i w
      | .thr r =>
        let m := if acquires ord sc then acquireReads m r (readsOut m r) else m
        match relOf ord sc with
        | none => m.pass i w
        | some k =>
          let (ok, m) := tryRelease m r e.core k m.nextId
          if ok then m.pass i w
          else (m.pass i w).mapThread r fun h => { h with st := .parked (.fence k) }) (if any then flushRun m else m)

/-! ## Barriers (R219 to R222) -/

/-- `bar.team` (R32, R219). -/
def execBarTeam (c : Ctl) (d a b : Operand) (s : State) : Host.Outcome State Fault Refusal :=
  let i : Instr := .barTeam c d a b
  s.onDev fun m =>
    let any := (issuers m).any fun p => p.2.h.guard c
    eachThread i noCheck (fun e w m =>
      match w with
      | .que _ => m
      | .thr r =>
        let n := srcC e a % 16
        let m := m.mapThread r fun h => { postAdvance i h with pc := h.pc + 1, st := .parked (.barTeam n) }
        let m := m.mapTeam r.team fun t =>
          { t with bars :=
              if t.bars.any fun x => x.number == n then
                t.bars.map fun x => if x.number = n then { x with arrivals := x.arrivals + 1 } else x
              else t.bars ++ [⟨n, 1, m.cycle⟩] }
        m.checkTeam r.team) (if any then flushRun m else m)

/-- One of the counting barriers: number a mod 16, expected arrivals b (R220, R221). -/
def countRun (i : Instr) (kind : Nat) (a b : Operand) (m : Dev) : Dev :=
  let any := (issuers m).any fun p => p.2.h.guard (Roles.ctlOf i)
  eachThread i noCheck (fun e w m =>
    match w with
    | .que _ => m
    | .thr r =>
      let n := srcC e a % 16
      let post := postIndices i
      match arriveCount m r e.core kind n (srcC e b) post e.ctx with
      | (true, m) => settleCount m
      | (false, m) =>
        { m.mapThread r fun h => { h with st := .parked (.barRetry kind n (srcC e b) post) } with barWait := m.barWait ++ [r] })
    (if any then flushRun m else m)

/-- `bar.pair` (R220). -/
def execBarPair (c : Ctl) (d a b : Operand) (s : State) : Host.Outcome State Fault Refusal :=
  s.onDev (countRun (.barPair c d a b) 1 a b)

/-- `bar.clu` (R220). -/
def execBarClu (c : Ctl) (d a b : Operand) (s : State) : Host.Outcome State Fault Refusal :=
  s.onDev (countRun (.barClu c d a b) 2 a b)

/-- The checks of `bar.sys`: the aperture trap, then the barrier trap for a count of 0 (R222, R204). -/
def barSysCheck (a b : Operand) (e : Env) : Option Trap :=
  match globCheck 8 (fun e => e.scalar 64 .int a) e with
  | some x => some x
  | none =>
    if srcC e b = 0 then
      some { cause := 0x0A, fpc := e.h.pc.toNat, resume := e.h.pc.toNat, addr := e.scalar 64 .int a }
    else none

/-- `bar.sys.O` (R122, R222): the add is sent at once, or with `.rel` when the thread's earlier writes are performed. -/
def execBarSys (c : Ctl) (rel : Bool) (d a b : Operand) (s : State) : Host.Outcome State Fault Refusal :=
  let i : Instr := .barSys c rel d a b
  s.onDev fun m =>
    let any := (issuers m).any fun p => p.2.h.guard c
    eachThread i (barSysCheck a b) (fun e w m =>
      match w, e.own with
      | .thr r, some (t, _) =>
        let m := m.mapThread r fun h =>
          { postAdvance i h with pc := h.pc + 1, st := .parked (.barSysRelease (e.scalar 64 .int a) (srcC e b)) }
        let (ok, m) := if rel then tryRelease m r e.core 7 m.nextId else (true, m)
        match ok, m.thread? r with
        | true, some h => sendBarSys m r t h e.h.pc.toNat (e.scalar 64 .int a) (srcC e b)
        | _, _ => m
      | _, _ => m) (if any then flushRun m else m)

/-! ## `wait` (R93, R223) -/

/-- Comparison code of `wait`. -/
def waitCode : WaitCmp → Nat
  | .eq => 0 | .ne => 1 | .ge => 2

/-- The key of a die-aperture word aligned to 8, or none for the aperture trap. -/
def dieWord (e : Env) (ea : Nat) : Option Nat :=
  if apertureOf ea == .die then
    match localAt e 8 ea false with
    | some (.scr k) => some k
    | _ => none
  else none

/-- `wait.C` (R223): the thread parks at the instruction while its test is on the way to the die's port. -/
def execWait (c : Ctl) (cmp : WaitCmp) (d a b : Operand) (s : State) : Host.Outcome State Fault Refusal :=
  let i : Instr := .wait c cmp d a b
  let ea (e : Env) : Nat := e.scalar 64 .int a
  s.onDev (eachThread i (fun e => if (dieWord e (ea e)).isSome then none else some (apertureTrap e (ea e))) fun e w m =>
    match w, dieWord e (ea e) with
    | .thr r, some k =>
      let (id, m) := m.freshId
      sendLocal (m.mapThread r fun h => { h with st := .parked (.word (ea e) (postIndices i)) })
        (mkAccess e id r 1 (ea e) k (.test (waitCode cmp) (e.scalar 64 .int b)) none none)
    | _, _ => m)

/-! ## Scratchpad queues (R94, R95, R224, R225) -/

/-- Die and number of a queue name; none where the name is a protection fault (R224). -/
def queueName (own v : Nat) : Option (Nat × Nat) :=
  if 4096 ≤ v ∨ (bitOf v 11 ∧ field v 10 8 ≠ 0) then none
  else some (if bitOf v 11 then own else field v 10 8, v % 256)

/-- A deferred fault sent to a thread (R388) in place of the access of that name, with the result that now never comes; `parks`: the
thread is parked at that access. -/
def sendFault (d : Dev) (id : Nat) (w : Issuer) (x : Deferred) (result : Option Nat) (parks : Bool) : Dev :=
  { d with late := d.late ++ [⟨id, w, x, result, parks⟩] }

/-- A queue instruction: the thread parks at it until the queue unit replies. -/
def queueRun (i : Instr) (name : Env → Nat) (value : Env → Option DWord) (dest : Env → Dest) (m : Dev) : Dev :=
  let instr := m.nextId
  eachThread i noCheck (fun e w m =>
    match w with
    | .que _ => m
    | .thr r =>
      let m := m.mapThread r fun h => { h with st := .parked .queue }
      let (id, m) := m.freshId
      match queueName e.die (name e) with
      | none => sendFault m id (.thread r e.core) { cause := 0x04, fpc := e.h.pc.toNat, addr := 0, detail := 0 } none true
      | some (die, number) =>
        { m with qops := m.qops ++
            [{ id, who := r, ctx := e.ctx, pc := e.h.pc.toNat, die, number, instr, value := value e, dest := dest e,
               post := postIndices i, waiting := false }] }) m

/-- No destination. -/
def noDest : Dest := { slot := none, indirect := false, y := none, h := none, slots := 0 }

/-- `qpush` (R224). -/
def execQpush (c : Ctl) (d a b : Operand) (s : State) : Host.Outcome State Fault Refusal :=
  s.onDev (queueRun (.qpush c d a b) (fun e => srcC e a) (fun e => some (BitVec.ofNat 64 (e.scalar 64 .int b))) fun _ => noDest)

/-- `qpop` (R225). -/
def execQpop (c : Ctl) (d a b : Operand) (s : State) : Host.Outcome State Fault Refusal :=
  let i : Instr := .qpop c d a b
  s.onDev fun m => (queueRun i (fun e => srcC e a) (fun _ => none) (fun e => destOf e (.dst true) d) m).closeWindow i

end Sys2Proof.Machine
end

