-- ==== Sys2Proof/Machine/HomeSlice.lean ====
section
/-! DEFINITION. The home slices (R117, R330 to R334) and what a glob request comes to: performed at its slice, sent to another
package (R341 to R344), performed on a host's memory (R101, R346), held in a side log (R424), or faulted (R410, R419 to R421). -/

namespace Sys2Proof.Machine

/-! ## What an access comes to -/

/-- An error record for an access of a thread. -/
def accessRec (d : Dev) (a : Access) (cls sev : Nat) : ErrRec :=
  match a.who with
  | .thread r core =>
    { cls, sev, kind := 0, index := core, ctx := some a.ctx, grid := a.grid, addr := a.addr, pc := a.pc, tid := r.tid,
      team := (d.team? r.team).elim 0 (linearIndex d), ltag := a.ltag, stamp := a.stamp }
  | .queue q =>
    { cls, sev, kind := 1, index := q / 8192, ctx := some a.ctx, queue := some q, addr := a.addr, pc := a.pc, stamp := a.stamp }
  | .job cluster seq =>
    { cls, sev, kind := 2, index := cluster, ctx := some a.ctx, addr := a.addr, stamp := a.stamp
      grid := ((AMap.get Join.blank d.joins cluster).jobs.find? fun b => b.seq == seq).map (·.grid) }
  | .agent stack entry =>
    { cls, sev, kind := 4, index := stack, ctx := some a.ctx, grid := (AMap.get Firing.blank d.firings (stack * 4096 + entry)).grid, addr := a.addr
      stamp := a.stamp }
  | _ => { cls, sev, kind := 3, index := 0, ctx := some a.ctx, addr := a.addr, ltag := a.ltag, stamp := a.stamp }

/-- The same with the slice's tag for the request (R117, R397); the record of a request from another package is the slice's. -/
def slicedRec (d : Dev) (a : Access) (cls sev slice tag : Nat) : ErrRec :=
  let r := accessRec d a cls sev
  { r with slice := some (slice, tag), index := if r.kind = 3 then slice else r.index }

/-- A request leaves those on their way, or the side log that replays it. -/
def removeReq (d : Dev) (a : Access) : Dev :=
  { d with reqs := d.reqs.filter fun x => x.id != a.id, side := d.side.filter fun e => e.access.id != a.id }

/-- A deferred fault of an access, sent to its thread; its result never comes, and stays outstanding until the fault is there (R388,
R426). -/
def refuseAccess (d : Dev) (a : Access) (cause detail : Nat) : Dev :=
  sendFault d a.id a.who { cause, fpc := a.pc, addr := a.addr, detail } a.result (a.kind matches .test _ _)

/-- Poisoned data consumed by a thread's access: context error 0x44 (R429). -/
def poisonAccess (d : Dev) (a : Access) : Dev := contextError d (accessRec d a 0x44 2)

/-- The same at a home slice. -/
def poisonAt (d : Dev) (a : Access) (slice tag : Nat) : Dev := contextError d (slicedRec d a 0x44 2 slice tag)

/-! ## Acknowledgements (R117) -/

/-- A performed request whose acknowledgement is on its way to its issuer. -/
def acknowledge (d : Dev) (a : Access) (slice tag : Nat) : Dev := { d with acks := d.acks ++ [⟨a.id, a.who, slice, tag⟩] }

/-! ## Waiters of `bar.sys` on a glob word (R222) -/

/-- Every waiter whose target a word has reached wakes. -/
def wakeSys (d : Dev) (pa : Nat) : Dev :=
  let w := physReadN d pa 8
  let hit (v : Watch) : Bool := v.key == 2 ^ 60 + pa && v.held && decide (v.value ≤ w)
  (d.watch.filter hit).foldl (fun d v => d.wakeIssuer v.who) { d with watch := d.watch.filter fun v => !hit v }

/-- Whether a home slice's watch list has room. -/
def sysWatchRoom (d : Dev) (pa : Nat) : Bool :=
  decide ((d.watch.filter fun v => v.held && 2 ^ 60 ≤ v.key && v.key < 2 ^ 61 && sliceAt (v.key - 2 ^ 60) == sliceAt pa).length < Config.sysWatchEntries)

/-- The target of an arrival at a word, by what its add returned (R222). -/
def sysTargetOf (count old : Nat) : Nat := (old / count + 1) * count

/-- The use of a `bar.sys` word of this package noted as an arrival finds `old` in it, and the arrival's target. The first arrival of a
generation finds a multiple of its count, each later one of the same count what the one before it left; an arrival that finds another
value names a word that is misused: its target, and that of those who wait there, are open (R4, R222; DESIGN CHOICE, log 120). -/
def arriveSys (d : Dev) (pa count old : Nat) : Nat × Dev :=
  let first := old % count == 0
  let ok := match d.sysUse.find? fun u => u.pa == pa with
    | some u => (u.count == count && u.word == old) || (first && !d.watch.any fun v => v.key == 2 ^ 60 + pa)
    | none => first
  let rest := d.sysUse.filter fun u => u.pa != pa
  let target := sysTargetOf count old
  if ok then (target, { d with sysUse := if target ≤ old + 1 then rest else rest ++ [⟨pa, count, (old + 1) % 2 ^ 64⟩] })
  else
    let l := freeBytes 8 { d with sysUse := rest }
    let m := freeBytes 8 l.2
    (ofBytes l.1, { m.2 with watch := m.2.watch.map fun v => if v.key = 2 ^ 60 + pa then { v with value := ofBytes m.1 } else v })

/-- The add of a `bar.sys` has left `word`: its thread goes on, or waits for its target. -/
def barSysArrived (d : Dev) (a : Access) (count target word key : Nat) (room : Bool) : Dev :=
  match a.who with
  | .thread r c =>
    let r := d.refNow r
    if target ≤ word then d.wakeRef r
    else
      let d := d.mapTeam r.team (Team.noteWait d.cycle 3 a.addr (.barSysTarget a.addr target count))
      { d.mapThread r fun h => { h with st := .parked (.barSysTarget a.addr target count) } with
        watch := d.watch ++ [⟨key, .thread r c, 2, target, room⟩] }
  | _ => d

/-! ## Requests performed at the slice (R215, R216, R331, R332, R334) -/

/-- Held contributions of a context to a line applied in logical-tag order (R216). -/
def commitLine (d : Dev) (ctx line : Nat) : Dev :=
  let mine (c : Contribution) : Bool := c.ctx == ctx && lineOf c.addr == line
  (sortBy (·.ltag) (d.contribs.filter mine)).foldl applyHeldOne
    { d with contribs := d.contribs.filter fun c => !mine c }

/-- Contributions that a slice holds. -/
def heldAt (d : Dev) (slice : Nat) : Nat := (d.contribs.filter fun c => sliceAt c.addr == slice).length

/-- A near-placed reduction combined into the core's partial (R332). Its request takes a tag of the slice, as every accepted request does
(R117; DEDUCED, log 118). -/
def combineNear (d : Dev) (ctx core pa : Nat) (op : AtomOp) (ty : MType) (v : Nat) (grid : Option Nat) : Dev :=
  let d := roomNear { d with shared := d.shared.filter fun s => s.1 != lineOf pa } core (lineOf pa)
  let d :=
    if d.partials.any fun p => lineOf p.addr == lineOf pa && (p.op != op || p.ty != ty) then
      mergePartials d fun p => lineOf p.addr == lineOf pa
    else d
  match d.partials.find? fun p => p.core == core && p.addr == pa with
  | some _ =>
    { d with partials := d.partials.map fun p =>
        if p.core == core && p.addr == pa then { p with value := atomApply op ty p.value v 0 } else p }
  | none => { d with partials := d.partials ++ [⟨core, ctx, pa, op, ty, atomApply op ty (atomIdentity op ty) v 0, grid⟩] }

/-- Whether an access is one of a team that its context's halt has stopped: what slices held of it has been applied already (R437). -/
def ofHalted (d : Dev) (a : Access) : Bool :=
  match a.who with
  | .thread r _ => (d.team? r.team).all fun t => t.stat == .halting
  | _ => false

/-- A request performed at its home slice; the value it returns, if any. `near`: the leaf's placement is near. A contribution that reaches
the slice after its context has halted is applied as those held were, with a record of its own (R395, R437; DEDUCED, log 116). -/
def performPhys (d : Dev) (a : Access) (pa : Nat) (near : Bool) (slice tag : Nat) : Dev :=
  let core := match a.who with | .thread _ c => c | _ => 0
  match a.kind with
  | .store n v => acknowledge (physStore (recallLine d (lineOf pa)) pa n v) a slice tag
  | .red op ty v =>
    if a.det && fpReduction op ty then
      let d := recallLine d (lineOf pa)
      if ofHalted d a then
        let d := contribute d pa op ty v (slicedRec d a 0 0 slice tag)
        acknowledge (report d { cls := 0x4E, sev := 0, kind := 3, index := slice, ctx := some a.ctx, grid := a.grid, d0 := 1 }) a slice tag
      else if heldAt d slice < Config.heldEntries then
        acknowledge { d with contribs := d.contribs ++ [⟨a.ctx, pa, op, ty, v, a.ltag, a.stamp, tag, a.grid⟩] } a slice tag
      else
        let d := contribute d pa op ty v (slicedRec d a 0 0 slice tag)
        acknowledge (report d
          { cls := 0x47, sev := 0, kind := 3, index := slice, ctx := some a.ctx, grid := a.grid, slice := some (slice, tag)
            addr := a.addr, ltag := a.ltag, stamp := a.stamp }) a slice tag
    else if near && op != .kahan then acknowledge (combineNear d a.ctx core pa op ty v a.grid) a slice tag
    else
      let d := recallLine d (lineOf pa)
      if physPoisoned d pa (atomBytes op ty) then poisonAt (acknowledge d a slice tag) a slice tag
      else acknowledge (applyAt d pa op ty v 0) a slice tag
  | .atom op ty v cmp =>
    let d := recallLine d (lineOf pa)
    if physPoisoned d pa (atomBytes op ty) then poisonAt d a slice tag
    else
      let old := physReadN d pa (atomBytes op ty)
      let d := if op = .cas && old != cmp then d else applyAt d pa op ty v cmp
      let d := match a.result with | some r => setResult d r old | none => d
      acknowledge d a slice tag
  | .commit => acknowledge (commitLine (recallLine d (lineOf pa)) a.ctx (lineOf pa)) a slice tag
  | .barSys count =>
    let d := recallLine d (lineOf pa)
    if physPoisoned d pa 8 then
      match a.who with
      | .thread r _ => giveDeferred (d.mapThread (d.refNow r) fun h => { h with pc := BitVec.ofNat 32 a.pc, st := .ready }) r
          { cause := 0x06, fpc := a.pc, addr := a.addr, detail := 0 }
      | _ => d
    else
      let old := physReadN d pa 8
      let (target, d) := arriveSys d pa count old
      let d := wakeSys (physWriteN d pa 8 ((old + 1) % 2 ^ 64)) pa
      barSysArrived d a count target ((old + 1) % 2 ^ 64) (2 ^ 60 + pa) (sysWatchRoom d pa)
  | .load _ | .test _ _ | .message _ => d

/-! ## Requests to another package (R341 to R344, R436) -/

/-- A job marked: a request of it was answered unreachable (R436). -/
def loseJob (d : Dev) (cluster seq addr : Nat) : Dev :=
  let mark (b : Job) : Job := if b.seq = seq then { b with lost := some (b.lost.getD addr) } else b
  { d with joins := d.joins.map fun j => if j.1 = cluster then (j.1, { j.2 with jobs := j.2.jobs.map mark }) else j }

/-- The name of the watched wait of a thread whose arrival at a `bar.sys` word was answered unreachable. -/
def lostWait (addr tid : Nat) : Nat := addr + 2 ^ 64 * tid

/-- The watched wait of a thread whose `bar.sys` was answered unreachable (R413, R436). -/
def Team.noteSent (now tid addr : Nat) (t : Team) : Team :=
  { t with waits := (t.waits.filter fun x => !(x.1 == 4 && x.2.1 == lostWait addr tid)) ++ [(4, lostWait addr tid, now)] }

/-- The effects of an unreachable answer on the access it answers (R436). The add of a `bar.sys` is not counted, and its thread waits on,
watched. Lost posted accesses of a thread are counted until no request of
it to that endpoint is in flight; the record follows then (`settleLost`). -/
def unreachable (d : Dev) (a : Access) (dst : Nat) : Dev :=
  match a.kind, a.who with
  | .message m, .agent stack _ => loseFiring d stack (msgEntry m) 1
  | .atom _ _ _ _, _ => dropResult? (report d (accessRec d a 0x4A 1)) a.result
  | .barSys _, .thread r _ => d.mapTeam r.team (Team.noteSent d.cycle r.tid a.addr)
  | .barSys _, _ => d
  | _, .thread r _ =>
    let mine (x : LostWrites) : Bool := sameThread x.who r && x.endpoint == dst
    if d.lostWrites.any mine then
      { d with lostWrites := d.lostWrites.map fun x => if mine x then { x with record := { x.record with d0 := x.record.d0 + 1 } } else x }
    else { d with lostWrites := d.lostWrites ++ [⟨r, dst, { accessRec d a 0x4B 1 with d0 := 1 }⟩] }
  | _, .job cluster seq => loseJob d cluster seq a.addr
  | _, .agent stack entry => loseFiring d stack entry 3
  | _, _ => d

/-- The class 0x4B records of threads that have no more requests in flight to an unreachable endpoint, each with its count (R436). -/
def settleLost (d : Dev) : Dev :=
  let open_ (x : LostWrites) : Bool := (d.out x.endpoint).sent.any fun y => y.access.who.isThread x.who
  (d.lostWrites.filter fun x => !open_ x).foldl (fun d x => report d x.record) { d with lostWrites := d.lostWrites.filter open_ }

/-- Whether an earlier request of the same issuer waits for a full retry buffer (R464). -/
def behindIo (d : Dev) (a : Access) : Bool := d.reqs.any fun x => d.ioWait.contains x.id && x.id < a.id && x.who.same a.who

/-- A request sent to another package, or answered unreachable where the pair is closed; false while 512 are unacknowledged, or while a
retry buffer is full for it or for an earlier request of its thread (R341, R464). -/
def sendRemote (d : Dev) (a : Access) (w0 w1 : DWord) (raddr : Nat) : Bool × Dev :=
  if behindIo d a then (false, d)
  else if (peerOf d w0 w1).closed then (true, unreachable { d with ioWait := d.ioWait.filter (· != a.id) } a (field w0.toNat 18 0))
  else
    match postRemote d a w0 w1 raddr with
    | some d => (true, { d with ioWait := d.ioWait.filter (· != a.id) })
    | none => (false, if remoteFull d a w0 w1 && !d.ioWait.contains a.id then { d with ioWait := d.ioWait ++ [a.id] } else d)

/-! ## Requests to a host's memory (R101, R346) -/

/-- Whether a host-placed access is one the port can carry: posted stores, integer add, exchange and compare-and-swap (R410). -/
def hostAllowed (k : AccKind) : Bool :=
  match k with
  | .store _ _ | .load _ => true
  | .red op ty _ => op == .add && (tyFmt ty).isNone
  | .atom op ty _ _ => op == .exch || op == .cas || (op == .add && (tyFmt ty).isNone)
  | .commit => true
  | .barSys _ | .test _ _ | .message _ => false

/-- A host-placed access performed as a PCIe write or AtomicOp. -/
def performHost (d : Dev) (a : Access) (port addr : Nat) : Dev :=
  let k := hostKey port addr
  let put (d : Dev) (n v : Nat) : Dev := { d with host := Memory.writeN d.host k n v }
  match a.kind with
  | .store n v => acknowledge (put d n v) a 0 0
  | .red op ty v => acknowledge (put d (tyBytes ty) (atomApply op ty (Memory.readN d.host k (tyBytes ty)) v 0)) a 0 0
  | .atom op ty v cmp =>
    let old := Memory.readN d.host k (tyBytes ty)
    let d := put d (tyBytes ty) (atomApply op ty old v cmp)
    match a.result with | some r => setResult d r old | none => d
  | _ => acknowledge d a 0 0

/-! ## Placement faults (R215, R216, R222, R410) -/

/-- Whether a reduction or atomic takes the placement trap on a page's target. -/
def placementFault (a : Access) (target : Nat) : Bool :=
  match a.kind with
  | .red op ty _ => (target == 2 && !hostAllowed a.kind) || (a.det && fpReduction op ty && target != 0)
  | .atom _ _ _ _ => target == 2 && !hostAllowed a.kind
  | .commit => a.det && target != 0
  | .barSys _ => target == 2
  | _ => false

/-- The placement trap, deferred; a `bar.sys` has not arrived and its thread stands at it again (R410). -/
def placementTrap (d : Dev) (a : Access) : Dev :=
  match a.kind, a.who with
  | .barSys _, .thread r _ =>
    let r := d.refNow r
    giveDeferred (d.mapThread r fun h => { h with pc := BitVec.ofNat 32 a.pc, st := .ready }) r
      { cause := 0x05, fpc := a.pc, addr := a.addr, detail := 0 }
  | _, _ => refuseAccess d a 0x05 0

/-! ## The whole path -/

/-- Permissions an access needs (R96). -/
def AccKind.need : AccKind → Need
  | .load _ | .test _ _ | .message _ => needR
  | .store _ _ | .commit => needW
  | .red _ _ _ | .atom _ _ _ _ | .barSys _ => needRW

/-- Source code of a page fault (R422). -/
def AccKind.source : AccKind → Nat
  | .atom _ _ _ _ => 1
  | .barSys _ => 2
  | _ => 0

/-- Whether an access is posted, and so retires into a side log on a page fault (R421). -/
def AccKind.posted : AccKind → Bool
  | .store _ _ | .red _ _ _ | .commit => true
  | _ => false

/-- The side log that takes a faulting access (R424). -/
def sideSlice (va : Nat) : Nat := field va 18 12

/-- Whether a thread issues nothing, since a posted access of it waits for room in a side log (R424). -/
def restop (d : Dev) (w : Issuer) : Dev :=
  match w with
  | .thread r _ => d.mapThread (d.refNow r) fun h => { h with stopped := d.reqs.any fun a => a.faulted && a.kind.posted && a.who.isThread r }
  | _ => d

/-- A faulting posted access enters its side log, or waits at the core while the log is full; the record of a log that becomes full (R424).
One that was replayed and faults again keeps its place, and the entries of its page wait (R425). -/
def enterLog (d : Dev) (a : Access) : Dev :=
  let s := sideSlice a.addr
  let n := (d.side.filter fun x => x.slice == s).length
  if d.side.any fun e => e.access.id == a.id then
    { d with side := d.side.map fun e => if e.access.ctx = a.ctx ∧ e.page = a.addr / 4096 then { e with due := false } else e }
  else if n < Config.sideLogEntries then
    let d := restop { removeReq d a with side := d.side ++ [⟨s, { a with faulted := false }, a.addr / 4096, false⟩] } a.who
    if n + 1 = Config.sideLogEntries then report d { cls := 0x42, sev := 0, kind := 3, index := s, ctx := none } else d
  else restop { d with reqs := d.reqs.map fun x => if x.id = a.id then { x with faulted := true } else x } a.who

/-- A page fault of a glob request (R420, R421). -/
def faultRequest (d : Dev) (a : Access) (level reason : Nat) (e : DWord) : Dev :=
  let d := pageFaultRecord d a.ctx a.addr level reason a.kind.need a.kind.source e (accessRec d a 0x40 1)
  if a.kind.posted then enterLog d a
  else { d with reqs := d.reqs.map fun x => if x.id = a.id then { x with faulted := true } else x }

/-- Whether entries of the side log are due before an access whose walk completes: those of its page (R425), and its thread's own to the
same bytes (R120). -/
def behindLog (d : Dev) (a : Access) : Bool := sideBlocked d a.ctx a.addr || behindOwn d (d.side.map (·.access)) a

/-- Whether a request may go to its slice: no earlier access of its thread to the same bytes and no acquiring read before it, and its
release done. -/
def reqReady (d : Dev) (a : Access) : Bool × Dev :=
  if behindOwn d d.reqs a || heldBy d a.after then (false, d)
  else
    match a.rel, a.who with
    | some s, .thread r core => tryRelease d r core s a.id
    | _, _ => (true, d)

/-- A posted access to a place that is lost with its host port: discarded, acknowledged and recorded; any other reads poison (R433). -/
def loseAccess (d : Dev) (a : Access) (slice tag : Nat) (r : ErrRec) : Dev :=
  if a.kind.posted then acknowledge (report d { r with cls := 0x4B, sev := 1, d0 := 1 }) a slice tag
  else contextError d { r with cls := 0x44, sev := 2 }

/-- A translated request goes where its leaf says. The word of a `bar.sys` in a lost tier is poison to it (R409). -/
def routeRequest (d : Dev) (a : Access) (e : DWord) (size : Nat) : Dev :=
  let d := if a.kind.writes then spoilBuffers d a.ctx a.addr a.kind.bytes else d
  if placementFault a (field e.toNat 53 52) then placementTrap (removeReq d a) a
  else
    match targetOf e a.addr size with
    | .phys pa =>
      if !frameOk d pa then faultRequest d a 5 2 0
      else
        let d := countAccess (removeReq d a) e pa
        let (tag, d) := takeTag d (sliceAt pa)
        if tierLost d d.isLost pa && !(a.kind matches .barSys _) then loseAccess d a (sliceAt pa) tag (slicedRec d a 0 0 (sliceAt pa) tag)
        else performPhys d a pa (field e.toNat 8 7 == 1) (sliceAt pa) tag
    | .remote slot raddr =>
      let (ep, d) := useEndpoint d a.ctx slot
      match ep with
      | none => contextError (removeReq d a) (accessRec d a 0x41 2)
      | some (w0, w1) =>
        let (ok, d) := sendRemote d a w0 w1 raddr
        if ok then removeReq d a else d
    | .host port addr =>
      if d.isLost port then loseAccess (removeReq d a) a 0 0 (accessRec d a 0 0)
      else
        match atsAsk d port addr with
        | (some x, d) => performHost (removeReq d a) a port x
        | (none, d) => faultRequest d a 6 3 0

/-- A request that walks and goes where its leaf says; one `behind` a side log waits where its walk would complete. -/
def walkRequest (d : Dev) (a : Access) (behind : Dev → Bool) : Dev :=
  match reqReady d a with
  | (false, d) => d
  | (true, d) =>
    let (w, d) := translate d a.ctx a.addr a.kind.need
    match w with
    | .pageFault l r e => faultRequest d a l r e
    | .bad => if behind d then d else contextError (removeReq d a) (accessRec d a 0x41 2)
    | .leaf e _ size => if behind d then d else routeRequest d a e size

/-- HOME_SLICE_REQUEST of one access on its way. One that has faulted waits for host software, or for room in its side log. -/
def homeRequest (d : Dev) (a : Access) : Dev :=
  if a.faulted then (if a.kind.posted then enterLog d a else d)
  else walkRequest d a fun d => behindLog d a

/-- The same of an entry of a side log that is replayed: after the entries of its page that entered the log before it (R425). -/
def replayRequest (d : Dev) (e : SideEntry) : Dev :=
  match d.side.find? fun x => x.access.ctx == e.access.ctx && x.page == e.page with
  | some x => if x.access.id = e.access.id then walkRequest d e.access fun _ => false else d
  | none => d

/-- Whether migration counts accesses (R105). -/
def Mgmt.counting (m : Mgmt) : Bool := bitOf m.migCfg.toNat 63

end Sys2Proof.Machine
end

