-- ==== Sys2Proof/Machine/EvMem.lean ====
section
/-! DEFINITION. Events of the memories: results that return (R55), accesses that reach a die's port (R93, R109, R426), queue
operations at their queue unit (R95, R427), glob requests at their home slices, acknowledgements (R116), polls (R93, R222), deferred
faults that reach their threads (R388). -/

namespace Sys2Proof.Machine

/-- A result written to its destination: the bank for a slot (R55). -/
def deliver (d : Dev) (who : TRef) (dest : Dest) (v mask : Nat) : Dev :=
  match dest.slot, dest.y, dest.h with
  | some s, _, _ => d.mapThread who fun h =>
    { h.cure (wholeSlots s mask dest.slots) with
      bank := bankWrite h.bank (slotWrites s (h.bankSlots s dest.slots) v mask dest.slots) }
  | _, some i, _ => d.mapGroup who.team who.gid fun g => { g with y := yWrite g.y i v mask }
  | _, _, some i => d.mapGroup who.team who.gid fun g =>
    { g with h := AMap.set 0 g.h i (BitVec.ofNat 64 v), hfin := AMap.set 0 g.hfin i 0 }
  | _, _, _ => d

/-- A group held at `rrel` looks again when a result has retired (R47). -/
def unholdRrel (d : Dev) (team gid : Nat) : Dev :=
  d.mapGroup team gid fun g => match g.block with | some (.rrel _) => { g with block := none } | _ => g

/-- Whether a result for a y or h register waits for one of the same instruction with a lower `sr.lane`: the last thread's value stands
(R45). -/
def behindLane (d : Dev) (r : Result) : Bool :=
  (r.dest.y.isSome || r.dest.h.isSome) && d.results.any fun x => x.instr == r.instr && decide (x.id < r.id)

/-- A produced result returns: written, unless its thread has exited (R237); an indirect one retires in every case. -/
def returnResult (d : Dev) (id : Nat) : Dev :=
  match d.results.find? fun r => r.id == id with
  | some r =>
    match r.value with
    | some v =>
      if behindLane d r then d else
      let who := d.refNow r.who
      let out := match d.thread? who with | some h => h.st == .exited | none => true
      let d := if out && !r.dest.indirect then d else deliver d who r.dest v r.mask
      unholdRrel (dropResult d id) who.team who.gid
    | none => d
  | none => d

/-- LONG_RESULT_RETURN (R55): nothing while the unit has not produced the value. -/
def execLongResultReturn (id : Nat) (s : State) : Host.Outcome State Fault Refusal :=
  s.onDev fun d => returnResult d id

/-! ## The die's port -/

/-- A refused die access (R426): no effect, and the protection fault on its way to the thread. Its detail is the owner entry as R426 says,
where R386's table has a dash (DEDUCED, log 107). -/
def refuseDie (d : Dev) (a : Access) : Dev := refuseAccess d a 0x04 (ownerEntry d a.key).toNat

/-- The test of a `wait` at the port: the thread continues past it, or is watched, or polls (R93). -/
def testWord (d : Dev) (a : Access) (cmp v : Nat) : Dev :=
  match a.who with
  | .thread r core =>
    let r := d.refNow r
    if poisoned d 1 a.key 8 then
      giveDeferred (d.wakeRef r) r { cause := 0x06, fpc := a.pc, addr := a.addr, detail := 0 }
    else if waitHolds cmp (Memory.readN d.scr a.key 8) v then
      d.mapThread r fun h =>
        match h.st with
        | .parked (.word _ post) =>
          { post.foldl (fun h n => { h with x := AMap.set 0 h.x n (advanceX (AMap.get 0 h.x n)) }) h with pc := h.pc + 1, st := .ready }
        | _ => h
    else { d with watch := d.watch ++ [⟨a.key, .thread r core, cmp, v, watchRoom d a.key⟩] }
  | .queue q =>
    if poisoned d 1 a.key 8 then
      queueTrap d q { cause := 0x06, fpc := a.pc, resume := a.pc, addr := a.addr }
    else if waitHolds cmp (Memory.readN d.scr a.key 8) v then
      let d := d.readyQueue q
      d.setQueue q { d.queue q with thread := { (d.queue q).thread with pc := (d.queue q).thread.pc + 1 } }
    else { d with watch := d.watch ++ [⟨a.key, .queue q, cmp, v, watchRoom d a.key⟩] }
  | _ => d

/-- Where a local access finds its bytes as it reaches its ordering point: a die's port (space 1), a core's team memory (2), a bank (4). -/
def arrivalLoc (d : Dev) (a : Access) : Loc :=
  if a.space = 1 then .scr a.key
  else if a.space = 4 then rwinAt d a.ctx a.key
  else if peerHit d a.ctx (a.key / 2 ^ 19) (a.key % 2 ^ 19) then .tmem a.key
  else .miss

/-- An access performed at its ordering point. -/
def performLocal (d : Dev) (a : Access) : Dev :=
  let loc := arrivalLoc d a
  let n := a.kind.bytes
  let wake (d : Dev) : Dev := if a.space = 1 then wakeWords d a.key n else d
  match a.kind with
  | .test cmp v => testWord d a cmp v
  | .store n v => wake (loc.write d none 0 n v)
  | .load n =>
    if loc.poisoned d none 0 n then poisonAccess d a
    else match a.result with | some r => finishLoad d r a.unit (loc.read d none 0 n) | none => d
  | .atom op ty v cmp =>
    if loc.poisoned d none 0 n then poisonAccess d a
    else
      let (old, d) := atomAt d loc op ty v cmp
      let d := wake d
      match a.result with | some r => setResult d r old | none => d
  | _ => d

/-- The rest of a local load or store after its first unit; none for an access that no boundary cuts (R58, R110, R432). -/
def Access.rest? (a : Access) : Option Access :=
  let u := a.unit
  let next (k : AccKind) : Access := { a with kind := k, addr := a.addr + u, key := a.key + u }
  match a.kind with
  | .load n => if u < n then some (next (.load (n - u))) else none
  | .store n v => if u < n then some (next (.store (n - u) (v / 2 ^ (8 * u)))) else none
  | _ => none

/-- An access performed at its ordering point: whole, or torn after its first unit, as a free value decides (R58, R110, R432; DESIGN CHOICE,
log 96). The poison of the words that a torn store covers whole ends with its first unit (R429). -/
def performDie (d : Dev) (a : Access) : Dev :=
  match a.rest? with
  | none => performLocal d a
  | some r =>
    let (tear, d) := d.choose
    if !tear then performLocal d a
    else
      let d := { d with scrWrites := d.scrWrites ++ [r] }
      match a.kind with
      | .load _ =>
        let loc := arrivalLoc d a
        if loc.poisoned d none 0 a.unit then poisonAccess d a
        else match a.result with | some x => addPart d x (loc.read d none 0 a.unit) | none => d
      | .store n v => performLocal { d with poison := if a.space = 2 then unpoison d 2 a.key n else d.poison } { a with kind := .store a.unit (v % 2 ^ (8 * a.unit)) }
      | _ => d

/-- An access reaches its ordering point, unless an earlier access of its thread to the same bytes, an acquiring read before it, or its
release comes first. -/
def portWrite (d : Dev) (id : Nat) : Dev :=
  match d.scrWrites.find? fun a => a.id == id with
  | none => d
  | some a =>
    if behindOwn d d.scrWrites a || heldBy d a.after then d
    else
      let (ok, d) := match a.rel, a.who with
        | some s, .thread r core => tryRelease d r core s a.id
        | _, _ => (true, d)
      if !ok then d
      else
        let d := { d with scrWrites := d.scrWrites.filter fun x => x.id != id }
        let sys := match a.kind with | .test _ _ => true | _ => false
        let d := if a.space = 1 && !granuleOk d a.ctx sys a.key then refuseDie d a else performDie d a
        progressIssuer d a.who

/-- WAIT_POLL (R93): a waiter outside the watch table tests its word again. A queue thread's number follows the team 2^32. -/
def execWaitPoll (team tid : Nat) (s : State) : Host.Outcome State Fault Refusal :=
  s.onDev fun d =>
    match d.watch.find? fun v =>
        !v.held && v.key < 2 ^ 60 && (v.who.isThread ⟨team, 0, tid⟩ || (team == 2 ^ 32 && v.who == .queue tid)) with
    | some v =>
      if waitHolds v.cmp (Memory.readN d.scr v.key 8) v.value then
        { d with watch := d.watch.filter fun x => x != v }.wakeIssuer v.who
      else d
    | none => d

/-! ## Scratchpad queues (R94, R95, R427) -/

/-- Key of a scratchpad queue's descriptor. -/
def queueKey (die n : Nat) : Nat := scrKey die (0x03FFF000 + 16 * n)

/-- The fields of a descriptor. -/
structure QDesc where
  head : Nat
  tail : Nat
  allowance : Nat
  depth : Nat
  poisoned : Bool
  enabled : Bool
  ctx : Nat
  ring : Nat
  reservedOk : Bool
  deriving DecidableEq, Repr

/-- A descriptor read (R94). -/
def queueDesc (d : Dev) (die n : Nat) : QDesc :=
  let v := Memory.readN d.scr (queueKey die n) 16
  { head := field v 119 104, tail := field v 103 88, allowance := field v 87 72, depth := field v 71 68, poisoned := bitOf v 65,
    enabled := bitOf v 64, ctx := field v 41 32, ring := field v 25 0,
    reservedOk := field v 127 120 == 0 && field v 67 66 == 0 && field v 63 42 == 0 && field v 31 26 == 0 }

/-- Head, tail and allowance written back; waiters of the descriptor's words are tested (R93). -/
def putQueueDesc (d : Dev) (die n : Nat) (q : QDesc) : Dev :=
  let v := Memory.readN d.scr (queueKey die n) 16
  let v := putField (putField (putField v 119 104 q.head) 103 88 q.tail) 87 72 q.allowance
  wakeWords { d with scr := Memory.writeN d.scr (queueKey die n) 16 v } (queueKey die n) 16

/-- Values in a queue. -/
def QDesc.count (q : QDesc) : Nat := (q.tail + 65536 - q.head) % 65536

/-- R427: whether an enabled queue's descriptor is malformed. -/
def queueMalformed (d : Dev) (die : Nat) (q : QDesc) : Bool :=
  let size := 8 * 2 ^ q.depth
  q.depth == 0 || decide (2 ^ q.depth < q.count) || decide (2 ^ q.depth < q.count + q.allowance)
    || decide (Config.scratchBytes < q.ring + size)
    || !((List.range (q.ring % 65536 + size + 65535 |> (· / 65536))).all fun k =>
      let e := (ownerEntry d (scrKey die (q.ring / 65536 * 65536 + 65536 * k))).toNat
      bitOf e 31 && bitOf e 29 && e % 1024 == q.ctx)
    || !q.reservedOk

/-- A parked thread proceeds past its queue instruction. A value popped into a y register stands over those that threads of the same
instruction with lower `sr.lane` pop later (R45). -/
def passQueue (d : Dev) (o : QueueOp) (v : Option DWord) : Dev :=
  let r := d.refNow o.who
  let behind (x : QueueOp) : Bool := o.dest.y.isSome && x.instr == o.instr && decide (x.id < o.id)
  let d : Dev := match v, o.dest.slot with
    | some _, some s => d.mapThread r fun h => h.yieldFor [(s, s + o.dest.slots)]
    | _, _ => d
  let d : Dev := match v with | some x => deliver d r o.dest x.toNat (2 ^ 64 - 1) | none => d
  let rest : List QueueOp := d.qops.filter fun (x : QueueOp) => x.id != o.id
  let d : Dev := { d with qops := rest.map fun x => if behind x then { x with dest := noDest } else x }
  d.mapThread r fun (h : Thread) =>
    { o.post.foldl (fun h n => { h with x := AMap.set 0 h.x n (advanceX (AMap.get 0 h.x n)) }) h with pc := h.pc + 1, st := .ready }

/-- A push (R95): the value enters the ring and its thread goes on. -/
def doPush (d : Dev) (o : QueueOp) (v : DWord) : Dev :=
  let q := queueDesc d o.die o.number
  let at_ := scrKey o.die (q.ring + 8 * (q.tail % 2 ^ q.depth))
  let d := wakeWatch { d with scr := Memory.writeN d.scr at_ 8 v.toNat, poison := unpoison d 1 at_ 8 } at_
  passQueue (putQueueDesc d o.die o.number { q with tail := (q.tail + 1) % 65536, allowance := q.allowance - 1 }) o none

/-- A pop (R95): the oldest value leaves the ring for its thread; a poisoned entry poisons the queue's object instead (R430). -/
def doPop (d : Dev) (o : QueueOp) : Dev :=
  let q := queueDesc d o.die o.number
  let at_ := scrKey o.die (q.ring + 8 * (q.head % 2 ^ q.depth))
  if poisoned d 1 at_ 8 then
    sendFault { d with qops := d.qops.filter fun x => x.id != o.id } o.id (.thread o.who 0)
      { cause := 0x06, fpc := o.pc, addr := 0xFC * 2 ^ 56 + at_, detail := 0 } none true
  else
    let v := BitVec.ofNat 64 (Memory.readN d.scr at_ 8)
    passQueue (putQueueDesc d o.die o.number { q with head := (q.head + 1) % 65536, allowance := q.allowance + 1 }) o (some v)

/-- Waiting threads of a queue served in arrival order while they can be (R95). -/
def settleQueue (die n : Nat) : Nat → Dev → Dev
  | 0, d => d
  | k + 1, d =>
    let q := queueDesc d die n
    let w := d.qops.filter fun o => o.waiting && o.die == die && o.number == n
    match w.find? fun o => o.value.isNone, w.find? fun o => o.value.isSome with
    | some p, o =>
      if q.count ≠ 0 then settleQueue die n k (doPop d p)
      else match o with
        | some u => if q.allowance ≠ 0 then settleQueue die n k (doPush d u (u.value.getD 0)) else d
        | none => d
    | none, some u => if q.allowance ≠ 0 then settleQueue die n k (doPush d u (u.value.getD 0)) else d
    | none, none => d

/-- A queue instruction refused at its unit: the deferred fault with the descriptor's address, and for a protection fault its word 0 (R426,
R427, R430), where R386's table has a dash (DEDUCED, log 107). -/
def refuseQueue (d : Dev) (o : QueueOp) (cause : Nat) : Dev :=
  sendFault { d with qops := d.qops.filter fun x => x.id != o.id } o.id (.thread o.who 0)
    { cause, fpc := o.pc, addr := 0xFC * 2 ^ 56 + queueKey o.die o.number
      detail := if cause = 0x04 then Memory.readN d.scr (queueKey o.die o.number) 8 else 0 } none true

/-- A queue operation reaches its unit (R95, R204, R427). -/
def queueArrival (d : Dev) (o : QueueOp) : Dev :=
  let q := queueDesc d o.die o.number
  if !q.enabled || q.ctx != o.ctx then refuseQueue d o 0x04
  else if queueMalformed d o.die q then
    let n := o.die * 256 + o.number
    let k := queueKey o.die o.number
    let d := if d.qbad.contains n then d else
      report { d with qbad := d.qbad ++ [n] }
        { cls := 0x4D, sev := 1, kind := 0, index := coreOfRef d (d.refNow o.who), ctx := some q.ctx,
          addr := 0xFC * 2 ^ 56 + k, d0 := Memory.readN d.scr k 8, d1 := Memory.readN d.scr (k + 8) 8 }
    refuseQueue d o 0x04
  else if q.poisoned || poisoned d 1 (queueKey o.die o.number) 16 then refuseQueue d o 0x06
  else
    let d := { d with qops := (d.qops.filter fun x => x.id != o.id) ++ [{ o with waiting := true }] }
    settleQueue o.die o.number (d.qops.length + 1) d

/-- A push or pop on its way: `push` says which. A push is a release at `.pkg` (R95). -/
def queueOpArrives (id : Nat) (push : Bool) (d : Dev) : Dev :=
  match d.qops.find? fun o => o.id == id && !o.waiting && o.value.isSome == push with
  | none => d
  | some o =>
    if heldBy d (((d.thread? (d.refNow o.who)).map (·.acqs)).getD []) then d
    else
      let (ok, d) := if push then tryRelease d o.who (coreOfRef d o.who) 6 o.id else (true, d)
      if ok then queueArrival d o else d

/-- QUEUE_PUSH_ARRIVAL (R95). -/
def execQueuePushArrival (id : Nat) (s : State) : Host.Outcome State Fault Refusal :=
  s.onDev (queueOpArrives id true)

/-- QUEUE_POP_ARRIVAL (R95). -/
def execQueuePopArrival (id : Nat) (s : State) : Host.Outcome State Fault Refusal :=
  s.onDev (queueOpArrives id false)

/-! ## Glob -/

/-- HOME_SLICE_REQUEST (R331): a request, or one that a side log replays (R425), reaches its home slice, or what its translation leads to. -/
def execHomeSliceRequest (id : Nat) (s : State) : Host.Outcome State Fault Refusal :=
  s.onDev fun d =>
    match d.reqs.find? fun a => a.id == id with
    | some a => progressIssuer (homeRequest d a) a.who
    | none =>
      match d.side.find? fun e => e.due && e.access.id == id with
      | some e => progressIssuer (replayRequest d e) e.access.who
      | none => d

/-- REQUEST_ACK (R116): an acknowledgement returns; what waits for it is tested again. -/
def execRequestAck (id : Nat) (s : State) : Host.Outcome State Fault Refusal :=
  s.onDev fun d =>
    match d.acks.find? fun a => a.id == id with
    | some a => progressIssuer { d with acks := d.acks.filter fun x => x.id != id } a.who
    | none => d

/-- A waiter of `bar.sys` reads its word again (R222): it goes on when its target is reached, and takes the poisoned-object trap at its
instruction where the word is poison (R430). What a word of another package holds is open (DESIGN CHOICE, log 37). -/
def readSysWord (d : Dev) (v : Watch) : Dev :=
  let gone (d : Dev) : Dev := { d with watch := d.watch.filter fun x => x != v }
  let pa := v.key - 2 ^ 60
  if v.key < 2 ^ 61 && physPoisoned d pa 8 then
    match v.who with
    | .thread r _ =>
      let r := d.refNow r
      match d.thread? r with
      | some h =>
        let a := match h.st with | .parked (.barSysTarget a _ _) => a | _ => 0
        let d := (gone d).mapThread r fun h => { h with pc := h.pc - 1, st := .ready }
        giveDeferred d r { cause := 0x06, fpc := (h.pc - 1).toNat, addr := a, detail := 0 }
      | none => gone d
    | _ => gone d
  else
    let (hit, d) := if 2 ^ 61 ≤ v.key then d.choose else ((sliceRead d pa 8).map (fun x => decide (v.value ≤ x)) id)
    if hit then (gone d).wakeIssuer v.who else d

/-- BAR_SYS_POLL (R222): a waiter without a watch-list entry reads its word again. -/
def execBarSysPoll (team tid : Nat) (s : State) : Host.Outcome State Fault Refusal :=
  s.onDev fun d =>
    match d.watch.find? fun v => (!v.held || decide (2 ^ 61 ≤ v.key)) && 2 ^ 60 ≤ v.key && v.who.isThread ⟨team, 0, tid⟩ with
    | some v => readSysWord d v
    | none => d

/-- The result of a refused access is over: its destination is not written (R388). -/
def refusedResult (d : Dev) (r : TRef) (result : Option Nat) : Dev :=
  match result with
  | some n => unholdRrel (dropResult d n) r.team r.gid
  | none => d

/-- DEFERRED_FAULT_ARRIVAL (R388): the fault becomes pending in its thread, and its access is over, with its result; a thread parked at
that access stands ready at it, and one that waits for its accesses is tested again. -/
def execDeferredFaultArrival (id : Nat) (s : State) : Host.Outcome State Fault Refusal :=
  s.onDev fun d =>
    match d.late.find? fun x => x.id == id with
    | none => d
    | some x =>
      let d := { d with late := d.late.filter fun y => y.id != id }
      match x.who with
      | .thread r _ =>
        let r := d.refNow r
        let d := (refusedResult d r x.result).mapThread r fun h => match h.st with
          | .parked (.word _ _) | .parked .queue => if x.parks then { h with st := .ready } else h
          | _ => h
        progress (giveDeferred d r x.fault) r
      | _ => d

end Sys2Proof.Machine
end

