-- ==== Sys2Proof/Machine/Kerf.lean ====
section
/-! DEFINITION. Kerf's projection of a die's power, what fits it, and admission (R317 to R320). -/

namespace Sys2Proof.Machine

/-- Core cycles of a millisecond at 4 GHz. -/
def ms : Nat := 4000000

/-- Core cycles of 50 µs and of 10 µs at 4 GHz (R318). -/
def kerfWindow : Nat := 200000
def kerfPeriod : Nat := 40000

def Dev.kerfAt (d : Dev) (die : Nat) : KerfDie := AMap.get KerfDie.blank d.kerf die
def Dev.setKerf (d : Dev) (die : Nat) (k : KerfDie) : Dev := { d with kerf := AMap.set KerfDie.blank d.kerf die k }

/-- Reserve and budget of a die (R325). -/
def Mgmt.budget (m : Mgmt) (die : Nat) : Nat × Nat := AMap.get (20000, 260000) m.budgets die

/-- The energy class word of a die: share_mw above team_mw (R317). -/
def Mgmt.classWord (m : Mgmt) (die c : Nat) : Nat :=
  match AMap.get none m.energy (16 * die + c) with
  | some w => w.toNat
  | none => 1000 * c * 2 ^ 32 + 500 * c

/-- Projected power of an engine share, and of a team, of class c. -/
def Mgmt.shareMw (m : Mgmt) (die c : Nat) : Nat := field (m.classWord die c) 63 32
def Mgmt.teamMw (m : Mgmt) (die c : Nat) : Nat := field (m.classWord die c) 31 0

/-- Measured power averaged over the last 50 µs; the full budget where the sensor is silent (R318, R451). -/
def measured (d : Dev) (m : Mgmt) (die : Nat) : Nat :=
  let k := d.kerfAt die
  if k.silent then (m.budget die).2
  else
    let l := k.samples.filter fun p => d.cycle < p.1 + kerfWindow
    if l.isEmpty then (k.samples.getLast?.map (·.2)).getD 0 else (l.map (·.2)).sum / l.length

/-- P_proj of R318. -/
def projection (d : Dev) (m : Mgmt) (die : Nat) : Nat :=
  measured d m die + (((d.kerfAt die).recent.filter fun p => d.cycle < p.1 + kerfWindow).map (·.2)).sum

/-- The test of R318, against the reserve for items without a deadline. -/
def kerfFits (d : Dev) (m : Mgmt) (die mw : Nat) (deadline : Bool) : Bool :=
  let b := m.budget die
  projection d m die + mw + (if deadline then 0 else b.1) ≤ b.2

/-- An admission counted at once (R318). -/
def kerfAdmit (d : Dev) (die mw : Nat) : Dev :=
  let k := d.kerfAt die
  d.setKerf die { k with recent := (k.recent.filter fun p => d.cycle < p.1 + kerfWindow) ++ [(d.cycle, mw)] }

/-- Kerf's headroom on a die, in two's complement of 64 bits (R279). -/
def headroom (d : Dev) (m : Mgmt) (die : Nat) : DWord :=
  BitVec.ofNat 64 (wrapInt (((m.budget die).2 : Int) - projection d m die) 64)

end Sys2Proof.Machine
end

