-- ==== Sys2Proof/Machine/Engine.lean ====
section
/-! DEFINITION. How the engines, Auger, the texture unit, the stack agents, staging and the copies of a launch read and write memory by
generic address (R88, R96, R97, R290, R309, R419 to R421, R429, R433, R439). -/

namespace Sys2Proof.Machine

/-- Who accesses: the context, the core whose die and cluster own-die and peer addresses name, the posting team, the name its requests
to other packages bear, and the record that names it. `cut`: such requests are answered unreachable. -/
structure Eng where
  ctx : Nat
  core : Nat
  team : Nat
  who : Issuer
  base : ErrRec
  cut : Bool
  /-- it reads through its core's near cache -/
  near : Bool := true

/-- The engine of a core's unit that works for a thread. Whether its requests to other packages are answered unreachable is open (R435;
DESIGN CHOICE, log 37). -/
def unitEng (d : Dev) (core ctx : Nat) (who : TRef) : Eng :=
  { ctx, core, team := who.team, who := .part ctx, cut := Config.freeBool d.fresh
    base := { cls := 0, sev := 0, kind := 0, index := core, ctx := some ctx, grid := (d.team? who.team).map (·.grid) } }

/-- Why an access does not complete. -/
inductive EngStop where
  /-- a page fault: address, level, reason, need, entry; it waits (R421) -/
  | page (va level reason need : Nat) (e : DWord)
  /-- replays of the page come first (R425) -/
  | later
  /-- reasons 3 ownership, 4 poison, 5 unreachable, 7 translation of R439 (1 footprint and 2 tile for jobs), with the address -/
  | fail (reason addr : Nat)
  deriving DecidableEq, Repr

/-- Work over the machine that may stop; what was done before the stop stands. -/
abbrev EngM (α : Type) := ExceptT EngStop (StateM Dev) α

/-- Where a local address of an engine lies; none for an access that R88 refuses. A die-aperture address with bits above the 30-bit
offset, or an own-die offset that names a die, names no granule, and is refused as one (DESIGN CHOICE, log 97). -/
def engLoc (x : Eng) (d : Dev) (a : Nat) : Option Loc :=
  let o := a % 2 ^ 56
  match apertureOf a with
  | .die =>
    match dieOffset (dieOf x.core) o with
    | some p => if o < 2 ^ 30 && granuleOk d x.ctx false (scrKey p.1 p.2) then some (.scr (scrKey p.1 p.2)) else none
    | none => none
  | .rwin => some (if o < 2 ^ 35 then rwinAt d x.ctx o else .miss)
  | .peer =>
    let core := clusterOf x.core * 16 + field o 22 19
    let b := o % 2 ^ 19
    some (if o < 2 ^ 23 && b < Config.teamBytes && peerHit d x.ctx core b then .tmem (tmemKey core b) else .miss)
  | .team =>
    match d.team? x.team with
    | some t => some (if o < t.kernel.tmem then .tmem (t.tmemAt o) else .miss)
    | none => some .miss
  | _ => none

/-- A translation for an engine: the page's leaf, or why there is none. -/
def engLeaf (x : Eng) (a need : Nat) : EngM (DWord × Nat) := do
  let d ← get
  if sideBlocked d x.ctx a then throw .later
  let (w, d) := translate d x.ctx a need
  set d
  match w with
  | .bad => throw (.fail 7 a)
  | .pageFault l r e => throw (.page a l r need e)
  | .leaf e _ size => return (e, size)

/-- A request of an engine to another package (R341). One that finds no room waits among the requests on their way. -/
def engAsk (x : Eng) (a slot raddr : Nat) (kind : AccKind) : EngM Unit := do
  if x.cut then throw (.fail 5 a)
  match askOrWait (← get) x.who x.ctx a (dieOf x.core) slot raddr kind with
  | (.sent, d) | (.full, d) => set d
  | (.bad, _) => throw (.fail 7 a)
  | (.closed, _) => throw (.fail 5 a)

/-- A read of up to 128 bytes within a line, one request at its home slice (DEDUCED, log 110). What another package holds is open (DESIGN
CHOICE, log 37). -/
def engRead (x : Eng) (a n : Nat) : EngM Nat := do
  if apertureOf a = .glob then
    let (e, size) ← engLeaf x a needR
    let d ← get
    match targetOf e a size with
    | .phys pa =>
      if !frameOk d pa then throw (.page a 5 2 needR 0)
      let near := x.near && bitOf e.toNat 5
      if near && d.shared.contains (lineOf pa, x.core) && poisoned d 4 (nearKey x.core pa) n then throw (.fail 4 a)
      let (v, d) := sliceRead (countAccess d e pa) pa n
      set d
      if physPoisoned d pa n then throw (.fail 4 a)
      if near then set (shareLine d x.core (lineOf pa))
      return v
    | .host port h =>
      if d.isLost port then throw (.fail 4 a)
      match hostPlace d port h with
      | (some k, d) =>
        set d
        return Memory.readN d.host k n
      | (none, d) =>
        set d
        throw (.page a 6 3 needR 0)
    | .remote slot raddr =>
      engAsk x a slot raddr (.load n)
      let (l, d) := freeBytes n (← get)
      set d
      return ofBytes l
  else
    let d ← get
    match engLoc x d a with
    | none => throw (.fail (if apertureOf a = .die then 3 else 7) a)
    | some loc =>
      if loc.poisoned d none 0 n then throw (.fail 4 a)
      return loc.read d none 0 n

/-- A write discarded with the host port of its place lost: its record, with the slice's tag for it (R433). -/
def engLost (x : Eng) (a : Nat) (slice : Option (Nat × Nat)) : EngM Unit :=
  modify fun d => report d { x.base with cls := 0x4B, sev := 1, addr := a, slice, d0 := 1 }

/-- A write of up to 128 bytes within a line. -/
def engWrite (x : Eng) (a n v : Nat) : EngM Unit := do
  if apertureOf a = .glob then
    if x.who matches .job _ _ then modify fun d => spoilBuffers d x.ctx a n
    let (e, size) ← engLeaf x a needW
    let d ← get
    match targetOf e a size with
    | .phys pa =>
      if !frameOk d pa then throw (.page a 5 2 needW 0)
      let (tag, d) := takeTag (countAccess d e pa) (sliceAt pa)
      set d
      if tierLost d d.isLost pa then engLost x a (some (sliceAt pa, tag))
      else set (physStore (recallLine d (lineOf pa)) pa n v)
    | .host port h =>
      if d.isLost port then engLost x a none
      else
        match hostPlace d port h with
        | (some k, d) => set { d with host := Memory.writeN d.host k n v }
        | (none, d) =>
          set d
          throw (.page a 6 3 needW 0)
    | .remote slot raddr => engAsk x a slot raddr (.store n v)
  else
    let d ← get
    match engLoc x d a with
    | none => throw (.fail (if apertureOf a = .die then 3 else 7) a)
    | some loc =>
      match loc with
      | .scr k => set (wakeWords (loc.write d none 0 n v) k n)
      | _ => set (loc.write d none 0 n v)

/-- `len` bytes from an address, line by line; the first argument bounds the lines. -/
def engGet (x : Eng) : Nat → Nat → Nat → EngM (List Byte)
  | 0, _, _ => return []
  | k + 1, a, len => do
    if len = 0 then return []
    let n := min len (128 - a % 128)
    let v ← engRead x a n
    let r ← engGet x k (a + n) (len - n)
    return toBytes n v ++ r

/-- `len` bytes from an address. -/
def engBytes (x : Eng) (a len : Nat) : EngM (List Byte) := engGet x (len / 128 + 2) a len

/-- Bytes written from an address, line by line. -/
def engPut (x : Eng) : Nat → Nat → List Byte → EngM Unit
  | 0, _, _ => return ()
  | k + 1, a, l => do
    if l.isEmpty then return ()
    let n := min l.length (128 - a % 128)
    engWrite x a n (ofBytes (l.take n))
    engPut x k (a + n) (l.drop n)

/-- Bytes written from an address. -/
def engStore (x : Eng) (a : Nat) (l : List Byte) : EngM Unit := engPut x (l.length / 128 + 2) a l

/-- Work run on a state: what it comes to, and the state it leaves. -/
def EngM.on {α : Type} (m : EngM α) (d : Dev) : Except EngStop α × Dev := StateT.run (ExceptT.run m) d

/-- Rows of bytes: the first byte, the number of rows, the bytes of a row, and from row to row. -/
structure Rows where
  base : Nat
  rows : Nat
  rowBytes : Nat
  stride : Nat

/-- The rows that hold the byte at an address: the first of them, and how many they are. -/
def Rows.at (r : Rows) (a : Nat) : Nat × Nat :=
  if a < r.base then (0, 0)
  else
    let o := a - r.base
    if r.stride = 0 then (0, if o < r.rowBytes then r.rows else 0)
    else
      let hi := min (o / r.stride) (r.rows - 1)
      let lo := if o < r.rowBytes then 0 else (o - r.rowBytes) / r.stride + 1
      (lo, hi + 1 - lo)

end Sys2Proof.Machine
end

