-- ==== Sys2Proof/Machine/Auger.lean ====
section
/-! DEFINITION. Rays: `trace` and `trace.resume` (R266 to R270, R445), the traversal of Auger (R297 to R302) and its data faults (R447). -/

namespace Sys2Proof.Machine

/-! ## Exact vectors -/

/-- Three exact values. -/
structure V3 where
  x : Val
  y : Val
  z : Val
  deriving DecidableEq, Repr

/-- The exact quotient by a value that is not zero. -/
def Val.div : Val → Val → Val
  | .fin s n d, .fin t m e => .fin (s != t) (n * e) (d * m)
  | _, _ => .nan

def Val.le (a b : Val) : Bool := !b.lt a

/-- A real number has one zero; it is written +0 (DEDUCED, log 64). -/
def Val.oneZero : Val → Val
  | .fin _ 0 d => .fin false 0 d
  | v => v

def Val.maxOf (a b : Val) : Val := if a.lt b then b else a
def Val.minOf (a b : Val) : Val := if b.lt a then b else a
def Val.isFin : Val → Bool
  | .fin _ _ _ => true
  | _ => false

def V3.sub (a b : V3) : V3 := ⟨a.x.sub false b.x, a.y.sub false b.y, a.z.sub false b.z⟩
def V3.dot (a b : V3) : Val := ((a.x.mul b.x).add false (a.y.mul b.y)).add false (a.z.mul b.z)
def V3.cross (a b : V3) : V3 :=
  ⟨(a.y.mul b.z).sub false (a.z.mul b.y), (a.z.mul b.x).sub false (a.x.mul b.z), (a.x.mul b.y).sub false (a.y.mul b.x)⟩
def V3.isFin (a : V3) : Bool := a.x.isFin && a.y.isFin && a.z.isFin
def V3.isZero (a : V3) : Bool := a.x.isZero && a.y.isZero && a.z.isZero

/-- Three FP32 words as a vector. -/
def v3Of : List Word → V3
  | [a, b, c] => ⟨val32 a.toNat, val32 b.toNat, val32 c.toNat⟩
  | _ => ⟨.nan, .nan, .nan⟩

/-- Word k of a list of bytes. -/
def wordAt (l : List Byte) (k : Nat) : Nat := ofBytes ((l.drop k).take 4)
/-- 64-bit word from byte k of a list of bytes. -/
def dwordAt (l : List Byte) (k : Nat) : Nat := ofBytes ((l.drop k).take 8)
/-- Byte k of a list. -/
def byteAt (l : List Byte) (k : Nat) : Nat := (l.getD k 0).toNat

/-! ## Boxes (R298) -/

/-- The ray's interval in a slab: none for nothing, `some none` for the whole line. -/
def slab (lo hi o d : Val) : Option (Option (Val × Val)) :=
  if d.isZero then (if lo.le o && o.le hi then some none else none)
  else
    let a := (lo.sub false o).div d
    let b := (hi.sub false o).div d
    some (some (a.minOf b, a.maxOf b))

/-- The distance at which a ray enters the slabs, from `near` to `far`; none where it does not. -/
def enterBox : List (Option (Option (Val × Val))) → Val → Val → Option Val
  | [], near, far => if near.le far then some near else none
  | none :: _, _, _ => none
  | some none :: r, near, far => enterBox r near far
  | some (some (a, b)) :: r, near, far => enterBox r (near.maxOf a) (far.minOf b)

/-- The plane q of a node's axis: p + 2^e · q. -/
def plane (n : List Byte) (axis q : Nat) : Val := (val32 (wordAt n (4 * axis))).add false (Val.scaled false q (sext (byteAt n (12 + axis)) 8))

/-- The distance at which a ray enters child i of a node. -/
def enterChild (n : List Byte) (i : Nat) (o d : V3) (tmin tmax : Val) : Option Val :=
  let lo (a : Nat) : Nat := byteAt n (40 + 16 * a + i)
  let hi (a : Nat) : Nat := byteAt n (48 + 16 * a + i)
  if (List.range 3).any fun a => decide (hi a < lo a) then none
  else
    enterBox [slab (plane n 0 (lo 0)) (plane n 0 (hi 0)) o.x d.x, slab (plane n 1 (lo 1)) (plane n 1 (hi 1)) o.y d.y,
      slab (plane n 2 (lo 2)) (plane n 2 (hi 2)) o.z d.z] tmin tmax

/-! ## Triangles (R300) -/

/-- t, u, v and back-facing of a ray and a triangle in the plane of its line, without the bounds on t. -/
def hitTriangle (o d v0 v1 v2 : V3) : Option (Val × Val × Val × Bool) :=
  let e1 := v1.sub v0
  let e2 := v2.sub v0
  let nd := (e1.cross e2).dot d
  if nd.isZero then none
  else
    let det := nd.neg
    let s := o.sub v0
    let q := s.cross e1
    let u := (s.dot (d.cross e2)).div det
    let v := (d.dot q).div det
    let t := (e2.dot q).div det
    if Val.zero.le u && Val.zero.le v && (u.add false v).le (Val.ofInt 1) then some (t.oneZero, u.oneZero, v.oneZero, !nd.sign) else none

/-! ## Instances (R301) -/

/-- The time of a ray, in [0, 1] (R266). -/
def rayTime (w : Word) : Val :=
  let t := val32 w.toNat
  if t.isNan then .zero else (t.maxOf .zero).minOf (Val.ofInt 1)

/-- Integer part of a value that is not negative. -/
def Val.floorNat : Val → Nat
  | .fin _ n d => n / d
  | _ => 0

/-- The twelve transform elements between two motion keys. -/
def blendKeys (f : Val) (a b : List Byte) : List Word :=
  (List.range 12).map fun k =>
    let x := val32 (wordAt a (4 * k))
    let y := val32 (wordAt b (4 * k))
    BitVec.ofNat 32 (rne32 (x.add false (f.mul (y.sub false x))))

/-- A component of the object-space ray: row r of the transform on a vector, with its translation where `w`. -/
def applyRow (m : List Word) (r : Nat) (v : V3) (w : Bool) : Word :=
  let e (c : Nat) : Val := val32 (m.getD (4 * r + c) 0).toNat
  let s := V3.dot ⟨e 0, e 1, e 2⟩ v
  BitVec.ofNat 32 (rne32 (if w then s.add false (e 3) else s))

/-- An origin, or a direction, taken into object space. -/
def applyMatrix (m : List Word) (v : V3) (w : Bool) : List Word := (List.range 3).map fun r => applyRow m r v w

def finWord (w : Word) : Bool := (val32 w.toNat).isFin

/-! ## Records (R268) -/

/-- A hit record. -/
def rayRecord (t u v prim inst tag flags slot : Nat) : Nat := packElems 32 [t, u, v, prim, inst, tag, flags, slot]

def Hit.record (h : Hit) (status slot : Nat) : Nat :=
  rayRecord h.t.toNat h.u.toNat h.v.toNat h.prim h.inst h.tag (status + 256 * b2n h.back) slot

/-- A record without a hit: +∞, zeros, and the status. -/
def emptyRecord (status : Nat) : Nat := rayRecord 0x7F800000 0 0 0 0 0 status 0

/-! ## Traversal (R270, R302) -/

def Ray.elem (r : Ray) (k : Nat) : Word := r.elems.getD k 0
def Ray.flag (r : Ray) (k : Nat) : Bool := bitOf (r.elem 10).toNat k
def Ray.tmin (r : Ray) : Val := val32 (r.elem 3).toNat
def Ray.far (r : Ray) : Val := val32 r.tmax.toNat

/-- What a step of the traversal comes to. -/
inductive RayOut where
  | go | ended | candidate | invalid
  deriving DecidableEq, Repr

/-- One more Auger data fault on a core (R447). -/
def augerNote (d : Dev) (core addr : Nat) : Dev :=
  rateNote d 0x64 core 1 addr 0 false fun r => { cls := 0x64, sev := 0, kind := 0, index := core, ctx := none, addr := r.value, d0 := r.count }

/-- Whether a hit precedes another: least t, then instance, then primitive (R270). -/
def Hit.before (a b : Hit) : Bool :=
  let x := val32 a.t.toNat
  let y := val32 b.t.toNat
  x.lt y || (!y.lt x && (a.inst < b.inst || (a.inst == b.inst && a.prim < b.prim)))

/-- A candidate accepted: tmax becomes its t (R270). -/
def Ray.accept (r : Ray) (h : Hit) : Ray :=
  { r with
    tmax := h.t
    best := match r.best with | some b => some (if h.before b then h else b) | none => some h
    pending := if r.flag 0 then [] else r.pending }

/-- A triangle or procedural leaf offered to the thread; at most once (R270). -/
def Ray.offer (r : Ray) (h : Hit) (key : Nat × Nat) (procedural : Bool) : Ray × RayOut :=
  if r.offered.contains key then (r, .go)
  else ({ r with offered := r.offered ++ [key], candidate := some h, procedural }, .candidate)

/-- A node visited: its entered children become pending. -/
def visitNode (x : Eng) (r : Ray) (e : RayEntry) : EngM (Ray × RayOut) := do
  let n ← engBytes x e.addr 128
  let nodes := dwordAt n 16
  let leaves := dwordAt n 24
  if byteAt n 15 != 0 || (n.drop 88).any (· != 0) || nodes % 128 != 0 || leaves % 64 != 0 || !(v3Of ((List.range 3).map fun k => BitVec.ofNat 32 (wordAt n (4 * k)))).isFin then
    modify fun d => augerNote d x.core e.addr
    return (r, .go)
  else
    let kids := (List.range 8).filterMap fun i =>
      let meta_ := byteAt n (32 + i)
      let kind := meta_ / 64
      if kind = 0 then none
      else
        (enterChild n i (v3Of e.org) (v3Of e.dir) r.tmin r.far).map fun t =>
          { e with
            kind, tri := 0
            addr := (if kind = 1 then nodes + 128 * (meta_ % 64) else leaves + 64 * (meta_ % 64)) % 2 ^ 64
            enter := BitVec.ofNat 32 (fpResult .f32 { rneMod with rnd := .rdn } 0 t.oneZero) }
    let away := kids.filter fun k => apertureOf k.addr != .glob
    modify fun d => away.foldl (fun d k => augerNote d x.core k.addr) d
    let p : List RayEntry := r.pending ++ (kids.filter fun k => apertureOf k.addr == .glob)
    if 128 < p.length then
      modify fun d => augerNote d x.core e.addr
      return (r, .invalid)
    else return ({ r with pending := p }, .go)

/-- One triangle of a leaf, or its procedural box. -/
def visitLeaf (x : Eng) (r : Ray) (e : RayEntry) : EngM (Ray × RayOut) := do
  let l ← engBytes x e.addr 64
  let w := dwordAt l 0
  let procedural := bitOf w 3
  let count := if procedural then 0 else w % 4 + 1
  let vb := w / 16 * 16
  let tag := wordAt l 8
  let prim := wordAt l 12
  if (l.drop (16 + 12 * count)).any (· != 0) || (!procedural && apertureOf vb != .glob) then
    modify fun d => augerNote d x.core e.addr
    return (r, .go)
  else if procedural then
    let t := val32 e.enter.toNat
    if r.flag 4 || !t.isFin || !r.tmin.le t || !t.le r.far then return (r, .go)
    else return r.offer ⟨e.enter, 0, 0, prim, e.inst, tag, false⟩ (4 * e.addr, e.via) true
  else
    let r := if e.tri + 1 < count then { r with pending := r.pending ++ [{ e with tri := e.tri + 1 }] } else r
    let vertex (k : Nat) : EngM (Option V3) := do
      let a := (vb + 12 * wordAt l (16 + 12 * e.tri + 4 * k)) % 2 ^ 64
      let b ← engBytes x a 12
      let v := v3Of ((List.range 3).map fun k => BitVec.ofNat 32 (wordAt b (4 * k)))
      if v.isFin then return some v
      else
        modify fun d => augerNote d x.core a
        return none
    let v0 ← vertex 0
    let v1 ← vertex 1
    let v2 ← vertex 2
    match v0, v1, v2 with
    | some v0, some v1, some v2 =>
      match hitTriangle (v3Of e.org) (v3Of e.dir) v0 v1 v2 with
      | none => return (r, .go)
      | some (t, u, v, back) =>
        if !r.tmin.le t || !t.le r.far || (back && r.flag 1) || (!back && r.flag 2) then return (r, .go)
        else
          let h : Hit := ⟨BitVec.ofNat 32 (rne32 t), BitVec.ofNat 32 (rne32 u), BitVec.ofNat 32 (rne32 v),
            (prim + e.tri) % 2 ^ 32, e.inst, tag, back⟩
          if bitOf w 2 || r.flag 3 then return (r.accept h, if r.flag 0 then .ended else .go)
          else return r.offer h (4 * e.addr + e.tri, e.via) false
    | _, _, _ => return (r, .go)

/-- The transform of an instance at the ray's time; none where the instance is skipped. A key count outside R301's range leaves the
elements open (DESIGN CHOICE, log 26). -/
def instanceMatrix (x : Eng) (r : Ray) (l : List Byte) : EngM (Option (List Word)) := do
  if !bitOf (dwordAt l 48) 6 then return some ((List.range 12).map fun k => BitVec.ofNat 32 (wordAt l (4 * k)))
  else
    let block := dwordAt l 0
    let keys := byteAt l 8
    if (l.drop 9 |>.take 39).any (· != 0) || block % 64 != 0 || apertureOf block != .glob then return none
    else if keys = 0 || 15 < keys then
      let b ← modifyGet (freeBytes 48)
      return some ((List.range 12).map fun k => BitVec.ofNat 32 (wordAt b (4 * k)))
    else
      let tau := (rayTime (r.elem 8)).mul (Val.ofInt keys)
      let q := min tau.floorNat (keys - 1)
      let f := tau.sub false (Val.ofInt q)
      let a ← engBytes x (block + 48 * q) 48
      let b ← engBytes x (block + 48 * q + 48) 48
      let fin (k : List Byte) : Bool := (List.range 12).all fun i => finWord (BitVec.ofNat 32 (wordAt k (4 * i)))
      if fin a && fin b then return some (blendKeys f a b) else return none

/-- An instance visited: its object's root becomes pending, with the ray in object space. -/
def visitInstance (x : Eng) (r : Ray) (e : RayEntry) : EngM (Ray × RayOut) := do
  if e.via ≠ 0 then return (r, .go)
  else
    let l ← engBytes x e.addr 64
    let w := dwordAt l 48
    let skip : EngM (Ray × RayOut) := do
      modify fun d => augerNote d x.core e.addr
      return (r, .go)
    if w % 64 ≠ 0 || (l.drop 57 |>.take 3).any (· != 0) then skip
    else if Nat.land (byteAt l 56) ((r.elem 9).toNat % 256) = 0 then return (r, .go)
    else
      match ← instanceMatrix x r l with
      | none => skip
      | some m =>
        let org := applyMatrix m (v3Of e.org) true
        let dir := applyMatrix m (v3Of e.dir) false
        let root := w / 128 * 128
        if !(m.all finWord && org.all finWord && dir.all finWord) || apertureOf root != .glob then skip
        else
          return ({ r with pending := r.pending ++
            [{ kind := 1, addr := root, tri := 0, inst := wordAt l 60, via := e.addr + 1, org, dir, enter := 0 }] }, .go)

/-- The pending entry number `k` visited. -/
def rayStep (x : Eng) (r : Ray) (k : Nat) : EngM (Ray × RayOut) :=
  match r.pending[k]? with
  | none => return (r, .ended)
  | some e =>
    let r := { r with pending := r.pending.eraseIdx k }
    match e.kind with
    | 1 => visitNode x r e
    | 2 => visitLeaf x r e
    | _ => visitInstance x r e

/-- Whether a ray is invalid before any traversal (status 5), and whether it misses at once. -/
def rayInvalid (r : Ray) : Bool :=
  apertureOf r.root != .glob || r.root % 128 != 0
    || !(v3Of (r.elems.take 3)).isFin || !(v3Of ((r.elems.drop 4).take 3)).isFin
    || r.tmin.isNan || (val32 (r.elem 7).toNat).isNan

def rayMisses (r : Ray) : Bool := (v3Of ((r.elems.drop 4).take 3)).isZero || (val32 (r.elem 7).toNat).lt r.tmin

/-- A ray as it first stands. -/
def newRay (core : Nat) (who : TRef) (ctx root : Nat) (elems : List Word) (result : Nat) : Ray :=
  { core, slot := none, who, ctx, root, elems, tmax := elems.getD 7 0
    pending := [{ kind := 1, addr := root, tri := 0, inst := 0xFFFFFFFF, via := 0, org := elems.take 3, dir := (elems.drop 4).take 3, enter := 0 }]
    best := none, offered := [], candidate := none, procedural := false, result := some result, held := none }

/-- The same ray: its core and slot. -/
def Ray.isAt (r : Ray) (core slot : Nat) : Bool := r.core == core && r.slot == some slot

def Dev.putRay (d : Dev) (core slot : Nat) (r : Ray) : Dev := { d with rays := d.rays.map fun x => if x.isAt core slot then r else x }
def Dev.dropRay (d : Dev) (core slot : Nat) : Dev := { d with rays := d.rays.filter fun x => !x.isAt core slot }

/-- The final record of a ray: the slot is freed. -/
def finishRay (d : Dev) (core slot : Nat) (r : Ray) (v : Nat) : Dev :=
  match r.result with
  | some id => setResult (d.dropRay core slot) id v
  | none => d.dropRay core slot

/-- The closest accepted candidate, or a miss. -/
def Ray.final (r : Ray) : Nat := match r.best with | some h => h.record 1 0 | none => emptyRecord 0

/-- Whether a thread has exited, or is no more: it holds no slot for a candidate, and no record is made (R445). -/
def threadGone (d : Dev) (r : TRef) : Bool := match d.thread? (d.refNow r) with | some h => h.st == .exited | none => true

/-- The traversal goes on: `pick` chooses among the pending entries, and `fuel` bounds the entries that this event visits. -/
def rayWalk (x : Eng) (slot : Nat) : Nat → Nat → Ray → Dev → Dev
  | 0, _, r, d => d.putRay x.core slot r
  | n + 1, pick, r, d =>
    if r.pending.isEmpty then finishRay d x.core slot r r.final
    else
      let len := r.pending.length
      match (rayStep x r (pick % len)).on d with
      | (.ok (r', .go), d') => rayWalk x slot n (pick / len) r' d'
      | (.ok (r', .ended), d') => finishRay d' x.core slot r' r'.final
      | (.ok (r', .invalid), d') => finishRay d' x.core slot r' (emptyRecord 5)
      | (.ok (r', .candidate), d') =>
        match r'.candidate, r'.result with
        | some h, some id =>
          if threadGone d' r'.who then dropResult (d'.dropRay x.core slot) id
          else setResult (d'.putRay x.core slot { r' with result := none }) id (h.record (if r'.procedural then 3 else 2) slot)
        | _, _ => d'
      | (.error (.fail 7 a), d') =>
        contextError d' { x.base with cls := 0x41, sev := 2, addr := a }
      | (.error (.fail _ a), d') => finishRay (augerNote d' x.core a) x.core slot r (emptyRecord 5)
      | (.error (.page va l why need e), d') =>
        pageFaultRecord (d'.putRay x.core slot { r with held := some (va / 4096) }) x.ctx va l why need 7 e x.base
      | (.error .later, d') => d'.putRay x.core slot r

/-- TRACE_RECORD (R267 to R270): Auger goes on with a ray that owes a record, unless a read of it waits on a page fault (R421). -/
def execTraceRecord (core slot pick fuel : Nat) (s : State) : Host.Outcome State Fault Refusal :=
  s.onDev fun d =>
    match d.rays.find? fun r => r.isAt core slot && r.result.isSome && r.candidate.isNone && r.held.isNone with
    | none => d
    | some r =>
      if rayInvalid r then finishRay d core slot r (emptyRecord 5)
      else if rayMisses r then finishRay d core slot r (emptyRecord 0)
      else rayWalk (unitEng d core r.ctx r.who) slot fuel pick r d

/-! ## Slots (R267, R445) -/

/-- Ray slots of a context on a core; 0 stands for all (R322). -/
def rayQuota (d : Dev) (r : Ray) : Nat :=
  let w := match d.team? r.who.team with | some t => ctxAt d t 6 | none => ctxWord d r.ctx 6
  match field w.toNat 31 16 with
  | 0 => Config.raySlots
  | n => n

/-- Whether a waiting ray may take a slot. -/
def mayTake (d : Dev) (r : Ray) : Bool :=
  r.slot.isNone && decide ((d.rays.filter fun x => x.core == r.core && x.ctx == r.ctx && x.slot.isSome).length < rayQuota d r)

/-- RAY_SLOT_GRANT: the first waiting ray of a core whose context is within its quota takes the lowest free slot. -/
def execRaySlotGrant (core : Nat) (s : State) : Host.Outcome State Fault Refusal :=
  s.onDev fun d =>
    match d.rays.find? fun r => r.core == core && mayTake d r with
    | none => d
    | some r =>
      match (List.range Config.raySlots).find? fun k => !d.rays.any fun x => x.isAt core k with
      | none => d
      | some k => { d with rays := d.rays.map fun x => if x == r then { r with slot := some k } else x }

/-! ## The instructions -/

/-- `trace` (R267). -/
def execTrace (c : Ctl) (d a b : Operand) (s : State) : Host.Outcome State Fault Refusal :=
  let i : Instr := .trace c d a b
  s.onDev (longEach i noCheck fun k e w m =>
    match w with
    | .thr r =>
      let (res, m) := newResult m r (destOf e .pktDst d) none (2 ^ 256 - 1) k
      let p := e.packets 2 a
      let x := newRay e.core r e.ctx (e.scalar 64 .int b) ((List.range 16).map fun k => BitVec.ofNat 32 (elem 32 p k)) res
      { m with rays := m.rays ++ [x] }.pass i w
    | .que _ => m)

/-- A candidate's answer (R269): the decision and, for a procedural candidate, its t. -/
def Ray.answer (r : Ray) (decision : Nat) (t : Word) (res : Nat) : Ray :=
  let v := val32 t.toNat
  let bad := r.procedural && (v.isNan || !r.tmin.le v || !v.le r.far)
  let q := { r with candidate := none, result := some res }
  match r.candidate with
  | some h =>
    if decision = 0 || bad then q
    else
      let q := q.accept (if r.procedural then { h with t } else h)
      if decision = 2 then { q with pending := [] } else q
  | none => q

/-- `trace.resume` (R269): the record follows by TRACE_RECORD, or at once for an invalid resume. -/
def execTraceResume (c : Ctl) (d a b : Operand) (s : State) : Host.Outcome State Fault Refusal :=
  let i : Instr := .traceResume c d a b
  s.onDev (longEach i noCheck fun k e w m =>
    match w with
    | .thr r =>
      let (res, m) := newResult m r (destOf e .pktDst d) none (2 ^ 256 - 1) k
      let v := e.scalar 32 .int a
      let slot := v % 2048
      let decision := field v 17 16
      let m :=
        match m.rays.find? fun x => x.isAt e.core slot && sameThread x.who r && x.candidate.isSome with
        | some x => if decision = 3 then setResult m res (emptyRecord 6)
          else m.putRay e.core slot (x.answer decision (BitVec.ofNat 32 (e.scalar 32 .int b)) res)
        | none => setResult m res (emptyRecord 6)
      m.pass i w
    | .que _ => m)

end Sys2Proof.Machine
end

