-- ==== Sys2Proof/Machine/Coll.lean ====
section
/-! DEFINITION. Collectives: `coll.arm`, `coll.ready` and the tile tables (R275 to R277), the stack agents' plans (R336, R338, R339,
R469), firing messages and failures (R470, R471). -/

namespace Sys2Proof.Machine

/-! ## Tile-table entries (R275) -/

/-- Ranks at which an identifier stands. -/
def ranksOf (w : Nat → Nat) (id : Nat) : List Nat := (List.range (members w)).filter fun k => peerAt w k == id

/-- Whether an image passes the checks of status 2 (R276). -/
def imageOk (d : Dev) (stack sel : Nat) (w : Nat → Nat) : Bool :=
  field (w 0) 63 51 == 0 && field (w 0) 35 32 == 0 && field (w 0) 50 48 < 3 && field (w 0) 47 45 < 4
    && (!bitOf (w 0) 44 || field (w 0) 50 48 == 0) && members w ≤ 8 && field (w 0) 31 0 != 0
    && field (w 1) 63 56 == 0 && field (w 2) 63 56 == 0 && field (w 1) 55 0 % 256 == 0 && field (w 2) 55 0 % 256 == 0
    && field (w 7) 31 30 == 0 && field (w 7) 29 0 % 8 == 0
    && (List.range 8).all (fun k => if k < members w then peerAt w k < 2 ^ 23 else peerAt w k == 0)
    && (ranksOf w (agentId d stack)).length == 1 && field sel 31 16 == 0

/-- `coll.arm` at its agent: the status, and the entry written for status 0 (R276). -/
def armEntry (d : Dev) (ctx sel : Nat) (image : List DWord) : Nat × Dev :=
  let stack := field sel 15 12
  let entry := field sel 11 0
  let w (i : Nat) : Nat := (image.getD i 0).toNat
  let w0 := entryWord d stack entry 0
  if !imageOk d stack sel w then (2, d)
  else if entryValid w0 && entryCtx w0 != ctx then (3, d)
  else if entryValid w0 && (entryReady w0 || entryRunning w0) then (1, d)
  else
    let d := (List.range 8).foldl (fun d i => setEntryWord d stack entry i (w i)) d
    (0, setEntryWord d stack entry 0 (2 ^ 63 + ctx * 2 ^ 51 + w 0))

/-! ## Elements (R277) -/

def collBytes (ty : Nat) : Nat := if ty = 0 ∨ ty = 3 then 4 else 2

/-- One node of the combination. -/
def collNode (op ty a b : Nat) : Nat :=
  if ty = 3 then
    match op with
    | 0 => (a + b) % 2 ^ 32
    | 1 => if sext a 32 < sext b 32 then b else a
    | _ => if sext b 32 < sext a 32 then b else a
  else
    let f : Fmt := match ty with | 0 => .f32 | 1 => .bf16 | _ => .f16
    match op with
    | 0 => fpResult f rneMod 0 ((decodeFp f a).add false (decodeFp f b))
    | 1 => maxNum f a b
    | _ => minNum f a b

/-- Two buffers combined element by element; the first argument bounds the elements. -/
def combineN (op ty : Nat) : Nat → List Byte → List Byte → List Byte
  | 0, _, _ => []
  | n + 1, a, b =>
    let k := collBytes ty
    toBytes k (collNode op ty (ofBytes (a.take k)) (ofBytes (b.take k))) ++ combineN op ty n (a.drop k) (b.drop k)

def combine (op ty : Nat) (a b : List Byte) : List Byte := combineN op ty (a.length / collBytes ty) a b

/-- A list combined as the pairwise tree over ranks: neighbours, then upward; the argument bounds the levels. -/
def combineTree (op ty : Nat) : Nat → List (List Byte) → List Byte
  | 0, l => l.headD []
  | n + 1, l =>
    let rec pair : List (List Byte) → List (List Byte)
      | a :: b :: r => combine op ty a b :: pair r
      | r => r
    match l with
    | [] => []
    | [a] => a
    | _ => combineTree op ty n (pair l)

/-! ## Plans (R338) -/

/-- What a firing needs of its entry. -/
structure CollJob where
  stack : Nat
  entry : Nat
  n : Nat
  rank : Nat
  op : Nat
  ty : Nat
  gather : Bool
  /-- bytes per member, and of a chunk -/
  size : Nat
  chunk : Nat
  base : Nat
  ctx : Nat
  /-- grid of the thread that made the entry ready, for its records (R322) -/
  grid : Option Nat
  deriving DecidableEq, Repr

def collJob (d : Dev) (stack entry : Nat) : CollJob :=
  let w (i : Nat) : Nat := entryWord d stack entry i
  { stack, entry, n := members w, rank := (ranksOf w (agentId d stack)).headD 0, op := field (w 0) 50 48, ty := field (w 0) 47 45
    gather := bitOf (w 0) 44, size := field (w 0) 31 0 * 256, chunk := 2 ^ (field (w 0) 39 36 + 10), base := field (w 1) 55 0
    ctx := entryCtx (w 0), grid := (d.firing stack entry).grid }

/-- The plan of an entry. -/
def planOf (c : CollJob) (determinism : Bool) : Plan :=
  if c.gather then (if c.n ≤ 2 then .direct else .ring)
  else if determinism then .tree
  else if c.n ≤ 2 ∨ c.size ≤ 256 * 1024 then .direct
  else .ring

/-- A range cut into chunks: offset and length; the first argument bounds them. -/
def chunksOf (chunk : Nat) : Nat → Nat → Nat → List (Nat × Nat)
  | 0, _, _ => []
  | k + 1, off, len => if len = 0 then [] else (off, min chunk len) :: chunksOf chunk k (off + chunk) (len - chunk)

def cutRange (chunk off len : Nat) : List (Nat × Nat) := chunksOf chunk (len / chunk + 1) off len

/-- The chunks that member `r` supplies: its block of an all-gather, its segment of a ring, or the whole buffer. -/
def piecesOf (c : CollJob) (p : Plan) (r : Nat) : List (Nat × Nat) :=
  if c.gather then cutRange c.chunk (r * c.size) c.size
  else match p with
    | .ring =>
      let s := ceilDiv (c.size / 256) c.n * 256
      cutRange c.chunk (min (r * s) c.size) (min ((r + 1) * s) c.size - min (r * s) c.size)
    | _ => cutRange c.chunk 0 c.size

/-- The least set bit of a rank's position in the tree: its parent lies that far below; `n` for rank 0. -/
def treeSpan (n r : Nat) : Nat := if r = 0 then n else if r % 2 = 1 then 1 else if r % 4 = 2 then 2 else 4

/-- Children of a rank in the tree, in the order in which they combine. -/
def treeChildren (n r : Nat) : List Nat := ([1, 2, 4].filter fun k => k < treeSpan n r ∧ r + k < n).map (r + ·)

/-- A chunk received and not used. -/
def Firing.find (f : Firing) (rank off : Nat) (down : Bool) : Option CollChunk :=
  f.got.find? fun g => g.rank == rank && g.off == off && g.down == down

def Firing.drop (f : Firing) (g : CollChunk) : Firing := { f with got := f.got.filter fun x => x != g }
def Firing.mark (f : Firing) (peer off code : Nat) : Firing := { f with sent := f.sent ++ [(peer, off, code)] }
def Firing.finish (f : Firing) (off : Nat) : Firing := { f with done := f.done ++ [off] }

/-- The chunk that this member sends. -/
def sendOf (c : CollJob) (f : Firing) (off hop : Nat) (down : Bool) (bytes : List Byte) : CollChunk :=
  { entry := c.entry, rank := c.rank, count := f.count, down, hop, off, bytes }

/-- Reads and writes of the member's buffer (R336): glob only. -/
def bufRead (x : Eng) (c : CollJob) (off len : Nat) : EngM (List Byte) :=
  if c.base + off + len ≤ 2 ^ 56 then engBytes x (c.base + off) len else throw (.fail 7 (c.base + off))
def bufWrite (x : Eng) (c : CollJob) (off : Nat) (l : List Byte) : EngM Unit :=
  if c.base + off + l.length ≤ 2 ^ 56 then engStore x (c.base + off) l else throw (.fail 7 (c.base + off))

/-- What a piece of work leaves: the firing, and the chunks to send, by the receiver's rank. -/
abbrev CollAct := EngM (Firing × List (Nat × CollChunk))

/-- The member after this one in the ring. -/
def ringNext (c : CollJob) : Nat := (c.rank + 1) % c.n

/-- Own chunk `p` sent to a member. -/
def actSend (x : Eng) (c : CollJob) (f : Firing) (p : Nat × Nat) (to_ : Nat) : CollAct := do
  let b ← bufRead x c p.1 p.2
  return (f.mark to_ p.1 (b2n c.gather), [(to_, sendOf c f p.1 0 c.gather b)])

/-- A result written, and sent on to members. -/
def actResult (x : Eng) (c : CollJob) (f : Firing) (off hop : Nat) (to_ : List Nat) (b : List Byte) : CollAct := do
  bufWrite x c off b
  return (f.finish off, to_.map fun r => (r, sendOf c f off hop true b))

/-- Work of the direct plan on a chunk's place (R338). -/
def directActs (x : Eng) (c : CollJob) (f : Firing) (p : Nat × Nat) : List CollAct :=
  let others := (List.range c.n).filter (· != c.rank)
  let sends := (others.filter fun r => f.agreed.contains r && !f.sent.contains (r, p.1, b2n c.gather)).map (actSend x c f p)
  if c.gather then sends
  else
    let ready := others.all fun r => (f.find r p.1 false).isSome && f.sent.contains (r, p.1, 0)
    sends ++ (if ready && !f.done.contains p.1 then [do
      let own ← bufRead x c p.1 p.2
      let l := (List.range c.n).map fun r => if r = c.rank then own else ((f.find r p.1 false).map (·.bytes)).getD []
      actResult x c { f with got := f.got.filter fun g => g.off != p.1 } p.1 0 [] (combineTree c.op c.ty 3 l)] else [])

/-- Work of the tree on a chunk's place (R277, R338). -/
def treeActs (x : Eng) (c : CollJob) (f : Firing) (p : Nat × Nat) : List CollAct :=
  let kids := treeChildren c.n c.rank
  let parent := c.rank - treeSpan c.n c.rank
  let combined : EngM (List Byte) := do
    let own ← bufRead x c p.1 p.2
    return kids.foldl (fun acc r => combine c.op c.ty acc (((f.find r p.1 false).map (·.bytes)).getD [])) own
  let ready := kids.all fun r => (f.find r p.1 false).isSome && f.agreed.contains r
  if f.done.contains p.1 then []
  else if c.rank = 0 then (if ready then [do actResult x c f p.1 0 kids (← combined)] else [])
  else if !f.sent.contains (parent, p.1, 0) then
    (if ready && f.agreed.contains parent then [do
      let b ← combined
      return (f.mark parent p.1 0, [(parent, sendOf c f p.1 0 false b)])] else [])
  else
    match f.find parent p.1 true with
    | some g => [actResult x c (f.drop g) p.1 0 kids g.bytes]
    | none => []

/-- Work of the ring: own chunks sent, and chunks of the member before it combined or written, and passed on (R338). -/
def ringActs (x : Eng) (c : CollJob) (f : Firing) : List CollAct :=
  let next := ringNext c
  let before := (c.rank + c.n - 1) % c.n
  if !f.agreed.contains next then []
  else
    ((piecesOf c .ring c.rank).filter fun p => !f.sent.contains (next, p.1, b2n c.gather)).map (fun p => actSend x c f p next)
      ++ (f.got.filter fun g => g.rank == before && f.agreed.contains before).map fun g =>
        let f := f.drop g
        if g.down then actResult x c f g.off (g.hop + 1) (if g.hop + 2 < c.n then [next] else []) g.bytes
        else do
          let own ← bufRead x c g.off g.bytes.length
          let b := combine c.op c.ty g.bytes own
          if g.hop + 2 < c.n then return (f, [(next, sendOf c f g.off (g.hop + 1) false b)])
          else actResult x c f g.off 0 [next] b

/-- Received blocks of a direct all-gather. -/
def blockActs (x : Eng) (c : CollJob) (f : Firing) : List CollAct :=
  (f.got.filter fun g => g.down && f.agreed.contains g.rank).map fun g => actResult x c (f.drop g) g.off 0 [] g.bytes

/-- Whether every chunk has reached its place and every own chunk of an all-gather has been sent. -/
def collDone (c : CollJob) (f : Firing) : Bool :=
  let all := (List.range c.n).flatMap fun r => if c.gather && r == c.rank then [] else piecesOf c f.plan r
  let own := if c.gather && c.n != 1 then piecesOf c f.plan c.rank else []
  all.all (fun p => f.done.contains p.1)
    && own.all fun p =>
      if f.plan = .ring then f.sent.contains (ringNext c, p.1, 1)
      else (List.range c.n).all fun r => r == c.rank || f.sent.contains (r, p.1, 1)

/-- The chunks of the member's whole buffer. -/
def bufferPieces (c : CollJob) (p : Plan) : List (Nat × Nat) :=
  if c.gather || p == .ring then (List.range c.n).flatMap (piecesOf c p) else piecesOf c p 0

/-- Undefined bytes put into the buffer of a member that wrote it while its entry ran, once the rest is done (R277). -/
def freeActs (x : Eng) (c : CollJob) (f : Firing) : List CollAct :=
  if !f.spoiled || !collDone c f then []
  else ((bufferPieces c f.plan).filter fun p => !f.freed.contains p.1).map fun p => do
    let (l, d) := freeBytes p.2 (← get)
    set d
    bufWrite x c p.1 l
    return ({ f with freed := f.freed ++ [p.1] }, [])

/-- Work that a firing can do now. -/
def collActs (x : Eng) (c : CollJob) (f : Firing) : List CollAct :=
  if f.replan.isSome then []
  else
    (match f.plan with
      | .direct => (piecesOf c .direct c.rank).flatMap (directActs x c f) ++ (if c.gather then blockActs x c f else [])
      | .tree => (piecesOf c .tree c.rank).flatMap (treeActs x c f)
      | .ring => ringActs x c f) ++ freeActs x c f

/-- Whether nothing is left of a firing but the answers to its requests. -/
def firingDone (c : CollJob) (f : Firing) : Bool :=
  collDone c f && (!f.spoiled || (bufferPieces c f.plan).all fun p => f.freed.contains p.1)

/-! ## The agent -/

/-- The agent as it reads and writes memory. -/
def collEng (c : CollJob) : Eng :=
  { ctx := c.ctx, core := c.stack / 2 * 80, team := 0, who := .agent c.stack c.entry, cut := false, near := false
    base := { cls := 0, sev := 0, kind := 4, index := c.stack, ctx := some c.ctx, grid := c.grid } }

/-- A completion value stored at an entry's completion word (R277, R92). -/
def storeCword (d : Dev) (c : CollJob) (v : Nat) : Dev :=
  match dieOffset (c.stack / 2) (field (entryWord d c.stack c.entry 7) 29 0) with
  | some p =>
    let k := scrKey p.1 p.2
    if granuleOk d c.ctx true k then wakeWords (Loc.write d none 0 8 v (.scr k)) k 8 else d
  | none => d

/-- An entry idle again: ready and running cleared, the firing counted. -/
def idleEntry (d : Dev) (c : CollJob) : Dev :=
  let f := d.firing c.stack c.entry
  setEntryWord (d.setFiring c.stack c.entry { Firing.blank with count := (f.count + 1) % 65536, early := f.early, aborts := f.aborts, later := f.later })
    c.stack c.entry 0 (putField (entryWord d c.stack c.entry 0) 62 61 0)

/-- The peers' identifiers. -/
def peersOf (d : Dev) (c : CollJob) : List Nat :=
  ((List.range c.n).filter (· != c.rank)).map (peerAt (entryWord d c.stack c.entry))

/-- A firing fails (R470). -/
def failFiring (d : Dev) (c : CollJob) (reason : Nat) : Dev :=
  let f := d.firing c.stack c.entry
  let d := (peersOf d c).foldl (fun d p => postAgent d c.stack p (.abort c.entry f.count)) (dropChunks d c.stack c.entry)
  let d := idleEntry d c
  let d := storeCword d c ((field (entryWord d c.stack c.entry 7) 63 32 + 2 ^ 63) % 2 ^ 64)
  report d
    { cls := 0x88, sev := 1, kind := 4, index := c.stack, ctx := some c.ctx, grid := c.grid, addr := c.base, d0 := c.rank * 256 + reason
      d1 := entryWord d c.stack c.entry 0 }

/-- A stop of the agent's access carried out. -/
def collStop (d : Dev) (c : CollJob) : EngStop → Dev
  | .page va l r need e =>
    pageFaultRecord d c.ctx va l r need 9 e { cls := 0x40, sev := 1, kind := 4, index := c.stack, ctx := some c.ctx, grid := c.grid }
  | .later => d
  | .fail 4 _ => failFiring d c 2
  | .fail 5 _ => failFiring d c 3
  | .fail _ a => contextError (failFiring d c 3) { cls := 0x41, sev := 2, kind := 4, index := c.stack, ctx := some c.ctx, grid := c.grid, addr := a }

/-- Chunks sent to members, by rank. -/
def sendChunks (d : Dev) (c : CollJob) (l : List (Nat × CollChunk)) : Dev :=
  l.foldl (fun d p => postAgent d c.stack (peerAt (entryWord d c.stack c.entry) p.1) (.chunk p.2)) d

/-- The work of a firing carried on until nothing can be done, or all is done and its requests are answered (R277); the first argument
bounds the pieces. -/
def pump (stack entry : Nat) : Nat → Dev → Dev
  | 0, d => d
  | k + 1, d =>
    if !entryRunning (entryWord d stack entry 0) then d
    else
      let c := collJob d stack entry
      let f := d.firing stack entry
      match f.lost with
      | some r => failFiring d c r
      | none =>
        if firingDone c f then
          if agentWaits d stack entry then d else storeCword (idleEntry d c) c (field (entryWord d stack entry 7) 63 32)
        else
          match collActs (collEng c) c f with
          | [] => d
          | a :: _ =>
            match a.on d with
            | (.error e, d) => collStop d c e
            | (.ok (f, l), d) => pump stack entry k (sendChunks (d.setFiring stack entry f) c l)

/-- Pieces of work that one firing can hold. -/
def pumpFuel (c : CollJob) : Nat := 8 * ((c.size / 1024 + 2) * c.n + 2)

def pumpAll (stack entry : Nat) (d : Dev) : Dev := pump stack entry (pumpFuel (collJob d stack entry)) d

/-! ## Firing messages (R471) -/

/-- The fields of word 0 that members compare. -/
def headFields (w0 : Nat) : Nat × Nat := (field w0 50 36, field w0 31 0)

/-- This member's message to its peers. -/
def fireMsg (d : Dev) (c : CollJob) (count : Nat) : FireMsg :=
  { entry := c.entry, rank := c.rank, count, head := BitVec.ofNat 64 (entryWord d c.stack c.entry 0)
    peers := (List.range c.n).map (peerAt (entryWord d c.stack c.entry)) }

/-- A peer's message judged against a running entry of the same count. -/
def judge (d : Dev) (c : CollJob) (m : FireMsg) : Dev :=
  let f := d.firing c.stack c.entry
  let mine := fireMsg d c f.count
  if headFields m.head.toNat = headFields mine.head.toNat ∧ m.peers = mine.peers ∧ m.rank < c.n ∧ m.rank ≠ c.rank then
    d.setFiring c.stack c.entry { f with agreed := if f.agreed.contains m.rank then f.agreed else f.agreed ++ [m.rank] }
  else failFiring d c 6

/-- Held messages of the running firing judged. -/
def judgeEarly (stack entry : Nat) : List FireMsg → Dev → Dev
  | [], d => d
  | m :: r, d =>
    let f := d.firing stack entry
    if entryRunning (entryWord d stack entry 0) && m.count == f.count then
      judgeEarly stack entry r (judge (d.setFiring stack entry { f with early := f.early.filter fun x => x != m }) (collJob d stack entry) m)
    else judgeEarly stack entry r d

/-! ## Re-plans (R339, R469) -/

/-- Whether the chunks of a firing may be re-planned. -/
def mayReplan (c : CollJob) (f : Firing) : Bool := c.gather || !f.determinism

/-- A member's proposal, or its answer: the re-plan stands, and the answer is noted. -/
def noteReplan (now plane : Nat) (answer : Option Nat) (f : Firing) : Firing :=
  let p := f.replan.getD { since := now, plane, own := false, answered := [] }
  { f with replan := some { p with answered := match answer with
    | some r => if p.answered.contains r then p.answered else p.answered ++ [r]
    | none => p.answered } }

/-- A re-plan carried on: this member answers every other once the chunks that it had started have finished; when all have answered, the
chunks not yet started move again, on routes that avoid the plane (R339, R469; DEDUCED, log 99). -/
def goReplan (d : Dev) (c : CollJob) : Dev :=
  let f := d.firing c.stack c.entry
  match f.replan with
  | none => d
  | some p =>
    let (p, d) :=
      if p.own || chunksOut d c.stack c.entry then (p, d)
      else
        ({ p with own := true }, (peersOf d c).foldl (fun d id => postAgent d c.stack id (.agree c.entry f.count c.rank p.plane))
          (d.setFiring c.stack c.entry { f with replan := some { p with own := true } }))
    if p.own && (List.range c.n).all fun r => r == c.rank || p.answered.contains r then
      let d := d.setFiring c.stack c.entry { d.firing c.stack c.entry with replan := none, avoid := some p.plane }
      pumpAll c.stack c.entry (report d { cls := 0x85, sev := 0, kind := 4, index := c.stack, ctx := some c.ctx, grid := c.grid })
    else d

/-! ## What reaches an agent -/

/-- How far a count lies ahead of an entry's. -/
def aheadOf (f : Firing) (count : Nat) : Nat := (count + 65536 - f.count % 65536) % 65536

/-- A firing message (R471): judged now, or held for a later firing. -/
def takeFire (stack : Nat) (m : FireMsg) (d : Dev) : Dev :=
  let f := d.firing stack m.entry
  if entryRunning (entryWord d stack m.entry 0) && aheadOf f m.count = 0 then
    pumpAll stack m.entry (judge d (collJob d stack m.entry) m)
  else if aheadOf f m.count < 32768 then d.setFiring stack m.entry { f with early := f.early ++ [m] }
  else d

/-- A chunk of the running firing is kept, and the plan goes on (R336). -/
def takeChunk (stack : Nat) (k : CollChunk) (d : Dev) : Dev :=
  let f := d.firing stack k.entry
  let c := collJob d stack k.entry
  let fits := ((List.range c.n).flatMap fun r => piecesOf c f.plan r).contains (k.off, k.bytes.length)
  if entryRunning (entryWord d stack k.entry 0) && k.count = f.count && fits && k.rank != c.rank then
    pumpAll stack k.entry (d.setFiring stack k.entry { f with got := f.got ++ [k] })
  else d

/-- An abort (R470, R471): the running firing fails, or the abort is kept for the firing of its count. -/
def takeAbort (stack entry count : Nat) (d : Dev) : Dev :=
  let f := d.firing stack entry
  if entryRunning (entryWord d stack entry 0) && aheadOf f count = 0 then failFiring d (collJob d stack entry) 5
  else if aheadOf f count < 32768 then d.setFiring stack entry { f with aborts := f.aborts ++ [count] }
  else d

/-- A proposal or an answer of a re-plan (R469), held until the entry fires for its count. A member that has finished that firing has no chunk
of the old plan left, and answers a proposal at once. -/
def takeReplan (stack entry : Nat) (agrees : Bool) (count rank plane : Nat) (d : Dev) : Dev :=
  let f := d.firing stack entry
  let c := collJob d stack entry
  let answer := if agrees then some rank else none
  if entryRunning (entryWord d stack entry 0) && aheadOf f count = 0 then
    if mayReplan c f && rank < c.n && rank != c.rank then goReplan (d.setFiring stack entry (noteReplan d.cycle plane answer f)) c else d
  else if aheadOf f count < 32768 then
    d.setFiring stack entry { f with later := f.later ++ [if agrees then .agree entry count rank plane else .propose entry count rank plane] }
  else if agrees then d
  else (peersOf d c).foldl (fun d id => postAgent d stack id (.agree entry count c.rank plane)) d

/-- A message of another agent taken in. -/
def takeAgent (stack : Nat) (m : AgentMsg) (d : Dev) : Dev :=
  match m with
  | .fire m => takeFire stack m d
  | .chunk k => takeChunk stack k d
  | .abort e n => takeAbort stack e n d
  | .propose e n r p => takeReplan stack e false n r p d
  | .agree e n r p => takeReplan stack e true n r p d

/-- An idle entry fires: its messages go out, what came early is judged, and the plan starts (R277, R338, R470, R471). -/
def startFiring (d : Dev) (stack entry : Nat) (determinism : Bool) (grid : Option Nat) : Dev :=
  let d := setEntryWord d stack entry 0 (putField (entryWord d stack entry 0) 62 61 3)
  let c := { collJob d stack entry with grid := grid }
  let old := d.firing stack entry
  let f : Firing :=
    { Firing.blank with
      count := old.count, plan := planOf c determinism, determinism, rank := c.rank, since := some d.cycle, grid, early := old.early, aborts := old.aborts }
  let d := d.setFiring stack entry f
  let d := (peersOf d c).foldl (fun d p => postAgent d stack p (.fire (fireMsg d c f.count))) d
  if f.aborts.contains f.count then
    failFiring (d.setFiring stack entry { d.firing stack entry with aborts := f.aborts.filter (· != f.count) }) c 5
  else pumpAll stack entry (old.later.foldl (fun d m => takeAgent stack m d) (judgeEarly stack entry f.early d))

/-- Whether a firing has no route left to a peer (R470). -/
def routeGone (d : Dev) (c : CollJob) (f : Firing) : Bool :=
  (peersOf d c).any fun id => (planeOf d (d.out (agentPair c.stack id)) c.stack f.avoid).isNone

/-- What a running firing does with no message of its own: it fails when a request of it was answered unreachable, or in determinism mode
when a route is gone (R470); a re-plan goes on (R469); it ends when its last request is answered (R277). -/
def settleFiring (stack entry : Nat) (d : Dev) : Dev :=
  if !entryRunning (entryWord d stack entry 0) then d
  else
    let f := d.firing stack entry
    let c := collJob d stack entry
    match f.lost with
    | some r => failFiring d c r
    | none =>
      if f.determinism && routeGone d c f then failFiring d c 1
      else if f.replan.isSome then goReplan d c
      else if firingDone c f then pumpAll stack entry d
      else d

/-- A firing whose entry its context's halt has stopped (R470) is over. -/
def settleStopped (d : Dev) : Dev :=
  (d.firings.filter fun f => f.2.since.isSome && !entryRunning (entryWord d (f.1 / 4096) (f.1 % 4096) 0)).foldl (fun d f =>
    dropChunks (d.setFiring (f.1 / 4096) (f.1 % 4096)
      { Firing.blank with count := (f.2.count + 1) % 65536, early := f.2.early, aborts := f.2.aborts, later := f.2.later }) (f.1 / 4096) (f.1 % 4096)) d

/-- Every firing settled. -/
def settleFirings (d : Dev) : Dev :=
  (runningEntries d).foldl (fun d p => settleFiring p.1 p.2 d) (settleStopped d)

/-! ## Events -/

/-- Determinism mode as the requesting thread's launch found it (R215, R322). -/
def collDet (d : Dev) (q : CollReq) : Bool :=
  match d.team? q.who.team with
  | some t => bitOf (ctxAt d t 0).toNat 62
  | none => bitOf (ctxWord d q.ctx 0).toNat 62

/-- Whether the request of a thread must wait for an earlier one of it to the same entry (R277). -/
def collBehind (d : Dev) (q : CollReq) : Bool :=
  d.collReqs.any fun x => sameThread x.who q.who && x.id < q.id && field x.selector 15 0 == field q.selector 15 0

/-- A request performed at its agent. -/
def performColl (d : Dev) (q : CollReq) : Dev :=
  let d := { d with collReqs := d.collReqs.filter fun x => x.id != q.id }
  let stack := field q.selector 15 12
  let entry := field q.selector 11 0
  match q.image with
  | some l =>
    let r := armEntry d q.ctx q.selector l
    match q.result with | some id => setResult r.2 id r.1 | none => r.2
  | none =>
    let w0 := entryWord d stack entry 0
    if entryValid w0 && !entryReady w0 && !entryRunning w0 && entryCtx w0 == q.ctx then
      startFiring d stack entry (collDet d q) ((d.team? q.who.team).map (·.grid))
    else d

/-- COLL_FIRE: the agent acts on the oldest request to the entry that may proceed, a `coll.ready` once its release is done; with
none, a running firing goes on (after a page has been resolved, R421, or a port has come back). -/
def execCollFire (stack entry : Nat) (s : State) : Host.Outcome State Fault Refusal :=
  s.onDev fun d =>
    match d.collReqs.find? fun q => field q.selector 15 0 == stack * 4096 + entry && !collBehind d q with
    | none => pumpAll stack entry d
    | some q =>
      let (ok, d) := if q.image.isSome then (true, d) else tryRelease d q.who q.core 7 q.id
      if ok then performColl d q else d

/-! ## The instructions -/

/-- The image at an address: a team or die address aligned to 64. -/
def imageAt (e : Env) (ea : Nat) : Option Loc :=
  if apertureOf ea == .team || apertureOf ea == .die then localAt e 64 ea false else none

/-- `n` bytes at a location as a thread reads them: its own stores on their way to the same bytes come first (R120). -/
def ownView (d : Dev) (r : TRef) (loc : Loc) (n : Nat) : Nat :=
  let v := loc.read d none 0 n
  let at_ : Option (Nat × Nat) := match loc with | .scr k => some (1, k) | .tmem k => some (2, k) | _ => none
  match at_ with
  | none => v
  | some (space, key) =>
    let l := (List.range n).map fun i =>
      let k := key + i
      let hit := (d.scrWrites.filter fun a => a.who.isThread r && a.space == space && a.key ≤ k && k < a.key + a.kind.bytes).reverse.findSome? fun a =>
        match a.kind with | .store _ w => some (w / 256 ^ (k - a.key) % 256) | _ => none
      hit.getD (v / 256 ^ i % 256)
    packElems 8 l

/-- The result of `coll.arm`, where it has a destination. -/
def armResult (e : Env) (r : TRef) (d : Operand) (k : Nat) (m : Dev) : Option Nat × Dev :=
  match d with
  | .none => (none, m)
  | _ =>
    let (id, m) := newResult m r (destOf e (.optDst false) d) none (2 ^ 32 - 1) k
    (some id, m)

/-- `coll.arm` (R276): the image read; the request performed at once, or behind an earlier one of the thread to the same entry. An image in a
granule that is not the context's is refused as R88 and R426 say, where R409's table has a dash (DEDUCED, log 107). -/
def execCollArm (c : Ctl) (d a b : Operand) (s : State) : Host.Outcome State Fault Refusal :=
  let i : Instr := .collArm c d a b
  let ea (e : Env) : Nat := e.scalar 64 .int a
  s.onDev (longEach i (fun e => if (imageAt e (ea e)).isSome then none else some (apertureTrap e (ea e))) fun k e w m =>
    match w, imageAt e (ea e) with
    | .thr r, some loc =>
      let key := match loc with | .scr k => some k | _ => none
      if key.any fun k => !granuleOk m e.ctx false k then
        let (res, m) := armResult e r d k m
        let (id, m) := m.freshId
        (sendFault m id (.thread r e.core)
          { cause := 0x04, fpc := e.h.pc.toNat, addr := ea e, detail := (ownerEntry m (key.getD 0)).toNat } res false).pass i w
      else if loc.poisoned m none 0 64 then consumePoison e (ea e) m
      else
        let v := ownView m r loc 64
        let (res, m) := armResult e r d k m
        let (id, m) := m.freshId
        let q : CollReq :=
          { id, who := r, core := e.core, ctx := e.ctx, selector := e.scalar 32 .int b
            image := some ((List.range 8).map fun j => BitVec.ofNat 64 (v / 2 ^ (64 * j))), result := res }
        let m := { m with collReqs := m.collReqs ++ [q] }
        (if collBehind m q then m else performColl m q).pass i w
    | _, _ => m)

/-- `coll.ready` (R277): posted; the agent fires when the release is done. -/
def execCollReady (c : Ctl) (d a b : Operand) (s : State) : Host.Outcome State Fault Refusal :=
  let i : Instr := .collReady c d a b
  s.onDev (eachThread i noCheck fun e w m =>
    match w with
    | .thr r =>
      let (id, m) := m.freshId
      let q : CollReq := { id, who := r, core := e.core, ctx := e.ctx, selector := e.scalar 32 .int a, image := none, result := none }
      { m with collReqs := m.collReqs ++ [q] }.pass i w
    | .que _ => m)

end Sys2Proof.Machine
end

