-- ==== Sys2Proof/Machine/ControlCore.lean ====
section
/-! DEFINITION. The control-core instructions (class C, R282 to R284): `launch` with the kernel descriptor's checks (R148 to R152, R449),
queue semaphores, `ttrig`, `intr` and `qnext`. -/

namespace Sys2Proof.Machine

/-! ## Parks -/

/-- A queue thread parks; one asked to stop stops here instead, to retry the instruction when it is enabled again (R310). -/
def Queue.park (v : Queue) (w : QWait) : Queue :=
  if v.stopping then { v with stopping := false, wait := .none } else { v with wait := w }

/-- The key of a die-aperture operand aligned to `n`, or none for the aperture trap. -/
def queueWord (e : Env) (n ea : Nat) : Option Nat :=
  if apertureOf ea == .die then
    match localAt e n ea true with
    | some (.scr k) => some k
    | _ => none
  else none

/-- The checks of an address operand (R284): aperture, then granule. -/
def queueCheck (n : Nat) (ea : Env → Nat) (e : Env) : Option Trap :=
  match queueWord e n (ea e) with
  | none => some (apertureTrap e (ea e))
  | some k =>
    if granuleOk e.d e.ctx true k then none
    else some { cause := 0x04, fpc := e.h.pc.toNat, resume := e.h.pc.toNat, deferred := true, addr := ea e,
                detail := (ownerEntry e.d k).toNat }

/-- A record's fields for a queue thread. -/
def queueRec (e : Env) (q cls sev : Nat) : ErrRec :=
  { cls, sev, kind := 1, index := q / 8192, ctx := some e.ctx, queue := some q, pc := e.h.pc.toNat }

/-! ## Reading the descriptor and the banks -/

/-- `n` words read in order; the first that waits or fails ends the reading. The queue thread waits with one on a page fault (R421). -/
def readWords (ctx : Nat) (r : ErrRec) : Nat → Nat → Dev → Option (List Nat) × Dev
  | _, 0, d => (some [], d)
  | va, n + 1, d =>
    match readOrFault d ctx va 5 r with
    | (none, d) => (none, match r.queue with | some q => d.holdQueue q va | none => d)
    | (some w, d) =>
      match readWords ctx r (va + 8) n d with
      | (none, d) => (none, d)
      | (some l, d) => (some (w :: l), d)

/-- `len` bytes read by aligned 8-byte units, at an address of any alignment: R152 refuses no bank whose address is not a multiple of 256
(R150; DESIGN CHOICE, log 106). -/
def readSpan (ctx : Nat) (r : ErrRec) (va len : Nat) (d : Dev) : Option (List Byte) × Dev :=
  let first := va / 8 * 8
  match readWords ctx r first (ceilDiv (va - first + len) 8) d with
  | (none, d) => (none, d)
  | (some l, d) => (some (((l.flatMap (toBytes 8)).drop (va - first)).take len), d)

/-- The bank copies of a launch (R151), from bank `b` on. -/
def readBanks (ctx : Nat) (r : ErrRec) (ws : List Nat) : Nat → Nat → Memory → Dev → Option Memory × Dev
  | _, 0, m, d => (some m, d)
  | b, n + 1, m, d =>
    let size := field (ws.getD (33 + 2 * b) 0) 16 0
    if size = 0 then readBanks ctx r ws (b + 1) n m d
    else
      match readSpan ctx r (ws.getD (32 + 2 * b) 0) size d with
      | (none, d) => (none, d)
      | (some l, d) => readBanks ctx r ws (b + 1) n (Memory.writeBytes m (65536 * b) l) d

/-! ## The kernel descriptor (R148 to R152) -/

/-- A value as `sr.lambda` stores it at launch (R49). -/
def lambdaLaunch (v : Nat) : DWord := BitVec.ofNat 64 (putField (v % 2 ^ 44) 43 40 (min 8 (field v 43 40)))

/-- A region entry (R90). -/
def regionOf (w0 w1 w2 w3 : Nat) : Region :=
  { src := w0, rowBytes := field w1 31 0, stride := field w1 63 32, rows := field w2 15 0 + 1, dst := field w2 35 16
    zeroFill := bitOf w2 48, perTeam := bitOf w2 49, advX := field w3 20 0, advY := field w3 41 21, advZ := field w3 62 42 }

/-- Word i of region r. -/
def regionWord (ws : List Nat) (r i : Nat) : Nat := ws.getD (64 + 4 * r + i) 0

/-- The valid regions, by entry number. -/
def regionsOf (ws : List Nat) : List (Nat × Region) :=
  (List.range 16).filterMap fun r =>
    if bitOf (regionWord ws r 2) 51 then
      some (r, regionOf (regionWord ws r 0) (regionWord ws r 1) (regionWord ws r 2) (regionWord ws r 3))
    else none

/-- The kernel of a descriptor's words, without its bank copies. -/
def kernelOf (ws : List Nat) : Kernel :=
  let w (i : Nat) : Nat := ws.getD i 0
  { codeBase := w 0, codeSlots := field (w 1) 31 0, isaLevel := field (w 1) 47 40, entryPc := field (w 2) 31 0
    width := 16 * 2 ^ field (w 3) 1 0, pair := bitOf (w 3) 5, groups := field (w 3) 13 6 + 1, base := 8 * field (w 3) 19 14
    tiles := field (w 3) 23 20, tmem := 1024 * field (w 3) 33 24, stackS := 256 * field (w 3) 42 34, stackT := 256 * field (w 3) 51 43
    curve := field (w 3) 53 52, affinity := if bitOf (w 3) 57 then some (field (w 3) 56 54) else none, energy := field (w 3) 61 58
    compat := bitOf (w 3) 62, swizzle := w 4, lambda := lambdaLaunch (w 5), seed := BitVec.ofNat 64 (w 6)
    bankSize := (List.range 15).foldl (fun m b => AMap.set 0 m b (field (w (33 + 2 * b)) 16 0)) []
    bankData := [], regions := (regionsOf ws).map (·.2) }

/-- Groups of a team on its core, and on the second core of a pair (R19). -/
def groupsOn (k : Kernel) (second : Bool) : Nat :=
  if !k.pair then (if second then 0 else k.groups) else if second then k.groups / 2 else ceilDiv k.groups 2

/-- Team memory that a team takes on a core: its share of D and its stack blocks (R18, R84). -/
def tmemOn (k : Kernel) (second : Bool) : Nat :=
  (if k.pair then pairSplit k else if second then 0 else k.tmem) + k.stackT * k.width * groupsOn k second

/-- The reserved words and fields of a descriptor: the first that is not zero (R152). Those of a valid region entry are among the
requirements of R91, with a reason of their own (R449). -/
def reservedWord (ws : List Nat) : Option Nat :=
  let w (i : Nat) : Nat := ws.getD i 0
  (List.range 128).find? fun i =>
    if 64 ≤ i then
      !bitOf (w (i / 4 * 4 + 2)) 51 && match i % 4 with
        | 2 => field (w i) 63 52 != 0 || bitOf (w i) 50 || field (w i) 47 36 != 0
        | 3 => bitOf (w i) 63
        | _ => false
    else if i = 1 then field (w 1) 63 48 != 0 || field (w 1) 39 32 != 0
    else if i = 2 then field (w 2) 63 32 != 0
    else if i = 3 then bitOf (w 3) 63 || field (w 3) 4 2 != 0
    else if i = 7 || (8 ≤ i && i < 32) || 62 ≤ i then w i != 0
    else if 32 < i && i % 2 == 1 then field (w i) 63 17 != 0
    else false

/-- The word of the first check of R152 that fails, regions and swizzle excepted. -/
def descriptorBad (ws : List Nat) : Option Nat :=
  let k := kernelOf ws
  match reservedWord ws with
  | some i => some i
  | none =>
    if field (ws.getD 3 0) 1 0 = 3 || (if k.pair then 128 else 64) < k.groups || k.base < 16 || 256 < k.base || 8 < k.tiles
        || (if k.pair then 768 else 384) * 1024 < k.tmem || Config.teamBytes < tmemOn k false || Config.teamBytes < tmemOn k true
        || 65536 < k.stackS || k.stackS < k.stackT then some 3
    else if k.isaLevel = 0 || Config.isaLevel < k.isaLevel then some 1
    else if k.codeSlots ≤ k.entryPc then some 2
    else ((List.range 15).find? fun b => 65536 < field (ws.getD (33 + 2 * b) 0) 16 0).map fun b => 33 + 2 * b

/-- Whether a swizzle table is a permutation (R22). -/
def swizzleOk (v : Nat) : Bool := (List.range 16).all fun e => (List.range 16).any fun i => field v (4 * i + 3) (4 * i) == e

/-- The word of a valid region entry that breaks R90. -/
def regionBad (ws : List Nat) (r tmem : Nat) : Option Nat :=
  let w (i : Nat) : Nat := regionWord ws r i
  let x := regionOf (w 0) (w 1) (w 2) (w 3)
  if bitOf (w 3) 63 then some 3
  else if field (w 2) 63 52 ≠ 0 || bitOf (w 2) 50 || field (w 2) 47 36 ≠ 0 || x.dst % 32 ≠ 0 then some 2
  else if x.rowBytes % 32 ≠ 0 || x.stride % 32 ≠ 0 || x.rowBytes < 32 || 786432 < x.rowBytes then some 1
  else if x.src % 32 ≠ 0 || (x.zeroFill && x.src ≠ 0) then some 0
  else if x.zeroFill && x.stride ≠ 0 then some 1
  else if (x.zeroFill && x.perTeam) || tmem < x.dst + x.rows * x.rowBytes then some 2
  else none

/-- The first valid region entry that is refused, with its offending value (R91, R449). -/
def regionsBad (ws : List Nat) (tmem : Nat) : Option (Nat × Nat) :=
  let l := regionsOf ws
  match l.findSome? fun p => (regionBad ws p.1 tmem).map fun i => (p.1, regionWord ws p.1 i) with
  | some x => some x
  | none =>
    (l.find? fun p => l.any fun q => p.1 < q.1 && p.2.dst < q.2.dst + q.2.rows * q.2.rowBytes && q.2.dst < p.2.dst + p.2.rows * p.2.rowBytes).map
      fun p => (p.1, regionWord ws p.1 2)

/-- The largest save of a team of a kernel (R321, R322). -/
def largestSave (k : Kernel) : Nat :=
  k.groups * (4 * k.width * (32 * ceilDiv k.base 32 + 256) + 256) + k.tmem + k.stackT * k.width * k.groups + 8 * 65536

/-! ## `launch` (R283, R284, R449) -/

/-- The word of the launch record that breaks R283; `sem` says whether an end semaphore's granule is the queue's context's. -/
def recordBad (l : List Nat) (sem : Nat → Bool) : Option Nat :=
  let w (i : Nat) : Nat := l.getD i 0
  if field (w 2) 63 32 ≠ 0 then some 2
  else if field (w 3) 62 30 ≠ 0 then some 3
  else if w 5 ≠ 0 then some 5
  else if w 6 ≠ 0 then some 6
  else if w 7 ≠ 0 then some 7
  else if field (w 1) 31 0 = 0 || field (w 1) 63 32 = 0 then some 1
  else if field (w 2) 31 0 = 0 then some 2
  else if 2 ^ 32 < field (w 1) 31 0 * field (w 1) 63 32 * field (w 2) 31 0 then some 1
  else if w 0 % 1024 ≠ 0 || apertureOf (w 0) ≠ .glob then some 0
  else if bitOf (w 3) 63 && (field (w 3) 29 0 % 8 ≠ 0 || !sem (field (w 3) 29 0)) then some 3
  else none

/-- A refused launch (R449): its record, and the queue disabled with its PC at the `launch`. -/
def refuseLaunch (d : Dev) (e : Env) (q ea reason index value : Nat) : Dev :=
  let v := d.queue q
  let d := d.setQueue q { v with w0 := BitVec.ofNat 64 (putField v.w0.toNat 63 63 0), wait := .none, stopping := false }
  report { d with serving := AMap.set 0 d.serving (q / 8192) 0 }
    { queueRec e q 0x60 1 with addr := ea, d0 := index * 256 + reason, d1 := value }

/-- A launch whose checks have passed and whose copies are made: the grid, and the queue thread parked until it ends. -/
def makeGrid (d : Dev) (q : Nat) (l : List Nat) (k : Kernel) : Dev :=
  let v := d.queue q
  let (id, d) := d.freshId
  let ctx := v.ctx
  let w (i : Nat) : Nat := l.getD i 0
  let sem : Option (Nat × DWord) :=
    if bitOf (w 3) 63 then
      (dieOffset v.ringDie (field (w 3) 29 0)).map fun p => (scrKey p.1 p.2, BitVec.ofNat 64 (w 4))
    else none
  let energy := if k.energy = 0 then field v.w0.toNat 55 52 else k.energy
  let g : Grid :=
    { id, ctx, queue := q, seq := v.launches, kernel := k, gx := field (w 1) 31 0, gy := field (w 1) 63 32, gz := field (w 2) 31 0
      next := 0, placed := 0, ended := 0, prio := v.prio, energy, deadline := v.deadlineOf, endSem := sem
      ringDie := v.ringDie, cluster := none, passes := 0, out := false, entry := (List.range 8).map (ctxWord d ctx) }
  { d with grids := d.grids ++ [g] }.setQueue q ({ v with launches := v.launches + 1 }.park (.grid id))

/-- `launch` on a record's words: the checks in the order of R449, then the copies; a read that waits leaves the thread at the
`launch`. -/
def launchRecord (d : Dev) (e : Env) (q ea : Nat) (l : List Nat) (stopped : Bool) : Dev :=
  let ctx := e.ctx
  let sem (off : Nat) : Bool := match dieOffset e.die off with | some p => granuleOk d ctx true (scrKey p.1 p.2) | none => false
  let refuse (d : Dev) (reason index value : Nat) : Dev := refuseLaunch d e q ea reason index value
  match recordBad l sem with
  | some i => refuse d 1 i (l.getD i 0)
  | none =>
    let c0 := (ctxWord d ctx 0).toNat
    if !bitOf c0 63 then refuse d 2 0 c0
    else
      let r := queueRec e q 0 2
      match readWords ctx r (l.getD 0 0) 128 d with
      | (none, d) => d
      | (some ws, d) =>
        let k := kernelOf ws
        let c6 := (ctxWord d ctx 6).toNat
        if field c6 63 32 < largestSave k then refuse d 2 0 c6
        else
          match descriptorBad ws with
          | some i => refuse d 3 i (ws.getD i 0)
          | none =>
            if k.curve = 3 && !swizzleOk k.swizzle then refuse d 4 4 k.swizzle
            else
              match regionsBad ws k.tmem with
              | some (i, v) => refuse d 5 i v
              | none =>
                if k.affinity.isSome && stopped then refuse d 6 3 (ws.getD 3 0)
                else
                  match readBanks ctx r ws 0 15 [] d with
                  | (none, d) => d
                  | (some m, d) => makeGrid d q l { k with bankData := m }

/-- `launch` (R284): a thread whose grid has ended passes at GRID_END, so an issue always launches. -/
def execLaunch (c : Ctl) (d a b : Operand) (s : State) : Host.Outcome State Fault Refusal :=
  let i : Instr := .launch c d a b
  let ea (e : Env) : Nat := e.scalar 64 .int a
  s.onDev (eachThread i (queueCheck 64 ea) fun e w m =>
    match w, queueWord e 64 (ea e) with
    | .que q, some k =>
      if poisoned m 1 k 64 then contextError m { queueRec e q 0x44 2 with addr := ea e }
      else
        launchRecord m e q (ea e) ((List.range 8).map fun j => Memory.readN m.scr (k + 8 * j) 8) (s.mgmt.power == .stopped)
    | _, _ => m)

/-! ## Semaphores (R284, R430) -/

/-- A poisoned semaphore disables the queue with cause 0x06 (R430). -/
def poisonTrap (e : Env) (ea : Nat) : Trap := { cause := 0x06, fpc := e.h.pc.toNat, resume := e.h.pc.toNat, addr := ea }

/-- `sem.wait.ge` (R284): the word tested at the die's port; the thread parks while it is below b. -/
def execSemWaitGe (c : Ctl) (d a b : Operand) (s : State) : Host.Outcome State Fault Refusal :=
  let i : Instr := .semWaitGe c d a b
  let ea (e : Env) : Nat := e.scalar 64 .int a
  s.onDev (eachThread i (queueCheck 8 ea) fun e w m =>
    match w, queueWord e 8 (ea e) with
    | .que q, some k =>
      if poisoned m 1 k 8 then m.trap w (poisonTrap e (ea e))
      else if e.scalar 64 .int b ≤ Memory.readN m.scr k 8 then m.pass i w
      else
        let m := m.setQueue q ((m.queue q).park (.word (ea e)))
        if (m.queue q).wait == .none then m
        else { m with watch := m.watch ++ [⟨k, .queue q, 2, e.scalar 64 .int b, watchRoom m k⟩] }
    | _, _ => m)

/-- `sem.sig.add` and `sem.sig.set` (R284): performed at the die's port; whoever waits on the word is tested (R93). -/
def execSemSig (c : Ctl) (set_ : Bool) (d a b : Operand) (s : State) : Host.Outcome State Fault Refusal :=
  let i : Instr := .semSig c set_ d a b
  let ea (e : Env) : Nat := e.scalar 64 .int a
  s.onDev (eachThread i (queueCheck 8 ea) fun e w m =>
    match w, queueWord e 8 (ea e) with
    | .que _, some k =>
      if poisoned m 1 k 8 then m.trap w (poisonTrap e (ea e))
      else
        let v := e.scalar 64 .int b
        let n := if set_ then v else (Memory.readN m.scr k 8 + v) % 2 ^ 64
        (wakeWords (Loc.write m none 0 8 n (.scr k)) k 8).pass i w
    | _, _ => m)

/-! ## Time, interrupts, the ring -/

/-- Whether device time has reached an instant (R284). -/
def timeReached (d : Dev) (a : Nat) : Bool := ((dtime64 d).toNat + 2 ^ 64 - a % 2 ^ 64) % 2 ^ 64 < 2 ^ 63

/-- `ttrig` (R284). -/
def execTtrig (c : Ctl) (d a b : Operand) (s : State) : Host.Outcome State Fault Refusal :=
  let i : Instr := .ttrig c d a b
  s.onDev (eachThread i noCheck fun e w m =>
    let t := e.scalar 64 .int a
    match w with
    | .que q => if timeReached m t then m.pass i w else m.setQueue q ((m.queue q).park (.time (BitVec.ofNat 64 t)))
    | .thr _ => m)

/-- `intr` (R284): a queue thread's writes are performed as they issue, so the message goes at once; not to a lost port (R453). -/
def execIntr (c : Ctl) (d a b : Operand) (s : State) : Host.Outcome State Fault Refusal :=
  let i : Instr := .intr c d a b
  s.onDev (eachThread i noCheck fun e w m =>
    match w with
    | .que q =>
      let own := queueOwner m q Queue.blank
      (m.notify (.msi own.1 own.2 (e.scalar 32 .int a % 2048))).pass i w
    | .thr _ => m)

/-- Head, tail and size of a queue's host ring (R310, R311). -/
def Queue.head (v : Queue) : Nat := field v.w3.toNat 63 32
def Queue.tail (v : Queue) : Nat := field v.w3.toNat 31 0
def Queue.ringSize (v : Queue) : Nat := 2 ^ field v.w1.toNat 31 28

/-- The key of a ring entry (R311). -/
def ringKey (v : Queue) (n : Nat) : Nat := scrKey v.ringDie ((field v.w0.toNat 25 0 + 8 * (n % v.ringSize)) % 2 ^ 26)

/-- `qnext` (R284, R311). -/
def execQnext (c : Ctl) (d a b : Operand) (s : State) : Host.Outcome State Fault Refusal :=
  let i : Instr := .qnext c d a b
  s.onDev (eachThread i noCheck fun e w m =>
    match w with
    | .que q =>
      let v := m.queue q
      if v.head = v.tail then m.setQueue q (v.park .ring)
      else
        let k := ringKey v v.head
        let ea := apertureBase .die + k
        if !granuleOk m e.ctx true k then
          m.trap w { cause := 0x04, fpc := e.h.pc.toNat, resume := e.h.pc.toNat, deferred := true, addr := ea, detail := (ownerEntry m k).toNat }
        else if poisoned m 1 k 8 then contextError m { queueRec e q 0x44 2 with addr := ea }
        else
          let m := m.setQueue q { v with w3 := BitVec.ofNat 64 (putField v.w3.toNat 63 32 ((v.head + 1) % 2 ^ 32)) }
          writeOut i { val := Memory.readN m.scr k 8, mask := 2 ^ 64 - 1 } e w m
    | .thr _ => m)

end Sys2Proof.Machine
end

