-- ==== Sys2Proof/Machine/Convert.lean ====
section
/-! DEFINITION. Class 4 (R190 to R193): special functions, block quantisers and conversions. -/

namespace Sys2Proof.Machine

/-- One element of a special function: the input read in its own format, the value rounded once (R190). -/
def sfuElem (e : Env) (f : SfuFn) (fmt : Fmt) (m : FpMod) (v i : Nat) : Nat :=
  fpResult fmt m (e.word m i) (sfuValue e.compat f (readFp fmt m.ftzi v))

/-- `sfu.FN.V` (R190). -/
def sfuOut (e : Env) (f : SfuFn) (v : SfuShape) (m : FpMod) (a : Operand) : Out :=
  let pk (fmt : Fmt) (t : Roles.ImmTy) : Out :=
    let x := e.packet fmt.bits t a
    let n := 256 / fmt.bits
    packetOut fmt.bits (List.range n) (n * draws m) fun k i => sfuElem e f fmt m (elem fmt.bits x k) i
  match v with
  | .f32 => { intOut 32 (sfuElem e f .f32 m (e.scalar 32 .f32 a) 0) with draws := draws m }
  | .f32x8 => pk .f32 .f32
  | .f16x16 => pk .f16 .f16
  | .bf16x16 => pk .bf16 .bf16

/-- `mxq.F` (R191): the block's elements from bit `lo` of D on, and its scale for B. -/
def mxqOut (e : Env) (f : MxFmt) (m : FpMod) (a : Operand) (lo : Nat) : Out :=
  let v := e.packets 4 a
  let xs := (List.range 32).map fun k => readFp .f32 m.ftzi (elem 32 v k)
  let q := mxQuantise f m ((List.range 32).map fun k => e.word m k) xs
  let w := f.bits
  { val := packElems w q.2 * 2 ^ lo, mask := (2 ^ (32 * w) - 1) * 2 ^ lo, scale := some q.1, draws := 32 * draws m }

/-- The format of a scalar conversion type; none for integers (R159). -/
def cvtFmt : CType → Option Fmt
  | .f32 => some .f32 | .f64 => some .f64 | .f16 => some .f16 | .bf16 => some .bf16
  | .i32 | .n32 | .i64 | .n64 => none

/-- Bits of a conversion type. -/
def cvtBits : CType → Nat
  | .f32 | .i32 | .n32 => 32
  | .f64 | .i64 | .n64 => 64
  | .f16 | .bf16 => 16

def cvtSigned : CType → Bool
  | .i32 | .i64 => true
  | _ => false

/-- One conversion (R192): the source as an exact value, rounded into a format, or into an integer of n bits and clamped (R63). -/
def convert (dst : Option Fmt) (n : Nat) (signed : Bool) (m : FpMod) (w : Word) (x : Val) : Nat :=
  match dst with
  | some f => fpResult f m w x
  | none =>
    let lo : Int := if signed then -(2 ^ (n - 1) : Nat) else 0
    let hi : Int := if signed then (2 ^ (n - 1) : Nat) - 1 else (2 ^ n : Nat) - 1
    wrapInt (toInt m.rnd lo hi w x) n

/-- A source element as an exact value. -/
def cvtRead (f : Option Fmt) (n : Nat) (signed ftzi : Bool) (v : Nat) : Val :=
  match f with
  | some g => readFp g ftzi v
  | none => .ofInt (if signed then sext v n else (v : Int))

/-- `sfu.rcp` (R77, R78, R190). -/
def execSfuRcp (c : Ctl) (v : SfuShape) (m : FpMod) (d a b : Operand) (s : State) :
    Host.Outcome State Fault Refusal :=
  s.onDev (aluRun (.sfuRcp c v m d a b) fun e =>
    sfuOut e .rcp v m a)

/-- `sfu.rsqrt` (R77, R78, R190). -/
def execSfuRsqrt (c : Ctl) (v : SfuShape) (m : FpMod) (d a b : Operand) (s : State) :
    Host.Outcome State Fault Refusal :=
  s.onDev (aluRun (.sfuRsqrt c v m d a b) fun e =>
    sfuOut e .rsqrt v m a)

/-- `sfu.sqrt` (R77, R78, R190). -/
def execSfuSqrt (c : Ctl) (v : SfuShape) (m : FpMod) (d a b : Operand) (s : State) :
    Host.Outcome State Fault Refusal :=
  s.onDev (aluRun (.sfuSqrt c v m d a b) fun e =>
    sfuOut e .sqrt v m a)

/-- `sfu.exp2` (R77, R78, R190). -/
def execSfuExp2 (c : Ctl) (v : SfuShape) (m : FpMod) (d a b : Operand) (s : State) :
    Host.Outcome State Fault Refusal :=
  s.onDev (aluRun (.sfuExp2 c v m d a b) fun e =>
    sfuOut e .exp2 v m a)

/-- `sfu.log2` (R77, R78, R190). -/
def execSfuLog2 (c : Ctl) (v : SfuShape) (m : FpMod) (d a b : Operand) (s : State) :
    Host.Outcome State Fault Refusal :=
  s.onDev (aluRun (.sfuLog2 c v m d a b) fun e =>
    sfuOut e .log2 v m a)

/-- `sfu.sin` (R77, R78, R190). -/
def execSfuSin (c : Ctl) (v : SfuShape) (m : FpMod) (d a b : Operand) (s : State) :
    Host.Outcome State Fault Refusal :=
  s.onDev (aluRun (.sfuSin c v m d a b) fun e =>
    sfuOut e .sin v m a)

/-- `sfu.cos` (R77, R78, R190). -/
def execSfuCos (c : Ctl) (v : SfuShape) (m : FpMod) (d a b : Operand) (s : State) :
    Host.Outcome State Fault Refusal :=
  s.onDev (aluRun (.sfuCos c v m d a b) fun e =>
    sfuOut e .cos v m a)

/-- `sfu.tanh` (R77, R78, R190). -/
def execSfuTanh (c : Ctl) (v : SfuShape) (m : FpMod) (d a b : Operand) (s : State) :
    Host.Outcome State Fault Refusal :=
  s.onDev (aluRun (.sfuTanh c v m d a b) fun e =>
    sfuOut e .tanh v m a)

/-- `sfu.sigm` (R77, R78, R190). -/
def execSfuSigm (c : Ctl) (v : SfuShape) (m : FpMod) (d a b : Operand) (s : State) :
    Host.Outcome State Fault Refusal :=
  s.onDev (aluRun (.sfuSigm c v m d a b) fun e =>
    sfuOut e .sigm v m a)

/-- `sfu.erf` (R77, R78, R190). -/
def execSfuErf (c : Ctl) (v : SfuShape) (m : FpMod) (d a b : Operand) (s : State) :
    Host.Outcome State Fault Refusal :=
  s.onDev (aluRun (.sfuErf c v m d a b) fun e =>
    sfuOut e .erf v m a)

/-- `sfu.gelu` (R77, R78, R190). -/
def execSfuGelu (c : Ctl) (v : SfuShape) (m : FpMod) (d a b : Operand) (s : State) :
    Host.Outcome State Fault Refusal :=
  s.onDev (aluRun (.sfuGelu c v m d a b) fun e =>
    sfuOut e .gelu v m a)

/-- `sfu.silu` (R77, R78, R190). -/
def execSfuSilu (c : Ctl) (v : SfuShape) (m : FpMod) (d a b : Operand) (s : State) :
    Host.Outcome State Fault Refusal :=
  s.onDev (aluRun (.sfuSilu c v m d a b) fun e =>
    sfuOut e .silu v m a)

/-- `mxq.e4m3` (R65, R191). -/
def execMxqE4M3 (c : Ctl) (m : FpMod) (d a b : Operand) (s : State) :
    Host.Outcome State Fault Refusal :=
  s.onDev (aluRun (.mxqE4M3 c m d a b) fun e =>
    mxqOut e (.fp .e4m3) m a 0)

/-- `mxq.e5m2` (R65, R191). -/
def execMxqE5M2 (c : Ctl) (m : FpMod) (d a b : Operand) (s : State) :
    Host.Outcome State Fault Refusal :=
  s.onDev (aluRun (.mxqE5M2 c m d a b) fun e =>
    mxqOut e (.fp .e5m2) m a 0)

/-- `mxq.e3m2` (R65, R191). -/
def execMxqE3M2 (c : Ctl) (m : FpMod) (d a b : Operand) (s : State) :
    Host.Outcome State Fault Refusal :=
  s.onDev (aluRun (.mxqE3M2 c m d a b) fun e =>
    mxqOut e (.fp .e3m2) m a 0)

/-- `mxq.e2m3` (R65, R191). -/
def execMxqE2M3 (c : Ctl) (m : FpMod) (d a b : Operand) (s : State) :
    Host.Outcome State Fault Refusal :=
  s.onDev (aluRun (.mxqE2M3 c m d a b) fun e =>
    mxqOut e (.fp .e2m3) m a 0)

/-- `mxq.e2m1` (R65, R191): the half of D that [22] selects. -/
def execMxqE2M1 (c : Ctl) (half : Bool) (m : FpMod) (d a b : Operand) (s : State) :
    Host.Outcome State Fault Refusal :=
  s.onDev (aluRun (.mxqE2M1 c half m d a b) fun e =>
    mxqOut e (.fp .e2m1) m a (if half then 128 else 0))

/-- `mxq.i8` (R65, R191): MXINT8. -/
def execMxqI8 (c : Ctl) (m : FpMod) (d a b : Operand) (s : State) :
    Host.Outcome State Fault Refusal :=
  s.onDev (aluRun (.mxqI8 c m d a b) fun e =>
    mxqOut e .int8 m a 0)

/-- `cvt.DT.ST` on scalars (R192). -/
def execCvtScalar (c : Ctl) (dst : CType) (src : CType) (m : FpMod) (d a b : Operand) (s : State) :
    Host.Outcome State Fault Refusal :=
  s.onDev (aluRun (.cvtScalar c dst src m d a b) fun e =>
    let x := cvtRead (cvtFmt src) (cvtBits src) (cvtSigned src) m.ftzi (e.scalar (cvtBits src) (Roles.cImm src) a)
    { intOut (cvtBits dst) (convert (cvtFmt dst) (cvtBits dst) (cvtSigned dst) m (e.word m 0) x) with draws := draws m })

/-- `cvt.DS.SS.partP` on packets (R193). -/
def execCvtPacket (c : Ctl) (dst : Shape) (src : PktSrc) (part : BitVec 2) (m : FpMod) (d a b : Operand) (s : State) :
    Host.Outcome State Fault Refusal :=
  s.onDev (aluRun (.cvtPacket c dst src part m d a b) fun e =>
    let ss := Roles.pktSrcShape src
    let v := srcP e ss a
    let nd := Roles.shapeCount dst
    let ns := Roles.shapeCount ss
    let p := part.toNat
    let get (k : Nat) : Val := cvtRead (shapeFmt ss) (shapeBits ss) (shapeSigned ss) m.ftzi (elem (shapeBits ss) v k)
    let put (x : Val) (i : Nat) : Nat := convert (shapeFmt dst) (shapeBits dst) (shapeSigned dst) m (e.word m i) x
    if ns < nd then
      packetOut (shapeBits dst) ((List.range ns).map fun k => p * ns + k) (ns * draws m) fun k i => put (get (k - p * ns)) i
    else packetOut (shapeBits dst) (List.range nd) (nd * draws m) fun k i => put (get (p * nd + k)) i)

end Sys2Proof.Machine
end

