-- ==== Sys2Proof/Machine/Cross.lean ====
section
/-! DEFINITION. The run-collective instructions of class 5 (R196 to R200). -/

namespace Sys2Proof.Machine

/-- The participants' places: position of a lane in the list, if it is there. -/
def posOf (lane : Nat) : List Env → Nat → Option Nat
  | [], _ => none
  | p :: r, k => if p.h.lane = lane then some k else posOf lane r (k + 1)

/-- Element k of a list of values, or a default. -/
def nth (d : Nat) (l : List Nat) (k : Nat) : Nat := l.getD k d

/-- `shfl` (R197): the value thread `e` receives, from the participants `ps` with their values `v`. -/
def shflValue (mode : ShflMode) (width : Nat) (ps : List Env) (v : List Nat) (e : Env) (own i : Nat) : Nat :=
  let n := ps.length
  let from_ (l : Int) : Nat :=
    if 0 ≤ l ∧ l < width then
      match posOf l.toNat ps 0 with
      | some k => nth own v k
      | none => own
    else own
  match mode with
  | .rot => match posOf e.h.lane ps 0 with
    | some k => nth own v ((k + i % n) % n)
    | none => own
  | .atLane => from_ i
  | .byOffset => from_ ((e.h.lane : Int) + sext i 32)
  | .flip => from_ (Nat.xor e.h.lane i : Nat)

/-- The identity of a scan (R200). -/
def scanIdentity : ScanOp → Nat
  | .addI32 | .addF32 | .maxN32 | .orB32 | .xorB32 => 0
  | .minI32 => 0x7FFFFFFF
  | .maxI32 => 0x80000000
  | .minN32 => 0xFFFFFFFF

/-- combine of a scan (R200). -/
def scanCombine (op : ScanOp) (x y : Nat) : Nat :=
  match op with
  | .addI32 => (x + y) % 2 ^ 32
  | .addF32 => rne32 ((val32 x).add false (val32 y))
  | .minI32 => if intLt true 32 y x then y else x
  | .maxI32 => if intLt true 32 x y then y else x
  | .minN32 => min x y
  | .maxN32 => max x y
  | .orB32 => Nat.lor x y
  | .xorB32 => Nat.xor x y

/-- The scan over the participants up to the thread at `lane`: inclusive or exclusive (R200). -/
def scanTo (op : ScanOp) (excl : Bool) (val : Env → Nat) (lane : Nat) : List Env → Nat → Nat
  | [], acc => acc
  | p :: r, acc =>
    let next := scanCombine op acc (val p)
    if p.h.lane = lane then (if excl then acc else next) else scanTo op excl val lane r next

/-- The bit mask of the lanes of some participants. -/
def laneMask (l : List Env) : Nat := l.foldl (fun m p => m + 2 ^ p.h.lane) 0

/-- Width of the group of an issuing thread. -/
def groupWidth (e : Env) : Nat := match e.own with | some (t, _) => t.kernel.width | none => 1

/-- `shfl.M.S` (R197). -/
def execShfl (c : Ctl) (size : ShflSize) (mode : ShflMode) (d a b : Operand) (s : State) :
    Host.Outcome State Fault Refusal :=
  s.onDev (collectiveRun (.shfl c size mode d a b) fun ps e =>
    let val (p : Env) : Nat := match size with
      | .b32 => p.scalar 32 .int a
      | .b64 => p.scalar 64 .int a
      | .b256 => srcP32 p a
    let r := shflValue mode (groupWidth e) ps (ps.map val) e (val e) (srcC e b)
    match size with
    | .b32 => intOut 32 r
    | .b64 => intOut 64 r
    | .b256 => wholePacket r)

/-- `vote.M` (R198). -/
def execVote (c : Ctl) (mode : VoteMode) (d a b : Operand) (s : State) :
    Host.Outcome State Fault Refusal :=
  s.onDev (collectiveRun (.vote c mode d a b) fun ps e =>
    let yes := ps.filter fun p => p.pred a
    match mode with
    | .someOf => predOut !yes.isEmpty
    | .everyOf => predOut (yes.length == ps.length)
    | .mask => intOut 64 (laneMask yes)
    | .cnt => intOut 32 yes.length
    | .pre => intOut 32 (yes.filter fun p => p.h.lane < e.h.lane).length
    | .same => predOut (yes.isEmpty || yes.length == ps.length))

/-- `match.F.S` (R199). -/
def execMatchV (c : Ctl) (b64 : Bool) (mode : MatchMode) (d a b : Operand) (s : State) :
    Host.Outcome State Fault Refusal :=
  s.onDev (collectiveRun (.matchV c b64 mode d a b) fun ps e =>
    let n := if b64 then 64 else 32
    let q := ps.filter fun p => p.scalar n .int a == e.scalar n .int a
    match mode with
    | .mask => intOut 64 (laneMask q)
    | .lead => intOut 32 ((q.map (·.h.lane)).foldl min e.h.lane)
    | .cnt => intOut 32 q.length)

/-- `scan.OP.X` (R200). -/
def execScan (c : Ctl) (excl : Bool) (op : ScanOp) (d a b : Operand) (s : State) :
    Host.Outcome State Fault Refusal :=
  s.onDev (collectiveRun (.scan c excl op d a b) fun ps e =>
    intOut 32 (scanTo op excl (fun p => p.scalar 32 (if op = .addF32 then .f32 else .int) a) e.h.lane ps (scanIdentity op)))

end Sys2Proof.Machine
end

