-- ==== Sys2Proof/Machine/Load.lean ====
section
/-! DEFINITION. The moves (DESIGN CHOICE, log 1), and a machine made ready to fetch one given instruction next. -/

namespace Sys2Proof.Machine

/-- A kernel of one group of 16 threads whose code lies at a glob address: 64 base slots, 1 KiB of team memory, 256 stack bytes. -/
def Kernel.plain (code slots : Nat) : Kernel :=
  { codeBase := code, codeSlots := slots, isaLevel := 2, entryPc := 0, width := 16, pair := false, groups := 1, base := 64,
    tiles := 0, tmem := 1024, stackS := 256, stackT := 256, curve := 0, affinity := none, energy := 0, compat := false,
    swizzle := 0, lambda := 0, seed := 0, bankSize := [], bankData := [], regions := [] }

/-- A thread at launch (R44): PC at an image's slot, stack empty. -/
def Thread.launch (k : Kernel) (pc tid lane : Nat) : Thread :=
  { Thread.blank with
    tid, lane, pc := BitVec.ofNat 32 pc, imgBase := k.codeBase, imgSlots := k.codeSlots, trap := BitVec.ofNat 64 k.stackS }

/-- A group at launch. -/
def Group.launch (k : Kernel) (gid core gslot : Nat) : Group :=
  { gid, core, gslot, units := 0, y := [], h := [], hfin := [], lambda := k.lambda, seq := 0, active := none, laneNo := none,
    runs := 0, since := none, relief := 0, reliefPc := 0, cut := none, block := none, fetchWait := [], pendInd := [],
    lastPost := none, ended := false,
    threads := (List.range k.width).map fun l => Thread.launch k k.entryPc (gid * k.width + l) l }

/-- One team of one group, resident on core 0 and running. -/
def Team.plain (k : Kernel) : Team :=
  { id := 0, ctx := 0, grid := 0, tx := 0, ty := 0, tz := 0, core := 0, kernel := k, stat := .running, order := 0, tmBase := 0,
    tmBase2 := 0, stkBase := AMap.set 0 [] 0 1024, ovfBase := [], tiles := [], bars := [], gather := none, waits := [], savedAt := 0, save := none,
    staged := true, held := false, kept := [], keptStat := [], groups := [Group.launch k 0 0 0] }

/-- Its grid, of one team. -/
def Grid.plain (k : Kernel) : Grid :=
  { id := 0, ctx := 0, queue := 0, seq := 0, kernel := k, gx := 1, gy := 1, gz := 1, next := 1, placed := 1, ended := 0, prio := 0,
    energy := 0, deadline := none, endSem := none, ringDie := 0, cluster := some 0, passes := 0, out := false, entry := [] }

/-- Context 0 valid, its page tables in frame 1: glob addresses below 2^30 map to themselves with all permissions. -/
def Dev.mapped (d : Dev) : Dev :=
  let d := { d with
    ctxs := AMap.set 0 d.ctxs 0 0x8000000000010000#64
    indir := AMap.set 0 d.indir 1 0x8000000000000000#64 }
  let d := physWriteN d 0x10000 8 0x11001
  let d := physWriteN d 0x11000 8 0x12001
  physWriteN d 0x12000 8 0x1F

/-- The address of the slot that the loaded machine fetches next. -/
def loadAddr : Nat := 0x13000

/-- The boot done: control cores and Kerf run (R351). -/
def Mgmt.running (m : Mgmt) : Mgmt := { m with boot := { m.boot with state := .running }, power := .active }

/-- A machine whose next step fetches and runs the instruction with the low bits of `w`: on control core 0 for class C, else in
the head run of the group in group slot 0 of core 0. -/
def loadWord (s : State) (w : Nat) : State :=
  let k := Kernel.plain loadAddr 4096
  let d := s.dev.mapped
  let d := physWriteN d loadAddr 12 (w % 2 ^ 96)
  if field w 11 8 = 0xC then
    let q := { Queue.blank with
      w0 := 0x8000000000000000#64, started := true, level := 2,
      thread := { Thread.blank with imgBase := loadAddr, imgSlots := 4096 } }
    { moves := .serve 0 :: s.moves, mgmt := s.mgmt.running, dev := { d with cur := .none, queues := AMap.set Queue.blank [] 0 q, serving := [] } }
  else
    { moves := .issue 0 0 :: s.moves, mgmt := s.mgmt.running,
      dev := { d with cur := .none, teams := [Team.plain k], grids := [Grid.plain k], side := [], results := [] } }

/-! ## Moves -/

/-- The move made when the tape holds none: the first group that can run, then the first queue thread that can, else a cycle. -/
def defaultMove (d : Dev) : Move :=
  match d.teams.findSome? fun t =>
      if t.stat == .running then (t.groups.find? fun g => g.canRun).map fun g => (g.core, g.gslot) else none with
  | some (c, g) => .issue c g
  | none =>
    match d.queues.find? fun q => q.2.ready with
    | some q => .serve (q.1 / 8192)
    | none => .tick 1

/-- The next move, and the state without it. -/
def takeMove (s : State) : Move × State :=
  match s.moves with
  | m :: r => (m, { s with moves := r })
  | [] => (defaultMove s.dev, s)

/-- Whether compute cores and control cores run in this state of the module (R351, R357, R452). -/
def Mgmt.runs (m : Mgmt) : Bool := m.power == .active && m.boot.state == .running

/-- Whether Kerf places teams and the Joiners issue jobs: not while Standby is entered (R358). -/
def Mgmt.places (m : Mgmt) : Bool := m.runs && !m.entering

/-- Whether an issue may be attempted on a core: its die's clocks run (R357). -/
def coreRuns (m : Mgmt) (_core : Nat) : Bool := m.runs

/-- `n` core cycles of device time: 0.25 ns each; slewed by at most 200 ppm, or at half rate while a larger negative offset is
absorbed (R350). Groups that became ready wait from the cycle that ends (R29), and each move of a frame copies a line a cycle (R106). -/
def passTime (n : Nat) (d : Dev) : Dev :=
  let d := settleBays d
  let d := d.migr.foldl (copyLines n) d
  let base : Int := n * 16384
  let adj : Int :=
    if 0 ≤ d.slew then min d.slew (base / 5000)
    else -(min (-d.slew) (if d.half then base / 2 else base / 5000))
  let total := (d.secs * 10 ^ 9 + d.nanos) * 65536 + d.frac + (base + adj).toNat
  { d with
    cycle := d.cycle + n
    slew := d.slew - adj
    half := d.half && d.slew - adj != 0
    secs := total / 65536 / 10 ^ 9
    nanos := total / 65536 % 10 ^ 9
    frac := total % 65536 }

end Sys2Proof.Machine
end

