-- ==== Sys2Proof/Machine/Shade.lean ====
section
/-! DEFINITION. The shading reuse cache: `shc.probe` and `shc.fill`, their arrival, and the expiry of reservations (R273, R274). -/

namespace Sys2Proof.Machine

/-- The set of a key (R273). -/
def shcSet (k : Nat) : Nat :=
  [field k 23 12, field k 35 24, field k 47 36, field k 59 48, field k 63 60].foldl Nat.xor (field k 11 0)

/-- The entry of a key in a context. -/
def shcFind (d : Dev) (core ctx : Nat) (key : DWord) : Option ShcEntry :=
  d.shc.find? fun e => e.core == core && e.ctx == ctx && e.key == key

/-- Same core, set and way. -/
def ShcEntry.same (a b : ShcEntry) : Bool := a.core == b.core && a.set == b.set && a.way == b.way

def shcPut (d : Dev) (e : ShcEntry) : Dev := { d with shc := (d.shc.filter fun x => !x.same e) ++ [e] }

/-- The way to replace: an invalid one, else the valid one least recently hit; none where all four are reserved (R273). -/
def shcWay (d : Dev) (core set : Nat) : Option Nat :=
  let l := d.shc.filter fun e => e.core == core && e.set == set
  match (List.range 4).find? fun w => !l.any fun e => e.way == w with
  | some w => some w
  | none => (sortBy (·.age) (l.filter (·.valid))).head?.map (·.way)

/-- A record of the cache: seven values and element 7. -/
def shcRecord (values : List Word) (status : Nat) : Nat := packElems 32 ((List.range 7).map (fun k => (values.getD k 0).toNat) ++ [status])

/-- A probe or fill performed (R274). An entry counts as hit when a fill makes it valid (DEDUCED, log 28). -/
def shcPerform (d : Dev) (q : ShcReq) : Dev :=
  let (order, d) := d.freshId
  let set := shcSet q.key.toNat
  let answer (d : Dev) (v : Nat) : Dev := match q.result with | some id => setResult d id v | none => d
  match shcFind d q.core q.ctx q.key, q.fill with
  | some e, none =>
    if e.valid then answer (shcPut d { e with age := order }) (shcRecord e.values 1) else answer d (shcRecord [] 2)
  | some e, some v => shcPut d { e with valid := true, values := v, age := if e.valid then e.age else order }
  | none, f =>
    match shcWay d q.core set with
    | none => answer d (shcRecord [] 3)
    | some way =>
      match f with
      | none =>
        answer (shcPut d { core := q.core, set, way, ctx := q.ctx, key := q.key, valid := false, values := [], age := d.cycle })
          (shcRecord [] 0)
      | some v => shcPut d { core := q.core, set, way, ctx := q.ctx, key := q.key, valid := true, values := v, age := order }

/-- SHC_REQUEST_ARRIVAL: one request performed, in the order of these events; one whose context's teams are gone has no effect. -/
def execShcRequestArrival (id : Nat) (s : State) : Host.Outcome State Fault Refusal :=
  s.onDev fun d =>
    match d.shcReqs.find? fun q => q.id == id with
    | none => d
    | some q =>
      let d := { d with shcReqs := d.shcReqs.filter fun x => x.id != id }
      if d.teams.any fun t => t.ctx == q.ctx then shcPerform d q else d

/-- SHC_RESERVE_EXPIRY (R273): a reservation ends 65,536 cycles after it was made. -/
def execShcReserveExpiry (core set way : Nat) (s : State) : Host.Outcome State Fault Refusal :=
  s.onDev fun d =>
    { d with shc := d.shc.filter fun e =>
        !(e.core == core && e.set == set && e.way == way && !e.valid && decide (e.age + 65536 ≤ d.cycle)) }

/-- `shc.probe` (R274). -/
def execShcProbe (c : Ctl) (d a b : Operand) (s : State) : Host.Outcome State Fault Refusal :=
  let i : Instr := .shcProbe c d a b
  s.onDev (longEach i noCheck fun k e w m =>
    match w with
    | .thr r =>
      let (res, m) := newResult m r (destOf e .pktDst d) none (2 ^ 256 - 1) k
      let (id, m) := m.freshId
      let q : ShcReq :=
        { id, who := r, ctx := e.ctx, core := e.core, key := BitVec.ofNat 64 (e.scalar 64 .int a), fill := none, result := some res }
      { m with shcReqs := m.shcReqs ++ [q] }.pass i w
    | .que _ => m)

/-- `shc.fill` (R274). -/
def execShcFill (c : Ctl) (d a b : Operand) (s : State) : Host.Outcome State Fault Refusal :=
  let i : Instr := .shcFill c d a b
  s.onDev (eachThread i noCheck fun e w m =>
    match w with
    | .thr r =>
      let (id, m) := m.freshId
      let p := e.packet 32 .int b
      let q : ShcReq :=
        { id, who := r, ctx := e.ctx, core := e.core, key := BitVec.ofNat 64 (e.scalar 64 .int a)
          fill := some ((List.range 7).map fun k => BitVec.ofNat 32 (elem 32 p k)), result := none }
      { m with shcReqs := m.shcReqs ++ [q] }.pass i w
    | .que _ => m)

end Sys2Proof.Machine
end

