-- ==== Sys2Proof/Machine/Jobs.lean ====
section
/-! DEFINITION. Job cards and their checks (R243 to R247), posting (R123, R248, R249), handles (R255, R256), and the instructions on
them (R257 to R259). What the engines do with a job is in JobRun. -/

namespace Sys2Proof.Machine

/-! ## The fields of a card (R243 to R245) -/

/-- Word k of a card. -/
def cardWord (c : List DWord) (k : Nat) : Nat := (c.getD k 0).toNat

/-- The kinds of R243. -/
def jobKind (c : List DWord) : Nat := field (cardWord c 0) 63 60
def jobEngine (c : List DWord) : Nat := field (cardWord c 0) 59 58
def jobPrio (c : List DWord) : Nat := field (cardWord c 0) 57 52
def jobEnergy (c : List DWord) : Nat := field (cardWord c 0) 51 48
def jobScope (c : List DWord) : Nat := field (cardWord c 0) 47 45
def jobCw (c : List DWord) : Bool := bitOf (cardWord c 0) 44
def jobOrd (c : List DWord) : Bool := bitOf (cardWord c 0) 43
def jobCompat (c : List DWord) : Bool := bitOf (cardWord c 0) 42

/-- Row bytes and rows of a copy or gather; M, N and K of a matrix job (R245). -/
def jobRowBytes (c : List DWord) : Nat := 32 * field (cardWord c 0) 39 20
def jobRows (c : List DWord) : Nat := field (cardWord c 0) 15 0 + 1
def jobM (c : List DWord) : Nat :=
  (if jobKind c = 4 then field (cardWord c 0) 20 10 else field (cardWord c 0) 31 21) + 1
def jobN (c : List DWord) : Nat :=
  (if jobKind c = 4 then field (cardWord c 0) 9 0 else field (cardWord c 0) 20 11) + 1
def jobK (c : List DWord) : Nat := 32 * (field (cardWord c 0) 10 0 + 1)
def jobFmtA (c : List DWord) : Nat := field (cardWord c 0) 39 36
def jobFmtB (c : List DWord) : Nat := field (cardWord c 0) 35 32
def jobSplit (c : List DWord) : Nat := field (cardWord c 7) 2 0

/-- Aperture code, log2 of the table's rows and offset of a region word (R244). -/
def regAp (w : Nat) : Nat := field w 63 61
def regRows (w : Nat) : Nat := 2 ^ field w 60 56
def regOff (w : Nat) : Nat := field w 55 0

/-- The aperture of a region code. -/
def regAperture (ap : Nat) : Aperture :=
  match ap with
  | 1 => .glob | 2 => .die | 3 => .peer | 4 => .team | 5 => .rwin | _ => .unassigned

/-- The generic address of a region (R244). -/
def regAddr (w : Nat) : Nat := apertureBase (regAperture (regAp w)) + regOff w

/-- Operand formats of R251: element bits, and the MX and integer groups. -/
def opBits (f : Nat) : Nat := match f with | 0 | 1 => 16 | 6 | 7 => 6 | 8 | 11 => 4 | _ => 8
def opMx (f : Nat) : Bool := 4 ≤ f && f ≤ 9
def opInt (f : Nat) : Bool := f == 10 || f == 11

/-- Output formats of R254: element bits, and the MX group. -/
def outBits (f : Nat) : Nat := match f with | 0 => 32 | 1 | 2 => 16 | 7 | 8 => 6 | 9 => 4 | _ => 8
def outMx (f : Nat) : Bool := 5 ≤ f && f ≤ 10
def jobOfmt (c : List DWord) : Nat := field (cardWord c 0) 39 36
def jobAct (c : List DWord) : Nat := field (cardWord c 0) 35 32

/-- The tiles of a tile set that an M × N matrix uses: core of the cluster and physical tile (R244). -/
def tileSet (w m n : Nat) : List (Nat × Nat) :=
  (List.range (ceilDiv m 128)).flatMap fun r =>
    (List.range (ceilDiv n 128)).map fun k => (field w 27 24 + r, field w (3 * k + 2) (3 * k))

/-- The word that may hold a tile set: C of a matrix job, the source of an epilogue. -/
def tileWord (kind : Nat) : Option Nat := match kind with | 2 | 3 => some 6 | 4 => some 2 | _ => none

/-- The tiles a job names. -/
def jobTiles (c : List DWord) : List (Nat × Nat) :=
  match tileWord (jobKind c) with
  | some k => if regAp (cardWord c k) = 6 then tileSet (cardWord c k) (jobM c) (jobN c) else []
  | none => []

/-! ## The footprint (R246) -/

/-- A region of a footprint: card word, whether written, rows, bytes of a row, stride. -/
structure Span where
  word : Nat
  write : Bool
  rows : Nat
  rowBytes : Nat
  stride : Nat
  deriving DecidableEq, Repr

/-- The byte regions of a job by R246, those absent or held in tiles left out. -/
def footprint (c : List DWord) : List Span :=
  let w := cardWord c
  let n := jobN c
  let m := jobM c
  let k := jobK c
  let lda := 32 * field (w 7) 63 48
  let ldb := 32 * field (w 7) 47 32
  let l : List Span := match jobKind c with
    | 0 => [⟨2, false, jobRows c, jobRowBytes c, field (w 3) 63 32⟩, ⟨6, true, jobRows c, jobRowBytes c, field (w 3) 31 0⟩]
    | 1 => [⟨2, false, regRows (w 2), jobRowBytes c, field (w 3) 63 32⟩, ⟨4, false, 1, 4 * jobRows c, 0⟩,
            ⟨6, true, jobRows c, jobRowBytes c, field (w 3) 31 0⟩]
    | 2 => [⟨2, false, m, k * opBits (jobFmtA c) / 8, lda⟩, ⟨3, false, n, k * opBits (jobFmtB c) / 8, ldb⟩,
            ⟨4, false, 1, m * k / 32, 0⟩, ⟨5, false, 1, n * k / 32, 0⟩, ⟨6, true, m, 4 * n, 32 * field (w 7) 31 16⟩]
    | 3 => [⟨2, false, regRows (w 2), k * opBits (jobFmtA c) / 8, lda⟩, ⟨3, false, n, k * opBits (jobFmtB c) / 8, ldb⟩,
            ⟨4, false, 1, regRows (w 2) * k / 32, 0⟩, ⟨5, false, 1, 4 * m, 0⟩, ⟨6, true, m, 4 * n, 32 * field (w 7) 31 16⟩]
    | _ => [⟨2, false, m, 4 * n, 32 * field (w 4) 31 16⟩, ⟨3, false, 1, 4 * n, 0⟩,
            ⟨6, true, m, n * outBits (jobOfmt c) / 8, 32 * field (w 4) 15 0⟩, ⟨7, true, 1, m * n / 32, 0⟩]
  l.filter fun s => regAp (w s.word) != 0 && regAp (w s.word) != 6

/-- Bytes from the first to the last byte of a span. -/
def Span.len (s : Span) : Nat := (s.rows - 1) * s.stride + s.rowBytes

/-- First and last 128-byte block of a span of a card (R286). -/
def Span.blocks (c : List DWord) (s : Span) : Nat × Nat :=
  let a := regAddr (cardWord c s.word)
  (a / 128, (a + s.len - 1) / 128)

/-- Whether two jobs of one cluster touch a common block or tile, one of them writing (R124, R286). -/
def clash (a b : List DWord) : Bool :=
  (footprint a).any (fun s => (footprint b).any fun t =>
      (s.write || t.write) && regAp (cardWord a s.word) == regAp (cardWord b t.word)
        && (s.blocks a).1 ≤ (t.blocks b).2 && (t.blocks b).1 ≤ (s.blocks a).2)
    || ((jobKind a != 4 || jobKind b != 4) && (jobTiles a).any fun x => (jobTiles b).contains x)

/-! ## The checks of a card (R247) -/

/-- What a region word of a kind must be: 0 absent or zero, 1 required, 2 optional, 3 present exactly for an MX format. -/
def regNeed (kind word : Nat) : Nat :=
  match kind, word with
  | 0, 2 | 0, 6 | 1, 2 | 1, 4 | 1, 6 | 2, 2 | 2, 3 | 2, 6 | 3, 2 | 3, 3 | 3, 5 | 3, 6 | 4, 2 | 4, 6 => 1
  | 4, 3 => 2
  | 2, 4 | 2, 5 | 3, 4 | 4, 7 => 3
  | _, _ => 0

/-- Whether the MX scales of a word apply: those of A, of B, of the output. -/
def regMx (c : List DWord) (word : Nat) : Bool :=
  match jobKind c, word with
  | 2, 4 | 3, 4 => opMx (jobFmtA c)
  | 2, 5 => opMx (jobFmtB c)
  | 4, 7 => outMx (jobOfmt c)
  | _, _ => false

/-- One region word checked. The other bits of an optional word whose aperture code is 0 may hold anything (DEDUCED, log 126). -/
def regOk (c : List DWord) (word : Nat) : Bool :=
  let kind := jobKind c
  let w := cardWord c word
  let ap := regAp w
  let rowsOk := field w 60 56 == 0 || (word == 2 && (kind == 1 || kind == 3)) || (word == 4 && kind == 3)
  match regNeed kind word with
  | 0 => true
  | n =>
    if ap = 0 then n == 2 || (n == 3 && !regMx c word)
    else if n == 3 && !regMx c word then false
    else if ap = 7 || !rowsOk then false
    else if ap = 6 then
      tileWord kind == some word && field w 55 28 == 0 && field w 27 24 + ceilDiv (jobM c) 128 ≤ 16
        && ceilDiv (jobN c) 128 ≤ 8 && (tileSet w 1 (jobN c)).length == ((tileSet w 1 (jobN c)).eraseDups).length
    else regOff w % 32 == 0 && regOff w < 2 ^ offsetBits (regAperture ap)

/-- R247 on a card whose header jpost has written; `dsize` is the posting team's declared team memory. -/
def cardOk (dsize : Nat) (c : List DWord) : Bool :=
  let w := cardWord c
  let kind := jobKind c
  let head := field (w 0) 41 40 == 0 && 4 ≤ jobScope c
    && (if jobCw c then field (w 1) 31 30 == 0 && w 1 % 8 == 0 else w 1 == 0)
  let body := match kind with
    | 0 => jobRowBytes c != 0 && field (w 0) 19 16 == 0 && field (w 3) 63 32 % 32 == 0 && field (w 3) 31 0 % 32 == 0
        && w 4 == 0 && w 5 == 0 && w 7 == 0
    | 1 => jobRowBytes c != 0 && field (w 0) 19 16 == 0 && field (w 3) 63 32 % 32 == 0 && field (w 3) 31 0 % 32 == 0
        && w 5 == 0 && w 7 == 0
    | 2 | 3 =>
      jobFmtA c ≤ 11 && jobFmtB c ≤ 11 && opInt (jobFmtA c) == opInt (jobFmtB c) && !(kind == 3 && opMx (jobFmtB c))
        && field (w 7) 15 6 == 0 && field (w 7) 3 3 == 0 && jobSplit c ≤ 4 && jobK c % (32 * 2 ^ jobSplit c) == 0
        && !(kind == 3 && regAp (w 4) != 0 && field (w 4) 60 56 != field (w 2) 60 56)
    | _ =>
      jobOfmt c ≤ 10 && jobAct c ≤ 6 && field (w 0) 29 21 == 0 && w 5 == 0 && !(outMx (jobOfmt c) && jobN c % 32 != 0)
  let team := (footprint c).all fun s => regAp (w s.word) != 4 || decide (regOff (w s.word) + s.len ≤ dsize)
  head && body && [2, 3, 4, 5, 6, 7].all (regOk c) && team

/-- The header as `jpost` writes it (R243). -/
def cardPosted (kind : Nat) (ord compat : Bool) (c : List DWord) : List DWord :=
  let tiles := match tileWord kind with | some k => regAp (cardWord c k) == 6 | none => false
  let engine := if kind < 2 then 0 else if tiles then 1 else 2
  let w := cardWord c 0
  BitVec.ofNat 64 (kind * 2 ^ 60 + engine * 2 ^ 58 + field w 57 44 * 2 ^ 44 + b2n ord * 2 ^ 43 + b2n compat * 2 ^ 42 + w % 2 ^ 42)
    :: c.drop 1

/-! ## Handles (R255, R256) -/

/-- The Joiner of a cluster. -/
def Dev.join (d : Dev) (cluster : Nat) : Join := AMap.get Join.blank d.joins cluster
def Dev.setJoin (d : Dev) (cluster : Nat) (j : Join) : Dev := { d with joins := AMap.set Join.blank d.joins cluster j }

/-- The handle of a job. -/
def Job.handle (j : Job) : DWord :=
  BitVec.ofNat 64 (2 ^ 63 + j.ctx * 2 ^ 53 + dieOf j.core * 2 ^ 50 + clusterOf j.core % 5 * 2 ^ 47 + j.slot * 2 ^ 37 + j.seq)

/-- The status code of a final state (R256). -/
def JobState.status : JobState → Option Nat
  | .completed => some 0
  | .cancelled => some 1
  | .failed _ => some 2
  | _ => none

/-- The status that a handle reports to a group of a context on a core; none while it is pending. -/
def handleStatus (d : Dev) (ctx core : Nat) (h : DWord) : Option Nat :=
  let v := h.toNat
  let cl := clusterOf core
  let j := d.join cl
  if !bitOf v 63 || field v 62 53 != ctx || field v 52 50 != dieOf core || field v 49 47 != cl % 5 then some 3
  else if (field v 36 0 + 2 ^ 37 - j.count) % 2 ^ 37 < 2 ^ 36 then some 3
  else if d.cards.any fun c => c.job.handle == h then none
  else
    match j.jobs.find? fun b => b.handle == h with
    | some b => b.state.status
    | none => some 4

/-- The status of h register `i` of a group: final once the group has been told (R256). -/
def registerStatus (d : Dev) (ctx : Nat) (g : Group) (i : Nat) : Option Nat :=
  match AMap.get 0 g.hfin i with
  | 0 => handleStatus d ctx g.core (AMap.get 0 g.h i)
  | n => some (n - 1)

/-! ## Finality (R256, R287) -/

/-- Every group changed by `f`. -/
def Dev.mapGroups (d : Dev) (f : Team → Group → Group) : Dev :=
  { d with teams := d.teams.map fun t => { t with groups := t.groups.map (f t) } }

/-- A group told that a handle is final: the registers that hold it, and its block on it. -/
def Group.told (h : DWord) (status : Nat) (g : Group) : Group :=
  let held := (List.range 16).filter fun i => AMap.get 0 g.h i == h && AMap.get 0 g.hfin i == 0
  { g with
    hfin := held.foldl (fun m i => AMap.set 0 m i (status + 1)) g.hfin
    block := if g.block = some (.handle h) then none else g.block }

/-- Groups of a cluster held at `jpost` look again (R249). -/
def unholdJpost (d : Dev) (cluster : Nat) : Dev :=
  d.mapGroups fun _ g =>
    if clusterOf g.core = cluster && g.block == some .jpost then { g with block := none } else g

/-- Whether a non-final job of the queue names a tile (R263). -/
def tileInflight (d : Dev) (core phys : Nat) : Bool :=
  (d.join (clusterOf core)).jobs.any fun b => b.state.status.isNone && (jobTiles b.card).contains (core % 16, phys)

/-- Groups held at a `trel` look again (R262). -/
def unholdTrel (d : Dev) (cluster : Nat) : Dev :=
  d.mapGroups fun _ g =>
    if clusterOf g.core = cluster then (match g.block with | some (.trel _) => { g with block := none } | _ => g) else g

/-- Tiles of ended teams that no job names any more become free (R442). -/
def dropTiles (d : Dev) : Dev :=
  { d with keptTiles := d.keptTiles.filter fun t => tileInflight d (t.1 / 8) (t.1 % 8) }

/-- What follows a job's end in its cluster: groups that hold its handle are told, held ones look again. -/
def announce (d : Dev) (cluster : Nat) (b : Job) (status : Nat) : Dev :=
  let d := d.mapGroups fun t g => if t.ctx = b.ctx && clusterOf g.core = cluster then g.told b.handle status else g
  dropTiles (unholdTrel (unholdJpost d cluster) cluster)

/-- A job of the queue ends in a final state; its units are free, and its edges are released, with the root of a failure (R287, R440). -/
def endJob (d : Dev) (cluster : Nat) (b : Job) (st : JobState) (root : Option Nat) : Dev :=
  let j := d.join cluster
  let final (x : Job) : Job := { x with state := st, shares := [], engine := none, drain := false }
  let j := Join.release { j with jobs := j.jobs.map fun x => if x.seq == b.seq then final x else x } b.seq root
  announce (d.setJoin cluster j) cluster b (st.status.getD 0)

/-! ## Posting (R248, R249) -/

/-- The two packets of A as the eight words of a card. -/
def cardOf (e : Env) (a : Operand) : List DWord :=
  let v := e.packets 2 a
  (List.range 8).map fun k => BitVec.ofNat 64 (v / 2 ^ (64 * k))

/-- The card as it would be posted. -/
def Env.card (e : Env) (kind : Nat) (ord : Bool) (a : Operand) : List DWord := cardPosted kind ord e.compat (cardOf e a)

/-- The job-card trap (R242). -/
def cardCheck (kind : Nat) (ord : Bool) (a : Operand) (e : Env) : Option Trap :=
  let dsize := match e.own with | some (t, _) => t.kernel.tmem | none => 0
  if cardOk dsize (e.card kind ord a) then none
  else some { cause := 0x08, fpc := e.h.pc.toNat, resume := e.h.pc.toNat }

/-- Whether a core has a place for a card, and its cluster's queue an entry (R249). -/
def cardRoom (d : Dev) (core : Nat) : Bool :=
  let cl := clusterOf core
  (d.cards.filter fun c => c.core == core).length < 4
    && ((d.join cl).jobs.filter fun b => b.state.status.isNone).length
      + (d.cards.filter fun c => clusterOf c.core == cl).length < Config.jobEntries

/-- The entry for a new job: the first free one from the post count on (DEDUCED, log 22). -/
def freeEntry (d : Dev) (cl : Nat) : Nat :=
  let j := d.join cl
  let used (s : Nat) : Bool := (j.jobs.any fun b => b.slot == s && b.state.status.isNone)
    || d.cards.any fun c => clusterOf c.core == cl && c.job.slot == s
  (((List.range 1024).map fun k => (j.count + k) % 1024).find? fun s => !used s).getD 0

/-- The card held at the core (R248); its handle. -/
def postCard (e : Env) (r : TRef) (card : List DWord) (d : Dev) : DWord × Dev :=
  match e.own with
  | none => (0, d)
  | some (t, g) =>
    let cl := clusterOf g.core
    let slot := freeEntry d cl
    let j := d.join cl
    let b : Job :=
      { seq := j.count, slot, card, who := r, ctx := t.ctx, core := g.core, team := t.id, grid := t.grid, state := .waiting, preds := [],
        failedRoot := none, shares := [], engine := none, drain := false, lost := none, passes := 0, cancelAsked := false }
    let last := (d.group? t.id g.gid).bind (·.lastPost)
    let after : Option Nat := match last with | some p => if jobOrd card && p.1 == cl then some p.2 else none | none => none
    let d := d.setJoin cl { j with count := (j.count + 1) % 2 ^ 37, jobs := j.jobs.filter fun x => x.slot != slot }
    let x : HeldCard := { core := g.core, job := b, upto := d.nextId, ordAfter := after }
    let d := { d with cards := d.cards ++ [x] }
    (b.handle, d.mapGroup t.id g.gid fun g => { g with lastPost := some (cl, b.seq) })

/-- The group held at its `jpost`. -/
def holdGroup (d : Dev) (w : Who) (b : Block) : Dev :=
  match w with
  | .thr r => d.mapGroup r.team r.gid fun (g : Group) => { g with block := some b }
  | .que _ => d

/-- One thread's post without a handle. -/
def postOne (i : Instr) (kind : Nat) (ord : Bool) (a : Operand) (e : Env) (w : Who) (d : Dev) : Dev :=
  match w with
  | .thr r => if cardRoom d e.core then (postCard e r (e.card kind ord a) d).2.pass i w else holdGroup d w .jpost
  | .que _ => d

/-- The post of a run with a handle destination. -/
def postHandle (i : Instr) (kind : Nat) (ord : Bool) (dst a : Operand) (e : Env) (w : Who) (d : Dev) : Dev :=
  match w, dst with
  | .thr r, .reg .h _ _ n =>
    let (h, d) := postCard e r (e.card kind ord a) d
    (d.mapGroup r.team r.gid fun g =>
      { g with h := AMap.set 0 g.h n.toNat h, hfin := AMap.set 0 g.hfin n.toNat 0 }).pass i w
  | _, _ => d

/-- The head run's first thread with a true guard, which acts for the run (R241). -/
def actor (i : Instr) (d : Dev) : Option (Who × Env) := (issuers d).find? fun p => p.2.h.guard (Roles.ctlOf i)

/-- `jpost` (R248): in each thread without a handle destination, once for the run with one. -/
def jpostRun (i : Instr) (kind : Nat) (ord : Bool) (dst a : Operand) (m : Dev) : Dev :=
  if dst = .none then eachThread i (cardCheck kind ord a) (postOne i kind ord a) m
  else
    let m := m.prepare i
    match actor i m with
    | some p =>
      let clear := (rangeCheck p.2 i).isNone && (poisonRead p.2 i).isNone && (cardCheck kind ord a p.2).isNone
      if clear && !cardRoom m p.2.core then holdGroup m p.1 .jpost
      else (uniformOnce i (cardCheck kind ord a) (postHandle i kind ord dst a) m).closeWindow i
    | none => uniformOnce i noCheck (fun _ _ d => d) m

/-- `jpost.copy` (R248, R250). -/
def execJpostCopy (c : Ctl) (ordered : Bool) (d a b : Operand) (s : State) : Host.Outcome State Fault Refusal :=
  s.onDev (jpostRun (.jpostCopy c ordered d a b) 0 ordered d a)

/-- `jpost.gather` (R248, R250). -/
def execJpostGather (c : Ctl) (ordered : Bool) (d a b : Operand) (s : State) : Host.Outcome State Fault Refusal :=
  s.onDev (jpostRun (.jpostGather c ordered d a b) 1 ordered d a)

/-- `jpost.mma` (R248, R253). -/
def execJpostMma (c : Ctl) (ordered : Bool) (d a b : Operand) (s : State) : Host.Outcome State Fault Refusal :=
  s.onDev (jpostRun (.jpostMma c ordered d a b) 2 ordered d a)

/-- `jpost.mma.gather` (R248, R253). -/
def execJpostMmaGather (c : Ctl) (ordered : Bool) (d a b : Operand) (s : State) : Host.Outcome State Fault Refusal :=
  s.onDev (jpostRun (.jpostMmaGather c ordered d a b) 3 ordered d a)

/-- `jpost.epilogue` (R248, R254). -/
def execJpostEpilogue (c : Ctl) (ordered : Bool) (d a b : Operand) (s : State) : Host.Outcome State Fault Refusal :=
  s.onDev (jpostRun (.jpostEpilogue c ordered d a b) 4 ordered d a)

/-! ## `jwait`, `jtest`, `jcancel` (R257 to R259) -/

/-- Number of the h register an operand names. -/
def handleIndex (o : Operand) : Nat := match o with | .reg .h _ _ i => i.toNat | _ => 0

/-- The status of an operand's handle as the issuing group sees it. -/
def statusOf (e : Env) (o : Operand) : Option Nat :=
  match e.own with
  | some (t, g) => registerStatus e.d t.ctx g (handleIndex o)
  | none => some 3

/-- `jwait` (R257): the group blocks while the handle is pending; then every thread with a true guard gets the status. -/
def execJwait (c : Ctl) (d a b : Operand) (s : State) : Host.Outcome State Fault Refusal :=
  let i : Instr := .jwait c d a b
  s.onDev fun m =>
    match actor i m with
    | none => passRun i m
    | some p =>
      match statusOf p.2 a with
      | none => holdGroup m p.1 (.handle (p.2.handle a))
      | some st => (eachThread i noCheck (fun e w m => writeOut i { val := st, mask := 2 ^ 32 - 1 } e w m) m).closeWindow i

/-- `jtest` (R258). -/
def execJtest (c : Ctl) (d a b : Operand) (s : State) : Host.Outcome State Fault Refusal :=
  let i : Instr := .jtest c d a b
  s.onDev fun m => (eachThread i noCheck (fun e w m => writeOut i (predOut (statusOf e a).isSome) e w m) m).closeWindow i

/-- A job of a cluster cancelled by its handle (R259): a held card keeps the request, an unissued job ends. -/
def cancelHandle (d : Dev) (cl : Nat) (h : DWord) : Dev :=
  if d.cards.any fun c => c.job.handle == h then
    { d with cards := d.cards.map fun c => if c.job.handle == h then { c with job := { c.job with cancelAsked := true } } else c }
  else
    match (d.join cl).jobs.find? fun b => b.handle == h with
    | some b => if b.unissued then endJob d cl b .cancelled none else d
    | none => d

/-- `jcancel` (R259). -/
def execJcancel (c : Ctl) (d a b : Operand) (s : State) : Host.Outcome State Fault Refusal :=
  let i : Instr := .jcancel c d a b
  s.onDev fun m => uniformOnce i noCheck (fun e w m =>
    match e.own with
    | some (_, g) =>
      match statusOf e a with
      | none => (cancelHandle m (clusterOf g.core) (e.handle a)).pass i w
      | some _ => m.pass i w
    | none => m) m

end Sys2Proof.Machine
end

