-- ==== Sys2Proof/Machine/JobRun.lean ====
section
/-! DEFINITION. What the engines compute for a job (R250 to R254, with R64, R65, R67, R74, R75), and its findings in access order
(R439). -/

namespace Sys2Proof.Machine

/-- Work on one region of a card: a failure carries the card word (R441). -/
def inRegion {α : Type} (k : Nat) (m : EngM α) : EngM α :=
  tryCatch m fun e => throw (match e with | .fail r a => .fail (r + 16 * k) a | e => e)

/-- Bytes of a region from an offset in it. -/
def regBytes (x : Eng) (c : List DWord) (word off len : Nat) : EngM (List Byte) :=
  inRegion word (engBytes x (regAddr (cardWord c word) + off) len)

def regStore (x : Eng) (c : List DWord) (word off : Nat) (l : List Byte) : EngM Unit :=
  inRegion word (engStore x (regAddr (cardWord c word) + off) l)

/-- Little-endian 32-bit words of a byte list. -/
def words32 (n : Nat) (l : List Byte) : List Nat := (List.range n).map fun k => ofBytes ((l.drop (4 * k)).take 4)

/-- A footprint violation at an offset of a region (reason 1). -/
def footprintStop {α : Type} (c : List DWord) (word off : Nat) : EngM α :=
  throw (.fail (1 + 16 * word) (regAddr (cardWord c word) + off))

/-! ## What a job writes (R250, R290) -/

/-- The rows of a span of a card. -/
def Span.rowsIn (c : List DWord) (s : Span) : Rows := ⟨regAddr (cardWord c s.word), s.rows, s.rowBytes, s.stride⟩

/-- The rows that a job reads, by its footprint. -/
def readRows (c : List DWord) : List Rows := ((footprint c).filter fun s => !s.write).map (Span.rowsIn c)

/-- Bytes to be written from a generic address: those that the job also reads are open (R250, R4). -/
def openBytes (reads : List Rows) : Nat → List Byte → EngM (List Byte)
  | _, [] => return []
  | a, b :: r => do
    let hit := reads.any fun q => (q.at a).2 != 0
    let d ← get
    if hit then set { d with fresh := d.fresh + 1 }
    let rest ← openBytes reads (a + 1) r
    return (if hit then Config.freeByte d.fresh else b) :: rest

/-- Bytes written to a region, from an offset in it, those open that the job reads. -/
def regPut (x : Eng) (c : List DWord) (word off : Nat) (l : List Byte) : EngM Unit := do
  let l ← openBytes (readRows c) (regAddr (cardWord c word) + off) l
  regStore x c word off l

/-! ## Copy and gather (R250) -/

/-- Whether row n writes the byte at an address of rows that overlap: the byte is written once, by one of its rows, which is open (R290,
R4). `seed` numbers the job's free choices. -/
def Rows.writes (r : Rows) (seed n a : Nat) : Bool :=
  let h := r.at a
  let k := (Config.freeByte (seed + 2 * (a - r.base))).toNat + 256 * (Config.freeByte (seed + 2 * (a - r.base) + 1)).toNat
  h.1 + k % h.2 == n

/-- A row's bytes from an offset, in runs of those that the row writes; each run is written. -/
def putRuns (x : Eng) (c : List DWord) (keep : Nat → Bool) : Nat → List Byte → Nat → List Byte → EngM Unit
  | _, [], o, run => if run.isEmpty then return () else regPut x c 6 o run
  | a, b :: r, o, run =>
    if keep a then putRuns x c keep (a + 1) r (if run.isEmpty then a else o) (run ++ [b])
    else do
      if !run.isEmpty then regPut x c 6 o run
      putRuns x c keep (a + 1) r (a + 1) []

/-- Row n of the destination, from row `src` of word 2. -/
def moveRow (x : Eng) (c : List DWord) (seed src n : Nat) : EngM Unit := do
  let out : Rows := ⟨regAddr (cardWord c 6), jobRows c, jobRowBytes c, field (cardWord c 3) 31 0⟩
  let l ← regBytes x c 2 src (jobRowBytes c)
  if jobRows c = 1 || jobRowBytes c ≤ out.stride then regPut x c 6 (n * out.stride) l
  else putRuns x c (fun o => out.writes seed n (out.base + o)) (n * out.stride) l 0 []

/-- The number of a job's first free choice, as many taken as its destination has bytes, twice. -/
def jobSeed (c : List DWord) : EngM Nat := do
  let d ← get
  set { d with fresh := d.fresh + 2 * ((jobRows c - 1) * field (cardWord c 3) 31 0 + jobRowBytes c) }
  return d.fresh

/-- `copy`. -/
def runCopy (x : Eng) (c : List DWord) : EngM Unit := do
  let seed ← jobSeed c
  (List.range (jobRows c)).forM fun r => moveRow x c seed (r * field (cardWord c 3) 63 32) r

/-- `gather`. -/
def runGather (x : Eng) (c : List DWord) : EngM Unit := do
  let seed ← jobSeed c
  let s0 := field (cardWord c 3) 63 32
  let n := jobRows c
  let idx ← regBytes x c 4 0 (4 * n)
  ((words32 n idx).zip (List.range n)).forM fun p =>
    if regRows (cardWord c 2) ≤ p.1 then footprintStop c 2 (p.1 * s0) else moveRow x c seed (p.1 * s0) p.2

/-! ## Matrix jobs (R252, R253) -/

/-- The element format of an operand code (R251). -/
def opElem (f : Nat) : MxFmt :=
  match f with
  | 0 => .fp .bf16 | 1 => .fp .f16 | 2 | 4 => .fp .e4m3 | 3 | 5 => .fp .e5m2 | 6 => .fp .e3m2 | 7 => .fp .e2m3 | 8 => .fp .e2m1
  | _ => .int8

/-- The elements of an operand row of K elements, as patterns. -/
def rowElems (f k : Nat) (l : List Byte) : List Nat :=
  let v := ofBytes l
  (List.range k).map fun j => elem (opBits f) v j

/-- Their values: under the block scales for an MX format, as integers for an integer one. -/
def rowVals (f k : Nat) (scales : List Byte) (l : List Byte) : List Val :=
  ((rowElems f k l).zip (List.range k)).map fun p =>
    if opMx f then mxValue (opElem f) ((scales.getD (p.2 / 32) 0).toNat) p.1
    else match opElem f with
      | .fp g => decodeFp g p.1
      | .int8 => Val.ofInt (sext p.1 (opBits f))

/-- An operand row read: from `off` of a region, its scales from `soff` of another. -/
def readRow (x : Eng) (c : List DWord) (f word off sword soff : Nat) : EngM (List Val) := do
  let k := jobK c
  let l ← regBytes x c word off (k * opBits f / 8)
  let s ← if opMx f then regBytes x c sword soff (k / 32) else pure []
  return rowVals f k s l

/-- One chunk of at most 32 products added to an accumulator (R74). -/
def chunkAdd (acc : Nat) (a b : List Val) : Nat :=
  let s := Val.sum false ((a.zip b).map fun p => p.1.mul p.2)
  rne32 ((val32 acc).add false (val32 (rne32 s)))

/-- A k range formed in chunks of 32; the first argument bounds the chunks. -/
def partSum : Nat → Nat → List Val → List Val → Nat
  | 0, acc, _, _ => acc
  | n + 1, acc, a, b => if a.isEmpty then acc else partSum n (chunkAdd acc (a.take 32) (b.take 32)) (a.drop 32) (b.drop 32)

/-- Two partials put together (R75). -/
def join32 (x y : Nat) : Nat := rne32 ((val32 x).add false (val32 y))

/-- An element of a float job: the parts over the k ranges, put together by the tree or the chain (R253). -/
def floatElem (c : List DWord) (start : Nat) (a b : List Val) : Nat :=
  let p := 2 ^ jobSplit c
  let w := jobK c / p
  let parts := (List.range p).map fun k =>
    partSum (w / 32 + 1) (if k = 0 then start else 0) ((a.drop (k * w)).take w) ((b.drop (k * w)).take w)
  if bitOf (cardWord c 7) 4 then parts.tail.foldl join32 (parts.headD 0)
  else (pairTree (fun _ x y => join32 x y) (parts.map some)).1

/-- A value of an integer operand. -/
def Val.int : Val → Int
  | .fin s n d => if s then -((n / d : Nat) : Int) else ((n / d : Nat) : Int)
  | _ => 0

/-- An element of an integer job, modulo 2^32. -/
def intElem (start : Nat) (a b : List Val) : Nat :=
  wrapInt ((a.zip b).foldl (fun s p => s + p.1.int * p.2.int) (start : Int)) 32

/-! ## C in memory or in tiles -/

/-- Row i, from its first to its n-th element, of C held in a tile set, as 32-bit patterns (R244). -/
def tileRow (d : Dev) (core w i n : Nat) : List Nat :=
  (List.range n).map fun j =>
    let k := j / 128
    Memory.readN d.tiles
      (tileKey (core / 16 * 16 + field w 27 24 + i / 128) (field w (3 * k + 2) (3 * k)) (512 * (i % 128) + 4 * (j % 128))) 4

/-- Whether any byte of it is poisoned. -/
def tileRowBad (d : Dev) (core w i n : Nat) : Bool :=
  (List.range n).any fun j =>
    let k := j / 128
    poisoned d 3 (tileKey (core / 16 * 16 + field w 27 24 + i / 128) (field w (3 * k + 2) (3 * k)) (512 * (i % 128) + 4 * (j % 128))) 4

/-- A row of C written to the tiles, which become valid and dirty (R263, R440); the poison of the words that it covers whole ends (R429). -/
def putTileRow (core w i : Nat) (vals : List Nat) (d : Dev) : Dev :=
  let at_ (k : Nat) : Nat := tileKey (core / 16 * 16 + field w 27 24 + i / 128) (field w (3 * k + 2) (3 * k)) (512 * (i % 128))
  let d := (List.range (ceilDiv vals.length 128)).foldl (fun d k => { d with poison := unpoison d 3 (at_ k) (4 * min 128 (vals.length - 128 * k)) }) d
  ((vals.zip (List.range vals.length))).foldl (fun d p =>
    let k := p.2 / 128
    let c := core / 16 * 16 + field w 27 24 + i / 128
    let t := field w (3 * k + 2) (3 * k)
    let a := tileKey c t (512 * (i % 128) + 4 * (p.2 % 128))
    { d with tiles := Memory.writeN d.tiles a 4 p.1, tileStat := AMap.set 0 d.tileStat (c * 8 + t) 3 }) d

/-- Row i of a job's C or source, by its region word. -/
def readC (x : Eng) (c : List DWord) (word ldc i : Nat) : EngM (List Nat) := do
  let w := cardWord c word
  let n := jobN c
  if regAp w = 6 then
    let d ← get
    if tileRowBad d x.core w i n then throw (.fail (4 + 16 * word) 0)
    return tileRow d x.core w i n
  else
    let l ← regBytes x c word (i * ldc) (4 * n)
    return words32 n l

/-- `mma` and `mma.gather`: every row of C formed, then written; a tile set is written whole, its stripes complete (R253, R440). -/
def runMma (x : Eng) (c : List DWord) (gather : Bool) : EngM Unit := do
  let m := jobM c
  let n := jobN c
  let w := cardWord c
  let idx ← if gather then regBytes x c 5 0 (4 * m) else pure []
  let idx := if gather then words32 m idx else List.range m
  let lda := 32 * field (w 7) 63 48
  let ldb := 32 * field (w 7) 47 32
  let ldc := 32 * field (w 7) 31 16
  let b ← (List.range n).mapM fun j => readRow x c (jobFmtB c) 3 (j * ldb) 5 (j * jobK c / 32)
  let rows ← (idx.zip (List.range m)).mapM fun p => do
    if gather && regRows (w 2) ≤ p.1 then footprintStop c 2 (p.1 * lda)
    let a ← readRow x c (jobFmtA c) 2 (p.1 * lda) 4 (p.1 * jobK c / 32)
    let old ← if bitOf (w 7) 5 then pure (List.replicate n 0) else readC x c 6 ldc p.2
    let row := (b.zip old).map fun q => if opInt (jobFmtA c) then intElem q.2 a q.1 else floatElem c q.2 a q.1
    if regAp (w 6) ≠ 6 then regPut x c 6 (p.2 * ldc) (row.flatMap (toBytes 4))
    return row
  if regAp (w 6) = 6 then
    modify fun d => (rows.zip (List.range m)).foldl (fun d p => putTileRow x.core (w 6) p.2 p.1 d) d

/-! ## Epilogue (R254) -/

/-- The activation of a code. -/
def activate (compat : Bool) (act v : Nat) : Nat :=
  match act with
  | 1 => maxNum .f32 v 0
  | 2 => sfu32 compat .gelu v
  | 3 => sfu32 compat .silu v
  | 4 => sfu32 compat .tanh v
  | 5 => sfu32 compat .sigm v
  | 6 => sfu32 compat .erf v
  | _ => v

/-- The element format of an output code. -/
def outElem (f : Nat) : MxFmt :=
  match f with
  | 0 => .fp .f32 | 1 => .fp .f16 | 2 => .fp .bf16 | 3 | 5 => .fp .e4m3 | 4 | 6 => .fp .e5m2 | 7 => .fp .e3m2 | 8 => .fp .e2m3
  | 9 => .fp .e2m1 | _ => .int8

/-- A row converted: its scale bytes and its elements. -/
def convertRow (f : Nat) (sat : Bool) (vs : List Nat) : List Nat × List Nat :=
  let m : FpMod := { rneMod with sat }
  if outMx f then
    let blocks := (List.range (vs.length / 32)).map fun k => mxQuantise (outElem f) m [] (((vs.drop (32 * k)).take 32).map val32)
    (blocks.map (·.1), blocks.flatMap (·.2))
  else
    match outElem f with
    | .fp g => ([], vs.map fun v => fpResult g m 0 (val32 v))
    | .int8 => ([], vs)

/-- `epilogue`. -/
def runEpilogue (x : Eng) (c : List DWord) : EngM Unit := do
  let m := jobM c
  let n := jobN c
  let w := cardWord c
  let f := jobOfmt c
  let alpha := val32 (field (w 4) 63 32)
  let bias ← if regAp (w 3) = 0 then pure [] else regBytes x c 3 0 (4 * n)
  let bias := if regAp (w 3) = 0 then List.replicate n 0 else words32 n bias
  (List.range m).forM fun i => do
    let old ← readC x c 2 (32 * field (w 4) 31 16) i
    let vs := (old.zip bias).map fun p =>
      let v := if bitOf (w 0) 30 then val32 (rne32 (Val.ofInt (sext p.1 32))) else val32 p.1
      activate (jobCompat c) (jobAct c) (rne32 ((alpha.mul v).add false (val32 p.2)))
    let r := convertRow f (bitOf (w 0) 31) vs
    regPut x c 6 (i * 32 * field (w 4) 15 0) (toBytes (n * outBits f / 8) (packElems (outBits f) r.2))
    if outMx f then regPut x c 7 (i * n / 32) (r.1.map (BitVec.ofNat 8))

/-- What a job's engines do. -/
def runJob (x : Eng) (c : List DWord) : EngM Unit :=
  match jobKind c with
  | 0 => runCopy x c
  | 1 => runGather x c
  | 2 => runMma x c false
  | 3 => runMma x c true
  | _ => runEpilogue x c

end Sys2Proof.Machine
end

