-- ==== Sys2Proof/Machine/EvJob.lean ====
section
/-! DEFINITION. The Joiner's and the engines' events: a held card enters the queue (R123, R249, R286), a job issues (R288, R289, R319), a
share ends (R287, R291, R292), a job fails (R439 to R441). -/

namespace Sys2Proof.Machine

/-! ## JOB_ENTER_QUEUE -/

/-- The jobs of the queue that a card must follow: by footprint, and for `.ord` its group's previous one (R124, R125, R286). -/
def edgesOf (j : Join) (card : List DWord) (after : Option Nat) : List Nat :=
  (j.jobs.filter fun b => b.state.status.isNone && (clash b.card card || some b.seq == after)).map (·.seq)

/-- The poison word that stands for an entry of a cluster's job queue. -/
def jobWord (cl slot : Nat) : Nat := 8 * (cl * Config.jobEntries + slot)

/-- The card that another must follow for `.ord`, where it is still held at a core of the cluster: its team was saved and resumed elsewhere
(R125, R444). -/
def heldBefore (d : Dev) (cl : Nat) (after : Option Nat) : List Nat :=
  after.toList.filter fun s => d.cards.any fun y => clusterOf y.core == cl && y.job.seq == s

/-- A card enters its cluster's queue; a cancellation kept with it is applied at once (R259). -/
def enterCard (d : Dev) (x : HeldCard) : Dev :=
  let cl := clusterOf x.core
  let j := d.join cl
  let preds := edgesOf j x.job.card x.ordAfter ++ heldBefore d cl x.ordAfter
  let b := { x.job with preds, state := if preds.isEmpty then .ready else .waiting }
  let d := { d with cards := d.cards.filter fun y => y.job.handle != b.handle, poison := unpoison d 6 (jobWord cl b.slot) 8 }
  let d := unholdJpost (d.setJoin cl { j with jobs := j.jobs ++ [b] }) cl
  if b.cancelAsked then endJob d cl b .cancelled none else d

/-- JOB_ENTER_QUEUE (R123): the core's oldest card, once every write before it is performed at `.clu`. -/
def execJobEnterQueue (core : Nat) (s : State) : Host.Outcome State Fault Refusal :=
  s.onDev fun d =>
    match d.cards.find? fun c => c.core == core with
    | none => d
    | some x =>
      let (ok, d) := tryRelease d x.job.who core 4 x.upto
      if ok then enterCard d x else d

/-! ## Units (R289, R291 to R293) -/

/-- Cores, from the cluster's first, whose Truss a job with a tile set takes at issue. -/
def jobCores (c : List DWord) : List Nat := (jobTiles c).map (·.1) |>.eraseDups

/-- Whether a job holds a copy engine: a copy or gather, and a Truss job that reads glob or rwin (R289, R293). -/
def needsEngine (c : List DWord) : Bool :=
  jobKind c < 2 || (footprint c).any fun s =>
    (regAp (cardWord c s.word) == 1 || regAp (cardWord c s.word) == 5)
      && (!s.write || ((jobKind c == 2 || jobKind c == 3) && !bitOf (cardWord c 7) 5))

/-- The copy engines of a cluster, and the Truss units by core, that no job holds. -/
def Join.freeEngines (j : Join) : List Nat := (List.range 4).filter fun n => !j.jobs.any fun b => b.engine == some n
def Join.freeTruss (j : Join) : List Nat :=
  (List.range 16).filter fun n => !j.jobs.any fun b => b.shares.any fun s => s.truss == some n

/-- Whether the units that a job needs to issue are free. -/
def unitsFree (j : Join) (c : List DWord) : Bool :=
  match jobEngine c with
  | 0 => !j.freeEngines.isEmpty
  | 1 => (jobCores c).all j.freeTruss.contains
  | _ => !j.freeTruss.isEmpty

/-- Engine shares that a job issues at once: what Kerf counts (R317, DEDUCED, log 23). -/
def issuedShares (c : List DWord) : Nat := if jobEngine c = 1 then (jobCores c).length else 1

/-- Shares of each stripe, or block, of a job. -/
def jobSplits (c : List DWord) : Nat := if jobKind c = 2 ∨ jobKind c = 3 then 2 ^ jobSplit c else 1

/-- Shares of a job (R291, R292). -/
def jobShares (c : List DWord) : Nat :=
  match jobEngine c with
  | 0 => 1
  | 1 => ceilDiv (jobM c) 128 * jobSplits c
  | _ => ceilDiv (jobM c) 128 * ceilDiv (jobN c) 128 * jobSplits c

/-- The Truss units that may run a share, the preferred ones first: of a tile-set job the stripe's owning core, for share 0 no other; of
another any (R291, R292; which free one is open: DESIGN CHOICE, log 98). -/
def shareHomes (c : List DWord) (n : Nat) : List Nat :=
  match jobEngine c with
  | 0 => []
  | 1 =>
    let own := field (cardWord c ((tileWord (jobKind c)).getD 0)) 27 24 + n / jobSplits c
    if n % jobSplits c = 0 then [own] else own :: List.range 16
  | _ => List.range 16

/-- Waiting shares given free Truss units, in order; and the units left. -/
def giveTruss (c : List DWord) : List Share → List Nat → List Share × List Nat
  | [], f => ([], f)
  | s :: r, f =>
    match if s.truss.isSome then none else (shareHomes c s.num).find? f.contains with
    | some n =>
      let x := giveTruss c r (f.filter (· != n))
      ({ s with truss := some n } :: x.1, x.2)
    | none =>
      let x := giveTruss c r f
      (s :: x.1, x.2)

/-- Issued jobs given the units they wait for, in post order. -/
def giveUnits : List Job → List Nat → List Nat → List Job
  | [], _, _ => []
  | b :: r, truss, engines =>
    if b.state != .issued || b.drain then b :: giveUnits r truss engines
    else
      let x := giveTruss b.card b.shares truss
      if b.engine.isNone && needsEngine b.card then
        { b with shares := x.1, engine := engines.head? } :: giveUnits r x.2 engines.tail
      else { b with shares := x.1 } :: giveUnits r x.2 engines

/-- The free units of a cluster given to the jobs that wait for them. -/
def Join.assign (j : Join) : Join := { j with jobs := giveUnits j.jobs j.freeTruss j.freeEngines }

/-- A job with no unit held. -/
def Job.unhand (b : Job) : Job := { b with engine := none, shares := b.shares.map fun s => { s with truss := none } }

/-- Whether a share of a job runs: it has its Truss, and the job its engine. -/
def Job.runs (b : Job) (s : Share) : Bool := (jobEngine b.card == 0 || s.truss.isSome) && (b.engine.isSome || !needsEngine b.card)

/-! ## Failure (R439 to R441) -/

/-- A job ends as failed: its record, its handle, its edges released as failures. -/
def failJob (d : Dev) (cl : Nat) (b : Job) (reason region addr : Nat) : Dev :=
  let root := if reason = 6 then b.failedRoot.getD 0 else b.handle.toNat
  let d := report d
    { cls := 0x61, sev := 1, kind := 2, index := cl, ctx := some b.ctx, grid := some b.grid, addr := if reason = 2 ∨ reason = 6 ∨ reason = 8 then 0 else addr,
      d0 := reason * 256 + jobKind b.card * 16 + region, d1 := b.handle.toNat, d2 := root }
  endJob d cl b (.failed reason) (some root)

/-- Whether a team of a context, or a job's ended team, holds a tile (R263, R442). -/
def tileHeld (d : Dev) (ctx core phys : Nat) : Bool :=
  d.keptTiles.contains (core * 8 + phys, ctx)
    || d.teams.any fun t => t.ctx == ctx && t.resident && t.tiles.any fun e =>
        e.2 == phys + 1 && (if t.kernel.pair then t.core + e.1 % 2 else t.core) == core

/-! ## Issue (R288) -/

/-- One job of a queue changed. -/
def Dev.mapJob (d : Dev) (cl seq : Nat) (f : Job → Job) : Dev :=
  let j := d.join cl
  d.setJoin cl { j with jobs := j.jobs.map fun x => if x.seq == seq then f x else x }

/-- Ready jobs whose units are free, by priority and then post order. -/
def issueOrder (j : Join) : List Job := sortBy (fun b => 63 - jobPrio b.card) (j.jobs.filter fun b => b.state == .ready && unitsFree j b.card)

/-- The Joiner's choice under Kerf, going down the order: the first skipped job of the level, and the one that issues (R288, R314,
R319). -/
def chooseJob (fits : Job → Bool) (held : Job → Bool) : List Job → Option Job → Option (Option Job × Job)
  | [], _ => none
  | b :: r, skipped =>
    let skipped := match skipped with | some k => if jobPrio k.card = jobPrio b.card then some k else none | none => none
    if !fits b then chooseJob fits held r (some (skipped.getD b))
    else if held b then chooseJob fits held r skipped
    else some (skipped, b)

/-- A job handed to its engines; one whose card reads as poisoned (reason 4, DEDUCED, log 103), or whose tiles are not held (reason 2),
fails instead (R439). -/
def issueJob (d : Dev) (cl : Nat) (b : Job) : Dev :=
  let base := cl * 16
  if poisoned d 6 (jobWord cl b.slot) 8 then failJob d cl b 4 0 0
  else if (jobTiles b.card).any fun t => !tileHeld d b.ctx (base + t.1) t.2 then
    failJob d cl b 2 ((tileWord (jobKind b.card)).getD 0) 0
  else
    let d := d.mapJob cl b.seq fun x =>
      { x with state := .issued, shares := (List.range (jobShares b.card)).map fun n => ⟨n, none⟩, passes := 0 }
    d.setJoin cl (d.join cl).assign

/-! ## The work of a job -/

/-- The record of a job's engines. -/
def jobRec (cl : Nat) (b : Job) : ErrRec := { cls := 0, sev := 1, kind := 2, index := cl, ctx := some b.ctx, grid := some b.grid }

/-- The engine of a job. -/
def jobEng (cl : Nat) (b : Job) (cut : Bool) : Eng :=
  { ctx := b.ctx, core := b.core, team := b.team, who := .job cl b.seq, base := jobRec cl b, cut }

/-- The completion word's store (R92): none where its granule does not belong to the context. -/
def storeWord (d : Dev) (b : Job) : Option Dev :=
  let off := field (cardWord b.card 1) 29 0
  match dieOffset (dieOf b.core) off with
  | some p =>
    let k := scrKey p.1 p.2
    if granuleOk d b.ctx true k then some (wakeWords (Loc.write d none 0 8 (field (cardWord b.card 1) 63 32) (.scr k)) k 8) else none
  | none => none

/-- A finding carried out; a translation fault halts the context too (R439). -/
def findFailure (d : Dev) (cl : Nat) (b : Job) (reason addr : Nat) : Dev :=
  let d := failJob d cl b (reason % 16) (reason / 16) addr
  if reason % 16 = 7 then contextError d { jobRec cl b with cls := 0x41, sev := 2, addr } else d

/-- The card word of the region that holds an address; 0 where none does. -/
def regionAt (c : List DWord) (a : Nat) : Nat :=
  ((footprint c).find? fun s => regAddr (cardWord c s.word) ≤ a && decide (a < regAddr (cardWord c s.word) + s.len)).elim 0 (·.word)

/-- Whether requests of a job to another package are not yet answered (R116, R126). -/
def jobSending (d : Dev) (cl seq : Nat) : Bool :=
  let mine (a : Access) : Bool := a.who == .job cl seq
  d.reqs.any mine || (d.side.any fun e => mine e.access) || (d.acks.any fun a => a.who == .job cl seq)
    || d.outs.any fun o => o.2.sent.any fun x => mine x.access

/-- A job whose work is done and whose every request is answered: completed, its completion word stored first; or failed, where an answer
was unreachable or the word's granule is not its context's (R92, R126, R287, R439). -/
def finishJob (d : Dev) (cl : Nat) (b : Job) : Dev :=
  match b.lost with
  | some a => failJob d cl b 5 (regionAt b.card a) a
  | none =>
    if jobCw b.card then
      match storeWord d b with
      | some d => endJob d cl b .completed none
      | none => failJob d cl b 3 0 (0xFC * 2 ^ 56 + field (cardWord b.card 1) 29 0)
    else endJob d cl b .completed none

/-- The jobs of a cluster that only waited for answers end; what is free goes to those that wait for units. -/
def settleJoin (d : Dev) (cl : Nat) : Dev :=
  let d := ((d.join cl).jobs.filter fun b => b.state == .issued && b.drain && !jobSending d cl b.seq).foldl (fun d b => finishJob d cl b) d
  d.setJoin cl (d.join cl).assign

/-- Every cluster's queue brought up to date. -/
def settleJoins (d : Dev) : Dev := (d.joins.map (·.1)).foldl settleJoin d

/-- What a job's work comes to: done, a failure, or a wait. -/
def workOut (d : Dev) (cl : Nat) (b : Job) (cut : Bool) : Option (Nat × Nat) × Dev :=
  match (runJob (jobEng cl b cut) b.card).on d with
  | (.ok _, d) => (none, settleJoin (d.mapJob cl b.seq fun x => { x.unhand with shares := [], drain := true }) cl)
  | (.error (.fail r a), d) => (some (r, a), d)
  | (.error (.page va l r need e), _) =>
    let d := pageFaultRecord d b.ctx va l r need 6 e (jobRec cl b)
    (none, d.mapJob cl b.seq fun x => { x.unhand with state := .paged (va / 4096) })
  | (.error .later, _) => (none, d)

/-- SHARE_COMPLETE (R287, R291): the first running share of an issued job ends and its Truss is free; at the last one the job's accesses are
all made (DESIGN CHOICE, log 24). -/
def execShareComplete (cluster slot : Nat) (s : State) : Host.Outcome State Fault Refusal :=
  s.onDev fun d =>
    match (d.join cluster).jobs.find? fun b => b.slot == slot && b.state == .issued && !b.drain with
    | none => d
    | some b =>
      match b.shares.find? b.runs with
      | none => d
      | some x =>
        if 1 < b.shares.length then
          let d := d.mapJob cluster b.seq fun y => { y with shares := y.shares.filter (· != x) }
          d.setJoin cluster (d.join cluster).assign
        else
          match workOut d cluster b false with
          | (none, d) => d
          | (some (r, a), d) => findFailure d cluster b r a

/-- JOB_FAIL (R440) with the reason its agent found. Reason 6: every predecessor released, one of them failed. Reason 8: its context
has halted while it waits on a page fault. Otherwise the job's work meets that finding; for reason 5 its requests to other packages
are answered unreachable. -/
def execJobFail (cluster slot reason : Nat) (s : State) : Host.Outcome State Fault Refusal :=
  s.onDev fun d =>
    match (d.join cluster).jobs.find? fun b => b.slot == slot && b.state.status.isNone with
    | none => d
    | some b =>
      match b.state with
      | .waiting => if reason = 6 && b.preds.isEmpty && b.failedRoot.isSome then failJob d cluster b 6 0 0 else d
      | .paged _ => if reason = 8 && !bitOf (ctxWord d b.ctx 0).toNat 63 then failJob d cluster b 8 0 0 else d
      | .issued =>
        if b.drain then d
        else
          match workOut d cluster b (reason == 5) with
          | (some (r, a), d') => if r % 16 = reason then findFailure d' cluster b r a else d
          | _ => d
      | _ => d

end Sys2Proof.Machine
end

