-- ==== Sys2Proof/Machine/Tiles.lean ====
section
/-! DEFINITION. Tile registers (R261 to R265), and the accesses that reach their ordering point: a die's port, a core's team memory, a
tile. -/

namespace Sys2Proof.Machine

/-- The team tile index an operand names. -/
def tileIndex (o : Operand) : Nat := match o with | .reg .t _ _ i => i.toNat | _ => 0

/-- The core that holds a team's tile i (R261). -/
def Team.tileCore (t : Team) (i : Nat) : Nat := if t.kernel.pair then t.core + i % 2 else t.core

/-- Physical tile that a team holds under an index. -/
def Team.tile? (t : Team) (i : Nat) : Option Nat := match AMap.get 0 t.tiles i with | 0 => none | n => some (n - 1)

/-- Whether a physical tile of a core is taken. -/
def physTaken (d : Dev) (core phys : Nat) : Bool :=
  (d.keptTiles.any fun k => k.1 == core * 8 + phys)
    || d.teams.any fun t => t.resident && t.tiles.any fun e => e.2 == phys + 1 && t.tileCore e.1 == core

/-- The lowest free tile of a core. -/
def freeTile (d : Dev) (core : Nat) : Option Nat := (List.range 8).find? fun p => !physTaken d core p

/-- A tile given to a team: zero, and not valid, dirty or in flight. -/
def grantTile (d : Dev) (team core i phys : Nat) : Dev :=
  let k := tileKey core phys 0
  { d.mapTeam team fun t => { t with tiles := AMap.set 0 t.tiles i (phys + 1) } with
    tiles := Memory.clear d.tiles k 65536
    poison := unpoison d 3 k 65536
    tileStat := AMap.set 0 d.tileStat (core * 8 + phys) 0 }

/-- A team's tile freed. -/
def freeTileOf (d : Dev) (team i : Nat) : Dev := d.mapTeam team fun t => { t with tiles := AMap.set 0 t.tiles i 0 }

/-- The issuing thread's team as it stands. -/
def Env.team? (e : Env) (d : Dev) : Option Team := match e.own with | some (t, _) => d.team? t.id | none => none

/-- The tile trap (R242, R386). -/
def tileCheck (o : Operand) (e : Env) : Option Trap :=
  match e.own with
  | some (t, _) =>
    if (t.tile? (tileIndex o)).isSome then none
    else some { cause := 0x07, fpc := e.h.pc.toNat, resume := e.h.pc.toNat, detail := tileIndex o }
  | none => none

/-- `tacq` (R261): once for the run; every thread with a true guard gets the same answer. -/
def execTacq (c : Ctl) (d a b : Operand) (s : State) : Host.Outcome State Fault Refusal :=
  let i : Instr := .tacq c d a b
  s.onDev fun m =>
    let answer (m : Dev) (v : Bool) : Dev := (eachThread i noCheck (fun e w m => writeOut i (predOut v) e w m) m).closeWindow i
    match actor i m with
    | none => passRun i m
    | some p =>
      match p.2.own with
      | none => m
      | some (t, _) =>
        let n := tileIndex a
        if (t.tile? n).isSome then answer m true
        else
          match freeTile m (t.tileCore n) with
          | some k => answer (grantTile m t.id (t.tileCore n) n k) true
          | none => answer m false

/-- `trel` (R262): held while the tile is in flight. -/
def execTrel (c : Ctl) (d a b : Operand) (s : State) : Host.Outcome State Fault Refusal :=
  let i : Instr := .trel c d a b
  s.onDev fun m =>
    let n := tileIndex a
    match actor i m with
    | none => passRun i m
    | some p =>
      match p.2.own with
      | none => m
      | some (t, _) =>
        match t.tile? n with
        | some k =>
          if tileInflight m (t.tileCore n) k then holdGroup m p.1 (.trel n)
          else uniformOnce i noCheck (fun _ w m => (freeTileOf m t.id n).pass i w) m
        | none => uniformOnce i (tileCheck a) (fun _ w m => m.pass i w) m

/-- The word that `tstat` reads (R263). -/
def tileWord32 (d : Dev) (core phys : Nat) : Nat :=
  core % 16 * 2 ^ 16 + phys * 2 ^ 8 + b2n (tileInflight d core phys) * 4 + AMap.get 0 d.tileStat (core * 8 + phys) % 4

/-- `tstat` (R263). -/
def execTstat (c : Ctl) (d a b : Operand) (s : State) : Host.Outcome State Fault Refusal :=
  let i : Instr := .tstat c d a b
  s.onDev fun m => (eachThread i (tileCheck a) (fun e w m =>
    match e.own with
    | some (t, _) =>
      let n := tileIndex a
      writeOut i { val := tileWord32 e.d (t.tileCore n) ((t.tile? n).getD 0), mask := 2 ^ 32 - 1 } e w m
    | none => m) m).closeWindow i

/-- The key of packet q of a thread's tile (R264). -/
def packetKey (t : Team) (n q : Nat) : Nat := tileKey (t.tileCore n) ((t.tile? n).getD 0) (32 * (q % 2048))

/-- `tld` (R264): an access on its way to the tile, and a result of long latency. -/
def execTld (c : Ctl) (d a b : Operand) (s : State) : Host.Outcome State Fault Refusal :=
  let i : Instr := .tld c d a b
  s.onDev (longEach i (tileCheck a) fun k e w m =>
    match w, e.own with
    | .thr r, some (t, _) =>
      let (res, m) := newResult m r (destOf e .pktDst d) none (2 ^ 256 - 1) k
      let (id, m) := m.freshId
      (sendLocal m (mkAccess e id r 3 0 (packetKey t (tileIndex a) (srcC e b)) (.load 32) none (some res))).pass i w
    | _, _ => m)

/-- `tst` (R264): D names the tile and A the packet. -/
def execTst (c : Ctl) (d a b : Operand) (s : State) : Host.Outcome State Fault Refusal :=
  let i : Instr := .tst c d a b
  s.onDev (eachThread i (tileCheck d) fun e w m =>
    match w, e.own with
    | .thr r, some (t, _) =>
      let (id, m) := m.freshId
      (sendLocal m (mkAccess e id r 3 0 (packetKey t (tileIndex d) (srcC e b)) (.store 32 (e.packet 32 .int a)) none none)).pass i w
    | _, _ => m)

/-! ## Accesses that reach their ordering point -/

/-- Whether the team that made an access is saved: the access goes on when the team is back (R444). -/
def issuerSaved (d : Dev) (w : Issuer) : Bool :=
  match w with
  | .thread r _ => (d.team? r.team).any fun t => !t.resident
  | _ => false

/-- A thread's access reaches its tile: it waits while the tile is in flight (R265). A tile the context holds no more reads as zero and
takes nothing; one that was freed and granted again in the context is acted on (DESIGN CHOICE, log 127). -/
def tileArrival (d : Dev) (a : Access) : Dev :=
  let core := a.key / 2 ^ 19
  let phys := a.key / 2 ^ 16 % 8
  if behindOwn d d.scrWrites a || heldBy d a.after || tileInflight d core phys || issuerSaved d a.who then d
  else
    let d := { d with scrWrites := d.scrWrites.filter fun x => x.id != a.id }
    let held := tileHeld d a.ctx core phys
    let d := match a.kind with
      | .store n v =>
        if held then
          { d with
            tiles := Memory.writeN d.tiles a.key n v, poison := unpoison d 3 a.key n
            tileStat := AMap.set 0 d.tileStat (core * 8 + phys) 3 }
        else d
      | .load n =>
        if held && poisoned d 3 a.key n then poisonAccess d a
        else match a.result with
          | some r => setResult d r (if held then Memory.readN d.tiles a.key n else 0)
          | none => d
      | _ => d
    progressIssuer d a.who

/-- DIE_PORT_WRITE (R93, R109, R265): one access reaches its ordering point. -/
def execDiePortWrite (id : Nat) (s : State) : Host.Outcome State Fault Refusal :=
  s.onDev fun d =>
    match d.scrWrites.find? fun a => a.id == id with
    | some a => if a.space = 3 then tileArrival d a else portWrite d id
    | none => d

end Sys2Proof.Machine
end

