-- ==== Sys2Proof/Machine/EvCore.lean ====
section
/-! DEFINITION. Events of the cores: regroup, lanes and active sets, relief cuts, granted register units, the end of groups and teams (R28,
R29, R33, R35 to R38, R47, R442). -/

namespace Sys2Proof.Machine

/-- REGROUP_DONE (R37): the team issues again. -/
def execRegroupDone (team : Nat) (s : State) : Host.Outcome State Fault Refusal :=
  s.onDev fun d => d.mapTeam team fun t => if t.stat = .regrouping then { t with stat := .running } else t

/-- LANE_RUN_LIMIT (R28): after 64 runs in a row a lane gives up its group when another waits for a lane. -/
def execLaneRunLimit (core lane : Nat) (s : State) : Host.Outcome State Fault Refusal :=
  s.onDev fun d =>
    let l := d.bay core (lane / 4)
    match l.find? fun p => p.2.laneNo == some lane && decide (64 ≤ p.2.runs) with
    | some p =>
      if l.any fun q => q.2.active.isSome && q.2.laneNo.isNone && q.2.canRun then d.mapGroup p.1 p.2.gid (Group.giveLane d.cycle) else d
    | none => d

/-- ACTIVE_TIME_LIMIT (R29): after 4,096 active cycles a group leaves the active set when a pending group is ready. -/
def execActiveTimeLimit (core gslot : Nat) (s : State) : Host.Outcome State Fault Refusal :=
  s.onDev fun d =>
    let l := d.bay core (gslot % 2)
    match l.find? fun p => p.2.gslot == gslot with
    | some p =>
      match p.2.active with
      | some c =>
        if c + 4096 ≤ d.cycle && l.any fun q => q.2.active.isNone && q.2.since.isSome then
          d.mapGroup p.1 p.2.gid fun g => { g.leave with since := some d.cycle }
        else d
      | none => d
    | none => d

/-- The group in a slot of a running team changed. -/
def Dev.mapSlot (d : Dev) (core gslot : Nat) (f : Group → Group) : Dev :=
  match d.inSlot core gslot with
  | some (t, g) => d.mapGroup t.id g.gid f
  | none => d

/-- RELIEF_CUT (R38): the 1,024th counted branch lets the ready threads beyond its PC run. -/
def execReliefCut (core gslot : Nat) (s : State) : Host.Outcome State Fault Refusal :=
  s.onDev fun d => d.mapSlot core gslot fun g =>
    if g.cut.isNone && decide (1024 ≤ g.relief) then { g with cut := some (g.reliefPc, 1024) } else g

/-- RELIEF_CUT_END (R38). -/
def execReliefCutEnd (core gslot : Nat) (s : State) : Host.Outcome State Fault Refusal :=
  s.onDev fun d => d.mapSlot core gslot fun g => if g.cutOver then { g with cut := none, relief := 0 } else g

/-- RACQ_GRANT (R47): the oldest blocked request of a core is granted when its units are free; its head run goes on. -/
def execRacqGrant (core : Nat) (s : State) : Host.Outcome State Fault Refusal :=
  s.onDev fun d =>
    match d.racq.find? fun r => r.1 == core with
    | none => d
    | some r =>
      match d.team? r.2.1, d.group? r.2.1 r.2.2 with
      | some t, some g =>
        match g.block with
        | some (.racq n _ lanes) =>
          if t.kernel.width * 64 * n ≤ freeSlots d core then
            let d := grantUnits { d with racq := d.racq.filter fun x => x != r } t.id g.gid n
            d.mapGroup t.id g.gid fun g =>
              { g with
                block := none
                threads := g.threads.map fun h => if lanes.contains h.lane && h.st == .ready then h.advance else h }
          else d
        | _ => { d with racq := d.racq.filter fun x => x != r }
      | _, _ => { d with racq := d.racq.filter fun x => x != r }

/-! ## The end of groups and teams -/

/-- A context's last team has left a core: its shading-cache entries there are discarded (R273), its partials merged (R332). -/
def leaveCore (d : Dev) (ctx core : Nat) : Dev :=
  if d.teams.any fun t => t.ctx == ctx && t.resident && (t.core == core || (t.kernel.pair && t.core + 1 == core)) then d
  else
    mergePartials { d with shc := d.shc.filter fun e => !(e.ctx == ctx && e.core == core) }
      fun p => p.core == core && p.ctx == ctx

/-- A team leaves its core or its pair. -/
def leaveCores (d : Dev) (t : Team) : Dev :=
  let d := leaveCore d t.ctx t.core
  if t.kernel.pair then leaveCore d t.ctx (t.core + 1) else d

/-- Tiles of a team that jobs still name stay with its context until the jobs are final (R442). -/
def keepTiles (d : Dev) (t : Team) : Dev :=
  { d with keptTiles := d.keptTiles ++ (t.tiles.filterMap fun e =>
      let core := t.tileCore e.1
      if tileInflight d core (e.2 - 1) then some (core * 8 + (e.2 - 1), t.ctx) else none) }

/-- Grids that fitted nowhere and may use a die are tried again (R315). -/
def reopenGrids (d : Dev) (die : Nat) : Dev :=
  { d with grids := d.grids.map fun g =>
      if g.out && (g.kernel.affinity == none || g.kernel.affinity == some die) then { g with out := false } else g }

/-- A team whose groups have all ended leaves its core; its grid counts it (R33). -/
def endTeam (d : Dev) (t : Team) : Dev :=
  let d := keepTiles d t
  let d := { d with
    teams := d.teams.filter fun x => x.id != t.id
    racq := d.racq.filter fun r => r.2.1 != t.id
    watch := d.watch.filter fun v => match v.who with | .thread r _ => r.team != t.id | _ => true
    qops := d.qops.filter fun q => !(q.waiting && q.who.team == t.id)
    barWait := d.barWait.filter fun r => r.team != t.id }
  leaveCores (reopenGrids (d.mapGrid t.grid fun g => { g with ended := g.ended + 1 }) (dieOf t.core)) t

/-- GROUP_END (R33): all threads exited and everything gone from the core: the group's registers are free; with its last group the
team ends. -/
def execGroupEnd (team gid : Nat) (s : State) : Host.Outcome State Fault Refusal :=
  s.onDev fun d =>
    match d.team? team, d.group? team gid with
    | some t, some g =>
      if t.stat != .running || g.ended || !(g.threads.all fun h => h.st == .exited) || !groupQuiet d team gid then d
      else
        let d := d.mapGroup team gid fun g => { g.leave with ended := true, units := 0, block := none, cut := none }
        match d.team? team with
        | some t => if t.groups.all (·.ended) then endTeam d t else d
        | none => d
    | _, _ => d

end Sys2Proof.Machine
end

