-- ==== Sys2Proof/Machine/Place.lean ====
section
/-! DEFINITION. Where teams go: curves (R20 to R22), cluster orders (R23, R89, R316), the resources of a core (R18, R19, R84), `choose`
with Kerf (R314, R319), and the bytes that a save keeps (R321). -/

namespace Sys2Proof.Machine

/-! ## Curves (R20 to R22) -/

/-- The least power of two that is at least `m`. -/
def pow2Above (m : Nat) : Nat := if m ≤ 1 then 1 else 2 ^ (Nat.log2 (m - 1) + 1)

/-- `hilbert(n, k)` of R21 from its variables x, y, q and s; the first argument counts the rounds left. -/
def hilbertFrom : Nat → Nat → Nat → Nat → Nat → Nat × Nat
  | 0, _, _, x, y => (x, y)
  | r + 1, s, q, x, y =>
    let rx := q / 2 % 2
    let ry := Nat.xor q rx % 2
    let p := if ry = 0 then (if rx = 1 then (s - 1 - y, s - 1 - x) else (y, x)) else (x, y)
    hilbertFrom r (2 * s) (q / 4) (p.1 + s * rx) (p.2 + s * ry)

/-- The bits of k at even places, as a number. -/
def evenBits (k : Nat) : Nat := (List.range 32).foldl (fun v i => v + b2n (bitOf k (2 * i)) * 2 ^ i) 0

/-- Points of one plane of a curve, those outside the grid included. -/
def planePoints (k : Kernel) (x y : Nat) : Nat :=
  match k.curve with
  | 0 => x * y
  | 3 => 16 * ceilDiv x 4 * ceilDiv y 4
  | _ => pow2Above (max x y) * pow2Above (max x y)

/-- Point `p` of a plane. -/
def planePoint (k : Kernel) (x y p : Nat) : Nat × Nat :=
  match k.curve with
  | 0 => (p % x, p / x)
  | 1 => (evenBits p, evenBits (p / 2))
  | 2 => hilbertFrom (Nat.log2 (pow2Above (max x y))) 1 p 0 0
  | _ =>
    let e := field k.swizzle (4 * (p % 16) + 3) (4 * (p % 16))
    let b := p / 16
    (4 * (b % ceilDiv x 4) + e % 4, 4 * (b / ceilDiv x 4) + e / 4)

/-- The first point from `p` on that lies in the grid; the first argument bounds the points looked at. -/
def nextInside (g : Grid) : Nat → Nat → Option Nat
  | 0, _ => none
  | n + 1, p =>
    let q := planePoint g.kernel g.gx g.gy (p % planePoints g.kernel g.gx g.gy)
    if q.1 < g.gx && q.2 < g.gy then some p else nextInside g n (p + 1)

/-- The point of the grid's next team in dispatch order, and its team index (R20). -/
def Grid.nextTeam (g : Grid) : Option (Nat × Nat × Nat × Nat) :=
  let n := planePoints g.kernel g.gx g.gy
  (nextInside g (n * g.gz - g.next) g.next).map fun p =>
    let q := planePoint g.kernel g.gx g.gy (p % n)
    (p, q.1, q.2, p / n)

/-! ## Cluster orders (R316, R23) -/

/-- The cluster order of a launch. -/
def clusterOrder (g : Grid) : List Nat :=
  let start := field ((g.entry.getD 6 0).toNat) 5 0 % 40
  match g.kernel.affinity with
  | some n => (List.range 5).map fun c => 5 * n + (start % 5 + c) % 5
  | none => (List.range 40).map fun c => (start + c) % 40

/-- Priority of a team's grid. -/
def Dev.prioOf (d : Dev) (t : Team) : Nat := ((d.grid? t.grid).map (·.prio)).getD 0

/-- The cores that a team holds. -/
def Team.cores (t : Team) : List Nat := if t.kernel.pair then [t.core, t.core + 1] else [t.core]

/-- Whether every core of a cluster holds a team of higher priority. -/
def clusterBusy (d : Dev) (prio c : Nat) : Bool :=
  (List.range 16).all fun k => d.teams.any fun t => t.resident && t.cores.contains (16 * c + k) && decide (prio < d.prioOf t)

/-- Clusters without those that a grid of priority 48 or above skips (R316). -/
def skipBusy (d : Dev) (g : Grid) (l : List Nat) : List Nat := if 48 ≤ g.prio then l.filter fun c => !clusterBusy d g.prio c else l

/-- The clusters in the order in which a grid's next placement tries them: from its current one on, wrapping (R23, R316). -/
def searchOrder (d : Dev) (g : Grid) : List Nat :=
  let o := clusterOrder g
  let at_ := match g.cluster with | some c => (o.findIdx? (· == c)).getD 0 | none => 0
  skipBusy d g (o.drop at_ ++ o.take at_)

/-- First cores of the places in a cluster: its cores, or its pairs. -/
def clusterPlaces (pair : Bool) (c : Nat) : List Nat :=
  if pair then (List.range 8).map fun k => 16 * c + 2 * k else (List.range 16).map fun k => 16 * c + k

/-! ## Free resources of a core (R18, R84) -/

/-- Core and bay of group g of a team on a core or pair (R19). -/
def groupCore (k : Kernel) (core gid : Nat) : Nat := if k.pair then core + gid % 2 else core
def groupBay (k : Kernel) (gid : Nat) : Nat := if k.pair then gid / 2 % 2 else gid % 2

/-- Groups that live on a core, with their kernels. -/
def Dev.liveOn (d : Dev) (core : Nat) : List (Kernel × Group) :=
  (d.teams.filter (·.resident)).flatMap fun t =>
    (t.groups.filter fun g => g.core == core && !g.ended).map fun g => (t.kernel, g)

/-- Team memory taken on a core: first byte and length of each piece. -/
def tmemTaken (d : Dev) (core : Nat) : List (Nat × Nat) :=
  (d.teams.filter (·.resident)).flatMap fun t =>
    ((t.declared core).1, if t.cores.contains core then (if t.kernel.pair then pairSplit t.kernel else t.kernel.tmem) else 0)
      :: ((t.groups.filter fun g => g.core == core).map fun g =>
      (AMap.get 0 t.stkBase g.gid, t.kernel.stackT * t.kernel.width))

/-- Whether two ranges of bytes meet. -/
def meets (a b : Nat × Nat) : Bool := decide (a.1 < b.1 + b.2) && decide (b.1 < a.1 + a.2)

/-- The lowest place for `n` bytes, clear of the taken ranges, among the starts given and the ends of taken ranges. -/
def firstFit (ok : Nat → Bool) (starts : List Nat) (taken : List (Nat × Nat)) (n : Nat) : Option Nat :=
  if n = 0 then some 0
  else (sortBy id (starts ++ taken.map fun r => r.1 + r.2)).find? fun a => ok a && !taken.any fun r => meets r (a, n)

/-- Places for several pieces of one length, one after the other. -/
def fitAll (ok : Nat → Nat → Bool) (starts : List Nat) : List Nat → List (Nat × Nat) → Option (List Nat)
  | [], _ => some []
  | n :: r, taken =>
    match firstFit (ok n) starts taken n with
    | none => none
    | some a => (fitAll ok starts r ((a, n) :: taken)).map (a :: ·)

/-- Places for a piece and for blocks of one length beside it: the first place of the piece that leaves room for the blocks (R18). -/
def fitBeside (top : Nat) (taken : List (Nat × Nat)) (n : Nat) (blocks : List Nat) : Option (List Nat) :=
  let ok (len a : Nat) : Bool := decide (a + len ≤ top)
  let starts := if n = 0 then [0] else (sortBy id (0 :: taken.map fun r => r.1 + r.2)).filter fun a => ok n a && !taken.any fun r => meets r (a, n)
  starts.findSome? fun a => (fitAll ok [0] blocks ((a, n) :: taken)).map (a :: ·)

/-- The spill granules of a context on a die (R84, R88). -/
def spillGranules (d : Dev) (ctx die : Nat) : List Nat :=
  (List.range 1023).filter fun g =>
    let e := (ownerEntry d (scrKey die (65536 * g))).toNat
    bitOf e 31 && bitOf e 28 && e % 1024 == ctx

/-- Bytes of a group's overflow block. -/
def ovfBytes (k : Kernel) : Nat := (k.stackS - k.stackT) * k.width

/-- Overflow blocks of a context on a die: teams keep them while they are saved (R321). -/
def ovfTaken (d : Dev) (ctx die : Nat) : List (Nat × Nat) :=
  (d.teams.filter fun t => t.ctx == ctx && dieOf t.core == die).flatMap fun t =>
    t.groups.map fun g => (AMap.get 0 t.ovfBase g.gid, ovfBytes t.kernel)

/-- Overflow blocks for n groups in the spill pool (R84). -/
def fitOvf (d : Dev) (k : Kernel) (ctx die n : Nat) : Option (List Nat) :=
  if ovfBytes k = 0 then some (List.replicate n 0)
  else
    let pool := spillGranules d ctx die
    let ok (len a : Nat) : Bool := (List.range (ceilDiv (a % 65536 + len) 65536)).all fun j => pool.contains (a / 65536 + j)
    fitAll ok (pool.map (65536 * ·)) (List.replicate n (ovfBytes k)) (ovfTaken d ctx die)

/-- Physical tiles for team indices, each on its tile's core (R18, R261). -/
def fitTiles (d : Dev) (k : Kernel) (core : Nat) : List Nat → List (Nat × Nat) → Option (AMap Nat)
  | [], _ => some []
  | i :: r, used =>
    let c := if k.pair then core + i % 2 else core
    match (List.range 8).find? fun p => !physTaken d c p && !used.contains (c, p) with
    | none => none
    | some p => (fitTiles d k core r ((c, p) :: used)).map fun m => AMap.set 0 m i (p + 1)

/-- Group slots for groups of a team: the lowest free positions of each group's bay. -/
def fitSlots (d : Dev) (k : Kernel) (core : Nat) : List Nat → List (Nat × Nat) → Option (AMap Nat)
  | [], _ => some []
  | gid :: r, used =>
    let c := groupCore k core gid
    let b := groupBay k gid
    match (List.range Config.bayGroups).find? fun p =>
        !((d.liveOn c).any fun x => x.2.gslot == 2 * p + b) && !used.contains (c, 2 * p + b) with
    | none => none
    | some p => (fitSlots d k core r ((c, 2 * p + b) :: used)).map fun m => AMap.set 0 m gid (2 * p + b + 1)

/-- A place for a team on a core or pair: group slots + 1 and bases by group. -/
structure Spot where
  core : Nat
  slots : AMap Nat
  tmBase : Nat
  tmBase2 : Nat
  stk : AMap Nat
  ovf : AMap Nat
  tiles : AMap Nat
  deriving DecidableEq, Repr

/-- Values in order as a map of groups. -/
def byGroup (gids vals : List Nat) : AMap Nat := (gids.zip vals).foldl (fun m p => AMap.set 0 m p.1 p.2) []

/-- What a team asks of a place: its live groups with their units, all its groups, its tile indices, and whether its overflow blocks
are to be found (not for a team that resumes: it keeps its own). -/
structure Need18 where
  live : List (Nat × Nat)
  gids : List Nat
  tiles : List Nat
  ovf : Bool

/-- Whether one core has the threads, registers and memory for its part of a team; the places of the pieces of team memory. -/
def fitCore (d : Dev) (k : Kernel) (n : Need18) (core c : Nat) : Option (List Nat) :=
  let mine := n.live.filter fun g => groupCore k core g.1 == c
  let threads := ((d.liveOn c).map fun x => x.1.width).sum + k.width * mine.length
  if Config.coreThreads < threads || freeSlots d c < (mine.map fun g => groupSlots k g.2).sum then none
  else
    let share := if k.pair then pairSplit k else k.tmem
    let blocks := (n.gids.filter fun g => groupCore k core g == c).map fun _ => k.stackT * k.width
    fitBeside Config.teamBytes (tmemTaken d c) share blocks

/-- R18 and R84 for a team on the core or pair that begins at `core`. -/
def findSpot (d : Dev) (k : Kernel) (ctx : Nat) (n : Need18) (core : Nat) : Option Spot :=
  let on (c : Nat) : List Nat := n.gids.filter fun g => groupCore k core g == c
  match fitCore d k n core core, (if k.pair then fitCore d k n core (core + 1) else some [0]),
      fitSlots d k core (n.live.map (·.1)) [], fitTiles d k core n.tiles [],
      (if n.ovf then fitOvf d k ctx (dieOf core) n.gids.length else some []) with
  | some a, some b, some slots, some tiles, some ovf =>
    some { core, slots, tiles, tmBase := a.getD 0 0, tmBase2 := b.getD 0 0
           stk := (byGroup (on core) a.tail).foldl (fun m p => AMap.set 0 m p.1 p.2) (byGroup (on (core + 1)) b.tail)
           ovf := byGroup n.gids ovf }
  | _, _, _, _, _ => none

/-- What a new team of a kernel needs. -/
def Kernel.need (k : Kernel) : Need18 :=
  { live := (List.range k.groups).map fun g => (g, 0), gids := List.range k.groups, tiles := List.range k.tiles, ovf := true }

/-- What a saved team needs to resume. -/
def Team.need (t : Team) : Need18 :=
  { live := (t.groups.filter fun g => !g.ended).map fun g => (g.gid, g.units), gids := t.groups.map (·.gid)
    tiles := t.tiles.map (·.1), ovf := false }

/-! ## What a grid places next -/

/-- The saved team that a grid resumes next: the one saved first. -/
def Grid.waiting (d : Dev) (g : Grid) : Option Team :=
  (sortBy (·.savedAt) (d.teams.filter fun t => t.grid == g.id && t.stat == .saved)).head?

/-- Whether a team must resume on its own core: a trace outstanding, or a ray slot held (R444). -/
def boundToCore (d : Dev) (t : Team) : Bool := d.rays.any fun r => r.who.team == t.id

/-- The places in some clusters where a grid's next team may go; a saved team stays on its die, or on its core (R41, R444). -/
def placesIn (d : Dev) (g : Grid) (clusters : List Nat) : List Nat :=
  let l := clusters.flatMap (clusterPlaces g.kernel.pair)
  match g.waiting d with
  | some t => if boundToCore d t then [t.core] else l.filter fun c => dieOf c == dieOf t.core
  | none => l

/-- The places where a grid's next team may go, in the order of R23. -/
def placesFor (d : Dev) (g : Grid) : List Nat := placesIn d g (searchOrder d g)

/-- What the grid's next team needs. -/
def needFor (d : Dev) (g : Grid) : Need18 := match g.waiting d with | some t => t.need | none => g.kernel.need

/-- The first place that meets R18. -/
def findPlace (d : Dev) (g : Grid) : Option Spot :=
  let n := needFor d g
  (placesFor d g).findSome? fun c => findSpot d g.kernel g.ctx n c

/-- The die at which a grid stands for `choose`: that of its next team's place, or of the first place it may use. -/
def dieFor (d : Dev) (g : Grid) : Option Nat :=
  match findPlace d g with
  | some p => some (dieOf p.core)
  | none => (placesFor d g).head?.map dieOf

/-- Whether a grid has a team to place or to resume and is not kept out of `choose` (R315). -/
def Grid.hasWork (d : Dev) (g : Grid) : Bool :=
  !g.out && (decide (g.placed < g.gx * g.gy * g.gz) || (g.waiting d).isSome)

/-- The ready items of a die. -/
def readyGrids (d : Dev) (die : Nat) : List Grid := d.grids.filter fun g => g.hasWork d && dieFor d g == some die

/-! ## `choose` with Kerf (R314, R319, R320) -/

/-- Whether an item fits its die's headroom; deadline items always do. -/
def gridFits (d : Dev) (m : Mgmt) (die : Nat) (g : Grid) : Bool :=
  g.deadline.isSome || kerfFits d m die (m.teamMw die g.energy) false

/-- One level of `choose`: the item, and the one skipped before it. -/
def scanLevel (fits barred : Grid → Bool) : List Grid → Option Grid → Option (Grid × Option Grid)
  | [], _ => none
  | i :: r, skipped =>
    if !fits i then scanLevel fits barred r (match skipped with | some s => some s | none => some i)
    else if barred i then scanLevel fits barred r skipped
    else some (i, skipped)

/-- The items of a level in their order: deadline items by deadline, then by queue after the pointer. -/
def levelOrder (d : Dev) (die level : Nat) (l : List Grid) : List Grid :=
  chooseOrder (·.deadline) (fun g => afterPtr d (dieKey die level) g.queue) (l.filter fun g => g.prio == level)

/-- An item that Kerf weighs on a die: a grid, or a ready job of a cluster (R319). -/
inductive Item where
  | grid (id : Nat)
  | job (cluster seq : Nat)
  deriving DecidableEq, Repr

/-- Projected power of what a job issues at once (R317), and whether it fits; a card has no deadline. -/
def jobMw (m : Mgmt) (die : Nat) (b : Job) : Nat := m.shareMw die (jobEnergy b.card) * issuedShares b.card
def jobFits (d : Dev) (m : Mgmt) (die : Nat) (b : Job) : Bool := kerfFits d m die (jobMw m die b) false

/-- The items of a die that have K passes and still do not fit, with their levels (R319). -/
def heldItems (d : Dev) (m : Mgmt) (die : Nat) : List (Item × Nat) :=
  (((readyGrids d die).filter fun g => !gridFits d m die g && decide (m.k ≤ g.passes)).map fun g => (.grid g.id, g.prio))
    ++ (List.range Config.clustersPerDie).flatMap fun c =>
      let cl := Config.clustersPerDie * die + c
      ((d.join cl).jobs.filter fun b => b.state == .ready && !jobFits d m die b && decide (m.k ≤ b.passes)).map fun b =>
        (.job cl b.seq, jobPrio b.card)

/-- Whether the pass bound keeps an item of a level out: another one is held at its level or above (R319). -/
def heldBack (held : List (Item × Nat)) (i : Item) (level : Nat) : Bool := held.any fun h => h.1 != i && decide (level ≤ h.2)

/-- `choose` among the items of a die. -/
def chooseGrid (d : Dev) (m : Mgmt) (die : Nat) : Option (Grid × Option Grid) :=
  let l := readyGrids d die
  let held := heldItems d m die
  let barred (g : Grid) : Bool := g.deadline.isNone && heldBack held (.grid g.id) g.prio
  (List.range 64).findSome? fun n => scanLevel (gridFits d m die) barred (levelOrder d die (63 - n) l) none

/-! ## Pieces of a team's memory (R321) -/

/-- The pieces of memory that a save keeps: space (2 team memory, 3 tile), key of the first byte, length; in a fixed order. -/
def pieces (t : Team) : List (Nat × Nat × Nat) :=
  let k := t.kernel
  let mem := if k.pair then
      [(2, tmemKey t.core t.tmBase, pairSplit k), (2, tmemKey (t.core + 1) t.tmBase2, k.tmem - pairSplit k)]
    else [(2, tmemKey t.core t.tmBase, k.tmem)]
  mem ++ (t.groups.map fun g => (2, tmemKey g.core (AMap.get 0 t.stkBase g.gid), k.stackT * k.width))
    ++ t.tiles.map fun e => (3, tileKey (t.tileCore e.1) (e.2 - 1) 0, 65536)

/-- `n` bytes of a memory from `a`, as a memory from 0. -/
def Memory.cut (m : Memory) (a n : Nat) : Memory :=
  (m.filter fun c => decide (a ≤ c.1) && decide (c.1 < a + n)).map fun c => (c.1 - a, c.2)

/-- `n` bytes from `a` replaced by a memory from 0. -/
def Memory.paste (m : Memory) (a n : Nat) (p : Memory) : Memory :=
  (m.filter fun c => decide (c.1 < a)) ++ ((p.filter fun c => decide (c.1 < n)).map fun c => (c.1 + a, c.2))
    ++ m.filter fun c => decide (a + n ≤ c.1)

/-- The memory of a space. -/
def Dev.space (d : Dev) (s : Nat) : Memory := if s = 3 then d.tiles else if s = 2 then d.tmem else d.scr

def Dev.setSpace (d : Dev) (s : Nat) (m : Memory) : Dev :=
  if s = 3 then { d with tiles := m } else if s = 2 then { d with tmem := m } else { d with scr := m }

/-- A piece as it stands. -/
def keepPiece (d : Dev) (p : Nat × Nat × Nat) : Kept :=
  { mem := Memory.cut (d.space p.1) p.2.1 p.2.2
    bad := (d.poison.filter fun x => x.space == p.1 && decide (p.2.1 / 8 ≤ x.addr) && decide (x.addr < (p.2.1 + p.2.2) / 8)).map
      fun x => x.addr - p.2.1 / 8 }

/-- A piece put at a place; `Kept` of nothing clears it. -/
def putPiece (d : Dev) (p : Nat × Nat × Nat) (k : Kept) : Dev :=
  if p.2.2 = 0 then d
  else
    let d := d.setSpace p.1 (Memory.paste (d.space p.1) p.2.1 p.2.2 k.mem)
    { d with poison := unpoison d p.1 p.2.1 p.2.2 ++ k.bad.map fun w => ⟨p.1, p.2.1 / 8 + w⟩ }

/-- A piece of zeros. -/
def Kept.zero : Kept := { mem := [], bad := [] }

/-- Pieces put at their places, in order. -/
def putPieces (d : Dev) (l : List ((Nat × Nat × Nat) × Kept)) : Dev := l.foldl (fun d p => putPiece d p.1 p.2) d

/-- Bytes that a save of a team takes (R321). -/
def saveBytes (t : Team) : Nat :=
  (t.groups.map fun g => (if g.ended then 0 else 4 * groupSlots t.kernel g.units) + 256).sum
    + t.kernel.tmem + t.kernel.stackT * t.kernel.width * t.groups.length + 65536 * t.tiles.length

end Sys2Proof.Machine
end

