-- ==== Sys2Proof/Machine/EvSched.lean ====
section
/-! DEFINITION. Events of the scheduler: placing, pre-empting and resuming teams (R315, R321, R444), staging (R91), the end of a grid
(R128, R283), the team watchdog (R413 to R415), services and times of queue threads (R312, R313). -/

namespace Sys2Proof.Machine

/-! ## Placing (R18 to R23, R44, R84, R85, R315) -/

/-- A new team of a grid at a place: registers, team memory, stacks and tiles as R44, R84, R85 and R261 give them at launch. -/
def startTeam (d : Dev) (g : Grid) (s : Spot) (p : Nat × Nat × Nat × Nat) : Dev :=
  let k := g.kernel
  let (id, d) := d.freshId
  let t : Team :=
    { id, ctx := g.ctx, grid := g.id, tx := p.2.1, ty := p.2.2.1, tz := p.2.2.2, core := s.core, kernel := k, stat := .staging
      order := id, tmBase := s.tmBase, tmBase2 := s.tmBase2, stkBase := s.stk, ovfBase := s.ovf, tiles := s.tiles, bars := []
      gather := none, waits := [], savedAt := 0, save := none, staged := false, held := false, kept := [], keptStat := []
      groups := (List.range k.groups).map fun gid => Group.launch k gid (groupCore k s.core gid) (AMap.get 0 s.slots gid - 1) }
  let d := putPieces d ((pieces t).map fun x => (x, Kept.zero))
  let d := putPieces d ((List.range k.groups).map fun gid =>
    ((1, scrKey (dieOf s.core) (AMap.get 0 s.ovf gid), ovfBytes k), Kept.zero))
  let d := t.tiles.foldl (fun d e =>
    { d with tileStat := AMap.set 0 d.tileStat (t.tileCore e.1 * 8 + (e.2 - 1)) 0 }) d
  { d with teams := d.teams ++ [t] }.mapGrid g.id fun g =>
    { g with next := p.1 + 1, placed := g.placed + 1, cluster := some (clusterOf s.core), passes := 0 }

/-- The tile accesses of a resumed team find its tiles at their new places (R261, R444). -/
def moveTiles (t u : Team) (a : Access) : Access :=
  match a.who with
  | .thread r _ =>
    if a.space = 3 && r.team == t.id then
      match t.tiles.find? fun e => tileKey (t.tileCore e.1) (e.2 - 1) 0 == a.key / 65536 * 65536 with
      | some e => { a with key := tileKey (u.tileCore e.1) (AMap.get 0 u.tiles e.1 - 1) (a.key % 65536) }
      | none => a
    else a
  | _ => a

/-- The watches of a team's threads name the core on which they now are. -/
def moveWatch (u : Team) (v : Watch) : Watch :=
  match v.who with
  | .thread r _ => if r.team = u.id then { v with who := .thread r (groupCore u.kernel u.core r.gid) } else v
  | _ => v

/-- A saved team back at a place: its bytes are restored, its groups live on the new core (R41, R261, R321). -/
def resumeTeam (d : Dev) (g : Grid) (t : Team) (s : Spot) : Dev :=
  let (order, d) := d.freshId
  let u : Team :=
    { t with
      core := s.core, tmBase := s.tmBase, tmBase2 := s.tmBase2, stkBase := s.stk, tiles := s.tiles, stat := .restoring, order := order
      kept := [], keptStat := []
      groups := t.groups.map fun x =>
        { x with core := groupCore t.kernel s.core x.gid, gslot := if x.ended then x.gslot else AMap.get 0 s.slots x.gid - 1 } }
  let d := putPieces d ((pieces u).zip t.kept)
  let d := u.tiles.foldl (fun d e =>
    { d with tileStat := AMap.set 0 d.tileStat (u.tileCore e.1 * 8 + (e.2 - 1)) (AMap.get 0 t.keptStat e.1) }) d
  let d := { d with scrWrites := d.scrWrites.map (moveTiles t u), watch := d.watch.map (moveWatch u) }
  (d.mapTeam t.id fun _ => u).mapGrid g.id fun g => { g with cluster := some (clusterOf s.core), passes := 0 }

/-! ## Pre-emption (R321, R443) -/

/-- Whether a job names a team's tiles, or its team memory through a team or peer region (R443). -/
def jobNamesTeam (d : Dev) (t : Team) (b : Job) : Bool :=
  (t.tiles.any fun e =>
      clusterOf b.core == clusterOf (t.tileCore e.1) && (jobTiles b.card).contains (t.tileCore e.1 % 16, e.2 - 1))
    || (footprint b.card).any fun s =>
      let w := cardWord b.card s.word
      (regAp w == 4 && b.team == t.id && (d.team? b.team).isSome)
        || (regAp w == 3 && t.cores.any fun c =>
          clusterOf c == clusterOf b.core && c % 16 == field (regOff w) 22 19 && t.ctx == b.ctx
            && meets (t.declared c) (regOff w % 2 ^ 19, s.len))

/-- A team with a tile in flight, as R443 extends it. -/
def teamInFlight (d : Dev) (t : Team) : Bool :=
  (d.joins.any fun j => j.2.jobs.any fun b => b.state.status.isNone && jobNamesTeam d t b)
    || d.cards.any fun c => jobNamesTeam d t c.job

/-- The range of the save area that a save of a team takes: the lowest free offset that holds it, in units of 4 KiB (R321). -/
def saveRange (d : Dev) (t : Team) : Option (Nat × Nat) :=
  let n := ceilDiv (saveBytes t) 4096 * 4096
  let area := field (ctxAt d t 6).toNat 63 32
  let taken := (d.teams.filter fun x => x.ctx == t.ctx).filterMap (·.save)
  (firstFit (fun a => decide (a + n ≤ area)) [0] taken n).map fun a => (a, n)

/-- Whether a team may be taken as a victim: it is on its core, and is neither being saved nor halting (R321). -/
def Team.takable (t : Team) : Bool :=
  match t.stat with
  | .staging | .running | .regrouping | .restoring => true
  | .saving | .saved | .halting => false

/-- Teams of strictly lower priority on some cores, in the order in which they are taken: no tile in flight first, then priority
ascending, then the team placed last. -/
def victims (d : Dev) (prio : Nat) (cores : List Nat) : List (Bool × Team) :=
  let l := d.teams.filter fun t => t.takable && decide (d.prioOf t < prio) && t.cores.any fun c => cores.contains c
  let l := ((sortBy (·.order) l).reverse).map fun t => (teamInFlight d t, t)
  sortBy (fun p => b2n p.1 * 64 + d.prioOf p.2) l

/-- Victims taken one after the other until the team fits; those with no free save range are passed over. -/
def takeVictims (fits : Dev → Bool) : List Team → Dev → Option (List (Nat × Nat × Nat))
  | [], _ => none
  | t :: r, d =>
    match saveRange d t with
    | none => takeVictims fits r d
    | some s =>
      let d := d.mapTeam t.id fun t => { t with stat := .saved, save := some s }
      if fits d then some [(t.id, s)] else (takeVictims fits r d).map ((t.id, s) :: ·)

/-- The victims that make room for a grid's next team, on the first core of its cluster order where such victims do: none where no victims
suffice; the empty list where saves that run already will make room. -/
def findVictims (d : Dev) (g : Grid) : Option (List (Nat × Nat × Nat)) :=
  let n := needFor d g
  let places := placesIn d g (skipBusy d g (clusterOrder g))
  let d := { d with teams := d.teams.map fun t => if t.stat = .saving then { t with stat := .saved } else t }
  let fits (c : Nat) (d : Dev) : Bool := (findSpot d g.kernel g.ctx n c).isSome
  if places.any fun c => fits c d then some []
  else
    places.findSome? fun c =>
      let l := victims d g.prio (if g.kernel.pair then [c, c + 1] else [c])
      match takeVictims (fits c) ((l.filter fun p => !p.1).map (·.2)) d with
      | some v => some v
      | none => takeVictims (fits c) (l.map (·.2)) d

/-- A team that stops issuing to be saved. -/
def Team.beginSave (s : Nat × Nat) (t : Team) : Team :=
  { t with stat := .saving, save := some s, groups := t.groups.map Group.leave }

/-- The grid that `choose` named: its next team placed; or room made by saves; or the grid kept out until a team ends (R315). -/
def placeGrid (d : Dev) (m : Mgmt) (g : Grid) : Dev :=
  let fail (d : Dev) (out : Bool) : Dev := d.mapGrid g.id fun g => { g with cluster := none, out := out }
  match findPlace d g with
  | some s =>
    let die := dieOf s.core
    let d := kerfAdmit d die (m.teamMw die g.energy)
    let d := d.setKerf die { d.kerfAt die with gated := false }
    match g.waiting d, g.nextTeam with
    | some t, _ => resumeTeam d g t s
    | none, some p => startTeam d g s p
    | none, none => d
  | none =>
    match findVictims d g with
    | none => fail d true
    | some l => l.foldl (fun d v => d.mapTeam v.1 (Team.beginSave v.2)) (fail d false)

/-- JOB_ISSUE (R288): the Joiner issues the job that Kerf admits; not in a thermal emergency (R451), and not while an item of the die that
does not fit holds back its level (R319). -/
def execJobIssue (cluster : Nat) (s : State) : Host.Outcome State Fault Refusal :=
  s.onDev fun d =>
    let die := cluster / Config.clustersPerDie
    if !s.mgmt.places || (d.kerfAt die).emergency then d
    else
      let held := heldItems d s.mgmt die
      match chooseJob (jobFits d s.mgmt die) (fun b => heldBack held (.job cluster b.seq) (jobPrio b.card)) (issueOrder (d.join cluster)) none with
      | none => d
      | some (skipped, b) =>
        let d := match skipped with
          | some k => d.mapJob cluster k.seq fun x => { x with passes := x.passes + 1 }
          | none => d
        issueJob (kerfAdmit d die (jobMw s.mgmt die b)) cluster b

/-- TEAM_PLACEMENT (R315): the scheduler of a die chooses a grid by R314 and places its next team; not in a thermal emergency
(R451). -/
def execTeamPlacement (die : Nat) (s : State) : Host.Outcome State Fault Refusal :=
  s.onDev fun d =>
    if !s.mgmt.places || (d.kerfAt die).emergency then d
    else
      match chooseGrid d s.mgmt die with
      | none => d
      | some (g, skipped) =>
        let d := match skipped with
          | some i => d.mapGrid i.id fun g => { g with passes := g.passes + 1 }
          | none => setPtr d (dieKey die g.prio) g.queue
        placeGrid d s.mgmt g

/-! ## Saves and restores (R226, R321, R411, R444) -/

/-- Bytes as a memory from 0. -/
def Memory.ofBytes (l : List Byte) : Memory := ((List.range l.length).zip l).filter fun c => c.2 != Memory.unlisted

/-- A list of bytes put at a place, with the poison that they cover gone; nothing reaches a host whose port is lost (R433). -/
def Place.paste (d : Dev) (l : List Byte) : Place → Dev
  | .hbm k => { d with hbm := Memory.paste d.hbm k l.length (Memory.ofBytes l), poison := unpoison d 0 k l.length }
  | .host k => if d.isLost (k / 2 ^ 52) then d else { d with host := Memory.paste d.host k l.length (Memory.ofBytes l) }

/-- A list of bytes put at device-physical addresses of one frame: partials of their lines merged and read copies gone (R332), during a
move at source and destination both (R106). With the tier's port lost they are discarded, and one record made (R433; log 119). -/
def physPaste (d : Dev) (base : ErrRec) (pa : Nat) (l : List Byte) : Dev :=
  if tierLost d d.isLost pa then report d { base with cls := 0x4B, sev := 1, addr := pa, d0 := 1 }
  else
    let mine (line : Nat) : Bool := lineOf pa ≤ line && line ≤ lineOf (pa + l.length - 1)
    let d := mergePartials d fun p => mine (lineOf p.addr)
    let d := tidyNear { d with shared := d.shared.filter fun s => !mine s.1 }
    match readPlace d pa with
    | none => d
    | some p =>
      let d := p.paste d l
      let d := match dualPlace d pa with | some q => q.paste d l | none => d
      { d with poison := unpoison d 5 pa l.length }

/-- `n` device-physical bytes from `pa` that become free values (DESIGN CHOICE, log 3): the spec does not lay out a save. -/
def physFree (d : Dev) (base : ErrRec) (pa n : Nat) : Dev :=
  let l := (List.range n).map fun i => Config.freeByte (d.fresh + i)
  (List.range (ceilDiv (pa % 65536 + n) 65536)).foldl (fun d j =>
    let first := if j = 0 then pa else (pa / 65536 + j) * 65536
    physPaste d base first ((l.drop (first - pa)).take (65536 - first % 65536))) { d with fresh := d.fresh + n }

/-- What a save waits for (R226, R443, R444): local accesses but those to tiles, the results of local loads and atomics, queue operations
that have not come to wait, or whose refusal is on its way, and jobs that name the team. -/
def saveReady (d : Dev) (t : Team) : Bool :=
  !(d.scrWrites.any fun a => a.space != 3 && match a.who with | .thread r _ => r.team == t.id | _ => false)
    && !(d.results.any fun r => r.awaited && r.who.team == t.id)
    && !(d.qops.any fun q => q.who.team == t.id && !q.waiting)
    && !(d.late.any fun x => x.parks && match x.who with | .thread r _ => r.team == t.id | _ => false) && !teamInFlight d t

/-- A thread that waits for a queue, for a free barrier entry, or at `wait`, retries at resumption (R93, R221, R223, R226). -/
def Thread.retry (h : Thread) : Thread :=
  match h.st with
  | .parked .queue | .parked (.barRetry _ _ _ _) | .parked (.word _ _) => { h with st := .ready }
  | _ => h

/-- SAVE_COMPLETE (R321): the team's bytes lie in the save area, what it holds on its core is free. -/
def execSaveComplete (team : Nat) (s : State) : Host.Outcome State Fault Refusal :=
  s.onDev fun d =>
    match d.team? team with
    | none => d
    | some t =>
      if t.stat != .saving || !saveReady d t then d
      else
        let kept := (pieces t).map (keepPiece d)
        let stat := t.tiles.foldl (fun m e =>
          AMap.set 0 m e.1 (AMap.get 0 d.tileStat (t.tileCore e.1 * 8 + (e.2 - 1)) % 2)) []
        let d := match t.save with
          | some r =>
            physFree d { cls := 0, sev := 0, kind := 0, index := t.core, ctx := some t.ctx, grid := some t.grid, team := linearIndex d t }
              ((ctxAt d t 5).toNat + r.1) r.2
          | none => d
        let d := { d with
          qops := d.qops.filter fun q => q.who.team != t.id
          watch := d.watch.filter fun v => !(decide (v.key < 2 ^ 60) && match v.who with | .thread r _ => r.team == t.id | _ => false)
          barWait := d.barWait.filter fun r => r.team != t.id
          racq := d.racq.filter fun r => r.2.1 != t.id }
        let d := d.mapTeam team fun t =>
          { t with
            stat := .saved, savedAt := d.cycle, kept := kept, keptStat := stat
            groups := t.groups.map fun g => { g.leave with threads := g.leave.threads.map Thread.retry } }
        leaveCores d t

/-- A wait's start moved on by the cycles of the save that lie after it (R413). -/
def shiftStart (t : Team) (now start : Nat) : Nat := if start < t.savedAt then start + (now - t.savedAt) else now

/-- A restored group: a blocked `racq` keeps its age; another block is looked at again at its instruction. -/
def Group.restored (t : Team) (now : Nat) (g : Group) : Group :=
  { g with block := match g.block with
      | some (.racq n since l) => some (.racq n (shiftStart t now since) l)
      | _ => none }

/-- The `bar.sys` words that threads of a restored team wait for are read again (R222). -/
def rereadWords (d : Dev) (team : Nat) : Dev :=
  (d.watch.filter fun v => decide (2 ^ 60 ≤ v.key) && match v.who with | .thread r _ => r.team == team | _ => false).foldl readSysWord d

/-- RESTORE_COMPLETE (R321): the team may issue, or its staging starts again; its save range is free, its blocked requests join the core's order at the tail
(R411). -/
def execRestoreComplete (team : Nat) (s : State) : Host.Outcome State Fault Refusal :=
  s.onDev fun d =>
    match d.team? team with
    | none => d
    | some t =>
      if t.stat != .restoring then d
      else
        let now := d.cycle
        let asks : List (Nat × Nat × Nat) := t.groups.filterMap fun g =>
          match g.block with | some (.racq _ since _) => some (since, g.core, g.gid) | _ => none
        let d : Dev := d.mapTeam team fun t =>
          { t with
            stat := if t.staged then .running else .staging, save := none
            bars := t.bars.map fun b => { b with start := shiftStart t now b.start }
            gather := t.gather.map fun g => { g with start := shiftStart t now g.start }
            waits := t.waits.map fun w => (w.1, w.2.1, shiftStart t now w.2.2)
            groups := t.groups.map (Group.restored t now) }
        let late : List (Nat × Nat × Nat) := (sortBy (·.1) asks).map fun a => (a.2.1, team, a.2.2)
        rereadWords ({ d with racq := d.racq ++ late }.checkTeam team) team

/-! ## Staging (R91) -/

/-- The source address of a region for a team; none for a staging fault. -/
def stageSource (t : Team) (r : Region) : Option Nat :=
  let a := r.src % 2 ^ 56 + if r.perTeam then 32 * (r.advX * t.tx + r.advY * t.ty + r.advZ * t.tz) else 0
  let ap := apertureOf r.src
  if (ap = .glob || ap = .die) && a + (r.rows - 1) * r.stride + r.rowBytes ≤ 2 ^ 56 then some (apertureBase ap + a) else none

/-- The bytes of a region, packed row after row. -/
def stageRegion (x : Eng) (t : Team) (r : Region) : EngM (List Byte) := do
  if r.zeroFill then return List.replicate (r.rows * r.rowBytes) 0
  match stageSource t r with
  | none => throw (.fail 7 r.src)
  | some a =>
    let rows ← (List.range r.rows).mapM fun i => engBytes x (a + i * r.stride) r.rowBytes
    return rows.flatten

/-- Bytes put into a team's declared memory from an offset, over both cores of a pair. -/
def putTeamBytes (d : Dev) (t : Team) (off : Nat) (l : List Byte) : Dev :=
  let n := if t.kernel.pair && off < pairSplit t.kernel then min l.length (pairSplit t.kernel - off) else l.length
  let put (d : Dev) (o : Nat) (b : List Byte) : Dev :=
    putPiece d (2, t.tmemAt o, b.length) { mem := Memory.ofBytes b, bad := [] }
  put (put d off (l.take n)) (off + n) (l.drop n)

/-- A team's regions read, then written. -/
def stageTeam (x : Eng) (t : Team) : EngM Unit := do
  let l ← t.kernel.regions.mapM fun r => stageRegion x t r
  let d ← get
  set ((t.kernel.regions.zip l).foldl (fun d p => putTeamBytes d t p.1.dst p.2) d)

/-- STAGING_COMPLETE (R91): every region staged, the team issues; a page fault holds the team until host software resolves it. -/
def execStagingComplete (team : Nat) (s : State) : Host.Outcome State Fault Refusal :=
  s.onDev fun d =>
    match d.team? team with
    | none => d
    | some t =>
      if t.stat != .staging || t.held then d
      else
        let rec_ (cls addr : Nat) : ErrRec :=
          { cls, sev := 2, kind := 0, index := t.core, ctx := some t.ctx, grid := some t.grid, addr, team := linearIndex d t }
        let x : Eng := { ctx := t.ctx, core := t.core, team := t.id, who := .part t.ctx, base := rec_ 0 0, cut := false }
        match (stageTeam x t).on d with
        | (.ok _, d) => d.mapTeam team fun t => { t with stat := .running, staged := true }
        | (.error (.page va l r need e), d) =>
          let d := pageFaultRecord d t.ctx va l r need 4 e (rec_ 0x40 va)
          d.mapTeam team fun t => { t with held := true }
        | (.error .later, d) => d
        | (.error (.fail 3 a), d) => contextError d (rec_ 0x4F a)
        | (.error (.fail 4 a), d) => contextError d (rec_ 0x44 a)
        | (.error (.fail _ a), d) => contextError d (rec_ 0x41 a)

/-! ## The end of a grid (R128, R283, R312) -/

/-- Whether an access was made by a thread whose team has ended. -/
def issuerGone (d : Dev) (w : Issuer) : Bool := match w with | .thread r _ => (d.team? r.team).isNone | _ => false

/-- R128: every team ended, every job it posted final, every write of its threads performed at `.sys`. -/
def gridDone (d : Dev) (g : Grid) : Bool :=
  g.placed == g.gx * g.gy * g.gz && g.ended == g.placed
    && !(d.cards.any fun c => c.job.grid == g.id)
    && !(d.joins.any fun j => j.2.jobs.any fun b => b.grid == g.id && b.state.status.isNone)
    && !(d.reqs.any fun a => a.ctx == g.ctx && issuerGone d a.who)
    && !(d.acks.any fun a => issuerGone d a.who)
    && !(d.side.any fun e => e.access.ctx == g.ctx && issuerGone d e.access.who)
    && !(d.outs.any fun o => o.2.sent.any fun x => x.access.ctx == g.ctx && issuerGone d x.access.who)

/-- The end semaphore's addition (R283), in a granule that the context may use (R88). -/
def signalEnd (d : Dev) (ctx key : Nat) (v : DWord) : Dev :=
  if !granuleOk d ctx true key || poisoned d 1 key 8 then d
  else wakeWords { d with scr := Memory.writeN d.scr key 8 ((Memory.readN d.scr key 8 + v.toNat) % 2 ^ 64) } key 8

/-- GRID_END (R128): partials merged, the end value added, the `launch` that made the grid passed. -/
def execGridEnd (grid : Nat) (s : State) : Host.Outcome State Fault Refusal :=
  s.onDev fun d =>
    match d.grid? grid with
    | none => d
    | some g =>
      if !gridDone d g then d
      else
        let d := mergePartials d fun p => p.ctx == g.ctx
        let d := match g.endSem with | some e => signalEnd d g.ctx e.1 e.2 | none => d
        let d := { d with grids := d.grids.filter fun x => x.id != grid }
        let v := d.queue g.queue
        if v.wait == .grid grid then
          let d := d.setQueue g.queue { v with thread := { v.thread with pc := v.thread.pc + 1 }, wait := .none }
          if v.enabled then d.readyQueue g.queue else d
        else d

/-! ## The watchdog (R413 to R415) -/

/-- A watched wait as its record names it. -/
structure Watched where
  kind : Nat
  number : Nat
  start : Nat
  arrived : Nat
  expected : Nat
  addr : Nat
  tid : Nat
  pc : Nat
  deriving DecidableEq, Repr

/-- The least `sr.tid` of a list of threads, with the slot before its PC. -/
def leastOf (l : List Thread) : Option (Nat × Nat) := (sortBy (·.tid) l).head?.map fun h => (h.tid, (h.pc - 1).toNat)

/-- Least `sr.tid` parked for a reason, with the slot before its PC. -/
def leastParked (t : Team) (w : Wait) : Option (Nat × Nat) := leastOf (t.groups.flatMap fun g => g.threads.filter fun h => h.st == .parked w)

/-- The value of a `bar.sys` word as the part last saw it; a word of another package is open (DESIGN CHOICE, log 3). -/
def barSysWord (d : Dev) (t : Team) (addr : Nat) : Nat :=
  match walk d t.ctx addr needR with
  | .leaf e _ size => match targetOf e addr size with
    | .phys pa => physReadN d pa 8
    | _ => ofBytes ((List.range 4).map fun i => Config.freeByte (d.fresh + i))
  | _ => 0

/-- The target and count of a thread that waits at the `bar.sys` word of an address, its arrival counted. -/
def sysTarget (addr : Nat) (h : Thread) : Option (Nat × Nat) :=
  match h.st with
  | .parked (.barSysTarget a n c) => if a = addr then some (n, c) else none
  | _ => none

/-- The count of a thread whose arrival at a `bar.sys` word was answered unreachable (R436). -/
def sysLost (t : Team) (addr : Nat) (h : Thread) : Option Nat :=
  match h.st with
  | .parked (.barSysSent a c) => if a = addr ∧ t.waits.any (fun x => x.1 == 4 && x.2.1 == lostWait addr h.tid) then some c else none
  | _ => none

/-- The generation of a `bar.sys` word at which threads of a team are parked: those whose arrival was counted, and those whose arrival was
answered unreachable. -/
def watchedSys (d : Dev) (t : Team) (addr start : Nat) : Option Watched :=
  let l := t.groups.flatMap fun g => g.threads
  match leastOf (l.filter fun h => (sysTarget addr h).isSome || (sysLost t addr h).isSome), l.findSome? (sysTarget addr), l.findSome? (sysLost t addr) with
  | some x, some (n, c), _ => some ⟨3, 0, start, barSysWord d t addr - (n - c), c, addr, x.1, x.2⟩
  | some x, none, some c => some ⟨3, 0, start, 0, c, addr, x.1, x.2⟩
  | _, _, _ => none

/-- The counting barriers and `bar.sys` words that threads of a team wait at. A generation of a word is watched while a thread of the team
is parked in it. -/
def watchedCounts (d : Dev) (t : Team) : List Watched :=
  t.waits.filterMap fun w =>
    if w.1 = 3 then
      if t.groups.any fun g => g.threads.any fun h => (sysTarget w.2.1 h).isSome then watchedSys d t w.2.1 w.2.2 else none
    else if w.1 = 4 then
      if t.groups.any fun g => g.threads.any fun h => (sysLost t (w.2.1 % 2 ^ 64) h).isSome then watchedSys d t (w.2.1 % 2 ^ 64) w.2.2 else none
    else
      match leastParked t (.barCount w.2.1), d.bars.find? fun b => b.id == w.2.1 with
      | some l, some b => some ⟨w.1, b.number, w.2.2, b.arrivals, b.count, 0, l.1, l.2⟩
      | _, _ => none

/-- The watched waits of a team. -/
def watchedWaits (d : Dev) (t : Team) : List Watched :=
  (t.bars.filterMap fun b => (leastParked t (.barTeam b.number)).map fun l =>
      ⟨0, b.number, b.start, b.arrivals, t.live, 0, l.1, l.2⟩)
    ++ watchedCounts d t
    ++ (match t.gather with
      | some g => [⟨4, 0, g.start, g.arrivals.length, t.live, 0, ((sortBy (·.tid) g.arrivals).head?.map (·.tid)).getD 0, g.pc⟩]
      | none => [])
    ++ t.groups.filterMap fun g => match g.block with
      | some (.racq n since lanes) =>
        (lanes.head?.bind g.atLane?).bind fun at_ =>
          (sortBy (·.lane) (g.threads.filter fun h => h.st != .exited)).head?.map fun h =>
            ⟨5, 0, since, n, freeSlots d g.core, 0, h.tid, at_.pc.toNat⟩
      | _ => none

/-- WATCHDOG_FIRE (R413): the oldest watched wait of a resident team has lasted 2^wd_log2 cycles: context error 0x25. A wait that completes
in the cycle that reaches the limit completes, so the firing comes after that cycle. -/
def execWatchdogFire (team : Nat) (s : State) : Host.Outcome State Fault Refusal :=
  s.onDev fun d =>
    match d.team? team with
    | none => d
    | some t =>
      match (sortBy (·.start) (watchedWaits d t)).head? with
      | some w =>
        if !t.resident || t.stat == .restoring || d.cycle ≤ w.start + 2 ^ s.mgmt.wdLog2 then d
        else
          contextError d
            { cls := 0x25, sev := 2, kind := 0, index := t.core, ctx := some t.ctx, addr := w.addr, pc := w.pc, tid := w.tid,
              team := linearIndex d t, d0 := w.arrived % 2 ^ 32 * 2 ^ 32 + w.number * 256 + w.kind, d1 := w.expected % 2 ^ 32,
              d2 := d.cycle - w.start, grid := some t.grid }
      | none => d

/-! ## Queue threads (R312, R313) -/

/-- SERVICE_QUANTUM_EXPIRY (R313): after 120 control cycles (240 core cycles) the served thread returns to the ready set. -/
def execServiceQuantumExpiry (cc : Nat) (s : State) : Host.Outcome State Fault Refusal :=
  s.onDev fun d =>
    if AMap.get 0 d.serving cc != 0 && decide (AMap.get 0 d.serveAt cc + 240 ≤ d.cycle) then
      { d with serving := AMap.set 0 d.serving cc 0 }
    else d

/-- TTRIG_TIME_REACHED (R312): device time has reached the operand; the thread is ready at its `ttrig`. -/
def execTtrigTimeReached (queue : Nat) (s : State) : Host.Outcome State Fault Refusal :=
  s.onDev fun d =>
    match (d.queue queue).wait with
    | .time t => if timeReached d t.toNat then d.readyQueue queue else d
    | _ => d

end Sys2Proof.Machine
end

