-- ==== Sys2Proof/Machine/Mgmt.lean ====
section
/-! DEFINITION. What the events of host software share: which writes a block takes (R323, R326, R351, R357), the records of discarded
writes (R450), and a stop of every context. -/

namespace Sys2Proof.Machine

/-- Whether a port exists and its link is up: only then its host reads and writes. -/
def hostOk (s : State) (port : Nat) : Bool := decide (port < 2) && !s.dev.isLost port

/-- Whether the blocks beyond identification, boot and attestation are open (R351); in Standby only those that `standby` names stay
reachable (R358). -/
def Mgmt.isOpen (m : Mgmt) (standby : Bool) : Bool :=
  m.boot.state == .running && (m.power == .active || (m.power == .standby && standby))

/-- Whether the attestation registers are open: in every boot state (R351), but not in Standby (R358). -/
def Mgmt.attestOpen (m : Mgmt) : Bool := m.power != .standby

/-- A port semaphore. -/
def Mgmt.sem (m : Mgmt) (n : Nat) : Sem := AMap.get Sem.free m.sems n
def Mgmt.setSem (m : Mgmt) (n : Nat) (v : Sem) : Mgmt := { m with sems := AMap.set Sem.free m.sems n v }

/-- Whether a port holds semaphore n: a port that was lost holds none that it had taken before (R453). -/
def Mgmt.holds (m : Mgmt) (port n : Nat) : Bool := (m.sem n).held && (m.sem n).owner == port && (m.sem n).lostAt.isNone

/-- A discarded management write: class 0x6A with the offset and the port (R450). -/
def discard6A (d : Dev) (port off : Nat) : Dev :=
  report d { cls := 0x6A, sev := 0, kind := 5, index := port, ctx := none, addr := off, d0 := port }

/-- What becomes of a write to a block: closed, refused for want of its semaphore, or taken. -/
inductive Gate where
  | closed | refused | taken
  deriving DecidableEq, Repr

/-- A write by the physical function of a port to a block guarded by a semaphore. -/
def gate (s : State) (port : Nat) (sem : Option Nat) (standby : Bool) : Gate :=
  if !hostOk s port || !s.mgmt.isOpen standby then .closed
  else match sem with
    | some n => if s.mgmt.holds port n then .taken else .refused
    | none => .taken

/-- A write to a guarded block: nothing while it is closed, a class 0x6A record without the semaphore, else the write's effect. -/
def gated (s : State) (port : Nat) (sem : Option Nat) (standby : Bool) (off : Nat) (f : State → State) : State :=
  match gate s port sem standby with
  | .closed => s
  | .refused => { s with dev := discard6A s.dev port off }
  | .taken => f s

/-- A write by a virtual function that R323 discards: a class 0x6A record names its offset (R450). -/
def discardVf (s : State) (f : HostFn) (off : Nat) : State :=
  if hostOk s f.port && s.mgmt.isOpen false && f.fn != 0 && decide (f.fn < 64) then { s with dev := discard6A s.dev f.port off } else s

/-- A state changed in its registers, and in the rest. -/
def State.mapMgmt (s : State) (f : Mgmt → Mgmt) : State := { s with mgmt := f s.mgmt }
def State.mapDev (s : State) (f : Dev → Dev) : State := { s with dev := f s.dev }

/-- Every valid context halted by R395 without a record of its own. -/
def haltAll (d : Dev) : Dev :=
  (List.range Config.contexts).foldl (fun d c => if bitOf (ctxWord d c 0).toNat 63 then haltContext d c else d) d

/-- The compute dies and SRAM dies without power: their memories and everything in flight on them are gone (R357, R452). Jobs end
failed without records; the end-to-end layer keeps its numbers. -/
def computeOff (d : Dev) : Dev :=
  { d with
    cur := .none, scr := [], tmem := [], tiles := [], poison := d.poison.filter fun p => p.space == 0, tileStat := [], keptTiles := []
    teams := [], grids := [], racq := [], bars := [], barWait := [], results := [], scrWrites := [], watch := [], qops := [], qbad := []
    tlb := [], reqs := [], acks := [], partials := [], shared := [], contribs := [], side := [], faulted := [], cards := [], rays := []
    tex := [], shc := [], shcReqs := [], collReqs := [], serving := [], firings := [], late := [], lostWrites := [], ioWait := [], owed := []
    joins := d.joins.map fun j => (j.1, { j.2 with jobs := [] })
    outs := d.outs.map fun o => (o.1, { o.2 with sent := [], queue := [] })
    entries := d.entries.foldl (fun m e =>
      if e.1 % 8 = 0 then AMap.set 0 m e.1 (BitVec.ofNat 64 (putField e.2.toNat 62 61 0)) else m) d.entries }

/-- The link ports down (R358, R452). -/
def linksDown (d : Dev) : Dev :=
  { d with ports := (List.range 32).foldl (fun m p =>
      let q := AMap.get Port.blank m p
      AMap.set Port.blank m p { q with state := if q.state = .failed then .failed else .down }) d.ports }

end Sys2Proof.Machine
end

