-- ==== Sys2Proof/Machine/EvMig.lean ====
section
/-! DEFINITION. Hot-page migration and the indirection table (R103 to R106, R433). -/

namespace Sys2Proof.Machine

/-! ## Indirection entries (R103) -/

def indirAt (d : Dev) (f : Nat) : DWord := AMap.get 0 d.indir f
def setIndir (d : Dev) (f : Nat) (e : DWord) : Dev := { d with indir := AMap.set 0 d.indir f e }

def entValid (e : DWord) : Bool := bitOf e.toNat 63
def entEligible (e : DWord) : Bool := bitOf e.toNat 62
def entMoving (e : DWord) : Bool := bitOf e.toNat 61
/-- tier and location together: [60], [36:0] -/
def entPlace (e : DWord) : Nat × Nat := (b2n (bitOf e.toNat 60), field e.toNat 36 0)
def entCount (e : DWord) : Nat := field e.toNat 55 40

/-- An entry with another tier and location. -/
def entAt (e : DWord) (p : Nat × Nat) : DWord := BitVec.ofNat 64 (putField (putField e.toNat 60 60 p.1) 36 0 p.2)
def entSetMoving (e : DWord) (b : Bool) : DWord := BitVec.ofNat 64 (putField e.toNat 61 61 (b2n b))

/-- Die that a frame's HBM copy lies in. -/
def frameDie (f : Nat) : Nat := sliceDie (sliceOf f)

/-- Frames at the top of each die's stacks that hold the indirection table (DEDUCED, log 29). -/
def reservedFrames : Nat := 512

/-- Whether an HBM frame of a die is occupied (R105). -/
def frameTaken (d : Dev) (die loc : Nat) : Bool :=
  decide (2 ^ 21 - reservedFrames ≤ loc)
    || d.indir.any (fun e => entValid e.2 && entPlace e.2 == (0, loc) && frameDie e.1 == die)
    || d.migr.any fun m => entPlace m.dest == (0, loc) && frameDie m.frame == die

/-- The first `n` free HBM frames of a die, in ascending order; the first argument bounds the frames looked at. -/
def freeFrames (d : Dev) (die : Nat) : Nat → Nat → Nat → List Nat
  | 0, _, _ => []
  | k + 1, loc, n =>
    if n = 0 then []
    else if frameTaken d die loc then freeFrames d die k (loc + 1) n
    else loc :: freeFrames d die k (loc + 1) (n - 1)

/-! ## The end of a tracking period (R104) -/

/-- One frame of a slice with its counted accesses. -/
structure Ranked where
  frame : Nat
  entry : DWord
  count : Nat
  deriving DecidableEq, Repr

/-- The eligible frames of a slice in a tier, coldest first; those of equal count by frame number, for the hottest first descending
(DESIGN CHOICE, log 111). -/
def ranked (d : Dev) (slice tier : Nat) : List Ranked :=
  sortBy (·.count) ((d.indir.filter fun e =>
      sliceOf e.1 == slice && entValid e.2 && entEligible e.2 && !entMoving e.2 && (entPlace e.2).1 == tier
        && !d.barred.contains e.1).map
    fun e => ⟨e.1, e.2, AMap.get 0 d.counts e.1⟩)

/-- A move started: moving set, near partials of the frame recalled (R332). -/
def startMove (d : Dev) (f : Nat) (dst : Nat × Nat) : Dev :=
  let d := mergePartials d fun p => p.addr / 65536 == f
  let d := { d with shared := d.shared.filter fun s => s.1 / 512 != f }
  let e := indirAt d f
  { setIndir d f (entSetMoving e true) with migr := d.migr ++ [⟨f, entAt e dst, 0⟩] }

/-- The pairs that swap: hot above cold by more than the margin, at most `m`. -/
def swapPairs (h : Nat) : Nat → List Ranked → List Ranked → List (Ranked × Ranked)
  | 0, _, _ => []
  | m + 1, a :: r, b :: q => if b.count + h < a.count then (a, b) :: swapPairs h m r q else []
  | _, _, _ => []

/-- Counts copied into a slice's entries, counters cleared (R104, step 4). -/
def closePeriod (d : Dev) (slice : Nat) : Dev :=
  { d with
    indir := d.indir.foldl (fun m e =>
      if sliceOf e.1 = slice then
        AMap.set 0 m e.1 (BitVec.ofNat 64 (putField e.2.toNat 55 40 (min 65535 (AMap.get 0 d.counts e.1))))
      else m) d.indir
    counts := d.counts.filter fun c => sliceOf c.1 != slice }

/-- The moves of a period started in ranked order. -/
def startMoves (d : Dev) (slice budget margin : Nat) : Dev :=
  let hot := (ranked d slice 1).reverse
  let pairs := swapPairs margin budget hot (ranked d slice 0)
  let rest := (hot.drop pairs.length).take (budget - pairs.length)
  let free := freeFrames d (sliceDie slice) (2 ^ 21) 0 rest.length
  let d := pairs.foldl (fun d p =>
    startMove (startMove d p.2.frame (entPlace p.1.entry)) p.1.frame (entPlace p.2.entry)) d
  (rest.zip free).foldl (fun d p => startMove d p.1.frame (0, p.2)) d

/-- The cycle in which a slice's period began: its last end, or the enabling of migration (R104, R105). -/
def periodStart (d : Dev) (slice : Nat) : Nat := max (AMap.get 0 d.periods slice) (AMap.get 0 d.periods Config.slices)

/-- MIGRATION_PERIOD_END (R104), P after the period began. A slice whose earlier moves still run starts none. -/
def execMigrationPeriodEnd (slice : Nat) (s : State) : Host.Outcome State Fault Refusal :=
  s.onDev fun d =>
    let c := s.mgmt.migCfg.toNat
    if !s.mgmt.counting || !s.mgmt.runs || Config.slices ≤ slice || d.cycle < periodStart d slice + field c 6 0 * ms then d
    else
      let busy := d.migr.any fun m => sliceOf m.frame == slice
      let d := { d with periods := AMap.set 0 d.periods slice d.cycle }
      closePeriod (if busy then d else startMoves d slice (field c 47 32) (field c 31 16)) slice

/-! ## The switch, and moves that do not finish (R106, R433) -/

/-- The 64 KiB of a place, and poison on them. -/
def framePart (d : Dev) (p : Place) : Kept :=
  match p with
  | .hbm k => { mem := Memory.cut d.hbm k 65536, bad := (d.poison.filter fun x => x.space == 0 && x.addr / 2048 == k / 65536).map (·.addr) }
  | .host k => { mem := Memory.cut d.host k 65536, bad := [] }

/-- 64 KiB written to a place. -/
def putFrame (d : Dev) (p : Place) (m : Memory) : Dev :=
  match p with
  | .hbm k => { d with hbm := Memory.paste d.hbm k 65536 m, poison := unpoison d 0 k 65536 }
  | .host k => { d with host := Memory.paste d.host k 65536 m }

/-- The move of another frame whose source is this move's destination: the other half of a swap. -/
def swapPartner (d : Dev) (m : FrameMove) : Option FrameMove :=
  d.migr.find? fun x => x.frame != m.frame && placeOf x.frame 0 (indirAt d x.frame) == placeOf m.frame 0 m.dest

/-- A move aborted: the entry keeps its place; class 0x49 with the frame (R433). -/
def abortMove (d : Dev) (f : Nat) (bad : Bool) : Dev :=
  let d := { setIndir d f (entSetMoving (indirAt d f) false) with
    migr := d.migr.filter fun m => m.frame != f
    barred := if bad && !d.barred.contains f then d.barred ++ [f] else d.barred }
  report d { cls := 0x49, sev := 3, kind := 3, index := sliceOf f, ctx := none, addr := f }

/-- Whether a place can be reached: its port is not lost. -/
def placeLost (d : Dev) (p : Nat × Nat) : Bool := p.1 == 1 && d.isLost (p.2 / 2 ^ 36)

/-- What stops a move: poison at its source, poison at its destination, or a lost port. -/
def moveStop (d : Dev) (m : FrameMove) : Option Bool :=
  let e := indirAt d m.frame
  if (framePart d (placeOf m.frame 0 e)).bad != [] || poisoned d 5 (m.frame * 65536) 65536 then some true
  else if (framePart d (placeOf m.frame 0 m.dest)).bad != [] || placeLost d (entPlace e) || placeLost d (entPlace m.dest) then some false
  else none

/-- An entry switched to the place of its move (R106). -/
def switchEntry (d : Dev) (m : FrameMove) : Dev :=
  { setIndir d m.frame (entSetMoving (entAt (indirAt d m.frame) (entPlace m.dest)) false) with migr := d.migr.filter fun x => x.frame != m.frame }

/-- The switch of a swap, whose frames change places at once: both read before either is written (DEDUCED, log 92). -/
def switchPair (d : Dev) (l : List FrameMove) : Dev :=
  let parts := l.map fun m => (m, framePart d (placeOf m.frame 0 (indirAt d m.frame)))
  parts.foldl (fun d p => switchEntry (putFrame d (placeOf p.1.frame 0 p.1.dest) p.2.mem) p.1) d

/-- The switch of one move: its last lines copied (R106). -/
def switchMove (d : Dev) (m : FrameMove) : Dev :=
  let d := copyLines frameLines d m
  switchEntry (match placeOf m.frame 0 m.dest with | .hbm k => { d with poison := unpoison d 0 k 65536 } | .host _ => d) m

/-- The move of a frame ends: switched with its partner, or aborted with it (R106, R433). -/
def endMove (d : Dev) (m : FrameMove) : Dev :=
  let l := m :: (swapPartner d m).toList
  if l.any fun x => (moveStop d x).isSome then l.foldl (fun d x => abortMove d x.frame (moveStop d x == some true)) d
  else if 1 < l.length then switchPair d l
  else switchMove d m

/-- Moves that can no longer finish are aborted (R433). -/
def abortMoves (d : Dev) : Dev :=
  d.migr.foldl (fun d m => if d.migr.any (fun x => x.frame == m.frame) && (moveStop d m).isSome then endMove d m else d) d

/-! ## The migration block (R105) -/

/-- A write action applied to a frame's entry: moving and count keep their values; false when R105 discards it. -/
def writeEntry (d : Dev) (f : Nat) (v : DWord) : Bool × Dev :=
  let e := indirAt d f
  let keep (hi lo : Nat) (n : Nat) : Nat := putField n hi lo (field e.toNat hi lo)
  let n := BitVec.ofNat 64 (keep 61 61 (keep 55 40 (putField (putField v.toNat 59 56 0) 39 37 0)))
  let p := entPlace n
  let named := d.indir.any fun x => x.1 != f && entValid x.2 && entPlace x.2 == p && frameDie x.1 == frameDie f
  if p != entPlace e && (entEligible e || (p.1 == 0 && (decide (2 ^ 21 ≤ p.2) || named))) then (false, d)
  else
    (true, { setIndir d f n with barred := if entEligible n then d.barred else d.barred.filter (· != f) })

/-- A pending write action carried out: the register's req is cleared, a discarded one makes a record. -/
def runWrite (s : State) (port : Nat) : State :=
  let f := field s.mgmt.migReq.toNat 24 0
  let (ok, d) := writeEntry s.dev f s.mgmt.migData
  { s with
    mgmt := { s.mgmt with migReq := BitVec.ofNat 64 (putField s.mgmt.migReq.toNat 63 63 0) }
    dev := if ok then d else discard6A d port 0x00040108 }

/-- Whether a write action waits for the end of a frame's move. -/
def writeWaits (s : State) (f : Nat) : Bool :=
  bitOf s.mgmt.migReq.toNat 63 && bitOf s.mgmt.migReq.toNat 62 && field s.mgmt.migReq.toNat 24 0 == f
    && !entMoving (indirAt s.dev f)

/-- MOVE_SWITCH (R106): the last line is copied; a write action that waits for the frame follows (R105). -/
def execMoveSwitch (frame : Nat) (s : State) : Host.Outcome State Fault Refusal :=
  .next (
    match s.dev.migr.find? fun m => m.frame == frame with
    | none => s
    | some m =>
      let f := field s.mgmt.migReq.toNat 24 0
      let s := s.mapDev fun d => endMove d m
      if writeWaits s f then runWrite s ((s.mgmt.sem 2).owner) else s)

/-- A write of the request register (R105): its fields are kept, and with req its action runs; one while req is 1 is discarded. A read
action copies the entry as it stands; a write action is carried out at once, or when the frame's move has ended. -/
def writeMig (s : State) (port w : Nat) : State :=
  gated s port (some 2) false 0x00040108 fun s =>
    if bitOf s.mgmt.migReq.toNat 63 then s
    else
      let f := field w 24 0
      let v := putField (putField w 61 25 0) 63 63 0
      let s := s.mapMgmt fun m => { m with migReq := BitVec.ofNat 64 v }
      if !bitOf w 63 then s
      else if !bitOf w 62 then s.mapMgmt fun m => { m with migData := indirAt s.dev f }
      else
        let s := s.mapMgmt fun m => { m with migReq := BitVec.ofNat 64 (2 ^ 63 + v) }
        if entMoving (indirAt s.dev f) then s else runWrite s port

/-- MIGRATION_READ (R105). -/
def execMigrationRead (port frame : Nat) (s : State) : Host.Outcome State Fault Refusal :=
  .next (writeMig s port (2 ^ 63 + frame % 2 ^ 25))

/-- MIGRATION_WRITE (R105). -/
def execMigrationWrite (port frame : Nat) (s : State) : Host.Outcome State Fault Refusal :=
  .next (writeMig s port (2 ^ 63 + 2 ^ 62 + frame % 2 ^ 25))

end Sys2Proof.Machine
end

