-- ==== Sys2Proof/Machine/EvRas.lean ====
section
/-! DEFINITION. Soft errors, poison and refresh (R335, R428 to R434). -/

namespace Sys2Proof.Machine

/-! ## Scrubs (R428) -/

/-- The index by which records name a die's port and the units at it, of kind 4: above the sixteen base dies (DEDUCED, log 30). -/
def portIndex (die : Nat) : Nat := 16 + die

/-- Source kind and index of a unit whose storage is corrected: slices 0 to 127, die ports 128 to 135, base dies 136 to 151, cores 152 to 791,
clusters 792 to 831 (DEDUCED, log 30). -/
def scrubSource (unit : Nat) : Nat × Nat :=
  if unit < 128 then (3, unit)
  else if unit < 136 then (4, portIndex (unit - 128))
  else if unit < 152 then (4, unit - 136)
  else if unit < 792 then (0, unit - 152)
  else (2, unit - 792)

/-- SCRUB_PASS (R428): errors that a unit corrected, as it scrubbed or as it read, are counted; a class 0x46 notice at most once a
millisecond for each unit. -/
def execScrubPass (unit corrections : Nat) (s : State) : Host.Outcome State Fault Refusal :=
  s.onDev fun d =>
    if corrections = 0 || 832 ≤ unit then d
    else
      let src := scrubSource unit
      rateNote d 0x46 unit corrections 0 0 true fun r =>
        { cls := 0x46, sev := 0, kind := src.1, index := src.2, ctx := none, d0 := r.count }

/-! ## Uncorrectable errors (R429, R430) -/

/-- A word of a space poisoned. -/
def addPoison (d : Dev) (space a : Nat) : Dev :=
  let p : Poison := ⟨space, poisonWord space a⟩
  if d.poison.contains p then d else { d with poison := d.poison ++ [p] }

/-- The tag of the last request that a slice has accepted (R117). -/
def lastTag (d : Dev) (slice : Nat) : Nat := ((AMap.get 0 d.tags slice).toNat + 2 ^ 32 - 1) % 2 ^ 32

/-- A poisoned synchronisation object recorded for its context (R430); `kind` and `index` name the unit that holds it. A home slice names
the request that it accepted last (R402; DEDUCED, log 30). -/
def objectRecord (d : Dev) (kind index ctx addr : Nat) : Dev :=
  report d { cls := 0x45, sev := 1, kind, index, ctx := some ctx, addr, slice := if kind = 3 then some (index, lastTag d index) else none }

/-- The context of an access's issuer. -/
def issuerCtx (d : Dev) (w : Issuer) : Nat :=
  match w with
  | .thread r _ => ((d.team? r.team).map (·.ctx)).getD 0
  | .queue q => (d.queue q).ctx
  | .part c => c
  | .job cluster seq => (((d.join cluster).jobs.find? fun b => b.seq == seq).map (·.ctx)).getD 0
  | .agent stack entry => entryCtx (entryWord d stack entry 0)
  | .remote _ _ => 0

/-- A waiter of a poisoned word takes cause 0x06 at its instruction, with the address that the instruction named; a queue thread is disabled
(R386, R396, R430). -/
def poisonWaiter (d : Dev) (v : Watch) : Dev :=
  match v.who with
  | .thread r _ =>
    let r := d.refNow r
    match d.thread? r with
    | some h =>
      let pc := match h.st with | .parked (.barSysTarget _ _ _) => h.pc - 1 | _ => h.pc
      let addr := match h.st with | .parked (.barSysTarget a _ _) | .parked (.word a _) => a | _ => 0
      giveDeferred (d.mapThread r fun h => { h with pc := pc, st := .ready }) r { cause := 0x06, fpc := pc.toNat, addr, detail := 0 }
    | none => d
  | .queue q =>
    let pc := (d.queue q).thread.pc.toNat
    queueTrap d q { cause := 0x06, fpc := pc, resume := pc, addr := match (d.queue q).wait with | .word a => a | _ => 0 }
  | _ => d

/-- The waiters of a word of the watch lists, as a poisoned object treats them. -/
def poisonWatched (d : Dev) (hit : Watch → Bool) (addr kind index : Nat) : Dev :=
  match d.watch.find? hit with
  | none => d
  | some v =>
    let l := d.watch.filter hit
    let d := objectRecord { d with watch := d.watch.filter fun v => !hit v } kind index (issuerCtx d v.who) addr
    l.foldl poisonWaiter d

/-- A scratchpad queue marked poisoned in its descriptor; its waiting threads take cause 0x06 (R430). -/
def poisonQueue (d : Dev) (die n : Nat) : Dev :=
  let k := queueKey die n
  let q := queueDesc d die n
  let d := { d with scr := Memory.writeN d.scr k 16 (putField (Memory.readN d.scr k 16) 65 65 1) }
  let d := objectRecord d 4 (portIndex die) q.ctx (apertureBase .die + k)
  (d.qops.filter fun o => o.waiting && o.die == die && o.number == n).foldl (fun d o => refuseQueue d o 0x06) d

/-- The queues of a die to which a word belongs: its descriptor, or a ring entry that holds a value. -/
def queuesAt (d : Dev) (key : Nat) : List Nat :=
  let die := key / 2 ^ 26
  (List.range 256).filter fun n =>
    let q := queueDesc d die n
    key / 16 == queueKey die n / 16
      || (q.depth != 0 && (List.range q.count).any fun i => scrKey die (q.ring + 8 * ((q.head + i) % 2 ^ q.depth)) / 8 == key / 8)

/-- An uncorrectable error in a scratchpad word. -/
def poisonScr (d : Dev) (key : Nat) : Dev :=
  let d := addPoison d 1 key
  let die := key / 2 ^ 26
  let qs := queuesAt d key
  let addr := apertureBase .die + key / 8 * 8
  let d := qs.foldl (fun d n => poisonQueue d die n) d
  let watched := d.watch.any fun v => v.key == key / 8 * 8
  let d := poisonWatched d (fun v => v.key == key / 8 * 8) addr 4 (portIndex die)
  let e := (ownerEntry d key).toNat
  if qs.isEmpty && !watched && bitOf e 31 && bitOf e 29 then objectRecord d 4 (portIndex die) (e % 1024) addr else d

/-- Whether a waited-for glob word lies in an HBM sector. -/
def watchInSector (d : Dev) (key : Nat) (v : Watch) : Bool :=
  decide (2 ^ 60 ≤ v.key) &&
    match readPlace d (v.key - 2 ^ 60) with
    | some (.hbm k) => k / 32 == key / 32
    | _ => false

/-- Waited-for glob words, by their keys, as poisoned objects of their home slices. -/
def poisonGlob (d : Dev) (keys : List Nat) : Dev :=
  keys.eraseDups.foldl (fun d k => poisonWatched d (fun x => x.key == k) (k - 2 ^ 60) 3 (sliceAt (k - 2 ^ 60))) d

/-- An uncorrectable error in an HBM sector. -/
def poisonHbm (d : Dev) (key : Nat) : Dev :=
  let d := addPoison d 0 key
  abortMoves (poisonGlob d ((d.watch.filter (watchInSector d key)).map (·.key)))

/-- An uncorrectable error in a word of a home slice's cache or write queue. -/
def poisonCache (d : Dev) (pa : Nat) : Dev :=
  let d := addPoison d 5 pa
  abortMoves (poisonGlob d ((d.watch.filter fun v => v.key == 2 ^ 60 + pa / 8 * 8).map (·.key)))

/-- An uncorrectable error in a word that a core's near cache holds. -/
def poisonNear (d : Dev) (core pa : Nat) : Dev := if (nearLines d core).contains (lineOf pa) then addPoison d 4 (nearKey core pa) else d

/-- An uncorrectable error in an entry of a job queue, which lies in a system granule (R88, R430). -/
def poisonJob (d : Dev) (cl slot : Nat) : Dev :=
  match (d.join cl).jobs.find? fun b => b.slot == slot && b.state.status.isNone with
  | some b => objectRecord (addPoison d 6 (jobWord cl slot)) 2 cl b.ctx 0
  | none => d

/-- A side-log entry lost: its context takes 0x44 (R429). -/
def loseSide (d : Dev) (slice index : Nat) : Dev :=
  match (d.side.filter fun e => e.slice == slice)[index]? with
  | some e => contextError { d with side := d.side.filter fun x => x != e } (accessRec d e.access 0x44 2)
  | none => d

/-- Held contributions of a line lost: their contexts take 0x44 (R429). -/
def loseHeld (d : Dev) (line : Nat) : Dev :=
  let l := ((d.contribs.filter fun c => lineOf c.addr == line).map (·.ctx)).eraseDups
  l.foldl (fun d c => contextError d
      { cls := 0x44, sev := 2, kind := 3, index := sliceAt (line * 128), ctx := some c, addr := line * 128 })
    { d with contribs := d.contribs.filter fun c => lineOf c.addr != line }

/-- What an uncorrectable error does where it is found. -/
def poisonSite (d : Dev) : PoisonSite → Dev
  | .hbm a => poisonHbm d a
  | .scr a => poisonScr d a
  | .tmem a => addPoison d 2 a
  | .tile a => addPoison d 3 a
  | .slot team gid tid n => d.mapThread ⟨team, gid, tid⟩ fun h => if h.bad.contains n then h else { h with bad := h.bad ++ [n] }
  | .sideLog slice i => loseSide d slice i
  | .held line => loseHeld d line
  | .cache pa => poisonCache d pa
  | .near core pa => poisonNear d core pa
  | .job cl slot => poisonJob d cl slot

/-- ECC_UNCORRECTABLE (R428 to R430, R433); a write action that waited for an aborted move follows (R105). -/
def execEccUncorrectable (site : PoisonSite) (s : State) : Host.Outcome State Fault Refusal :=
  .next (
    let f := field s.mgmt.migReq.toNat 24 0
    let t := s.mapDev fun d => poisonSite d site
    if writeWaits t f then runWrite t ((t.mgmt.sem 2).owner) else t)

/-! ## Parity (R431) -/

/-- A shared unit reset: its module record, and the halt of every context with an item in it. -/
def resetUnit (d : Dev) (kind index : Nat) (ctxs : List Nat) : Dev :=
  let d := report d { cls := 0x48, sev := 3, kind, index, ctx := none }
  ctxs.eraseDups.foldl (fun d c => if ctxRuns d c then haltContext d c else d) d

/-- What a parity error does (R431). -/
def parityAt (d : Dev) : ParitySite → Dev
  | .own ctx kind index => contextError d { cls := 0x48, sev := 2, kind, index, ctx := some ctx }
  | .watch die =>
    let mine (v : Watch) : Bool := v.held && decide (v.key < 2 ^ 60) && v.key / 2 ^ 26 == die
    let d' := resetUnit d 4 (portIndex die) ((d.watch.filter mine).map fun v => issuerCtx d v.who)
    { d' with watch := d'.watch.filter fun v => !mine v }
  | .barriers cl =>
    let mine (b : CountBar) : Bool := barCluster b.kind b.place == cl
    let d' := resetUnit d 2 cl ((d.bars.filter mine).map (·.ctx))
    { d' with bars := d'.bars.filter fun b => !mine b }
  | .joiner cl =>
    let items := ((d.join cl).jobs.filter fun b => b.state.status.isNone).map (·.ctx)
    let held := (d.cards.filter fun c => clusterOf c.core == cl).map (·.job.ctx)
    let d' := resetUnit d 2 cl (items ++ held)
    let d' := { d'.setJoin cl Join.blank with cards := d'.cards.filter fun c => clusterOf c.core != cl }
    dropTiles (unholdTrel (unholdJpost d' cl) cl)
  | .queueUnit die =>
    let d' := resetUnit d 4 (portIndex die) ((d.qops.filter fun o => o.die == die).map (·.ctx))
    { d' with qops := d'.qops.filter fun o => o.die != die }
  | .scheduler die =>
    let mine := d.grids.filter fun g => dieFor d g == some die || d.teams.any fun t => t.grid == g.id && dieOf t.core == die
    let d' := resetUnit d 4 (portIndex die) (mine.map (·.ctx))
    { d' with ptr := d'.ptr.filter fun e => e.1 / 64 != 16 + die }

/-- PARITY_ERROR (R431). -/
def execParityError (site : ParitySite) (s : State) : Host.Outcome State Fault Refusal := s.onDev fun d => parityAt d site

/-! ## Refresh (R335, R434) -/

def Dev.stackAt (d : Dev) (n : Nat) : Stack := AMap.get Stack.blank d.hstacks n
def Dev.setStack (d : Dev) (n : Nat) (v : Stack) : Dev := { d with hstacks := AMap.set Stack.blank d.hstacks n v }

/-- REFRESH_SUBARRAY (R335): one subarray of a bank at a time, while the management core refreshes. -/
def execRefreshSubarray (stack bank sub : Nat) (s : State) : Host.Outcome State Fault Refusal :=
  s.onDev fun d =>
    let v := d.stackAt stack
    if Config.hbmStacks ≤ stack || v.allBank || 64 ≤ sub || v.refreshing.any fun p => p.1 == bank then d
    else d.setStack stack { v with refreshing := v.refreshing ++ [(bank, sub)] }

/-- REFRESH_END (R335, R434). -/
def execRefreshEnd (stack : Nat) (s : State) : Host.Outcome State Fault Refusal :=
  s.onDev fun d => d.setStack stack { d.stackAt stack with refreshing := [], busy := false }

/-- MGMT_HEARTBEAT (R434): a beat clears the count of missed ones; after a takeover it is ignored. -/
def execMgmtHeartbeat (stack : Nat) (missed : Bool) (s : State) : Host.Outcome State Fault Refusal :=
  s.onDev fun d =>
    let v := d.stackAt stack
    if Config.hbmStacks ≤ stack || v.allBank then d else d.setStack stack { v with missed := if missed then v.missed + 1 else 0 }

/-- REFRESH_TAKEOVER (R434): three beats missed in a row; the controller takes over with a class 0x4C record. -/
def execRefreshTakeover (stack : Nat) (s : State) : Host.Outcome State Fault Refusal :=
  s.onDev fun d =>
    let v := d.stackAt stack
    if v.allBank || v.missed < 3 then d
    else report (d.setStack stack { v with allBank := true, refreshing := [] }) { cls := 0x4C, sev := 3, kind := 4, index := stack, ctx := none }

/-- REFRESH_ALL_BANK (R434): one REFab; the stack is unavailable until it ends. -/
def execRefreshAllBank (stack : Nat) (s : State) : Host.Outcome State Fault Refusal :=
  s.onDev fun d =>
    let v := d.stackAt stack
    if v.allBank then d.setStack stack { v with busy := true } else d

end Sys2Proof.Machine
end

