-- ==== Sys2Proof/Machine/EvKerf.lean ====
section
/-! DEFINITION. Kerf's samples, heat, the module stop and idle dies (R318, R357, R451, R452). -/

namespace Sys2Proof.Machine

/-- Temperatures in 1/16 degree, and core cycles of 1 ms, 100 ms and 100 µs. -/
def deg (c : Int) : Int := 16 * c

/-- A Kerf record of a die. -/
def kerfRecord (d : Dev) (die cls sev d0 : Nat) : Dev := report d { cls, sev, kind := 6, index := die, ctx := none, d0 }

/-- A module stop (R452) for a die: held contributions and scratchpads are lost, every context halts, the boot returns to Waiting. -/
def moduleStop (die : Nat) (s : State) : State :=
  let d := haltAll { s.dev with contribs := [] }
  let d := linksDown (computeOff d)
  let t := (s.dev.kerfAt die).temp
  { s with
    mgmt := { s.mgmt with power := .stopped, entering := false, boot := { s.mgmt.boot with state := .waiting, owner := none } }
    dev := kerfRecord d die 0x69 3 (t.toNat % 65536) }

/-- Since when the temperature has been below a limit. -/
def belowSince (now : Nat) (old : Option Nat) (below : Bool) : Option Nat := if below then (match old with | some c => some c | none => some now) else none

/-- A sample taken into Kerf's view of a die (R318). -/
def KerfDie.sample (k : KerfDie) (now mw : Nat) (temp : Int) : KerfDie :=
  { k with
    samples := (k.samples.filter fun p => decide (now < p.1 + kerfWindow)) ++ [(now, mw)]
    temp, sampled := now, silent := false
    below92 := belowSince now k.below92 (decide (temp < deg 92))
    below100 := belowSince now k.below100 (decide (temp < deg 100)) }

/-- KERF_SAMPLE (R318, R451): power and temperature of a die, and what Kerf does at 95, 105 and 115 degrees. -/
def execKerfSample (die mw : Nat) (temp : Int) (s : State) : Host.Outcome State Fault Refusal :=
  .next (
    if !s.mgmt.runs || Config.dies ≤ die then s
    else
      let k := (s.dev.kerfAt die).sample s.dev.cycle mw temp
      let hot := decide (deg 95 ≤ temp) && !k.throttled
      let danger := decide (deg 105 ≤ temp) && !k.emergency
      let k := { k with
        throttled := k.throttled || hot, emergency := k.emergency || danger, since := if danger then s.dev.cycle else k.since }
      let d := s.dev.setKerf die k
      let d := if hot then kerfRecord d die 0x67 0 0 else d
      let d := if danger then kerfRecord d die 0x68 3 0 else d
      let s := { s with dev := d }
      if deg 115 ≤ temp then moduleStop die s else s)

/-- THERMAL_RECOVERY (R451): 1 ms below 92 degrees ends the throttle, 1 ms below 100 degrees the emergency. -/
def execThermalRecovery (die : Nat) (s : State) : Host.Outcome State Fault Refusal :=
  s.onDev fun d =>
    let k := d.kerfAt die
    let held (o : Option Nat) : Bool := match o with | some c => decide (c + ms ≤ d.cycle) | none => false
    let cool := k.throttled && held k.below92
    let d := d.setKerf die { k with throttled := k.throttled && !cool, emergency := k.emergency && !held k.below100 }
    if cool then kerfRecord d die 0x67 0 1 else d

/-- EMERGENCY_TIMEOUT (R451): an emergency of 100 ms stops the module. -/
def execEmergencyTimeout (die : Nat) (s : State) : Host.Outcome State Fault Refusal :=
  .next (
    let k := s.dev.kerfAt die
    if s.mgmt.runs && k.emergency && decide (k.since + 100 * ms ≤ s.dev.cycle) then moduleStop die s else s)

/-- POWER_SENSOR_SILENT (R451): no sample for 100 µs; the die counts as drawing its full budget. -/
def execPowerSensorSilent (die : Nat) (s : State) : Host.Outcome State Fault Refusal :=
  s.onDev fun d =>
    let k := d.kerfAt die
    if s.mgmt.runs && !k.silent && decide (die < Config.dies) && decide (k.sampled + ms / 10 ≤ d.cycle) then
      kerfRecord (d.setKerf die { k with silent := true }) die 0x6B 3 0
    else d

/-- Whether a die has a resident team or an issued job, one that waits on a page fault included (R285, R357, R421). -/
def dieBusy (d : Dev) (die : Nat) : Bool :=
  (d.teams.any fun t => t.resident && dieOf t.core == die)
    || d.joins.any fun j => j.1 / Config.clustersPerDie == die && j.2.jobs.any fun b => b.state == .issued || b.state matches .paged _

/-- DIE_IDLE (R357): for 1 ms no resident team and no issued job on the die: its core clocks are gated until the next placement. -/
def execDieIdle (die : Nat) (s : State) : Host.Outcome State Fault Refusal :=
  s.onDev fun d =>
    if !s.mgmt.runs || Config.dies ≤ die || dieBusy d die || d.cycle + 1 < max 1 (AMap.get 0 d.idle die) + ms then d
    else d.setKerf die { d.kerfAt die with gated := true }

end Sys2Proof.Machine
end

