-- ==== Sys2Proof/Machine/EvBoot.lean ====
section
/-! DEFINITION. Power, boot, the bundle's checks, attestation and Standby (R345, R351 to R358, R452 to R455). -/

namespace Sys2Proof.Machine

/-! ## Power (R351, R357) -/

/-- What is outside the part, and the model's own counters: kept while the part loses everything. -/
def Dev.cold (d : Dev) : Dev :=
  { Dev.reset with host := d.host, notices := d.notices, fresh := d.fresh, nextId := d.nextId, reference := d.reference }

/-- POWER_GOOD (R351): the part comes up in Reset, every register and memory at its reset value. -/
def execPowerGood (s : State) : Host.Outcome State Fault Refusal :=
  .next (if s.mgmt.power == .off then { s with mgmt := Mgmt.reset, dev := s.dev.cold } else s)

/-- POWER_OFF (R345): the part keeps nothing. -/
def execPowerOff (s : State) : Host.Outcome State Fault Refusal :=
  .next { s with mgmt := { Mgmt.reset with power := .off }, dev := s.dev.cold }

/-! ## Boot states (R351) -/

def State.mapBoot (s : State) (f : Boot → Boot) : State := s.mapMgmt fun m => { m with boot := f m.boot }

/-- Whether a semaphore was a port's when it was lost in cycle `c`. -/
def Sem.lostWith (port c : Nat) (v : Sem) : Bool := v.held && v.owner == port && v.lostAt == some c

/-- The semaphores of a port as it is lost in cycle `c` (R453). -/
def Mgmt.loseSems (m : Mgmt) (port c : Nat) : Mgmt :=
  { m with sems := m.sems.foldl (fun t e =>
      AMap.set Sem.free t e.1 (if e.2.held && e.2.owner == port && e.2.lostAt.isNone then { e.2 with lostAt := some c } else e.2)) [] }

/-- The semaphores that a port held when it was lost in cycle `c`, released (R453). -/
def Mgmt.dropSems (m : Mgmt) (port c : Nat) : Mgmt :=
  { m with sems := m.sems.foldl (fun t e =>
      AMap.set Sem.free t e.1 (if e.2.lostWith port c then { e.2 with held := false, lostAt := none } else e.2)) [] }

/-- PCIE_LINK_TRAINED (R351, R453): with both links trained the boot enters Waiting; a lost port that returns holds no
semaphore; those it held are released 1 ms after the loss all the same. -/
def execPcieLinkTrained (port : Nat) (s : State) : Host.Outcome State Fault Refusal :=
  .next (
    if 2 ≤ port then s
    else
      let s := s.mapDev fun d => { d with lost := AMap.set 0 d.lost port 0 }
      s.mapBoot fun b =>
        let b := if port = 0 then { b with trained0 := true } else { b with trained1 := true }
        if b.state = .reset && b.trained0 && b.trained1 then { b with state := .waiting } else b)

/-- BOOT_WAIT_TIMER (R351): 200 ms after power good. -/
def execBootWaitTimer (s : State) : Host.Outcome State Fault Refusal :=
  .next (
    if s.mgmt.boot.state == .reset && decide (200 * ms ≤ s.dev.cycle) then s.mapBoot fun b => { b with state := .waiting } else s)

/-- The port that goes first when both come in one fabric cycle: the loser of the last tie, port 0 at the first (R326). -/
def tieWinner (m : Mgmt) : Nat := m.tieLoser.getD 0 % 2

/-- The order in which the accesses of one fabric cycle are served, and the registers after a tie. -/
def tieOrder (m : Mgmt) (p0 p1 : Bool) : List Nat × Mgmt :=
  if p0 && p1 then
    let w := tieWinner m
    ([w, 1 - w], { m with tieLoser := some (1 - w) })
  else ((if p0 then [0] else []) ++ (if p1 then [1] else []), m)

/-- BOOT_START (R351): the first write of 1 in Waiting makes its port the streaming port; in Failed it returns the boot to Waiting. -/
def execBootStart (p0 p1 : Bool) (s : State) : Host.Outcome State Fault Refusal :=
  .next (
    let r := tieOrder s.mgmt (p0 && !s.dev.isLost 0) (p1 && !s.dev.isLost 1)
    match s.mgmt.boot.state, r.1 with
    | .waiting, w :: _ =>
      if s.mgmt.boot.owner.isSome then s
      else { s with mgmt := { r.2 with boot := { s.mgmt.boot with owner := some w } } }
    | .failed, _ :: _ => s.mapBoot fun b => { b with state := .waiting, owner := none }
    | _, _ => s)

/-- The generation that a streaming adopts (R345). -/
def nextGen (b : Boot) (fresh : Nat) : Nat :=
  match b.pending with
  | some g => g
  | none => if b.streamed then (b.gen + 1) % 65536 else (Config.randomGeneration fresh).toNat

/-- BOOT_LENGTH (R351): the streaming port's length, at most 48 MiB, enters Verifying and sets the generation; no sequence state of a source's
old generation is left (R436). -/
def execBootLength (port units : Nat) (s : State) : Host.Outcome State Fault Refusal :=
  .next (
    let b := s.mgmt.boot
    if b.state = .waiting && b.owner == some port && !s.dev.isLost port && decide (256 * units ≤ 48 * 2 ^ 20) then
      { s.mapBoot fun b =>
          { b with state := .verifying, length := 256 * units, gen := nextGen b s.dev.fresh, pending := none, streamed := true } with
        dev := { s.dev with fresh := s.dev.fresh + 1, ins := [] } }
    else s)

/-- BOOT_GEN (R356): the generation for the next streaming; once the start is claimed, from the streaming port alone. -/
def execBootGen (port : Nat) (v : DWord) (s : State) : Host.Outcome State Fault Refusal :=
  .next (
    let b := s.mgmt.boot
    if !hostOk s port || (b.owner.isSome && b.owner != some port) then s
    else s.mapBoot fun b => { b with pending := if bitOf v.toNat 16 then some (field v.toNat 15 0) else none })

/-! ## The bundle (R352, R353) -/

/-- Bytes of the streamed bundle: from offset 0 of die 0's scratchpad. -/
def bundle (d : Dev) (off n : Nat) : Nat := Memory.readN d.scr off n
def bundleBytes (d : Dev) (off n : Nat) : List Byte := Memory.bytes d.scr off n

/-- A section entry (R353). -/
structure Section where
  off : Nat
  len : Nat
  target : Nat
  reserved : Nat
  digest : BitVec 512
  deriving DecidableEq, Repr

/-- The section entries of the manifest. -/
def sections (d : Dev) : List Section :=
  (List.range (min 64 (bundle d 12 4))).map fun i =>
    let e := 64 + 96 * i
    { off := bundle d e 4, len := bundle d (e + 4) 4, target := bundle d (e + 8) 2, reserved := bundle d (e + 10) 22,
      digest := BitVec.ofNat 512 (bundle d (e + 32) 64) }

/-- No two ranges of a list meet. -/
def apart : List (Nat × Nat) → Bool
  | [] => true
  | a :: r => !r.any (meets a) && apart r

/-- The manifest is well formed (R353). -/
def manifestOk (d : Dev) (len : Nat) : Bool :=
  let n := bundle d 12 4
  let l := sections d
  let sig := bundle d 28 4
  bundle d 0 4 == 0x4E420640 && bundle d 11 1 == 0 && bundle d 32 32 == 0 && decide (1 ≤ n) && decide (n ≤ 64)
    && decide (bundle d 20 4 ≤ 4096) && decide (bundle d 16 4 + bundle d 20 4 ≤ len) && decide (bundle d 24 4 + 2592 ≤ len)
    && decide (sig + 4627 ≤ len) && decide (64 + 96 * n ≤ len)
    && l.all (fun e => e.off % 256 == 0 && decide (1 ≤ e.len) && decide (e.off + e.len ≤ len) && e.reserved == 0 && decide (e.target ≤ 4))
    && apart ((0, sig + 4627) :: l.map fun e => (e.off, e.len))
    && [0, 1, 2, 3].all (fun t => (l.filter fun e => e.target == t).length == 1)
    && decide ((l.filter fun e => e.target == 4).length ≤ 1)

/-- Whether the part record matches (R354): it is signed under the root key, and names the digest of the public key that the PUF's seed gives,
with this part's number and stepping. -/
def recordMatches (root record : List Byte) (seed : BitVec 256) : Bool :=
  Config.signatureVerifies root (Config.sha3 (Config.recordSigned record)) (Config.recordSignature record)
    && Config.recordKey record == Config.sha3 (Config.publicKey seed)
    && (Config.recordPart record).toNat == Config.part && (Config.recordStepping record).toNat == Config.stepping

/-- The checks of R352 in order: none, or the failed check's number, the section index of check 4, and whether the PUF's error
correction failed (R454). -/
def bundleFailure (d : Dev) (len : Nat) : Option (Nat × Nat × Bool) :=
  let key := bundleBytes d (bundle d 24 4) 2592
  let sig := bundle d 28 4
  let part := bundleBytes d (bundle d 16 4) (bundle d 20 4)
  if !manifestOk d len || Config.sha3 key != Config.rootKeyDigest then some (1, 0, false)
  else if !Config.signatureVerifies key (Config.sha3 (bundleBytes d 0 sig)) (bundleBytes d sig 4627) then some (2, 0, false)
  else
  match Config.pufSeed (Config.recordHelper part) with
  | none => some (3, 0, true)
  | some seed =>
  if !recordMatches key part seed then some (3, 0, false)
  else
    match (sections d).findIdx? fun e => Config.sha3 (bundleBytes d e.off e.len) != e.digest with
    | some i => some (4, i, false)
    | none =>
      if bundle d 4 2 < 2 || Config.isaLevel < bundle d 8 1 || bundle d 9 1 != Config.stepping || bundle d 10 1 != Config.baseStep then
        some (5, 0, false)
      else none

/-- BUNDLE_VERIFY_DONE (R352, R454). -/
def execBundleVerifyDone (s : State) : Host.Outcome State Fault Refusal :=
  .next (
    if s.mgmt.boot.state != .verifying then s
    else
      match bundleFailure s.dev s.mgmt.boot.length with
      | some (n, i, puf) =>
        { s.mapBoot fun b => { b with state := .failed, reason := n } with
          dev := report s.dev
            { cls := 0x70, sev := 3, kind := 7, index := 0, ctx := none, d0 := n + i * 256 + b2n puf * 65536 } }
      | none =>
        s.mapBoot fun b => { b with state := .loading, reason := 0, digests := (sections s.dev).map (·.digest) })

/-- Every port that is not disabled starts to train (R351, R357, R457). -/
def trainPorts (d : Dev) : AMap Port :=
  (List.range 32).foldl (fun m p =>
    let q := AMap.get Port.blank m p
    AMap.set Port.blank m p (if q.disable then q else { q with state := .training, trainedAt := d.cycle })) d.ports

/-- LOADING_DONE (R351): control cores, management cores and Kerf start; links train. -/
def execLoadingDone (s : State) : Host.Outcome State Fault Refusal :=
  .next (
    if s.mgmt.boot.state != .loading then s
    else
      let d := s.dev
      { s with
        mgmt := { s.mgmt with
          power := .active
          boot := { s.mgmt.boot with state := .running }
          attest := { s.mgmt.attest with broken := false } }
        dev := { d with ports := trainPorts d, kerf := [], hstacks := [] } })

/-! ## Attestation (R355, R455) -/

/-- ATTEST_TRIGGER (R355, R455). -/
def execAttestTrigger (port : Nat) (s : State) : Host.Outcome State Fault Refusal :=
  .next (
    let a := s.mgmt.attest
    if !hostOk s port || !s.mgmt.attestOpen || a.building then s
    else
      let a := { a with ready := false, failed := false, reason := 0 }
      let a := if s.mgmt.boot.state != .running then { a with failed := true, reason := 2 }
        else if a.broken then { a with failed := true, reason := 1 }
        else { a with building := true }
      s.mapMgmt fun m => { m with attest := a })

/-- The report (R355), its parts one after the other and its signature at the end (DEDUCED, log 31). -/
def attestReport (s : State) : List Byte :=
  let body := (s.mgmt.attest.nonce.flatMap fun w => toBytes 8 w.toNat)
    ++ (s.mgmt.boot.digests.flatMap fun g => toBytes 64 g.toNat)
    ++ toBytes 2 s.mgmt.boot.gen ++ toBytes 6 s.dev.secs ++ toBytes 4 s.dev.nanos ++ toBytes 2 s.dev.frac
  body ++ Config.identitySignature (Config.sha3 body)

/-- ATTEST_REPORT_READY (R355, R455): the report is readable; or the identity key failed its self-test. -/
def execAttestReportReady (selfTest : Bool) (s : State) : Host.Outcome State Fault Refusal :=
  .next (
    let a := s.mgmt.attest
    if !a.building then s
    else if selfTest then s.mapMgmt fun m => { m with attest := { a with building := false, ready := true, report := attestReport s } }
    else
      { s with
        mgmt := { s.mgmt with attest := { a with building := false, failed := true, reason := 1, broken := true } }
        dev := report s.dev { cls := 0x71, sev := 3, kind := 7, index := 0, ctx := none } })

/-! ## Standby (R357, R358) -/

/-- Running collectives failed: their routes go down (R358, R470). -/
def failRunning (d : Dev) : Dev :=
  d.entries.foldl (fun d e =>
    let n := e.1 / 8
    if e.1 % 8 = 0 && entryValid e.2.toNat && entryRunning (entryWord d (n / 4096) (n % 4096) 0) then
      failFiring d (collJob d (n / 4096) (n % 4096)) 1
    else d) d

/-- The first steps of R358: nothing more is placed or issued, every context halts, its queues, jobs and collectives with it, held
contributions are applied, and what waits on page faults is discarded. -/
def beginStandby (s : State) : State :=
  { s with
    mgmt := { s.mgmt with entering := true }
    dev := haltAll (failRunning s.dev) }

/-- Whether every fabric request has been acknowledged or answered unreachable, but those that wait on page faults, and every issued job
has ended (R358). -/
def fabricQuiet (d : Dev) : Bool :=
  d.scrWrites.isEmpty && d.reqs.all (·.faulted) && d.acks.isEmpty && d.late.isEmpty && d.outs.all (fun o => o.2.sent.isEmpty)
    && d.joins.all fun j => j.2.jobs.all fun b => !(b.state == .issued || b.state matches .paged _)

/-- The last steps of R358, when everything outstanding has been answered: what is held is applied, with the records and errors it owes, the
links go down, the compute and SRAM dies power off. -/
def finishStandby (s : State) : State :=
  if s.mgmt.entering && fabricQuiet s.dev then
    let d := mergePartials s.dev fun _ => true
    let d := settleOwed (((d.contribs.map (·.ctx)).eraseDups).foldl applyHeld d)
    { s with
      mgmt := { s.mgmt with power := .standby, entering := false }
      dev := report (linksDown (computeOff d)) { cls := 0x6E, sev := 3, kind := 5, index := 0, ctx := none } }
  else s

/-- STANDBY_ENTER: a write of 1 to the standby control (R357, R358). The entry ends with this move where nothing is outstanding, else as soon
as that is so (`State.settled`). -/
def execStandbyEnter (port : Nat) (s : State) : Host.Outcome State Fault Refusal :=
  .next (gated s port (some 0) true 0x00000300 fun s =>
    if s.mgmt.power == .active && !s.mgmt.entering then beginStandby s else { s with dev := discard6A s.dev port 0x00000300 })

/-- STANDBY_EXIT: a write of 0 (R357): dies power on with scratchpads of zero, the generation rises by 1, links train. -/
def execStandbyExit (port : Nat) (s : State) : Host.Outcome State Fault Refusal :=
  .next (gated s port (some 0) true 0x00000300 fun s =>
    if s.mgmt.power != .standby then s
    else
      let d := s.dev
      { s with
        mgmt := { s.mgmt with power := .active, boot := { s.mgmt.boot with gen := (s.mgmt.boot.gen + 1) % 65536 } }
        dev := { d with ports := trainPorts d, ins := [] } })

end Sys2Proof.Machine
end

