-- ==== Sys2Proof/Machine/EvQueue.lean ====
section
/-! DEFINITION. What host software does with port semaphores (R326), queues (R310, R311, R450), owner tables (R88) and the context
table (R322). -/

namespace Sys2Proof.Machine

/-! ## Port semaphores (R326) -/

/-- A semaphore as its register reads. -/
def Sem.word (v : Sem) : Nat := b2n v.held * 2 ^ 31 + v.owner % 2 * 2 ^ 30 + v.gen % 65536

/-- One port's read: the value from before it, and the grant where it was free. -/
def readSem (n : Nat) (s : State) (port : Nat) : State :=
  let v := s.mgmt.sem n
  let s := if v.held then s else s.mapMgmt fun m => m.setSem n { held := true, owner := port, gen := (v.gen + 1) % 65536 }
  s.mapDev fun d => d.notify (.readData port false (toBytes 8 v.word))

/-- A port's write: with [31] = 0 by the owner it releases the semaphore; any other has no effect. -/
def releaseSem (n : Nat) (v : Word) (s : State) (port : Nat) : State :=
  if hostOk s port && s.mgmt.isOpen true && s.mgmt.holds port n && !bitOf v.toNat 31 then
    s.mapMgmt fun m => m.setSem n { m.sem n with held := false }
  else s

/-- One port's access; a read of the closed block gives zero (R351). -/
def semAccess (s : State) (port : Nat) : SemAccess → State
  | .read n => if s.mgmt.isOpen true then readSem n s port else s.mapDev fun d => d.notify (.readData port false (toBytes 8 0))
  | .write n v => releaseSem n v s port

/-- The semaphore of an access. -/
def semOf : SemAccess → Nat
  | .read n | .write n _ => n

/-- The access of a port that reaches the block. -/
def semReaching (s : State) (port : Nat) (a : Option SemAccess) : Option SemAccess := a.filter fun x => hostOk s port && decide (semOf x < 32)

/-- The accesses of one fabric cycle: a port's, and the other port's where both come in it, in the order of the tie rule (R326). -/
def semCycle (port : Nat) (x : SemAccess) (same : Option SemAccess) (s : State) : State :=
  let a (p : Nat) : Option SemAccess := semReaching s p (if p = port then some x else same)
  let r := tieOrder s.mgmt (a 0).isSome (a 1).isSome
  let t := if s.mgmt.isOpen true then { s with mgmt := r.2 } else s
  if 2 ≤ port then s else r.1.foldl (fun t p => match a p with | some y => semAccess t p y | none => t) t

/-- PORT_SEMAPHORE_READ (R326): the test-and-set, and what the other port does in the same fabric cycle. -/
def execPortSemaphoreRead (port n : Nat) (same : Option SemAccess) (s : State) : Host.Outcome State Fault Refusal :=
  .next (semCycle port (.read n) same s)

/-- PORT_SEMAPHORE_RELEASE (R326): a write, and the other port's write in the same fabric cycle. -/
def execPortSemaphoreRelease (port n : Nat) (v : SemWrite) (s : State) : Host.Outcome State Fault Refusal :=
  .next (semCycle port (.write n v.value) (v.same.map fun w => .write w.1 w.2) s)

/-! ## Queue descriptors (R310) -/

/-- Offset of a queue's descriptor in the management space. -/
def queueOff (q : Nat) : Nat := 0x01000000 + 32 * q

/-- Whether a function is its port's physical function. -/
def isPf (f : HostFn) : Bool := f.fn == 0

/-- Whether a function reaches a queue's descriptor and doorbell: the physical function of either port, or the virtual function that
the queue names (R323, R328). -/
def reachesQueue (d : Dev) (f : HostFn) (q : Nat) : Bool :=
  decide (q < Config.queues) && (isPf f || (queueOwner d q Queue.blank == (f.port, f.fn) && decide (f.fn < 64)))

/-- Whether a queue's ring lies in system granules of a context on its die (R87, R450). -/
def ringOk (d : Dev) (w0 w1 : Nat) : Bool :=
  let off := field w0 25 0
  let n := 8 * 2 ^ field w1 31 28
  let e (g : Nat) : Nat := (ownerEntry d (scrKey (field w0 28 26) (g * 65536))).toNat
  !bitOf w0 29 && decide (off + n ≤ 2 ^ 26)
    && (List.range ((off + n - 1) / 65536 - off / 65536 + 1)).all fun i =>
      let x := e (off / 65536 + i)
      bitOf x 31 && bitOf x 29 && x % 1024 == field w0 44 35

/-- R450: whether a word 0 may be enabled. -/
def enableOk (d : Dev) (v : Queue) (w0 : Nat) : Bool :=
  field v.w1.toNat 31 28 != 0 && ringOk d w0 v.w1.toNat && v.w2.toNat % 1024 == 0 && bitOf (ctxWord d (field w0 44 35) 0).toNat 63

/-- Waits of a queue thread at the watch lists end with the wait. -/
def unwatchQueue (d : Dev) (q : Nat) : Dev := { d with watch := d.watch.filter fun v => v.who != .queue q }

/-- A queue enabled: a thread that has exited starts afresh, any other goes on where it stopped, a `launch` again too. -/
def startAgain (d : Dev) (q : Nat) (w0 : DWord) : Dev :=
  let v := d.queue q
  let v := { v with w0, stopping := false, held := none }
  (d.setQueue q (if v.exited then { v with exited := false, started := false } else v)).readyQueue q

/-- A queue disabled: it stops at its next park (R310). -/
def stopQueue (d : Dev) (q : Nat) (w0 : DWord) : Dev :=
  let v := (d.queue q).stop
  unwatchQueue (d.setQueue q { v with w0 }) q

/-- The word 0 that a function's write gives: the reserved bits stay zero, and a virtual function changes only enabled and dl_valid. -/
def newWord0 (f : HostFn) (old w : Nat) : Nat :=
  if isPf f then putField w 34 30 0 else putField old 63 62 (field w 63 62)

/-- A write of a descriptor's word 0 (R310, R323, R450). While the queue is enabled, only a write that changes enabled alone is taken
(DEDUCED, log 32). -/
def writeWord0 (s : State) (f : HostFn) (q : Nat) (w : DWord) : State :=
  if !hostOk s f.port || !s.mgmt.isOpen false then s
  else if !reachesQueue s.dev f q then discardVf s f (queueOff q)
  else
    let v := s.dev.queue q
    let old := v.w0.toNat
    let new := newWord0 f old w.toNat
    if field new 51 45 ≠ field old 51 45 && !s.mgmt.holds f.port 3 then
      { s with dev := discard6A s.dev f.port (queueOff q) }
    else if bitOf old 63 then
      if new = old || putField new 63 63 1 ≠ old then s
      else { s with dev := stopQueue s.dev q (BitVec.ofNat 64 new) }
    else if !bitOf new 63 then { s with dev := s.dev.setQueue q { v with w0 := BitVec.ofNat 64 new } }
    else if enableOk s.dev v new then { s with dev := startAgain s.dev q (BitVec.ofNat 64 new) }
    else
      { s with
        dev := report s.dev
          { cls := 0x62, sev := 0, kind := 5, index := f.port, ctx := some (field new 44 35), queue := some q } }

/-- QUEUE_ENABLE (R310): a write of word 0 that sets enabled. -/
def execQueueEnable (fn : HostFn) (queue : Nat) (w0 : DWord) (s : State) : Host.Outcome State Fault Refusal :=
  .next (if bitOf w0.toNat 63 then writeWord0 s fn queue w0 else s)

/-- QUEUE_DISABLE (R310): a write of word 0 that leaves enabled clear. -/
def execQueueDisable (fn : HostFn) (queue : Nat) (w0 : DWord) (s : State) : Host.Outcome State Fault Refusal :=
  .next (if bitOf w0.toNat 63 then s else writeWord0 s fn queue w0)

/-- QUEUE_PROG_WRITE (R310): the registers become zero and the thread starts afresh when next enabled; a virtual function's write is discarded
(R323). -/
def execQueueProgWrite (fn : HostFn) (queue : Nat) (v : DWord) (s : State) : Host.Outcome State Fault Refusal :=
  .next (
    let q := s.dev.queue queue
    if !isPf fn then discardVf s fn (queueOff queue + 16)
    else if !hostOk s fn.port || !s.mgmt.isOpen false || Config.queues ≤ queue || q.enabled then s
    else
      s.mapDev fun d => unwatchQueue (d.setQueue queue
        { q with w2 := v, thread := Thread.blank, started := false, exited := false, wait := .none, stopping := false, held := none }) queue)

/-- DOORBELL (R311): tail is set, unless it would stand more than the ring's entries ahead of head (R450); accepted in Standby too
(R358). -/
def execDoorbell (fn : HostFn) (queue : Nat) (v : DWord) (s : State) : Host.Outcome State Fault Refusal :=
  .next (
    if !hostOk s fn.port || !s.mgmt.isOpen true then s
    else if !reachesQueue s.dev fn queue then discardVf s fn (0x02000000 + 8 * queue)
    else
      s.mapDev fun d =>
        let q := d.queue queue
        let tail := v.toNat % 2 ^ 32
        if q.ringSize < (tail + 2 ^ 32 - q.head) % 2 ^ 32 then
          report d { cls := 0x63, sev := 0, kind := 5, index := fn.port, ctx := some q.ctx, queue := some queue }
        else
          let d := d.setQueue queue { q with w3 := BitVec.ofNat 64 (putField q.w3.toNat 31 0 tail) }
          if q.wait == .ring && tail != q.head then d.readyQueue queue else d)

/-! ## Owner tables (R88) -/

/-- A granule zeroed, its poison with it; whoever waits on a word of it is tested (R93). -/
def zeroGranule (d : Dev) (key : Nat) : Dev :=
  ((d.watch.map (·.key)).filter fun k => k / 65536 == key / 65536).foldl wakeWatch
    { d with scr := Memory.clear d.scr key 65536, poison := unpoison d 1 key 65536 }

/-- OWNER_ENTRY_WRITE (R88): an entry that becomes valid, or valid for another context, finds its granule zeroed; writes to granule
1,023 are discarded (R94). -/
def execOwnerEntryWrite (port die granule : Nat) (v : Word) (s : State) : Host.Outcome State Fault Refusal :=
  .next (
    if Config.dies ≤ die || 1024 ≤ granule then s
    else
      gated s port (some 2) false (0x00090000 + 4096 * die + 4 * granule) fun s =>
        s.mapDev fun d =>
          if granule = 1023 then d
          else
            let key := scrKey die (granule * 65536)
            let old := (ownerEntry d key).toNat
            let new := putField v.toNat 27 10 0
            let fresh := bitOf new 31 && (!bitOf old 31 || old % 1024 != new % 1024)
            let d := if fresh then zeroGranule d key else d
            { d with owners := AMap.set 0 d.owners (die * 1024 + granule) (BitVec.ofNat 32 new) })

/-! ## The context table (R322) -/

/-- A word of a context-table entry with its reserved bits zero. -/
def ctxMask (word v : Nat) : Nat :=
  match word with
  | 0 => putField (putField v 61 52 0) 11 0 0
  | 6 => putField v 15 6 0
  | 7 => 0
  | _ => v

/-- CONTEXT_TABLE_WRITE (R322): clearing valid or determinism applies the context's held contributions (R437). -/
def execContextTableWrite (port ctx word : Nat) (v : DWord) (s : State) : Host.Outcome State Fault Refusal :=
  .next (
    if Config.contexts ≤ ctx || 8 ≤ word then s
    else
      gated s port (some 2) false (0x00080000 + 64 * ctx + 8 * word) fun s =>
        s.mapDev fun d =>
          let old := (ctxWord d ctx word).toNat
          let new := ctxMask word v.toNat
          let d := { d with ctxs := AMap.set 0 d.ctxs (ctx * 8 + word) (BitVec.ofNat 64 new) }
          let cleared (b : Nat) : Bool := bitOf old b && !bitOf new b
          if word = 0 && (cleared 63 || cleared 62) then applyHeld d ctx else d)

end Sys2Proof.Machine
end

