-- ==== Sys2Proof/Machine/EvReg.lean ====
section
/-! DEFINITION. The management block of semaphore 2 and plain register writes: invalidation (R102, R327), the resolution of page faults
(R423, R425), ray discard (R446), pair reopening (R466), and registers without behaviour of their own (R323). -/

namespace Sys2Proof.Machine

/-! ## Invalidation (R327) -/

/-- CONTEXT_INVALIDATION (R327): discarded while an earlier one runs. -/
def execContextInvalidation (port ctx : Nat) (s : State) : Host.Outcome State Fault Refusal :=
  .next (gated s port (some 2) false 0x00040000 fun s =>
    if bitOf s.mgmt.inval.toNat 31 then s
    else s.mapMgmt fun m => { m with inval := BitVec.ofNat 64 (2 ^ 31 + ctx % 1024) })

/-- INVALIDATION_COMPLETE (R327): no translation cache holds an entry of the context, and [31] is clear; the ATS translations, which name no
context, are given up too (DESIGN CHOICE, log 93). -/
def execInvalidationComplete (s : State) : Host.Outcome State Fault Refusal :=
  .next (
    let w := s.mgmt.inval.toNat
    let ctx := w % 1024
    if !bitOf w 31 || !s.mgmt.runs then s
    else
      { s with
        mgmt := { s.mgmt with inval := BitVec.ofNat 64 ctx }
        dev := { s.dev with
          tlb := s.dev.tlb.filter fun c => c.ctx != ctx
          ats := []
          remotes := s.dev.remotes.filter fun r => r.1 != ctx } })

/-! ## Page faults resolved (R423, R425) -/

/-- Whether an access of a context touches a page. -/
def Access.inPage (a : Access) (ctx page : Nat) : Bool := a.ctx == ctx && a.addr / 4096 == page

/-- A job that waits on a page goes on. -/
def Job.unpage (ctx page : Nat) (b : Job) : Job :=
  if b.ctx == ctx && decide (b.state = .paged page) then { b with state := .issued } else b

/-- The waits on a page's fault other than the side log's end: each walks again. -/
def rewalk (d : Dev) (ctx page : Nat) : Dev :=
  { d with
    reqs := d.reqs.map fun a => if a.inPage ctx page then { a with faulted := false } else a
    queues := d.queues.map fun q => (q.1, if q.2.ctx = ctx && q.2.held == some page then { q.2 with held := none } else q.2)
    rays := d.rays.map fun r => if r.ctx = ctx && r.held == some page then { r with held := none } else r
    tex := d.tex.map fun x => if x.ctx = ctx && x.held == some page then { x with held := none } else x
    joins := d.joins.map fun j => (j.1, { j.2 with jobs := j.2.jobs.map (Job.unpage ctx page) })
    teams := d.teams.map fun t =>
      if t.ctx = ctx then
        { t with
          held := false
          groups := t.groups.map fun g => { g with fetchWait := g.fetchWait.filter fun w => w.2.2 != page } }
      else t }

/-- The retry of a page (R423, R425): the entries of its side log are replayed, in their order and before any other access to it, and every
other waiting access walks again; a thread that waited for room in the side log goes on. -/
def retryPage (d : Dev) (ctx page : Nat) : Dev :=
  let d : Dev := { d with
    faulted := d.faulted.filter fun f => f != (ctx, page)
    side := d.side.map fun e => if e.access.ctx = ctx ∧ e.page = page then { e with due := true } else e }
  let waiters := d.reqs.filter fun a => a.inPage ctx page && a.faulted && a.kind.posted
  waiters.foldl (fun d a => restop d a.who) (rewalk d ctx page)

/-- The accesses of a context that wait at a page, discarded with what they would have answered (R423). -/
def dropPage (d : Dev) (ctx page : Nat) : Dev :=
  let gone (a : Access) : Bool := a.inPage ctx page && (a.faulted || sideBlocked d ctx a.addr)
  let ray (r : Ray) : Bool := r.ctx == ctx && r.held == some page
  let tex (x : TexReq) : Bool := x.ctx == ctx && x.held == some page
  let lost := (d.reqs.filter gone).filterMap (·.result) ++ (d.rays.filter ray).filterMap (·.result) ++ (d.tex.filter tex).map (·.result)
  { d with
    reqs := d.reqs.filter fun a => !gone a
    side := d.side.filter fun e => !(e.access.ctx == ctx && e.page == page)
    rays := d.rays.filter fun r => !ray r
    tex := d.tex.filter fun x => !tex x
    results := d.results.filter fun r => !lost.contains r.id
    queues := d.queues.map fun q => (q.1, if q.2.ctx = ctx && q.2.held == some page then { q.2 with held := none } else q.2)
    faulted := d.faulted.filter fun f => f != (ctx, page) }

/-- A write of the fault register (R423): its fields are kept, and with req its action runs; one with a reserved action is discarded. A
retry walks again; a fail discards every waiting access to the page and halts the context with 0x43. -/
def writeFault (s : State) (port w : Nat) : State :=
  gated s port (some 2) false 0x00040018 fun s =>
    if 2 ≤ field w 11 10 then s
    else
      let c := field w 9 0
      let p := field w 55 12
      let s := s.mapMgmt fun m => { m with faultReg := BitVec.ofNat 64 (field w 55 0) }
      if !bitOf w 63 then s
      else if !bitOf w 10 then s.mapDev fun d => retryPage d c p
      else
        s.mapDev fun d => contextError (dropPage d c p) { cls := 0x43, sev := 2, kind := 5, index := port, ctx := some c, addr := p * 4096 }

/-- FAULT_RETRY (R423). -/
def execFaultRetry (port ctx page : Nat) (s : State) : Host.Outcome State Fault Refusal :=
  .next (writeFault s port (2 ^ 63 + page % 2 ^ 44 * 4096 + ctx % 1024))

/-- FAULT_FAIL (R423). -/
def execFaultFail (port ctx page : Nat) (s : State) : Host.Outcome State Fault Refusal :=
  .next (writeFault s port (2 ^ 63 + page % 2 ^ 44 * 4096 + 1024 + ctx % 1024))

/-! ## Ray discard (R446) -/

/-- A context's rays discarded: an outstanding record comes with status 4. -/
def discardRays (d : Dev) (ctx : Nat) : Dev :=
  let mine := d.rays.filter fun r => r.ctx == ctx
  mine.foldl (fun d r => match r.result with | some id => setResult d id (emptyRecord 4) | none => d)
    { d with rays := d.rays.filter fun r => r.ctx != ctx }

/-- A write of the ray-discard register (R446): its context is kept, and with req the discard runs, with one class 0x66 record. -/
def writeRay (s : State) (port w : Nat) : State :=
  gated s port (some 2) false 0x00040020 fun s =>
    let c := field w 9 0
    let s := s.mapMgmt fun m => { m with rayReg := BitVec.ofNat 64 c }
    if bitOf w 63 then
      s.mapDev fun d => report (discardRays d c) { cls := 0x66, sev := 0, kind := 5, index := port, ctx := some c }
    else s

/-- RAY_DISCARD (R446). -/
def execRayDiscard (port ctx : Nat) (s : State) : Host.Outcome State Fault Refusal := .next (writeRay s port (2 ^ 63 + ctx % 1024))

/-! ## Pair reopening (R466) -/

/-- The closed pairs that a reopening names: an endpoint's, or those of each stack of this package with an agent (R466). -/
def reopenPairs (d : Dev) (w : Nat) : List PeerId :=
  (if bitOf w 23 then (List.range Config.hbmStacks).map fun s => agentPair s (field w 22 0) else [field w 18 0]).filter fun p => (d.out p).closed

/-- PAIR_REOPEN (R466): req stays 1 until every pair that it names is open again. -/
def execPairReopen (port : Nat) (v : DWord) (s : State) : Host.Outcome State Fault Refusal :=
  .next (gated s port (some 2) false 0x00070100 fun s =>
    let w := v.toNat
    let req := bitOf w 63
    if bitOf s.mgmt.reopenReg.toNat 63 then s
    else if req && !bitOf w 23 && field w 22 19 != 0 then { s with dev := discard6A s.dev port 0x00070100 }
    else
      let keep := req && !(reopenPairs s.dev w).isEmpty
      s.mapMgmt fun m => { m with reopenReg := BitVec.ofNat 64 (b2n keep * 2 ^ 63 + field w 23 0) })

/-! ## Plain registers (R323) -/

/-- A register's write taken, discarded with a record, or discarded without one. -/
inductive Put where
  | taken (m : Mgmt) | noted | ignored
  deriving DecidableEq, Repr

/-- A write of a register guarded by a semaphore. -/
def putReg (s : State) (port : Nat) (sem : Option Nat) (standby : Bool) (off : Nat) (f : Mgmt → Put) : State :=
  gated s port sem standby off fun s =>
    match f s.mgmt with
    | .taken m => { s with mgmt := m }
    | .noted => { s with dev := discard6A s.dev port off }
    | .ignored => s

/-- The eight budgets plus the share, in mW (R325). -/
def Mgmt.powerSum (m : Mgmt) : Nat := (List.range Config.dies).foldl (fun n i => n + (m.budget i).2) m.share

/-- A die budget register (R325). -/
def putBudget (die v : Nat) (m : Mgmt) : Put :=
  let n := { m with budgets := AMap.set (20000, 260000) m.budgets die (field v 63 32, field v 31 0) }
  if Config.limitMw < n.powerSum || field v 31 0 < field v 63 32 then .noted else .taken n

/-- The share of the other units, 64 bits (R323, R325). -/
def putShare (v : Nat) (m : Mgmt) : Put :=
  let n := { m with share := v }
  if Config.limitMw < n.powerSum then .noted else .taken n

/-- K (R319): a write of 0 is discarded with a record. -/
def putK (v : Nat) (m : Mgmt) : Put := if v % 16 = 0 then .noted else .taken { m with k := v % 16 }

/-- An energy class register (R317), at index 16·die + class. -/
def putEnergy (i : Nat) (v : DWord) (m : Mgmt) : Put := .taken { m with energy := AMap.set none m.energy i (some v) }

/-- The time control register (R349). A timing port set otherwise follows no master until one is announced (DESIGN CHOICE, log 112). -/
def putTimeCtl (v : Nat) (m : Mgmt) : Put :=
  if field v 2 1 = 3 || 2 ≤ field v 19 18 then .ignored
  else
    let w := putField (putField (putField v 63 48 0) 23 20 0) 17 3 0
    if field w 31 0 = field m.timeCtl.toNat 31 0 then .taken { m with timeCtl := BitVec.ofNat 64 w }
    else .taken { m with timeCtl := BitVec.ofNat 64 w, master := false, ptp := { Ptp.blank with next := m.ptp.next } }

/-- The seconds registers (R349): those of the next 1PPS edge, and those of a write that follows. -/
def putPpsSecs (v : Nat) (m : Mgmt) : Put := .taken { m with ppsSecs := BitVec.ofNat 64 (2 ^ 63 + v % 2 ^ 48) }
def putSetSecs (v : Nat) (m : Mgmt) : Put := .taken { m with setSecs := BitVec.ofNat 64 (v % 2 ^ 48) }

/-- The watchdog limit (R414). -/
def putWatchdog (v : Nat) (m : Mgmt) : Put :=
  if field v 5 0 < 20 || 40 < field v 5 0 then .noted else .taken { m with wdLog2 := field v 5 0 }

/-- The migration control register (R105). -/
def putMigration (v : Nat) (m : Mgmt) : Put :=
  if field v 6 0 < 1 || 64 < field v 6 0 || 4096 < field v 47 32 then .noted
  else .taken { m with migCfg := BitVec.ofNat 64 (putField (putField v 62 48 0) 15 7 0) }

/-- A write of the migration control register (R105); the first periods begin, with counters of zero, when migration is
enabled (R104). -/
def writeMigration (s : State) (port v : Nat) : State :=
  gated s port (some 2) false 0x00040100 fun s =>
    match putMigration v s.mgmt with
    | .taken m =>
      let starts := bitOf m.migCfg.toNat 63 && !bitOf s.mgmt.migCfg.toNat 63
      { s with mgmt := m, dev := if starts then { s.dev with periods := AMap.set 0 [] Config.slices s.dev.cycle, counts := [] } else s.dev }
    | _ => { s with dev := discard6A s.dev port 0x00040100 }

/-- A word of the attestation nonce (R355). -/
def putNonce (i : Nat) (v : DWord) (m : Mgmt) : Put :=
  let l := (List.range 8).map fun j => if j = i then v else m.attest.nonce.getD j 0
  .taken { m with attest := { m.attest with nonce := l } }

/-- A port's own window register (R324). -/
def putWindow (port v : Nat) (m : Mgmt) : Put := .taken { m with windows := AMap.set 0 m.windows port (field v 40 32) }

/-- The global log's rd, armed bits and vectors (R398). -/
def putLog (off v : Nat) (d : Dev) : Dev :=
  match off with
  | 0x00050008 => { d with grd := v % 2 ^ 32 }
  | 0x00050010 => { d with garmed := b2n (bitOf v 31) + 2 * b2n (bitOf v 30) }
  | 0x00050018 => { d with gvec0 := field v 10 0, gvec1 := field v 42 32 }
  | _ => d

/-- Word 1 of a queue descriptor (R310, R323): a virtual function writes the deadline alone. -/
def putWord1 (s : State) (f : HostFn) (q : Nat) (v : DWord) : State :=
  let x := s.dev.queue q
  if !reachesQueue s.dev f q then discardVf s f (queueOff q + 8)
  else if !hostOk s f.port || !s.mgmt.isOpen false || x.enabled then s
  else
    let w := if isPf f then putField v.toNat 27 0 0 else putField x.w1.toNat 63 32 (field v.toNat 63 32)
    s.mapDev fun d => d.setQueue q { x with w1 := BitVec.ofNat 64 w }

/-- The semaphore that guards the block of an offset (R323). -/
def blockSem (off : Nat) : Option Nat :=
  if 0x300 ≤ off && off < 0x400 then some 0
  else if 0x20000 ≤ off && off < 0x30000 then some 0
  else if 0x30000 ≤ off && off < 0x40000 then some 1
  else if 0x40000 ≤ off && off < 0x50000 then some 2
  else if 0x70000 ≤ off && off < 0x98000 then some 2
  else none

/-- A write of a register by the physical function of a port. An offset of no such register discards it, with a record where the block's
semaphore is missing. -/
def putOffset (s : State) (port off : Nat) (v : DWord) : State :=
  let w := v.toNat
  if off % 8 ≠ 0 then gated s port (blockSem off) false off id
  else if 0x200 ≤ off && off < 0x240 then
    if hostOk s port && s.mgmt.attestOpen then
      match putNonce ((off - 0x200) / 8) v s.mgmt with | .taken m => { s with mgmt := m } | _ => s
    else s
  else if off = 0x400 + 8 * port then putReg s port none true off (putWindow port w)
  else if 0x20000 ≤ off && off < 0x20040 then putReg s port (some 0) false off (putBudget ((off - 0x20000) / 8) w)
  else if off = 0x20080 then putReg s port (some 0) false off (putShare w)
  else if off = 0x20088 then putReg s port (some 0) false off (putK w)
  else if 0x20100 ≤ off && off < 0x20500 then putReg s port (some 0) false off (putEnergy ((off - 0x20100) / 8) v)
  else if off = 0x30000 then putReg s port (some 1) false off (putTimeCtl w)
  else if off = 0x30008 then putReg s port (some 1) false off (putPpsSecs w)
  else if off = 0x30020 then putReg s port (some 1) false off (putSetSecs w)
  else if off = 0x40010 then putReg s port (some 2) false off (putWatchdog w)
  else if off = 0x40018 then writeFault s port w
  else if off = 0x40020 then writeRay s port w
  else if off = 0x40100 then writeMigration s port w
  else if off = 0x40108 then writeMig s port w
  else if off = 0x40110 then putReg s port (some 2) false off fun m => .taken { m with migData := v }
  else if off = 0x50008 || off = 0x50010 || off = 0x50018 then gated s port none true off fun s => s.mapDev (putLog off w)
  else gated s port (blockSem off) (off / 256 == 3) off id

/-- MGMT_REGISTER_WRITE (R323): a virtual function reaches its own queue descriptors only, and of these words 0 and 1; its other writes are
discarded. -/
def execMgmtRegisterWrite (fn : HostFn) (off : Nat) (v : DWord) (s : State) : Host.Outcome State Fault Refusal :=
  .next (
    if 0x01000000 ≤ off && off < 0x01400000 then
      if off % 32 = 8 then putWord1 s fn ((off - 0x01000000) / 32) v
      else if off % 32 = 0 then s
      else discardVf s fn off
    else if isPf fn then putOffset s fn.port off v
    else discardVf s fn off)

end Sys2Proof.Machine
end

