-- ==== Sys2Proof/Machine/HostRead.lean ====
section
/-! DEFINITION. What a host's read of the management space returns (R7, R323): each register as its rule lays it out. A write-only
register, an offset that holds no register and a closed block (R351, R358) read zero. -/

namespace Sys2Proof.Machine

/-- The code of a boot state in the boot status register (R351). -/
def bootCode : BootState → Nat
  | .reset => 0 | .waiting => 1 | .verifying => 2 | .loading => 3 | .running => 4 | .failed => 5

/-- The code of a port's state in its status register (R457). -/
def portCode : PortState → Nat
  | .down | .training => 0 | .up => 1 | .degraded => 2 | .failed => 3

/-- Identification and boot registers, open in every boot state (R356). -/
def readIdent (b : Boot) (off : Nat) : Nat :=
  match off with
  | 0x00 => Config.part * 2 ^ 48 + Config.stepping * 2 ^ 40 + Config.baseStep * 2 ^ 32 + Config.isaLevel * 2 ^ 24
  | 0x10 => Config.clockMhz * 2 ^ 32 + Config.cores
  | 0x18 => Config.hbmGib
  | 0x40 => Config.limitMw
  | 0x48 => b.gen % 2 ^ 16
  | 0x108 => b.reason % 256 * 2 ^ 8 + b.owner.getD 0 % 2 * 2 ^ 4 + bootCode b.state
  | _ => 0

/-- Attestation registers (R355, R455): the nonce, the trigger while a report is built, the status word; the report where it is readable. -/
def readAttest (a : Attest) (off : Nat) : Nat :=
  if 0x200 ≤ off && off < 0x240 then (a.nonce.getD ((off - 0x200) / 8) 0).toNat
  else if off = 0x240 then b2n a.building
  else if off = 0x248 then a.reason % 256 * 2 ^ 8 + b2n a.failed * 2 + b2n a.ready
  else if 0x1000 ≤ off && off < 0x10000 && a.ready then ofBytes ((a.report.drop (off - 0x1000)).take 8)
  else 0

/-- Kerf's registers (R317, R319, R325). -/
def readKerf (m : Mgmt) (off : Nat) : Nat :=
  if off < 0x20040 then
    let b := m.budget ((off - 0x20000) / 8)
    b.1 * 2 ^ 32 + b.2
  else if off = 0x20080 then m.share
  else if off = 0x20088 then m.k
  else if 0x20100 ≤ off && off < 0x20500 then m.classWord ((off - 0x20100) / 128) ((off - 0x20100) / 8 % 16)
  else 0

/-- Time controls (R349). -/
def readTime (m : Mgmt) (off : Nat) : Nat :=
  match off with
  | 0x30000 => m.timeCtl.toNat
  | 0x30010 => wrapInt m.offset 64
  | 0x30018 => b2n (16 ≤ m.good) * 2 + b2n m.master
  | _ => 0

/-- The block of semaphore 2 at 0x0004_0000 (R105, R327, R414, R423, R446). -/
def readResolve (m : Mgmt) (off : Nat) : Nat :=
  match off with
  | 0x40000 => m.inval.toNat
  | 0x40010 => m.wdLog2
  | 0x40018 => m.faultReg.toNat
  | 0x40020 => m.rayReg.toNat
  | 0x40100 => m.migCfg.toNat
  | 0x40108 => m.migReq.toNat
  | 0x40110 => m.migData.toNat
  | _ => 0

/-- The global log (R398). -/
def readLog (d : Dev) (off : Nat) : Nat :=
  match off with
  | 0x50000 => d.gwr % 2 ^ 32
  | 0x50008 => d.grd % 2 ^ 32
  | 0x50010 => d.gdropped % 2 ^ 32 * 2 ^ 32 + d.garmed % 2 * 2 ^ 31 + d.garmed / 2 % 2 * 2 ^ 30 + 9
  | 0x50018 => d.gvec1 * 2 ^ 32 + d.gvec0
  | _ => if 0x50080 ≤ off && off < 0x60080 then (AMap.get 0 d.glog ((off - 0x50080) / 8)).toNat else 0

/-- A link port's status (R460). -/
def readPort (d : Dev) (p : Nat) : Nat :=
  let v := AMap.get Port.blank d.ports p
  let suspect := ((d.outs.filter fun o => o.2.suspects.any fun x => x.port == p).map fun o => if isAgent o.1 then o.1 % 2 ^ 24 else o.1).eraseDups.length
  v.failures % 2 ^ 16 * 2 ^ 32 + min 255 suspect * 2 ^ 16 + v.reason % 16 * 2 ^ 8 + b2n v.disable * 4 + portCode v.state

/-- A word of a queue's descriptor (R310). -/
def readQueue (d : Dev) (off : Nat) : Nat :=
  let v := d.queue ((off - 0x01000000) / 32)
  match off / 8 % 4 with
  | 0 => v.w0.toNat
  | 1 => v.w1.toNat
  | 2 => v.w2.toNat
  | _ => v.w3.toNat

/-- Whether an offset lies in the table of queue descriptors. -/
def queueTable (off : Nat) : Bool := decide (0x01000000 ≤ off) && decide (off < 0x01400000)

/-- The 8 bytes that a physical function reads at an offset that is a multiple of 8, but for the port semaphores. -/
def readPf (s : State) (off : Nat) : Nat :=
  let m := s.mgmt
  let d := s.dev
  if off < 0x200 then readIdent m.boot off
  else if off < 0x300 || (0x1000 ≤ off && off < 0x10000) then (if m.attestOpen then readAttest m.attest off else 0)
  else if off = 0x300 then b2n (m.power == .standby)
  else if off = 0x400 || off = 0x408 then (if m.isOpen true then AMap.get 0 m.windows ((off - 0x400) / 8) * 2 ^ 32 else 0)
  else if 0x50000 ≤ off && off < 0x60080 then (if m.isOpen true then readLog d off else 0)
  else if !m.isOpen false then 0
  else if 0x20000 ≤ off && off < 0x30000 then readKerf m off
  else if 0x30000 ≤ off && off < 0x40000 then readTime m off
  else if 0x40000 ≤ off && off < 0x50000 then readResolve m off
  else if 0x70000 ≤ off && off < 0x70100 then readPort d ((off - 0x70000) / 8)
  else if off = 0x70100 then m.reopenReg.toNat
  else if 0x80000 ≤ off && off < 0x90000 then (AMap.get 0 d.ctxs ((off - 0x80000) / 8)).toNat
  else if 0x90000 ≤ off && off < 0x98000 then
    let n := (off - 0x90000) / 4
    let e (i : Nat) : Nat := (ownerEntry d (scrKey (n / 1024) ((n + i) % 1024 * 65536))).toNat
    e 1 * 2 ^ 32 + e 0
  else if queueTable off then readQueue d off
  else 0

/-- The 8 bytes that a virtual function reads: the descriptors of its own queues (R323). -/
def readVf (s : State) (fn : HostFn) (off : Nat) : Nat :=
  if s.mgmt.isOpen false && queueTable off && reachesQueue s.dev fn ((off - 0x01000000) / 32) then readQueue s.dev off else 0

/-- A function's read of a register: of the 8 bytes at its offset, aligned (DESIGN CHOICE, log 102). A read of a port semaphore is the
test-and-set of R326. -/
def registerRead (s : State) (fn : HostFn) (off : Nat) : State :=
  let a := off / 8 * 8
  if isPf fn && 0x10000 ≤ a && a < 0x10100 then semAccess s fn.port (.read ((a - 0x10000) / 8))
  else s.mapDev fun d => d.notify (.readData fn.port false (toBytes 8 (if isPf fn then readPf s a else readVf s fn a)))

end Sys2Proof.Machine
end

