-- ==== Sys2Proof/Machine/EvBar.lean ====
section
/-! DEFINITION. The host's windows onto scratchpad and device-physical space (R323, R324), AtomicOps (R346), and the loss of a host port
(R453). -/

namespace Sys2Proof.Machine

/-! ## BAR2 (R94, R323, R351) -/

/-- Whether BAR2 reaches a scratchpad byte: of granule 1,023, the queue table alone. -/
def bar2Open (key : Nat) : Bool := decide (key < 2 ^ 29) && (key % 2 ^ 26 / 65536 != 1023 || decide (0x03FFF000 ≤ key % 2 ^ 26))

/-- Bytes put at the open places of BAR2 that `sel` takes. -/
def bar2Put (m : Memory) (off : Nat) (l : List Byte) (sel : Nat → Bool) : Memory :=
  (l.zip (List.range l.length)).foldl (fun m p => if bar2Open (off + p.2) && sel (off + p.2) then Memory.write m (off + p.2) p.1 else m) m

/-- The queues whose descriptors a range touches, as die and number. -/
def tableQueues (off n : Nat) : List (Nat × Nat) :=
  ((List.range ((off + n - 1) / 16 - off / 16 + 1)).map fun i => 16 * (off / 16 + i)).filterMap fun k =>
    if 0x03FFF000 ≤ k % 2 ^ 26 then some (k / 2 ^ 26, (k % 2 ^ 26 - 0x03FFF000) / 16) else none

/-- A descriptor after a host write: poisoned is cleared only where enabled was 0 (R430), a malformed one is recorded anew, and an
enabled, well-formed one serves the threads parked at it (R427). -/
def descWritten (old : Memory) (d : Dev) (q : Nat × Nat) : Dev :=
  let k := queueKey q.1 q.2
  let was := Memory.readN old k 16
  let v := putField (Memory.readN d.scr k 16) 65 65 (b2n (bitOf was 65 && bitOf was 64))
  let d := { d with scr := Memory.writeN d.scr k 16 v, qbad := d.qbad.filter fun x => x != q.1 * 256 + q.2 }
  let x := queueDesc d q.1 q.2
  if x.enabled && !x.poisoned && !queueMalformed d q.1 x then settleQueue q.1 q.2 (d.qops.length + 1) d else d

/-- A write through BAR2 while the part runs. -/
def bar2Write (d : Dev) (off : Nat) (l : List Byte) : Dev :=
  if l.isEmpty then d
  else
    let d' := { d with scr := bar2Put d.scr off l fun _ => true, poison := unpoison d 1 off l.length }
    (tableQueues off l.length).foldl (descWritten d.scr) (wakeWords d' off l.length)

/-- BAR2_ACCESS (R323): before Running, only the streaming port's bundle reaches the scratchpad, of die 0 and in Waiting alone (R351);
in Standby reads return zero (R358). A read of a BAR0 register comes with this event or the next (DESIGN CHOICE, log 102). -/
def execBar2Access (port : Nat) (op : BarOp) (s : State) : Host.Outcome State Fault Refusal :=
  .next (
    if !hostOk s port then s
    else
      let b := s.mgmt.boot
      match op with
      | .read off len =>
        let bytes := (List.range len).map fun i =>
          if s.mgmt.runs && bar2Open (off + i) then Memory.read s.dev.scr (off + i) else 0
        s.mapDev fun d => d.notify (.readData port (s.mgmt.runs && poisoned d 1 off len) bytes)
      | .register fn a => if fn.port = port then registerRead s fn a else s
      | .write off l =>
        if s.mgmt.runs then s.mapDev fun d => bar2Write d off l
        else if b.state == .waiting && b.owner == some port then
          s.mapDev fun d => { d with scr := bar2Put d.scr off l fun k => decide (k < 2 ^ 26) }
        else s)

/-! ## BAR4 (R324) -/

/-- A range cut at 128-byte lines; the first argument bounds the pieces. -/
def lineCuts : Nat → Nat → Nat → List (Nat × Nat)
  | 0, _, _ => []
  | k + 1, a, n => if n = 0 then [] else (a, min n (128 - a % 128)) :: lineCuts k (a + min n (128 - a % 128)) (n - min n (128 - a % 128))

/-- An access to an invalid frame: class 0x6A with the address. -/
def badFrame (d : Dev) (port pa : Nat) : Dev := discard6A d port pa

/-- One read at a home slice: poisoned or not, and the bytes. -/
def bar4ReadLine (port : Nat) (d : Dev) (pa n : Nat) : Bool × List Byte × Dev :=
  if !frameOk d pa then (false, List.replicate n 0, badFrame d port pa)
  else if tierLost d d.isLost pa then (true, List.replicate n 0, (takeTag d (sliceAt pa)).2)
  else
    let d := recallLine (takeTag d (sliceAt pa)).2 (lineOf pa)
    (physPoisoned d pa n, (List.range n).map fun i => physRead d (pa + i), d)

/-- One write at a home slice. -/
def bar4WriteLine (port : Nat) (d : Dev) (pa : Nat) (l : List Byte) : Dev :=
  if !frameOk d pa then badFrame d port pa
  else
    let (tag, d) := takeTag d (sliceAt pa)
    if tierLost d d.isLost pa then
      report d { cls := 0x4B, sev := 1, kind := 5, index := port, ctx := none, slice := some (sliceAt pa, tag), addr := pa, d0 := 1 }
    else physStore (recallLine d (lineOf pa)) pa l.length (ofBytes l)

/-- BAR4_ACCESS (R324): through a port's window, line by line; open in Standby too (R358), closed before Running (R351). -/
def execBar4Access (port : Nat) (op : BarOp) (s : State) : Host.Outcome State Fault Refusal :=
  .next (
    if !hostOk s port then s
    else
      let base := AMap.get 0 s.mgmt.windows port * 2 ^ 32
      match op with
      | .read off len =>
        if !s.mgmt.isOpen true then s.mapDev fun d => d.notify (.readData port false (List.replicate len 0))
        else
          let r := (lineCuts len (base + off % 2 ^ 32) len).foldl (fun (r : Bool × List Byte × Dev) c =>
            let x := bar4ReadLine port r.2.2 c.1 c.2
            (r.1 || x.1, r.2.1 ++ x.2.1, x.2.2)) (false, [], s.dev)
          { s with dev := r.2.2.notify (.readData port r.1 r.2.1) }
      | .register fn a => if fn.port = port then registerRead s fn a else s
      | .write off l =>
        if !s.mgmt.isOpen true then s
        else
          let a := base + off % 2 ^ 32
          s.mapDev fun d => (lineCuts l.length a l.length).foldl (fun d c => bar4WriteLine port d c.1 ((l.drop (c.1 - a)).take c.2)) d)

/-! ## AtomicOps (R346) -/

/-- Window, bytes and offset of an AtomicOp. -/
def onBar4 : PcieAtomic → Bool
  | .fetchAdd b _ _ _ | .swap b _ _ _ | .cas b _ _ _ _ => b
def atomicBytes : PcieAtomic → Nat
  | .fetchAdd _ n _ _ | .swap _ n _ _ | .cas _ n _ _ _ => n
def atomicOff : PcieAtomic → Nat
  | .fetchAdd _ _ o _ | .swap _ _ o _ | .cas _ _ o _ _ => o

/-- Sizes that the part completes, and the alignment of the standard (DEDUCED, log 33). -/
def atomicOk (a : PcieAtomic) : Bool :=
  let sizes := match a with | .cas _ _ _ _ _ => [4, 8, 16] | _ => [4, 8]
  sizes.contains (atomicBytes a) && (atomicOff a) % (atomicBytes a) == 0

/-- What an AtomicOp writes over an old value; none where a compare fails. -/
def atomicNew (a : PcieAtomic) (old : Nat) : Option Nat :=
  match a with
  | .fetchAdd _ n _ v => some ((old + v) % 2 ^ (8 * n))
  | .swap _ n _ v => some (v % 2 ^ (8 * n))
  | .cas _ n _ c v => if old = c % 2 ^ (8 * n) then some (v % 2 ^ (8 * n)) else none

/-- An AtomicOp at the die's port. -/
def atomicBar2 (d : Dev) (port : Nat) (a : PcieAtomic) : Dev :=
  let n := (atomicBytes a)
  if !bar2Open (atomicOff a) then d.notify (.readData port false (List.replicate n 0))
  else if poisoned d 1 (atomicOff a) n then d.notify (.readData port true (Memory.bytes d.scr (atomicOff a) n))
  else
    let old := Memory.readN d.scr (atomicOff a) n
    let d := match atomicNew a old with | some v => bar2Write d (atomicOff a) (toBytes n v) | none => d
    d.notify (.readData port false (toBytes n old))

/-- An AtomicOp at a line's home slice. -/
def atomicBar4 (d : Dev) (port base : Nat) (a : PcieAtomic) : Dev :=
  let n := (atomicBytes a)
  let pa := base + (atomicOff a) % 2 ^ 32
  let r := bar4ReadLine port d pa n
  let d := r.2.2
  let d := if frameOk d pa && !r.1 then
      match atomicNew a (ofBytes r.2.1) with | some v => physStore d pa n v | none => d
    else d
  d.notify (.readData port r.1 r.2.1)

/-- PCIE_ATOMICOP (R346). -/
def execPcieAtomicOp (port : Nat) (op : PcieAtomic) (s : State) : Host.Outcome State Fault Refusal :=
  .next (
    if !hostOk s port || !atomicOk op then s
    else if onBar4 op then
      if s.mgmt.isOpen true then s.mapDev fun d => atomicBar4 d port (AMap.get 0 s.mgmt.windows port * 2 ^ 32) op else s
    else if s.mgmt.runs then s.mapDev fun d => atomicBar2 d port op
    else s)

/-! ## The loss of a host port (R453) -/

/-- A write action that waited for an aborted move follows it (R105). -/
def settleWrite (s : State) : State :=
  if writeWaits s (field s.mgmt.migReq.toNat 24 0) then runWrite s (s.mgmt.sem 2).owner else s

/-- HOST_PORT_LOST (R453): its record, moves to or from its memory aborted (R433), a streaming it made before Loading given up. -/
def execHostPortLost (port : Nat) (s : State) : Host.Outcome State Fault Refusal :=
  .next (
    if !hostOk s port then s
    else
      let d := { s.dev with lost := AMap.set 0 s.dev.lost port 1, losses := s.dev.losses ++ [(port, s.dev.cycle)] }
      let d := report d { cls := 0x6D, sev := 3, kind := 5, index := port, ctx := none }
      let t := settleWrite { s with mgmt := s.mgmt.loseSems port s.dev.cycle, dev := abortMoves d }
      t.mapBoot fun b =>
        let b := if port = 0 then { b with trained0 := false } else { b with trained1 := false }
        if b.owner == some port && (b.state == .waiting || b.state == .verifying) then { b with state := .waiting, owner := none } else b)

/-- PORT_SEM_RELEASE_TIMEOUT (R453): 1 ms after a loss, once for each, whether or not the port has returned. -/
def execPortSemReleaseTimeout (port : Nat) (s : State) : Host.Outcome State Fault Refusal :=
  .next (
    match s.dev.losses.find? fun x => x.1 == port && decide (x.2 + ms ≤ s.dev.cycle) with
    | none => s
    | some x =>
      let mask := (List.range 32).foldl (fun n i => if (s.mgmt.sem i).lostWith port x.2 then n + 2 ^ i else n) 0
      { s with
        mgmt := s.mgmt.dropSems port x.2
        dev := report { s.dev with losses := s.dev.losses.erase x } { cls := 0x6C, sev := 3, kind := 5, index := port, ctx := none, d0 := mask } })

end Sys2Proof.Machine
end

