-- ==== Sys2Proof/Machine/EvFabric.lean ====
section
/-! DEFINITION. Link ports (R457 to R460), the end-to-end layer of this package as source (R341 to R343, R435, R436, R461 to R467) and
as destination (R340, R342, R345, R462, R463, R466). -/

namespace Sys2Proof.Machine

/-! ## Ports -/

/-- Index of a port in the port table, and the unit that its records name (DEDUCED, log 34). -/
def linkKey (l : LinkId) : Nat := if l.dumund then 16 + l.port % 16 else l.port % 16

def Dev.port (d : Dev) (p : Nat) : Port := AMap.get Port.blank d.ports p
def Dev.setPort (d : Dev) (p : Nat) (v : Port) : Dev := { d with ports := AMap.set Port.blank d.ports p v }

/-- A record of a port. -/
def portRecord (d : Dev) (p cls d0 : Nat) : Dev :=
  report d { cls, sev := 0, kind := if p < 16 then 5 else 4, index := p % 16, ctx := none, d0 }

/-- Whether a port carries new requests (R457). -/
def Port.usable (p : Port) : Bool := p.state == .up || p.state == .degraded

/-! ## Sending again (R343, R462) -/

/-- A request sent again with its number on the next usable port of its mask, a message of a stack agent on its plane (R468); nothing of a
closed pair is (R465). -/
def resend (dst : Nat) (d : Dev) (x : Sent) : Dev :=
  let o := d.out dst
  if o.closed then d else
  let p := routeOf d dst o x.access x.planes
  let o := { o.tried p with
    sent := o.sent.map fun y => if y.seq = x.seq then { y with port := p, at_ := d.cycle } else y
    rotation := if p = 255 || isAgent dst then o.rotation else some p }
  let d := noteSending (d.setOut dst o) dst x.seq p x.access
  match x.access.kind with
  | .message m => noteRelay d (pairStack dst) m p
  | _ => d

/-- Every unacknowledged request of a destination that was sent on a port, in sequence order. -/
def resendPort (p : Nat) (d : Dev) (dst : Nat) : Dev := ((d.out dst).sent.filter fun x => x.port == p).foldl (resend dst) d

/-- Destinations with state at this source. -/
def Dev.destinations (d : Dev) : List Nat := d.outs.map (·.1)

/-- A port enters Failed (R458): its requests are sent again (R462). -/
def failPort (d : Dev) (p reason : Nat) : Dev :=
  let v := d.port p
  if v.state = .failed then d
  else
    let d := d.setPort p { v with state := .failed, failures := (v.failures + 1) % 65536, reason, failedAt := d.cycle }
    let d := portRecord d p 0x80 reason
    d.destinations.foldl (resendPort p) d

/-- A link event takes a port out while the links run. -/
def linkFails (link : LinkId) (reason : Nat) (s : State) : State :=
  if s.mgmt.runs then s.mapDev fun d => failPort d (linkKey link) reason else s

/-- LANE_SIGNAL_LOSS (R458): reason 1. -/
def execLaneSignalLoss (link : LinkId) (s : State) : Host.Outcome State Fault Refusal := .next (linkFails link 1 s)

/-- REPLAY_LIMIT (R458): reason 2. -/
def execReplayLimit (link : LinkId) (s : State) : Host.Outcome State Fault Refusal := .next (linkFails link 2 s)

/-- CREDIT_TIMEOUT (R458): reason 3. -/
def execCreditTimeout (link : LinkId) (s : State) : Host.Outcome State Fault Refusal := .next (linkFails link 3 s)

/-- FLIT_CRC_ERROR (R337, R459): the flit is sent again on the link; a training port counts its 1 ms anew. -/
def execFlitCrcError (link : LinkId) (s : State) : Host.Outcome State Fault Refusal :=
  .next (s.mapDev fun d =>
    let v := d.port (linkKey link)
    if v.state = .training then d.setPort (linkKey link) { v with trainedAt := d.cycle } else d)

/-- Whether a port is to be trained again: it has failed, and no attempt has brought it up since (R459). -/
def Port.retrains (p : Port) : Bool := !p.disable && (p.state == .failed || (p.state == .training && p.reason != 0))

/-- PORT_RETRAIN (R459): 10 ms after the failure, and every 10 ms while the attempt before has not brought the port up, unless disabled. -/
def execPortRetrain (link : LinkId) (s : State) : Host.Outcome State Fault Refusal :=
  .next (
    let v := s.dev.port (linkKey link)
    if s.mgmt.runs && v.retrains && decide (v.failedAt + 10 * ms ≤ s.dev.cycle) then
      s.mapDev fun d => d.setPort (linkKey link) { v with state := .training, trainedAt := d.cycle, failedAt := d.cycle }
    else s)

/-- PORT_UP (R459): after 1 ms without a replay; a port that had failed makes its record. -/
def execPortUp (link : LinkId) (s : State) : Host.Outcome State Fault Refusal :=
  .next (
    let v := s.dev.port (linkKey link)
    if s.mgmt.runs && v.state == .training && decide (v.trainedAt + ms ≤ s.dev.cycle) then
      s.mapDev fun d =>
        let d := d.setPort (linkKey link) { v with state := .up }
        if v.reason = 0 then d else portRecord d (linkKey link) 0x81 0
    else s)

/-- PORT_DEGRADED (R457): below half the nominal rate for 100 µs, or back. -/
def execPortDegraded (link : LinkId) (low : Bool) (s : State) : Host.Outcome State Fault Refusal :=
  .next (s.mapDev fun d =>
    let v := d.port (linkKey link)
    match v.state, low with
    | .up, true => d.setPort (linkKey link) { v with state := .degraded }
    | .degraded, false => d.setPort (linkKey link) { v with state := .up }
    | _, _ => d)

/-- PORT_DISABLE (R458, R460): the disable bit of a port's status register. A port that has failed already then is failed with reason 4; it
does not enter Failed again. -/
def execPortDisable (port : Nat) (link : LinkId) (v : DWord) (s : State) : Host.Outcome State Fault Refusal :=
  .next (gated s port (some 2) false (0x00070000 + 8 * (linkKey link)) fun s =>
    s.mapDev fun d =>
      let off := bitOf v.toNat 2
      let d := d.setPort (linkKey link) { d.port (linkKey link) with disable := off }
      let v := d.port (linkKey link)
      if !off then d
      else if v.state = .failed then d.setPort (linkKey link) { v with reason := 4 }
      else failPort d (linkKey link) 4)

/-! ## The source: resends and suspicion (R343, R461) -/

/-- What is kept of a port towards a destination: whether it is suspect, and the requests in a row that it lost. -/
def setSuspect (p : Nat) (x : Option Suspect) (o : PeerOut) : PeerOut :=
  { o with suspects := (o.suspects.filter fun y => y.port != p) ++ x.toList, misses := o.misses.filter fun y => y.1 != p }

/-- A change in every pair of this package with a destination. -/
def mapPairs (d : Dev) (dst : PeerId) (f : PeerOut → PeerOut) : Dev := (pairsOf dst).foldl (fun d k => d.setOut k (f (d.out k))) d

/-- A port suspect for a destination (R461): its record, and its requests sent again on others (R462). -/
def suspectPort (d : Dev) (dst p : Nat) : Dev :=
  let d := mapPairs d dst (setSuspect p (some ⟨p, d.cycle, false⟩))
  (pairsOf dst).foldl (resendPort p) (portRecord d p 0x82 dst)

/-- The requests in a row to a destination that a port has lost. -/
def missesOf (d : Dev) (dst : PeerId) (p : Nat) : Nat := ((pairsOf dst).map fun k => ((d.out k).misses.filter fun y => y.1 == p).length).sum

/-- E2E_RESEND_TIMEOUT (R343, R461): 20 µs without acknowledgement. The third request in a row that a port loses makes the port suspect; the
one that tries a suspect port leaves it so for 10 ms more (DESIGN CHOICE, log 122). -/
def execE2eResendTimeout (dst : PeerId) (seq : Nat) (s : State) : Host.Outcome State Fault Refusal :=
  .next (s.mapDev fun d =>
    let o := d.out dst
    match o.sent.find? fun x => x.seq == seq with
    | none => d
    | some x =>
      if d.cycle < x.at_ + ms / 50 then d
      else if x.port = 255 || !(d.port x.port).usable then resend dst d x
      else
        let lost := (x.port, x.seq)
        if o.suspects.any fun y => y.port == x.port then
          resend dst (mapPairs d dst (setSuspect x.port (some ⟨x.port, d.cycle, false⟩))) x
        else
          let d := d.setOut dst { o with misses := if o.misses.contains lost then o.misses else o.misses ++ [lost] }
          if 3 ≤ missesOf d dst x.port then suspectPort d dst x.port else resend dst d x)

/-- SUSPECT_EXPIRY (R461): after 10 ms the next request to the destination tries the port again. -/
def execSuspectExpiry (link : LinkId) (dst : PeerId) (s : State) : Host.Outcome State Fault Refusal :=
  .next (s.mapDev fun d =>
    mapPairs d dst fun o =>
      { o with suspects := o.suspects.map fun x => if x.port = linkKey link ∧ x.since + 10 * ms ≤ d.cycle then { x with trial := true } else x })

/-! ## The source: answers (R342, R435, R436) -/

/-- Key of the watch of a thread that waits for the word of another package: its `bar.sys` add. -/
def remoteWatch (dst seq : Nat) : Nat := 2 ^ 61 + dst * 65536 + seq

/-- An answered request leaves the source; its port has answered this destination, and is suspect no more (R461). -/
def settleSent (d : Dev) (dst : Nat) (x : Sent) : Dev :=
  let d := mapPairs d dst (setSuspect x.port none)
  d.setOut dst { d.out dst with sent := (d.out dst).sent.filter fun y => y.seq != x.seq }

/-- The receipt of an answer with a cached result, a read's too (R342; DESIGN CHOICE, log 101). -/
def receipt (d : Dev) (dst seq : Nat) : Dev := d.notify (.fabric 4 dst seq)

/-- What an answer gives the access it answers. -/
def answerAccess (d : Dev) (dst : Nat) (x : Sent) (v : DWord) : Dev :=
  let a := x.access
  match a.kind with
  | .atom op ty _ _ =>
    match a.result with
    | some r => receipt (setResult d r (v.toNat % 2 ^ (8 * atomBytes op ty))) dst x.seq
    | none => receipt d dst x.seq
  | .barSys count =>
    barSysArrived (receipt d dst x.seq) a count (sysTargetOf count v.toNat) ((v.toNat + 1) % 2 ^ 64) (remoteWatch dst x.seq) true
  | .load _ => receipt d dst x.seq
  | _ => d

/-- E2E_ACK_ARRIVAL (R342, R436): an acknowledgement, with the old value of an atomic; none: unreachable. For a thread that waits for a
word of another package it is the wake (R222). -/
def execE2eAckArrival (dst : PeerId) (seq : Nat) (ans : Option DWord) (s : State) : Host.Outcome State Fault Refusal :=
  .next (s.mapDev fun d =>
    match (d.out dst).sent.find? fun x => x.seq == seq with
    | some x =>
      let d := settleSent d dst x
      let d := match ans with | some v => answerAccess d dst x v | none => unreachable d x.access dst
      progressIssuer d x.access.who
    | none =>
      match d.watch.find? fun w => w.key == remoteWatch dst seq with
      | some w => { d with watch := d.watch.filter fun x => x != w }.wakeIssuer w.who
      | none => d)

/-- E2E_BUSY_ANSWER (R342, R464): the atomic is sent again later; a class 0x87 record at most once a millisecond for a destination. -/
def execE2eBusyAnswer (dst : PeerId) (seq : Nat) (s : State) : Host.Outcome State Fault Refusal :=
  .next (s.mapDev fun d =>
    let o := d.out dst
    if o.sent.any fun x => x.seq == seq then
      let d := d.setOut dst { o with sent := o.sent.map fun x => if x.seq = seq then { x with at_ := d.cycle } else x }
      rateNote d 0x87 dst 1 dst 0 false fun r => { cls := 0x87, sev := 0, kind := 5, index := 0, ctx := none, d0 := dst, d1 := r.count }
    else d)

/-- Requests answered unreachable in their order (R435, R436). -/
def loseSent (d : Dev) (dst : Nat) (l : List Sent) : Dev :=
  let d := l.foldl (fun d x => unreachable d x.access dst) d
  l.foldl (fun d x => progressIssuer d x.access.who) d

/-- UNREACHABLE_ANSWER (R435, R467): translations that name another generation are dropped, the requests that carry one are answered
unreachable, and the pair closes until a request names the reported generation. A stack agent's messages that wait are lost with it. -/
def execUnreachableAnswer (dst : PeerId) (gen : Nat) (s : State) : Host.Outcome State Fault Refusal :=
  .next (s.mapDev fun d =>
    let d := { d with remotes := d.remotes.filter fun r => !(field r.2.2.1.toNat 18 0 == dst && field r.2.2.2.toNat 31 16 != gen) }
    let o := d.out dst
    let old := o.sent.filter fun x => x.gen != gen
    if old.isEmpty then d
    else
      let d := d.setOut dst
        { o with sent := o.sent.filter fun x => x.gen == gen, queue := [], closed := true, closedAt := d.cycle, fresh := true, reported := gen }
      loseSent (o.queue.foldl (fun d m => match m with | .abort _ _ => d | _ => loseFiring d (pairStack dst) (msgEntry m) 1) d) dst old)

/-- The ports by which a request may leave: those of its plane mask, or of its stack and its sibling's (R344, R468). -/
def routesOf (dst : PeerId) (planes : Nat) : List Nat :=
  if isAgent dst then [16 + pairStack dst, 16 + Nat.xor (pairStack dst) 1] else (List.range 16).filter (bitOf planes)

/-- Whether R465's condition on the oldest request holds: 1 ms, every port that might carry it Failed or suspect. -/
def routesLost (d : Dev) (dst : PeerId) : Bool :=
  let o := d.out dst
  match o.sent with
  | x :: _ =>
    decide (x.since + ms ≤ d.cycle) && (routesOf dst x.planes).all fun p => (d.port p).state == .failed || o.suspects.any fun y => y.port == p
  | [] => false

/-- A peer agent declared unreachable: the firings of the stack that have it fail with reason 1 (R465, R470). -/
def loseAgent (d : Dev) (stack id : Nat) : Dev :=
  (runningEntries d).foldl (fun d p =>
    let w (i : Nat) : Nat := entryWord d p.1 p.2 i
    if p.1 = stack && (List.range (members w)).any fun k => peerAt w k == id then loseFiring d p.1 p.2 1 else d) d

/-- UNREACHABLE_DECLARE (R465): the pair closes, and its requests are answered unreachable. -/
def execUnreachableDeclare (dst : PeerId) (s : State) : Host.Outcome State Fault Refusal :=
  .next (s.mapDev fun d =>
    let o := d.out dst
    if o.closed || !routesLost d dst then d
    else
      let d := d.setOut dst { o with sent := [], queue := [], closed := true, closedAt := d.cycle, fresh := false }
      let d := { d with remotes := d.remotes.filter fun r => isAgent dst || field r.2.2.1.toNat 18 0 != dst }
      let d := loseSent d dst o.sent
      let d := if isAgent dst then loseAgent d (pairStack dst) (pairAgent dst) else d
      report d { cls := 0x83, sev := 3, kind := if isAgent dst then 4 else 5, index := if isAgent dst then pairStack dst else 0, ctx := none, d0 := dst % 2 ^ 24 })

/-- Whether a resynchronisation finds a port: any UALink port, or a Dumund port of the pair's stack or its sibling (R468). -/
def reopenPort (d : Dev) (dst : PeerId) : Bool := (routesOf dst 65535).any fun p => (d.port p).usable

/-- One closed pair reopened: 10 ms after its close; with no usable port it waits 10 ms more. -/
def reopenPair (d : Dev) (dst : PeerId) : Dev :=
  let o := d.out dst
  if d.cycle < o.closedAt + 10 * ms then d
  else if !reopenPort d dst then d.setOut dst { o with closedAt := d.cycle }
  else
    let n := if o.fresh then 0 else o.next
    let d := d.setOut dst (if o.fresh then o.reopen else { PeerOut.blank with next := n })
    report (d.notify (.fabric 2 dst n))
      { cls := 0x84, sev := 0, kind := if isAgent dst then 4 else 5, index := if isAgent dst then pairStack dst else 0, ctx := none, d0 := dst % 2 ^ 24 }

/-- REOPEN_RETRY (R466, R467): 10 ms after the close, and every 10 ms while no port is usable; req is cleared once no pair that the
register names is closed. -/
def execReopenRetry (s : State) : Host.Outcome State Fault Refusal :=
  .next (
    let w := s.mgmt.reopenReg.toNat
    if !bitOf w 63 then s
    else
      let d := (reopenPairs s.dev w).foldl reopenPair s.dev
      let mgmt := if (reopenPairs d w).isEmpty then { s.mgmt with reopenReg := BitVec.ofNat 64 (w % 2 ^ 24) } else s.mgmt
      { s with mgmt, dev := d })

/-! ## The destination (R340, R342, R345, R462, R463) -/

def Dev.in_ (d : Dev) (src : Nat) : PeerIn := AMap.get PeerIn.blank d.ins src
def Dev.setIn (d : Dev) (src : Nat) (i : PeerIn) : Dev := { d with ins := AMap.set PeerIn.blank d.ins src i }

/-- The port of an answer: the one by which the request came, or the lowest that is up of its kind (R463). -/
def answerPort (d : Dev) (plane : Nat) : Nat :=
  if (d.port plane).usable then plane
  else ((List.range 16).map (plane / 16 * 16 + ·)).find? (fun p => (d.port p).state == .up) |>.getD plane

def answer (d : Dev) (r : RemoteReq) (v : Option Nat) : Dev := d.notify (.answer r.src r.seq (answerPort d r.plane) v)

/-- A request answered busy (0), or as one of an unsupported feature (1). -/
def refuse (d : Dev) (r : RemoteReq) (kind : Nat) : Dev := d.notify (.refusal kind r.src r.seq (answerPort d r.plane))

/-- Whether a request's answer is kept until the source has it: an atomic's (R342). A read's is kept too, uncounted, since a duplicate is
not performed again (DESIGN CHOICE, log 101). -/
def reqReturns (r : RemoteReq) : Bool := match r.op with | .atomic _ _ _ _ | .barSys _ => true | _ => false
def reqReads (r : RemoteReq) : Bool := match r.op with | .read _ => true | _ => false

/-- Whether the part serves a request: reads, writes, atomic add, exchange, compare-and-swap, min and max on integers, and contributions
through the reduction window (R340). -/
def remoteSupported (op : RemoteOp) : Bool :=
  let atomic (o : AtomOp) (ty : MType) : Bool :=
    match o with
    | .exch | .cas => true
    | .add | .min | .max => (tyFmt ty).isNone
    | _ => false
  match op with
  | .atomic o ty _ _ => atomic o ty
  | .reduce o ty _ => atomic o ty || ((o == .add || o == .kahan) && (tyFmt ty).isSome)
  | .unsupported => false
  | _ => true

/-- Bytes of a write under its byte enables, low byte first. -/
def mergeBytes (old v en : Nat) : Nat → Nat
  | 0 => 0
  | n + 1 => (if en % 2 = 1 then v % 256 else old % 256) + 256 * mergeBytes (old / 256) (v / 256) (en / 2) n

/-- A request as an access in the name of its remote context. -/
def reqAccess (r : RemoteReq) (d : Dev) (kind : AccKind) : Access :=
  { id := d.nextId, who := .remote r.src r.seq, ctx := r.rctx, pc := 0, space := 0, addr := r.addr, key := 0, rel := none, after := []
    det := bitOf (ctxWord d r.rctx 0).toNat 62, faulted := false, kind := kind, result := none, ltag := r.ltag, stamp := r.stamp
    die := sliceDie (sliceAt r.addr) }

/-- Poison that a write of the enabled bytes among `n` from `pa` does not cover whole (R429). -/
def unpoisonEnabled (d : Dev) (pa n en : Nat) : List Poison :=
  let whole (base a u : Nat) : Bool := base ≤ a && decide (a + u ≤ base + n) && en / 2 ^ (a - base) % 2 ^ u == 2 ^ u - 1
  d.poison.filter fun p => !((p.space == 5 && whole pa (p.addr * 8) 8)
    || (p.space == 0 && match readPlace d pa with | some (.hbm k) => whole k (p.addr * 32) 32 | _ => false))

/-- A request performed at its home slice, with the value that answers it; none: the word is poisoned (DEDUCED, log 35). -/
def performRemote (d : Dev) (r : RemoteReq) : Option Nat × Dev :=
  let pa := r.addr
  let (tag, d) := takeTag d (sliceAt pa)
  let line := lineOf pa
  let act (k : AccKind) : Option Nat × Dev :=
    let d := performPhys d (reqAccess r d k) pa false (sliceAt pa) tag
    (some 0, { d with acks := d.acks.filter fun a => a.who != .remote r.src r.seq })
  match r.op with
  | .read n =>
    let d := recallLine d line
    if physPoisoned d pa n then (none, d) else (some (physReadN d pa n), d)
  | .write n v en =>
    let d := recallLine d line
    (some 0,
      if en % 2 ^ n = 2 ^ n - 1 then physStore d pa n v
      else { physWriteN d pa n (mergeBytes (physReadN d pa n) v en n) with poison := unpoisonEnabled d pa n en })
  | .atomic op ty v cmp =>
    let d := recallLine d line
    let n := atomBytes op ty
    if physPoisoned d pa n then (none, poisonAt d (reqAccess r d (.atom op ty v cmp)) (sliceAt pa) tag)
    else
      let old := physReadN d pa n
      let d := if op = .cas && old != cmp then d else applyAt d pa op ty v cmp
      (some old, if op = .add && n = 8 then wakeSys d pa else d)
  | .reduce op ty v => act (.red op ty v)
  | .commit => act .commit
  | .barSys count =>
    let d := recallLine d line
    if physPoisoned d pa 8 then (none, d)
    else
      let old := physReadN d pa 8
      let (target, d) := arriveSys d pa count old
      let d := wakeSys (physWriteN d pa 8 ((old + 1) % 2 ^ 64)) pa
      (some old,
        if target ≤ (old + 1) % 2 ^ 64 || !sysWatchRoom d pa then d
        else { d with watch := d.watch ++ [⟨2 ^ 60 + pa, .remote r.src r.seq, 2, target, true⟩] })
  | .agent _ _ | .unsupported => (none, d)

/-- Results of atomics cached at an I/O die (R342). -/
def cachedResults (d : Dev) (die : Nat) : Nat := (d.ins.map fun i => (i.2.results.filter fun x => x.2.1 == die).length).sum

/-- The I/O die that caches a request's result: that of the port by which it came; a read's is uncounted, 2. -/
def resultDie (r : RemoteReq) : Nat := if reqReads r then 2 else r.plane / 8

/-- A request answered, its answer kept where it returns one. -/
def answerOnce (d : Dev) (r : RemoteReq) (v : Option Nat) : Dev :=
  let i := d.in_ r.src
  answer (if reqReturns r || reqReads r then d.setIn r.src { i with results := i.results ++ [(r.seq, resultDie r, v)] } else d) r v

/-- How a request next in sequence ends here. -/
inductive Delivery where
  /-- performed: the pair goes on -/
  | done
  /-- its atomic is answered busy, or its frame is not valid: it comes again (DEDUCED, log 36) -/
  | again
  deriving DecidableEq, Repr

/-- The classes that the record of an unsupported request may have: R340 names none, and these are the ones that the part raises or may
raise (R438, R456, R472; DEDUCED, log 78). -/
def openClasses : List Nat :=
  (List.range 256).filter fun c => !((0x50 ≤ c && c ≤ 0x5F) || c == 0x6F || (0x72 ≤ c && c ≤ 0x7F) || (0x89 ≤ c && c ≤ 0x9F))

/-- The classes that concern no single context (R400). -/
def contextless : List Nat := [0x42, 0x46, 0x64, 0x65, 0x67, 0x6A, 0x80, 0x81, 0x82, 0x84, 0x86, 0x87]

/-- A request next in its sequence delivered. -/
def deliverOne (d : Dev) (r : RemoteReq) : Delivery × Dev :=
  if let .agent stack m := r.op then (.done, answer (takeAgent stack m d) r (some 0))
  else if !remoteSupported r.op then
    let c := openClasses.getD ((Config.freeByte d.fresh).toNat % openClasses.length) 0
    (.done, report (refuse { d with fresh := d.fresh + 1 } r 1)
      { cls := c, sev := 0, kind := 5, index := r.plane, ctx := if contextless.contains c then none else some r.rctx, addr := r.addr })
  else if reqReturns r && Config.cachedResults ≤ cachedResults d (resultDie r) then (.again, refuse d r 0)
  else if !frameOk d r.addr then (.again, d)
  else if tierLost d d.isLost r.addr then
    let asks := reqReturns r || reqReads r
    (.done, answerOnce (if asks then d else report d { cls := 0x4B, sev := 1, kind := 3, index := sliceAt r.addr, ctx := some r.rctx, addr := r.addr, d0 := 1 })
      r (if asks then none else some 0))
  else
    let (v, d) := performRemote d r
    (.done, answerOnce d r v)

/-- Waiting requests of a pair delivered in sequence order; the first argument bounds them. -/
def deliverWaiting (src : Nat) : Nat → Dev → Dev
  | 0, d => d
  | k + 1, d =>
    let i := d.in_ src
    match i.waiting.find? fun r => r.seq == i.next with
    | none => d
    | some r =>
      match deliverOne d r with
      | (.again, d) => d
      | (.done, d) =>
        let i := d.in_ src
        deliverWaiting src k (d.setIn src { i with next := (i.next + 1) % 65536, waiting := i.waiting.filter fun x => x.seq != r.seq })

/-- A request that arrives (R342, R462): next in sequence, ahead of its turn, or a duplicate. -/
def arrive (d : Dev) (r : RemoteReq) : Dev :=
  let i := d.in_ r.src
  let ahead := (r.seq + 65536 - i.next) % 65536
  if ahead < Config.e2eWindow then
    let d := if i.waiting.any fun x => x.seq == r.seq then d else d.setIn r.src { i with waiting := i.waiting ++ [r] }
    deliverWaiting r.src (i.waiting.length + 1) d
  else if ahead < 32768 then d
  else
    let own := match r.op with | .agent _ _ => true | _ => false
    match i.results.find? fun x => x.1 == r.seq with
    | some x => answer d r x.2.2
    | none => if !own && !remoteSupported r.op then refuse d r 1 else if reqReturns r || reqReads r then d else answer d r (some 0)

/-- A request for a context that is not valid, or beyond the addresses that remote accesses reach (R344, R345). -/
def badContext (d : Dev) (r : RemoteReq) : Bool :=
  match r.op with
  | .agent _ _ => false
  | _ => decide (Config.contexts ≤ r.rctx) || !bitOf (ctxWord d r.rctx 0).toNat 63 || decide (2 ^ 40 ≤ r.addr)

/-- A request that reaches the part (R342, R345): one of another generation, or for a context that is not valid, is answered unreachable. -/
def reachPart (s : State) (r : RemoteReq) : State :=
  if !s.mgmt.runs then s
  else s.mapDev fun d => if r.gen ≠ s.mgmt.boot.gen || badContext d r then answer d r none else arrive d r

/-- E2E_REQUEST_ARRIVAL (R342, R345). -/
def execE2eRequestArrival (r : RemoteReq) (s : State) : Host.Outcome State Fault Refusal := .next (reachPart s r)

/-- RESYNC_ARRIVAL (R466): the pair's waiting requests and cached results are gone, and N is the next number. -/
def execResyncArrival (src : PeerId) (seq : Nat) (s : State) : Host.Outcome State Fault Refusal :=
  .next (if s.mgmt.runs then s.mapDev fun d => d.setIn src { next := seq % 65536, waiting := [], results := [] } else s)

/-- RECEIPT_ACKNOWLEDGEMENT (R342): the cached result is freed. -/
def execReceiptAcknowledgement (src : PeerId) (seq : Nat) (s : State) : Host.Outcome State Fault Refusal :=
  .next (s.mapDev fun d =>
    let i := d.in_ src
    d.setIn src { i with results := i.results.filter fun x => x.1 != seq })

end Sys2Proof.Machine
end

