-- ==== Sys2Proof/Machine/EvColl.lean ====
section
/-! DEFINITION. What reaches the stack agents from their peers (R336, R341, R342, R469 to R471), and their time limits. -/

namespace Sys2Proof.Machine

/-- A message to a stack agent as a request of the end-to-end layer (R341). -/
def agentRequest (stack : Nat) (h : AgentHead) (m : AgentMsg) : RemoteReq :=
  { src := agentPair stack h.src, seq := h.seq, gen := h.gen, rctx := 0, addr := 0, op := .agent stack m, stamp := 0, ltag := 0
    plane := 16 + h.plane % 16 }

/-- FIRING_MESSAGE (R471). -/
def execFiringMessage (stack : Nat) (m : Posted FireMsg) (s : State) : Host.Outcome State Fault Refusal :=
  .next (reachPart s (agentRequest stack m.head (.fire m.body)))

/-- CHUNK_ARRIVAL (R336). -/
def execChunkArrival (stack : Nat) (c : Posted CollChunk) (s : State) : Host.Outcome State Fault Refusal :=
  .next (reachPart s (agentRequest stack c.head (.chunk c.body)))

/-- COLL_ABORT_ARRIVAL (R470, R471). -/
def execCollAbortArrival (stack entry : Nat) (count : Posted Nat) (s : State) : Host.Outcome State Fault Refusal :=
  .next (reachPart s (agentRequest stack count.head (.abort entry count.body)))

/-- Whether a link that a firing uses has failed or is degraded, and which: the stack's own, or its sibling's once the firing is relayed
(R339). -/
def badPlane (d : Dev) (stack : Nat) (f : Firing) : Option Nat :=
  (stack :: if f.relayed then [Nat.xor stack 1] else []).find? fun q =>
    f.avoid != some q && ((d.port (16 + q)).state == .failed || (d.port (16 + q)).state == .degraded)

/-- The agent saw a link of the plan fail or slow down: it proposes a re-plan to every member (R339, R469). -/
def proposeReplan (stack entry : Nat) (d : Dev) : Dev :=
  let f := d.firing stack entry
  let c := collJob d stack entry
  match badPlane d stack f with
  | some q =>
    if entryRunning (entryWord d stack entry 0) && mayReplan c f && f.replan.isNone then
      let d := d.setFiring stack entry (noteReplan d.cycle q none f)
      goReplan ((peersOf d c).foldl (fun d id => postAgent d stack id (.propose entry f.count c.rank q)) d) c
    else d
  | none => d

/-- COLL_REPLAN (R339, R469). -/
def execCollReplan (stack entry : Nat) (m : ReplanMsg) (s : State) : Host.Outcome State Fault Refusal :=
  match m with
  | .seen => s.onDev (proposeReplan stack entry)
  | .message h agrees count rank plane =>
    .next (reachPart s (agentRequest stack h (if agrees then .agree entry count rank plane else .propose entry count rank plane)))

/-- REPLAN_TIMEOUT (R469): no agreement within 1 ms fails the firing. -/
def execReplanTimeout (stack entry : Nat) (s : State) : Host.Outcome State Fault Refusal :=
  s.onDev fun d =>
    match (d.firing stack entry).replan with
    | some p =>
      if entryRunning (entryWord d stack entry 0) && decide (p.since + ms ≤ d.cycle) then failFiring d (collJob d stack entry) 4 else d
    | none => d

/-- FIRING_TIMEOUT (R471): a peer's message is missing after 1 s. -/
def execFiringTimeout (stack entry : Nat) (s : State) : Host.Outcome State Fault Refusal :=
  s.onDev fun d =>
    let f := d.firing stack entry
    let c := collJob d stack entry
    match f.since with
    | some t =>
      if entryRunning (entryWord d stack entry 0) && decide (t + 1000 * ms ≤ d.cycle) && decide (f.agreed.length + 1 < c.n) then failFiring d c 7 else d
    | none => d

end Sys2Proof.Machine
end

