-- ==== Sys2Proof/Machine/EvTime.lean ====
section
/-! DEFINITION. Device time set and disciplined (R347 to R350). -/

namespace Sys2Proof.Machine

/-- An offset in nanoseconds from the current time, in 2^-16 ns. -/
def nsUnits (n : Int) : Int := n * 65536

/-- Device time in 2^-16 ns. -/
def Dev.units (d : Dev) : Nat := (d.secs * 10 ^ 9 + d.nanos) * 65536 + d.frac

/-- Device time set to a count of 2^-16 ns, with nothing left to absorb. -/
def Dev.stepTo (d : Dev) (n : Nat) : Dev :=
  { d with secs := n / 65536 / 10 ^ 9, nanos := n / 65536 % 10 ^ 9, frac := n % 65536, slew := 0, half := false }

/-- An offset applied by R350: slewed up to step_us, a larger later one stepped to, a larger earlier one absorbed at half rate. -/
def applyOffset (d : Dev) (stepUs : Nat) (o : Int) : Dev :=
  let limit : Int := nsUnits (stepUs * 1000)
  if -limit ≤ o ∧ o ≤ limit then { d with slew := o, half := false }
  else if 0 < o then d.stepTo (d.units + o.toNat)
  else { d with slew := o, half := true }

/-- Fields of the time control register (R349). -/
def Mgmt.stepUs (m : Mgmt) : Nat := field m.timeCtl.toNat 47 32
def Mgmt.domain (m : Mgmt) : Nat := field m.timeCtl.toNat 31 24
def Mgmt.transport (m : Mgmt) : Nat := field m.timeCtl.toNat 19 18
def Mgmt.source (m : Mgmt) : Nat := field m.timeCtl.toNat 2 1
def Mgmt.disciplined (m : Mgmt) : Bool := bitOf m.timeCtl.toNat 0

/-- TIME_SET (R349): the seconds and the written nanoseconds and fraction, as an offset from now. -/
def execTimeSet (port : Nat) (v : DWord) (s : State) : Host.Outcome State Fault Refusal :=
  .next (gated s port (some 1) false 0x00030028 fun s =>
    let ns := field v.toNat 63 32
    if 10 ^ 9 ≤ ns then s
    else
      let target : Nat := (s.mgmt.setSecs.toNat * 10 ^ 9 + ns) * 65536 + field v.toNat 15 0
      s.mapDev fun d => applyOffset d s.mgmt.stepUs ((target : Int) - d.units))

/-- A measured offset taken in by the discipline (R349, R350): recorded, counted towards the lock, applied. -/
def takeOffset (s : State) (o : Int) : State :=
  { s with
    mgmt := { s.mgmt with offset := o, good := if -100 ≤ o ∧ o ≤ 100 then min 16 (s.mgmt.good + 1) else 0 }
    dev := applyOffset s.dev s.mgmt.stepUs (nsUnits o) }

/-- Device time in whole nanoseconds, as the timing port stamps messages. -/
def Dev.nsNow (d : Dev) : Int := ((d.secs * 10 ^ 9 + d.nanos : Nat) : Int)

/-- The order of data sets in the best master comparison, field by field (PRESUMED, log 104: IEEE 1588-2019). -/
def better : List Nat → List Nat → Bool
  | a :: r, b :: q => decide (a < b) || (a == b && better r q)
  | _, _ => false

def State.mapPtp (s : State) (f : Ptp → Ptp) : State := s.mapMgmt fun m => { m with ptp := f m.ptp }

/-- A master's announcement: the best master so far is followed, and its data set kept; a slave-only clock never becomes one. -/
def announced (s : State) (source : Nat) (quality : List Nat) : State :=
  let follow (s : State) : State := s.mapMgmt fun m => { m with master := true, ptp := { m.ptp with best := some (source, quality) } }
  match s.mgmt.ptp.best with
  | none => follow s
  | some (src, q) =>
    if src = source then follow s
    else if better quality q then follow (s.mapPtp fun p => { p with pending := none, down := none, asked := none })
    else s

/-- The origin time of a Sync is known: a Delay_Req goes out (R348, end-to-end). -/
def askDelay (s : State) (origin received : Int) : State :=
  let n := s.mgmt.ptp.next
  { s.mapPtp fun p => { p with pending := none, down := some (origin, received), asked := some (n, s.dev.nsNow), next := (n + 1) % 65536 } with
    dev := s.dev.notify (.delayReq n) }

/-- What a message of the port's transport and domain does. The offset of R350 is the master's time less this clock's: half of the
difference of the two ways' times (PRESUMED, log 104: IEEE 1588-2019). -/
def ptpTake (s : State) (h : PtpHead) (m : PtpMsg) : State :=
  let p := s.mgmt.ptp
  let follows : Bool := p.best.any fun b => b.1 == h.source
  match m with
  | .announce q => announced s h.source q
  | .peerDelay => s
  | .sync two origin corr =>
    if !follows then s
    else if two then s.mapPtp fun p => { p with pending := some (h.seq, s.dev.nsNow, corr) }
    else askDelay s (origin + corr) s.dev.nsNow
  | .followUp origin corr =>
    match p.pending with
    | some (n, received, c) => if follows && n == h.seq then askDelay s (origin + corr + c) received else s
    | none => s
  | .delayResp received corr =>
    match p.asked, p.down with
    | some (n, sent), some (t1, t2) =>
      if follows && n == h.seq then
        takeOffset (s.mapPtp fun p => { p with asked := none }) (((received - corr - sent) - (t2 - t1)) / 2)
      else s
    | _, _ => s
  | .silence =>
    if follows then s.mapMgmt fun m => { m with master := false, ptp := { Ptp.blank with next := p.next } } else s

/-- PTP_MESSAGE (R348): messages of another transport or domain are ignored. -/
def execPtpMessage (h : PtpHead) (m : PtpMsg) (s : State) : Host.Outcome State Fault Refusal :=
  .next (
    if s.mgmt.disciplined && s.mgmt.source == 1 && h.domain == s.mgmt.domain && h.transport == s.mgmt.transport then ptpTake s h m
    else s)

/-- PPS_INPUT (R349, R350): the edge marks a whole second, the written one, or else the nearest. -/
def execPpsInput (s : State) : Host.Outcome State Fault Refusal :=
  .next (
    if s.mgmt.disciplined && s.mgmt.source == 2 then
      let w := s.mgmt.ppsSecs.toNat
      let secs := if bitOf w 63 then w % 2 ^ 48 else (s.dev.secs * 10 ^ 9 + s.dev.nanos + 500000000) / 10 ^ 9
      let o : Int := ((secs * 10 ^ 9 : Nat) : Int) - ((s.dev.secs * 10 ^ 9 + s.dev.nanos : Nat) : Int)
      (takeOffset s o).mapMgmt fun m => { m with ppsSecs := BitVec.ofNat 64 (w % 2 ^ 48) }
    else s)

/-- PPS_OUTPUT_EDGE (R350): within 5 ns of a whole second of device time. -/
def execPpsOutputEdge (s : State) : Host.Outcome State Fault Refusal :=
  .next (s.mapDev fun d =>
    if d.nanos < 5 || 10 ^ 9 - 5 ≤ d.nanos || (d.nanos == 5 && d.frac == 0) then d.notify .pps else d)

/-- REFERENCE_INPUT_CHANGE (R347): device time counts on the input or on the internal oscillator. -/
def execReferenceInputChange (present : Bool) (s : State) : Host.Outcome State Fault Refusal :=
  .next (s.mapDev fun d => { d with reference := present })

end Sys2Proof.Machine
end

