-- ==== Sys2Proof/Machine/Sys.lean ====
section
/-! DEFINITION. Time, system registers and traps (class B, R278 to R281). -/

namespace Sys2Proof.Machine

/-- Device time as `dtime` writes it to four slots (R278). -/
def dtimeQuad (d : Dev) : Nat := packElems 32 [d.frac, d.nanos, d.secs % 2 ^ 32, d.secs / 2 ^ 32 % 2 ^ 16]

/-- `dtime` (R278). -/
def execDtime (c : Ctl) (d a b : Operand) (s : State) : Host.Outcome State Fault Refusal :=
  let i : Instr := .dtime c d a b
  s.onDev fun m =>
    (eachThread i noCheck (fun e w m => writeOut i { val := dtimeQuad e.d, mask := 2 ^ 128 - 1 } e w m) m).closeWindow i

/-- A time in 2^-16 ns in the layout of `sr.dtime` (R48). -/
def dtimeLayout (u : Nat) : Nat := u / 65536 / 10 ^ 9 % 2 ^ 16 * 2 ^ 48 + u / 65536 % 10 ^ 9 * 2 ^ 16 + u % 65536

/-- System register `n` (R279), in a compute thread or a queue thread. -/
def systemReg (mgmt : Mgmt) (d : Dev) (e : Env) (n : Nat) : Nat :=
  match e.own with
  | some (t, g) =>
    let gr := d.grid? t.grid
    let die := dieOf g.core
    match n with
    | 0 => t.ctx
    | 1 => Config.isaLevel
    | 2 => (gr.map (·.seq)).getD 0
    | 3 => (gr.map (·.queue)).getD 0
    | 4 => (gr.bind (·.deadline)).elim 0 dtimeLayout
    | 5 => (headroom d mgmt die).toNat
    | 6 => wrapInt (d.kerfAt die).temp 64
    | _ => (mgmt.budget die).2
  | none =>
    let q := d.queue e.q
    match n with
    | 0 => field q.w0.toNat 44 35
    | 1 => Config.isaLevel
    | 2 => q.launches
    | 3 => e.q
    | 4 => q.deadlineOf.elim 0 dtimeLayout
    | _ => 0

/-- `sysr` (R279): a result of long latency on a compute core, read as the instruction issues. -/
def execSysr (c : Ctl) (d a b : Operand) (s : State) : Host.Outcome State Fault Refusal :=
  let i : Instr := .sysr c d a b
  s.onDev (longEach i noCheck fun k e w m =>
    let v := systemReg s.mgmt m e (match a with | .imm n => n.toNat | _ => 0)
    match w with
    | .thr r => (newResult m r (destOf e (.dst true) d) (some v) (2 ^ 64 - 1) k).2.pass i w
    | .que _ => writeOut i { val := v, mask := 2 ^ 64 - 1 } e w m)

/-- `sysw` (R280). -/
def execSysw (c : Ctl) (d a b : Operand) (s : State) : Host.Outcome State Fault Refusal :=
  let i : Instr := .sysw c d a b
  s.onDev fun m => (eachThread i noCheck (fun e w m =>
    match w with
    | .thr r => (m.mapGroup r.team r.gid fun g => { g with lambda := lambdaStored (e.scalar 64 .int a) }).pass i w
    | .que _ => m) m).closeWindow i

/-- The code of `trap` and `brk`. -/
def trapCode (a : Operand) : Nat := match a with | .imm n => n.toNat % 65536 | _ => 0

/-- `trap` (R281, R386): the software trap, resuming after the instruction. -/
def execTrap (c : Ctl) (d a b : Operand) (s : State) : Host.Outcome State Fault Refusal :=
  let i : Instr := .trap c d a b
  s.onDev (eachThread i noCheck fun e w m =>
    m.trap w { cause := 0x10, fpc := e.h.pc.toNat, resume := e.h.pc.toNat + 1, detail := trapCode a, code := trapCode a })

/-- `brk` (R281, R386): the breakpoint trap, resuming at the instruction. -/
def execBrk (c : Ctl) (d a b : Operand) (s : State) : Host.Outcome State Fault Refusal :=
  let i : Instr := .brk c d a b
  s.onDev (eachThread i noCheck fun e w m =>
    m.trap w { cause := 0x11, fpc := e.h.pc.toNat, resume := e.h.pc.toNat, detail := trapCode a, code := trapCode a })

/-- Word 0 of the slot that issues. -/
def curWord (d : Dev) : Nat :=
  match d.cur with
  | .run _ _ _ _ w | .queue _ _ w => w.toNat
  | .none => 0

/-- `tret` (R281, R393): the return from a handler; an illegal instruction at depth 0. -/
def execTret (c : Ctl) (d a b : Operand) (s : State) : Host.Outcome State Fault Refusal :=
  let i : Instr := .tret c d a b
  s.onDev (eachThread i (fun e => if e.h.depth = 0 then some (illegalTrap e.h.pc.toNat (curWord e.d)) else none) fun _ w m =>
    match w with
    | .thr r => returnTrap m r
    | .que _ => m)

end Sys2Proof.Machine
end

