-- ==== Sys2Proof/Machine/Texture.lean ====
section
/-! DEFINITION. The spectral texture unit: `stex` (R271, R272), its descriptors and filters (R303 to R308), its faults (R448). -/

namespace Sys2Proof.Machine

/-! ## Descriptors (R303) -/

/-- A texture descriptor's words 0 to 3. -/
structure TexDesc where
  w0 : Nat
  w1 : Nat
  w2 : Nat
  w3 : Nat
  deriving DecidableEq, Repr

def TexDesc.bins (t : TexDesc) : Nat := field t.w3 55 48 + 1
def TexDesc.binStep (t : TexDesc) : Nat := field t.w3 39 20
def TexDesc.binStart (t : TexDesc) : Nat := field t.w3 19 0
def TexDesc.layers (t : TexDesc) : Nat := field t.w2 63 48 + 1
def TexDesc.height (t : TexDesc) : Nat := field t.w2 47 32 + 1
def TexDesc.width (t : TexDesc) : Nat := field t.w2 31 16 + 1
def TexDesc.levels (t : TexDesc) : Nat := field t.w2 15 12 + 1
def TexDesc.efmt (t : TexDesc) : Nat := field t.w2 5 4
def TexDesc.kind (t : TexDesc) : Nat := field t.w2 3 2

/-- The kind that a variant needs. -/
def stexKind : StexMode → Nat
  | .spec => 0 | .up => 1 | .mueller _ _ => 2

/-- Whether a request's descriptor passes R303; a reserved address mode fails it (DEDUCED, log 27). -/
def texOk (m : StexMode) (l : List Nat) (t : TexDesc) : Bool :=
  bitOf t.w2 0 && (l.drop 4).all (· == 0) && field t.w3 63 56 == 0 && field t.w3 47 40 == 0 && t.kind == stexKind m
    && (t.kind != 1 || (t.efmt == 0 && t.levels == 1)) && field t.w2 11 10 != 3 && field t.w2 9 8 != 3

/-! ## Addresses (R304) -/

def TexDesc.es (t : TexDesc) : Nat := if t.efmt = 0 then 4 else 2
def TexDesc.tb (t : TexDesc) : Nat := match t.kind with | 0 => t.bins * t.es | 1 => 16 | _ => 16 * t.bins * t.es
def TexDesc.wAt (t : TexDesc) (l : Nat) : Nat := max 1 (t.width / 2 ^ l)
def TexDesc.hAt (t : TexDesc) (l : Nat) : Nat := max 1 (t.height / 2 ^ l)

/-- off(l): the bytes of the levels below l. -/
def TexDesc.off (t : TexDesc) (l : Nat) : Nat := ((List.range l).map fun j => t.wAt j * t.hAt j * t.tb).sum

/-- Address of a texel. -/
def TexDesc.texel (t : TexDesc) (x y z l : Nat) : Nat := (t.w0 + z * t.w1 + t.off l + (y * t.wAt l + x) * t.tb) % 2 ^ 64

/-- A read of the unit: glob only. An address outside glob makes the descriptor a failed one (DESIGN CHOICE, log 65). -/
def texRead (x : Eng) (a n : Nat) : EngM Nat :=
  if apertureOf a = .glob then do return ofBytes (← engBytes x a n) else throw (.fail 2 a)

/-- A stored element's value. -/
def TexDesc.value (t : TexDesc) (v : Nat) : Val :=
  match t.efmt with
  | 0 => decodeFp .f32 v
  | 1 => decodeFp .f16 v
  | 2 => decodeFp .bf16 v
  | _ => .fin false v 65535

/-! ## Filters (R305, R306) -/

/-- A coordinate: 0 for a value that is not finite. -/
def texCoord (v : Nat) : Rat' := match val32 v with | .fin s n d => (Val.fin s n d).rat | _ => .ofInt 0

/-- A tap index by the address mode. -/
def tapIndex (mode : Nat) (w : Nat) (i : Int) : Nat :=
  match mode with
  | 0 => (i % (w : Int)).toNat
  | 1 => (min (max i 0) ((w : Int) - 1)).toNat
  | _ =>
    let m := i % (2 * w : Int)
    (if m < w then m else 2 * w - 1 - m).toNat

/-- Indices and weights along one axis of a level. -/
def axisTaps (bilin : Bool) (mode w : Nat) (u : Rat') : List (Nat × Rat') :=
  let s := u.mul (.ofInt w)
  if bilin then
    let s := s.sub ⟨1, 2⟩
    let i := s.floor
    let a := s.sub (.ofInt i)
    [(tapIndex mode w i, (Rat'.ofInt 1).sub a), (tapIndex mode w (i + 1), a)]
  else [(tapIndex mode w s.floor, .ofInt 1)]

/-- Levels and weights of a level of detail. -/
def levelTaps (t : TexDesc) (lod : Nat) : List (Nat × Rat') :=
  let top : Int := t.levels - 1
  let l : Rat' := match val32 lod with
    | .nan => .ofInt 0
    | .inf s => if s then .ofInt 0 else .ofInt top
    | v =>
      let r := v.rat
      if r.n < 0 then .ofInt 0 else if ((Val.ofInt top).lt v) then .ofInt top else r
  if bitOf t.w2 7 then
    let l0 := l.floor
    let g := l.sub (.ofInt l0)
    [(l0.toNat, (Rat'.ofInt 1).sub g), ((min (l0 + 1) top).toNat, g)]
  else [((l.add ⟨1, 2⟩).floor.toNat, .ofInt 1)]

/-- Bins and weights of a wavelength (R306). -/
def binTaps (t : TexDesc) (lam : Nat) : List (Nat × Rat') :=
  let top : Int := t.bins - 1
  let d : Int := (lam : Int) - t.binStart
  let s : Rat' := if t.binStep = 0 || decide (d < 0) then .ofInt 0 else if top * t.binStep < d then .ofInt top else ⟨d, t.binStep⟩
  let q := s.floor
  let f := s.sub (.ofInt q)
  let bin (k : Int) : Nat := (min (max k 0) top).toNat
  if bitOf t.w2 1 then
    let f2 := f.mul f
    let f3 := f2.mul f
    let c (n : Int) (x : Rat') : Rat' := (Rat'.ofInt n).mul x
    let half (x : Rat') : Rat' := x.mul ⟨1, 2⟩
    [(bin (q - 1), half (((c (-1) f3).add (c 2 f2)).sub f)),
      (bin q, half (((c 3 f3).sub (c 5 f2)).add (.ofInt 2))),
      (bin (q + 1), half (((c (-3) f3).add (c 4 f2)).add f)),
      (bin (q + 2), half (f3.sub f2))]
  else [(bin q, (Rat'.ofInt 1).sub f), (bin (q + 1), f)]

/-- Weights that count. -/
def nonzero (l : List (Nat × Rat')) : List (Nat × Rat') := l.filter fun p => p.2.n != 0

/-- The exact sum over every tap, level and bin of nonzero weight (R307); `elt` is the offset of the element within its bin, in
elements, and `per` the elements of a bin. -/
def texSum (x : Eng) (t : TexDesc) (p lam per elt : Nat) : EngM Nat := do
  let z := min (elem 32 p 2) (t.layers - 1)
  let terms := (nonzero (levelTaps t (elem 32 p 3))).flatMap fun l =>
    (nonzero (axisTaps (bitOf t.w2 6) (field t.w2 11 10) (t.hAt l.1) (texCoord (elem 32 p 1)))).flatMap fun y =>
      (nonzero (axisTaps (bitOf t.w2 6) (field t.w2 9 8) (t.wAt l.1) (texCoord (elem 32 p 0)))).flatMap fun xx =>
        (nonzero (binTaps t lam)).map fun b =>
          ((t.texel xx.1 y.1 z l.1 + (per * b.1 + elt) * t.es) % 2 ^ 64, ((l.2.mul y.2).mul xx.2).mul b.2)
  let vs ← terms.mapM fun k => do
    let v ← texRead x k.1 t.es
    return k.2.val.mul (t.value v)
  return rne32 (Val.sum false vs)

/-! ## `.up` (R272, R307) -/

/-- A colour component in [0, 1], scaled to a grid axis. -/
def gridPos (v n : Nat) : Rat' :=
  let x := val32 v
  let x := if x.isNan then Val.zero else if x.lt .zero then Val.zero else if (Val.ofInt 1).lt x then Val.ofInt 1 else x
  x.rat.mul (.ofInt ((n : Int) - 1))

/-- Grid points and weights of an axis. -/
def gridTaps (v n : Nat) : List (Nat × Rat') :=
  let s := gridPos v n
  let i := s.floor
  let f := s.sub (.ofInt i)
  nonzero [(i.toNat, (Rat'.ofInt 1).sub f), (i.toNat + 1, f)]

/-- Coefficient c of a colour. -/
def upCoeff (x : Eng) (t : TexDesc) (p c : Nat) : EngM Nat := do
  let terms := (gridTaps (elem 32 p 2) t.layers).flatMap fun b =>
    (gridTaps (elem 32 p 1) t.height).flatMap fun g =>
      (gridTaps (elem 32 p 0) t.width).map fun r => ((t.texel r.1 g.1 b.1 0 + 4 * c) % 2 ^ 64, (b.2.mul g.2).mul r.2)
  let vs ← terms.mapM fun k => do
    let v ← texRead x k.1 4
    return k.2.val.mul (t.value v)
  return rne32 (Val.sum false vs)

def fma32 (a b c : Nat) : Nat := rne32 (((val32 a).mul (val32 b)).add false (val32 c))

/-- The spectrum of coefficients at wavelength `lam` in 0.01 nm (R272). -/
def upSample (c0 c1 c2 lam : Nat) : Nat :=
  let l := rne32 (.fin false lam 100)
  let x := fma32 (fma32 c0 l c1) l c2
  if x = 0x7F800000 then 0x3F800000
  else if x = 0xFF800000 then 0
  else
    let q := fma32 x x 0x3F800000
    fma32 (rne32 ((Val.fin false 1 2).mul (val32 x))) (sfu32 false .rsqrt q) 0x3F000000

/-! ## Requests -/

/-- The wavelength of element e of `sr.lambda` (R49). -/
def TexReq.lam (q : TexReq) (e : Nat) : Nat := field q.lambda.toNat 19 0 + e * field q.lambda.toNat 39 20
def lamCountOf (l : DWord) : Nat := field l.toNat 43 40

/-- Element numbers of D that a request writes, with the wavelength index of each (R271). -/
def stexElems (m : StexMode) (count : Nat) : List (Nat × Nat) :=
  match m with
  | .spec | .up => (List.range 8).filterMap fun e => if e < count then some (e, e) else none
  | .mueller pair _ => (List.range 8).filterMap fun e =>
      let w := 2 * pair.toNat + e / 4
      if w < count then some (e, w) else none

/-- The bits of D that a request writes. -/
def stexMask (m : StexMode) (count : Nat) : Nat :=
  packElems 32 ((List.range 8).map fun e => if (stexElems m count).any fun p => p.1 == e then 2 ^ 32 - 1 else 0)

/-- Elements at their places in a packet. -/
def placeElems (l : List (Nat × Nat)) : Nat := packElems 32 ((List.range 8).map fun e => ((l.find? fun p => p.1 == e).map (·.2)).getD 0)

/-- The context-table words a request uses: as its grid's launch found them (R322). -/
def texWord (d : Dev) (q : TexReq) : Nat :=
  match d.team? q.who.team with
  | some t => (ctxAt d t 1).toNat
  | none => (ctxWord d q.ctx 1).toNat

/-- The packet of a request; stops with reason 1 or 2 of R448 as well. -/
def stexValue (x : Eng) (q : TexReq) (table : Nat) : EngM Nat := do
  if field table 15 0 ≤ q.index then throw (.fail 1 0)
  let base := table / 65536 * 65536 + 64 * q.index
  let words ← (List.range 8).mapM fun k => texRead x (base + 8 * k) 8
  let t : TexDesc := ⟨words.getD 0 0, words.getD 1 0, words.getD 2 0, words.getD 3 0⟩
  if !texOk q.mode words t then throw (.fail 2 0)
  let els := stexElems q.mode (lamCountOf q.lambda)
  match q.mode with
  | .spec => return placeElems (← els.mapM fun e => do return (e.1, ← texSum x t q.packet (q.lam e.2) 1 0))
  | .mueller _ col =>
    return placeElems (← els.mapM fun e => do return (e.1, ← texSum x t q.packet (q.lam e.2) 16 (4 * (e.1 % 4) + col.toNat)))
  | .up =>
    if els.isEmpty then return 0
    let c0 ← upCoeff x t q.packet 0
    let c1 ← upCoeff x t q.packet 1
    let c2 ← upCoeff x t q.packet 2
    return placeElems (els.map fun e => (e.1, upSample c0 c1 c2 (q.lam e.2)))

/-- A class 0x65 occurrence (R448). -/
def texNote (d : Dev) (core reason index : Nat) : Dev :=
  rateNote d 0x65 core 1 reason index true fun r =>
    { cls := 0x65, sev := 0, kind := 0, index := core, ctx := none, d0 := r.value * 2 ^ 32 + r.count % 2 ^ 32, d1 := r.extra }

/-- A request answered. -/
def answerTex (d : Dev) (q : TexReq) (v : Nat) : Dev := setResult { d with tex := d.tex.filter fun x => x.id != q.id } q.result v

/-- STEX_RESULT (R271, R307, R308): a request is answered, after the earlier ones of its thread, unless a read of it waits on a page fault
(R421). -/
def execStexResult (id : Nat) (s : State) : Host.Outcome State Fault Refusal :=
  s.onDev fun d =>
    match d.tex.find? fun q => q.id == id with
    | none => d
    | some q =>
      if q.held.isSome || d.tex.any fun x => sameThread x.who q.who && x.id < q.id then d
      else
        let x := unitEng d q.core q.ctx q.who
        match (stexValue x q (texWord d q)).on d with
        | (.ok v, d) => answerTex d q v
        | (.error (.fail 7 a), d) =>
          contextError d { x.base with cls := 0x41, sev := 2, addr := a }
        | (.error (.fail r _), d) =>
          let reason := if r = 5 then 3 else r
          answerTex (texNote d q.core reason q.index) q (if reason = 4 then broadcast 32 0x7FC00000 else 0)
        | (.error (.page va l why need e), d) =>
          let hold (y : TexReq) : TexReq := if y.id = id then { y with held := some (va / 4096) } else y
          pageFaultRecord { d with tex := d.tex.map hold } q.ctx va l why need 8 e x.base
        | (.error .later, d) => d

/-- `stex` (R271): one request for each thread. -/
def execStex (c : Ctl) (m : StexMode) (d a b : Operand) (s : State) : Host.Outcome State Fault Refusal :=
  let i : Instr := .stex c m d a b
  s.onDev (longEach i noCheck fun k e w x =>
    match w, e.own with
    | .thr r, some (_, g) =>
      let (res, x) := newResult x r (destOf e .pktDst d) none (stexMask m (lamCountOf g.lambda)) k
      let (id, x) := x.freshId
      let q : TexReq :=
        { id, who := r, ctx := e.ctx, core := e.core, mode := m, index := e.scalar 32 .int b, packet := e.packet 32 .int a,
          lambda := g.lambda, result := res, held := none }
      { x with tex := x.tex ++ [q] }.pass i w
    | _, _ => x)

end Sys2Proof.Machine
end

