-- ==== Sys2Proof/Machine/Dispatch.lean ====
section
/-! DEFINITION. One arm per constructor of Instr: each a direct call of its meaning. -/

namespace Sys2Proof.Machine

/-- What an instruction or event does in a state. -/
def exec (i : Instr) (s : State) : Host.Outcome State Fault Refusal :=
  match i with
  | .add c w sat d a b => Sys2Proof.Machine.execAdd c w sat d a b s
  | .sub c w sat d a b => Sys2Proof.Machine.execSub c w sat d a b s
  | .mul c w d a b => Sys2Proof.Machine.execMul c w d a b s
  | .mulHiI c w d a b => Sys2Proof.Machine.execMulHiI c w d a b s
  | .mulHiN c w d a b => Sys2Proof.Machine.execMulHiN c w d a b s
  | .mad c w d a b => Sys2Proof.Machine.execMad c w d a b s
  | .minI c w d a b => Sys2Proof.Machine.execMinI c w d a b s
  | .minN c w d a b => Sys2Proof.Machine.execMinN c w d a b s
  | .maxI c w d a b => Sys2Proof.Machine.execMaxI c w d a b s
  | .maxN c w d a b => Sys2Proof.Machine.execMaxN c w d a b s
  | .shl c w d a b => Sys2Proof.Machine.execShl c w d a b s
  | .shrN c w d a b => Sys2Proof.Machine.execShrN c w d a b s
  | .shrI c w d a b => Sys2Proof.Machine.execShrI c w d a b s
  | .rol c w d a b => Sys2Proof.Machine.execRol c w d a b s
  | .lop3 c w tab d a b => Sys2Proof.Machine.execLop3 c w tab d a b s
  | .popc c w d a b => Sys2Proof.Machine.execPopc c w d a b s
  | .clz c w d a b => Sys2Proof.Machine.execClz c w d a b s
  | .ctz c w d a b => Sys2Proof.Machine.execCtz c w d a b s
  | .brev c w d a b => Sys2Proof.Machine.execBrev c w d a b s
  | .bfeN c w d a b => Sys2Proof.Machine.execBfeN c w d a b s
  | .bfeI c w d a b => Sys2Proof.Machine.execBfeI c w d a b s
  | .bfi c w d a b => Sys2Proof.Machine.execBfi c w d a b s
  | .lea c w k d a b => Sys2Proof.Machine.execLea c w k d a b s
  | .cmpI c w cond d a b => Sys2Proof.Machine.execCmpI c w cond d a b s
  | .cmpN c w cond d a b => Sys2Proof.Machine.execCmpN c w cond d a b s
  | .sel c w np k d a b => Sys2Proof.Machine.execSel c w np k d a b s
  | .mov c w d a b => Sys2Proof.Machine.execMov c w d a b s
  | .addFp c fmt m d a b => Sys2Proof.Machine.execAddFp c fmt m d a b s
  | .subFp c fmt m d a b => Sys2Proof.Machine.execSubFp c fmt m d a b s
  | .mulFp c fmt m d a b => Sys2Proof.Machine.execMulFp c fmt m d a b s
  | .fmaAcc c fmt m d a b => Sys2Proof.Machine.execFmaAcc c fmt m d a b s
  | .fmaHor c fmt m d a b => Sys2Proof.Machine.execFmaHor c fmt m d a b s
  | .minFp c ftzi d a b => Sys2Proof.Machine.execMinFp c ftzi d a b s
  | .maxFp c ftzi d a b => Sys2Proof.Machine.execMaxFp c ftzi d a b s
  | .cmpFp c fmt ftzi cond d a b => Sys2Proof.Machine.execCmpFp c fmt ftzi cond d a b s
  | .classFp c d a b => Sys2Proof.Machine.execClassFp c d a b s
  | .addPkt c sh lam m d a b => Sys2Proof.Machine.execAddPkt c sh lam m d a b s
  | .subPkt c sh lam m d a b => Sys2Proof.Machine.execSubPkt c sh lam m d a b s
  | .mulPkt c sh lam m d a b => Sys2Proof.Machine.execMulPkt c sh lam m d a b s
  | .fmaAccPkt c sh lam m d a b => Sys2Proof.Machine.execFmaAccPkt c sh lam m d a b s
  | .fmaHorPkt c sh lam m d a b => Sys2Proof.Machine.execFmaHorPkt c sh lam m d a b s
  | .minPkt c sh lam m d a b => Sys2Proof.Machine.execMinPkt c sh lam m d a b s
  | .maxPkt c sh lam m d a b => Sys2Proof.Machine.execMaxPkt c sh lam m d a b s
  | .cmpPkt c sh ftzi cond d a b => Sys2Proof.Machine.execCmpPkt c sh ftzi cond d a b s
  | .dot c sh lam m d a b => Sys2Proof.Machine.execDot c sh lam m d a b s
  | .hsum c sh lam m d a b => Sys2Proof.Machine.execHsum c sh lam m d a b s
  | .hmax c sh lam m d a b => Sys2Proof.Machine.execHmax c sh lam m d a b s
  | .omse c lam d a b => Sys2Proof.Machine.execOmse c lam d a b s
  | .pperm c d a b => Sys2Proof.Machine.execPperm c d a b s
  | .plut c half hi d a b => Sys2Proof.Machine.execPlut c half hi d a b s
  | .eshl c ew d a b => Sys2Proof.Machine.execEshl c ew d a b s
  | .eshr c ew d a b => Sys2Proof.Machine.execEshr c ew d a b s
  | .bcast c ew d a b => Sys2Proof.Machine.execBcast c ew d a b s
  | .esel c ew d a b => Sys2Proof.Machine.execEsel c ew d a b s
  | .eins c ew d a b => Sys2Proof.Machine.execEins c ew d a b s
  | .eext c ew d a b => Sys2Proof.Machine.execEext c ew d a b s
  | .specLerp c m d a b => Sys2Proof.Machine.execSpecLerp c m d a b s
  | .specCie c obs64 m d a b => Sys2Proof.Machine.execSpecCie c obs64 m d a b s
  | .specMueller c k m d a b => Sys2Proof.Machine.execSpecMueller c k m d a b s
  | .prng c shape d a b => Sys2Proof.Machine.execPrng c shape d a b s
  | .sfuRcp c v m d a b => Sys2Proof.Machine.execSfuRcp c v m d a b s
  | .sfuRsqrt c v m d a b => Sys2Proof.Machine.execSfuRsqrt c v m d a b s
  | .sfuSqrt c v m d a b => Sys2Proof.Machine.execSfuSqrt c v m d a b s
  | .sfuExp2 c v m d a b => Sys2Proof.Machine.execSfuExp2 c v m d a b s
  | .sfuLog2 c v m d a b => Sys2Proof.Machine.execSfuLog2 c v m d a b s
  | .sfuSin c v m d a b => Sys2Proof.Machine.execSfuSin c v m d a b s
  | .sfuCos c v m d a b => Sys2Proof.Machine.execSfuCos c v m d a b s
  | .sfuTanh c v m d a b => Sys2Proof.Machine.execSfuTanh c v m d a b s
  | .sfuSigm c v m d a b => Sys2Proof.Machine.execSfuSigm c v m d a b s
  | .sfuErf c v m d a b => Sys2Proof.Machine.execSfuErf c v m d a b s
  | .sfuGelu c v m d a b => Sys2Proof.Machine.execSfuGelu c v m d a b s
  | .sfuSilu c v m d a b => Sys2Proof.Machine.execSfuSilu c v m d a b s
  | .mxqE4M3 c m d a b => Sys2Proof.Machine.execMxqE4M3 c m d a b s
  | .mxqE5M2 c m d a b => Sys2Proof.Machine.execMxqE5M2 c m d a b s
  | .mxqE3M2 c m d a b => Sys2Proof.Machine.execMxqE3M2 c m d a b s
  | .mxqE2M3 c m d a b => Sys2Proof.Machine.execMxqE2M3 c m d a b s
  | .mxqE2M1 c half m d a b => Sys2Proof.Machine.execMxqE2M1 c half m d a b s
  | .mxqI8 c m d a b => Sys2Proof.Machine.execMxqI8 c m d a b s
  | .cvtScalar c dst src m d a b => Sys2Proof.Machine.execCvtScalar c dst src m d a b s
  | .cvtPacket c dst src part m d a b => Sys2Proof.Machine.execCvtPacket c dst src part m d a b s
  | .shfl c size mode d a b => Sys2Proof.Machine.execShfl c size mode d a b s
  | .vote c mode d a b => Sys2Proof.Machine.execVote c mode d a b s
  | .matchV c b64 mode d a b => Sys2Proof.Machine.execMatchV c b64 mode d a b s
  | .scan c excl op d a b => Sys2Proof.Machine.execScan c excl op d a b s
  | .regroup c d a b => Sys2Proof.Machine.execRegroup c d a b s
  | .bra c d a b => Sys2Proof.Machine.execBra c d a b s
  | .brx c d a b => Sys2Proof.Machine.execBrx c d a b s
  | .call c d a b => Sys2Proof.Machine.execCall c d a b s
  | .ret c d a b => Sys2Proof.Machine.execRet c d a b s
  | .loop c d a b => Sys2Proof.Machine.execLoop c d a b s
  | .rep c d a b => Sys2Proof.Machine.execRep c d a b s
  | .exit c d a b => Sys2Proof.Machine.execExit c d a b s
  | .yield c d a b => Sys2Proof.Machine.execYield c d a b s
  | .nop c d a b => Sys2Proof.Machine.execNop c d a b s
  | .plop3 c tab d a b => Sys2Proof.Machine.execPlop3 c tab d a b s
  | .pget c d a b => Sys2Proof.Machine.execPget c d a b s
  | .pset c d a b => Sys2Proof.Machine.execPset c d a b s
  | .racq c d a b => Sys2Proof.Machine.execRacq c d a b s
  | .rrel c d a b => Sys2Proof.Machine.execRrel c d a b s
  | .xset c mode d a b => Sys2Proof.Machine.execXset c mode d a b s
  | .xget c fld d a b => Sys2Proof.Machine.execXget c fld d a b s
  | .ld c w d a b => Sys2Proof.Machine.execLd c w d a b s
  | .st c w d a b => Sys2Proof.Machine.execSt c w d a b s
  | .atomExch c ord sc ty d a b => Sys2Proof.Machine.execAtomExch c ord sc ty d a b s
  | .atomCas c ord sc ty d a b => Sys2Proof.Machine.execAtomCas c ord sc ty d a b s
  | .atomAdd c ord sc ty d a b => Sys2Proof.Machine.execAtomAdd c ord sc ty d a b s
  | .atomMin c ord sc ty d a b => Sys2Proof.Machine.execAtomMin c ord sc ty d a b s
  | .atomMax c ord sc ty d a b => Sys2Proof.Machine.execAtomMax c ord sc ty d a b s
  | .atomAnd c ord sc ty d a b => Sys2Proof.Machine.execAtomAnd c ord sc ty d a b s
  | .atomOr c ord sc ty d a b => Sys2Proof.Machine.execAtomOr c ord sc ty d a b s
  | .atomXor c ord sc ty d a b => Sys2Proof.Machine.execAtomXor c ord sc ty d a b s
  | .stG c w d a b => Sys2Proof.Machine.execStG c w d a b s
  | .redGAdd c ord sc ty d a b => Sys2Proof.Machine.execRedGAdd c ord sc ty d a b s
  | .redGMin c ord sc ty d a b => Sys2Proof.Machine.execRedGMin c ord sc ty d a b s
  | .redGMax c ord sc ty d a b => Sys2Proof.Machine.execRedGMax c ord sc ty d a b s
  | .redGAnd c ord sc ty d a b => Sys2Proof.Machine.execRedGAnd c ord sc ty d a b s
  | .redGOr c ord sc ty d a b => Sys2Proof.Machine.execRedGOr c ord sc ty d a b s
  | .redGXor c ord sc ty d a b => Sys2Proof.Machine.execRedGXor c ord sc ty d a b s
  | .redGKahan c ord sc ty d a b => Sys2Proof.Machine.execRedGKahan c ord sc ty d a b s
  | .atomGExch c ord sc ty d a b => Sys2Proof.Machine.execAtomGExch c ord sc ty d a b s
  | .atomGCas c ord sc ty d a b => Sys2Proof.Machine.execAtomGCas c ord sc ty d a b s
  | .atomGAdd c ord sc ty d a b => Sys2Proof.Machine.execAtomGAdd c ord sc ty d a b s
  | .redCommit c ord sc d a b => Sys2Proof.Machine.execRedCommit c ord sc d a b s
  | .fence c ord sc d a b => Sys2Proof.Machine.execFence c ord sc d a b s
  | .barTeam c d a b => Sys2Proof.Machine.execBarTeam c d a b s
  | .barPair c d a b => Sys2Proof.Machine.execBarPair c d a b s
  | .barClu c d a b => Sys2Proof.Machine.execBarClu c d a b s
  | .barSys c rel d a b => Sys2Proof.Machine.execBarSys c rel d a b s
  | .wait c cmp d a b => Sys2Proof.Machine.execWait c cmp d a b s
  | .qpush c d a b => Sys2Proof.Machine.execQpush c d a b s
  | .qpop c d a b => Sys2Proof.Machine.execQpop c d a b s
  | .jpostCopy c ordered d a b => Sys2Proof.Machine.execJpostCopy c ordered d a b s
  | .jpostGather c ordered d a b => Sys2Proof.Machine.execJpostGather c ordered d a b s
  | .jpostMma c ordered d a b => Sys2Proof.Machine.execJpostMma c ordered d a b s
  | .jpostMmaGather c ordered d a b => Sys2Proof.Machine.execJpostMmaGather c ordered d a b s
  | .jpostEpilogue c ordered d a b => Sys2Proof.Machine.execJpostEpilogue c ordered d a b s
  | .jwait c d a b => Sys2Proof.Machine.execJwait c d a b s
  | .jtest c d a b => Sys2Proof.Machine.execJtest c d a b s
  | .jcancel c d a b => Sys2Proof.Machine.execJcancel c d a b s
  | .hstore c d a b => Sys2Proof.Machine.execHstore c d a b s
  | .hload c d a b => Sys2Proof.Machine.execHload c d a b s
  | .tacq c d a b => Sys2Proof.Machine.execTacq c d a b s
  | .trel c d a b => Sys2Proof.Machine.execTrel c d a b s
  | .tstat c d a b => Sys2Proof.Machine.execTstat c d a b s
  | .tld c d a b => Sys2Proof.Machine.execTld c d a b s
  | .tst c d a b => Sys2Proof.Machine.execTst c d a b s
  | .trace c d a b => Sys2Proof.Machine.execTrace c d a b s
  | .traceResume c d a b => Sys2Proof.Machine.execTraceResume c d a b s
  | .stex c v d a b => Sys2Proof.Machine.execStex c v d a b s
  | .shcProbe c d a b => Sys2Proof.Machine.execShcProbe c d a b s
  | .shcFill c d a b => Sys2Proof.Machine.execShcFill c d a b s
  | .collArm c d a b => Sys2Proof.Machine.execCollArm c d a b s
  | .collReady c d a b => Sys2Proof.Machine.execCollReady c d a b s
  | .dtime c d a b => Sys2Proof.Machine.execDtime c d a b s
  | .sysr c d a b => Sys2Proof.Machine.execSysr c d a b s
  | .sysw c d a b => Sys2Proof.Machine.execSysw c d a b s
  | .trap c d a b => Sys2Proof.Machine.execTrap c d a b s
  | .tret c d a b => Sys2Proof.Machine.execTret c d a b s
  | .brk c d a b => Sys2Proof.Machine.execBrk c d a b s
  | .launch c d a b => Sys2Proof.Machine.execLaunch c d a b s
  | .semWaitGe c d a b => Sys2Proof.Machine.execSemWaitGe c d a b s
  | .semSig c set d a b => Sys2Proof.Machine.execSemSig c set d a b s
  | .ttrig c d a b => Sys2Proof.Machine.execTtrig c d a b s
  | .intr c d a b => Sys2Proof.Machine.execIntr c d a b s
  | .qnext c d a b => Sys2Proof.Machine.execQnext c d a b s
  | .regroupDone team => Sys2Proof.Machine.execRegroupDone team s
  | .longResultReturn id => Sys2Proof.Machine.execLongResultReturn id s
  | .laneRunLimit core lane => Sys2Proof.Machine.execLaneRunLimit core lane s
  | .activeTimeLimit core gslot => Sys2Proof.Machine.execActiveTimeLimit core gslot s
  | .reliefCut core gslot => Sys2Proof.Machine.execReliefCut core gslot s
  | .reliefCutEnd core gslot => Sys2Proof.Machine.execReliefCutEnd core gslot s
  | .racqGrant core => Sys2Proof.Machine.execRacqGrant core s
  | .groupEnd team gid => Sys2Proof.Machine.execGroupEnd team gid s
  | .teamPlacement die => Sys2Proof.Machine.execTeamPlacement die s
  | .saveComplete team => Sys2Proof.Machine.execSaveComplete team s
  | .restoreComplete team => Sys2Proof.Machine.execRestoreComplete team s
  | .stagingComplete team => Sys2Proof.Machine.execStagingComplete team s
  | .gridEnd grid => Sys2Proof.Machine.execGridEnd grid s
  | .diePortWrite id => Sys2Proof.Machine.execDiePortWrite id s
  | .waitPoll team tid => Sys2Proof.Machine.execWaitPoll team tid s
  | .queuePushArrival id => Sys2Proof.Machine.execQueuePushArrival id s
  | .queuePopArrival id => Sys2Proof.Machine.execQueuePopArrival id s
  | .homeSliceRequest id => Sys2Proof.Machine.execHomeSliceRequest id s
  | .barSysPoll team tid => Sys2Proof.Machine.execBarSysPoll team tid s
  | .requestAck id => Sys2Proof.Machine.execRequestAck id s
  | .jobEnterQueue core => Sys2Proof.Machine.execJobEnterQueue core s
  | .jobIssue cluster => Sys2Proof.Machine.execJobIssue cluster s
  | .shareComplete cluster slot => Sys2Proof.Machine.execShareComplete cluster slot s
  | .jobFail cluster slot reason => Sys2Proof.Machine.execJobFail cluster slot reason s
  | .traceRecord core slot pick fuel => Sys2Proof.Machine.execTraceRecord core slot pick fuel s
  | .raySlotGrant core => Sys2Proof.Machine.execRaySlotGrant core s
  | .stexResult id => Sys2Proof.Machine.execStexResult id s
  | .shcRequestArrival id => Sys2Proof.Machine.execShcRequestArrival id s
  | .shcReserveExpiry core set way => Sys2Proof.Machine.execShcReserveExpiry core set way s
  | .collFire stack entry => Sys2Proof.Machine.execCollFire stack entry s
  | .firingMessage stack m => Sys2Proof.Machine.execFiringMessage stack m s
  | .chunkArrival stack c => Sys2Proof.Machine.execChunkArrival stack c s
  | .collReplan stack entry m => Sys2Proof.Machine.execCollReplan stack entry m s
  | .replanTimeout stack entry => Sys2Proof.Machine.execReplanTimeout stack entry s
  | .firingTimeout stack entry => Sys2Proof.Machine.execFiringTimeout stack entry s
  | .collAbortArrival stack entry count => Sys2Proof.Machine.execCollAbortArrival stack entry count s
  | .migrationPeriodEnd slice => Sys2Proof.Machine.execMigrationPeriodEnd slice s
  | .moveSwitch frame => Sys2Proof.Machine.execMoveSwitch frame s
  | .scrubPass unit corrections => Sys2Proof.Machine.execScrubPass unit corrections s
  | .eccUncorrectable site => Sys2Proof.Machine.execEccUncorrectable site s
  | .parityError site => Sys2Proof.Machine.execParityError site s
  | .refreshSubarray stack bank sub => Sys2Proof.Machine.execRefreshSubarray stack bank sub s
  | .mgmtHeartbeat stack missed => Sys2Proof.Machine.execMgmtHeartbeat stack missed s
  | .refreshTakeover stack => Sys2Proof.Machine.execRefreshTakeover stack s
  | .refreshAllBank stack => Sys2Proof.Machine.execRefreshAllBank stack s
  | .watchdogFire team => Sys2Proof.Machine.execWatchdogFire team s
  | .serviceQuantumExpiry cc => Sys2Proof.Machine.execServiceQuantumExpiry cc s
  | .ttrigTimeReached queue => Sys2Proof.Machine.execTtrigTimeReached queue s
  | .kerfSample die mw temp => Sys2Proof.Machine.execKerfSample die mw temp s
  | .thermalRecovery die => Sys2Proof.Machine.execThermalRecovery die s
  | .emergencyTimeout die => Sys2Proof.Machine.execEmergencyTimeout die s
  | .powerSensorSilent die => Sys2Proof.Machine.execPowerSensorSilent die s
  | .dieIdle die => Sys2Proof.Machine.execDieIdle die s
  | .powerGood => Sys2Proof.Machine.execPowerGood s
  | .pcieLinkTrained port => Sys2Proof.Machine.execPcieLinkTrained port s
  | .bootWaitTimer => Sys2Proof.Machine.execBootWaitTimer s
  | .bootStart p0 p1 => Sys2Proof.Machine.execBootStart p0 p1 s
  | .bootLength port units => Sys2Proof.Machine.execBootLength port units s
  | .bundleVerifyDone => Sys2Proof.Machine.execBundleVerifyDone s
  | .loadingDone => Sys2Proof.Machine.execLoadingDone s
  | .bootGen port v => Sys2Proof.Machine.execBootGen port v s
  | .attestTrigger port => Sys2Proof.Machine.execAttestTrigger port s
  | .attestReportReady selfTest => Sys2Proof.Machine.execAttestReportReady selfTest s
  | .standbyEnter port => Sys2Proof.Machine.execStandbyEnter port s
  | .standbyExit port => Sys2Proof.Machine.execStandbyExit port s
  | .portSemaphoreRead port n same => Sys2Proof.Machine.execPortSemaphoreRead port n same s
  | .portSemaphoreRelease port n v => Sys2Proof.Machine.execPortSemaphoreRelease port n v s
  | .doorbell fn queue v => Sys2Proof.Machine.execDoorbell fn queue v s
  | .queueEnable fn queue w0 => Sys2Proof.Machine.execQueueEnable fn queue w0 s
  | .queueDisable fn queue w0 => Sys2Proof.Machine.execQueueDisable fn queue w0 s
  | .queueProgWrite fn queue v => Sys2Proof.Machine.execQueueProgWrite fn queue v s
  | .ownerEntryWrite port die granule v => Sys2Proof.Machine.execOwnerEntryWrite port die granule v s
  | .migrationRead port frame => Sys2Proof.Machine.execMigrationRead port frame s
  | .migrationWrite port frame => Sys2Proof.Machine.execMigrationWrite port frame s
  | .contextInvalidation port ctx => Sys2Proof.Machine.execContextInvalidation port ctx s
  | .invalidationComplete => Sys2Proof.Machine.execInvalidationComplete s
  | .faultRetry port ctx page => Sys2Proof.Machine.execFaultRetry port ctx page s
  | .faultFail port ctx page => Sys2Proof.Machine.execFaultFail port ctx page s
  | .rayDiscard port ctx => Sys2Proof.Machine.execRayDiscard port ctx s
  | .pairReopen port v => Sys2Proof.Machine.execPairReopen port v s
  | .resyncArrival src seq => Sys2Proof.Machine.execResyncArrival src seq s
  | .timeSet port v => Sys2Proof.Machine.execTimeSet port v s
  | .mgmtRegisterWrite fn off v => Sys2Proof.Machine.execMgmtRegisterWrite fn off v s
  | .bar2Access port op => Sys2Proof.Machine.execBar2Access port op s
  | .bar4Access port op => Sys2Proof.Machine.execBar4Access port op s
  | .pcieAtomicOp port op => Sys2Proof.Machine.execPcieAtomicOp port op s
  | .hostPortLost port => Sys2Proof.Machine.execHostPortLost port s
  | .portSemReleaseTimeout port => Sys2Proof.Machine.execPortSemReleaseTimeout port s
  | .ptpMessage h m => Sys2Proof.Machine.execPtpMessage h m s
  | .ppsInput => Sys2Proof.Machine.execPpsInput s
  | .flitCrcError link => Sys2Proof.Machine.execFlitCrcError link s
  | .laneSignalLoss link => Sys2Proof.Machine.execLaneSignalLoss link s
  | .replayLimit link => Sys2Proof.Machine.execReplayLimit link s
  | .creditTimeout link => Sys2Proof.Machine.execCreditTimeout link s
  | .portRetrain link => Sys2Proof.Machine.execPortRetrain link s
  | .portUp link => Sys2Proof.Machine.execPortUp link s
  | .portDegraded link low => Sys2Proof.Machine.execPortDegraded link low s
  | .e2eResendTimeout dst seq => Sys2Proof.Machine.execE2eResendTimeout dst seq s
  | .suspectExpiry link dst => Sys2Proof.Machine.execSuspectExpiry link dst s
  | .e2eRequestArrival r => Sys2Proof.Machine.execE2eRequestArrival r s
  | .e2eAckArrival dst seq ans => Sys2Proof.Machine.execE2eAckArrival dst seq ans s
  | .e2eBusyAnswer dst seq => Sys2Proof.Machine.execE2eBusyAnswer dst seq s
  | .unreachableAnswer dst gen => Sys2Proof.Machine.execUnreachableAnswer dst gen s
  | .unreachableDeclare dst => Sys2Proof.Machine.execUnreachableDeclare dst s
  | .contextTableWrite port ctx word v => Sys2Proof.Machine.execContextTableWrite port ctx word v s
  | .portDisable port link v => Sys2Proof.Machine.execPortDisable port link v s
  | .deferredFaultArrival id => Sys2Proof.Machine.execDeferredFaultArrival id s
  | .receiptAcknowledgement src seq => Sys2Proof.Machine.execReceiptAcknowledgement src seq s
  | .reopenRetry => Sys2Proof.Machine.execReopenRetry s
  | .refreshEnd stack => Sys2Proof.Machine.execRefreshEnd stack s
  | .powerOff => Sys2Proof.Machine.execPowerOff s
  | .referenceInputChange present => Sys2Proof.Machine.execReferenceInputChange present s
  | .ppsOutputEdge => Sys2Proof.Machine.execPpsOutputEdge s

end Sys2Proof.Machine
end

