-- ==== Sys2Proof/Machine/Issue.lean ====
section
/-! DEFINITION. An attempt to issue the head run of a group (R25 to R30, R34, R55, R56, R120, R140, R388). -/

namespace Sys2Proof.Machine

/-- Whether an instruction of a thread waits for accesses of the thread on their way, so that its own registers and the image of `coll.arm` are
read and written in program order (R58, R111, R120): an access to a slot of the thread itself, and `coll.arm`, wait for the reads that
acquire for them; the one for the thread's accesses to the slot, the other for its atomics to the image (DEDUCED, log 117). -/
def waitsOwn (e : Env) (r : TRef) (i : Instr) : Bool :=
  let d := e.d
  let behind (kind : AccKind) (space key : Nat) (l : List Access) : Bool :=
    heldBy d e.h.acqs || behindOwn d l (mkAccess e d.nextId r space 0 key kind none none)
  let slot (a b : Operand) (n : Nat) : Bool :=
    (localAt e n (e.ea a b) false).any (Loc.ownSlot r) && behind (.load n) 4 (e.ea a b % 2 ^ 35) d.scrWrites
  e.h.guard (Roles.ctlOf i) && match i with
    | .ld _ w _ a b => slot a b (mwBytes w)
    | .st _ w _ a b => slot a b (mwBytes w)
    | .collArm _ _ a _ =>
      let atoms := d.scrWrites.filter fun x => x.kind matches .atom _ _ _ _
      match imageAt e (e.scalar 64 .int a) with
      | some (.scr k) => behind (.load 64) 1 k atoms
      | some (.tmem k) => behind (.load 64) 2 k atoms
      | _ => false
    | _ => false

/-- Whether an instruction of a head run waits for results and accesses of its threads: a `regroup` for their long-latency results (R34; the
run arrives together when those of all its threads have returned, DEDUCED, log 117). -/
def runWaits (d : Dev) (t : Team) (g : Group) (lits : AMap DWord) (hs : List Thread) (i : Instr) : Bool :=
  hs.any fun h =>
    let r : TRef := ⟨t.id, g.gid, h.tid⟩
    match i with
    | .regroup _ _ _ _ => d.results.any fun x => sameThread x.who r
    | _ => waitsOwn { d, own := some (t, g), q := 0, h, lits } r i

/-- The head run `lanes` of a group, whose fetch has found `i`: held at the switch marker (R29, R55), by the interlock (R56) or for what
its threads have on their way, else issued to the threads that take it. With the yield hint the lane gives up the group (R140). -/
def issueRun (d : Dev) (t : Team) (g : Group) (lanes : List Nat) (i : Instr) (lits : AMap DWord) (w0 : Word) : Attempt :=
  let hs := g.threads.filter fun k => lanes.contains k.lane
  if (Roles.ctlOf i).switch && d.outstanding t.id g.gid then .hold (d.mapGroup t.id g.gid Group.leave)
  else if interlocked g i hs || runWaits d t g lits hs i then .hold (d.mapGroup t.id g.gid fun g => { g with block := some .interlock, laneNo := none, runs := 0, since := none })
  else
    let (d, rest) := settleThreads d t g i w0.toNat lanes
    if rest.isEmpty then .hold d
    else
      let all := lanes.length == (g.threads.filter fun k => k.st == .ready).length
      let d := d.mapGroup t.id g.gid fun g =>
        let g := { g with runs := g.runs + 1, relief := if all then 0 else g.relief, cut := g.cut.map fun c => (c.1, c.2 - 1) }
        if (Roles.ctlOf i).yld then g.giveLane d.cycle else g
      .run i { d with cur := .run t.id g.gid rest lits w0 }

/-- An attempt to issue the head run of the group in a slot. A run that is held is selected anew, and its slot fetched anew, at the next
attempt (R130 leaves open whether it is the same head run; DESIGN CHOICE, log 40). -/
def attemptIssue (d : Dev) (core gslot : Nat) : Attempt :=
  let d := settleBay d core (gslot % 2)
  match d.inSlot core gslot with
  | none => .hold d
  | some (t, g) =>
    if t.stat != .running || g.laneNo.isNone then .hold d
    else
      match dueEvent d core gslot g with
      | some i => .due i d
      | none =>
        let lanes := g.headRun
        match lanes.head?.bind g.atLane? with
        | none => .hold d
        | some h =>
          match fetchFor d t h with
          | (.later, d) => .hold d
          | (.wait a l r e, d) =>
            let d := pageFaultRecord d t.ctx a l r needX 3 e (fetchRec d t core h 0x40 1 a)
            .hold (d.mapGroup t.id g.gid fun g =>
              { g with fetchWait := g.fetchWait ++ [(h.imgBase, h.pc.toNat, a / 4096)] })
          | (.bad a, d) => .hold (contextError d (fetchRec d t core h 0x41 2 a))
          | (.poison a, d) => .hold (contextError d (fetchRec d t core h 0x44 2 a))
          | (.illegal x, d) =>
            .hold (lanes.foldl (fun d l => match g.atLane? l with
              | some k => raiseTrap d ⟨t.id, g.gid, k.tid⟩ (illegalTrap k.pc.toNat x)
              | none => d) d)
          | (.instr i lits w0, d) => issueRun d t g lanes i lits w0

end Sys2Proof.Machine
end

