-- ==== Sys2Proof/Machine/Settle.lean ====
section
/-! DEFINITION. What the units do on their own after every move: records and errors owed, barriers, jobs, stack agents, teams of halted
contexts (R29, R116, R126, R220, R395, R429, R436, R442, R469, R470). -/

namespace Sys2Proof.Machine

/-- Whether every access of a team has completed: nothing of it is on its way in the core, in a side log, at another package, or
unacknowledged (R395). -/
def teamQuiet (d : Dev) (t : Team) : Bool :=
  let mine (w : Issuer) : Bool := match w with | .thread r _ => r.team == t.id | _ => false
  (t.groups.all fun g => groupQuiet d t.id g.gid) && !(d.side.any fun e => mine e.access.who) && !(d.acks.any fun a => mine a.who)
    && !(d.outs.any fun o => o.2.sent.any fun x => mine x.access.who) && !(d.qops.any fun q => q.who.team == t.id && !q.waiting)

/-- Teams of halted contexts whose accesses have completed leave their cores (R395). -/
def freeHalted (d : Dev) : Dev := (d.teams.filter fun t => t.stat == .halting && teamQuiet d t).foldl endTeam d

/-- Jobs of halted contexts that wait on page faults fail (R442). -/
def failHaltedJobs (d : Dev) : Dev :=
  d.joins.foldl (fun d j => (j.2.jobs.filter fun b => (b.state matches .paged _) && !ctxRuns d b.ctx).foldl (fun d b => failJob d j.1 b 8 0 0) d) d

/-- Whether a group held at a `jpost` or a `trel` has no more cause to wait (R249, R262). -/
def holdOver (d : Dev) (t : Team) (g : Group) : Bool :=
  match g.block with
  | some .jpost => cardRoom d g.core
  | some (.trel n) => (t.tile? n).all fun k => !tileInflight d (t.tileCore n) k
  | _ => false

/-- What jobs made final by the halt of their context leave: groups of other contexts look again at what they are held at, and tiles kept
for those jobs are free (R249, R262, R442). -/
def settleHolds (d : Dev) : Dev := dropTiles (d.mapGroups fun t g => if holdOver d t g then { g with block := none } else g)

/-- Control cores whose queue thread can run no more serve none (R313); a wait on a page fault ends the service as a park does (DESIGN CHOICE,
log 128). -/
def endServices (d : Dev) : Dev :=
  { d with serving := d.serving.filter fun e => e.2 != 0 && (d.queue (e.2 - 1)).ready }

/-- The dies that are busy, noted with the cycle (R357). -/
def noteBusy (d : Dev) : Dev :=
  { d with idle := ((List.range Config.dies).filter (dieBusy d)).foldl (fun m n => AMap.set 0 m n (d.cycle + 1)) d.idle }

/-- What follows every move. -/
def settle (d : Dev) : Dev :=
  let d := settleLost (settleOwed d)
  let d := if d.bars.isEmpty && d.barWait.isEmpty then d else settleCount d
  let d := settleHolds (failHaltedJobs (settleJoins d))
  let d := settleFirings (settleAgents d)
  noteBusy (endServices (freeHalted d))

/-- A machine settled; an entry into Standby goes on as its requests are answered (R358). -/
def State.settled (s : State) : State := finishStandby { s with dev := settle s.dev }

/-- The end of an issue: the group or the service that issued is settled, and nobody issues. -/
def finishIssue (d : Dev) : Dev := { settleAfter d with cur := .none }

end Sys2Proof.Machine
end

