-- ==== Sys2Proof/Machine/Step.lean ====
section
/-! DEFINITION. One step of the machine: the next move of the tape is an issue of a head run, a service of a queue thread, an event,
or the passing of time; what the units do on their own follows. -/

namespace Sys2Proof.Machine

/-- The state after a meaning has acted: nobody issues. -/
def finish : Host.Outcome State Fault Refusal → Host.Outcome State Fault Refusal
  | .next s => .next { s with dev := finishIssue s.dev }
  | o => o

/-- The state after a move, settled. -/
def settled : Host.Outcome State Fault Refusal → Host.Outcome State Fault Refusal
  | .next s => .next s.settled
  | o => o

/-- An issue attempt carried out. -/
def runAttempt (a : Attempt) (s : State) : Host.Outcome State Fault Refusal :=
  match a with
  | .hold d => .next { s with dev := d }
  | .due i d => exec i { s with dev := d }
  | .run i d => finish (exec i { s with dev := d })

/-- One move. -/
def stepMove (m : Move) (s : State) : Host.Outcome State Fault Refusal :=
  if s.mgmt.power == .off && m != .event .powerGood then .fault .unpowered
  else
    match m with
    | .tick n => .next { s with dev := passTime n s.dev }
    | .event i => if Roles.isEvent i then exec i s else .next s
    | .issue core gslot => if coreRuns s.mgmt core then runAttempt (attemptIssue s.dev core gslot) s else .next s
    | .serve cc => if s.mgmt.runs then runAttempt (attemptServe s.dev cc) s else .next s

/-- One step: the head of the tape, or the move the model makes when the tape is empty (DESIGN CHOICE, log 1), and what follows it. -/
def step (s : State) : Host.Outcome State Fault Refusal := settled (stepMove (takeMove s).1 (takeMove s).2)

/-- `s` with the instruction whose bits are `w` stored where the next step fetches, and all that this takes: the boot done, context 0
with its page tables, one resident team (for class C, one enabled queue), and the move that issues (DESIGN CHOICE, log 16). -/
def State.withFetchWord (s : State) (_nbits w : Nat) : State := loadWord s w

end Sys2Proof.Machine
end

