-- ==== Sys2Proof/Safety.lean ====
section
/-! DEFINITION. Safe runs, and the terms in which statements speak: which threads perform an instruction, what one head-run thread
sees, what a result leaves in its destination, and what a state is assumed to be. -/

namespace Sys2Proof

/-! ## Instructions written out -/

/-- A slot without guard, marker and hints, and a direct register. -/
def Ctl.always : Ctl := ⟨7, false, false, 0, false, false⟩
def Operand.file (f : File) (n : BitVec 9) : Operand := .reg f false false n

/-- No modifier bit of a floating-point instruction. -/
def FpMod.plain : FpMod := ⟨false, false, false, .rne⟩

end Sys2Proof

namespace Sys2Proof.Machine

/-! ## Runs -/

/-- A state reached from `s` in `k` steps, none of which stopped. -/
inductive Reaches : State → Nat → State → Prop where
  | here (s : State) : Reaches s 0 s
  | next {s t u : State} {k : Nat} : step s = .next t → Reaches t k u → Reaches s (k + 1) u

/-- No run from `s` stops within `k` steps. -/
def SafeFor (s : State) (k : Nat) : Prop := ∀ j, j ≤ k → ∃ t, Reaches s j t

/-- The host's registers keep the bounds that the spec gives them: K (R319), the watchdog limit (R414), the budgets under the module
limit and each reserve within its budget (R325), period and budget of migration (R105), no reserved code of the time controls (R349). -/
structure Mgmt.Bounded (m : Mgmt) : Prop where
  k : 1 ≤ m.k ∧ m.k ≤ 15
  watchdog : 20 ≤ m.wdLog2 ∧ m.wdLog2 ≤ 40
  power : m.powerSum ≤ Config.limitMw
  reserves : ∀ die, die < Config.dies → (m.budget die).1 ≤ (m.budget die).2
  period : 1 ≤ field m.migCfg.toNat 6 0 ∧ field m.migCfg.toNat 6 0 ≤ 64
  moves : field m.migCfg.toNat 47 32 ≤ 4096
  source : field m.timeCtl.toNat 2 1 ≠ 3 ∧ field m.timeCtl.toNat 19 18 < 2

/-- Every memory is in its canonical form. -/
def Dev.MemoriesWf (d : Dev) : Prop :=
  Memory.wf d.hbm = true ∧ Memory.wf d.scr = true ∧ Memory.wf d.tmem = true ∧ Memory.wf d.tiles = true ∧ Memory.wf d.host = true

/-! ## Who performs an instruction -/

/-- Whether an instruction writes the window of its group to the bank before it takes effect (R53). -/
def flushes (i : Instr) : Bool :=
  match i with
  | .fence _ _ _ _ _ _ | .barTeam _ _ _ _ | .barPair _ _ _ _ | .barClu _ _ _ _ | .barSys _ _ _ _ _ => true
  | _ => false

/-- Whether an instruction takes a name for its results as it issues. -/
def named (i : Instr) : Bool := longLatency i || match i with | .st _ _ _ _ _ => true | _ => false

/-- The machine as the issuing threads read it: with the name taken, and the window settled for the instruction (R53 to R55). -/
def startOf (i : Instr) (d : Dev) : Dev :=
  let d := if named i then clearLong i d.freshId.2 else d
  let d := if flushes i && (issuers d).any fun p => p.2.h.guard (Roles.ctlOf i) then flushRun d else d
  d.prepare i

/-- A thread that executes: its guard is true, its operands lie in its allocation (R408) and none is poisoned (R429). -/
def clear (e : Env) (i : Instr) : Bool :=
  e.h.guard (Roles.ctlOf i) && (rangeCheck e i).isNone && (poisonRead e i).isNone

/-- The one thread of a head run of one, with what it reads and where it stands; none where the run has other threads or the thread
does not execute. -/
def soloOf (i : Instr) (s : State) : Option (TRef × Env × Team × Group) :=
  match issuers (startOf i s.dev) with
  | [(.thr r, e)] =>
    match e.own with
    | some (t, g) => if i.wellFormed && clear e i && (startOf i s.dev).thread? r == some e.h then some (r, e, t, g) else none
    | none => none
  | _ => none

/-- The queue thread that issues, with what it reads; none where it does not execute. -/
def queueOf (i : Instr) (s : State) : Option (Nat × Env) :=
  match issuers (startOf i s.dev) with
  | [(.que q, e)] => if i.wellFormed && clear e i then some (q, e) else none
  | _ => none

/-- `exec` answers a next state that differs in `dev` alone, by `f` on the machine as the issuing thread reads it. -/
def Does (i : Instr) (s : State) (f : Dev → Dev) : Prop := exec i s = .next { s with dev := f (startOf i s.dev) }

/-- `exec` of an event answers a next state that differs in `dev` alone. -/
def Makes (i : Instr) (s : State) (d : Dev) : Prop := exec i s = .next { s with dev := d }

/-! ## Register results -/

/-- The thread a name finds. -/
def whoThread (d : Dev) : Who → Option Thread
  | .thr r => d.thread? r
  | .que q => some (d.queue q).thread

/-- The issuing threads with a true guard. -/
def actors (i : Instr) (d : Dev) : List (Who × Env) := (issuers (d.prepare i)).filter fun p => p.2.h.guard (Roles.ctlOf i)

/-- The threads that perform a register-to-register instruction: by R27 a uniform one is performed by the first of them alone. -/
def performers (i : Instr) (d : Dev) : List (Who × Env) := if uniformIssue i then (actors i d).take 1 else actors i d

/-- A well-formed instruction; the issuing threads have names of their own, by which the machine finds them; a queue thread has no
forwarding window (R282); the threads `ps` that act do not trap. -/
def quietFor (i : Instr) (ps : List (Who × Env)) (s : State) : Bool :=
  i.wellFormed && decide (((issuers (s.dev.prepare i)).map (·.1)).Nodup)
    && (issuers (s.dev.prepare i)).all (fun p => whoThread (s.dev.prepare i) p.1 == some p.2.h
      && match p.1 with | .thr _ => true | .que _ => p.2.h.win.isEmpty)
    && ps.all fun p => clear p.2 i

/-- The state for an instruction of R27, and for one in which every thread acts for itself. -/
def quiet (i : Instr) (s : State) : Bool := quietFor i (performers i s.dev) s
def quietAll (i : Instr) (s : State) : Bool := quietFor i (actors i s.dev) s

/-- What a slot of `n` slots from `first` holds after a result: the value under the mask, what it held elsewhere (R168). -/
def merged (old val mask : Nat) : Nat := Nat.lor (Nat.land val mask) (Nat.xor old (Nat.land old mask))

/-- Slots of file g that an operand of a role names in a thread. -/
def slotsOf (e : Env) (r : Roles.Role) (o : Operand) : List Nat :=
  match o with
  | .reg .g _ _ _ | .ind _ _ _ => (List.range (roleSlots r).1).map (firstSlot e r o + ·)
  | _ => []

/-- The slots of file g that an instruction writes in a thread: operand D's, and those of the second result of `mxq`. -/
def slotsWritten (i : Instr) (e : Env) : List Nat :=
  slotsOf e (Roles.rolesOf i).1 (Roles.opsOf i).1 ++
    if isDestRole (Roles.rolesOf i).2.2 then slotsOf e (Roles.rolesOf i).2.2 (Roles.opsOf i).2.2 else []

/-- What destination operand `o` of role `r` holds in thread `h` after the thread that read `e` wrote `val` under `mask`, outside the
slots `but`; y registers are the group's and stand in `yAfter`. An indirect destination is written to the bank (R53), and reads so where
its register's declared range covers it (R54). -/
def holds (e : Env) (r : Roles.Role) (o : Operand) (but : List Nat) (val mask : Nat) (h : Thread) : Prop :=
  match o with
  | .reg .g _ _ _ =>
    ∀ k, k < (roleSlots r).1 → firstSlot e r o + k ∉ but →
      h.slot (firstSlot e r o + k) =
        BitVec.ofNat 32 (merged (e.h.slots (firstSlot e r o) (roleSlots r).1) val mask / 2 ^ (32 * k))
  | .ind x _ _ =>
    ∀ k, k < (roleSlots r).1 → firstSlot e r o + k ∉ but →
      inRanges [declaredRange (AMap.get 0 e.h.x x.toNat)] (firstSlot e r o + k) = true →
      h.slot (firstSlot e r o + k) =
        BitVec.ofNat 32 (merged (e.h.bankSlots (firstSlot e r o) (roleSlots r).1) val mask / 2 ^ (32 * k))
  | .reg .p _ _ k => k.toNat < 7 → h.pred k.toNat = (val % 2 == 1)
  | .reg .x _ _ k => AMap.get 0 h.x k.toNat = BitVec.ofNat 64 val
  | _ => True

/-- A y register of an operand written. -/
def yPut (o : Operand) (v mask : Nat) (y : AMap Word) : AMap Word :=
  match o with | .reg .y _ _ k => yWrite y k.toNat v mask | _ => y

/-- The y registers of the group after the performing threads wrote, in ascending `sr.lane` (R45). -/
def yAfter (i : Instr) (f : List Env → Env → Out) (ps : List (Who × Env)) (y : AMap Word) : AMap Word :=
  ps.foldl (fun y p =>
    let o := f (ps.map (·.2)) p.2
    let y := yPut (Roles.opsOf i).1 o.val o.mask y
    match o.scale with | some v => yPut (Roles.opsOf i).2.2 v 0xFF y | none => y) y

/-- What of a thread an instruction with register results may not change. -/
def Thread.fixed (h : Thread) : Thread :=
  { h with bank := [], win := [], pc := 0, rep := 0, p := 0, x := [], pos := 0, bad := [] }

/-- What of a group, and of a team, it may not change. -/
def Group.fixed (g : Group) : Group := { g with threads := g.threads.map Thread.fixed, y := [], seq := 0 }
def Team.fixed (t : Team) : Team := { t with groups := t.groups.map Group.fixed }

/-- What of a queue it may not change. -/
def Queue.fixed (q : Queue) : Queue := { q with thread := q.thread.fixed }

/-- What an instruction that only writes registers leaves as it was, `ps` being the threads that act: every memory, tile, table, queue and
register outside the threads; every other group's y registers; in each thread every slot it does not write, in a thread that does not act
every predicate, index register and the Philox position, in one that does every predicate and index register but its destination and
post-advanced ones; PC and `sr.rep` of every thread that does not issue. -/
structure Framed (i : Instr) (ps : List (Who × Env)) (s t : State) : Prop where
  host : t.moves = s.moves ∧ t.mgmt = s.mgmt
  rest : { t.dev with teams := s.dev.teams, queues := s.dev.queues } = s.dev
  teams : t.dev.teams.map Team.fixed = s.dev.teams.map Team.fixed
  queues : ∀ q, (t.dev.queue q).fixed = (s.dev.queue q).fixed
  groups : ∀ team gid, (∀ lanes lits w, s.dev.cur ≠ .run team gid lanes lits w) → t.dev.group? team gid = s.dev.group? team gid
  threads : ∀ w h, whoThread s.dev w = some h → ∃ h', whoThread t.dev w = some h' ∧
    (∀ k, (∀ e, (w, e) ∈ ps → k ∉ slotsWritten i e) → h'.slot k = h.slot k) ∧
    (w ∉ ps.map (·.1) → h'.p = h.p ∧ h'.x = h.x ∧ h'.pos = h.pos) ∧
    (w ∉ (issuers (s.dev.prepare i)).map (·.1) → h'.pc = h.pc ∧ h'.rep = h.rep)
  own : ∀ w e, (w, e) ∈ ps → ∀ h', whoThread t.dev w = some h' →
    (∀ k, k ≤ 7 → (∀ n a j, (Roles.opsOf i).1 = .reg .p n a j → k ≠ j.toNat) → h'.pred k = e.h.pred k) ∧
    ∀ k, destIndex i ≠ some k →
      AMap.get 0 h'.x k = if k ∈ postIndices i then advanceX (AMap.get 0 e.h.x k) else AMap.get 0 e.h.x k

/-- Instruction `i` ran in the threads `ps` and wrote registers alone: each acting thread's destination holds the result that `f` gives
from all acting threads' operands and its own (R167, R168, R196), its Philox position has moved by the words drawn (R69), and its PC and
`sr.rep` are what `go` gives; the other issuing threads passed; nothing else changed. -/
structure Ran (i : Instr) (ps : List (Who × Env)) (f : List Env → Env → Out) (go : Env → Word × Word) (s t : State) : Prop where
  framed : Framed i ps s t
  passed : ∀ w e, (w, e) ∈ issuers (s.dev.prepare i) → w ∉ ps.map (·.1) → ∃ h, whoThread t.dev w = some h ∧
    h.pc = e.h.advance.pc ∧ h.rep = e.h.advance.rep
  went : ∀ w e, (w, e) ∈ ps → ∃ h, whoThread t.dev w = some h ∧ (h.pc, h.rep) = go e ∧
    h.pos = e.h.pos + BitVec.ofNat 64 (f (ps.map (·.2)) e).draws
  wrote : ∀ w e, (w, e) ∈ ps → ∃ h, whoThread t.dev w = some h ∧
    let o := f (ps.map (·.2)) e
    match o.scale with
    | none => holds e (Roles.rolesOf i).1 (Roles.opsOf i).1 [] o.val o.mask h
    | some v =>
      holds e (Roles.rolesOf i).1 (Roles.opsOf i).1 (slotsOf e (Roles.rolesOf i).2.2 (Roles.opsOf i).2.2) o.val o.mask h ∧
      holds e (Roles.rolesOf i).2.2 (Roles.opsOf i).2.2 (slotsOf e (Roles.rolesOf i).1 (Roles.opsOf i).1) v 0xFF h
  uniform : ∀ team gid lanes lits w g, s.dev.cur = .run team gid lanes lits w → s.dev.group? team gid = some g →
    ∃ g', t.dev.group? team gid = some g' ∧ g'.y = yAfter i f ps g.y

/-- Past the instruction (R235 for a repeated slot). -/
def goOn (e : Env) : Word × Word := (e.h.advance.pc, e.h.advance.rep)

/-- Register-to-register instruction `i` completes from every state in which its threads do not trap, with the result that `f` gives from
the performing thread's own operands. -/
def Computes (i : Instr) (f : Env → Out) : Prop :=
  ∀ s, quiet i s = true → ∃ t, exec i s = .next t ∧ Ran i (performers i s.dev) (fun _ => f) goOn s t

/-- A run-collective instruction (R196): `f` gives a thread's result from the operands of all threads with a true guard. -/
def ComputesAll (i : Instr) (f : List Env → Env → Out) : Prop :=
  ∀ s, quietAll i s = true → ∃ t, exec i s = .next t ∧
    Ran i (performers i s.dev) (fun _ => f ((actors i s.dev).map (·.2))) goOn s t

/-- No register result. -/
def noOut : Out := { val := 0, mask := 0 }

/-- Branch `i` completes from every state in which its threads do not trap: each thread with a true guard goes to `target`, with the
register result `f`; then backward branches are counted (R38). -/
def Branches (i : Instr) (f : List Env → Env → Out) (target : Env → Word) : Prop :=
  ∀ s, quietAll i s = true → ∃ d, exec i s = .next { s with dev := countBackward s.dev d } ∧
    Ran i (actors i s.dev) f (fun e => (target e, e.h.rep)) s { s with dev := d }

/-! ## Results as bit vectors -/

/-- A scalar source of n bits. -/
def Env.bv (e : Env) (n : Nat) (o : Operand) : BitVec n := BitVec.ofNat n (e.scalar n .int o)

/-- A shift count, an index or a field specification: 32 bits, read as a number. -/
def Env.count (e : Env) (o : Operand) : Nat := e.scalar 32 .int o

/-- A whole scalar result. -/
def bvOut {n : Nat} (v : BitVec n) : Out := { val := v.toNat, mask := 2 ^ n - 1 }

/-- A truth-table operation as the union of its minterms (R138): bit 7 − t of the table stands for d, a, b as bits 0, 1, 2 of t. -/
def minterms {n : Nat} (tab : Byte) (d a b : BitVec n) : BitVec n :=
  (List.range 8).foldl (fun acc t =>
    if tab.getLsbD (7 - t) then
      acc ||| ((if t.testBit 0 then d else ~~~d) &&& (if t.testBit 1 then a else ~~~a) &&& (if t.testBit 2 then b else ~~~b))
    else acc) 0

/-- The exact signed result brought into range (R173). -/
def clampSigned (n : Nat) (x : Int) : BitVec n := BitVec.ofInt n (max (-(2 ^ (n - 1))) (min x (2 ^ (n - 1) - 1)))

/-- A condition on two n-bit integers (R139, R173). -/
def condBv {n : Nat} (c : Cond) (signed : Bool) (a b : BitVec n) : Bool :=
  let lt (a b : BitVec n) : Bool := if signed then a.slt b else a.ult b
  match c with
  | .eq => a == b
  | .ne => a != b
  | .lt => lt a b
  | .le => lt a b || a == b
  | .gt => lt b a
  | .ge => lt b a || a == b
  | .unord => false
  | .ord => true

/-- Position and length of a bit field (R172). -/
def fieldPos (n spec : Nat) : Nat := min (spec % 256) n
def fieldLen (n spec : Nat) : Nat := min (spec / 256 % 256) (n - fieldPos n spec)

/-! ## Accesses on their way -/

/-- A result named for a destination: the value, or none while it is on its way (R26). -/
def awaiting (r : TRef) (dest : Option Dest) (v : Option Nat) (mask instr : Nat) (waited : Bool) (m : Dev) : Dev :=
  match dest with
  | some x => { m with nextId := m.nextId + 1, results := m.results ++ [⟨m.nextId, r, x, v, [], mask, instr, waited⟩] }
  | none => m

/-- Whether a local access waits for a read that acquires for the thread, or for an earlier access of the thread to the same bytes (R111,
R120). -/
def goesBehind (e : Env) (r : TRef) (space ea key : Nat) (kind : AccKind) (rel : Option Nat) (m : Dev) : Bool :=
  heldBy m e.h.acqs || behindOwn m m.scrWrites (mkAccess e m.nextId r space ea key kind rel none)

/-- Where a local access is sent on its way instead of being performed at once, the space and key under which it goes: die scratchpad always;
team memory, and a bank through the aperture, where it waits; team memory also as a free value decides (DESIGN CHOICE, log 62); another
thread's bank also for an access wider than 8 bytes (R58). -/
def awayAt (e : Env) (r : TRef) (ea : Nat) (loc : Loc) (kind : AccKind) (rel : Option Nat) (m : Dev) : Option (Nat × Nat) :=
  match loc with
  | .scr k => some (1, k)
  | .tmem k => if goesBehind e r 2 ea k kind rel m || m.choose.1 then some (2, k) else none
  | _ =>
    if apertureOf ea == .rwin && ((decide (8 < kind.bytes) && !loc.ownSlot r) || goesBehind e r 4 ea (ea % 2 ^ 35) kind rel m)
    then some (4, ea % 2 ^ 35) else none

/-- The machine once it is decided where the access goes: an access to team memory that waits for nothing has drawn its free value. -/
def drawn (e : Env) (r : TRef) (ea : Nat) (loc : Loc) (kind : AccKind) (rel : Option Nat) (m : Dev) : Dev :=
  match loc with
  | .tmem k => if goesBehind e r 2 ea k kind rel m then m else m.choose.2
  | _ => m

/-- An acquiring read that is on its way: the thread's later accesses follow it (R111). -/
def acquiring (r : TRef) (acq : Bool) (id : Nat) (m : Dev) : Dev :=
  if acq then m.mapThread r fun h => { h with acqs := h.acqs.filter (stillOut m) ++ [id] } else m

/-- A local access on its way to its ordering point, with its result, if it has one. -/
def onItsWay (e : Env) (r : TRef) (space ea key : Nat) (kind : AccKind) (rel : Option Nat) (acq : Bool) (dest : Option Dest) (mask instr : Nat)
    (m : Dev) : Dev :=
  let u := awaiting r dest none mask instr (space != 3) m
  acquiring r acq u.nextId { u with
    nextId := u.nextId + 1
    scrWrites := u.scrWrites ++ [mkAccess e u.nextId r space ea key kind rel (dest.map fun _ => m.nextId)] }

/-- A request on its way to its home slice, with its result, if it has one. -/
def requested (e : Env) (r : TRef) (ea : Nat) (kind : AccKind) (rel : Option Nat) (acq : Bool) (dest : Option Dest) (mask instr : Nat)
    (m : Dev) : Dev :=
  let u := awaiting r dest none mask instr false m
  acquiring r acq u.nextId { u with
    nextId := u.nextId + 1
    reqs := u.reqs ++ [{ mkAccess e u.nextId r 0 ea 0 kind rel (dest.map fun _ => m.nextId) with ltag := logicalTag e }] }

/-- The thread passes the instruction. -/
def past (i : Instr) (r : TRef) (m : Dev) : Dev := m.mapThread r fun h => (postAdvance i h).advance

/-- An instruction with results of long latency: `out`, the thread passes, an indirect destination is pending (R56), the window counts the
instruction (R53). -/
def Issues (i : Instr) (s : State) (r : TRef) (out : Dev → Dev) : Prop :=
  Does i s fun m => (recordInd i s.dev.nextId s.dev.freshId.2 (past i r (out m))).closeWindow i

/-- A trap of the issuing thread: taken, or, where a deferred fault waits for the thread, that fault delivered first (R388). -/
def trapped (e : Env) (r : TRef) (x : Trap) (m : Dev) : Dev := if e.h.pend = none then takeTrap m r x else deliverDeferred m r

/-- Bytes of the memories as they are read. -/
def sameMemory (d e : Dev) : Prop :=
  ∀ a, Memory.read e.hbm a = Memory.read d.hbm a ∧ Memory.read e.scr a = Memory.read d.scr a ∧ Memory.read e.tmem a = Memory.read d.tmem a ∧
    Memory.read e.tiles a = Memory.read d.tiles a ∧ Memory.read e.host a = Memory.read d.host a

end Sys2Proof.Machine
end

