-- ==== Sys2Proof/Certificates/Slice0/Obligations.lean ====
section
/-! DEFINITION. The statements for the provers. -/

open Sys2Proof Sys2Proof.Machine
/-! ## Integer instructions (R171 to R173) -/

/-- Addition, subtraction, multiplication, minimum, maximum and scaled addition of n-bit integers (R171, R173). -/
def Obligations.IntegerArithmetic : Prop :=
  ∀ (c : Ctl) (w : IWidth) (d a b : Operand),
    let n := widthBits w
    Computes (.add c w .wrap d a b) (fun e => bvOut (e.bv n a + e.bv n b)) ∧
    Computes (.add c w .signed d a b) (fun e => bvOut (clampSigned n ((e.bv n a).toInt + (e.bv n b).toInt))) ∧
    Computes (.add c w .unsigned d a b) (fun e => bvOut (BitVec.ofNat n (min ((e.bv n a).toNat + (e.bv n b).toNat) (2 ^ n - 1)))) ∧
    Computes (.sub c w .wrap d a b) (fun e => bvOut (e.bv n a - e.bv n b)) ∧
    Computes (.sub c w .signed d a b) (fun e => bvOut (clampSigned n ((e.bv n a).toInt - (e.bv n b).toInt))) ∧
    Computes (.sub c w .unsigned d a b) (fun e => bvOut (BitVec.ofNat n ((e.bv n a).toNat - (e.bv n b).toNat))) ∧
    Computes (.mul c w d a b) (fun e => bvOut (e.bv n a * e.bv n b)) ∧
    Computes (.mulHiI c w d a b) (fun e => bvOut (BitVec.ofInt n ((e.bv n a).toInt * (e.bv n b).toInt / 2 ^ n))) ∧
    Computes (.mulHiN c w d a b) (fun e => bvOut (BitVec.ofNat n ((e.bv n a).toNat * (e.bv n b).toNat / 2 ^ n))) ∧
    Computes (.mad c w d a b) (fun e => bvOut (e.bv n a * e.bv n b + e.bv n d)) ∧
    Computes (.minI c w d a b) (fun e => bvOut (if (e.bv n b).slt (e.bv n a) then e.bv n b else e.bv n a)) ∧
    Computes (.minN c w d a b) (fun e => bvOut (if (e.bv n b).ult (e.bv n a) then e.bv n b else e.bv n a)) ∧
    Computes (.maxI c w d a b) (fun e => bvOut (if (e.bv n a).slt (e.bv n b) then e.bv n b else e.bv n a)) ∧
    Computes (.maxN c w d a b) (fun e => bvOut (if (e.bv n a).ult (e.bv n b) then e.bv n b else e.bv n a)) ∧
    ∀ k, Computes (.lea c w k d a b) (fun e => bvOut (e.bv n a + e.bv n b <<< k.toNat))

/-- Shifts, rotation, truth tables, counts and bit fields (R138, R171, R172): a shift by n or more gives zeros, or the sign. Comparisons into a
predicate, selection by a predicate, and `mov` (R171, R173). -/
def Obligations.IntegerBits : Prop :=
  ∀ (c : Ctl) (w : IWidth) (d a b : Operand),
    let n := widthBits w
    Computes (.shl c w d a b) (fun e => bvOut (e.bv n a <<< e.count b)) ∧
    Computes (.shrN c w d a b) (fun e => bvOut (e.bv n a >>> e.count b)) ∧
    Computes (.shrI c w d a b) (fun e => bvOut ((e.bv n a).sshiftRight (e.count b))) ∧
    Computes (.rol c w d a b) (fun e => bvOut ((e.bv n a).rotateLeft (e.count b))) ∧
    (∀ tab, Computes (.lop3 c w tab d a b) (fun e => bvOut (minterms tab (e.bv n d) (e.bv n a) (e.bv n b)))) ∧
    Computes (.popc c w d a b) (fun e => bvOut (BitVec.ofNat n ((List.range n).filter fun k => (e.bv n a).getLsbD k).length)) ∧
    Computes (.clz c w d a b) (fun e => bvOut (BitVec.ofNat n (((List.range n).find? fun k => (e.bv n a).getMsbD k).getD n))) ∧
    Computes (.ctz c w d a b) (fun e => bvOut (BitVec.ofNat n (((List.range n).find? fun k => (e.bv n a).getLsbD k).getD n))) ∧
    Computes (.brev c w d a b) (fun e => bvOut (e.bv n a).reverse) ∧
    Computes (.bfeN c w d a b) (fun e =>
      bvOut (((e.bv n a).extractLsb' (fieldPos n (e.count b)) (fieldLen n (e.count b))).setWidth n)) ∧
    Computes (.bfeI c w d a b) (fun e =>
      bvOut (((e.bv n a).extractLsb' (fieldPos n (e.count b)) (fieldLen n (e.count b))).signExtend n)) ∧
    Computes (.bfi c w d a b) (fun e =>
      let mask := BitVec.ofNat n ((2 ^ fieldLen n (e.count b) - 1) * 2 ^ fieldPos n (e.count b))
      bvOut ((e.bv n d &&& ~~~mask) ||| (e.bv n a <<< fieldPos n (e.count b) &&& mask))) ∧
    (∀ cond, Computes (.cmpI c w cond d a b) (fun e => predOut (condBv cond true (e.bv n a) (e.bv n b)))) ∧
    (∀ cond, Computes (.cmpN c w cond d a b) (fun e => predOut (condBv cond false (e.bv n a) (e.bv n b)))) ∧
    (∀ np k, Computes (.sel c w np k d a b) (fun e => bvOut (if e.h.pred k.toNat = !np then e.bv n a else e.bv n b))) ∧
    Computes (.mov c w d a b) (fun e => bvOut (e.bv n a))

/-! ## Floating point (R66 to R68, R71, R174 to R176) -/

/-- The scalar floating-point instructions: a sum, a product or a fused product is the exact value rounded once (R66 to R68, R174);
minimum, maximum, comparison and classification round nothing (R71, R174 to R176). -/
def Obligations.FloatArithmetic : Prop :=
  (∀ (c : Ctl) (f : FFmt) (m : FpMod) (d a b : Operand),
     let x (e : Env) (o : Operand) : Val := readFp (scalarFmt f) m.ftzi (e.scalar (scalarFmt f).bits (Roles.fImm f) o)
     let out (e : Env) (v : Val) : Out :=
       { val := fpResult (scalarFmt f) m (if m.rnd = .sr then e.philox 0 else 0) v, mask := 2 ^ (scalarFmt f).bits - 1,
         draws := if m.rnd = .sr then 1 else 0 }
     let down := m.rnd == .rdn
     Computes (.addFp c f m d a b) (fun e => out e ((x e a).add down (x e b))) ∧
     Computes (.subFp c f m d a b) (fun e => out e ((x e a).add down (x e b).neg)) ∧
     Computes (.mulFp c f m d a b) (fun e => out e ((x e a).mul (x e b))) ∧
     Computes (.fmaAcc c f m d a b) (fun e => out e (((x e a).mul (x e b)).add down (x e d))) ∧
     Computes (.fmaHor c f m d a b) (fun e => out e (((x e d).mul (x e a)).add down (x e b)))) ∧
  (∀ (c : Ctl) (ftzi : Bool) (d a b : Operand),
     let bits (e : Env) (o : Operand) : Nat := if ftzi then flushPattern .f32 (e.scalar 32 .f32 o) else e.scalar 32 .f32 o
     Computes (.minFp c ftzi d a b) (fun e => bvOut (BitVec.ofNat 32 (minNum .f32 (bits e a) (bits e b)))) ∧
     Computes (.maxFp c ftzi d a b) (fun e => bvOut (BitVec.ofNat 32 (maxNum .f32 (bits e a) (bits e b)))) ∧
     (∀ f cond, Computes (.cmpFp c f ftzi cond d a b) (fun e => predOut (condFp cond
       (readFp (scalarFmt f) ftzi (e.scalar (scalarFmt f).bits (Roles.fImm f) a))
       (readFp (scalarFmt f) ftzi (e.scalar (scalarFmt f).bits (Roles.fImm f) b))))) ∧
     Computes (.classFp c d a b) (fun e =>
       let v := BitVec.ofNat 32 (e.scalar 32 .f32 a)
       let code := v.toNat % 2 ^ 31
       bvOut (1#32 <<<
         if 0x7F800000 < code then (if v.getLsbD 22 then 1 else 0)
         else if code = 0x7F800000 then (if v.msb then 2 else 9)
         else if code = 0 then (if v.msb then 5 else 6)
         else if code < 0x800000 then (if v.msb then 4 else 7)
         else (if v.msb then 3 else 8))))

/-! ## Packets (R177 to R182) -/

/-- Element-wise instructions on packets (R178, R179): a floating-point result is rounded once, an integer result wraps or is clamped, a minimum or
maximum is one of its operands, a comparison gives one bit per element; elements masked off keep their bits (R168, R177).
The model's choices in it: log 50. -/
def Obligations.PacketArithmetic : Prop :=
  (∀ (c : Ctl) (sh : Shape) (lam : Bool) (m : FpMod) (d a b : Operand),
     let w := shapeBits sh
     let src (e : Env) (o : Operand) : Nat := e.packet w (Roles.shapeImm sh) o
     let els (e : Env) : List Nat := (List.range (Roles.shapeCount sh)).filter fun k => !lam || decide (k < e.lamCount)
     let down := m.rnd == .rdn
     let fp (g : Fmt) (r : Val → Val → Val → Val) (e : Env) : Out :=
       packetOut w (els e) ((els e).length * draws m) fun k j =>
         fpResult g m (e.word m j) (r (readFp g m.ftzi (elem w (e.oldPacket d) k)) (readFp g m.ftzi (elem w (src e a) k))
           (readFp g m.ftzi (elem w (src e b) k)))
     let int (r : Int → Int → Int) (e : Env) : Out :=
       packetOut w (els e) 0 fun k _ =>
         let x := r (elemInt sh (elem w (src e a) k)) (elemInt sh (elem w (src e b) k))
         wrapInt (if m.sat then clampElem sh x else x) w
     (∀ g, shapeFmt sh = some g →
       Computes (.addPkt c sh lam m d a b) (fp g fun _ x y => x.add down y) ∧
       Computes (.subPkt c sh lam m d a b) (fp g fun _ x y => x.add down y.neg) ∧
       Computes (.mulPkt c sh lam m d a b) (fp g fun _ x y => x.mul y) ∧
       Computes (.fmaAccPkt c sh lam m d a b) (fp g fun z x y => (x.mul y).add down z) ∧
       Computes (.fmaHorPkt c sh lam m d a b) (fp g fun z x y => (z.mul x).add down y)) ∧
     (shapeFmt sh = none →
       Computes (.addPkt c sh lam m d a b) (int (· + ·)) ∧
       Computes (.subPkt c sh lam m d a b) (int (· - ·)) ∧
       Computes (.mulPkt c sh lam m d a b) (int (· * ·)))) ∧
  (∀ (c : Ctl) (sh : Shape) (lam : Bool) (m : FpMod) (d a b : Operand),
     let w := shapeBits sh
     let src (e : Env) (o : Operand) (k : Nat) : Nat := elem w (e.packet w (Roles.shapeImm sh) o) k
     let els (e : Env) : List Nat := (List.range (Roles.shapeCount sh)).filter fun k => !lam || decide (k < e.lamCount)
     let flush (g : Fmt) (v : Nat) : Nat := if m.ftzi then flushPattern g v else v
     (∀ g, shapeFmt sh = some g →
       Computes (.minPkt c sh lam m d a b) (fun e => packetOut w (els e) 0 fun k _ => minNum g (flush g (src e a k)) (flush g (src e b k))) ∧
       Computes (.maxPkt c sh lam m d a b) (fun e => packetOut w (els e) 0 fun k _ => maxNum g (flush g (src e a k)) (flush g (src e b k))) ∧
       ∀ ftzi cond, Computes (.cmpPkt c sh ftzi cond d a b) (fun e => bvOut (BitVec.ofNat 32 (bitsOf
         (fun k => decide (k < Roles.shapeCount sh) && condFp cond (readFp g ftzi (src e a k)) (readFp g ftzi (src e b k))) 32)))) ∧
     (shapeFmt sh = none →
       Computes (.minPkt c sh lam m d a b) (fun e => packetOut w (els e) 0 fun k _ =>
         if elemInt sh (src e b k) < elemInt sh (src e a k) then src e b k else src e a k) ∧
       Computes (.maxPkt c sh lam m d a b) (fun e => packetOut w (els e) 0 fun k _ =>
         if elemInt sh (src e a k) < elemInt sh (src e b k) then src e b k else src e a k) ∧
       ∀ ftzi cond, Computes (.cmpPkt c sh ftzi cond d a b) (fun e => bvOut (BitVec.ofNat 32 (bitsOf
         (fun k => decide (k < Roles.shapeCount sh) && condBv cond (shapeSigned sh) (BitVec.ofNat w (src e a k)) (BitVec.ofNat w (src e b k))) 32)))))

/-- Dot products and horizontal reductions (R72, R180 to R182). -/
def Obligations.PacketReductions : Prop :=
  ∀ (c : Ctl) (sh : Shape) (lam : Bool) (m : FpMod) (d a b : Operand),
    let w := shapeBits sh
    let src (e : Env) (o : Operand) (k : Nat) : Nat := elem w (e.packet w (Roles.shapeImm sh) o) k
    let els (e : Env) : List Nat := (List.range (Roles.shapeCount sh)).filter fun k => !lam || decide (k < e.lamCount)
    let down := m.rnd == .rdn
    (∀ g, shapeFmt sh = some g → Computes (.dot c sh lam m d a b) (fun e =>
      { val := fpResult .f32 m (e.word m 0) ((els e).foldl
          (fun x k => x.add down ((readFp g m.ftzi (src e a k)).mul (readFp g m.ftzi (src e b k)))) (readFp .f32 m.ftzi (e.scalar 32 .int d)))
        mask := 2 ^ 32 - 1, draws := draws m })) ∧
    (shapeFmt sh = none → Computes (.dot c sh lam m d a b) (fun e =>
      let d0 : Int := if shapeSigned sh then (e.bv 32 d).toInt else (e.bv 32 d).toNat
      let x := (els e).foldl (fun x k => x + elemInt sh (src e a k) * elemInt sh (src e b k)) d0
      bvOut (if m.sat then (if shapeSigned sh then clampSigned 32 x else BitVec.ofInt 32 (max 0 (min x (2 ^ 32 - 1)))) else BitVec.ofInt 32 x))) ∧
    Computes (.hsum c sh lam m d a b) (fun e =>
      let t := pairTree (fun k x y => fpResult .f32 m (e.word m k) ((val32 x).add down (val32 y))) (treeLeaves e sh lam m.ftzi a)
      { val := t.1, mask := 2 ^ 32 - 1, draws := t.2 * draws m }) ∧
    Computes (.hmax c sh lam m d a b) (fun e =>
      bvOut (BitVec.ofNat 32 (pairTree (fun _ x y => maxNum .f32 x y) (treeLeaves e sh lam m.ftzi a)).1)) ∧
    Computes (.omse c lam d a b) (fun e =>
      match omsePair e.compat ((e.bv 64 d).toNat % 2 ^ 32) ((e.bv 64 d).toNat / 2 ^ 32) (treeLeaves e .f32x8 lam false a) with
      | some p => bvOut (BitVec.ofNat 64 (p.1 + p.2 * 2 ^ 32))
      | none => noOut)

/-! ## Permutes, element moves, spectra and random numbers (R183 to R189) -/

/-- Byte permute, nibble lookup, and shift, broadcast, selection, insertion and extraction of elements of width w (R183 to R185): each written
element is a source element or zero, elements not written keep their bits; a modifier bit outside the layout leaves the opcode unassigned.
The model's choices in it: log 51. -/
def Obligations.PacketMoves : Prop :=
  ∀ (c : Ctl) (ew : EWidth) (d a b : Operand),
    let w := ewBits ew
    let n := elemCount w
    let whole (w : Nat) (f : Nat → Nat) : Out := packetOut w (List.range (elemCount w)) 0 fun k _ => f k
    let x (e : Env) (k : Nat) : Nat := elem w (e.packet w .int a) k
    let byte (e : Env) (o : Operand) (k : Nat) : Nat := elem 8 (e.packet 32 .int o) k
    (∀ m, instrOf 0x300 m c d a b = if m = 0 then some (.pperm c d a b) else none) ∧
    (∀ m, instrOf 0x301 m c d a b = if m < 4 then some (.plut c (m.testBit 1) (m.testBit 0) d a b) else none) ∧
    (∀ (k m : Nat) (f : EWidth → Instr),
      [fun ew => .eshl c ew d a b, fun ew => .eshr c ew d a b, fun ew => .bcast c ew d a b, fun ew => .esel c ew d a b,
        fun ew => .eins c ew d a b, fun ew => .eext c ew d a b][k]? = some f → m < 256 →
      instrOf (0x302 + k) m c d a b = if m % 64 = 0 then [EWidth.e32, .e16, .e8, .e4][m / 64]?.map f else none) ∧
    Computes (.pperm c d a b) (fun e => whole 8 fun i =>
      let s := BitVec.ofNat 8 (byte e b i)
      let v := BitVec.ofNat 8 (elem 8 (if s.getLsbD 5 then e.packet 32 .int d else e.packet 32 .int a) (s.toNat % 32))
      if s.getLsbD 7 then 0 else if s.getLsbD 6 then (if v.msb then 255 else 0) else v.toNat) ∧
    (∀ half hi, Computes (.plut c half hi d a b) (fun e => whole 8 fun i =>
      byte e b ((if half then 16 else 0) + if hi then byte e a i / 16 else byte e a i % 16))) ∧
    Computes (.eshl c ew d a b) (fun e => whole w fun k => if k < e.count b then 0 else x e (k - e.count b)) ∧
    Computes (.eshr c ew d a b) (fun e => whole w fun k => if k + e.count b < n then x e (k + e.count b) else 0) ∧
    Computes (.bcast c ew d a b) (fun e => whole w fun _ => x e (e.count b % n)) ∧
    Computes (.esel c ew d a b) (fun e =>
      let mask := BitVec.ofNat 64 (e.scalar (if ew = .e4 then 64 else 32) .int b)
      packetOut w ((List.range n).filter fun k => mask.getLsbD k) 0 fun k _ => x e k) ∧
    Computes (.eins c ew d a b) (fun e => packetOut w [e.count b % n] 0 fun _ _ => e.scalar 32 .int a) ∧
    Computes (.eext c ew d a b) (fun e => bvOut (BitVec.ofNat 32 (x e (e.count b % n))))

/-- Spectral resampling, colour matching and Mueller columns (R186 to R188); `prng` draws words of the thread's Philox stream (R70, R189).
The model's choices in it: log 10, 13. -/
def Obligations.SpectraAndRandom : Prop :=
  ∀ (c : Ctl) (m : FpMod) (d a b : Operand),
    let down := m.rnd == .rdn
    Computes (.specLerp c m d a b) (fun e =>
      let t := e.scalar 32 .int b
      packetOut 32 (List.range e.lamCount) (e.lamCount * draws m) fun k j =>
        fpResult .f32 m (e.word m j) (lerpAt down (fun bin => readFp .f32 m.ftzi (elem 32 (e.packets 2 a) bin)) (t % 2 ^ 20) (t / 2 ^ 20 % 2 ^ 12)
          (e.lamStart + k * e.lamStep))) ∧
    (∀ obs64, Computes (.specCie c obs64 m d a b) (fun e =>
      packetOut 32 [0, 1, 2] (3 * draws m) fun k j =>
        fpResult .f32 m (e.word m j) (Val.sum down ((List.range e.lamCount).map fun bin =>
          ((readFp .f32 m.ftzi (elem 32 (e.packet 32 .f32 a) bin)).mul (cmfAt obs64 k (e.lamStart + bin * e.lamStep))).mul
            (readFp .f32 m.ftzi (e.scalar 32 .f32 b)))))) ∧
    (∀ k, Computes (.specMueller c k m d a b) (fun e =>
      packetOut 32 (List.range 8) (8 * draws m) fun n j =>
        fpResult .f32 m (e.word m j) ((readFp .f32 m.ftzi (elem 32 (e.oldPacket d) n)).add down
          ((readFp .f32 m.ftzi (elem 32 (e.packet 32 .f32 a) n)).mul
            (readFp .f32 m.ftzi (elem 32 (e.packet 32 .f32 b) (n / 4 * 4 + k.toNat))))))) ∧
    Computes (.prng c .b32 d a b) (fun e => { val := (e.philox 0).toNat, mask := 2 ^ 32 - 1, draws := 1 }) ∧
    Computes (.prng c .f32 d a b) (fun e =>
      { val := rne32 (.fin false ((e.philox 0).toNat / 256) (2 ^ 24)), mask := 2 ^ 32 - 1, draws := 1 }) ∧
    Computes (.prng c .b32x8 d a b) (fun e => packetOut 32 (List.range 8) 8 fun k _ => (e.philox k).toNat) ∧
    Computes (.prng c .f32x8 d a b) (fun e => packetOut 32 (List.range 8) 8 fun k _ =>
      rne32 (.fin false ((e.philox k).toNat / 256) (2 ^ 24)))

/-! ## Special functions, quantisers, conversions (R63 to R65, R77 to R80, R190 to R193) -/

/-- A special function reads its input in its own format and rounds the function's value once, for a scalar and for each element (R190).
The model's choices in it: log 14, 56, 124. -/
def Obligations.SpecialFunctions : Prop :=
  ∀ (c : Ctl) (m : FpMod) (d a b : Operand),
    let one (fn : SfuFn) (g : Fmt) (e : Env) (v j : Nat) : Nat := fpResult g m (e.word m j) (sfuValue e.compat fn (readFp g m.ftzi v))
    let scalar (fn : SfuFn) (e : Env) : Out := { val := one fn .f32 e (e.scalar 32 .f32 a) 0 % 2 ^ 32, mask := 2 ^ 32 - 1, draws := draws m }
    let pkt (g : Fmt) (t : Roles.ImmTy) (fn : SfuFn) (e : Env) : Out :=
      packetOut g.bits (List.range (256 / g.bits)) (256 / g.bits * draws m) fun k j => one fn g e (elem g.bits (e.packet g.bits t a) k) j
    let all (i : SfuShape → Instr) (fn : SfuFn) : Prop :=
      Computes (i .f32) (scalar fn) ∧ Computes (i .f32x8) (pkt .f32 .f32 fn) ∧ Computes (i .f16x16) (pkt .f16 .f16 fn) ∧
        Computes (i .bf16x16) (pkt .bf16 .bf16 fn)
    all (fun v => .sfuRcp c v m d a b) .rcp ∧ all (fun v => .sfuRsqrt c v m d a b) .rsqrt ∧ all (fun v => .sfuSqrt c v m d a b) .sqrt ∧
    all (fun v => .sfuExp2 c v m d a b) .exp2 ∧ all (fun v => .sfuLog2 c v m d a b) .log2 ∧ all (fun v => .sfuSin c v m d a b) .sin ∧
    all (fun v => .sfuCos c v m d a b) .cos ∧ all (fun v => .sfuTanh c v m d a b) .tanh ∧ all (fun v => .sfuSigm c v m d a b) .sigm ∧
    all (fun v => .sfuErf c v m d a b) .erf ∧ all (fun v => .sfuGelu c v m d a b) .gelu ∧ all (fun v => .sfuSilu c v m d a b) .silu

/-- `mxq` writes the 32 elements of one block into D from a bit on and the scale byte into B, and draws 32 words under SR whatever the data (R65,
R191). `cvt` of scalars and of packets (R63, R192, R193): part p of a widening or narrowing.
The model's choices in it: log 123. -/
def Obligations.Conversions : Prop :=
  (∀ (c : Ctl) (m : FpMod) (d a b : Operand),
     let block (f : MxFmt) (lo : Nat) (e : Env) : Out :=
       let q := mxQuantise f m ((List.range 32).map fun k => e.word m k)
         ((List.range 32).map fun k => readFp .f32 m.ftzi (elem 32 (e.packets 4 a) k))
       { val := packElems f.bits q.2 * 2 ^ lo, mask := (2 ^ (32 * f.bits) - 1) * 2 ^ lo, scale := some q.1
         draws := if m.rnd = .sr then 32 else 0 }
     Computes (.mxqE4M3 c m d a b) (block (.fp .e4m3) 0) ∧
     Computes (.mxqE5M2 c m d a b) (block (.fp .e5m2) 0) ∧
     Computes (.mxqE3M2 c m d a b) (block (.fp .e3m2) 0) ∧
     Computes (.mxqE2M3 c m d a b) (block (.fp .e2m3) 0) ∧
     Computes (.mxqE2M1 c false m d a b) (block (.fp .e2m1) 0) ∧
     Computes (.mxqE2M1 c true m d a b) (block (.fp .e2m1) 128) ∧
     Computes (.mxqI8 c m d a b) (block .int8 0)) ∧
  (∀ (c : Ctl) (m : FpMod) (d a b : Operand),
     (∀ dst src, Computes (.cvtScalar c dst src m d a b) (fun e =>
       { val := convert (cvtFmt dst) (cvtBits dst) (cvtSigned dst) m (e.word m 0)
           (cvtRead (cvtFmt src) (cvtBits src) (cvtSigned src) m.ftzi (e.scalar (cvtBits src) (Roles.cImm src) a)) % 2 ^ cvtBits dst
         mask := 2 ^ cvtBits dst - 1, draws := draws m })) ∧
     ∀ dst src part,
       let ss := Roles.pktSrcShape src
       let nd := Roles.shapeCount dst
       let ns := Roles.shapeCount ss
       let get (e : Env) (k : Nat) : Val :=
         cvtRead (shapeFmt ss) (shapeBits ss) (shapeSigned ss) m.ftzi (elem (shapeBits ss) (e.packet (shapeBits ss) (Roles.shapeImm ss) a) k)
       let put (e : Env) (x : Val) (j : Nat) : Nat := convert (shapeFmt dst) (shapeBits dst) (shapeSigned dst) m (e.word m j) x
       Computes (.cvtPacket c dst src part m d a b) (fun e =>
         if ns < nd then packetOut (shapeBits dst) ((List.range ns).map fun k => part.toNat * ns + k) (ns * draws m) fun _ j => put e (get e j) j
         else packetOut (shapeBits dst) (List.range nd) (nd * draws m) fun k j => put e (get e (part.toNat * nd + k)) j))

/-! ## Instructions of a whole run (R196 to R200) -/

/-- Shuffles, votes, matches and scans over the participants of a head run, in ascending `sr.lane`.
The model's choices in it: log 42, 51, 52, 54. -/
def Obligations.RunCollectives : Prop :=
  ∀ (c : Ctl) (d a b : Operand),
    (∀ mode,
      ComputesAll (.shfl c .b32 mode d a b) (fun ps e =>
        bvOut (BitVec.ofNat 32 (shflValue mode (groupWidth e) ps (ps.map fun p => p.scalar 32 .int a) e (e.scalar 32 .int a) (e.count b)))) ∧
      ComputesAll (.shfl c .b64 mode d a b) (fun ps e =>
        bvOut (BitVec.ofNat 64 (shflValue mode (groupWidth e) ps (ps.map fun p => p.scalar 64 .int a) e (e.scalar 64 .int a) (e.count b)))) ∧
      ComputesAll (.shfl c .b256 mode d a b) (fun ps e =>
        bvOut (BitVec.ofNat 256 (shflValue mode (groupWidth e) ps (ps.map fun p => p.packet 32 .int a) e (e.packet 32 .int a) (e.count b))))) ∧
    ComputesAll (.vote c .someOf d a b) (fun ps _ => predOut (ps.any fun p => p.pred a)) ∧
    ComputesAll (.vote c .everyOf d a b) (fun ps _ => predOut (ps.all fun p => p.pred a)) ∧
    ComputesAll (.vote c .same d a b) (fun ps _ => predOut ((ps.all fun p => p.pred a) || ps.all fun p => !p.pred a)) ∧
    ComputesAll (.vote c .mask d a b) (fun ps _ => bvOut (BitVec.ofNat 64 ((ps.map fun p => if p.pred a then 2 ^ p.h.lane else 0).sum))) ∧
    ComputesAll (.vote c .cnt d a b) (fun ps _ => bvOut (BitVec.ofNat 32 (ps.countP fun p => p.pred a))) ∧
    ComputesAll (.vote c .pre d a b) (fun ps e => bvOut (BitVec.ofNat 32 (ps.countP fun p => p.pred a && decide (p.h.lane < e.h.lane)))) ∧
    (∀ b64,
      let same (p e : Env) : Bool := p.scalar (if b64 then 64 else 32) .int a == e.scalar (if b64 then 64 else 32) .int a
      ComputesAll (.matchV c b64 .mask d a b) (fun ps e => bvOut (BitVec.ofNat 64 ((ps.map fun p => if same p e then 2 ^ p.h.lane else 0).sum))) ∧
      ComputesAll (.matchV c b64 .lead d a b) (fun ps e => bvOut (BitVec.ofNat 32 ((ps.filter fun p => same p e).foldl (fun l p => min l p.h.lane) e.h.lane))) ∧
      ComputesAll (.matchV c b64 .cnt d a b) (fun ps e => bvOut (BitVec.ofNat 32 (ps.countP fun p => same p e)))) ∧
    ∀ excl op, ComputesAll (.scan c excl op d a b) (fun ps e =>
      bvOut (BitVec.ofNat 32 (scanTo op excl (fun p => p.scalar 32 (if op = .addF32 then .f32 else .int) a) e.h.lane ps (scanIdentity op))))

/-! ## Predicates and index registers (R45, R52, R194, R195, R229, R230) -/

/-- Predicate logic and index registers: p7 is never written (`holds`), an index register takes its new value whole. -/
def Obligations.PredicatesAndIndices : Prop :=
  ∀ (c : Ctl) (d a b : Operand),
    (∀ tab, Computes (.plop3 c tab d a b) (fun e =>
      predOut ((minterms tab (BitVec.ofBool (e.pred d)) (BitVec.ofBool (e.pred a)) (BitVec.ofBool (e.pred b))).getLsbD 0))) ∧
    Computes (.pget c d a b) (fun e => bvOut (e.h.p.setWidth 32)) ∧
    Computes (.xset c .whole d a b) (fun e => bvOut (e.bv 64 a)) ∧
    Computes (.xset c .cur d a b) (fun e => bvOut ((e.index d &&& ~~~1023#64) ||| ((e.bv 32 a).setWidth 10).setWidth 64)) ∧
    Computes (.xset c .add d a b) (fun e =>
      let x := e.index d
      let next : Int := (xCur x : Int) + (e.bv 32 a).toInt
      let next := if xWrap x = true ∧ xBase x < xBound x ∧ (next < xBase x ∨ (xBound x : Int) ≤ next)
        then xBase x + (next - xBase x) % ((xBound x : Int) - xBase x) else next
      bvOut ((x &&& ~~~1023#64) ||| (BitVec.ofInt 10 next).setWidth 64)) ∧
    Computes (.xget c .whole d a b) (fun e => bvOut (e.index a)) ∧
    Computes (.xget c .cur d a b) (fun e => bvOut (((e.index a).extractLsb' 0 10).setWidth 32)) ∧
    Computes (.xget c .base d a b) (fun e => bvOut (((e.index a).extractLsb' 10 10).setWidth 32)) ∧
    Computes (.xget c .bound d a b) (fun e => bvOut (((e.index a).extractLsb' 20 10).setWidth 32)) ∧
    Computes (.xget c .step d a b) (fun e => bvOut (((e.index a).extractLsb' 30 5).signExtend 32)) ∧
    Computes (.xget c .view d a b) (fun e => bvOut (((e.index a).extractLsb' 35 2).setWidth 32)) ∧
    Computes (.xget c .wrap d a b) (fun e => bvOut (((e.index a).extractLsb' 37 1).setWidth 32))

/-! ## Control flow (R25, R38, R231 to R238) -/

/-- Branches (R231 to R233): each thread with a true guard goes to its target, the others pass; `call` writes the return address, `loop` the
decremented counter, once for the run in a y register. Counting a backward branch changes the group's relief count alone (R38). -/
def Obligations.BranchesGo : Prop :=
  (∀ (c : Ctl) (d b : Operand) (v : BitVec 20),
    let rel (e : Env) : Word := e.h.pc + v.signExtend 32
    let looped (e : Env) : Word := if e.bv 32 d - 1 ≠ 0 then rel e else e.h.pc + 1
    Branches (.bra c d (.imm v) b) (fun _ _ => noOut) rel ∧
    Branches (.call c d (.imm v) b) (fun _ e => bvOut (e.h.pc + 1)) rel ∧
    ((∀ n a k, d ≠ .reg .y n a k) → Branches (.loop c d (.imm v) b) (fun _ e => bvOut (e.bv 32 d - 1)) looped) ∧
    ∀ n a k, d = .reg .y n a k → Branches (.loop c d (.imm v) b)
      (fun ps e => if ps.head?.map (·.h.lane) = some e.h.lane then bvOut (e.bv 32 d - 1) else noOut) looped) ∧
  (∀ (c : Ctl) (d a b : Operand),
    Branches (.brx c d a b) (fun _ _ => noOut) (fun e => e.bv 32 a) ∧
    Branches (.ret c d a b) (fun _ _ => noOut) (fun e => e.bv 32 a) ∧
    ((∀ v, a ≠ .imm v) → Branches (.call c d a b) (fun _ e => bvOut (e.h.pc + 1)) (fun e => e.bv 32 a))) ∧
  ∀ (s d : Dev),
    let plain (g : Group) : Group := { g with relief := 0, reliefPc := 0 }
    { countBackward s d with teams := d.teams } = d ∧
    (countBackward s d).teams.map (fun t => { t with groups := t.groups.map plain })
      = d.teams.map fun t => { t with groups := t.groups.map plain }

/-- `nop` passes (R238). `rep` with count 0 skips the next slot, with another count up to 65,535 makes it repeat (R234, R235). `yield` passes,
and a group with a true guard gives up its lane and waits again (R238). `pset` writes the predicates whose bits in B are 1 (R195), and the
window counts it (R53). -/
def Obligations.PassingInstructions : Prop :=
  (∀ (c : Ctl) (d a b : Operand) (s : State),
     (quietAll (.nop c d a b) s = true →
       ∃ t, exec (.nop c d a b) s = .next t ∧ Ran (.nop c d a b) (actors (.nop c d a b) s.dev) (fun _ _ => noOut) goOn s t) ∧
     (quietAll (.rep c d a b) s = true → (∀ p ∈ actors (.rep c d a b) s.dev, p.2.count a ≤ 65535) →
       ∃ t, exec (.rep c d a b) s = .next t ∧ Ran (.rep c d a b) (actors (.rep c d a b) s.dev) (fun _ _ => noOut)
         (fun e => if e.count a = 0 then (e.h.pc + 2, e.h.rep) else (e.h.pc + 1, BitVec.ofNat 32 (2 ^ 31 + e.count a))) s t) ∧
     (quietAll (.yield c d a b) s = true →
       ∃ u : Dev, Ran (.yield c d a b) (actors (.yield c d a b) s.dev) (fun _ _ => noOut) goOn s { s with dev := u } ∧
         (actors (.yield c d a b) s.dev = [] → exec (.yield c d a b) s = .next { s with dev := u }) ∧
         ∀ team gid lanes lits w, s.dev.cur = .run team gid lanes lits w → actors (.yield c d a b) s.dev ≠ [] →
           exec (.yield c d a b) s =
             .next { s with dev := u.mapGroup team gid fun g => { g with laneNo := none, runs := 0, since := some s.dev.cycle } })) ∧
  (∀ (c : Ctl) (d a b : Operand) (s : State) (r : TRef) (e : Env) (t : Team) (g : Group),
     let i := Instr.pset c d a b
     soloOf i s = some (r, e, t, g) →
       Does i s fun m => (m.mapThread r fun h =>
         (postAdvance i { h with p := ((e.bv 32 a).setWidth 7 &&& (e.bv 32 b).setWidth 7) ||| (h.p &&& ~~~(e.bv 32 b).setWidth 7) }).advance).closeWindow i)

/-- `exit` of a thread (R33, R237): it has exited, its candidate's ray slot is free (R445), and what waits for the team's other threads is
tested again; `exit` of a queue thread ends its service (R237, R310). `regroup` (R34, R201): outside every case of R416, the thread arrives with
its key and live mask and parks behind the instruction.
The model's choices in it: log 42. -/
def Obligations.ThreadsEndAndRegroup : Prop :=
  (∀ (c : Ctl) (d a b : Operand) (s : State),
     let i := Instr.exit c d a b
     (∀ r e t g, soloOf i s = some (r, e, t, g) →
       Does i s fun m => ({ m.mapThread r fun h => { h with st := .exited } with
         rays := m.rays.filter fun x => !(sameThread x.who r && x.candidate.isSome) } : Dev).checkTeam r.team) ∧
     ∀ q e, queueOf i s = some (q, e) →
       Does i s fun m => m.setQueue q { m.queue q with exited := true, started := false, stopping := false }) ∧
  (∀ (c : Ctl) (d a b : Operand) (s : State) (r : TRef) (e : Env) (t : Team) (g : Group),
     let i := Instr.regroup c d a b
     soloOf i s = some (r, e, t, g) → t.kernel.pair = false → e.h.depth = 0 → (t.groups.all fun x => x.units == 0) = true →
       (∀ x, t.gather = some x → x.pc = e.h.pc.toNat) →
       Does i s fun m =>
         ((m.mapThread r fun h => { postAdvance i h with pc := h.pc + 1, st := .parked .regroup }).mapTeam r.team fun t =>
           { t with gather := some (match t.gather with
             | some x => { x with arrivals := x.arrivals ++ [⟨e.h.tid, e.count a, e.count b⟩] }
             | none => ⟨e.h.pc.toNat, m.cycle, [⟨e.h.tid, e.count a, e.count b⟩]⟩) }).checkTeam r.team)

/-- `racq` and `rrel` (R47, R228): units are granted when the core has the slots and no request stands before it, and the new slots read as
zero; without them the group waits; units are released when nothing outstanding lies in them. -/
def Obligations.RegisterUnits : Prop :=
  ∀ (c : Ctl) (d b : Operand) (n : BitVec 20) (s : State) (r : TRef) (e : Env) (t : Team) (g : Group),
    (let i := Instr.racq c d (.imm n) b
     soloOf i s = some (r, e, t, g) → t.gather = none → g.units + n.toNat ≤ 4 →
      ((∀ x ∈ s.dev.racq, x.1 ≠ g.core) → t.kernel.width * 64 * n.toNat ≤ freeSlots s.dev g.core →
        Does i s fun m => (m.mapGroup r.team r.gid fun x =>
          { x with
            units := x.units + n.toNat
            threads := x.threads.map fun h =>
              { h with
                bank := h.bank.filter fun p => p.1 < t.kernel.base + 64 * x.units
                bad := h.bad.filter fun k => decide (k < t.kernel.base + 64 * x.units) } }).mapThread r Thread.advance) ∧
      ((∃ x ∈ s.dev.racq, x.1 = g.core) ∨ freeSlots s.dev g.core < t.kernel.width * 64 * n.toNat →
        ∀ team gid lanes lits w, s.dev.cur = .run team gid lanes lits w →
        Does i s fun m => { m.mapGroup team gid fun x => { x with block := some (.racq n.toNat m.cycle lanes) } with
          racq := m.racq ++ [(g.core, team, gid)] })) ∧
    (let i := Instr.rrel c d (.imm n) b
     soloOf i s = some (r, e, t, g) → n.toNat ≤ g.units → unitsBusy s.dev t g n.toNat = false →
      Does i s fun m => (m.mapGroup r.team r.gid fun x =>
          { x with
            units := x.units - n.toNat
            block := none
            threads := x.threads.map fun h =>
              { h with
                win := winBelow (t.kernel.base + 64 * g.units - 64 * n.toNat) h.win
                bank := h.bank.filter fun p => p.1 < t.kernel.base + 64 * g.units - 64 * n.toNat
                bad := h.bad.filter fun k => decide (k < t.kernel.base + 64 * g.units - 64 * n.toNat) } }).mapThread r Thread.advance)

/-! ## Local memory (R26, R57, R58, R81 to R88, R116, R120, R203 to R210, R260) -/

/-- `ld` and `hload` of one thread (R206, R208, R260): a load in die scratchpad, wider than 8 bytes in another thread's bank, or behind an access
that the thread must follow, goes on its way with its result awaited, and so may a load in team memory; any other reads at once the bytes that
lie there, and the result returns later (R26). No byte changes.
The model's choices in it: log 62. -/
def Obligations.LoadsRead : Prop :=
  ∀ (c : Ctl) (w : MWidth) (d a b : Operand) (s : State) (r : TRef) (e : Env) (t : Team) (g : Group),
    let case (i : Instr) (n mask : Nat) (dest : Dest) : Prop :=
      soloOf i s = some (r, e, t, g) →
      ∀ loc, localAt e n (e.ea a b) false = some loc →
        let m0 := startOf i s.dev
        let away := awayAt e r (e.ea a b) loc (.load n) none m0
        let draw := drawn e r (e.ea a b) loc (.load n) none
        (away ≠ none ∨ loc.poisoned m0 e.own e.h.lane n = false) →
          (Issues i s r fun m => match away with
            | some (space, k) => onItsWay e r space (e.ea a b) k (.load n) none false (some dest) mask s.dev.nextId (draw m)
            | none => awaiting r (some dest) (some (loc.read m e.own e.h.lane n)) mask s.dev.nextId true (draw m)) ∧
          ∃ u, exec i s = .next u ∧ sameMemory s.dev u.dev
    let n := mwBytes w
    case (.ld c w d a b) n (2 ^ (8 * n) - 1) (destOf e (Roles.ldD w) d) ∧
    ((apertureOf (e.ea a b) = .team ∨ apertureOf (e.ea a b) = .die) →
      case (.hload c d a b) 8 (2 ^ 64 - 1) (destOf e .handle d))

/-- `st` and `hstore` of one thread (R206 to R208, R260): a store to die scratchpad, wider than 8 bytes to another thread's bank, or behind an
access that the thread must follow, goes on its way and writes no byte yet, and so may a store to team memory; any other writes its bytes at
the location at once, and the thread passes.
The model's choices in it: log 62. -/
def Obligations.StoresWrite : Prop :=
  ∀ (c : Ctl) (w : MWidth) (d a b : Operand) (s : State) (r : TRef) (e : Env) (t : Team) (g : Group),
    let case (i : Instr) (n v : Nat) (does : (Dev → Dev) → Prop) : Prop :=
      soloOf i s = some (r, e, t, g) →
      ∀ loc, localAt e n (e.ea a b) false = some loc →
        let away := awayAt e r (e.ea a b) loc (.store n v) none (startOf i s.dev)
        let draw := drawn e r (e.ea a b) loc (.store n v) none
        (does fun m => match away with
          | some (space, k) => onItsWay e r space (e.ea a b) k (.store n v) none false none 0 0 (draw m)
          | none => loc.write (draw m) e.own e.h.lane n v) ∧
        (away ≠ none → ∃ u, exec i s = .next u ∧ sameMemory s.dev u.dev)
    let st := Instr.st c w d a b
    let hst := Instr.hstore c d a b
    case st (mwBytes w) (storeData e w d) (Issues st s r) ∧
    ((apertureOf (e.ea a b) = .team ∨ apertureOf (e.ea a b) = .die) →
      case hst 8 (e.handle d).toNat fun out => Does hst s fun m => past hst r (out m))

/-- A store to team memory goes on its way and changes no byte yet, or it changes exactly its bytes, each to its byte of the data, least
significant first (R207), and every other byte of every memory reads as before.
The model's choices in it: log 62. -/
def Obligations.TeamStoreBytes : Prop :=
  ∀ (c : Ctl) (w : MWidth) (d a b : Operand) (s : State) (r : TRef) (e : Env) (t : Team) (g : Group) (k : Nat),
    let i := Instr.st c w d a b
    soloOf i s = some (r, e, t, g) → localAt e (mwBytes w) (e.ea a b) false = some (.tmem k) →
      let away := awayAt e r (e.ea a b) (.tmem k) (.store (mwBytes w) (storeData e w d)) none (startOf i s.dev)
      ∃ u, exec i s = .next u ∧
        (away ≠ none → u.dev.tmem = s.dev.tmem ∧ u.dev.scrWrites ≠ s.dev.scrWrites) ∧
        (∀ j, away = none → j < mwBytes w → Memory.read u.dev.tmem (k + j) = BitVec.ofNat 8 (storeData e w d / 2 ^ (8 * j))) ∧
        (∀ x, (x < k ∨ k + mwBytes w ≤ x) → Memory.read u.dev.tmem x = Memory.read s.dev.tmem x) ∧
        u.dev.hbm = s.dev.hbm ∧ u.dev.scr = s.dev.scr ∧ u.dev.tiles = s.dev.tiles ∧ u.dev.host = s.dev.host

/-- The local atomics of one thread (R209, R210): in die scratchpad, or where a release or an access that the thread must follow is not
performed (R111, R116, R120), the atomic goes on its way, and an acquiring one is followed by the thread's later accesses; so it may in team
memory, or it is performed there at once: the old value is the result, the location takes the new value, and a failed `cas` writes nothing;
where nothing lies, the result is zero (R86).
The model's choices in it: log 62. -/
def Obligations.LocalAtomics : Prop :=
  ∀ (c : Ctl) (ord : MOrder) (sc : Scope) (ty : MType) (d a b : Operand),
    let case (op : AtomOp) (i : Instr) : Prop := ∀ s r e t g, soloOf i s = some (r, e, t, g) →
      let n := tyBytes ty
      let ea := e.scalar 64 .int a
      let v := e.scalar (8 * n) (Roles.mImm ty) b
      let cmp := if op = .cas then e.scalar (8 * n) .int d else 0
      let kind := AccKind.atom op ty v cmp
      let dest := if d = .none then none else some (destOf e (Roles.rolesOf i).1 d)
      let mask := 2 ^ (8 * n) - 1
      let m0 := startOf i s.dev
      let merged (m : Dev) : Dev := match relOf ord sc with
        | some x => if 5 ≤ x then mergePartials m fun p => p.core == e.core else m
        | none => m
      let away (space k : Nat) := Issues i s r
        (onItsWay e r space ea k kind (relOf ord sc) (acquires ord sc) dest (if d = .none then 0 else mask) s.dev.nextId)
      (∀ k, localAt e n ea true = some (.scr k) → away 1 k) ∧
      (∀ k x, localAt e n ea true = some (.tmem k) → relOf ord sc = some x → outstandingBefore m0 r x m0.nextId = true → away 2 k) ∧
      (∀ k, localAt e n ea true = some (.tmem k) → (∀ x, relOf ord sc = some x → outstandingBefore m0 r x m0.nextId = false) →
        let goes := awayAt e r ea (.tmem k) kind (relOf ord sc) (merged m0)
        (goes ≠ none ∨ poisoned (merged m0) 2 k n = false) →
          Issues i s r fun m =>
            let m := drawn e r ea (.tmem k) kind (relOf ord sc) (merged m)
            let old := Memory.readN m.tmem k n
            let u := if op = .cas ∧ old ≠ cmp % 2 ^ (8 * n) then m else
              { m with tmem := Memory.writeN m.tmem k n (atomApply op ty old v cmp), poison := unpoison m 2 k n }
            if goes = none then awaiting r dest (some old) (if d = .none then 0 else mask) s.dev.nextId true u
            else onItsWay e r 2 ea k kind (relOf ord sc) (acquires ord sc) dest (if d = .none then 0 else mask) s.dev.nextId m) ∧
      (localAt e n ea true = some .miss → Issues i s r (awaiting r dest (some 0) (if d = .none then 0 else mask) s.dev.nextId true))
    case .exch (.atomExch c ord sc ty d a b) ∧ case .cas (.atomCas c ord sc ty d a b) ∧ case .add (.atomAdd c ord sc ty d a b) ∧
    case .min (.atomMin c ord sc ty d a b) ∧ case .max (.atomMax c ord sc ty d a b) ∧ case .and (.atomAnd c ord sc ty d a b) ∧
    case .or (.atomOr c ord sc ty d a b) ∧ case .xor (.atomXor c ord sc ty d a b)

/-- A queue thread loads, stores and performs every atomic in die scratchpad (R165, R210, R282), in granules of its context (R88), at once: its
accesses do not go on their way.
The model's choices in it: log 115. -/
def Obligations.QueueThreadAccesses : Prop :=
  ∀ (c : Ctl) (w : MWidth) (ord : MOrder) (sc : Scope) (ty : MType) (d a b : Operand) (s : State) (q : Nat) (e : Env) (k : Nat),
    granuleOk s.dev e.ctx true k = true →
    let next (m : Dev) : Dev := { m with nextId := m.nextId + 1 }
    let step (i : Instr) (m : Dev) : Dev := m.setQueue q { m.queue q with thread := (postAdvance i (m.queue q).thread).advance }
    (let i := Instr.ld c w d a b
     queueOf i s = some (q, e) → localAt e (mwBytes w) (e.ea a b) false = some (.scr k) → poisoned s.dev 1 k (mwBytes w) = false →
      exec i s = .next { s with dev := step i (writeDest (next s.dev) (.que q) (Roles.ldD w) d (firstSlot e (Roles.ldD w) d) 0
        (Memory.readN s.dev.scr k (mwBytes w)) (2 ^ (8 * mwBytes w) - 1)) }) ∧
    (let i := Instr.st c w d a b
     queueOf i s = some (q, e) → localAt e (mwBytes w) (e.ea a b) false = some (.scr k) →
      exec i s = .next { s with dev := step i (wakeWords { next s.dev with
        scr := Memory.writeN s.dev.scr k (mwBytes w) (storeData e w d), poison := unpoison s.dev 1 k (mwBytes w) } k (mwBytes w)) }) ∧
    (let case (op : AtomOp) (i : Instr) : Prop :=
       queueOf i s = some (q, e) → localAt e (tyBytes ty) (e.scalar 64 .int a) true = some (.scr k) → poisoned s.dev 1 k (tyBytes ty) = false →
        let n := tyBytes ty
        let v := e.scalar (8 * n) (Roles.mImm ty) b
        let cmp := if op = .cas then e.scalar (8 * n) .int d else 0
        let old := Memory.readN s.dev.scr k n
        let u := wakeWords (if op = .cas ∧ old ≠ cmp % 2 ^ (8 * n) then next s.dev else { next s.dev with
          scr := Memory.writeN s.dev.scr k n (atomApply op ty old v cmp), poison := unpoison s.dev 1 k n }) k n
        let r := Roles.rolesOf i
        exec i s = .next { s with dev := step i (if d = .none then u else writeDest u (.que q) r.1 d (firstSlot e r.1 d) 0 old (2 ^ (8 * n) - 1)) }
     case .exch (.atomExch c ord sc ty d a b) ∧ case .cas (.atomCas c ord sc ty d a b) ∧ case .add (.atomAdd c ord sc ty d a b) ∧
     case .min (.atomMin c ord sc ty d a b) ∧ case .max (.atomMax c ord sc ty d a b) ∧ case .and (.atomAnd c ord sc ty d a b) ∧
     case .or (.atomOr c ord sc ty d a b) ∧ case .xor (.atomXor c ord sc ty d a b))

/-- An access outside every aperture that it may use, or misaligned, takes the aperture trap (R82, R83, R203): cause 0x03 with the effective
address, and nothing is accessed. A deferred fault that waits for the thread is delivered first, and the instruction has not executed
(R388). -/
def Obligations.ApertureTraps : Prop :=
  ∀ (c : Ctl) (w : MWidth) (d a b : Operand) (s : State) (r : TRef) (e : Env) (t : Team) (g : Group),
    let taken := trapped e r { cause := 0x03, fpc := e.h.pc.toNat, resume := e.h.pc.toNat, addr := e.ea a b }
    (let i := Instr.ld c w d a b
     soloOf i s = some (r, e, t, g) → localAt e (mwBytes w) (e.ea a b) false = none →
      Does i s fun m => (recordInd i s.dev.nextId s.dev.freshId.2 (taken m)).closeWindow i) ∧
    (let i := Instr.st c w d a b
     soloOf i s = some (r, e, t, g) → localAt e (mwBytes w) (e.ea a b) false = none →
      Does i s fun m => (recordInd i s.dev.nextId s.dev.freshId.2 (taken m)).closeWindow i) ∧
    (let i := Instr.stG c w d a b
     soloOf i s = some (r, e, t, g) → (apertureOf (e.ea a b) ≠ .glob ∨ e.ea a b % mwBytes w ≠ 0) → Does i s taken)

/-! ## Glob (R96, R116, R117, R211 to R216, R333) -/

/-- Stores, reductions and `red.commit` to glob are posted (R211, R212, R216): one request goes on its way, a floating-point reduction counts
in the thread's ordinal (R333), the thread passes; no byte changes at issue. A returning atomic (R214) sends one request too, and its old value
is awaited when D is used; the thread's later accesses follow an acquiring one (R111). -/
def Obligations.GlobRequests : Prop :=
  (∀ (c : Ctl) (w : MWidth) (ord : MOrder) (sc : Scope) (ty : MType) (d a b : Operand),
     let case (i : Instr) (n : Nat) (kind : Env → AccKind) (rel : Option Nat) (counts : Bool) : Prop :=
       ∀ s r e t g, soloOf i s = some (r, e, t, g) → apertureOf (e.ea a b) = .glob → e.ea a b % n = 0 →
         Does i s (fun m => past i r ((requested e r (e.ea a b) (kind e) rel false none 0 0 m).mapThread r fun h =>
           if counts then { h with ordinal := (h.ordinal + 1) % 2 ^ 19 } else h)) ∧
         ∃ u, exec i s = .next u ∧ sameMemory s.dev u.dev
     let red (i : Instr) (op : AtomOp) (counts : Bool) : Prop :=
       case i (atomBytes op ty) (fun e => .red op ty (e.scalar (8 * tyBytes ty) (Roles.mImm ty) d)) (relOf ord sc) counts
     case (.stG c w d a b) (mwBytes w) (fun e => .store (mwBytes w) (storeData e w d)) none false ∧
     red (.redGAdd c ord sc ty d a b) .add (ty == .f32 || ty == .f64) ∧
     red (.redGMin c ord sc ty d a b) .min false ∧ red (.redGMax c ord sc ty d a b) .max false ∧
     red (.redGAnd c ord sc ty d a b) .and false ∧ red (.redGOr c ord sc ty d a b) .or false ∧ red (.redGXor c ord sc ty d a b) .xor false ∧
     red (.redGKahan c ord sc ty d a b) .kahan true ∧
     case (.redCommit c ord sc d a b) 128 (fun _ => .commit) (relOf ord sc) false) ∧
  (∀ (c : Ctl) (ord : MOrder) (sc : Scope) (ty : MType) (d a b : Operand),
     let case (op : AtomOp) (i : Instr) : Prop := ∀ s r e t g, soloOf i s = some (r, e, t, g) →
       let n := tyBytes ty
       let ea := e.scalar 64 .int a
       apertureOf ea = .glob → ea % n = 0 →
         Issues i s r (requested e r ea (.atom op ty (e.scalar (8 * n) (Roles.mImm ty) b) (if op = .cas then e.scalar (8 * n) .int d else 0))
           (relOf ord sc) (acquires ord sc) (if d = .none then none else some (destOf e (Roles.rolesOf i).1 d)) (2 ^ (8 * n) - 1) s.dev.nextId) ∧
         ∃ u, exec i s = .next u ∧ sameMemory s.dev u.dev
     case .exch (.atomGExch c ord sc ty d a b) ∧ case .cas (.atomGCas c ord sc ty d a b) ∧ case .add (.atomGAdd c ord sc ty d a b))


/-! ## Fences, barriers, waits and scratchpad queues (R32, R93 to R95, R116, R217 to R226) -/

/-- `fence` (R217, R218): with nothing of the thread outstanding, or acquire-only, it completes as it issues, at `.die` or wider after the near
partials of its core are merged (R332); otherwise the thread parks behind it. With an acquire part, the thread's later accesses follow its
reads that are still on their way (R111, R112). A queue thread passes: its accesses are performed as they issue.
The model's choices in it: log 40, 108, 115. -/
def Obligations.FencesComplete : Prop :=
  ∀ (c : Ctl) (ord : MOrder) (sc : Scope) (d a b : Operand) (s : State),
    let i := Instr.fence c ord sc d a b
    (∀ r e t g, soloOf i s = some (r, e, t, g) →
      let acq (m : Dev) : Dev := if acquires ord sc then
          m.mapThread r fun h => { h with acqs := h.acqs.filter (stillOut m) ++ readsOut m r } else m
      (relOf ord sc = none → Does i s fun m => past i r (acq m)) ∧
      (∀ k, relOf ord sc = some k → outstandingBefore s.dev r k s.dev.nextId = false →
        Does i s fun m => past i r (if 5 ≤ k then mergePartials (acq m) fun p => p.core == e.core else acq m)) ∧
      (∀ k, relOf ord sc = some k → outstandingBefore s.dev r k s.dev.nextId = true →
        Does i s fun m => (past i r (acq m)).mapThread r fun h => { h with st := .parked (.fence k) })) ∧
    ∀ q e, queueOf i s = some (q, e) →
      Does i s fun m => m.setQueue q { m.queue q with thread := (postAdvance i (m.queue q).thread).advance }

/-- The barriers: each arrival writes the thread's window to the bank, parks the thread behind the instruction and is counted once. `bar.team`
(R32, R219): in the team's barrier of its number. `bar.pair` and `bar.clu` (R220, R221): in the entry of its number that still takes arrivals,
a new one, or, where the cluster has 64, later. `bar.sys` (R122, R222): by an add on its way to the word, with `.rel` behind the thread's
earlier writes.
The model's choices in it: log 62. -/
def Obligations.BarriersArrive : Prop :=
  ∀ (c : Ctl) (rel : Bool) (d a b : Operand) (s : State) (r : TRef) (e : Env) (t : Team) (g : Group),
    (let i := Instr.barTeam c d a b
     soloOf i s = some (r, e, t, g) →
      Does i s fun m =>
        ((m.mapThread r fun h => { postAdvance i h with pc := h.pc + 1, st := .parked (.barTeam (e.count a % 16)) }).mapTeam r.team fun t =>
          { t with bars :=
              if ∃ x ∈ t.bars, x.number = e.count a % 16 then
                t.bars.map fun x => if x.number = e.count a % 16 then { x with arrivals := x.arrivals + 1 } else x
              else t.bars ++ [⟨e.count a % 16, 1, m.cycle⟩] }).checkTeam r.team) ∧
    (let counting (i : Instr) (kind place : Nat) : Prop :=
      soloOf i s = some (r, e, t, g) →
      let mine (x : CountBar) : Bool := x.opened && x.ctx == e.ctx && x.kind == kind && x.place == place && x.number == e.count a % 16
      let park (m : Dev) (id : Nat) : Dev := (m.mapTeam r.team (Team.noteWait m.cycle kind id (.barCount id))).mapThread r fun h =>
        { postAdvance i h with pc := h.pc + 1, st := .parked (.barCount id) }
      (∀ x, s.dev.bars.find? mine = some x →
        Does i s fun m => settleCount
          (park { m with bars := m.bars.map fun y => if y.id = x.id then { y with arrivals := y.arrivals + 1 } else y } x.id)) ∧
      (s.dev.bars.find? mine = none →
        let used := (s.dev.bars.filter fun x => x.opened && barCluster x.kind x.place == clusterOf e.core).length
        (used < 64 → Does i s fun m => settleCount
          (park { m with nextId := m.nextId + 1
                         bars := m.bars ++ [⟨m.nextId, e.ctx, kind, place, e.count a % 16, e.count b, 1, m.cycle⟩] } m.nextId)) ∧
        (64 ≤ used → Does i s fun m =>
          { m.mapThread r fun h => { h with st := .parked (.barRetry kind (e.count a % 16) (e.count b) (postIndices i)) } with
            barWait := m.barWait ++ [r] }))
     counting (.barPair c d a b) 1 (e.core / 2) ∧ counting (.barClu c d a b) 2 (clusterOf e.core)) ∧
    (let i := Instr.barSys c rel d a b
     let ea := e.scalar 64 .int a
     soloOf i s = some (r, e, t, g) → apertureOf ea = .glob → ea % 8 = 0 → e.count b ≠ 0 →
      let parked (m : Dev) : Dev :=
        m.mapThread r fun h => { postAdvance i h with pc := h.pc + 1, st := .parked (.barSysRelease ea (e.count b)) }
      (rel = false →
        Does i s fun m => sendGlob
          { m.mapThread r fun h => { postAdvance i h with pc := h.pc + 1, st := .parked (.barSysSent ea (e.count b)) } with nextId := m.nextId + 1 }
          { id := m.nextId, who := .thread r (coreOfRef m r), ctx := t.ctx, pc := e.h.pc.toNat, space := 0, addr := ea, key := 0, rel := none,
            after := e.h.acqs, det := bitOf (ctxAt m t 0).toNat 62, faulted := false, kind := .barSys (e.count b), result := none, ltag := 0,
            stamp := dtime64 m, die := dieOf t.core, grid := some t.grid }) ∧
      (rel = true → outstandingBefore s.dev r 7 s.dev.nextId = false →
        Does i s fun m =>
          let u := mergePartials (parked m) fun p => p.core == e.core
          match u.thread? r with
          | some h => sendBarSys u r t h e.h.pc.toNat ea (e.count b)
          | none => u) ∧
      (rel = true → outstandingBefore s.dev r 7 s.dev.nextId = true → Does i s parked))

/-- `wait`, `qpush` and `qpop` (R93, R223 to R225): the thread parks at the instruction, its test or its operation on the way; a queue name with
an unassigned bit brings the deferred fault 0x04 (R224).
The model's choices in it: log 63. -/
def Obligations.WaitsAndQueues : Prop :=
  ∀ (c : Ctl) (cmp : WaitCmp) (d a b : Operand) (s : State) (r : TRef) (e : Env) (t : Team) (g : Group),
    (let i := Instr.wait c cmp d a b
     let ea := e.scalar 64 .int a
     ∀ k, soloOf i s = some (r, e, t, g) → apertureOf ea = .die → localAt e 8 ea false = some (.scr k) →
      Does i s fun m => onItsWay e r 1 ea k (.test (match cmp with | .eq => 0 | .ne => 1 | .ge => 2) (e.scalar 64 .int b)) none false none 0 0
        (m.mapThread r fun h => { h with st := .parked (.word ea (postIndices i)) })) ∧
    (let queued (i : Instr) (value : Option DWord) (dest : Dest) : Prop :=
      soloOf i s = some (r, e, t, g) →
        (∀ die number, queueName e.die (e.count a) = some (die, number) →
          Does i s fun m => ({ m.mapThread r fun h => { h with st := .parked .queue } with
              nextId := m.nextId + 1
              qops := m.qops ++ [{ id := m.nextId, instr := s.dev.nextId, who := r, ctx := e.ctx, pc := e.h.pc.toNat, die, number, value, dest,
                                   post := postIndices i, waiting := false }] } : Dev).closeWindow i) ∧
        (queueName e.die (e.count a) = none →
          Does i s fun m => ({ m.mapThread r fun h => { h with st := .parked .queue } with
              nextId := m.nextId + 1
              late := m.late ++ [⟨m.nextId, .thread r e.core, { cause := 0x04, fpc := e.h.pc.toNat, addr := 0, detail := 0 }, none, true⟩] } : Dev).closeWindow i)
     queued (.qpush c d a b) (some (BitVec.ofNat 64 (e.scalar 64 .int b))) noDest ∧
     queued (.qpop c d a b) none (destOf e (.dst true) d))

/-! ## Jobs (R123, R241 to R249, R255 to R259) -/

/-- `jpost` of one thread (R241, R248, R249): with a correct card and room at the core, the card is held there as the next job of its cluster,
its handle written where D names a register; without room the group is held and nothing is posted; an incorrect card takes the job-card
trap.
The model's choices in it: log 22, 86, 126. -/
def Obligations.JobPosts : Prop :=
  ∀ (c : Ctl) (ord : Bool) (d a b : Operand),
    let case (kind : Nat) (i : Instr) : Prop := ∀ s r e t g, soloOf i s = some (r, e, t, g) →
      let cl := clusterOf g.core
      let j := s.dev.join cl
      let card := e.card kind ord a
      let job : Job :=
        { seq := j.count, slot := freeEntry s.dev cl, card, who := r, ctx := t.ctx, core := g.core, team := t.id, grid := t.grid,
          state := .waiting, preds := [], failedRoot := none, shares := [], engine := none, drain := false, lost := none, passes := 0, cancelAsked := false }
      let after : Option Nat := match g.lastPost with | some p => if ord && p.1 == cl then some p.2 else none | none => none
      let post (m : Dev) : Dev :=
        { m.setJoin cl { j with count := (j.count + 1) % 2 ^ 37, jobs := j.jobs.filter fun x => x.slot != freeEntry s.dev cl } with
          cards := m.cards ++ [{ core := g.core, job, upto := m.nextId, ordAfter := after }] }
      (cardOk t.kernel.tmem card = true → cardRoom s.dev e.core = true →
        (d = .none → Does i s fun m => past i r ((post m).mapGroup r.team r.gid fun g => { g with lastPost := some (cl, j.count) })) ∧
        ∀ v n k, d = .reg .h v n k → Does i s fun m => (past i r ((post m).mapGroup r.team r.gid fun g =>
          { g with lastPost := some (cl, j.count), h := AMap.set 0 g.h k.toNat job.handle, hfin := AMap.set 0 g.hfin k.toNat 0 })).closeWindow i) ∧
      (cardOk t.kernel.tmem card = true → cardRoom s.dev e.core = false →
        Does i s fun m => m.mapGroup r.team r.gid fun g => { g with block := some .jpost }) ∧
      (cardOk t.kernel.tmem card = false →
        Does i s fun m => (trapped e r { cause := 0x08, fpc := e.h.pc.toNat, resume := e.h.pc.toNat } m).closeWindow i)
    case 0 (.jpostCopy c ord d a b) ∧ case 1 (.jpostGather c ord d a b) ∧ case 2 (.jpostMma c ord d a b) ∧
    case 3 (.jpostMmaGather c ord d a b) ∧ case 4 (.jpostEpilogue c ord d a b)

/-- `jwait` writes the status of a final handle and blocks the group on a pending one (R257); `jtest` says whether the handle is final (R258);
`jcancel` ends an unissued job, marks a card still at its core, and passes in every other case (R259).
The model's choices in it: log 86. -/
def Obligations.HandleInstructions : Prop :=
  ∀ (c : Ctl) (d a b : Operand) (s : State),
    (let i := Instr.jwait c d a b
     (∀ st, quietAll i s = true → (∀ p ∈ actors i s.dev, statusOf p.2 a = some st) →
      ∃ t, exec i s = .next t ∧ Ran i (actors i s.dev) (fun _ _ => bvOut (BitVec.ofNat 32 st)) goOn s t) ∧
     ∀ r e t g, soloOf i s = some (r, e, t, g) → statusOf e a = none →
      Does i s fun m => m.mapGroup r.team r.gid fun x => { x with block := some (.handle (e.handle a)) }) ∧
    (let i := Instr.jtest c d a b
     quietAll i s = true →
      ∃ t, exec i s = .next t ∧ Ran i (actors i s.dev) (fun _ e => predOut (statusOf e a).isSome) goOn s t) ∧
    (let i := Instr.jcancel c d a b
     ∀ r e t g, soloOf i s = some (r, e, t, g) →
      let v := AMap.get 0 g.h (handleIndex a)
      let cl := clusterOf g.core
      (∀ n, statusOf e a = some n → Does i s (past i r)) ∧
      (statusOf e a = none → (∃ x ∈ s.dev.cards, x.job.handle = v) →
        Does i s fun m => past i r { m with cards := m.cards.map fun x =>
          if x.job.handle = v then { x with job := { x.job with cancelAsked := true } } else x }) ∧
      (statusOf e a = none → (∀ x ∈ s.dev.cards, x.job.handle ≠ v) →
        ∀ x, (s.dev.join cl).jobs.find? (fun y => y.handle == v) = some x →
          Does i s fun m => past i r (if x.unissued then endJob m cl x .cancelled none else m)))

/-! ## Tiles (R261 to R265) -/

/-- `tacq` grants the lowest free tile of the core, zeroed, or answers false; a tile already held answers true (R261). `trel` frees a tile that no
job names and holds the group at one in flight (R262). `tstat` reads place and state (R263). `tld` and `tst` send an access to the tile
(R264, R265).
The model's choices in it: log 45, 68. -/
def Obligations.TileInstructions : Prop :=
  ∀ (c : Ctl) (d a b : Operand) (s : State),
    (let i := Instr.tacq c d a b
     ∀ team gid lanes lits w t, s.dev.cur = .run team gid lanes lits w → s.dev.team? team = some t → actors i s.dev ≠ [] →
      let n := tileIndex a
      let core := if t.kernel.pair then t.core + n % 2 else t.core
      let answers (s : State) (v : Bool) : Prop := quietAll i s = true →
        ∃ u, exec i s = .next u ∧ Ran i (actors i s.dev) (fun _ _ => predOut v) goOn s u
      ((t.tile? n).isSome = true → answers s true) ∧
      (t.tile? n = none → freeTile s.dev core = none → answers s false) ∧
      ∀ k, t.tile? n = none → freeTile s.dev core = some k →
        let s' : State := { s with dev :=
          { s.dev.mapTeam team fun t => { t with tiles := AMap.set 0 t.tiles n (k + 1) } with
            tiles := Memory.clear s.dev.tiles (tileKey core k 0) 65536, poison := unpoison s.dev 3 (tileKey core k 0) 65536
            tileStat := AMap.set 0 s.dev.tileStat (core * 8 + k) 0 } }
        exec i s = exec i s' ∧ answers s' true) ∧
    (let i := Instr.trel c d a b
     ∀ r e t g k, soloOf i s = some (r, e, t, g) → t.tile? (tileIndex a) = some k →
      (tileInflight s.dev (t.tileCore (tileIndex a)) k = false →
        Does i s fun m => past i r (m.mapTeam r.team fun t => { t with tiles := AMap.set 0 t.tiles (tileIndex a) 0 })) ∧
      (tileInflight s.dev (t.tileCore (tileIndex a)) k = true →
        Does i s fun m => m.mapGroup r.team r.gid fun g => { g with block := some (.trel (tileIndex a)) })) ∧
    (let i := Instr.tstat c d a b
     quietAll i s = true → (∀ p ∈ actors i s.dev, tileCheck a p.2 = none) →
      ∃ u, exec i s = .next u ∧ Ran i (actors i s.dev) (fun _ e =>
        match e.own with
        | some (t, _) =>
          let core := t.tileCore (tileIndex a)
          let k := (t.tile? (tileIndex a)).getD 0
          bvOut (BitVec.ofNat 32 (core % 16 * 2 ^ 16 + k * 2 ^ 8 + (if tileInflight e.d core k then 4 else 0)
            + AMap.get 0 e.d.tileStat (core * 8 + k) % 4))
        | none => noOut) goOn s u) ∧
    ∀ r e t g,
      let key (o : Operand) : Nat := tileKey (t.tileCore (tileIndex o)) ((t.tile? (tileIndex o)).getD 0) (32 * (e.count b % 2048))
      (let i := Instr.tld c d a b
       soloOf i s = some (r, e, t, g) → (t.tile? (tileIndex a)).isSome = true →
        Issues i s r (onItsWay e r 3 0 (key a) (.load 32) none false (some (destOf e .pktDst d)) (2 ^ 256 - 1) s.dev.nextId)) ∧
      (let i := Instr.tst c d a b
       soloOf i s = some (r, e, t, g) → (t.tile? (tileIndex d)).isSome = true →
        Does i s fun m => past i r (onItsWay e r 3 0 (key d) (.store 32 (e.packet 32 .int a)) none false none 0 0 m)) ∧
      (let i := Instr.tld c d a b
       soloOf i s = some (r, e, t, g) → t.tile? (tileIndex a) = none →
        Does i s fun m => (recordInd i s.dev.nextId s.dev.freshId.2
          (trapped e r { cause := 0x07, fpc := e.h.pc.toNat, resume := e.h.pc.toNat, detail := tileIndex a } m)).closeWindow i)

/-! ## Auger, texture, shading cache, Dumund (R266 to R277) -/

/-- The requests to Auger, the texture unit and the shading cache (R267, R269, R271, R274): the unit gets the thread's request, its record is
awaited, the thread passes; an invalid resume has its record at once. `coll.ready` posts a ready to its agent (R277); `coll.arm` (R276) with an
image in readable memory, and no earlier request of the thread to the entry on its way, is performed at once, its answer awaited where D is used.
The model's choices in it: log 52, 66. -/
def Obligations.UnitRequests : Prop :=
  (∀ (c : Ctl) (mode : StexMode) (d a b : Operand) (s : State) (r : TRef) (e : Env) (t : Team) (g : Group),
     let k := s.dev.nextId
     let dest := destOf e .pktDst d
     let whole := 2 ^ 256 - 1
     (let i := Instr.trace c d a b
      soloOf i s = some (r, e, t, g) → Issues i s r fun m =>
       { awaiting r (some dest) none whole k false m with
         rays := m.rays ++ [newRay e.core r e.ctx (e.scalar 64 .int b)
           ((List.range 16).map fun j => BitVec.ofNat 32 (elem 32 (e.packets 2 a) j)) m.nextId] }) ∧
     (let i := Instr.traceResume c d a b
      soloOf i s = some (r, e, t, g) →
       let v := e.scalar 32 .int a
       let mine (x : Ray) : Bool := x.isAt e.core (v % 2048) && sameThread x.who r && x.candidate.isSome
       (∀ x, s.dev.rays.find? mine = some x → field v 17 16 ≠ 3 →
         Issues i s r fun m => (awaiting r (some dest) none whole k false m).putRay e.core (v % 2048)
           (x.answer (field v 17 16) (BitVec.ofNat 32 (e.scalar 32 .int b)) m.nextId)) ∧
       (s.dev.rays.find? mine = none ∨ field v 17 16 = 3 →
         Issues i s r fun m => setResult (awaiting r (some dest) none whole k false m) m.nextId (emptyRecord 6))) ∧
     (let i := Instr.stex c mode d a b
      soloOf i s = some (r, e, t, g) → Issues i s r fun m =>
       let u := awaiting r (some dest) none (stexMask mode (lamCountOf g.lambda)) k false m
       { u with
         nextId := u.nextId + 1
         tex := u.tex ++ [{ id := u.nextId, who := r, ctx := e.ctx, core := e.core, mode, index := e.scalar 32 .int b,
                            packet := e.packet 32 .int a, lambda := g.lambda, result := m.nextId, held := none }] }) ∧
     (let i := Instr.shcProbe c d a b
      soloOf i s = some (r, e, t, g) → Issues i s r fun m =>
       let u := awaiting r (some dest) none whole k false m
       { u with
         nextId := u.nextId + 1
         shcReqs := u.shcReqs ++ [{ id := u.nextId, who := r, ctx := e.ctx, core := e.core, key := e.bv 64 a, fill := none,
                                    result := some m.nextId }] }) ∧
     (let i := Instr.shcFill c d a b
      soloOf i s = some (r, e, t, g) → Does i s fun m => past i r
       { m with
         nextId := m.nextId + 1
         shcReqs := m.shcReqs ++ [{ id := m.nextId, who := r, ctx := e.ctx, core := e.core, key := e.bv 64 a
                                    fill := some ((List.range 7).map fun j => BitVec.ofNat 32 (elem 32 (e.packet 32 .int b) j))
                                    result := none }] })) ∧
  (∀ (c : Ctl) (d a b : Operand) (s : State) (r : TRef) (e : Env) (t : Team) (g : Group),
     (let i := Instr.collReady c d a b
      soloOf i s = some (r, e, t, g) → Does i s fun m => past i r
       { m with
         nextId := m.nextId + 1
         collReqs := m.collReqs ++ [{ id := m.nextId, who := r, core := e.core, ctx := e.ctx, selector := e.count a, image := none,
                                      result := none }] }) ∧
     (let i := Instr.collArm c d a b
      let ea := e.scalar 64 .int a
      ∀ loc, soloOf i s = some (r, e, t, g) → imageAt e ea = some loc →
       (∀ k, loc = .scr k → granuleOk s.dev e.ctx false k = true) → loc.poisoned s.dev none 0 64 = false →
       (∀ q ∈ s.dev.collReqs, sameThread q.who r = true → field q.selector 15 0 ≠ field (e.count b) 15 0) →
       let image := (List.range 8).map fun j => BitVec.ofNat 64 (ownView s.dev r loc 64 / 2 ^ (64 * j))
       Issues i s r fun m =>
         let u := awaiting r (if d = .none then none else some (destOf e (.optDst false) d)) none (2 ^ 32 - 1) s.dev.nextId false m
         let x := armEntry { u with nextId := u.nextId + 1, collReqs := u.collReqs.filter fun q => q.id != u.nextId } e.ctx (e.count b) image
         if d = .none then x.2 else setResult x.2 m.nextId x.1))

/-! ## Time and system registers (R49, R278 to R280) -/

/-- `dtime` (R278): device time in four slots. `sysr` (R279): the register's value as the instruction issues is the result, which returns later.
`sysw` (R280): `sr.lambda` takes the value with its count at most 8 and its reserved bits zero (R49).
The model's choices in it: log 8, 69. -/
def Obligations.SystemRegisters : Prop :=
  (∀ (c : Ctl) (d a b : Operand) (s : State),
     let i := Instr.dtime c d a b
     quietAll i s = true → s.dev.frac < 2 ^ 32 → s.dev.nanos < 2 ^ 32 →
       ∃ u, exec i s = .next u ∧ Ran i (actors i s.dev) (fun _ _ => bvOut
         ((BitVec.ofNat 48 s.dev.secs ++ BitVec.ofNat 32 s.dev.nanos ++ BitVec.ofNat 32 s.dev.frac : BitVec 112).setWidth 128)) goOn s u) ∧
  (∀ (c : Ctl) (d b : Operand) (n : BitVec 20) (a : Operand) (s : State) (r : TRef) (e : Env) (t : Team) (g : Group),
     (let i := Instr.sysr c d (.imm n) b
      let reads (v : Nat) : Prop := Issues i s r (awaiting r (some (destOf e (.dst true) d)) (some v) (2 ^ 64 - 1) s.dev.nextId false)
      let die := dieOf g.core
      soloOf i s = some (r, e, t, g) →
       (n = 0 → reads t.ctx) ∧ (n = 1 → reads 2) ∧
       (∀ x, s.dev.grid? t.grid = some x →
         (n = 2 → reads x.seq) ∧ (n = 3 → reads x.queue) ∧ (n = 4 → reads (x.deadline.elim 0 dtimeLayout))) ∧
       (n = 5 → reads (headroom s.dev s.mgmt die).toNat) ∧
       (n = 6 → reads (BitVec.ofInt 64 (s.dev.kerfAt die).temp).toNat) ∧
       (n = 7 → reads (s.mgmt.budget die).2)) ∧
     (let i := Instr.sysw c d a b
      soloOf i s = some (r, e, t, g) →
       Does i s fun m => (past i r (m.mapGroup r.team r.gid fun g =>
         let v := e.bv 64 a
         { g with lambda :=
             (v &&& 0xFF_FFFF_FFFF#64) ||| ((if v.extractLsb' 40 4 ≤ 8#4 then v.extractLsb' 40 4 else 8#4).setWidth 64 <<< 40) })).closeWindow i))


/-! ## Traps (R137, R281, R386 to R393, R396, R407, R408) -/

/-- Taking a trap (R390, R391): with a handler, depth below 3 and 64 bytes of stack, the frame's eight words stand at the new sp, `sr.trap`, image and
PC are set, the thread is ready, and nothing else of it or of another thread changes.
The model's choices in it: log 55, 58. -/
def Obligations.TrapEntry : Prop :=
  ∀ (d d1 d2 : Dev) (r : TRef) (x : Trap) (t : Team) (g : Group) (h : Thread) (b e : Nat),
    let base := (ctxAt d t 3).toNat
    let entry := base + 16 * x.cause
    d.team? r.team = some t → t.group? r.gid = some g → g.thread? r.tid = some h → base ≠ 0 →
    globPoisoned d t.ctx entry 8 = false → globPoisoned d t.ctx (entry + 8) 8 = false →
    partRead d t.ctx entry 8 = (some b, d1) → partRead d1 t.ctx (entry + 8) 8 = (some e, d2) →
    e % 2 ^ 32 < e / 2 ^ 32 % 2 ^ 32 → h.depth ≠ 3 → 64 ≤ h.sp → h.sp ≤ t.kernel.stackS →
    let u := takeTrap d r x
    let sp := h.sp - 64
    let at_ (k : Nat) : Nat := stkReadN u t g h.lane (sp + 8 * k) 8
    at_ 0 = (x.resume % 2 ^ 32) * 2 ^ 32 + x.fpc % 2 ^ 32 ∧
    at_ 1 = (x.cause * 2 ^ 56 + b2n x.deferred * 2 ^ 55 + h.p.toNat * 2 ^ 48 + x.code % 2 ^ 16 * 2 ^ 32 + h.rep.toNat) % 2 ^ 64 ∧
    at_ 2 = x.addr % 2 ^ 64 ∧ at_ 3 = x.detail % 2 ^ 64 ∧ at_ 4 = h.trap.toNat ∧ at_ 5 = h.imgBase % 2 ^ 64 ∧
    at_ 6 = h.imgSlots % 2 ^ 64 ∧ at_ 7 = 0 ∧
    u.thread? r = some { h with
      trap := BitVec.ofNat 64 (x.fpc % 2 ^ 32 * 2 ^ 32 + x.cause * 2 ^ 24 + b2n x.deferred * 2 ^ 23 + (h.depth + 1) * 2 ^ 21 + sp)
      imgBase := b, imgSlots := e / 2 ^ 32 % 2 ^ 32, pc := BitVec.ofNat 32 (e % 2 ^ 32), st := .ready } ∧
    (∀ r' : TRef, r' ≠ r → u.thread? r' = d2.thread? r') ∧ u.hbm = d2.hbm ∧ u.tiles = d2.tiles ∧ u.host = d2.host ∧ u.notices = d2.notices

/-- A trap and its return (R390, R393): after the entry of `TrapEntry`, `tret` with the frame as pushed and not poisoned gives the thread back as
it was, ready at resume_pc; the reserved bits of `sr.rep` and `sr.trap` come back as zero (R5).
The model's choices in it: log 55, 58. -/
def Obligations.TrapRoundTrip : Prop :=
  ∀ (d d1 d2 : Dev) (r : TRef) (x : Trap) (t : Team) (g : Group) (h : Thread) (b e : Nat),
    let base := (ctxAt d t 3).toNat
    let entry := base + 16 * x.cause
    d.team? r.team = some t → t.group? r.gid = some g → g.thread? r.tid = some h → base ≠ 0 →
    globPoisoned d t.ctx entry 8 = false → globPoisoned d t.ctx (entry + 8) 8 = false →
    partRead d t.ctx entry 8 = (some b, d1) → partRead d1 t.ctx (entry + 8) 8 = (some e, d2) →
    e % 2 ^ 32 < e / 2 ^ 32 % 2 ^ 32 → h.depth ≠ 3 → 64 ≤ h.sp → h.sp ≤ t.kernel.stackS →
    (∀ k, k < 8 → stkPoisoned d2 t g h.lane (h.sp - 64 + 8 * k) 8 = false) →
    x.resume < 2 ^ 32 → h.imgBase < 2 ^ 64 → h.imgSlots < 2 ^ 32 → x.cause < 32 →
      (returnTrap (takeTrap d r x) r).thread? r =
        some { h with pc := BitVec.ofNat 32 x.resume, st := .ready, rep := h.rep &&& 0x8000FFFF#32, trap := h.trap &&& ~~~0x1E0000#64 }

/-- `trap` and `brk` (R281, R386): cause 0x10 resumes after the instruction, 0x11 at it, with the immediate as detail and code. `tret` (R393): at
depth 1 to 3 the frame at sp is taken back, reserved bits as zero (R5); at depth 0 it is an illegal instruction. A deferred fault that waits for
the thread is delivered first (R388). On a control core a trap disables the queue thread, whose registers stay, and is recorded (R396).
The model's choices in it: log 3, 90. -/
def Obligations.SoftwareTraps : Prop :=
  ∀ (c : Ctl) (d a b : Operand) (n : BitVec 20) (s : State),
    let x (e : Env) (cause resume : Nat) : Trap :=
      { cause, fpc := e.h.pc.toNat, resume, detail := n.toNat % 65536, code := n.toNat % 65536 }
    (∀ r e t g,
      (let i := Instr.trap c d (.imm n) b
       soloOf i s = some (r, e, t, g) → Does i s (trapped e r (x e 0x10 (e.h.pc.toNat + 1)))) ∧
      (let i := Instr.brk c d (.imm n) b
       soloOf i s = some (r, e, t, g) → Does i s (trapped e r (x e 0x11 e.h.pc.toNat))) ∧
      (let i := Instr.tret c d a b
       soloOf i s = some (r, e, t, g) →
        (e.h.depth ≠ 0 → (∀ k ∈ [0, 1, 4, 5, 6], stkPoisoned s.dev t g e.h.lane (e.h.sp + 8 * k) 8 = false) → Does i s fun m =>
          let w (k : Nat) : Nat := stkReadN m t g e.h.lane (e.h.sp + 8 * k) 8
          ({ m with fresh := m.fresh + 2 ^ 17 } : Dev).mapThread r fun h =>
            { h with
              imgBase := w 5
              imgSlots := w 6 % 2 ^ 32
              pc := BitVec.ofNat 32 (w 0 / 2 ^ 32)
              p := BitVec.ofNat 7 (w 1 / 2 ^ 48)
              rep := BitVec.ofNat 32 (w 1) &&& 0x8000FFFF#32
              trap := BitVec.ofNat 64 (w 4) &&& ~~~0x1E0000#64 }) ∧
        (e.h.depth = 0 → Does i s
          (trapped e r { cause := 0x01, fpc := e.h.pc.toNat, resume := e.h.pc.toNat, detail := curWord s.dev })))) ∧
    ∀ q e, queueOf (.trap c d (.imm n) b) s = some (q, e) →
      let v := s.dev.queue q
      let f := frameWords (x e 0x10 (e.h.pc.toNat + 1)) e.h.p 0
      Makes (.trap c d (.imm n) b) s (report
        { s.dev.setQueue q { v with w0 := v.w0 &&& 0x7FFFFFFFFFFFFFFF#64, wait := .none, stopping := false } with
          serving := AMap.set 0 s.dev.serving (q / 8192) 0 }
        { cls := 0x10, sev := 1, kind := 1, index := q / 8192, ctx := some e.ctx, queue := some q, addr := 0, pc := e.h.pc.toNat
          d0 := f.1, d1 := f.2.1, d2 := f.2.2.1, d3 := f.2.2.2 })

/-- A thread whose guard is false only advances (R25, R137), whatever the instruction: where no head-run thread has a true guard, no byte of memory
and no register of an issuing thread changes but its PC and its repeat count. -/
def Obligations.FalseGuardsAdvance : Prop :=
  ∀ (i : Instr) (s : State), Roles.isEvent i = false → quietAll i s = true → actors i s.dev = [] →
    ∃ t, exec i s = .next t ∧ sameMemory s.dev t.dev ∧
      ∀ w e, (w, e) ∈ issuers (s.dev.prepare i) → ∃ h, whoThread t.dev w = some h ∧
        h.pc = e.h.advance.pc ∧ h.rep = e.h.advance.rep ∧ h.p = e.h.p ∧ h.x = e.h.x ∧ h.trap = e.h.trap ∧ h.st = e.h.st ∧
        ∀ k, h.slot k = e.h.slot k

/-- The register-range trap and the count trap (R47, R235, R408): one thread with a true guard takes the trap with its detail, behind a deferred
fault that waits for it (R388), and the instruction has no other effect in it. -/
def Obligations.RegisterRangeTraps : Prop :=
  ∀ (c : Ctl) (d a b : Operand) (n : BitVec 20) (s : State) (r : TRef) (e : Env) (t : Team) (g : Group),
    let trap (cause detail : Nat) : Dev → Dev := trapped e r { cause, fpc := e.h.pc.toNat, resume := e.h.pc.toNat, detail }
    let ranged (i : Instr) : Prop :=
      issuers (startOf i s.dev) = [(.thr r, e)] → (startOf i s.dev).thread? r = some e.h → e.own = some (t, g) → t.id = r.team →
        e.h.guard c = true → ∀ k, rangeCheck e i = some k → Does i s fun m => (trap 0x02 k m).closeWindow i
    (∀ w, ranged (.mov c w d a b)) ∧
    ranged (.pset c d a b) ∧
    (let i := Instr.racq c d (.imm n) b
     soloOf i s = some (r, e, t, g) → t.gather = none → 4 < g.units + n.toNat → Does i s (trap 0x02 (2 ^ 32 + n.toNat))) ∧
    (let i := Instr.rrel c d (.imm n) b
     soloOf i s = some (r, e, t, g) → g.units < n.toNat → Does i s (trap 0x02 (2 ^ 32 + n.toNat))) ∧
    (let i := Instr.rep c d a b
     soloOf i s = some (r, e, t, g) → 65535 < e.count a → Does i s (trap 0x09 (e.count a)))

/-! ## Control cores (R148 to R152, R282 to R284, R310, R311, R449) -/

/-- `launch` (R148 to R152, R284): a record and descriptor that pass every check become a grid, with its banks copied and the queue's
launch counted, and the thread waits for it; a bad record word refuses the launch with reason 1 and disables the queue at the
`launch`, with its record (R449).
The model's choices in it: log 67, 82. -/
def Obligations.LaunchMakesGrid : Prop :=
  ∀ (c : Ctl) (d a b : Operand) (s : State) (q : Nat) (e : Env) (k : Nat),
    let i := Instr.launch c d a b
    let ea := e.scalar 64 .int a
    let sem (off : Nat) : Bool :=
      match dieOffset e.die off with | some p => granuleOk s.dev e.ctx true (scrKey p.1 p.2) | none => false
    let l := (List.range 8).map fun j => Memory.readN s.dev.scr (k + 8 * j) 8
    queueOf i s = some (q, e) → queueWord e 64 ea = some k → granuleOk s.dev e.ctx true k = true → poisoned s.dev 1 k 64 = false →
      (∀ d1 d2 ws m,
        let kern := kernelOf ws
        recordBad l sem = none → bitOf (ctxWord s.dev e.ctx 0).toNat 63 = true →
        readWords e.ctx (queueRec e q 0 2) (l.getD 0 0) 128 s.dev = (some ws, d1) →
        largestSave kern ≤ field (ctxWord d1 e.ctx 6).toNat 63 32 → descriptorBad ws = none →
        (kern.curve = 3 → swizzleOk kern.swizzle = true) → regionsBad ws kern.tmem = none →
        (kern.affinity = none ∨ s.mgmt.power ≠ .stopped) →
        readBanks e.ctx (queueRec e q 0 2) ws 0 15 [] d1 = (some m, d2) → (d2.queue q).stopping = false →
          let v := d2.queue q
          let u : Dev :=
            { d2 with
              nextId := d2.nextId + 1
              grids := d2.grids ++
                [{ id := d2.nextId, ctx := v.ctx, queue := q, seq := v.launches, kernel := { kern with bankData := m },
                   gx := l.getD 1 0 % 2 ^ 32, gy := l.getD 1 0 / 2 ^ 32 % 2 ^ 32, gz := l.getD 2 0 % 2 ^ 32, next := 0, placed := 0, ended := 0,
                   prio := v.prio, energy := if kern.energy = 0 then v.w0.toNat / 2 ^ 52 % 16 else kern.energy,
                   deadline := v.deadlineOf,
                   endSem := if bitOf (l.getD 3 0) 63
                     then (dieOffset v.ringDie (l.getD 3 0 % 2 ^ 30)).map fun p => (scrKey p.1 p.2, BitVec.ofNat 64 (l.getD 4 0)) else none,
                   ringDie := v.ringDie, cluster := none, passes := 0, out := false,
                   entry := (List.range 8).map (ctxWord d2 v.ctx) }] }
          Makes i s (u.setQueue q { v with launches := v.launches + 1, wait := .grid d2.nextId })) ∧
      ∀ n, recordBad l sem = some n →
        let v := s.dev.queue q
        Makes i s (report
          { s.dev.setQueue q { v with w0 := v.w0 &&& 0x7FFFFFFFFFFFFFFF#64, wait := .none, stopping := false } with
            serving := AMap.set 0 s.dev.serving (q / 8192) 0 }
          { cls := 0x60, sev := 1, kind := 1, index := q / 8192, ctx := some e.ctx, queue := some q, pc := e.h.pc.toNat
            addr := ea, d0 := n * 256 + 1, d1 := l.getD n 0 })

/-- The other instructions of a queue thread (R284, R310, R311): a semaphore test passes or waits on the word; a signal changes the word and tests its
waiters; `ttrig` passes once device time has reached its instant; `intr` sends the message of its owner; `qnext` takes the entry at
the ring's head, or waits at an empty ring.
The model's choices in it: log 67, 84. -/
def Obligations.QueueInstructions : Prop :=
  ∀ (c : Ctl) (d a b : Operand) (s : State) (q : Nat) (e : Env),
    let pass (i : Instr) (m : Dev) : Dev := m.setQueue q { m.queue q with thread := (postAdvance i (m.queue q).thread).advance }
    let ea := e.scalar 64 .int a
    let v := s.dev.queue q
    let wait (w : QWait) : Dev := s.dev.setQueue q { v with wait := w }
    let word (k : Nat) : Prop := queueWord e 8 ea = some k ∧ granuleOk s.dev e.ctx true k = true ∧ poisoned s.dev 1 k 8 = false
    (let i := Instr.semWaitGe c d a b
     queueOf i s = some (q, e) → ∀ k, word k →
      (e.scalar 64 .int b ≤ Memory.readN s.dev.scr k 8 → Makes i s (pass i s.dev)) ∧
      (Memory.readN s.dev.scr k 8 < e.scalar 64 .int b → v.stopping = false →
        Makes i s { wait (.word ea) with watch := s.dev.watch ++ [⟨k, .queue q, 2, e.scalar 64 .int b, watchRoom s.dev k⟩] })) ∧
    (∀ set, let i := Instr.semSig c set d a b
     queueOf i s = some (q, e) → ∀ k, word k →
      Makes i s (pass i (wakeWords { s.dev with
        scr := Memory.writeN s.dev.scr k 8
          (if set then e.scalar 64 .int b else (Memory.readN s.dev.scr k 8 + e.scalar 64 .int b) % 2 ^ 64)
        poison := unpoison s.dev 1 k 8 } k 8))) ∧
    (let i := Instr.ttrig c d a b
     queueOf i s = some (q, e) →
      ((dtime64 s.dev - BitVec.ofNat 64 ea).msb = false → Makes i s (pass i s.dev)) ∧
      ((dtime64 s.dev - BitVec.ofNat 64 ea).msb = true → v.stopping = false → Makes i s (wait (.time (BitVec.ofNat 64 ea))))) ∧
    (let i := Instr.intr c d a b
     queueOf i s = some (q, e) →
      let own := queueOwner s.dev q Queue.blank
      Makes i s (pass i (if s.dev.isLost own.1 then s.dev
        else { s.dev with notices := s.dev.notices ++ [.msi own.1 own.2 (e.scalar 32 .int a % 2048)] }))) ∧
    (let i := Instr.qnext c d a b
     queueOf i s = some (q, e) →
      let head := v.w3.toNat / 2 ^ 32
      let k := ringKey v head
      (v.w3.toNat % 2 ^ 32 = head → v.stopping = false → Makes i s (wait .ring)) ∧
      (v.w3.toNat % 2 ^ 32 ≠ head → granuleOk s.dev e.ctx true k = true → poisoned s.dev 1 k 8 = false →
        let r := Roles.rolesOf i
        Makes i s (pass i (writeDest
          (s.dev.setQueue q { v with w3 := BitVec.ofNat 64 ((head + 1) % 2 ^ 32 * 2 ^ 32 + v.w3.toNat % 2 ^ 32) })
          (.que q) r.1 d (firstSlot e r.1 d) 0 (Memory.readN s.dev.scr k 8) (2 ^ 64 - 1)))))

/-! ## Events of the cores and of the scheduler (R28, R29, R33 to R38, R47, R91, R128, R310 to R321, R413) -/

/-- Cores: the end of a regroup (R37), the limits of lanes and active sets (R28, R29), relief cuts (R38), granted units (R47), ended groups and
teams (R33), the service quantum (R313), the time of a `ttrig` (R312).
The model's choices in it: log 59, 60, 70. -/
def Obligations.CoreEvents : Prop :=
  ∀ (s : State) (core gslot lane team gid cc q : Nat) (t : Team) (g : Group) (p : Nat × Group),
    let d := s.dev
    Makes (.regroupDone team) s (d.mapTeam team fun t => if t.stat = .regrouping then { t with stat := .running } else t) ∧
    ((d.bay core (lane / 4)).find? (fun x => x.2.laneNo == some lane && decide (64 ≤ x.2.runs)) = some p →
      (∃ x ∈ d.bay core (lane / 4), x.2.active.isSome = true ∧ x.2.laneNo = none ∧ x.2.canRun = true) →
      Makes (.laneRunLimit core lane) s (d.mapGroup p.1 p.2.gid fun g => { g with laneNo := none, runs := 0, since := some d.cycle })) ∧
    (∀ a, (d.bay core (gslot % 2)).find? (fun x => x.2.gslot == gslot) = some p → p.2.active = some a → a + 4096 ≤ d.cycle →
      (∃ x ∈ d.bay core (gslot % 2), x.2.active = none ∧ x.2.since.isSome = true) →
      Makes (.activeTimeLimit core gslot) s (d.mapGroup p.1 p.2.gid fun g => { g.leave with since := some d.cycle })) ∧
    (d.inSlot core gslot = some (t, g) →
      Makes (.reliefCut core gslot) s (d.mapGroup t.id g.gid fun g =>
        if g.cut = none ∧ 1024 ≤ g.relief then { g with cut := some (g.reliefPc, 1024) } else g) ∧
      Makes (.reliefCutEnd core gslot) s (d.mapGroup t.id g.gid fun g => if g.cutOver then { g with cut := none, relief := 0 } else g)) ∧
    (∀ r n since lanes, d.racq.find? (fun x => x.1 == core) = some r → d.team? r.2.1 = some t → d.group? r.2.1 r.2.2 = some g →
      g.block = some (.racq n since lanes) → t.kernel.width * 64 * n ≤ freeSlots d core →
      Makes (.racqGrant core) s
        ((grantUnits { d with racq := d.racq.filter fun x => x != r } t.id g.gid n).mapGroup t.id g.gid fun g =>
          { g with block := none
                   threads := g.threads.map fun h => if lanes.contains h.lane && h.st == .ready then h.advance else h })) ∧
    (d.team? team = some t → d.group? team gid = some g → t.stat = .running → g.ended = false → (∀ h ∈ g.threads, h.st = .exited) →
      groupQuiet d team gid = true →
      let u := d.mapGroup team gid fun g => { g.leave with ended := true, units := 0, block := none, cut := none }
      ∀ t', u.team? team = some t' →
        ((∃ x ∈ t'.groups, x.ended = false) → Makes (.groupEnd team gid) s u) ∧
        ((∀ x ∈ t'.groups, x.ended = true) → Makes (.groupEnd team gid) s (endTeam u t'))) ∧
    (AMap.get 0 d.serving cc ≠ 0 → AMap.get 0 d.serveAt cc + 240 ≤ d.cycle →
      Makes (.serviceQuantumExpiry cc) s { d with serving := AMap.set 0 d.serving cc 0 }) ∧
    ∀ w, (d.queue q).wait = .time w → (dtime64 d - w).msb = false → Makes (.ttrigTimeReached q) s (d.readyQueue q)

/-- The scheduler: a placed team starts as R44, R84 and R261 say, at the point of its grid's curve (R20, R315); a staged team issues (R91); a save
keeps the team's bytes and frees its core, a restore gives it back (R321, R411); a grid ends (R128, R283); the watchdog fires (R413).
The model's choices in it: log 3, 18, 45, 46, 79, 80, 119. -/
def Obligations.SchedulerEvents : Prop :=
  ∀ (s : State) (die team grid : Nat),
    let d := s.dev
    (∀ g spot p, s.mgmt.places = true → (d.kerfAt die).emergency = false → chooseGrid d s.mgmt die = some (g, none) →
      let d1 := setPtr d (dieKey die g.prio) g.queue
      findPlace d1 g = some spot → g.waiting d1 = none → g.nextTeam = some p →
      ∃ u t, exec (.teamPlacement die) s = .next u ∧ u.mgmt = s.mgmt ∧ u.dev.teams = d.teams ++ [t] ∧ t.id = d.nextId ∧ t.grid = g.id ∧
        t.ctx = g.ctx ∧ t.core = spot.core ∧ (t.tx, t.ty, t.tz) = p.2 ∧ t.kernel = g.kernel ∧ t.stat = .staging ∧
        t.groups = (List.range g.kernel.groups).map fun gid =>
          Group.launch g.kernel gid (groupCore g.kernel spot.core gid) (AMap.get 0 spot.slots gid - 1)) ∧
    (∀ t d1, d.team? team = some t → t.stat = .staging → t.held = false →
      let base : ErrRec :=
        { cls := 0, sev := 2, kind := 0, index := t.core, ctx := some t.ctx, grid := some t.grid, addr := 0, team := linearIndex d t }
      (stageTeam { ctx := t.ctx, core := t.core, team := t.id, who := .part t.ctx, base, cut := false } t).on d
        = (.ok (), d1) →
      Makes (.stagingComplete team) s (d1.mapTeam team fun t => { t with stat := .running, staged := true })) ∧
    (∀ t, d.team? team = some t → t.stat = .saving → saveReady d t = true →
      let base : ErrRec :=
        { cls := 0, sev := 0, kind := 0, index := t.core, ctx := some t.ctx, grid := some t.grid, team := linearIndex d t }
      let d1 := match t.save with | some r => physFree d base ((ctxAt d t 5).toNat + r.1) r.2 | none => d
      Makes (.saveComplete team) s (leaveCores
        (({ d1 with
            qops := d1.qops.filter fun q => q.who.team != t.id
            watch := d1.watch.filter fun v => !(decide (v.key < 2 ^ 60) && match v.who with | .thread r _ => r.team == t.id | _ => false)
            barWait := d1.barWait.filter fun r => r.team != t.id
            racq := d1.racq.filter fun r => r.2.1 != t.id } : Dev).mapTeam team fun t' =>
          { t' with
            stat := .saved, savedAt := d1.cycle, kept := (pieces t).map (keepPiece d)
            keptStat := t.tiles.foldl (fun m e => AMap.set 0 m e.1 (AMap.get 0 d.tileStat (t.tileCore e.1 * 8 + (e.2 - 1)) % 2)) []
            groups := t'.groups.map fun g => { g.leave with threads := g.leave.threads.map Thread.retry } }) t)) ∧
    (∀ t, d.team? team = some t → t.stat = .restoring →
      let asks := t.groups.filterMap fun g => match g.block with | some (.racq _ since _) => some (since, g.core, g.gid) | _ => none
      let u := d.mapTeam team fun x =>
        { x with
          stat := if t.staged then .running else .staging
          save := none
          bars := x.bars.map fun b => { b with start := shiftStart t d.cycle b.start }
          gather := x.gather.map fun g => { g with start := shiftStart t d.cycle g.start }
          waits := x.waits.map fun w => (w.1, w.2.1, shiftStart t d.cycle w.2.2)
          groups := x.groups.map (Group.restored t d.cycle) }
      Makes (.restoreComplete team) s
        (rereadWords (({ u with racq := d.racq ++ (sortBy (·.1) asks).map fun a => (a.2.1, team, a.2.2) } : Dev).checkTeam team) team)) ∧
    (∀ g, d.grid? grid = some g → gridDone d g = true →
      let d0 := mergePartials d fun p => p.ctx == g.ctx
      let d1 := match g.endSem with | some e => signalEnd d0 g.ctx e.1 e.2 | none => d0
      let d2 : Dev := { d1 with grids := d1.grids.filter fun x => x.id != grid }
      let v := d2.queue g.queue
      let d3 := d2.setQueue g.queue { v with thread := { v.thread with pc := v.thread.pc + 1 }, wait := .none }
      (v.wait ≠ .grid grid → Makes (.gridEnd grid) s d2) ∧
      (v.wait = .grid grid → Makes (.gridEnd grid) s (if v.enabled then d3.readyQueue g.queue else d3))) ∧
    ∀ t w, d.team? team = some t → t.resident = true → t.stat ≠ .restoring →
      (sortBy (·.start) (watchedWaits d t)).head? = some w → w.start + 2 ^ s.mgmt.wdLog2 < d.cycle →
      Makes (.watchdogFire team) s (contextError d
        { cls := 0x25, sev := 2, kind := 0, index := t.core, ctx := some t.ctx, grid := some t.grid, addr := w.addr, pc := w.pc, tid := w.tid,
          team := linearIndex d t, d0 := w.arrived % 2 ^ 32 * 2 ^ 32 + w.number * 256 + w.kind, d1 := w.expected % 2 ^ 32,
          d2 := d.cycle - w.start })

/-! ## Events of the memories (R55, R88, R93, R95, R104, R109, R116, R222, R265, R331, R388, R420, R426) -/

/-- Results that return, accesses performed at a die's port, in team memory or at a tile, polls, queue operations, requests at their home slices,
acknowledgements, deferred faults.
The model's choices in it: log 1, 7, 15, 63, 84, 85, 96. -/
def Obligations.MemoryEvents : Prop :=
  ∀ (s : State) (id team tid : Nat),
    let d := s.dev
    (∀ r v h, d.results.find? (fun x => x.id == id) = some r → r.value = some v →
      (behindLane d r = true → Makes (.longResultReturn id) s d) ∧
      (behindLane d r = false → d.thread? (d.refNow r.who) = some h → h.st ≠ .exited →
        let who := d.refNow r.who
        Makes (.longResultReturn id) s (unholdRrel (dropResult (deliver d who r.dest v r.mask) id) who.team who.gid))) ∧
    (∀ a, d.scrWrites.find? (fun x => x.id == id) = some a → behindOwn d d.scrWrites a = false → heldBy d a.after = false →
      let d1 : Dev := { d with scrWrites := d.scrWrites.filter fun x => x.id != id }
      let makes (u : Dev) : Prop := Makes (.diePortWrite id) s (progressIssuer u a.who)
      (a.space = 1 → a.rel = none →
        (∀ n v, a.kind = .store n v → granuleOk d a.ctx false a.key = true →
          let put (u : Dev) (n v : Nat) : Dev :=
            wakeWords { u with scr := Memory.writeN d.scr a.key n v, poison := unpoison d 1 a.key n } a.key n
          (n ≤ 8 → makes (put d1 n v)) ∧
          (8 < n → d1.choose.1 = false → makes (put d1.choose.2 n v)) ∧
          (8 < n → d1.choose.1 = true → makes (put
            { d1.choose.2 with
              scrWrites := d1.scrWrites ++ [{ a with kind := .store (n - 8) (v / 2 ^ 64), addr := a.addr + 8, key := a.key + 8 }] }
            8 (v % 2 ^ 64)))) ∧
        (∀ n r, a.kind = .load n → a.result = some r → granuleOk d a.ctx false a.key = true → poisoned d 1 a.key n = false →
          (n ≤ 8 → makes (finishLoad d1 r 8 (Memory.readN d.scr a.key n))) ∧
          (8 < n → d1.choose.1 = false → makes (finishLoad d1.choose.2 r 8 (Memory.readN d.scr a.key n))) ∧
          (8 < n → d1.choose.1 = true → makes (addPart
            { d1.choose.2 with scrWrites := d1.scrWrites ++ [{ a with kind := .load (n - 8), addr := a.addr + 8, key := a.key + 8 }] }
            r (Memory.readN d.scr a.key 8)))) ∧
        (∀ cmp v, a.kind = .test cmp v → granuleOk d a.ctx true a.key = true → makes (testWord d1 a cmp v)) ∧
        ((∀ cmp v, a.kind ≠ .test cmp v) → granuleOk d a.ctx false a.key = false →
          makes (refuseAccess d1 a 0x04 (ownerEntry d a.key).toNat))) ∧
      (a.space = 2 → a.rel = none → peerHit d a.ctx (a.key / 2 ^ 19) (a.key % 2 ^ 19) = true →
        (∀ n v, a.kind = .store n v →
          let put (u : Dev) : Dev := { u with tmem := Memory.writeN d.tmem a.key n v, poison := unpoison d 2 a.key n }
          (n ≤ 1 → makes (put d1)) ∧ (1 < n → d1.choose.1 = false → makes (put d1.choose.2))) ∧
        (∀ n r, a.kind = .load n → a.result = some r → poisoned d 2 a.key n = false →
          (n ≤ 1 → makes (finishLoad d1 r 1 (Memory.readN d.tmem a.key n))) ∧
          (1 < n → d1.choose.1 = false → makes (finishLoad d1.choose.2 r 1 (Memory.readN d.tmem a.key n)))) ∧
        ∀ op ty v cmp r, a.kind = .atom op ty v cmp → a.result = some r → poisoned d 2 a.key a.kind.bytes = false →
          let n := tyBytes ty
          let old := Memory.readN d.tmem a.key n
          makes (setResult (if op = .cas ∧ old ≠ cmp % 2 ^ (8 * n) then d1 else
            { d1 with tmem := Memory.writeN d.tmem a.key n (atomApply op ty old v cmp), poison := unpoison d 2 a.key n }) r old)) ∧
      (a.space = 3 →
        let core := a.key / 2 ^ 19
        let phys := a.key / 2 ^ 16 % 8
        tileInflight d core phys = false → issuerSaved d a.who = false → tileHeld d a.ctx core phys = true →
        (∀ n v, a.kind = .store n v →
          makes { d1 with
            tiles := Memory.writeN d.tiles a.key n v, poison := unpoison d 3 a.key n, tileStat := AMap.set 0 d.tileStat (core * 8 + phys) 3 }) ∧
        ∀ n r, a.kind = .load n → a.result = some r → poisoned d 3 a.key n = false →
          makes (setResult d1 r (Memory.readN d.tiles a.key n)))) ∧
    (∀ v, d.watch.find? (fun v => !v.held && v.key < 2 ^ 60 && (v.who.isThread ⟨team, 0, tid⟩ || (team == 2 ^ 32 && v.who == .queue tid))) =
        some v → waitHolds v.cmp (Memory.readN d.scr v.key 8) v.value = true →
      Makes (.waitPoll team tid) s (({ d with watch := d.watch.filter fun x => x != v } : Dev).wakeIssuer v.who)) ∧
    (∀ v, d.watch.find? (fun v => (!v.held || decide (2 ^ 61 ≤ v.key)) && 2 ^ 60 ≤ v.key && v.who.isThread ⟨team, 0, tid⟩) = some v →
        v.key < 2 ^ 61 → physPoisoned d (v.key - 2 ^ 60) 8 = false →
      let p := sliceRead d (v.key - 2 ^ 60) 8
      (v.value ≤ p.1 →
        Makes (.barSysPoll team tid) s (({ p.2 with watch := p.2.watch.filter fun x => x != v } : Dev).wakeIssuer v.who)) ∧
      (p.1 < v.value → Makes (.barSysPoll team tid) s p.2)) ∧
    (∀ (o : QueueOp) (d1 : Dev), heldBy d (((d.thread? (d.refNow o.who)).map (·.acqs)).getD []) = false →
        ((d.qops.find? (fun (x : QueueOp) => x.id == id && !x.waiting && x.value.isSome == true) = some o ∧
          tryRelease d o.who (coreOfRef d o.who) 6 o.id = (true, d1)) ∨
        (d.qops.find? (fun (x : QueueOp) => x.id == id && !x.waiting && x.value.isSome == false) = some o ∧ d1 = d)) →
      let q := queueDesc d1 o.die o.number
      let i : Instr := if o.value.isSome then .queuePushArrival id else .queuePopArrival id
      let qs : List QueueOp := (d1.qops.filter fun x => x.id != o.id) ++ [{ o with waiting := true }]
      (q.enabled = true → q.ctx = o.ctx → queueMalformed d1 o.die q = false → q.poisoned = false →
        poisoned d1 1 (queueKey o.die o.number) 16 = false →
        Makes i s (settleQueue o.die o.number (qs.length + 1) { d1 with qops := qs })) ∧
      (q.enabled = false ∨ q.ctx ≠ o.ctx → Makes i s (refuseQueue d1 o 0x04))) ∧
    (∀ (a : Access) (d1 d2 : Dev), d.reqs.find? (fun x => x.id == id) = some a → a.faulted = false → reqReady d a = (true, d1) →
      let makes (u : Dev) : Prop := Makes (.homeSliceRequest id) s (progressIssuer u a.who)
      (∀ e b size pa, translate d1 a.ctx a.addr a.kind.need = (.leaf e b size, d2) → behindLog d2 a = false →
        let d2 := if a.kind.writes then spoilBuffers d2 a.ctx a.addr a.kind.bytes else d2
        placementFault a (field e.toNat 53 52) = false → targetOf e a.addr size = .phys pa → frameOk d2 pa = true →
        let p := takeTag (countAccess (removeReq d2 a) e pa) (sliceAt pa)
        tierLost p.2 p.2.isLost pa = false →
        makes (performPhys p.2 a pa (field e.toNat 8 7 == 1) (sliceAt pa) p.1)) ∧
      (∀ l r e, translate d1 a.ctx a.addr a.kind.need = (.pageFault l r e, d2) → makes (faultRequest d2 a l r e)) ∧
      (translate d1 a.ctx a.addr a.kind.need = (.bad, d2) → behindLog d2 a = false →
        makes (contextError (removeReq d2 a) (accessRec d2 a 0x41 2)))) ∧
    (∀ a, d.acks.find? (fun x => x.id == id) = some a →
      Makes (.requestAck id) s (progressIssuer { d with acks := d.acks.filter fun x => x.id != id } a.who)) ∧
    ∀ x r core, d.late.find? (fun y => y.id == id) = some x → x.who = .thread r core →
      let d1 : Dev := { d with late := d.late.filter fun y => y.id != id }
      Makes (.deferredFaultArrival id) s (progress (giveDeferred ((refusedResult d1 (d1.refNow r) x.result).mapThread (d1.refNow r) fun h => match h.st with
        | .parked (.word _ _) | .parked .queue => if x.parks then { h with st := .ready } else h
        | _ => h) (d1.refNow r) x.fault) (d1.refNow r))

/-! ## Events of the jobs, of Auger, texture and shading cache, and of the collectives (R123 to R125, R249, R267 to R277, R286 to R292, R338, R339,
R438 to R440, R445, R446, R468 to R471) -/

/-- Jobs: the oldest card of a core enters its cluster's queue behind the jobs that it must follow (R123 to R125, R286); the chosen job issues
(R288, R289, R319); a share ends, the last one with the job's work (R287, R291); a job ends once its requests are answered, its completion word
stored (R92, R126); failures (R439, R440).
The model's choices in it: log 22, 23, 24, 98, 103. -/
def Obligations.JobEvents : Prop :=
  ∀ (s : State) (core cluster slot : Nat),
    let d := s.dev
    (∀ (x : HeldCard) (d1 : Dev), d.cards.find? (fun c => c.core == core) = some x → tryRelease d x.job.who core 4 x.upto = (true, d1) →
      x.job.cancelAsked = false →
      let j := d1.join (clusterOf x.core)
      let preds := (j.jobs.filter fun b => b.state.status.isNone && (clash b.card x.job.card || some b.seq == x.ordAfter)).map (·.seq)
        ++ heldBefore d1 (clusterOf x.core) x.ordAfter
      ∃ u, exec (.jobEnterQueue core) s = .next u ∧ u.mgmt = s.mgmt ∧
        (u.dev.join (clusterOf x.core)).jobs =
          j.jobs ++ [{ x.job with preds, state := if preds.isEmpty then JobState.ready else JobState.waiting }] ∧
        u.dev.cards = d1.cards.filter fun y => y.job.handle != x.job.handle) ∧
    (let die := cluster / 5
     let held := heldItems d s.mgmt die
     ∀ b, s.mgmt.places = true → (d.kerfAt die).emergency = false →
      chooseJob (jobFits d s.mgmt die) (fun b => heldBack held (.job cluster b.seq) (jobPrio b.card)) (issueOrder (d.join cluster)) none
        = some (none, b) →
      poisoned d 6 (jobWord cluster b.slot) 8 = false → (∀ t ∈ jobTiles b.card, tileHeld d b.ctx (cluster * 16 + t.1) t.2 = true) →
      let d1 := (kerfAdmit d die (s.mgmt.shareMw die (jobEnergy b.card) * issuedShares b.card)).mapJob cluster b.seq fun x =>
        { x with state := .issued, shares := (List.range (jobShares b.card)).map fun n => ⟨n, none⟩, passes := 0 }
      Makes (.jobIssue cluster) s (d1.setJoin cluster (d1.join cluster).assign)) ∧
    (∀ b x, (d.join cluster).jobs.find? (fun b => b.slot == slot && b.state == .issued && !b.drain) = some b → b.shares.find? b.runs = some x →
      (1 < b.shares.length →
        let d1 := d.mapJob cluster b.seq fun y => { y with shares := y.shares.filter (· != x) }
        Makes (.shareComplete cluster slot) s (d1.setJoin cluster (d1.join cluster).assign)) ∧
      (b.shares.length ≤ 1 →
        (∀ d1, workOut d cluster b false = (none, d1) → Makes (.shareComplete cluster slot) s d1) ∧
        (∀ d1, (runJob (jobEng cluster b false) b.card).on d = (.ok (), d1) →
          Makes (.shareComplete cluster slot) s
            (settleJoin (d1.mapJob cluster b.seq fun x => { x.unhand with shares := [], drain := true }) cluster)) ∧
        ∀ r a d1, workOut d cluster b false = (some (r, a), d1) →
          Makes (.shareComplete cluster slot) s (findFailure d1 cluster b r a))) ∧
    (∀ b, b.lost = none →
      (jobCw b.card = false → finishJob d cluster b = endJob d cluster b .completed none) ∧
      ∀ d1, jobCw b.card = true → storeWord d b = some d1 → finishJob d cluster b = endJob d1 cluster b .completed none) ∧
    ∀ b, (d.join cluster).jobs.find? (fun b => b.slot == slot && b.state.status.isNone) = some b →
      (b.state = .waiting → b.preds = [] → b.failedRoot.isSome = true →
        Makes (.jobFail cluster slot 6) s (failJob d cluster b 6 0 0)) ∧
      (∀ p, b.state = .paged p → bitOf (ctxWord d b.ctx 0).toNat 63 = false →
        Makes (.jobFail cluster slot 8) s (failJob d cluster b 8 0 0)) ∧
      ∀ reason r a d1, b.state = .issued → b.drain = false → workOut d cluster b (reason == 5) = (some (r, a), d1) →
        r % 16 = reason → Makes (.jobFail cluster slot reason) s (findFailure d1 cluster b r a)

/-- Units: a ray takes the lowest free slot within its context's quota (R445); an invalid ray has status 5, one that can hit nothing status 0, any
other is traced (R267, R268); a texture request is answered (R271); a shading-cache request is performed (R274); a reservation of 65,536
cycles ends (R273).
The model's choices in it: log 28, 37, 39, 65. -/
def Obligations.UnitEvents : Prop :=
  ∀ (s : State) (core slot pick fuel id set way : Nat),
    let d := s.dev
    (∀ r k, d.rays.find? (fun r => r.core == core && mayTake d r) = some r →
      (List.range Config.raySlots).find? (fun k => !d.rays.any fun x => x.isAt core k) = some k →
      Makes (.raySlotGrant core) s { d with rays := d.rays.map fun x => if x = r then { r with slot := some k } else x }) ∧
    (∀ r, d.rays.find? (fun r => r.isAt core slot && r.result.isSome && r.candidate.isNone && r.held.isNone) = some r →
      let makes (u : Dev) : Prop := Makes (.traceRecord core slot pick fuel) s u
      (rayInvalid r = true → makes (finishRay d core slot r (emptyRecord 5))) ∧
      (rayInvalid r = false → rayMisses r = true → makes (finishRay d core slot r (emptyRecord 0))) ∧
      (rayInvalid r = false → rayMisses r = false →
        makes (rayWalk (unitEng d core r.ctx r.who) slot fuel pick r d))) ∧
    (∀ q v d1, d.tex.find? (fun q => q.id == id) = some q → q.held = none → (∀ x ∈ d.tex, sameThread x.who q.who = true → q.id ≤ x.id) →
      (stexValue (unitEng d q.core q.ctx q.who) q (texWord d q)).on d = (.ok v, d1) →
      Makes (.stexResult id) s (setResult { d1 with tex := d1.tex.filter fun x => x.id != q.id } q.result v)) ∧
    (∀ q, d.shcReqs.find? (fun q => q.id == id) = some q → (∃ t ∈ d.teams, t.ctx = q.ctx) →
      let d1 : Dev := { d with shcReqs := d.shcReqs.filter (fun x => x.id != id), nextId := d.nextId + 1 }
      let makes (u : Dev) : Prop := Makes (.shcRequestArrival id) s u
      let put (e : ShcEntry) : Dev := { d1 with shc := (d.shc.filter fun x => !x.same e) ++ [e] }
      let place := shcSet q.key.toNat
      (∀ e r, q.fill = none → q.result = some r → shcFind d q.core q.ctx q.key = some e → e.valid = true →
        makes (setResult (put { e with age := d.nextId }) r (shcRecord e.values 1))) ∧
      (∀ e r, q.fill = none → q.result = some r → shcFind d q.core q.ctx q.key = some e → e.valid = false →
        makes (setResult d1 r (shcRecord [] 2))) ∧
      (∀ r k, q.fill = none → q.result = some r → shcFind d q.core q.ctx q.key = none → shcWay d q.core place = some k →
        makes (setResult (put { core := q.core, set := place, way := k, ctx := q.ctx, key := q.key, valid := false, values := [], age := d.cycle })
          r (shcRecord [] 0))) ∧
      (∀ r, q.fill = none → q.result = some r → shcFind d q.core q.ctx q.key = none → shcWay d q.core place = none →
        makes (setResult d1 r (shcRecord [] 3))) ∧
      (∀ e v, q.fill = some v → shcFind d q.core q.ctx q.key = some e →
        makes (put { e with valid := true, values := v, age := if e.valid then e.age else d.nextId })) ∧
      (∀ v k, q.fill = some v → q.result = none → shcFind d q.core q.ctx q.key = none → shcWay d q.core place = some k →
        makes (put { core := q.core, set := place, way := k, ctx := q.ctx, key := q.key, valid := true, values := v, age := d.nextId }))) ∧
    Makes (.shcReserveExpiry core set way) s { d with shc := d.shc.filter fun e =>
      !(e.core == core && e.set == set && e.way == way && !e.valid && decide (e.age + 65536 ≤ d.cycle)) }

/-- Collectives: an agent performs its oldest request, or goes on with its firing (R276, R277); messages of peers, next in the sequence of their pair,
are taken in and acknowledged (R337, R341, R342, R471); what they do: messages, chunks and aborts join the running firing of their count, or wait
for theirs (R336, R471), proposals and answers carry a re-plan on (R339, R469); a bad link seen, and the ends of a firing that gets no answer
(R469, R470).
The model's choices in it: log 38, 43, 44, 66, 99. -/
def Obligations.CollectiveEvents : Prop :=
  ∀ (s : State) (stack entry : Nat),
    let d := s.dev
    let running := entryRunning (entryWord d stack entry 0)
    let f := d.firing stack entry
    let c := collJob d stack entry
    let first := d.collReqs.find? fun q => field q.selector 15 0 == stack * 4096 + entry && !collBehind d q
    (∀ (q : CollReq) (d1 : Dev), first = some q →
      (q.image.isSome = true ∧ d1 = d) ∨ (q.image = none ∧ tryRelease d q.who q.core 7 q.id = (true, d1)) →
      Makes (.collFire stack entry) s (performColl d1 q)) ∧
    (first = none → Makes (.collFire stack entry) s (pumpAll stack entry d)) ∧
    (let reaches (i : Instr) (h : AgentHead) (m : AgentMsg) : Prop :=
      let p := agentPair stack h.src
      s.mgmt.runs = true → h.gen = s.mgmt.boot.gen → h.seq = (d.in_ p).next → h.seq < 65536 → (d.in_ p).waiting = [] →
        let r := agentRequest stack h m
        let d1 := answer (takeAgent stack m (d.setIn p { d.in_ p with waiting := [r] })) r (some 0)
        Makes i s (d1.setIn p
          { d1.in_ p with next := ((d1.in_ p).next + 1) % 65536, waiting := (d1.in_ p).waiting.filter fun x => x.seq != h.seq })
     ∀ (h : AgentHead) (n rank plane : Nat),
      (∀ m, reaches (.firingMessage stack ⟨h, m⟩) h (.fire m)) ∧ (∀ k, reaches (.chunkArrival stack ⟨h, k⟩) h (.chunk k)) ∧
      reaches (.collAbortArrival stack entry ⟨h, n⟩) h (.abort entry n) ∧
      reaches (.collReplan stack entry (.message h false n rank plane)) h (.propose entry n rank plane) ∧
      reaches (.collReplan stack entry (.message h true n rank plane)) h (.agree entry n rank plane)) ∧
    (let takes (m : AgentMsg) (u : Dev) : Prop := takeAgent stack m d = u
     (∀ m : FireMsg, m.entry = entry →
       (running = true → aheadOf f m.count = 0 → takes (.fire m) (pumpAll stack entry (judge d c m))) ∧
       (running = false ∨ 0 < aheadOf f m.count → aheadOf f m.count < 32768 →
         takes (.fire m) (d.setFiring stack entry { f with early := f.early ++ [m] }))) ∧
     (∀ k : CollChunk, k.entry = entry → running = true → k.count = f.count → k.rank ≠ c.rank →
       (k.off, k.bytes.length) ∈ (List.range c.n).flatMap (fun r => piecesOf c f.plan r) →
       takes (.chunk k) (pumpAll stack entry (d.setFiring stack entry { f with got := f.got ++ [k] }))) ∧
     ∀ n rank plane,
       (running = true → aheadOf f n = 0 → takes (.abort entry n) (failFiring d c 5)) ∧
       (running = false → aheadOf f n < 32768 → takes (.abort entry n) (d.setFiring stack entry { f with aborts := f.aborts ++ [n] })) ∧
       (running = true → aheadOf f n = 0 → (c.gather = true ∨ f.determinism = false) → rank < c.n → rank ≠ c.rank →
         takes (.propose entry n rank plane) (goReplan (d.setFiring stack entry (noteReplan d.cycle plane none f)) c) ∧
         takes (.agree entry n rank plane) (goReplan (d.setFiring stack entry (noteReplan d.cycle plane (some rank) f)) c))) ∧
    (∀ q, badPlane d stack f = some q → running = true → (c.gather = true ∨ f.determinism = false) → f.replan = none →
      let d1 := d.setFiring stack entry { f with replan := some { since := d.cycle, plane := q, own := false, answered := [] } }
      Makes (.collReplan stack entry .seen) s
        (goReplan ((peersOf d1 c).foldl (fun d id => postAgent d stack id (.propose entry f.count c.rank q)) d1) c)) ∧
    (badPlane d stack f = none → Makes (.collReplan stack entry .seen) s d) ∧
    (∀ p, f.replan = some p → running = true → p.since + 4000000 ≤ d.cycle → Makes (.replanTimeout stack entry) s (failFiring d c 4)) ∧
    ∀ t, f.since = some t → running = true → t + 4000000000 ≤ d.cycle → f.agreed.length + 1 < c.n →
      Makes (.firingTimeout stack entry) s (failFiring d c 7)

/-! ## Migration, soft errors, refresh (R103 to R106, R335, R428 to R434) -/

/-- Migration: a period's end, P after the period began, starts moves and closes the counts (R104); a finished copy switches the entry, or an
unfinished move is aborted (R106, R433); the entry block reads and writes entries (R105).
The model's choices in it: log 29, 47, 92. -/
def Obligations.MigrationEvents : Prop :=
  ∀ (s : State) (slice frame port : Nat),
    let d := s.dev
    let m := s.mgmt
    let f := frame % 2 ^ 25
    (m.counting = true → m.runs = true → slice < Config.slices →
      (periodStart d slice + field m.migCfg.toNat 6 0 * 4000000 ≤ d.cycle →
        let d1 : Dev := { d with periods := AMap.set 0 d.periods slice d.cycle }
        ((∃ x ∈ d.migr, sliceOf x.frame = slice) → Makes (.migrationPeriodEnd slice) s (closePeriod d1 slice)) ∧
        ((∀ x ∈ d.migr, sliceOf x.frame ≠ slice) → Makes (.migrationPeriodEnd slice) s
          (closePeriod (startMoves d1 slice (field m.migCfg.toNat 47 32) (field m.migCfg.toNat 31 16)) slice))) ∧
      (d.cycle < periodStart d slice + field m.migCfg.toNat 6 0 * 4000000 → Makes (.migrationPeriodEnd slice) s d)) ∧
    (∀ x, d.migr.find? (fun x => x.frame == frame) = some x → bitOf m.migReq.toNat 63 = false → Makes (.moveSwitch frame) s (endMove d x)) ∧
    (gate s port (some 2) false = .taken → bitOf m.migReq.toNat 63 = false →
      exec (.migrationRead port frame) s = .next { s with mgmt := { m with migReq := BitVec.ofNat 64 f, migData := indirAt d f } } ∧
      (entMoving (indirAt d f) = true →
        exec (.migrationWrite port frame) s = .next { s with mgmt := { m with migReq := BitVec.ofNat 64 (2 ^ 63 + 2 ^ 62 + f) } }) ∧
      (entMoving (indirAt d f) = false → ∀ d1, writeEntry d f m.migData = (true, d1) →
        exec (.migrationWrite port frame) s = .next { s with mgmt := { m with migReq := BitVec.ofNat 64 (2 ^ 62 + f) }, dev := d1 })) ∧
    (gate s port (some 2) false = .refused →
      Makes (.migrationRead port frame) s (discard6A d port 0x00040108) ∧ Makes (.migrationWrite port frame) s (discard6A d port 0x00040108))

/-- Soft errors and refresh: a scrub pass counts its corrections (R428); an uncorrectable error poisons what it hits (R429, R430), a parity error halts
the contexts of its unit (R431); one subarray of a bank refreshes at a time, and after three missed beats the controller refreshes all
banks (R335, R434).
The model's choices in it: log 25, 30, 83. -/
def Obligations.ErrorEvents : Prop :=
  ∀ (s : State) (unit n stack bank sub a : Nat),
    let d := s.dev
    let v := d.stackAt stack
    let p : Poison := ⟨2, poisonWord 2 a⟩
    (n ≠ 0 → unit < 832 → Makes (.scrubPass unit n) s (rateNote d 0x46 unit n 0 0 true fun r =>
      { cls := 0x46, sev := 0, kind := (scrubSource unit).1, index := (scrubSource unit).2, ctx := none, d0 := r.count })) ∧
    (bitOf s.mgmt.migReq.toNat 63 = false →
      (p ∉ d.poison → Makes (.eccUncorrectable (.tmem a)) s { d with poison := d.poison ++ [p] }) ∧
      (∀ team gid tid k, Makes (.eccUncorrectable (.slot team gid tid k)) s
        (d.mapThread ⟨team, gid, tid⟩ fun h => if k ∈ h.bad then h else { h with bad := h.bad ++ [k] })) ∧
      ∀ site, Makes (.eccUncorrectable site) s (poisonSite d site)) ∧
    (∀ ctx kind index, Makes (.parityError (.own ctx kind index)) s
      (contextError d { cls := 0x48, sev := 2, kind, index, ctx := some ctx })) ∧
    (stack < Config.hbmStacks → v.allBank = false →
      (sub < 64 → (∀ x ∈ v.refreshing, x.1 ≠ bank) →
        Makes (.refreshSubarray stack bank sub) s (d.setStack stack { v with refreshing := v.refreshing ++ [(bank, sub)] })) ∧
      Makes (.mgmtHeartbeat stack true) s (d.setStack stack { v with missed := v.missed + 1 }) ∧
      Makes (.mgmtHeartbeat stack false) s (d.setStack stack { v with missed := 0 }) ∧
      (3 ≤ v.missed → Makes (.refreshTakeover stack) s
        (report (d.setStack stack { v with allBank := true, refreshing := [] }) { cls := 0x4C, sev := 3, kind := 4, index := stack, ctx := none }))) ∧
    (v.allBank = true → Makes (.refreshAllBank stack) s (d.setStack stack { v with busy := true })) ∧
    Makes (.refreshEnd stack) s (d.setStack stack { v with refreshing := [], busy := false })

/-! ## Kerf, power, boot (R317 to R319, R345, R351 to R358, R451 to R455) -/

/-- Kerf: a sample enters the die's view, throttles at 95 and raises the emergency at 105 degrees, with their records (R318, R451); cooler dies recover; a
die of 115 degrees, or an emergency of 100 ms, stops the module (R452); a silent sensor (R451); the clocks of a die that has been idle for 1 ms
(R357).
The model's choices in it: log 8, 25, 69, 81. -/
def Obligations.KerfEvents : Prop :=
  ∀ (s : State) (die mw : Nat) (temp : Int),
    let d := s.dev
    let k := d.kerfAt die
    (s.mgmt.runs = true → die < Config.dies → temp < 16 * 115 →
      let hot := decide (16 * 95 ≤ temp) && !k.throttled
      let danger := decide (16 * 105 ≤ temp) && !k.emergency
      let k1 := k.sample d.cycle mw temp
      let d1 := d.setKerf die { k1 with
        throttled := k.throttled || hot, emergency := k.emergency || danger, since := if danger then d.cycle else k.since }
      let d2 := if hot then kerfRecord d1 die 0x67 0 0 else d1
      Makes (.kerfSample die mw temp) s (if danger then kerfRecord d2 die 0x68 3 0 else d2)) ∧
    (∀ c, k.throttled = true → k.below92 = some c → c + 4000000 ≤ d.cycle → k.emergency = false →
      Makes (.thermalRecovery die) s (kerfRecord (d.setKerf die { k with throttled := false }) die 0x67 0 1)) ∧
    (s.mgmt.runs = true → k.emergency = true → k.since + 400000000 ≤ d.cycle →
      ∃ u, exec (.emergencyTimeout die) s = .next u ∧ u.mgmt.power = .stopped ∧ u.mgmt.boot.state = .waiting ∧ u.dev.teams = [] ∧ u.dev.grids = [] ∧
        u.dev.contribs = [] ∧ u.dev.scr = [] ∧ u.dev.tmem = []) ∧
    (s.mgmt.runs = true → k.silent = false → die < Config.dies → k.sampled + 400000 ≤ d.cycle →
      Makes (.powerSensorSilent die) s (kerfRecord (d.setKerf die { k with silent := true }) die 0x6B 3 0)) ∧
    (s.mgmt.runs = true → (∀ t ∈ d.teams, t.resident = true → dieOf t.core ≠ die) →
      (∀ j ∈ d.joins, j.1 / 5 = die → ∀ b ∈ j.2.jobs, b.state ≠ .issued ∧ ∀ p, b.state ≠ .paged p) → die < Config.dies →
      (max 1 (AMap.get 0 d.idle die) + 4000000 ≤ d.cycle + 1 → Makes (.dieIdle die) s (d.setKerf die { k with gated := true })) ∧
      (d.cycle + 1 < max 1 (AMap.get 0 d.idle die) + 4000000 → Makes (.dieIdle die) s d))

/-- Boot: power good leaves every register and memory at its reset value (R351, R345); both links or 200 ms bring Waiting; the first start, the length
and the checks in their order (R351, R352, R356); loading starts the part; attestation (R355, R455); Standby, entered at the end of the move in
which nothing is outstanding any more (R357, R358).
The model's choices in it: log 11, 12, 31, 74. -/
def Obligations.BootEvents : Prop :=
  ∀ (s : State) (port units : Nat) (v : DWord),
    let d := s.dev
    let m := s.mgmt
    let b := m.boot
    let boot (x : Boot) : State := { s with mgmt := { m with boot := x } }
    (m.power = .off → ∃ u, exec .powerGood s = .next u ∧ u.mgmt = Mgmt.reset ∧
      u.dev = { Dev.reset with host := d.host, notices := d.notices, fresh := d.fresh, nextId := d.nextId, reference := d.reference }) ∧
    (∃ u, exec .powerOff s = .next u ∧ u.mgmt = { Mgmt.reset with power := .off } ∧ u.dev.hbm = [] ∧ u.dev.scr = [] ∧ u.dev.teams = []) ∧
    (d.isLost 1 = false → b.state = .reset → b.trained0 = true →
      exec (.pcieLinkTrained 1) s = .next (boot { b with trained1 := true, state := .waiting })) ∧
    (b.state = .reset → 800000000 ≤ d.cycle → exec .bootWaitTimer s = .next (boot { b with state := .waiting })) ∧
    (b.state = .waiting → b.owner = none → d.isLost 0 = false → exec (.bootStart true false) s = .next (boot { b with owner := some 0 })) ∧
    (b.state = .waiting → b.owner = some port → d.isLost port = false → 256 * units ≤ 48 * 2 ^ 20 →
      ∃ u, exec (.bootLength port units) s = .next u ∧ u.mgmt.boot.state = .verifying ∧ u.mgmt.boot.length = 256 * units ∧
        (∀ g, b.pending = some g → u.mgmt.boot.gen = g) ∧ (b.pending = none → b.streamed = true → u.mgmt.boot.gen = (b.gen + 1) % 65536)) ∧
    (hostOk s port = true → (b.owner = none ∨ b.owner = some port) →
      exec (.bootGen port v) s = .next (boot { b with pending := if v.getLsbD 16 then some (v.toNat % 65536) else none })) ∧
    (b.state = .verifying →
      ∃ u, exec .bundleVerifyDone s = .next u ∧
        match bundleFailure d b.length with
        | none => u = boot { b with state := .loading, reason := 0, digests := (sections d).map (·.digest) }
        | some (n, _, _) => u.mgmt.boot.state = .failed ∧ u.mgmt.boot.reason = n) ∧
    (b.state = .loading → ∃ u, exec .loadingDone s = .next u ∧ u.mgmt.boot.state = .running ∧ u.mgmt.power = .active) ∧
    (hostOk s port = true → m.attestOpen = true → m.attest.building = false → b.state = .running → m.attest.broken = false →
      exec (.attestTrigger port) s = .next { s with mgmt := { m with attest :=
        { m.attest with ready := false, failed := false, reason := 0, building := true } } }) ∧
    (m.attest.building = true →
      exec (.attestReportReady true) s = .next { s with mgmt := { m with attest :=
        { m.attest with building := false, ready := true, report := attestReport s } } }) ∧
    (gate s port (some 0) true = .taken →
      (m.power = .active → m.entering = false → exec (.standbyEnter port) s = .next (beginStandby s)) ∧
      (m.power = .standby → ∃ u, exec (.standbyExit port) s = .next u ∧ u.mgmt.power = .active ∧ u.mgmt.boot.gen = (b.gen + 1) % 65536 ∧ u.dev.ins = [])) ∧
    (m.entering = true →
      (fabricQuiet (settle d) = true →
        s.settled.mgmt.power = .standby ∧ s.settled.mgmt.entering = false ∧ s.settled.dev.teams = [] ∧ s.settled.dev.scr = []) ∧
      (fabricQuiet (settle d) = false → s.settled.mgmt = m))

/-! ## Host software (R88, R94, R102, R105, R310, R311, R322 to R328, R346, R349, R414, R423, R425, R446, R450, R453, R466) -/

/-- The management block: with the block open and its semaphore held a write has its effect, without the semaphore it is discarded with a class 0x6A
record (R326, R450), while the block is closed nothing happens (R351). Reads of port semaphores by both ports in one fabric cycle go in the
order of the tie rule (R326).
The model's choices in it: log 71, 72, 75, 83, 93. -/
def Obligations.RegisterEvents : Prop :=
  ∀ (s : State) (port ctx page n : Nat) (fn : HostFn) (v : DWord),
    let d := s.dev
    let m := s.mgmt
    let c := ctx % 1024
    let p := page % 2 ^ 44
    let sets (i : Instr) (m : Mgmt) : Prop := exec i s = .next { s with mgmt := m }
    let word := { m.sem n with held := false }
    let sem (v : Sem) : Mgmt := { m with sems := AMap.set Sem.free m.sems n v }
    let guarded := [(Instr.contextInvalidation port ctx, 0x40000), (.faultRetry port ctx page, 0x40018), (.faultFail port ctx page, 0x40018),
      (.rayDiscard port ctx, 0x40020), (.pairReopen port v, 0x70100)]
    (gate s port (some 2) false = .closed → ∀ x ∈ guarded, exec x.1 s = .next s) ∧
    (gate s port (some 2) false = .refused → ∀ x ∈ guarded, Makes x.1 s (discard6A d port x.2)) ∧
    (gate s port (some 2) false = .taken →
      (bitOf m.inval.toNat 31 = false → sets (.contextInvalidation port ctx) { m with inval := BitVec.ofNat 64 (2 ^ 31 + c) }) ∧
      exec (.faultRetry port ctx page) s = .next { s with mgmt := { m with faultReg := BitVec.ofNat 64 (p * 4096 + c) }, dev := retryPage d c p } ∧
      exec (.faultFail port ctx page) s = .next { s with
        mgmt := { m with faultReg := BitVec.ofNat 64 (p * 4096 + 1024 + c) }
        dev := contextError (dropPage d c p) { cls := 0x43, sev := 2, kind := 5, index := port, ctx := some c, addr := p * 4096 } } ∧
      (∀ a ∈ (dropPage d c p).reqs, a.inPage c p = true → a.faulted = false ∧ sideBlocked d c a.addr = false) ∧
      exec (.rayDiscard port ctx) s = .next { s with
        mgmt := { m with rayReg := BitVec.ofNat 64 c }
        dev := report (discardRays d c) { cls := 0x66, sev := 0, kind := 5, index := port, ctx := some c } } ∧
      (fn = ⟨port, 0⟩ → bitOf v.toNat 63 = false →
        (bitOf v.toNat 11 = false → sets (.mgmtRegisterWrite fn 0x40018 v) { m with faultReg := BitVec.ofNat 64 (v.toNat % 2 ^ 56) }) ∧
        sets (.mgmtRegisterWrite fn 0x40020 v) { m with rayReg := BitVec.ofNat 64 (v.toNat % 1024) }) ∧
      (bitOf m.reopenReg.toNat 63 = false →
        (bitOf v.toNat 63 = false → sets (.pairReopen port v) { m with reopenReg := BitVec.ofNat 64 (v.toNat % 2 ^ 24) }) ∧
        (bitOf v.toNat 63 = true → (bitOf v.toNat 23 = true ∨ v.toNat / 2 ^ 19 % 16 = 0) → reopenPairs d v.toNat ≠ [] →
          sets (.pairReopen port v) { m with reopenReg := BitVec.ofNat 64 (2 ^ 63 + v.toNat % 2 ^ 24) }) ∧
        (bitOf v.toNat 63 = true → bitOf v.toNat 23 = false → v.toNat / 2 ^ 19 % 16 ≠ 0 →
          Makes (.pairReopen port v) s (discard6A d port 0x00070100)))) ∧
    (bitOf m.inval.toNat 31 = true → m.runs = true →
      exec .invalidationComplete s = .next { s with
        mgmt := { m with inval := BitVec.ofNat 64 (m.inval.toNat % 1024) }
        dev := { d with
          tlb := d.tlb.filter fun x => x.ctx != m.inval.toNat % 1024
          ats := []
          remotes := d.remotes.filter fun r => r.1 != m.inval.toNat % 1024 } }) ∧
    (n < 32 → hostOk s 0 = true → m.isOpen true = true → (m.sem n).held = false →
      exec (.portSemaphoreRead 0 n none) s = .next { s with
        mgmt := sem { held := true, owner := 0, gen := ((m.sem n).gen + 1) % 65536 }
        dev := { d with notices := d.notices ++ [.readData 0 false (toBytes 8 (m.sem n).word)] } }) ∧
    (∀ k, n < 32 → k < 32 → hostOk s 0 = true → hostOk s 1 = true → m.isOpen true = true →
      let w := m.tieLoser.getD 0 % 2
      let at_ (p : Nat) : Nat := if p = 0 then n else k
      exec (.portSemaphoreRead 0 n (some (.read k))) s
        = .next (readSem (at_ (1 - w)) (readSem (at_ w) { s with mgmt := { m with tieLoser := some (1 - w) } } w) (1 - w))) ∧
    (∀ w : Word, n < 32 → port < 2 → hostOk s port = true → m.isOpen true = true → m.holds port n = true → w.getLsbD 31 = false →
      sets (.portSemaphoreRelease port n ⟨w, none⟩) (sem word)) ∧
    (gate s port (some 2) false = .taken → 20 ≤ v.toNat % 64 → v.toNat % 64 ≤ 40 → fn = ⟨port, 0⟩ →
      sets (.mgmtRegisterWrite fn 0x40010 v) { m with wdLog2 := v.toNat % 64 }) ∧
    (gate s port (some 0) false = .taken → v.toNat % 16 ≠ 0 → fn = ⟨port, 0⟩ →
      sets (.mgmtRegisterWrite fn 0x20088 v) { m with k := v.toNat % 16 }) ∧
    (gate s port (some 0) false = .taken → v.toNat % 16 = 0 → fn = ⟨port, 0⟩ →
      Makes (.mgmtRegisterWrite fn 0x20088 v) s (discard6A d port 0x20088))

/-- Queues and tables: enabling checks the ring and the context (R450), disabling stops the queue at its next park, a program write gives a fresh
thread (R310); the doorbell moves the tail (R311); a granule that becomes a context's is zeroed (R88); context-table entries (R322, R437).
The model's choices in it: log 32, 73. -/
def Obligations.QueueEvents : Prop :=
  ∀ (s : State) (fn : HostFn) (q die granule port ctx word : Nat) (w v : DWord) (x : Word),
    let d := s.dev
    let y := d.queue q
    let reach := hostOk s fn.port = true ∧ s.mgmt.isOpen false = true ∧ q < Config.queues ∧ fn.fn = 0
    let z : DWord := w &&& ~~~0x7C0000000#64
    let same := z.toNat / 2 ^ 45 % 128 = y.w0.toNat / 2 ^ 45 % 128
    (reach → same → y.w0.msb = false → z.msb = true →
      (enableOk d y z.toNat = true → Makes (.queueEnable fn q w) s (startAgain d q z)) ∧
      (enableOk d y z.toNat = false → Makes (.queueEnable fn q w) s
        (report d { cls := 0x62, sev := 0, kind := 5, index := fn.port, ctx := some (z.toNat / 2 ^ 35 % 1024), queue := some q }))) ∧
    (reach → y.w0.msb = true → z = y.w0 &&& 0x7FFFFFFFFFFFFFFF#64 → w.msb = false →
      Makes (.queueDisable fn q w) s (stopQueue d q z)) ∧
    (reach → y.enabled = false → Makes (.queueProgWrite fn q v) s (unwatchQueue (d.setQueue q
      { y with w2 := v, thread := Thread.blank, started := false, exited := false, wait := .none, stopping := false, held := none }) q)) ∧
    (hostOk s fn.port = true → s.mgmt.isOpen true = true → q < Config.queues → fn.fn = 0 →
      let tail := v.toNat % 2 ^ 32
      let moved := d.setQueue q { y with w3 := BitVec.ofNat 64 (y.w3.toNat / 2 ^ 32 * 2 ^ 32 + tail) }
      ((tail + 2 ^ 32 - y.head) % 2 ^ 32 ≤ y.ringSize →
        Makes (.doorbell fn q v) s (if y.wait = .ring ∧ tail ≠ y.head then moved.readyQueue q else moved)) ∧
      (y.ringSize < (tail + 2 ^ 32 - y.head) % 2 ^ 32 → Makes (.doorbell fn q v) s
        (report d { cls := 0x63, sev := 0, kind := 5, index := fn.port, ctx := some y.ctx, queue := some q }))) ∧
    (die < Config.dies → granule < 1023 → gate s port (some 2) false = .taken →
      let key := scrKey die (granule * 65536)
      let old := ownerEntry d key
      let new := x &&& 0xF00003FF#32
      let d1 := if new.msb = true ∧ (old.msb = false ∨ old.toNat % 1024 ≠ new.toNat % 1024) then zeroGranule d key else d
      Makes (.ownerEntryWrite port die granule x) s { d1 with owners := AMap.set 0 d1.owners (die * 1024 + granule) new }) ∧
    (ctx < Config.contexts → 0 < word → word < 6 → gate s port (some 2) false = .taken →
      Makes (.contextTableWrite port ctx word v) s { d with ctxs := AMap.set 0 d.ctxs (ctx * 8 + word) v })

/-- The host's windows (R323, R324, R346): a read through BAR2 answers the bytes of the scratchpads, zero where granule 1,023 is closed; a write
through BAR2 or BAR4 stores its bytes; an AtomicOp answers the old value; a register reads as its rule lays it out, a virtual function's own queue
descriptors alone (R7, R323), identification and boot status in every boot state (R351, R356). A lost port (R453).
The model's choices in it: log 33, 48, 102. -/
def Obligations.WindowEvents : Prop :=
  ∀ (s : State) (port off len : Nat) (l : List Byte) (old v : Nat),
    let d := s.dev
    let base := AMap.get 0 s.mgmt.windows port * 2 ^ 32
    (hostOk s port = true → s.mgmt.runs = true →
      Makes (.bar2Access port (.read off len)) s (d.notify (.readData port (poisoned d 1 off len)
        ((List.range len).map fun i => if bar2Open (off + i) then Memory.read d.scr (off + i) else 0))) ∧
      (l ≠ [] → (∀ k, k < l.length → bar2Open (off + k) = true ∧ (off + k) % 2 ^ 26 / 65536 ≠ 1023) →
        ∃ u, exec (.bar2Access port (.write off l)) s = .next u ∧
          (d.watch = [] → ∀ k, k < l.length → Memory.read u.dev.scr (off + k) = l.getD k 0)) ∧
      (∀ n, (n = 4 ∨ n = 8) → off % n = 0 → (∀ k, k < n → bar2Open (off + k) = true) → poisoned d 1 off n = false →
        old = Memory.readN d.scr off n →
        Makes (.pcieAtomicOp port (.fetchAdd false n off v)) s
          ((bar2Write d off (toBytes n ((old + v) % 2 ^ (8 * n)))).notify (.readData port false (toBytes n old))) ∧
        Makes (.pcieAtomicOp port (.swap false n off v)) s
          ((bar2Write d off (toBytes n (v % 2 ^ (8 * n)))).notify (.readData port false (toBytes n old))))) ∧
    (hostOk s port = true → s.mgmt.isOpen true = true → len ≤ 128 → 0 < len → off % 2 ^ 32 % 128 + len ≤ 128 →
      frameOk d (base + off % 2 ^ 32) = true → tierLost d d.isLost (base + off % 2 ^ 32) = false →
      let pa := base + off % 2 ^ 32
      let d1 := recallLine (takeTag d (sliceAt pa)).2 (lineOf pa)
      Makes (.bar4Access port (.read off len)) s (d1.notify (.readData port (physPoisoned d1 pa len) ((List.range len).map fun i => physRead d1 (pa + i)))) ∧
      (l.length = len → Makes (.bar4Access port (.write off l)) s (physStore d1 pa len (ofBytes l)))) ∧
    (hostOk s port = true →
      let answers (fn off value : Nat) := Makes (.bar2Access port (.register ⟨port, fn⟩ off)) s (d.notify (.readData port false (toBytes 8 value)))
      answers 0 0x0000 (Config.part * 2 ^ 48 + Config.stepping * 2 ^ 40 + Config.baseStep * 2 ^ 32 + Config.isaLevel * 2 ^ 24) ∧
      (s.mgmt.boot.state = .running → ∀ o, s.mgmt.boot.owner = some o → o < 2 → s.mgmt.boot.reason < 256 →
        answers 0 0x0108 (s.mgmt.boot.reason * 2 ^ 8 + o * 2 ^ 4 + 4)) ∧
      (∀ q k, q < Config.queues → k < 4 → s.mgmt.isOpen false = true →
        let y := d.queue q
        let word := (if k = 0 then y.w0 else if k = 1 then y.w1 else if k = 2 then y.w2 else y.w3).toNat
        answers 0 (0x01000000 + 32 * q + 8 * k) word ∧
        (∀ fn, 0 < fn → reachesQueue d ⟨port, fn⟩ q = true → answers fn (0x01000000 + 32 * q + 8 * k) word) ∧
        (∀ fn, 0 < fn → reachesQueue d ⟨port, fn⟩ q = false → answers fn (0x01000000 + 32 * q + 8 * k) 0)) ∧
      (∀ fn, 0 < fn → off < 0x01000000 → answers fn off 0)) ∧
    (hostOk s port = true → bitOf s.mgmt.migReq.toNat 63 = false →
      ∃ u, exec (.hostPortLost port) s = .next u ∧ u.dev.isLost port = true ∧ u.mgmt.sems = (s.mgmt.loseSems port d.cycle).sems) ∧
    (∀ x, d.losses.find? (fun x => x.1 == port && decide (x.2 + 4000000 ≤ d.cycle)) = some x →
      ∃ u, exec (.portSemReleaseTimeout port) s = .next u ∧ u.mgmt = s.mgmt.dropSems port x.2 ∧
        u.dev = report { d with losses := d.losses.erase x }
          { cls := 0x6C, sev := 3, kind := 5, index := port, ctx := none,
            d0 := (List.range 32).foldl (fun n i => if (s.mgmt.sem i).lostWith port x.2 then n + 2 ^ i else n) 0 })

/-- Device time and its discipline (R347 to R350): an offset of up to step_us slews, a larger later one steps, a larger earlier one is absorbed at
half rate; the timing port follows a master of its domain and transport, and asks for the delay after each Sync; PTP and 1PPS count towards the lock;
the 1PPS output.
The model's choices in it: log 77, 104. -/
def Obligations.TimeEvents : Prop :=
  ∀ (s : State) (port : Nat) (v : DWord) (h : PtpHead) (msg : PtpMsg) (c1 c2 : Int) (present : Bool),
    let d := s.dev
    let m := s.mgmt
    let limit : Int := (m.stepUs : Int) * 1000
    let taken (o : Int) : Mgmt := { m with offset := o, good := if -100 ≤ o ∧ o ≤ 100 then min 16 (m.good + 1) else 0 }
    (gate s port (some 1) false = .taken → v.toNat / 2 ^ 32 < 10 ^ 9 →
      let target : Nat := (m.setSecs.toNat * 10 ^ 9 + v.toNat / 2 ^ 32) * 65536 + v.toNat % 65536
      Makes (.timeSet port v) s (applyOffset d m.stepUs (((target : Nat) : Int) - ((d.units : Nat) : Int)))) ∧
    (m.disciplined = true → m.source = 1 →
      ((h.domain ≠ m.domain ∨ h.transport ≠ m.transport) → exec (.ptpMessage h msg) s = .next s) ∧
      (h.domain = m.domain → h.transport = m.transport →
        (∀ l, m.ptp.best = none → exec (.ptpMessage h (.announce l)) s = .next
          { s with mgmt := { m with master := true, ptp := { m.ptp with best := some (h.source, l) } } }) ∧
        (∀ l, m.ptp.best = some (h.source, l) →
          let asks (t1 : Int) (t2 : Int) : State :=
            { s with
              mgmt := { m with ptp := { m.ptp with
                pending := none, down := some (t1, t2), asked := some (m.ptp.next, d.nsNow), next := (m.ptp.next + 1) % 65536 } }
              dev := { d with notices := d.notices ++ [.delayReq m.ptp.next] } }
          exec (.ptpMessage h (.sync false c1 c2)) s = .next (asks (c1 + c2) d.nsNow) ∧
          exec (.ptpMessage h (.sync true c1 c2)) s = .next
            { s with mgmt := { m with ptp := { m.ptp with pending := some (h.seq, d.nsNow, c2) } } } ∧
          (∀ t2 c, m.ptp.pending = some (h.seq, t2, c) → exec (.ptpMessage h (.followUp c1 c2)) s = .next (asks (c1 + c2 + c) t2)) ∧
          (∀ sent t1 t2, m.ptp.asked = some (h.seq, sent) → m.ptp.down = some (t1, t2) →
            let o : Int := ((c1 - c2 - sent) - (t2 - t1)) / 2
            let p := { m.ptp with asked := none }
            (-limit ≤ o → o ≤ limit → exec (.ptpMessage h (.delayResp c1 c2)) s = .next
              { s with mgmt := { taken o with ptp := p }, dev := { d with slew := o * 65536, half := false } }) ∧
            (limit < o → 0 < o → ∃ u, exec (.ptpMessage h (.delayResp c1 c2)) s = .next u ∧ u.mgmt = { taken o with ptp := p } ∧
              ((u.dev.units : Nat) : Int) = ((d.units : Nat) : Int) + o * 65536 ∧ u.dev.slew = 0) ∧
            (o < -limit → o < 0 → exec (.ptpMessage h (.delayResp c1 c2)) s = .next
              { s with mgmt := { taken o with ptp := p }, dev := { d with slew := o * 65536, half := true } })) ∧
          exec (.ptpMessage h .silence) s = .next { s with mgmt := { m with master := false, ptp := { Ptp.blank with next := m.ptp.next } } }))) ∧
    (m.disciplined = true → m.source = 2 → bitOf m.ppsSecs.toNat 63 = true →
      let o : Int := ((m.ppsSecs.toNat % 2 ^ 48 * 10 ^ 9 : Nat) : Int) - ((d.secs * 10 ^ 9 + d.nanos : Nat) : Int)
      exec .ppsInput s = .next { s with
        mgmt := { taken o with ppsSecs := BitVec.ofNat 64 (m.ppsSecs.toNat % 2 ^ 48) }, dev := applyOffset d m.stepUs (o * 65536) }) ∧
    ((d.nanos < 5 ∨ 10 ^ 9 - 5 ≤ d.nanos ∨ (d.nanos = 5 ∧ d.frac = 0)) → Makes .ppsOutputEdge s { d with notices := d.notices ++ [.pps] }) ∧
    Makes (.referenceInputChange present) s { d with reference := present }

/-! ## Links and other packages (R337, R340 to R345, R435, R436, R457 to R467) -/

/-- Link ports: a working port fails with its reason and its requests are sent again (R458, R462); retraining, training, rate, the disable bit (R457,
R459, R460).
The model's choices in it: log 34, 78. -/
def Obligations.LinkEvents : Prop :=
  ∀ (s : State) (link : LinkId) (port : Nat) (v : DWord),
    let d := s.dev
    let k := linkKey link
    let p := d.port k
    (s.mgmt.runs = true →
      Makes (.laneSignalLoss link) s (failPort d k 1) ∧ Makes (.replayLimit link) s (failPort d k 2) ∧
      Makes (.creditTimeout link) s (failPort d k 3) ∧
      (p.state = .failed ∨ (p.state = .training ∧ p.reason ≠ 0) → p.disable = false → p.failedAt + 40000000 ≤ d.cycle →
        Makes (.portRetrain link) s (d.setPort k { p with state := .training, trainedAt := d.cycle, failedAt := d.cycle })) ∧
      (p.state = .training → p.trainedAt + 4000000 ≤ d.cycle → p.reason = 0 →
        Makes (.portUp link) s (d.setPort k { p with state := .up }))) ∧
    (s.mgmt.runs = true → p.state ≠ .failed → d.outs = [] →
      Makes (.laneSignalLoss link) s (portRecord
        (d.setPort k { p with state := .failed, failures := (p.failures + 1) % 65536, reason := 1, failedAt := d.cycle }) k 0x80 1)) ∧
    (p.state = .training → Makes (.flitCrcError link) s (d.setPort k { p with trainedAt := d.cycle })) ∧
    (p.state = .up → Makes (.portDegraded link true) s (d.setPort k { p with state := .degraded })) ∧
    (p.state = .degraded → Makes (.portDegraded link false) s (d.setPort k { p with state := .up })) ∧
    (gate s port (some 2) false = .taken →
      (v.getLsbD 2 = false → Makes (.portDisable port link v) s (d.setPort k { p with disable := false })) ∧
      (v.getLsbD 2 = true →
        let d1 := d.setPort k { p with disable := true }
        (p.state ≠ .failed → Makes (.portDisable port link v) s (failPort d1 k 4)) ∧
        (p.state = .failed → Makes (.portDisable port link v) s (d1.setPort k { p with disable := true, reason := 4 }))))

/-- The end-to-end layer: resends and suspects (R343, R461), answers (R342, R436), unreachable destinations (R435, R465 to R467); requests of other
packages are performed in their sequence, once (R342, R345, R462).
The model's choices in it: log 35, 36, 78, 121, 122. -/
def Obligations.PackageEvents : Prop :=
  ∀ (s : State) (dst : PeerId) (seq gen : Nat) (link : LinkId) (r : RemoteReq),
    let d := s.dev
    let o := d.out dst
    (∀ x, o.sent.find? (fun x => x.seq == seq) = some x →
      (x.at_ + 80000 ≤ d.cycle → (x.port = 255 ∨ (d.port x.port).usable = false) → Makes (.e2eResendTimeout dst seq) s (resend dst d x)) ∧
      (x.at_ + 80000 ≤ d.cycle → x.port ≠ 255 → (d.port x.port).usable = true →
        let makes (u : Dev) : Prop := Makes (.e2eResendTimeout dst seq) s u
        let lost := (x.port, x.seq)
        let d1 := d.setOut dst { o with misses := if lost ∈ o.misses then o.misses else o.misses ++ [lost] }
        ((∃ y ∈ o.suspects, y.port = x.port) → makes (resend dst (mapPairs d dst (setSuspect x.port (some ⟨x.port, d.cycle, false⟩))) x)) ∧
        ((∀ y ∈ o.suspects, y.port ≠ x.port) →
          (missesOf d1 dst x.port < 3 → makes (resend dst d1 x)) ∧ (3 ≤ missesOf d1 dst x.port → makes (suspectPort d1 dst x.port)))) ∧
      (∀ v, Makes (.e2eAckArrival dst seq (some v)) s (progressIssuer (answerAccess (settleSent d dst x) dst x v) x.access.who)) ∧
      Makes (.e2eAckArrival dst seq none) s (progressIssuer (unreachable (settleSent d dst x) x.access dst) x.access.who) ∧
      Makes (.e2eBusyAnswer dst seq) s (rateNote
        (d.setOut dst { o with sent := o.sent.map fun x => if x.seq = seq then { x with at_ := d.cycle } else x }) 0x87 dst 1 dst 0 false
        fun r => { cls := 0x87, sev := 0, kind := 5, index := 0, ctx := none, d0 := dst, d1 := r.count })) ∧
    Makes (.suspectExpiry link dst) s (mapPairs d dst fun o =>
      { o with suspects := o.suspects.map fun x =>
          if x.port = linkKey link ∧ x.since + 40000000 ≤ d.cycle then { x with trial := true } else x }) ∧
    (∀ x ∈ o.sent, x.gen ≠ gen →
      let old := o.sent.filter fun x => x.gen != gen
      let d1 : Dev := { d with remotes := d.remotes.filter fun r => !(field r.2.2.1.toNat 18 0 == dst && field r.2.2.2.toNat 31 16 != gen) }
      let d2 := d1.setOut dst
        { o with sent := o.sent.filter fun x => x.gen == gen, queue := [], closed := true, closedAt := d.cycle, fresh := true, reported := gen }
      let d3 := o.queue.foldl (fun d m => match m with | .abort _ _ => d | _ => loseFiring d (pairStack dst) (msgEntry m) 1) d2
      Makes (.unreachableAnswer dst gen) s (loseSent d3 dst old)) ∧
    (o.closed = false → routesLost d dst = true → isAgent dst = false →
      let d1 := d.setOut dst { o with sent := [], queue := [], closed := true, closedAt := d.cycle, fresh := false }
      Makes (.unreachableDeclare dst) s (report
        (loseSent { d1 with remotes := d1.remotes.filter fun r => field r.2.2.1.toNat 18 0 != dst } dst o.sent)
        { cls := 0x83, sev := 3, kind := 5, index := 0, ctx := none, d0 := dst % 2 ^ 24 })) ∧
    (o.closed = false → routesLost d dst = true → isAgent dst = true →
      Makes (.unreachableDeclare dst) s (report
        (loseAgent (loseSent (d.setOut dst { o with sent := [], queue := [], closed := true, closedAt := d.cycle, fresh := false }) dst o.sent)
          (pairStack dst) (pairAgent dst))
        { cls := 0x83, sev := 3, kind := 4, index := pairStack dst, ctx := none, d0 := dst % 2 ^ 24 })) ∧
    (let w := s.mgmt.reopenReg.toNat
     let peer := w % 2 ^ 19
     let n := if (d.out peer).fresh then 0 else (d.out peer).next
     bitOf w 63 = true → bitOf w 23 = false → (d.out peer).closed = true →
      ((d.out peer).closedAt + 40000000 ≤ d.cycle → reopenPort d peer = true →
        exec .reopenRetry s = .next { s with
          mgmt := { s.mgmt with reopenReg := BitVec.ofNat 64 (w % 2 ^ 24) }
          dev := report ((d.setOut peer
              (if (d.out peer).fresh then (d.out peer).reopen else { PeerOut.blank with next := n })).notify (.fabric 2 peer n))
            { cls := 0x84, sev := 0, kind := 5, index := 0, ctx := none, d0 := peer } }) ∧
      (d.cycle < (d.out peer).closedAt + 40000000 → exec .reopenRetry s = .next s)) ∧
    (s.mgmt.runs = true →
      Makes (.resyncArrival dst seq) s (d.setIn dst { next := seq % 65536, waiting := [], results := [] }) ∧
      (r.gen ≠ s.mgmt.boot.gen → Makes (.e2eRequestArrival r) s (answer d r none)) ∧
      (r.gen = s.mgmt.boot.gen → badContext d r = true → Makes (.e2eRequestArrival r) s (answer d r none)) ∧
      (r.gen = s.mgmt.boot.gen → badContext d r = false →
        Makes (.e2eRequestArrival r) s (arrive d r) ∧
        ∀ n v, r.op = .write n v (2 ^ n - 1) → r.seq = (d.in_ r.src).next → (d.in_ r.src).waiting = [] → r.seq < 65536 →
          frameOk d r.addr = true → tierLost d d.isLost r.addr = false →
          let d1 := d.setIn r.src { d.in_ r.src with waiting := [r] }
          let d2 := physStore (recallLine (takeTag d1 (sliceAt r.addr)).2 (lineOf r.addr)) r.addr n v
          let d3 := answer d2 r (some 0)
          Makes (.e2eRequestArrival r) s (d3.setIn r.src
            { d3.in_ r.src with next := ((d3.in_ r.src).next + 1) % 65536, waiting := (d3.in_ r.src).waiting.filter fun x => x.seq != r.seq }))) ∧
    Makes (.receiptAcknowledgement dst seq) s
      (d.setIn dst { d.in_ dst with results := (d.in_ dst).results.filter fun x => x.1 != seq })

/-! ## Encoding (R129 to R141, R153 to R165) -/

/-- Decoding the slot of a well-formed instruction gives it back: no operand, modifier, guard or hint is lost, for every instruction and every value
the encoding admits. -/
def Obligations.DecodeAfterEncode : Prop := ∀ i : Instr, i.encodable = true → decode (encode i) = .ok i

/-- A slot that decodes is the encoding of a well-formed instruction, so no slot has two readings and no bit of it is ignored (R141); a literal slot, a
set bit 95, and an opcode above class C are no instruction (R129, R134, R153). -/
def Obligations.EncodeAfterDecode : Prop :=
  (∀ (w : SlotWord) (i : Instr), decode w = .ok i → i.encodable = true ∧ encode i = w) ∧
  ∀ w : SlotWord, (w.extractLsb' 0 12 = 0xFFF#12 ∧ w.extractLsb' 76 20 = 0#20 → decode w = .error .literalSlot) ∧
    (w.msb = true → ∃ x, decode w = .error x) ∧ (0xC00#12 < w.extractLsb' 0 12 &&& 0xF00#12 → ∃ x, decode w = .error x)

/-- Slots that the spec writes out, and what they stand for: one or more of every class; those of class 6 are put together from the tables of the
encoding (R129 to R139, R160). -/
def Obligations.DecodeExamples : Prop :=
  let c := Ctl.always
  let g (n : BitVec 9) : Operand := .file .g n
  let y (n : BitVec 9) : Operand := .file .y n
  decode 0x020010000000400002007001#96 = .ok (.add c .w64 .wrap (g 2) (g 1) (.imm 0x100)) ∧
  decode 0x063FC000000100000A00B106#96 = .ok (.fmaAcc ⟨3, true, true, 0, false, false⟩ .f32 .plain (g 10) (g 4) (.imm 0x3FC00)) ∧
  decode 0x03F0003410A0000014007108#96 = .ok (.fmaHor c .f32 .plain (g 20) (.ind 1 2 true) (.lit 0 3)) ∧
  decode 0x002000500000C00002407230#96 = .ok (.fmaAccPkt c .f32x8 true .plain (g 2) (g 3) (y 5)) ∧
  decode 0x020000000001000005007302#96 = .ok (.eshl c .e32 (g 5) (g 4) (.imm 0)) ∧
  decode 0x00E000000000800004407490#96 = .ok (.cvtPacket c .bf16x16 .f32x8 1 .plain (g 4) (g 2) .none) ∧
  decode 0x020000100000400002027500#96 = .ok (.shfl c .b32 .flip (g 2) (g 1) (.imm 1)) ∧
  decode 0x0040003100008400017F7600#96 = .ok (.plop3 c 0x7F (.file .p 1) (.file .p 2) (.file .p 3)) ∧
  decode 0x020007F00001840000007603#96 = .ok (.pset c (.file .p 0) (g 6) (.imm 0x7F)) ∧
  decode 0x00E0000800008E0000007610#96 = .ok (.racq c .none (.imm 2) .none) ∧
  decode 0x00E0000BFFFE4E0000007510#96 = .ok (.bra c .none (.imm 0xFFFF9) .none) ∧
  decode 0x020001008001800004007703#96 = .ok (.ld c .b64 (g 4) (y 6) (.imm 16)) ∧
  decode 0x0200001C00010000033D7822#96 = .ok (.atomGAdd c .rlx .sys .n64 (g 3) (.cbank 0 4) (.imm 1)) ∧
  decode 0x00E0000380000E0000F87900#96 = .ok (.fence c .acqrel .sys .none .none .none) ∧
  decode 0x00E000000001080002017A00#96 = .ok (.jpostCopy c true (.file .h 2) (g 4) .none) ∧
  decode 0x00E0000800014E0000007B10#96 = .ok (.trap c .none (.imm 5) .none) ∧
  decode 0x00E0000380000E0000007B11#96 = .ok (.tret c .none .none .none) ∧
  decode 0x0000000000008E0000007C01#96 = .ok (.semWaitGe c .none (g 2) (g 0))

/-! ## A step (R25, R28, R129, R130, R141, R282, R310, R351) -/

/-- A step runs the decoded instruction. On a compute core: where the head run's slot decodes, nothing is due first, the instruction is not held, and the
threads have no fault to take, the step is `exec` of it by those threads, after which nobody issues. On a control core: likewise for
the queue thread served. What the units do on their own follows. What is fetched at a PC is what `decode` reads from the three words there (R129, R130).
The model's choices in it: log 1, 16, 117. -/
def Obligations.StepRunsDecoded : Prop :=
  (∀ (s : State) (core gslot : Nat) (t : Team) (g : Group) (h : Thread) (i : Instr) (lits : AMap DWord) (w0 : Word) (d1 d2 : Dev)
      (rest : List Nat),
    let s1 := (takeMove s).2
    let d := settleBay s1.dev core (gslot % 2)
    (takeMove s).1 = .issue core gslot → s.mgmt.power = .active → s.mgmt.boot.state = .running →
    d.inSlot core gslot = some (t, g) → t.stat = .running → g.laneNo.isSome = true → dueEvent d core gslot g = none →
    g.headRun.head?.bind g.atLane? = some h → fetchFor d t h = (.instr i lits w0, d1) →
    ((Roles.ctlOf i).switch = false ∨ d1.outstanding t.id g.gid = false) →
    runWaits d1 t g lits (g.threads.filter fun k => g.headRun.contains k.lane) i = false →
    interlocked g i (g.threads.filter fun k => g.headRun.contains k.lane) = false →
    settleThreads d1 t g i w0.toNat g.headRun = (d2, rest) → rest ≠ [] →
      let all := g.headRun.length == (g.threads.filter fun k => k.st == .ready).length
      let d3 := d2.mapGroup t.id g.gid fun g =>
        let g := { g with runs := g.runs + 1, relief := if all then 0 else g.relief, cut := g.cut.map fun c => (c.1, c.2 - 1) }
        if (Roles.ctlOf i).yld then g.giveLane d2.cycle else g
      step s = settled (finish (exec i { s1 with dev := { d3 with cur := .run t.id g.gid rest lits w0 } }))) ∧
  (∀ (s : State) (cc q : Nat) (i : Instr) (lits : AMap DWord) (w0 : Word) (d1 d2 d3 : Dev),
    let s1 := (takeMove s).2
    (takeMove s).1 = .serve cc → s.mgmt.power = .active → s.mgmt.boot.state = .running →
    serviceOver s1.dev cc = false → serveNext s1.dev cc = (some q, d1) → startQueue d1 q = (true, d2) →
    (let v := d2.queue q
     fetch d2 v.ctx v.thread.imgBase v.thread.imgSlots v.thread.pc.toNat v.level true = (.instr i lits w0, d3)) →
      step s = settled (finish (exec i { s1 with dev := { d3 with cur := .queue q lits w0 } }))) ∧
  ∀ (d d1 : Dev) (ctx base slots pc level : Nat) (control : Bool) (w : SlotWord) (i : Instr),
    pc < slots → base % 256 = 0 → codeSlot d ctx base pc = (.ok w, d1) →
    (decode w = .ok i → (if control then queueAllows i = true else opcodeOf i / 256 ≠ 0xC) → (levelTwo i = true → 2 ≤ level) →
      litDistances i = [] → (∀ c d a b, i ≠ .rep c d a b) →
        fetch d ctx base slots pc level control = (.instr i [] (w.extractLsb' 0 32), d1)) ∧
    (∀ x, decode w = .error x → fetch d ctx base slots pc level control = (.illegal (w.toNat % 2 ^ 32), d1))

/-- No instruction and no event stops the machine, and no instruction changes a host register. A step stops only without power (R351); it takes the next
move: an event acts as `exec` of it, and otherwise only time passes (R347, R350).
The model's choices in it: log 1, 2, 89. -/
def Obligations.StepAnswers : Prop :=
  (∀ (i : Instr) (s : State), ∃ t, exec i s = .next t ∧ (Roles.isEvent i = false → t.mgmt = s.mgmt ∧ t.moves = s.moves)) ∧
  ∀ (s : State) (r : List Move),
    (∀ x, step s ≠ .refused x) ∧
    (s.mgmt.power ≠ .off → ∃ t, step s = .next t) ∧
    (∀ m, s.moves = m :: r → s.mgmt.power = .off → m ≠ .event .powerGood → step s = .fault .unpowered) ∧
    (∀ i, s.moves = .event i :: r → s.mgmt.power ≠ .off → Roles.isEvent i = true → step s = settled (exec i { s with moves := r })) ∧
    (∀ u : State, u.settled.moves = u.moves ∧ u.settled.mgmt.sems = u.mgmt.sems ∧ u.settled.mgmt.boot = u.mgmt.boot) ∧
    ∀ n, s.moves = .tick n :: r → s.mgmt.power ≠ .off →
      let d := passTime n s.dev
      step s = .next ({ s with moves := r, dev := d } : State).settled ∧ d.cycle = s.dev.cycle + n ∧ d.queues = s.dev.queues ∧
      (s.dev.migr = [] → sameMemory s.dev d) ∧
      (s.dev.slew = 0 → s.dev.half = false → s.dev.frac < 65536 → s.dev.nanos < 10 ^ 9 →
        (d.secs * 10 ^ 9 + d.nanos) * 65536 + d.frac = (s.dev.secs * 10 ^ 9 + s.dev.nanos) * 65536 + s.dev.frac + n * 16384 ∧
        d.frac < 65536 ∧ d.nanos < 10 ^ 9)

/-! ## Reset and invariants (R105, R322, R325, R326, R349, R351, R414) -/

/-- At reset: the boot is in Reset; the registers hold the values that the spec gives them; no context, queue or owner entry is valid, no semaphore is
held; every memory is in its canonical form; the bounds of the host registers hold.
The model's choices in it: log 5, 87. -/
def Obligations.ResetState : Prop :=
  let m := State.reset.mgmt
  let d := State.reset.dev
  m.boot.state = .reset ∧ m.k = 4 ∧ m.wdLog2 = 32 ∧ m.share = 520000 ∧ (∀ die, m.budget die = (20000, 260000)) ∧
  m.migCfg = 0x0000004000100008#64 ∧ m.timeCtl = 0x0000000A00000000#64 ∧ (∀ n, (m.sem n).held = false) ∧
  (∀ c k, ctxWord d c k = 0#64) ∧ (∀ q, (d.queue q).enabled = false) ∧ (∀ k, ownerEntry d k = 0) ∧
  (∀ stack entry, entryWord d stack entry 0 = 0) ∧ d.teams = [] ∧ d.MemoriesWf ∧ m.Bounded

/-- No step, from any state, takes a host register out of the bounds that the spec gives it: K, the watchdog limit, the power limit and each reserve
within its budget, period and budget of migration, the codes of the time controls. -/
def Obligations.BoundsKept : Prop := ∀ s t : State, s.mgmt.Bounded → step s = .next t → t.mgmt.Bounded
end

