-- ==== Sys2Proof/Laws/AMap.lean ====
section
/-! SUPPORT. Laws of the sorted association lists: reading after writing, and the canonical form kept by every write. -/

namespace Sys2Proof.Machine

variable {α : Type}

@[simp] theorem AMap.get_nil (d : α) (k : Nat) : AMap.get d [] k = d := rfl

theorem AMap.get_drop_eq (d : α) (m : AMap α) (k : Nat) : AMap.get d (AMap.drop m k) k = d := by
  induction m with
  | nil => rfl
  | cons e r ih =>
    unfold AMap.drop at *
    by_cases h : e.1 = k <;> simp_all [AMap.get]

theorem AMap.get_drop_ne (d : α) (m : AMap α) (k j : Nat) (h : j ≠ k) : AMap.get d (AMap.drop m k) j = AMap.get d m j := by
  induction m with
  | nil => rfl
  | cons e r ih =>
    unfold AMap.drop at *
    by_cases he : e.1 = k
    · have : ¬ e.1 = j := fun h' => h (h'.symm.trans he)
      simp_all [AMap.get]
    · simp_all [AMap.get]

/-- No key of a map is `k`. -/
theorem AMap.drop_free (m : AMap α) (k : Nat) : ∀ e ∈ AMap.drop m k, e.1 ≠ k := by
  intro e he
  simpa [AMap.drop] using (List.mem_filter.mp he).2

theorem AMap.get_insert_eq (d : α) (m : AMap α) (k : Nat) (v : α) (h : ∀ e ∈ m, e.1 ≠ k) :
    AMap.get d (AMap.insert m k v) k = v := by
  induction m with
  | nil => simp [AMap.insert, AMap.get]
  | cons e r ih =>
    have he := h e (List.mem_cons_self ..)
    have hr := ih fun x hx => h x (List.mem_cons_of_mem _ hx)
    unfold AMap.insert
    split <;> simp_all [AMap.get]

theorem AMap.get_insert_ne (d : α) (m : AMap α) (k j : Nat) (v : α) (h : j ≠ k) :
    AMap.get d (AMap.insert m k v) j = AMap.get d m j := by
  induction m with
  | nil => simp [AMap.insert, AMap.get, h.symm]
  | cons e r ih =>
    unfold AMap.insert
    split <;> simp_all [AMap.get, h.symm]

/-- Reading the key just written. -/
@[simp] theorem AMap.get_set_eq [DecidableEq α] (d : α) (m : AMap α) (k : Nat) (v : α) : AMap.get d (AMap.set d m k v) k = v := by
  unfold AMap.set
  split
  · rename_i h
    rw [AMap.get_drop_eq, h]
  · exact AMap.get_insert_eq d _ k v (AMap.drop_free m k)

/-- Reading any other key. -/
theorem AMap.get_set_ne [DecidableEq α] (d : α) (m : AMap α) (k j : Nat) (v : α) (h : j ≠ k) :
    AMap.get d (AMap.set d m k v) j = AMap.get d m j := by
  unfold AMap.set
  split
  · exact AMap.get_drop_ne d m k j h
  · rw [AMap.get_insert_ne d _ k j v h, AMap.get_drop_ne d m k j h]

/-- A write as one equation. -/
theorem AMap.get_set [DecidableEq α] (d : α) (m : AMap α) (k j : Nat) (v : α) :
    AMap.get d (AMap.set d m k v) j = if j = k then v else AMap.get d m j := by
  split
  · rename_i h
    rw [h, AMap.get_set_eq]
  · rename_i h
    exact AMap.get_set_ne d m k j v h

theorem AMap.above_drop (m : AMap α) (k j : Nat) (h : AMap.above j m = true) : AMap.above j (AMap.drop m k) = true := by
  simp only [AMap.above, AMap.drop, List.all_eq_true, List.mem_filter] at *
  exact fun e he => h e he.1

theorem AMap.wf_drop [DecidableEq α] (d : α) (m : AMap α) (k : Nat) (h : AMap.wf d m = true) : AMap.wf d (AMap.drop m k) = true := by
  induction m with
  | nil => rfl
  | cons e r ih =>
    simp only [AMap.wf, Bool.and_eq_true, decide_eq_true_eq] at h
    by_cases he : e.1 = k
    · simpa [AMap.drop, he] using ih h.2
    · have : AMap.drop (e :: r) k = e :: AMap.drop r k := by simp [AMap.drop, he]
      rw [this]
      simp only [AMap.wf, Bool.and_eq_true, decide_eq_true_eq]
      exact ⟨⟨h.1.1, AMap.above_drop r k e.1 h.1.2⟩, ih h.2⟩

theorem AMap.above_insert (m : AMap α) (k j : Nat) (v : α) (h : AMap.above j m = true) (hk : j < k) :
    AMap.above j (AMap.insert m k v) = true := by
  induction m with
  | nil => simp [AMap.insert, AMap.above, hk]
  | cons e r ih =>
    unfold AMap.insert
    simp only [AMap.above, List.all_cons, Bool.and_eq_true, decide_eq_true_eq] at h
    split
    · simp only [AMap.above, List.all_cons, Bool.and_eq_true, decide_eq_true_eq]
      exact ⟨hk, h.1, h.2⟩
    · simp only [AMap.above, List.all_cons, Bool.and_eq_true, decide_eq_true_eq]
      exact ⟨h.1, ih h.2⟩

theorem AMap.above_lt (m : AMap α) (j k : Nat) (h : AMap.above k m = true) (hj : j < k) : AMap.above j m = true := by
  simp only [AMap.above, List.all_eq_true, decide_eq_true_eq] at *
  exact fun e he => Nat.lt_trans hj (h e he)

theorem AMap.wf_insert [DecidableEq α] (d : α) (m : AMap α) (k : Nat) (v : α) (hv : v ≠ d) (hk : ∀ e ∈ m, e.1 ≠ k)
    (h : AMap.wf d m = true) : AMap.wf d (AMap.insert m k v) = true := by
  induction m with
  | nil => simp [AMap.insert, AMap.wf, AMap.above, hv]
  | cons e r ih =>
    have he := hk e (List.mem_cons_self ..)
    simp only [AMap.wf, Bool.and_eq_true, decide_eq_true_eq] at h
    unfold AMap.insert
    split
    · rename_i hlt
      simp only [AMap.wf, Bool.and_eq_true, decide_eq_true_eq]
      refine ⟨⟨hv, ?_⟩, h⟩
      simp only [AMap.above, List.all_cons, Bool.and_eq_true, decide_eq_true_eq]
      exact ⟨hlt, AMap.above_lt r k e.1 h.1.2 hlt⟩
    · rename_i hlt
      simp only [AMap.wf, Bool.and_eq_true, decide_eq_true_eq]
      exact ⟨⟨h.1.1, AMap.above_insert r k e.1 v h.1.2 (by omega)⟩, ih (fun x hx => hk x (List.mem_cons_of_mem _ hx)) h.2⟩

/-- Every write keeps the canonical form. -/
theorem AMap.wf_set [DecidableEq α] (d : α) (m : AMap α) (k : Nat) (v : α) (h : AMap.wf d m = true) :
    AMap.wf d (AMap.set d m k v) = true := by
  unfold AMap.set
  split
  · exact AMap.wf_drop d m k h
  · rename_i hv
    exact AMap.wf_insert d _ k v hv (AMap.drop_free m k) (AMap.wf_drop d m k h)

/-- Two maps in canonical form that read alike are equal data. -/
theorem AMap.ext_of_wf [DecidableEq α] (d : α) : ∀ m n : AMap α, AMap.wf d m = true → AMap.wf d n = true →
    (∀ k, AMap.get d m k = AMap.get d n k) → m = n := by
  have low : ∀ (m : AMap α) (k : Nat), AMap.above k m = true → AMap.get d m k = d := by
    intro m
    induction m with
    | nil => intro k _; rfl
    | cons e r ih =>
      intro k hk
      simp only [AMap.above, List.all_cons, Bool.and_eq_true, decide_eq_true_eq] at hk
      have hne : ¬ e.1 = k := by omega
      simp only [AMap.get, hne, if_false]
      exact ih k hk.2
  intro m
  induction m with
  | nil =>
    intro n _ hn hk
    cases n with
    | nil => rfl
    | cons e r =>
      simp only [AMap.wf, Bool.and_eq_true, decide_eq_true_eq] at hn
      have := hk e.1
      simp only [AMap.get, if_true] at this
      exact absurd this.symm hn.1.1
  | cons e r ih =>
    intro n hm hn hk
    simp only [AMap.wf, Bool.and_eq_true, decide_eq_true_eq] at hm
    cases n with
    | nil =>
      have := hk e.1
      simp only [AMap.get, if_true] at this
      exact absurd this hm.1.1
    | cons f s =>
      simp only [AMap.wf, Bool.and_eq_true, decide_eq_true_eq] at hn
      have hef : e.1 = f.1 := by
        rcases Nat.lt_trichotomy e.1 f.1 with hlt | heq | hgt
        · have h1 := hk e.1
          have h2 : AMap.get d (f :: s) e.1 = d := by
            refine low _ _ ?_
            simp only [AMap.above, List.all_cons, Bool.and_eq_true, decide_eq_true_eq]
            exact ⟨hlt, AMap.above_lt s e.1 f.1 hn.1.2 hlt⟩
          rw [h2] at h1
          simp only [AMap.get, if_true] at h1
          exact absurd h1 hm.1.1
        · exact heq
        · have h1 := hk f.1
          have h2 : AMap.get d (e :: r) f.1 = d := by
            refine low _ _ ?_
            simp only [AMap.above, List.all_cons, Bool.and_eq_true, decide_eq_true_eq]
            exact ⟨hgt, AMap.above_lt r f.1 e.1 hm.1.2 hgt⟩
          rw [h2] at h1
          simp only [AMap.get, if_true] at h1
          exact absurd h1.symm hn.1.1
      have hv : e.2 = f.2 := by
        have h1 := hk e.1
        simp only [AMap.get, if_true, hef] at h1
        exact h1
      have hrest : r = s := by
        refine ih s hm.2 hn.2 fun k => ?_
        have h1 := hk k
        by_cases hke : e.1 = k
        · rw [low r k (hke ▸ hm.1.2), low s k (hke ▸ hef ▸ hn.1.2)]
        · have hkf : ¬ f.1 = k := fun h => hke (hef.trans h)
          simpa [AMap.get, hke, hkf] using h1
      rw [hrest]
      congr 1
      exact Prod.ext hef hv

end Sys2Proof.Machine
end

