-- ==== Sys2Proof/Laws/Memory.lean ====
section
/-! SUPPORT. Laws of the memories: what a byte reads as after each operation, and the canonical form kept by each. -/

namespace Sys2Proof.Machine

@[simp] theorem Memory.wf_nil : Memory.wf [] = true := rfl

/-- A byte after a write of one byte. -/
theorem Memory.read_write (m : Memory) (a b : Nat) (v : Byte) :
    Memory.read (Memory.write m a v) b = if b = a then v else Memory.read m b :=
  AMap.get_set Memory.unlisted m a b v

theorem Memory.read_write_eq (m : Memory) (a : Nat) (v : Byte) : Memory.read (Memory.write m a v) a = v := by
  simp [Memory.read_write]

theorem Memory.read_write_ne (m : Memory) (a b : Nat) (v : Byte) (h : b ≠ a) : Memory.read (Memory.write m a v) b = Memory.read m b := by
  simp [Memory.read_write, h]

theorem Memory.wf_write (m : Memory) (a : Nat) (v : Byte) (h : Memory.wf m = true) : Memory.wf (Memory.write m a v) = true :=
  AMap.wf_set Memory.unlisted m a v h

/-- A byte outside the written ones. -/
theorem Memory.read_writeN_out (n : Nat) : ∀ (m : Memory) (a v b : Nat), b < a ∨ a + n ≤ b →
    Memory.read (Memory.writeN m a n v) b = Memory.read m b := by
  induction n with
  | zero => intro m a v b _; rfl
  | succ n ih =>
    intro m a v b h
    rw [Memory.writeN, ih _ _ _ _ (by omega), Memory.read_write_ne _ _ _ _ (by omega)]

/-- A byte among the written ones: byte k of the value. -/
theorem Memory.read_writeN_in (n : Nat) : ∀ (m : Memory) (a v k : Nat), k < n →
    Memory.read (Memory.writeN m a n v) (a + k) = BitVec.ofNat 8 (v / 256 ^ k) := by
  induction n with
  | zero => intro m a v k h; omega
  | succ n ih =>
    intro m a v k h
    rw [Memory.writeN]
    cases k with
    | zero =>
      rw [Memory.read_writeN_out _ _ _ _ _ (by omega)]
      simp [Memory.read_write_eq]
    | succ k =>
      have h1 : a + (k + 1) = a + 1 + k := by omega
      rw [h1, ih _ _ _ _ (by omega), Nat.div_div_eq_div_mul, Nat.pow_succ, Nat.mul_comm 256]

theorem Memory.wf_writeN (n : Nat) : ∀ (m : Memory) (a v : Nat), Memory.wf m = true → Memory.wf (Memory.writeN m a n v) = true := by
  induction n with
  | zero => intro m a v h; exact h
  | succ n ih => intro m a v h; exact ih _ _ _ (Memory.wf_write _ _ _ h)

/-- A value written and read back, in its low `n` bytes. -/
theorem Memory.readN_writeN (n : Nat) : ∀ (m : Memory) (a v : Nat), Memory.readN (Memory.writeN m a n v) a n = v % 256 ^ n := by
  induction n with
  | zero => intro m a v; simp [Memory.readN, Nat.mod_one]
  | succ n ih =>
    intro m a v
    rw [Memory.writeN, Memory.readN, ih, Memory.read_writeN_out _ _ _ _ _ (by omega), Memory.read_write_eq]
    rw [Nat.pow_succ, Nat.mul_comm (256 ^ n) 256, Nat.mod_mul, BitVec.toNat_ofNat]

theorem Memory.wf_writeBytes (l : List Byte) : ∀ (m : Memory) (a : Nat), Memory.wf m = true → Memory.wf (Memory.writeBytes m a l) = true := by
  induction l with
  | nil => intro m a h; exact h
  | cons b r ih => intro m a h; exact ih _ _ (Memory.wf_write _ _ _ h)

theorem Memory.read_writeBytes_out (l : List Byte) : ∀ (m : Memory) (a b : Nat), b < a ∨ a + l.length ≤ b →
    Memory.read (Memory.writeBytes m a l) b = Memory.read m b := by
  induction l with
  | nil => intro m a b _; rfl
  | cons x r ih =>
    intro m a b h
    rw [Memory.writeBytes, ih _ _ _ (by simp only [List.length_cons] at h; omega),
      Memory.read_write_ne _ _ _ _ (by simp only [List.length_cons] at h; omega)]

theorem Memory.wf_filter (p : Nat × Byte → Bool) : ∀ m : Memory, Memory.wf m = true → Memory.wf (m.filter p) = true := by
  intro m
  induction m with
  | nil => intro _; rfl
  | cons e r ih =>
    intro h
    simp only [Memory.wf, AMap.wf, Bool.and_eq_true, decide_eq_true_eq] at h
    by_cases hp : p e = true
    · have hr := ih (by simpa [Memory.wf] using h.2)
      simp only [List.filter_cons, hp, if_true, Memory.wf, AMap.wf, Bool.and_eq_true, decide_eq_true_eq]
      refine ⟨⟨h.1.1, ?_⟩, hr⟩
      have := h.1.2
      simp only [AMap.above, List.all_eq_true, List.mem_filter] at *
      exact fun x hx => this x hx.1
    · simpa [List.filter_cons, hp] using ih (by simpa [Memory.wf] using h.2)

/-- Clearing keeps the canonical form. -/
theorem Memory.wf_clear (m : Memory) (a n : Nat) (h : Memory.wf m = true) : Memory.wf (Memory.clear m a n) = true :=
  Memory.wf_filter _ m h

theorem Memory.read_filter (p : Nat → Bool) (m : Memory) (b : Nat) :
    Memory.read (m.filter fun c => p c.1) b = if p b then Memory.read m b else Memory.unlisted := by
  induction m with
  | nil => simp [Memory.read]
  | cons e r ih =>
    simp only [Memory.read, AMap.get] at *
    by_cases he : p e.1 = true
    · simp only [List.filter_cons, he, if_true, AMap.get]
      by_cases hb : e.1 = b
      · simp [hb, hb ▸ he]
      · simp only [hb, if_false, ih]
    · simp only [List.filter_cons, he]
      by_cases hb : e.1 = b
      · subst hb
        simp only [he] at ih
        simpa [he] using ih
      · simp only [hb, if_false]
        exact ih

/-- A byte after a clearing. -/
theorem Memory.read_clear (m : Memory) (a n b : Nat) :
    Memory.read (Memory.clear m a n) b = if b < a ∨ a + n ≤ b then Memory.read m b else 0 := by
  have := Memory.read_filter (fun x => x < a || a + n ≤ x) m b
  simpa [Memory.clear, Memory.unlisted] using this

/-- The length of a number's bytes, and the number they stand for. -/
@[simp] theorem toBytes_length (n : Nat) : ∀ v, (toBytes n v).length = n := by
  induction n with
  | zero => intro v; rfl
  | succ n ih => intro v; simp [toBytes, ih]

theorem ofBytes_toBytes (n : Nat) : ∀ v, ofBytes (toBytes n v) = v % 256 ^ n := by
  induction n with
  | zero => intro v; simp [toBytes, ofBytes, Nat.mod_one]
  | succ n ih =>
    intro v
    rw [toBytes, ofBytes, ih, Nat.pow_succ, Nat.mul_comm (256 ^ n) 256, Nat.mod_mul, BitVec.toNat_ofNat]

end Sys2Proof.Machine
end

