-- ==== Sys2Proof/Laws/PerInstr.lean ====
section
/-! SUPPORT. Opcode and modifier byte of every instruction, constructor by constructor. -/

namespace Sys2Proof.Laws.Encoding

open Sys2Proof

/-- An event has no opcode; an instruction's opcode and modifier byte, with its operands, are read as that instruction (R138, R153 to R162). -/
def Statement (i : Instr) : Prop :=
  (Roles.isEvent i = true ∧ opcodeOf i = 0xFFF) ∨
  (Roles.isEvent i = false ∧
    instrOf (opcodeOf i) (modOf i) (Roles.ctlOf i) (Roles.opsOf i).1 (Roles.opsOf i).2.1 (Roles.opsOf i).2.2 = some i)

theorem fp_lt (m : FpMod) : m.code < 64 := by
  rcases m with ⟨a, b, c, r⟩; cases a <;> cases b <;> cases c <;> cases r <;> decide

theorem fp_ofCode (m : FpMod) : FpMod.ofCode m.code = some m := by
  rcases m with ⟨a, b, c, r⟩; cases a <;> cases b <;> cases c <;> cases r <;> rfl

/-- A variant above bit 5 does not show in the fields of R66. -/
theorem fp_variant (k : Nat) (m : FpMod) : FpMod.ofCode (64 * k + m.code) = some m := by
  have h := fp_ofCode m
  unfold FpMod.ofCode at h ⊢
  rw [show (64 * k + m.code) % 8 = m.code % 8 by omega, show (64 * k + m.code) / 32 % 2 = m.code / 32 % 2 by omega,
    show (64 * k + m.code) / 16 % 2 = m.code / 16 % 2 by omega, show (64 * k + m.code) / 8 % 2 = m.code / 8 % 2 by omega]
  exact h

theorem fp_div (k : Nat) (m : FpMod) : (64 * k + m.code) / 64 = k := by have := fp_lt m; omega

theorem fpMod_code (m : FpMod) (f : FpMod → Instr) : fpMod m.code 0 f = some (f m) := by
  have := fp_lt m
  rw [fpMod, if_pos (by omega), fp_ofCode]; rfl

theorem fpModBit_code (l : Bool) (m : FpMod) (f : Bool → FpMod → Instr) : fpModBit (64 * b2n l + m.code) f = some (f l m) := by
  rw [fpModBit, fp_div, fp_variant]; cases l <;> rfl

theorem sfu_code (v : SfuShape) (m : FpMod) (f : SfuShape → FpMod → Instr) :
    ((SfuShape.ofCode ((64 * v.code + m.code) / 64)).bind fun v' => (FpMod.ofCode (64 * v.code + m.code)).map (f v')) = some (f v m) := by
  rw [fp_div, fp_variant]; cases v <;> rfl

theorem part_code (p : BitVec 2) (m : FpMod) (f : BitVec 2 → FpMod → Instr) :
    ((FpMod.ofCode (64 * p.toNat + m.code)).map fun q => f (BitVec.ofNat 2 ((64 * p.toNat + m.code) / 64)) q) = some (f p m) := by
  rw [fp_div, fp_variant, BitVec.ofNat_toNat, BitVec.setWidth_eq]; rfl

theorem memMod_code (o : MOrder) (s : Scope) (t : MType) (f : MOrder → Scope → MType → Instr) :
    memMod (64 * o.code + 8 * s.code + t.code) f = some (f o s t) := by
  cases o <;> cases s <;> cases t <;> rfl

theorem ordMod_code (o : MOrder) (s : Scope) (f : MOrder → Scope → Instr) : ordMod (64 * o.code + 8 * s.code) f = some (f o s) := by
  cases o <;> cases s <;> rfl

theorem condMod_code (z : Bool) (q : Cond) (f : Bool → Cond → Instr) : condMod (8 * b2n z + q.code) f = some (f z q) := by
  cases z <;> cases q <;> rfl

theorem tab_code (v : Byte) (f : Byte → Instr) : some (f (BitVec.ofNat 8 v.toNat)) = some (f v) := by
  rw [BitVec.ofNat_toNat, BitVec.setWidth_eq]

theorem three_code (k : BitVec 3) (f : BitVec 3 → Instr) :
    (if k.toNat < 8 then some (f (BitVec.ofNat 3 k.toNat)) else none) = some (f k) := by
  rw [if_pos k.isLt, BitVec.ofNat_toNat, BitVec.setWidth_eq]

theorem sel_code (np : Bool) (k : BitVec 3) (f : Bool → BitVec 3 → Instr) :
    (if 8 * b2n np + k.toNat < 16 then some (f ((8 * b2n np + k.toNat) / 8 == 1) (BitVec.ofNat 3 (8 * b2n np + k.toNat))) else none)
      = some (f np k) := by
  have hk : k.toNat < 8 := k.isLt
  have h1 : BitVec.ofNat 3 (8 * b2n np + k.toNat) = k := by
    apply BitVec.eq_of_toNat_eq; rw [BitVec.toNat_ofNat]; omega
  have h2 : (8 * b2n np + k.toNat) / 8 = b2n np := by omega
  have h3 : b2n np ≤ 1 := by cases np <;> decide
  rw [if_pos (by omega), h1, h2]
  cases np <;> rfl

theorem stex_code (v : StexMode) (f : StexMode → Instr) : (StexMode.ofCode v.code).map f = some (f v) := by
  cases v with
  | spec => rfl
  | up => rfl
  | mueller p q =>
    have hp : p.toNat < 4 := p.isLt
    have hq : q.toNat < 4 := q.isLt
    have h1 : BitVec.ofNat 2 ((0x80 + 4 * p.toNat + q.toNat) / 4) = p := by
      apply BitVec.eq_of_toNat_eq; rw [BitVec.toNat_ofNat]; omega
    have h2 : BitVec.ofNat 2 (0x80 + 4 * p.toNat + q.toNat) = q := by
      apply BitVec.eq_of_toNat_eq; rw [BitVec.toNat_ofNat]; omega
    have h : StexMode.ofCode (0x80 + 4 * p.toNat + q.toNat) = some (.mueller p q) := by
      unfold StexMode.ofCode
      rw [if_neg (by omega), if_neg (by omega), if_pos (by omega), h1, h2]
    exact congrArg (Option.map f) h

theorem add (c : Ctl) (w : IWidth) (sat : ISat) (d a b : Operand) : Statement (.add c w sat d a b) := .inr ⟨rfl, by
  show instrOf (0x000 + w.code) (sat.code) c d a b = _; cases w <;> cases sat <;> exact rfl⟩
theorem sub (c : Ctl) (w : IWidth) (sat : ISat) (d a b : Operand) : Statement (.sub c w sat d a b) := .inr ⟨rfl, by
  show instrOf (0x004 + w.code) (sat.code) c d a b = _; cases w <;> cases sat <;> exact rfl⟩
theorem mul (c : Ctl) (w : IWidth) (d a b : Operand) : Statement (.mul c w d a b) := .inr ⟨rfl, by
  show instrOf (0x008 + w.code) (0) c d a b = _; cases w <;> exact rfl⟩
theorem mulHiI (c : Ctl) (w : IWidth) (d a b : Operand) : Statement (.mulHiI c w d a b) := .inr ⟨rfl, by
  show instrOf (0x00C + w.code) (0) c d a b = _; cases w <;> exact rfl⟩
theorem mulHiN (c : Ctl) (w : IWidth) (d a b : Operand) : Statement (.mulHiN c w d a b) := .inr ⟨rfl, by
  show instrOf (0x010 + w.code) (0) c d a b = _; cases w <;> exact rfl⟩
theorem mad (c : Ctl) (w : IWidth) (d a b : Operand) : Statement (.mad c w d a b) := .inr ⟨rfl, by
  show instrOf (0x014 + w.code) (0) c d a b = _; cases w <;> exact rfl⟩
theorem minI (c : Ctl) (w : IWidth) (d a b : Operand) : Statement (.minI c w d a b) := .inr ⟨rfl, by
  show instrOf (0x018 + w.code) (0) c d a b = _; cases w <;> exact rfl⟩
theorem minN (c : Ctl) (w : IWidth) (d a b : Operand) : Statement (.minN c w d a b) := .inr ⟨rfl, by
  show instrOf (0x01C + w.code) (0) c d a b = _; cases w <;> exact rfl⟩
theorem maxI (c : Ctl) (w : IWidth) (d a b : Operand) : Statement (.maxI c w d a b) := .inr ⟨rfl, by
  show instrOf (0x020 + w.code) (0) c d a b = _; cases w <;> exact rfl⟩
theorem maxN (c : Ctl) (w : IWidth) (d a b : Operand) : Statement (.maxN c w d a b) := .inr ⟨rfl, by
  show instrOf (0x024 + w.code) (0) c d a b = _; cases w <;> exact rfl⟩
theorem shl (c : Ctl) (w : IWidth) (d a b : Operand) : Statement (.shl c w d a b) := .inr ⟨rfl, by
  show instrOf (0x028 + w.code) (0) c d a b = _; cases w <;> exact rfl⟩
theorem shrN (c : Ctl) (w : IWidth) (d a b : Operand) : Statement (.shrN c w d a b) := .inr ⟨rfl, by
  show instrOf (0x02C + w.code) (0) c d a b = _; cases w <;> exact rfl⟩
theorem shrI (c : Ctl) (w : IWidth) (d a b : Operand) : Statement (.shrI c w d a b) := .inr ⟨rfl, by
  show instrOf (0x030 + w.code) (0) c d a b = _; cases w <;> exact rfl⟩
theorem rol (c : Ctl) (w : IWidth) (d a b : Operand) : Statement (.rol c w d a b) := .inr ⟨rfl, by
  show instrOf (0x034 + w.code) (0) c d a b = _; cases w <;> exact rfl⟩
theorem lop3 (c : Ctl) (w : IWidth) (tab : Byte) (d a b : Operand) : Statement (.lop3 c w tab d a b) := .inr ⟨rfl, by
  show instrOf (0x038 + w.code) (tab.toNat) c d a b = _; cases w <;> exact tab_code tab (.lop3 c _ · d a b)⟩
theorem popc (c : Ctl) (w : IWidth) (d a b : Operand) : Statement (.popc c w d a b) := .inr ⟨rfl, by
  show instrOf (0x03C + w.code) (0) c d a b = _; cases w <;> exact rfl⟩
theorem clz (c : Ctl) (w : IWidth) (d a b : Operand) : Statement (.clz c w d a b) := .inr ⟨rfl, by
  show instrOf (0x040 + w.code) (0) c d a b = _; cases w <;> exact rfl⟩
theorem ctz (c : Ctl) (w : IWidth) (d a b : Operand) : Statement (.ctz c w d a b) := .inr ⟨rfl, by
  show instrOf (0x044 + w.code) (0) c d a b = _; cases w <;> exact rfl⟩
theorem brev (c : Ctl) (w : IWidth) (d a b : Operand) : Statement (.brev c w d a b) := .inr ⟨rfl, by
  show instrOf (0x048 + w.code) (0) c d a b = _; cases w <;> exact rfl⟩
theorem bfeN (c : Ctl) (w : IWidth) (d a b : Operand) : Statement (.bfeN c w d a b) := .inr ⟨rfl, by
  show instrOf (0x04C + w.code) (0) c d a b = _; cases w <;> exact rfl⟩
theorem bfeI (c : Ctl) (w : IWidth) (d a b : Operand) : Statement (.bfeI c w d a b) := .inr ⟨rfl, by
  show instrOf (0x050 + w.code) (0) c d a b = _; cases w <;> exact rfl⟩
theorem bfi (c : Ctl) (w : IWidth) (d a b : Operand) : Statement (.bfi c w d a b) := .inr ⟨rfl, by
  show instrOf (0x054 + w.code) (0) c d a b = _; cases w <;> exact rfl⟩
theorem lea (c : Ctl) (w : IWidth) (k : BitVec 3) (d a b : Operand) : Statement (.lea c w k d a b) := .inr ⟨rfl, by
  show instrOf (0x058 + w.code) (k.toNat) c d a b = _; cases w <;> exact three_code k (.lea c _ · d a b)⟩
theorem cmpI (c : Ctl) (w : IWidth) (cond : Cond) (d a b : Operand) : Statement (.cmpI c w cond d a b) := .inr ⟨rfl, by
  show instrOf (0x05C + w.code) (cond.code) c d a b = _; cases w <;> cases cond <;> exact rfl⟩
theorem cmpN (c : Ctl) (w : IWidth) (cond : Cond) (d a b : Operand) : Statement (.cmpN c w cond d a b) := .inr ⟨rfl, by
  show instrOf (0x060 + w.code) (cond.code) c d a b = _; cases w <;> cases cond <;> exact rfl⟩
theorem sel (c : Ctl) (w : IWidth) (np : Bool) (k : BitVec 3) (d a b : Operand) : Statement (.sel c w np k d a b) := .inr ⟨rfl, by
  show instrOf (0x064 + w.code) (8 * b2n np + k.toNat) c d a b = _; cases w <;> exact sel_code np k (.sel c _ · · d a b)⟩
theorem mov (c : Ctl) (w : IWidth) (d a b : Operand) : Statement (.mov c w d a b) := .inr ⟨rfl, by
  show instrOf (0x068 + w.code) (0) c d a b = _; cases w <;> exact rfl⟩
theorem addFp (c : Ctl) (fmt : FFmt) (m : FpMod) (d a b : Operand) : Statement (.addFp c fmt m d a b) := .inr ⟨rfl, by
  show instrOf (0x100 + fmt.code) (m.code) c d a b = _; cases fmt <;> exact fpMod_code m (.addFp c _ · d a b)⟩
theorem subFp (c : Ctl) (fmt : FFmt) (m : FpMod) (d a b : Operand) : Statement (.subFp c fmt m d a b) := .inr ⟨rfl, by
  show instrOf (0x102 + fmt.code) (m.code) c d a b = _; cases fmt <;> exact fpMod_code m (.subFp c _ · d a b)⟩
theorem mulFp (c : Ctl) (fmt : FFmt) (m : FpMod) (d a b : Operand) : Statement (.mulFp c fmt m d a b) := .inr ⟨rfl, by
  show instrOf (0x104 + fmt.code) (m.code) c d a b = _; cases fmt <;> exact fpMod_code m (.mulFp c _ · d a b)⟩
theorem fmaAcc (c : Ctl) (fmt : FFmt) (m : FpMod) (d a b : Operand) : Statement (.fmaAcc c fmt m d a b) := .inr ⟨rfl, by
  show instrOf (0x106 + fmt.code) (m.code) c d a b = _; cases fmt <;> exact fpMod_code m (.fmaAcc c _ · d a b)⟩
theorem fmaHor (c : Ctl) (fmt : FFmt) (m : FpMod) (d a b : Operand) : Statement (.fmaHor c fmt m d a b) := .inr ⟨rfl, by
  show instrOf (0x108 + fmt.code) (m.code) c d a b = _; cases fmt <;> exact fpMod_code m (.fmaHor c _ · d a b)⟩
theorem minFp (c : Ctl) (ftzi : Bool) (d a b : Operand) : Statement (.minFp c ftzi d a b) := .inr ⟨rfl, by
  show instrOf (0x10A) (8 * b2n ftzi) c d a b = _; cases ftzi <;> exact rfl⟩
theorem maxFp (c : Ctl) (ftzi : Bool) (d a b : Operand) : Statement (.maxFp c ftzi d a b) := .inr ⟨rfl, by
  show instrOf (0x10C) (8 * b2n ftzi) c d a b = _; cases ftzi <;> exact rfl⟩
theorem cmpFp (c : Ctl) (fmt : FFmt) (ftzi : Bool) (cond : Cond) (d a b : Operand) : Statement (.cmpFp c fmt ftzi cond d a b) := .inr ⟨rfl, by
  show instrOf (0x10E + fmt.code) (8 * b2n ftzi + cond.code) c d a b = _; cases fmt <;> exact condMod_code ftzi cond (.cmpFp c _ · · d a b)⟩
theorem classFp (c : Ctl) (d a b : Operand) : Statement (.classFp c d a b) := .inr ⟨rfl, by
  show instrOf (0x110) (0) c d a b = _; exact rfl⟩
theorem addPkt (c : Ctl) (sh : Shape) (lam : Bool) (m : FpMod) (d a b : Operand) : Statement (.addPkt c sh lam m d a b) := .inr ⟨rfl, by
  show instrOf (0x200 + sh.code) (64 * b2n lam + m.code) c d a b = _; cases sh <;> exact fpModBit_code lam m (.addPkt c _ · · d a b)⟩
theorem subPkt (c : Ctl) (sh : Shape) (lam : Bool) (m : FpMod) (d a b : Operand) : Statement (.subPkt c sh lam m d a b) := .inr ⟨rfl, by
  show instrOf (0x210 + sh.code) (64 * b2n lam + m.code) c d a b = _; cases sh <;> exact fpModBit_code lam m (.subPkt c _ · · d a b)⟩
theorem mulPkt (c : Ctl) (sh : Shape) (lam : Bool) (m : FpMod) (d a b : Operand) : Statement (.mulPkt c sh lam m d a b) := .inr ⟨rfl, by
  show instrOf (0x220 + sh.code) (64 * b2n lam + m.code) c d a b = _; cases sh <;> exact fpModBit_code lam m (.mulPkt c _ · · d a b)⟩
theorem fmaAccPkt (c : Ctl) (sh : Shape) (lam : Bool) (m : FpMod) (d a b : Operand) : Statement (.fmaAccPkt c sh lam m d a b) := .inr ⟨rfl, by
  show instrOf (0x230 + sh.code) (64 * b2n lam + m.code) c d a b = _; cases sh <;> exact fpModBit_code lam m (.fmaAccPkt c _ · · d a b)⟩
theorem fmaHorPkt (c : Ctl) (sh : Shape) (lam : Bool) (m : FpMod) (d a b : Operand) : Statement (.fmaHorPkt c sh lam m d a b) := .inr ⟨rfl, by
  show instrOf (0x240 + sh.code) (64 * b2n lam + m.code) c d a b = _; cases sh <;> exact fpModBit_code lam m (.fmaHorPkt c _ · · d a b)⟩
theorem minPkt (c : Ctl) (sh : Shape) (lam : Bool) (m : FpMod) (d a b : Operand) : Statement (.minPkt c sh lam m d a b) := .inr ⟨rfl, by
  show instrOf (0x250 + sh.code) (64 * b2n lam + m.code) c d a b = _; cases sh <;> exact fpModBit_code lam m (.minPkt c _ · · d a b)⟩
theorem maxPkt (c : Ctl) (sh : Shape) (lam : Bool) (m : FpMod) (d a b : Operand) : Statement (.maxPkt c sh lam m d a b) := .inr ⟨rfl, by
  show instrOf (0x260 + sh.code) (64 * b2n lam + m.code) c d a b = _; cases sh <;> exact fpModBit_code lam m (.maxPkt c _ · · d a b)⟩
theorem cmpPkt (c : Ctl) (sh : Shape) (ftzi : Bool) (cond : Cond) (d a b : Operand) : Statement (.cmpPkt c sh ftzi cond d a b) := .inr ⟨rfl, by
  show instrOf (0x270 + sh.code) (8 * b2n ftzi + cond.code) c d a b = _; cases sh <;> exact condMod_code ftzi cond (.cmpPkt c _ · · d a b)⟩
theorem dot (c : Ctl) (sh : Shape) (lam : Bool) (m : FpMod) (d a b : Operand) : Statement (.dot c sh lam m d a b) := .inr ⟨rfl, by
  show instrOf (0x280 + sh.code) (64 * b2n lam + m.code) c d a b = _; cases sh <;> exact fpModBit_code lam m (.dot c _ · · d a b)⟩
theorem hsum (c : Ctl) (sh : Shape) (lam : Bool) (m : FpMod) (d a b : Operand) : Statement (.hsum c sh lam m d a b) := .inr ⟨rfl, by
  show instrOf (0x290 + sh.code) (64 * b2n lam + m.code) c d a b = _; cases sh <;> exact fpModBit_code lam m (.hsum c _ · · d a b)⟩
theorem hmax (c : Ctl) (sh : Shape) (lam : Bool) (m : FpMod) (d a b : Operand) : Statement (.hmax c sh lam m d a b) := .inr ⟨rfl, by
  show instrOf (0x2A0 + sh.code) (64 * b2n lam + m.code) c d a b = _; cases sh <;> exact fpModBit_code lam m (.hmax c _ · · d a b)⟩
theorem omse (c : Ctl) (lam : Bool) (d a b : Operand) : Statement (.omse c lam d a b) := .inr ⟨rfl, by
  show instrOf (0x2B0) (64 * b2n lam) c d a b = _; cases lam <;> exact rfl⟩
theorem pperm (c : Ctl) (d a b : Operand) : Statement (.pperm c d a b) := .inr ⟨rfl, by
  show instrOf (0x300) (0) c d a b = _; exact rfl⟩
theorem plut (c : Ctl) (half hi : Bool) (d a b : Operand) : Statement (.plut c half hi d a b) := .inr ⟨rfl, by
  show instrOf (0x301) (2 * b2n half + b2n hi) c d a b = _; cases half <;> cases hi <;> exact rfl⟩
theorem eshl (c : Ctl) (ew : EWidth) (d a b : Operand) : Statement (.eshl c ew d a b) := .inr ⟨rfl, by
  show instrOf (0x302) (64 * ew.code) c d a b = _; cases ew <;> exact rfl⟩
theorem eshr (c : Ctl) (ew : EWidth) (d a b : Operand) : Statement (.eshr c ew d a b) := .inr ⟨rfl, by
  show instrOf (0x303) (64 * ew.code) c d a b = _; cases ew <;> exact rfl⟩
theorem bcast (c : Ctl) (ew : EWidth) (d a b : Operand) : Statement (.bcast c ew d a b) := .inr ⟨rfl, by
  show instrOf (0x304) (64 * ew.code) c d a b = _; cases ew <;> exact rfl⟩
theorem esel (c : Ctl) (ew : EWidth) (d a b : Operand) : Statement (.esel c ew d a b) := .inr ⟨rfl, by
  show instrOf (0x305) (64 * ew.code) c d a b = _; cases ew <;> exact rfl⟩
theorem eins (c : Ctl) (ew : EWidth) (d a b : Operand) : Statement (.eins c ew d a b) := .inr ⟨rfl, by
  show instrOf (0x306) (64 * ew.code) c d a b = _; cases ew <;> exact rfl⟩
theorem eext (c : Ctl) (ew : EWidth) (d a b : Operand) : Statement (.eext c ew d a b) := .inr ⟨rfl, by
  show instrOf (0x307) (64 * ew.code) c d a b = _; cases ew <;> exact rfl⟩
theorem specLerp (c : Ctl) (m : FpMod) (d a b : Operand) : Statement (.specLerp c m d a b) := .inr ⟨rfl, by
  show instrOf (0x310) (m.code) c d a b = _; exact fpMod_code m (.specLerp c · d a b)⟩
theorem specCie (c : Ctl) (obs64 : Bool) (m : FpMod) (d a b : Operand) : Statement (.specCie c obs64 m d a b) := .inr ⟨rfl, by
  show instrOf (0x311) (64 * b2n obs64 + m.code) c d a b = _; exact fpModBit_code obs64 m (.specCie c · · d a b)⟩
theorem specMueller (c : Ctl) (k : BitVec 2) (m : FpMod) (d a b : Operand) : Statement (.specMueller c k m d a b) := .inr ⟨rfl, by
  show instrOf (0x312) (64 * k.toNat + m.code) c d a b = _; exact part_code k m (.specMueller c · · d a b)⟩
theorem prng (c : Ctl) (shape : PrngShape) (d a b : Operand) : Statement (.prng c shape d a b) := .inr ⟨rfl, by
  show instrOf (0x320) (64 * shape.code) c d a b = _; cases shape <;> exact rfl⟩
theorem sfuRcp (c : Ctl) (v : SfuShape) (m : FpMod) (d a b : Operand) : Statement (.sfuRcp c v m d a b) := .inr ⟨rfl, by
  show instrOf (0x400) (64 * v.code + m.code) c d a b = _; exact sfu_code v m (.sfuRcp c · · d a b)⟩
theorem sfuRsqrt (c : Ctl) (v : SfuShape) (m : FpMod) (d a b : Operand) : Statement (.sfuRsqrt c v m d a b) := .inr ⟨rfl, by
  show instrOf (0x401) (64 * v.code + m.code) c d a b = _; exact sfu_code v m (.sfuRsqrt c · · d a b)⟩
theorem sfuSqrt (c : Ctl) (v : SfuShape) (m : FpMod) (d a b : Operand) : Statement (.sfuSqrt c v m d a b) := .inr ⟨rfl, by
  show instrOf (0x402) (64 * v.code + m.code) c d a b = _; exact sfu_code v m (.sfuSqrt c · · d a b)⟩
theorem sfuExp2 (c : Ctl) (v : SfuShape) (m : FpMod) (d a b : Operand) : Statement (.sfuExp2 c v m d a b) := .inr ⟨rfl, by
  show instrOf (0x403) (64 * v.code + m.code) c d a b = _; exact sfu_code v m (.sfuExp2 c · · d a b)⟩
theorem sfuLog2 (c : Ctl) (v : SfuShape) (m : FpMod) (d a b : Operand) : Statement (.sfuLog2 c v m d a b) := .inr ⟨rfl, by
  show instrOf (0x404) (64 * v.code + m.code) c d a b = _; exact sfu_code v m (.sfuLog2 c · · d a b)⟩
theorem sfuSin (c : Ctl) (v : SfuShape) (m : FpMod) (d a b : Operand) : Statement (.sfuSin c v m d a b) := .inr ⟨rfl, by
  show instrOf (0x405) (64 * v.code + m.code) c d a b = _; exact sfu_code v m (.sfuSin c · · d a b)⟩
theorem sfuCos (c : Ctl) (v : SfuShape) (m : FpMod) (d a b : Operand) : Statement (.sfuCos c v m d a b) := .inr ⟨rfl, by
  show instrOf (0x406) (64 * v.code + m.code) c d a b = _; exact sfu_code v m (.sfuCos c · · d a b)⟩
theorem sfuTanh (c : Ctl) (v : SfuShape) (m : FpMod) (d a b : Operand) : Statement (.sfuTanh c v m d a b) := .inr ⟨rfl, by
  show instrOf (0x407) (64 * v.code + m.code) c d a b = _; exact sfu_code v m (.sfuTanh c · · d a b)⟩
theorem sfuSigm (c : Ctl) (v : SfuShape) (m : FpMod) (d a b : Operand) : Statement (.sfuSigm c v m d a b) := .inr ⟨rfl, by
  show instrOf (0x408) (64 * v.code + m.code) c d a b = _; exact sfu_code v m (.sfuSigm c · · d a b)⟩
theorem sfuErf (c : Ctl) (v : SfuShape) (m : FpMod) (d a b : Operand) : Statement (.sfuErf c v m d a b) := .inr ⟨rfl, by
  show instrOf (0x409) (64 * v.code + m.code) c d a b = _; exact sfu_code v m (.sfuErf c · · d a b)⟩
theorem sfuGelu (c : Ctl) (v : SfuShape) (m : FpMod) (d a b : Operand) : Statement (.sfuGelu c v m d a b) := .inr ⟨rfl, by
  show instrOf (0x40A) (64 * v.code + m.code) c d a b = _; exact sfu_code v m (.sfuGelu c · · d a b)⟩
theorem sfuSilu (c : Ctl) (v : SfuShape) (m : FpMod) (d a b : Operand) : Statement (.sfuSilu c v m d a b) := .inr ⟨rfl, by
  show instrOf (0x40B) (64 * v.code + m.code) c d a b = _; exact sfu_code v m (.sfuSilu c · · d a b)⟩
theorem mxqE4M3 (c : Ctl) (m : FpMod) (d a b : Operand) : Statement (.mxqE4M3 c m d a b) := .inr ⟨rfl, by
  show instrOf (0x420) (m.code) c d a b = _; exact fpMod_code m (.mxqE4M3 c · d a b)⟩
theorem mxqE5M2 (c : Ctl) (m : FpMod) (d a b : Operand) : Statement (.mxqE5M2 c m d a b) := .inr ⟨rfl, by
  show instrOf (0x421) (m.code) c d a b = _; exact fpMod_code m (.mxqE5M2 c · d a b)⟩
theorem mxqE3M2 (c : Ctl) (m : FpMod) (d a b : Operand) : Statement (.mxqE3M2 c m d a b) := .inr ⟨rfl, by
  show instrOf (0x422) (m.code) c d a b = _; exact fpMod_code m (.mxqE3M2 c · d a b)⟩
theorem mxqE2M3 (c : Ctl) (m : FpMod) (d a b : Operand) : Statement (.mxqE2M3 c m d a b) := .inr ⟨rfl, by
  show instrOf (0x423) (m.code) c d a b = _; exact fpMod_code m (.mxqE2M3 c · d a b)⟩
theorem mxqE2M1 (c : Ctl) (half : Bool) (m : FpMod) (d a b : Operand) : Statement (.mxqE2M1 c half m d a b) := .inr ⟨rfl, by
  show instrOf (0x424) (64 * b2n half + m.code) c d a b = _; exact fpModBit_code half m (.mxqE2M1 c · · d a b)⟩
theorem mxqI8 (c : Ctl) (m : FpMod) (d a b : Operand) : Statement (.mxqI8 c m d a b) := .inr ⟨rfl, by
  show instrOf (0x425) (m.code) c d a b = _; exact fpMod_code m (.mxqI8 c · d a b)⟩
theorem cvtScalar (c : Ctl) (dst src : CType) (m : FpMod) (d a b : Operand) : Statement (.cvtScalar c dst src m d a b) := .inr ⟨rfl, by
  show instrOf (0x440 + 8 * dst.code + src.code) (m.code) c d a b = _; cases dst <;> cases src <;> exact fpMod_code m (.cvtScalar c _ _ · d a b)⟩
theorem cvtPacket (c : Ctl) (dst : Shape) (src : PktSrc) (part : BitVec 2) (m : FpMod) (d a b : Operand) : Statement (.cvtPacket c dst src part m d a b) := .inr ⟨rfl, by
  show instrOf (0x480 + 8 * dst.code + src.code) (64 * part.toNat + m.code) c d a b = _; cases dst <;> cases src <;> exact part_code part m (.cvtPacket c _ _ · · d a b)⟩
theorem shfl (c : Ctl) (size : ShflSize) (mode : ShflMode) (d a b : Operand) : Statement (.shfl c size mode d a b) := .inr ⟨rfl, by
  show instrOf (0x500) (4 * size.code + mode.code) c d a b = _; cases size <;> cases mode <;> exact rfl⟩
theorem vote (c : Ctl) (mode : VoteMode) (d a b : Operand) : Statement (.vote c mode d a b) := .inr ⟨rfl, by
  show instrOf (0x501) (mode.code) c d a b = _; cases mode <;> exact rfl⟩
theorem matchV (c : Ctl) (b64 : Bool) (mode : MatchMode) (d a b : Operand) : Statement (.matchV c b64 mode d a b) := .inr ⟨rfl, by
  show instrOf (0x502) (4 * b2n b64 + mode.code) c d a b = _; cases b64 <;> cases mode <;> exact rfl⟩
theorem scan (c : Ctl) (excl : Bool) (op : ScanOp) (d a b : Operand) : Statement (.scan c excl op d a b) := .inr ⟨rfl, by
  show instrOf (0x503) (8 * b2n excl + op.code) c d a b = _; cases excl <;> cases op <;> exact rfl⟩
theorem regroup (c : Ctl) (d a b : Operand) : Statement (.regroup c d a b) := .inr ⟨rfl, by
  show instrOf (0x504) (0) c d a b = _; exact rfl⟩
theorem bra (c : Ctl) (d a b : Operand) : Statement (.bra c d a b) := .inr ⟨rfl, by
  show instrOf (0x510) (0) c d a b = _; exact rfl⟩
theorem brx (c : Ctl) (d a b : Operand) : Statement (.brx c d a b) := .inr ⟨rfl, by
  show instrOf (0x511) (0) c d a b = _; exact rfl⟩
theorem call (c : Ctl) (d a b : Operand) : Statement (.call c d a b) := .inr ⟨rfl, by
  show instrOf (0x512) (0) c d a b = _; exact rfl⟩
theorem ret (c : Ctl) (d a b : Operand) : Statement (.ret c d a b) := .inr ⟨rfl, by
  show instrOf (0x513) (0) c d a b = _; exact rfl⟩
theorem loop (c : Ctl) (d a b : Operand) : Statement (.loop c d a b) := .inr ⟨rfl, by
  show instrOf (0x514) (0) c d a b = _; exact rfl⟩
theorem rep (c : Ctl) (d a b : Operand) : Statement (.rep c d a b) := .inr ⟨rfl, by
  show instrOf (0x515) (0) c d a b = _; exact rfl⟩
theorem exit (c : Ctl) (d a b : Operand) : Statement (.exit c d a b) := .inr ⟨rfl, by
  show instrOf (0x516) (0) c d a b = _; exact rfl⟩
theorem yield (c : Ctl) (d a b : Operand) : Statement (.yield c d a b) := .inr ⟨rfl, by
  show instrOf (0x517) (0) c d a b = _; exact rfl⟩
theorem nop (c : Ctl) (d a b : Operand) : Statement (.nop c d a b) := .inr ⟨rfl, by
  show instrOf (0x518) (0) c d a b = _; exact rfl⟩
theorem plop3 (c : Ctl) (tab : Byte) (d a b : Operand) : Statement (.plop3 c tab d a b) := .inr ⟨rfl, by
  show instrOf (0x600) (tab.toNat) c d a b = _; exact tab_code tab (.plop3 c · d a b)⟩
theorem pget (c : Ctl) (d a b : Operand) : Statement (.pget c d a b) := .inr ⟨rfl, by
  show instrOf (0x602) (0) c d a b = _; exact rfl⟩
theorem pset (c : Ctl) (d a b : Operand) : Statement (.pset c d a b) := .inr ⟨rfl, by
  show instrOf (0x603) (0) c d a b = _; exact rfl⟩
theorem racq (c : Ctl) (d a b : Operand) : Statement (.racq c d a b) := .inr ⟨rfl, by
  show instrOf (0x610) (0) c d a b = _; exact rfl⟩
theorem rrel (c : Ctl) (d a b : Operand) : Statement (.rrel c d a b) := .inr ⟨rfl, by
  show instrOf (0x611) (0) c d a b = _; exact rfl⟩
theorem xset (c : Ctl) (mode : XsetMode) (d a b : Operand) : Statement (.xset c mode d a b) := .inr ⟨rfl, by
  show instrOf (0x620) (mode.code) c d a b = _; cases mode <;> exact rfl⟩
theorem xget (c : Ctl) (fld : XgetField) (d a b : Operand) : Statement (.xget c fld d a b) := .inr ⟨rfl, by
  show instrOf (0x621) (fld.code) c d a b = _; cases fld <;> exact rfl⟩
theorem ld (c : Ctl) (w : MWidth) (d a b : Operand) : Statement (.ld c w d a b) := .inr ⟨rfl, by
  show instrOf (0x700 + w.code) (0) c d a b = _; cases w <;> exact rfl⟩
theorem st (c : Ctl) (w : MWidth) (d a b : Operand) : Statement (.st c w d a b) := .inr ⟨rfl, by
  show instrOf (0x708 + w.code) (0) c d a b = _; cases w <;> exact rfl⟩
theorem atomExch (c : Ctl) (ord : MOrder) (sc : Scope) (ty : MType) (d a b : Operand) : Statement (.atomExch c ord sc ty d a b) := .inr ⟨rfl, by
  show instrOf (0x710) (64 * ord.code + 8 * sc.code + ty.code) c d a b = _; exact memMod_code ord sc ty (.atomExch c · · · d a b)⟩
theorem atomCas (c : Ctl) (ord : MOrder) (sc : Scope) (ty : MType) (d a b : Operand) : Statement (.atomCas c ord sc ty d a b) := .inr ⟨rfl, by
  show instrOf (0x711) (64 * ord.code + 8 * sc.code + ty.code) c d a b = _; exact memMod_code ord sc ty (.atomCas c · · · d a b)⟩
theorem atomAdd (c : Ctl) (ord : MOrder) (sc : Scope) (ty : MType) (d a b : Operand) : Statement (.atomAdd c ord sc ty d a b) := .inr ⟨rfl, by
  show instrOf (0x712) (64 * ord.code + 8 * sc.code + ty.code) c d a b = _; exact memMod_code ord sc ty (.atomAdd c · · · d a b)⟩
theorem atomMin (c : Ctl) (ord : MOrder) (sc : Scope) (ty : MType) (d a b : Operand) : Statement (.atomMin c ord sc ty d a b) := .inr ⟨rfl, by
  show instrOf (0x713) (64 * ord.code + 8 * sc.code + ty.code) c d a b = _; exact memMod_code ord sc ty (.atomMin c · · · d a b)⟩
theorem atomMax (c : Ctl) (ord : MOrder) (sc : Scope) (ty : MType) (d a b : Operand) : Statement (.atomMax c ord sc ty d a b) := .inr ⟨rfl, by
  show instrOf (0x714) (64 * ord.code + 8 * sc.code + ty.code) c d a b = _; exact memMod_code ord sc ty (.atomMax c · · · d a b)⟩
theorem atomAnd (c : Ctl) (ord : MOrder) (sc : Scope) (ty : MType) (d a b : Operand) : Statement (.atomAnd c ord sc ty d a b) := .inr ⟨rfl, by
  show instrOf (0x715) (64 * ord.code + 8 * sc.code + ty.code) c d a b = _; exact memMod_code ord sc ty (.atomAnd c · · · d a b)⟩
theorem atomOr (c : Ctl) (ord : MOrder) (sc : Scope) (ty : MType) (d a b : Operand) : Statement (.atomOr c ord sc ty d a b) := .inr ⟨rfl, by
  show instrOf (0x716) (64 * ord.code + 8 * sc.code + ty.code) c d a b = _; exact memMod_code ord sc ty (.atomOr c · · · d a b)⟩
theorem atomXor (c : Ctl) (ord : MOrder) (sc : Scope) (ty : MType) (d a b : Operand) : Statement (.atomXor c ord sc ty d a b) := .inr ⟨rfl, by
  show instrOf (0x717) (64 * ord.code + 8 * sc.code + ty.code) c d a b = _; exact memMod_code ord sc ty (.atomXor c · · · d a b)⟩
theorem stG (c : Ctl) (w : MWidth) (d a b : Operand) : Statement (.stG c w d a b) := .inr ⟨rfl, by
  show instrOf (0x800 + w.code) (0) c d a b = _; cases w <;> exact rfl⟩
theorem redGAdd (c : Ctl) (ord : MOrder) (sc : Scope) (ty : MType) (d a b : Operand) : Statement (.redGAdd c ord sc ty d a b) := .inr ⟨rfl, by
  show instrOf (0x810) (64 * ord.code + 8 * sc.code + ty.code) c d a b = _; exact memMod_code ord sc ty (.redGAdd c · · · d a b)⟩
theorem redGMin (c : Ctl) (ord : MOrder) (sc : Scope) (ty : MType) (d a b : Operand) : Statement (.redGMin c ord sc ty d a b) := .inr ⟨rfl, by
  show instrOf (0x811) (64 * ord.code + 8 * sc.code + ty.code) c d a b = _; exact memMod_code ord sc ty (.redGMin c · · · d a b)⟩
theorem redGMax (c : Ctl) (ord : MOrder) (sc : Scope) (ty : MType) (d a b : Operand) : Statement (.redGMax c ord sc ty d a b) := .inr ⟨rfl, by
  show instrOf (0x812) (64 * ord.code + 8 * sc.code + ty.code) c d a b = _; exact memMod_code ord sc ty (.redGMax c · · · d a b)⟩
theorem redGAnd (c : Ctl) (ord : MOrder) (sc : Scope) (ty : MType) (d a b : Operand) : Statement (.redGAnd c ord sc ty d a b) := .inr ⟨rfl, by
  show instrOf (0x813) (64 * ord.code + 8 * sc.code + ty.code) c d a b = _; exact memMod_code ord sc ty (.redGAnd c · · · d a b)⟩
theorem redGOr (c : Ctl) (ord : MOrder) (sc : Scope) (ty : MType) (d a b : Operand) : Statement (.redGOr c ord sc ty d a b) := .inr ⟨rfl, by
  show instrOf (0x814) (64 * ord.code + 8 * sc.code + ty.code) c d a b = _; exact memMod_code ord sc ty (.redGOr c · · · d a b)⟩
theorem redGXor (c : Ctl) (ord : MOrder) (sc : Scope) (ty : MType) (d a b : Operand) : Statement (.redGXor c ord sc ty d a b) := .inr ⟨rfl, by
  show instrOf (0x815) (64 * ord.code + 8 * sc.code + ty.code) c d a b = _; exact memMod_code ord sc ty (.redGXor c · · · d a b)⟩
theorem redGKahan (c : Ctl) (ord : MOrder) (sc : Scope) (ty : MType) (d a b : Operand) : Statement (.redGKahan c ord sc ty d a b) := .inr ⟨rfl, by
  show instrOf (0x816) (64 * ord.code + 8 * sc.code + ty.code) c d a b = _; exact memMod_code ord sc ty (.redGKahan c · · · d a b)⟩
theorem atomGExch (c : Ctl) (ord : MOrder) (sc : Scope) (ty : MType) (d a b : Operand) : Statement (.atomGExch c ord sc ty d a b) := .inr ⟨rfl, by
  show instrOf (0x820) (64 * ord.code + 8 * sc.code + ty.code) c d a b = _; exact memMod_code ord sc ty (.atomGExch c · · · d a b)⟩
theorem atomGCas (c : Ctl) (ord : MOrder) (sc : Scope) (ty : MType) (d a b : Operand) : Statement (.atomGCas c ord sc ty d a b) := .inr ⟨rfl, by
  show instrOf (0x821) (64 * ord.code + 8 * sc.code + ty.code) c d a b = _; exact memMod_code ord sc ty (.atomGCas c · · · d a b)⟩
theorem atomGAdd (c : Ctl) (ord : MOrder) (sc : Scope) (ty : MType) (d a b : Operand) : Statement (.atomGAdd c ord sc ty d a b) := .inr ⟨rfl, by
  show instrOf (0x822) (64 * ord.code + 8 * sc.code + ty.code) c d a b = _; exact memMod_code ord sc ty (.atomGAdd c · · · d a b)⟩
theorem redCommit (c : Ctl) (ord : MOrder) (sc : Scope) (d a b : Operand) : Statement (.redCommit c ord sc d a b) := .inr ⟨rfl, by
  show instrOf (0x830) (64 * ord.code + 8 * sc.code) c d a b = _; exact ordMod_code ord sc (.redCommit c · · d a b)⟩
theorem fence (c : Ctl) (ord : MOrder) (sc : Scope) (d a b : Operand) : Statement (.fence c ord sc d a b) := .inr ⟨rfl, by
  show instrOf (0x900) (64 * ord.code + 8 * sc.code) c d a b = _; exact ordMod_code ord sc (.fence c · · d a b)⟩
theorem barTeam (c : Ctl) (d a b : Operand) : Statement (.barTeam c d a b) := .inr ⟨rfl, by
  show instrOf (0x910) (0) c d a b = _; exact rfl⟩
theorem barPair (c : Ctl) (d a b : Operand) : Statement (.barPair c d a b) := .inr ⟨rfl, by
  show instrOf (0x911) (0) c d a b = _; exact rfl⟩
theorem barClu (c : Ctl) (d a b : Operand) : Statement (.barClu c d a b) := .inr ⟨rfl, by
  show instrOf (0x912) (0) c d a b = _; exact rfl⟩
theorem barSys (c : Ctl) (rel : Bool) (d a b : Operand) : Statement (.barSys c rel d a b) := .inr ⟨rfl, by
  show instrOf (0x913) (128 * b2n rel) c d a b = _; cases rel <;> exact rfl⟩
theorem wait (c : Ctl) (cmp : WaitCmp) (d a b : Operand) : Statement (.wait c cmp d a b) := .inr ⟨rfl, by
  show instrOf (0x920) (cmp.code) c d a b = _; cases cmp <;> exact rfl⟩
theorem qpush (c : Ctl) (d a b : Operand) : Statement (.qpush c d a b) := .inr ⟨rfl, by
  show instrOf (0x930) (0) c d a b = _; exact rfl⟩
theorem qpop (c : Ctl) (d a b : Operand) : Statement (.qpop c d a b) := .inr ⟨rfl, by
  show instrOf (0x931) (0) c d a b = _; exact rfl⟩
theorem jpostCopy (c : Ctl) (ordered : Bool) (d a b : Operand) : Statement (.jpostCopy c ordered d a b) := .inr ⟨rfl, by
  show instrOf (0xA00) (b2n ordered) c d a b = _; cases ordered <;> exact rfl⟩
theorem jpostGather (c : Ctl) (ordered : Bool) (d a b : Operand) : Statement (.jpostGather c ordered d a b) := .inr ⟨rfl, by
  show instrOf (0xA01) (b2n ordered) c d a b = _; cases ordered <;> exact rfl⟩
theorem jpostMma (c : Ctl) (ordered : Bool) (d a b : Operand) : Statement (.jpostMma c ordered d a b) := .inr ⟨rfl, by
  show instrOf (0xA02) (b2n ordered) c d a b = _; cases ordered <;> exact rfl⟩
theorem jpostMmaGather (c : Ctl) (ordered : Bool) (d a b : Operand) : Statement (.jpostMmaGather c ordered d a b) := .inr ⟨rfl, by
  show instrOf (0xA03) (b2n ordered) c d a b = _; cases ordered <;> exact rfl⟩
theorem jpostEpilogue (c : Ctl) (ordered : Bool) (d a b : Operand) : Statement (.jpostEpilogue c ordered d a b) := .inr ⟨rfl, by
  show instrOf (0xA04) (b2n ordered) c d a b = _; cases ordered <;> exact rfl⟩
theorem jwait (c : Ctl) (d a b : Operand) : Statement (.jwait c d a b) := .inr ⟨rfl, by
  show instrOf (0xA10) (0) c d a b = _; exact rfl⟩
theorem jtest (c : Ctl) (d a b : Operand) : Statement (.jtest c d a b) := .inr ⟨rfl, by
  show instrOf (0xA11) (0) c d a b = _; exact rfl⟩
theorem jcancel (c : Ctl) (d a b : Operand) : Statement (.jcancel c d a b) := .inr ⟨rfl, by
  show instrOf (0xA12) (0) c d a b = _; exact rfl⟩
theorem hstore (c : Ctl) (d a b : Operand) : Statement (.hstore c d a b) := .inr ⟨rfl, by
  show instrOf (0xA13) (0) c d a b = _; exact rfl⟩
theorem hload (c : Ctl) (d a b : Operand) : Statement (.hload c d a b) := .inr ⟨rfl, by
  show instrOf (0xA14) (0) c d a b = _; exact rfl⟩
theorem tacq (c : Ctl) (d a b : Operand) : Statement (.tacq c d a b) := .inr ⟨rfl, by
  show instrOf (0xA20) (0) c d a b = _; exact rfl⟩
theorem trel (c : Ctl) (d a b : Operand) : Statement (.trel c d a b) := .inr ⟨rfl, by
  show instrOf (0xA21) (0) c d a b = _; exact rfl⟩
theorem tstat (c : Ctl) (d a b : Operand) : Statement (.tstat c d a b) := .inr ⟨rfl, by
  show instrOf (0xA22) (0) c d a b = _; exact rfl⟩
theorem tld (c : Ctl) (d a b : Operand) : Statement (.tld c d a b) := .inr ⟨rfl, by
  show instrOf (0xA23) (0) c d a b = _; exact rfl⟩
theorem tst (c : Ctl) (d a b : Operand) : Statement (.tst c d a b) := .inr ⟨rfl, by
  show instrOf (0xA24) (0) c d a b = _; exact rfl⟩
theorem trace (c : Ctl) (d a b : Operand) : Statement (.trace c d a b) := .inr ⟨rfl, by
  show instrOf (0xA30) (0) c d a b = _; exact rfl⟩
theorem traceResume (c : Ctl) (d a b : Operand) : Statement (.traceResume c d a b) := .inr ⟨rfl, by
  show instrOf (0xA31) (0) c d a b = _; exact rfl⟩
theorem stex (c : Ctl) (v : StexMode) (d a b : Operand) : Statement (.stex c v d a b) := .inr ⟨rfl, by
  show instrOf (0xA38) (v.code) c d a b = _; exact stex_code v (.stex c · d a b)⟩
theorem shcProbe (c : Ctl) (d a b : Operand) : Statement (.shcProbe c d a b) := .inr ⟨rfl, by
  show instrOf (0xA40) (0) c d a b = _; exact rfl⟩
theorem shcFill (c : Ctl) (d a b : Operand) : Statement (.shcFill c d a b) := .inr ⟨rfl, by
  show instrOf (0xA41) (0) c d a b = _; exact rfl⟩
theorem collArm (c : Ctl) (d a b : Operand) : Statement (.collArm c d a b) := .inr ⟨rfl, by
  show instrOf (0xA50) (0) c d a b = _; exact rfl⟩
theorem collReady (c : Ctl) (d a b : Operand) : Statement (.collReady c d a b) := .inr ⟨rfl, by
  show instrOf (0xA51) (0) c d a b = _; exact rfl⟩
theorem dtime (c : Ctl) (d a b : Operand) : Statement (.dtime c d a b) := .inr ⟨rfl, by
  show instrOf (0xB00) (0) c d a b = _; exact rfl⟩
theorem sysr (c : Ctl) (d a b : Operand) : Statement (.sysr c d a b) := .inr ⟨rfl, by
  show instrOf (0xB01) (0) c d a b = _; exact rfl⟩
theorem sysw (c : Ctl) (d a b : Operand) : Statement (.sysw c d a b) := .inr ⟨rfl, by
  show instrOf (0xB02) (0) c d a b = _; exact rfl⟩
theorem trap (c : Ctl) (d a b : Operand) : Statement (.trap c d a b) := .inr ⟨rfl, by
  show instrOf (0xB10) (0) c d a b = _; exact rfl⟩
theorem tret (c : Ctl) (d a b : Operand) : Statement (.tret c d a b) := .inr ⟨rfl, by
  show instrOf (0xB11) (0) c d a b = _; exact rfl⟩
theorem brk (c : Ctl) (d a b : Operand) : Statement (.brk c d a b) := .inr ⟨rfl, by
  show instrOf (0xB12) (0) c d a b = _; exact rfl⟩
theorem launch (c : Ctl) (d a b : Operand) : Statement (.launch c d a b) := .inr ⟨rfl, by
  show instrOf (0xC00) (0) c d a b = _; exact rfl⟩
theorem semWaitGe (c : Ctl) (d a b : Operand) : Statement (.semWaitGe c d a b) := .inr ⟨rfl, by
  show instrOf (0xC01) (0) c d a b = _; exact rfl⟩
theorem semSig (c : Ctl) (set : Bool) (d a b : Operand) : Statement (.semSig c set d a b) := .inr ⟨rfl, by
  show instrOf (0xC02) (b2n set) c d a b = _; cases set <;> exact rfl⟩
theorem ttrig (c : Ctl) (d a b : Operand) : Statement (.ttrig c d a b) := .inr ⟨rfl, by
  show instrOf (0xC03) (0) c d a b = _; exact rfl⟩
theorem intr (c : Ctl) (d a b : Operand) : Statement (.intr c d a b) := .inr ⟨rfl, by
  show instrOf (0xC04) (0) c d a b = _; exact rfl⟩
theorem qnext (c : Ctl) (d a b : Operand) : Statement (.qnext c d a b) := .inr ⟨rfl, by
  show instrOf (0xC05) (0) c d a b = _; exact rfl⟩
theorem regroupDone (team : Nat) : Statement (.regroupDone team) := .inl ⟨rfl, rfl⟩
theorem longResultReturn (id : Nat) : Statement (.longResultReturn id) := .inl ⟨rfl, rfl⟩
theorem laneRunLimit (core lane : Nat) : Statement (.laneRunLimit core lane) := .inl ⟨rfl, rfl⟩
theorem activeTimeLimit (core gslot : Nat) : Statement (.activeTimeLimit core gslot) := .inl ⟨rfl, rfl⟩
theorem reliefCut (core gslot : Nat) : Statement (.reliefCut core gslot) := .inl ⟨rfl, rfl⟩
theorem reliefCutEnd (core gslot : Nat) : Statement (.reliefCutEnd core gslot) := .inl ⟨rfl, rfl⟩
theorem racqGrant (core : Nat) : Statement (.racqGrant core) := .inl ⟨rfl, rfl⟩
theorem groupEnd (team gid : Nat) : Statement (.groupEnd team gid) := .inl ⟨rfl, rfl⟩
theorem teamPlacement (die : Nat) : Statement (.teamPlacement die) := .inl ⟨rfl, rfl⟩
theorem saveComplete (team : Nat) : Statement (.saveComplete team) := .inl ⟨rfl, rfl⟩
theorem restoreComplete (team : Nat) : Statement (.restoreComplete team) := .inl ⟨rfl, rfl⟩
theorem stagingComplete (team : Nat) : Statement (.stagingComplete team) := .inl ⟨rfl, rfl⟩
theorem gridEnd (grid : Nat) : Statement (.gridEnd grid) := .inl ⟨rfl, rfl⟩
theorem diePortWrite (id : Nat) : Statement (.diePortWrite id) := .inl ⟨rfl, rfl⟩
theorem waitPoll (team tid : Nat) : Statement (.waitPoll team tid) := .inl ⟨rfl, rfl⟩
theorem queuePushArrival (id : Nat) : Statement (.queuePushArrival id) := .inl ⟨rfl, rfl⟩
theorem queuePopArrival (id : Nat) : Statement (.queuePopArrival id) := .inl ⟨rfl, rfl⟩
theorem homeSliceRequest (id : Nat) : Statement (.homeSliceRequest id) := .inl ⟨rfl, rfl⟩
theorem barSysPoll (team tid : Nat) : Statement (.barSysPoll team tid) := .inl ⟨rfl, rfl⟩
theorem requestAck (id : Nat) : Statement (.requestAck id) := .inl ⟨rfl, rfl⟩
theorem jobEnterQueue (core : Nat) : Statement (.jobEnterQueue core) := .inl ⟨rfl, rfl⟩
theorem jobIssue (cluster : Nat) : Statement (.jobIssue cluster) := .inl ⟨rfl, rfl⟩
theorem shareComplete (cluster slot : Nat) : Statement (.shareComplete cluster slot) := .inl ⟨rfl, rfl⟩
theorem jobFail (cluster slot reason : Nat) : Statement (.jobFail cluster slot reason) := .inl ⟨rfl, rfl⟩
theorem traceRecord (core slot pick fuel : Nat) : Statement (.traceRecord core slot pick fuel) := .inl ⟨rfl, rfl⟩
theorem raySlotGrant (core : Nat) : Statement (.raySlotGrant core) := .inl ⟨rfl, rfl⟩
theorem stexResult (id : Nat) : Statement (.stexResult id) := .inl ⟨rfl, rfl⟩
theorem shcRequestArrival (id : Nat) : Statement (.shcRequestArrival id) := .inl ⟨rfl, rfl⟩
theorem shcReserveExpiry (core set way : Nat) : Statement (.shcReserveExpiry core set way) := .inl ⟨rfl, rfl⟩
theorem collFire (stack entry : Nat) : Statement (.collFire stack entry) := .inl ⟨rfl, rfl⟩
theorem firingMessage (stack : Nat) (m : Posted FireMsg) : Statement (.firingMessage stack m) := .inl ⟨rfl, rfl⟩
theorem chunkArrival (stack : Nat) (c : Posted CollChunk) : Statement (.chunkArrival stack c) := .inl ⟨rfl, rfl⟩
theorem collReplan (stack entry : Nat) (m : ReplanMsg) : Statement (.collReplan stack entry m) := .inl ⟨rfl, rfl⟩
theorem replanTimeout (stack entry : Nat) : Statement (.replanTimeout stack entry) := .inl ⟨rfl, rfl⟩
theorem firingTimeout (stack entry : Nat) : Statement (.firingTimeout stack entry) := .inl ⟨rfl, rfl⟩
theorem collAbortArrival (stack entry : Nat) (count : Posted Nat) : Statement (.collAbortArrival stack entry count) := .inl ⟨rfl, rfl⟩
theorem migrationPeriodEnd (slice : Nat) : Statement (.migrationPeriodEnd slice) := .inl ⟨rfl, rfl⟩
theorem moveSwitch (frame : Nat) : Statement (.moveSwitch frame) := .inl ⟨rfl, rfl⟩
theorem scrubPass (unit corrections : Nat) : Statement (.scrubPass unit corrections) := .inl ⟨rfl, rfl⟩
theorem eccUncorrectable (site : PoisonSite) : Statement (.eccUncorrectable site) := .inl ⟨rfl, rfl⟩
theorem parityError (site : ParitySite) : Statement (.parityError site) := .inl ⟨rfl, rfl⟩
theorem refreshSubarray (stack bank sub : Nat) : Statement (.refreshSubarray stack bank sub) := .inl ⟨rfl, rfl⟩
theorem mgmtHeartbeat (stack : Nat) (missed : Bool) : Statement (.mgmtHeartbeat stack missed) := .inl ⟨rfl, rfl⟩
theorem refreshTakeover (stack : Nat) : Statement (.refreshTakeover stack) := .inl ⟨rfl, rfl⟩
theorem refreshAllBank (stack : Nat) : Statement (.refreshAllBank stack) := .inl ⟨rfl, rfl⟩
theorem watchdogFire (team : Nat) : Statement (.watchdogFire team) := .inl ⟨rfl, rfl⟩
theorem serviceQuantumExpiry (cc : Nat) : Statement (.serviceQuantumExpiry cc) := .inl ⟨rfl, rfl⟩
theorem ttrigTimeReached (queue : Nat) : Statement (.ttrigTimeReached queue) := .inl ⟨rfl, rfl⟩
theorem kerfSample (die mw : Nat) (temp : Int) : Statement (.kerfSample die mw temp) := .inl ⟨rfl, rfl⟩
theorem thermalRecovery (die : Nat) : Statement (.thermalRecovery die) := .inl ⟨rfl, rfl⟩
theorem emergencyTimeout (die : Nat) : Statement (.emergencyTimeout die) := .inl ⟨rfl, rfl⟩
theorem powerSensorSilent (die : Nat) : Statement (.powerSensorSilent die) := .inl ⟨rfl, rfl⟩
theorem dieIdle (die : Nat) : Statement (.dieIdle die) := .inl ⟨rfl, rfl⟩
theorem powerGood : Statement .powerGood := .inl ⟨rfl, rfl⟩
theorem pcieLinkTrained (port : Nat) : Statement (.pcieLinkTrained port) := .inl ⟨rfl, rfl⟩
theorem bootWaitTimer : Statement .bootWaitTimer := .inl ⟨rfl, rfl⟩
theorem bootStart (p0 p1 : Bool) : Statement (.bootStart p0 p1) := .inl ⟨rfl, rfl⟩
theorem bootLength (port units : Nat) : Statement (.bootLength port units) := .inl ⟨rfl, rfl⟩
theorem bundleVerifyDone : Statement .bundleVerifyDone := .inl ⟨rfl, rfl⟩
theorem loadingDone : Statement .loadingDone := .inl ⟨rfl, rfl⟩
theorem bootGen (port : Nat) (v : DWord) : Statement (.bootGen port v) := .inl ⟨rfl, rfl⟩
theorem attestTrigger (port : Nat) : Statement (.attestTrigger port) := .inl ⟨rfl, rfl⟩
theorem attestReportReady (selfTest : Bool) : Statement (.attestReportReady selfTest) := .inl ⟨rfl, rfl⟩
theorem standbyEnter (port : Nat) : Statement (.standbyEnter port) := .inl ⟨rfl, rfl⟩
theorem standbyExit (port : Nat) : Statement (.standbyExit port) := .inl ⟨rfl, rfl⟩
theorem portSemaphoreRead (port n : Nat) (same : Option SemAccess) : Statement (.portSemaphoreRead port n same) := .inl ⟨rfl, rfl⟩
theorem portSemaphoreRelease (port n : Nat) (v : SemWrite) : Statement (.portSemaphoreRelease port n v) := .inl ⟨rfl, rfl⟩
theorem doorbell (fn : HostFn) (queue : Nat) (v : DWord) : Statement (.doorbell fn queue v) := .inl ⟨rfl, rfl⟩
theorem queueEnable (fn : HostFn) (queue : Nat) (w0 : DWord) : Statement (.queueEnable fn queue w0) := .inl ⟨rfl, rfl⟩
theorem queueDisable (fn : HostFn) (queue : Nat) (w0 : DWord) : Statement (.queueDisable fn queue w0) := .inl ⟨rfl, rfl⟩
theorem queueProgWrite (fn : HostFn) (queue : Nat) (v : DWord) : Statement (.queueProgWrite fn queue v) := .inl ⟨rfl, rfl⟩
theorem ownerEntryWrite (port die granule : Nat) (v : Word) : Statement (.ownerEntryWrite port die granule v) := .inl ⟨rfl, rfl⟩
theorem migrationRead (port frame : Nat) : Statement (.migrationRead port frame) := .inl ⟨rfl, rfl⟩
theorem migrationWrite (port frame : Nat) : Statement (.migrationWrite port frame) := .inl ⟨rfl, rfl⟩
theorem contextInvalidation (port ctx : Nat) : Statement (.contextInvalidation port ctx) := .inl ⟨rfl, rfl⟩
theorem invalidationComplete : Statement .invalidationComplete := .inl ⟨rfl, rfl⟩
theorem faultRetry (port ctx page : Nat) : Statement (.faultRetry port ctx page) := .inl ⟨rfl, rfl⟩
theorem faultFail (port ctx page : Nat) : Statement (.faultFail port ctx page) := .inl ⟨rfl, rfl⟩
theorem rayDiscard (port ctx : Nat) : Statement (.rayDiscard port ctx) := .inl ⟨rfl, rfl⟩
theorem pairReopen (port : Nat) (v : DWord) : Statement (.pairReopen port v) := .inl ⟨rfl, rfl⟩
theorem resyncArrival (src : PeerId) (seq : Nat) : Statement (.resyncArrival src seq) := .inl ⟨rfl, rfl⟩
theorem timeSet (port : Nat) (v : DWord) : Statement (.timeSet port v) := .inl ⟨rfl, rfl⟩
theorem mgmtRegisterWrite (fn : HostFn) (off : Nat) (v : DWord) : Statement (.mgmtRegisterWrite fn off v) := .inl ⟨rfl, rfl⟩
theorem bar2Access (port : Nat) (op : BarOp) : Statement (.bar2Access port op) := .inl ⟨rfl, rfl⟩
theorem bar4Access (port : Nat) (op : BarOp) : Statement (.bar4Access port op) := .inl ⟨rfl, rfl⟩
theorem pcieAtomicOp (port : Nat) (op : PcieAtomic) : Statement (.pcieAtomicOp port op) := .inl ⟨rfl, rfl⟩
theorem hostPortLost (port : Nat) : Statement (.hostPortLost port) := .inl ⟨rfl, rfl⟩
theorem portSemReleaseTimeout (port : Nat) : Statement (.portSemReleaseTimeout port) := .inl ⟨rfl, rfl⟩
theorem ptpMessage (h : PtpHead) (m : PtpMsg) : Statement (.ptpMessage h m) := .inl ⟨rfl, rfl⟩
theorem ppsInput : Statement .ppsInput := .inl ⟨rfl, rfl⟩
theorem flitCrcError (link : LinkId) : Statement (.flitCrcError link) := .inl ⟨rfl, rfl⟩
theorem laneSignalLoss (link : LinkId) : Statement (.laneSignalLoss link) := .inl ⟨rfl, rfl⟩
theorem replayLimit (link : LinkId) : Statement (.replayLimit link) := .inl ⟨rfl, rfl⟩
theorem creditTimeout (link : LinkId) : Statement (.creditTimeout link) := .inl ⟨rfl, rfl⟩
theorem portRetrain (link : LinkId) : Statement (.portRetrain link) := .inl ⟨rfl, rfl⟩
theorem portUp (link : LinkId) : Statement (.portUp link) := .inl ⟨rfl, rfl⟩
theorem portDegraded (link : LinkId) (low : Bool) : Statement (.portDegraded link low) := .inl ⟨rfl, rfl⟩
theorem e2eResendTimeout (dst : PeerId) (seq : Nat) : Statement (.e2eResendTimeout dst seq) := .inl ⟨rfl, rfl⟩
theorem suspectExpiry (link : LinkId) (dst : PeerId) : Statement (.suspectExpiry link dst) := .inl ⟨rfl, rfl⟩
theorem e2eRequestArrival (r : RemoteReq) : Statement (.e2eRequestArrival r) := .inl ⟨rfl, rfl⟩
theorem e2eAckArrival (dst : PeerId) (seq : Nat) (ans : Option DWord) : Statement (.e2eAckArrival dst seq ans) := .inl ⟨rfl, rfl⟩
theorem e2eBusyAnswer (dst : PeerId) (seq : Nat) : Statement (.e2eBusyAnswer dst seq) := .inl ⟨rfl, rfl⟩
theorem unreachableAnswer (dst : PeerId) (gen : Nat) : Statement (.unreachableAnswer dst gen) := .inl ⟨rfl, rfl⟩
theorem unreachableDeclare (dst : PeerId) : Statement (.unreachableDeclare dst) := .inl ⟨rfl, rfl⟩
theorem contextTableWrite (port ctx word : Nat) (v : DWord) : Statement (.contextTableWrite port ctx word v) := .inl ⟨rfl, rfl⟩
theorem portDisable (port : Nat) (link : LinkId) (v : DWord) : Statement (.portDisable port link v) := .inl ⟨rfl, rfl⟩
theorem deferredFaultArrival (id : Nat) : Statement (.deferredFaultArrival id) := .inl ⟨rfl, rfl⟩
theorem receiptAcknowledgement (src : PeerId) (seq : Nat) : Statement (.receiptAcknowledgement src seq) := .inl ⟨rfl, rfl⟩
theorem reopenRetry : Statement .reopenRetry := .inl ⟨rfl, rfl⟩
theorem refreshEnd (stack : Nat) : Statement (.refreshEnd stack) := .inl ⟨rfl, rfl⟩
theorem powerOff : Statement .powerOff := .inl ⟨rfl, rfl⟩
theorem referenceInputChange (present : Bool) : Statement (.referenceInputChange present) := .inl ⟨rfl, rfl⟩
theorem ppsOutputEdge : Statement .ppsOutputEdge := .inl ⟨rfl, rfl⟩

end Sys2Proof.Laws.Encoding
end

