-- ==== Sys2Proof/Laws/Pieces.lean ====
section
/-! SUPPORT. Laws of the pieces of memory that a save keeps and a restore puts back: the canonical form is kept. -/

namespace Sys2Proof.Machine

theorem Memory.wf_cons (e : Nat × Byte) (m : Memory) :
    Memory.wf (e :: m) = true ↔ e.2 ≠ Memory.unlisted ∧ (∀ x ∈ m, e.1 < x.1) ∧ Memory.wf m = true := by
  simp [Memory.wf, AMap.wf, AMap.above, and_assoc]

/-- Two memories one above the other. -/
theorem Memory.wf_append (m p : Memory) (hm : Memory.wf m = true) (hp : Memory.wf p = true) (h : ∀ x ∈ m, ∀ y ∈ p, x.1 < y.1) :
    Memory.wf (m ++ p) = true := by
  induction m with
  | nil => exact hp
  | cons e r ih =>
    rw [Memory.wf_cons] at hm
    rw [List.cons_append, Memory.wf_cons]
    refine ⟨hm.1, ?_, ih hm.2.2 fun x hx => h x (List.mem_cons_of_mem _ hx)⟩
    intro x hx
    rcases List.mem_append.mp hx with hx | hx
    · exact hm.2.1 x hx
    · exact h e (List.mem_cons_self ..) x hx

/-- Addresses changed in their order. -/
theorem Memory.wf_map (f : Nat → Nat) (m : Memory) (hm : Memory.wf m = true) (hf : ∀ x ∈ m, ∀ y ∈ m, x.1 < y.1 → f x.1 < f y.1) :
    Memory.wf (m.map fun c => (f c.1, c.2)) = true := by
  induction m with
  | nil => rfl
  | cons e r ih =>
    rw [Memory.wf_cons] at hm
    rw [List.map_cons, Memory.wf_cons]
    refine ⟨hm.1, ?_, ih hm.2.2 fun x hx y hy => hf x (List.mem_cons_of_mem _ hx) y (List.mem_cons_of_mem _ hy)⟩
    intro x hx
    obtain ⟨y, hy, rfl⟩ := List.mem_map.mp hx
    exact hf e (List.mem_cons_self ..) y (List.mem_cons_of_mem _ hy) (hm.2.1 y hy)

theorem Memory.wf_cut (m : Memory) (a n : Nat) (h : Memory.wf m = true) : Memory.wf (Memory.cut m a n) = true := by
  refine Memory.wf_map (· - a) _ (Memory.wf_filter _ m h) ?_
  intro x hx y _ hxy
  have := (List.mem_filter.mp hx).2
  simp only [Bool.and_eq_true, decide_eq_true_eq] at this
  show x.1 - a < y.1 - a
  omega

theorem Memory.wf_paste (m : Memory) (a n : Nat) (p : Memory) (hm : Memory.wf m = true) (hp : Memory.wf p = true) :
    Memory.wf (Memory.paste m a n p) = true := by
  unfold Memory.paste
  refine Memory.wf_append _ _ (Memory.wf_append _ _ (Memory.wf_filter _ m hm) ?_ ?_) (Memory.wf_filter _ m hm) ?_
  · exact Memory.wf_map (· + a) _ (Memory.wf_filter _ p hp) fun x _ y _ h => Nat.add_lt_add_right h a
  · intro x hx y hy
    obtain ⟨z, _, rfl⟩ := List.mem_map.mp hy
    have := (List.mem_filter.mp hx).2
    simp only [decide_eq_true_eq] at this
    show x.1 < z.1 + a
    omega
  · intro x hx y hy
    have h2 := (List.mem_filter.mp hy).2
    simp only [decide_eq_true_eq] at h2
    rcases List.mem_append.mp hx with hx | hx
    · have := (List.mem_filter.mp hx).2
      simp only [decide_eq_true_eq] at this
      omega
    · obtain ⟨z, hz, rfl⟩ := List.mem_map.mp hx
      have := (List.mem_filter.mp hz).2
      simp only [decide_eq_true_eq] at this
      show z.1 + a < y.1
      omega

theorem Memory.wf_zip (l : List Byte) : ∀ k n : Nat,
    Memory.wf (((List.range' k n).zip l).filter fun c => c.2 != Memory.unlisted) = true ∧
      ∀ x ∈ (List.range' k n).zip l, k ≤ x.1 := by
  induction l with
  | nil => intro k n; simp [List.zip_nil_right]
  | cons b r ih =>
    intro k n
    cases n with
    | zero => simp
    | succ n =>
      have h := ih (k + 1) n
      rw [List.range'_succ, List.zip_cons_cons]
      constructor
      · by_cases hb : (b != Memory.unlisted) = true
        · rw [List.filter_cons_of_pos (p := fun c : Nat × Byte => c.2 != Memory.unlisted) hb, Memory.wf_cons]
          refine ⟨by simpa using hb, ?_, h.1⟩
          intro x hx
          have := h.2 x (List.mem_filter.mp hx).1
          show k < x.1
          omega
        · rw [List.filter_cons_of_neg (p := fun c : Nat × Byte => c.2 != Memory.unlisted) hb]
          exact h.1
      · intro x hx
        rcases List.mem_cons.mp hx with rfl | hx
        · exact Nat.le_refl _
        · have := h.2 x hx; omega

theorem Memory.wf_ofBytes (l : List Byte) : Memory.wf (Memory.ofBytes l) = true := by
  have := (Memory.wf_zip l 0 l.length).1
  rwa [← List.range_eq_range'] at this

/-- A piece as it is kept is canonical. -/
theorem keepPiece_wf (d : Dev) (p : Nat × Nat × Nat) (h : Memory.wf (d.space p.1) = true) : Memory.wf (keepPiece d p).mem = true :=
  Memory.wf_cut _ _ _ h

/-- A piece put back keeps the memory of every space canonical. -/
theorem putPiece_wf (d : Dev) (p : Nat × Nat × Nat) (k : Kept) (s : Nat) (h : Memory.wf (d.space s) = true) (hp : Memory.wf (d.space p.1) = true)
    (hk : Memory.wf k.mem = true) : Memory.wf ((putPiece d p k).space s) = true := by
  unfold putPiece
  by_cases h0 : p.2.2 = 0
  · simpa [h0] using h
  · have hw := Memory.wf_paste (d.space p.1) p.2.1 p.2.2 k.mem hp hk
    simp only [h0, if_false]
    have key : ∀ m : Memory, Memory.wf m = true → Memory.wf ((d.setSpace p.1 m).space s) = true := by
      intro m hm
      unfold Dev.setSpace Dev.space at *
      by_cases h3 : p.1 = 3 <;> by_cases h2 : p.1 = 2 <;> by_cases s3 : s = 3 <;> by_cases s2 : s = 2 <;> simp_all
    exact key _ hw

end Sys2Proof.Machine
end

