-- ==== Sys2Proof/Laws/Slots.lean ====
section
/-! SUPPORT. Laws of register slots: moving results between the forwarding window and the bank changes no slot as its thread reads
it, and a result put into the window is read from there. -/

namespace Sys2Proof.Machine

theorem lastWrite_append (s : Nat) (l m : List (Nat × Word)) :
    lastWrite s (l ++ m) = (lastWrite s m).or (lastWrite s l) := by
  induction l with
  | nil => simp [lastWrite]
  | cons p r ih =>
    simp only [List.cons_append, lastWrite, ih]
    cases lastWrite s m <;> simp

theorem winLookup_append (s : Nat) (l m : List WinEntry) :
    winLookup s (l ++ m) = (winLookup s m).or (winLookup s l) := by
  induction l with
  | nil => simp [winLookup]
  | cons p r ih =>
    simp only [List.cons_append, winLookup, ih]
    cases winLookup s m <;> simp

/-- The bank after some slot writes: the last write of the slot, or what it held. -/
theorem get_bankWrite (s : Nat) (l : List (Nat × Word)) : ∀ b : AMap Word,
    AMap.get 0 (bankWrite b l) s = (lastWrite s l).getD (AMap.get 0 b s) := by
  induction l with
  | nil => intro b; rfl
  | cons p r ih =>
    intro b
    simp only [bankWrite, List.foldl_cons] at *
    rw [ih, AMap.get_set, lastWrite]
    cases lastWrite s r with
    | some v => rfl
    | none => by_cases h : s = p.1 <;> simp [h, eq_comm]

/-- The bank after the entries of a window were written to it in order. -/
theorem get_flushWin (s : Nat) (l : List WinEntry) : ∀ b : AMap Word,
    AMap.get 0 (l.foldl (fun b e => bankWrite b e.slots) b) s = (winLookup s l).getD (AMap.get 0 b s) := by
  induction l with
  | nil => intro b; rfl
  | cons e r ih =>
    intro b
    rw [List.foldl_cons, ih, get_bankWrite, winLookup]
    cases winLookup s r <;> rfl

/-- Writing the window to the bank changes no slot (R53). -/
@[simp] theorem Thread.slot_flush (h : Thread) (s : Nat) : h.flush.slot s = h.slot s := by
  simp only [Thread.slot, Thread.flush, winLookup, get_flushWin, Option.getD_none]

theorem lastWrite_none_of_covered (s : Nat) (e : WinEntry) (r : List WinEntry) (h : coveredBy e r = true) (hr : winLookup s r = none) :
    lastWrite s e.slots = none := by
  have gone : ∀ l : List (Nat × Word), lastWrite s l = none → ∀ p ∈ l, p.1 ≠ s := by
    intro l
    induction l with
    | nil => intro _ p hp; cases hp
    | cons q t ih =>
      intro hl p hp
      simp only [lastWrite] at hl
      cases ht : lastWrite s t with
      | some v => simp [ht] at hl
      | none =>
        simp only [ht] at hl
        rcases List.mem_cons.mp hp with hpq | hpt
        · rw [hpq]; intro h'; simp [h'] at hl
        · exact ih ht p hpt
  have noWin : ∀ l : List WinEntry, winLookup s l = none → ∀ x ∈ l, ∀ p ∈ x.slots, p.1 ≠ s := by
    intro l
    induction l with
    | nil => intro _ x hx; cases hx
    | cons y t ih =>
      intro hl x hx
      simp only [winLookup] at hl
      cases ht : winLookup s t with
      | some v => simp [ht] at hl
      | none =>
        simp only [ht] at hl
        rcases List.mem_cons.mp hx with hxy | hxt
        · rw [hxy]; exact gone _ hl
        · exact ih ht x hxt
  have back : ∀ l : List (Nat × Word), (∀ p ∈ l, p.1 ≠ s) → lastWrite s l = none := by
    intro l
    induction l with
    | nil => intro _; rfl
    | cons q t ih =>
      intro hl
      have h1 := ih fun p hp => hl p (List.mem_cons_of_mem _ hp)
      have h2 := hl q (List.mem_cons_self ..)
      simp [lastWrite, h1, h2]
  refine back _ fun p hp hs => ?_
  simp only [coveredBy, List.all_eq_true, List.any_eq_true] at h
  obtain ⟨x, hx, q, hq, heq⟩ := h p hp
  exact noWin r hr x hx q hq (by simpa [hs] using heq)

theorem slot_retireWin (seq s : Nat) : ∀ (w : List WinEntry) (b : AMap Word),
    (winLookup s (retireWin seq w b).2).getD (AMap.get 0 (retireWin seq w b).1 s) = (winLookup s w).getD (AMap.get 0 b s) := by
  intro w
  induction w with
  | nil => intro b; rfl
  | cons e r ih =>
    intro b
    unfold retireWin
    split
    · rw [ih]
      simp only [winLookup]
      cases hr : winLookup s r with
      | some v => rfl
      | none =>
        simp only [Option.getD_none]
        by_cases hc : coveredBy e r = true
        · simp only [hc, if_true, lastWrite_none_of_covered s e r hc hr, Option.getD_none]
        · rw [if_neg hc, get_bankWrite]
    · rfl

/-- The oldest entries leaving the window change no slot (R53). -/
@[simp] theorem Thread.slot_retire (h : Thread) (seq s : Nat) : (h.retire seq).slot s = h.slot s :=
  slot_retireWin seq s h.win h.bank

/-- An indirect source changes no slot (R54). -/
@[simp] theorem Thread.slot_spillFor (rs : List (Nat × Nat)) (h : Thread) (s : Nat) : (h.spillFor rs).slot s = h.slot s := by
  have key : ∀ (l : List WinEntry) (b : AMap Word), winLookup s l = none →
      AMap.get 0 (l.foldl (fun b e => if e.slots.any fun p => inRanges rs p.1 then bankWrite b e.slots else b) b) s = AMap.get 0 b s := by
    intro l
    induction l with
    | nil => intro b _; rfl
    | cons e r ih =>
      intro b hl
      simp only [winLookup] at hl
      cases hr : winLookup s r with
      | some v => simp [hr] at hl
      | none =>
        simp only [hr] at hl
        rw [List.foldl_cons, ih _ hr]
        split
        · rw [get_bankWrite, hl, Option.getD_none]
        · rfl
  simp only [Thread.slot, Thread.spillFor]
  cases hl : winLookup s h.win with
  | some v => rfl
  | none => rw [Option.getD_none, Option.getD_none, key h.win h.bank hl]

theorem lastWrite_filter (s : Nat) (p : Nat → Bool) (l : List (Nat × Word)) :
    lastWrite s (l.filter fun q => p q.1) = if p s then lastWrite s l else none := by
  induction l with
  | nil => simp [lastWrite]
  | cons q r ih =>
    by_cases hq : p q.1 = true
    · simp only [List.filter_cons, hq, if_true, lastWrite, ih]
      by_cases hs : p s = true
      · simp [hs]
      · have : ¬ q.1 = s := fun h => hs (h ▸ hq)
        simp [hs, this]
    · simp only [List.filter_cons, hq]
      by_cases hs : p s = true
      · have hne : ¬ q.1 = s := fun h => hq (h.symm ▸ hs)
        simp only [hs, if_true] at ih
        simp only [hs, if_true, lastWrite, hne, if_false]
        rw [if_neg (by simp)]
        rw [ih]
        cases lastWrite s r <;> rfl
      · simp only [hs] at ih ⊢
        simpa using ih

/-- The window after an indirect destination cleared it (R54). -/
theorem winLookup_yield (rs : List (Nat × Nat)) (s : Nat) : ∀ l : List WinEntry,
    winLookup s ((l.map fun e => { e with slots := e.slots.filter fun p => !inRanges rs p.1 }).filter fun e => !e.slots.isEmpty)
      = if inRanges rs s then none else winLookup s l := by
  intro l
  induction l with
  | nil => simp [winLookup]
  | cons e r ih =>
    have hf := lastWrite_filter s (fun x => !inRanges rs x) e.slots
    by_cases he : (e.slots.filter fun p => !inRanges rs p.1).isEmpty = true
    · have h0 : (e.slots.filter fun p => !inRanges rs p.1) = [] := by simpa using he
      simp only [List.map_cons, List.filter_cons]
      rw [if_neg (by simp [he])]
      rw [ih]
      by_cases hs : inRanges rs s = true
      · simp [hs]
      · rw [h0] at hf
        simp only [hs, lastWrite] at hf
        simp only [hs, winLookup]
        simp at hf
        rw [← hf]
        cases winLookup s r <;> rfl
    · simp only [List.map_cons, List.filter_cons]
      rw [if_pos (by simpa using he)]
      simp only [winLookup, ih, hf]
      by_cases hs : inRanges rs s = true
      · simp [hs]
      · simp [hs]

/-- An indirect destination's clearing of the window changes no slot (R54). -/
@[simp] theorem Thread.slot_yieldFor (rs : List (Nat × Nat)) (h : Thread) (s : Nat) : (h.yieldFor rs).slot s = h.slot s := by
  have bank : ∀ (l : List WinEntry) (b : AMap Word),
      AMap.get 0 (l.foldl (fun b e => bankWrite b (e.slots.filter fun p => inRanges rs p.1)) b) s
        = if inRanges rs s then (winLookup s l).getD (AMap.get 0 b s) else AMap.get 0 b s := by
    intro l
    induction l with
    | nil => intro b; simp [winLookup]
    | cons e r ih =>
      intro b
      rw [List.foldl_cons, ih, get_bankWrite, lastWrite_filter s (inRanges rs)]
      by_cases hs : inRanges rs s = true
      · simp only [hs, if_true, winLookup]
        cases winLookup s r <;> rfl
      · simp [hs]
  have win := winLookup_yield rs s
  simp only [Thread.slot, Thread.yieldFor, win, bank]
  by_cases hs : inRanges rs s = true
  · simp [hs]
  · simp [hs]

/-- A result put into the window is what its slots read as; no other slot changes. -/
theorem winLookup_windowPut (s seq : Nat) (l : List (Nat × Word)) (w : List WinEntry) :
    winLookup s (windowPut seq l w) = (lastWrite s l).or (winLookup s w) := by
  unfold windowPut
  split
  · rename_i e he
    split
    · obtain ⟨r, rfl⟩ : ∃ r, w = r ++ [e] := ⟨w.dropLast, (List.dropLast_append_getLast? e he).symm⟩
      simp only [List.dropLast_concat, winLookup_append, winLookup, lastWrite_append]
      cases lastWrite s l <;> rfl
    · simp only [winLookup_append, winLookup]
  · rename_i he
    have : w = [] := by simpa using he
    subst this
    simp only [winLookup]
    cases lastWrite s l <;> simp

/-- The value a masked write leaves in slot `k` of `n` slots from `s`. -/
def mergedSlot (old val mask k : Nat) : Word :=
  BitVec.ofNat 32 (Nat.lor (Nat.land (val / 2 ^ (32 * k)) (mask / 2 ^ (32 * k) % 2 ^ 32) % 2 ^ 32)
    (Nat.land (old / 2 ^ (32 * k)) (2 ^ 32 - 1 - mask / 2 ^ (32 * k) % 2 ^ 32) % 2 ^ 32))

/-- A masked write stores the merged value in each slot whose mask is not zero, and nothing elsewhere (R168). -/
theorem lastWrite_slotWrites (n : Nat) : ∀ (s old val mask x : Nat),
    lastWrite x (slotWrites s old val mask n)
      = if s ≤ x ∧ x < s + n ∧ mask / 2 ^ (32 * (x - s)) % 2 ^ 32 ≠ 0 then some (mergedSlot old val mask (x - s)) else none := by
  induction n with
  | zero => intro s old val mask x; simp [slotWrites, lastWrite]; omega
  | succ n ih =>
    intro s old val mask x
    have step : ∀ v k : Nat, v / 2 ^ 32 / 2 ^ (32 * k) = v / 2 ^ (32 * (k + 1)) := by
      intro v k
      rw [Nat.div_div_eq_div_mul, ← Nat.pow_add]
      congr 2
      omega
    have tail : lastWrite x (slotWrites (s + 1) (old / 2 ^ 32) (val / 2 ^ 32) (mask / 2 ^ 32) n)
        = if s + 1 ≤ x ∧ x < s + 1 + n ∧ mask / 2 ^ (32 * (x - s)) % 2 ^ 32 ≠ 0 then some (mergedSlot old val mask (x - s)) else none := by
      rw [ih]
      by_cases hx : s + 1 ≤ x
      · have hk : x - s = (x - (s + 1)) + 1 := by omega
        simp only [hx, true_and, mergedSlot, step, hk]
      · simp [hx]
    unfold slotWrites
    simp only
    by_cases hm : mask % 2 ^ 32 = 0
    · simp only [hm, if_true]
      rw [tail]
      by_cases hx : x = s
      · subst hx
        rw [if_neg (by omega), if_neg (by simp only [Nat.sub_self, Nat.mul_zero, Nat.pow_zero, Nat.div_one]; omega)]
      · by_cases h1 : s + 1 ≤ x
        · have h2 : s ≤ x := by omega
          have h3 : x < s + 1 + n ↔ x < s + (n + 1) := by omega
          simp only [h1, h2, h3, true_and]
        · have h2 : ¬ s ≤ x := by omega
          simp [h1, h2]
    · simp only [hm, if_false, lastWrite]
      rw [tail]
      by_cases hx : x = s
      · subst hx
        rw [if_neg (by omega)]
        simp only [if_true]
        rw [if_pos ⟨Nat.le_refl _, by omega, by rw [Nat.sub_self, Nat.mul_zero, Nat.pow_zero, Nat.div_one]; exact hm⟩]
        simp [mergedSlot]
      · have hne : ¬ s = x := fun h => hx h.symm
        simp only [hne, if_false]
        by_cases h1 : s + 1 ≤ x
        · have h2 : s ≤ x := by omega
          have h3 : x < s + 1 + n ↔ x < s + (n + 1) := by omega
          simp only [h1, h2, h3, true_and]
          by_cases hc : x < s + (n + 1) ∧ mask / 2 ^ (32 * (x - s)) % 2 ^ 32 ≠ 0
          · rw [if_pos hc]
          · rw [if_neg hc]
        · have h2 : ¬ s ≤ x := by omega
          simp [h1, h2]

end Sys2Proof.Machine
end

