-- ==== Sys2Proof/Laws/Threads.lean ====
section
/-! SUPPORT. Laws of finding and changing teams, groups, threads and grids: a change shows at its own name and at no other. -/

namespace Sys2Proof.Machine

/-- The first entry of a key after the entries of one key were changed by a function that keeps the key. -/
theorem find_map_key {α : Type} (key : α → Nat) (f : α → α) (hf : ∀ x, key (f x) = key x) (k j : Nat) (l : List α) :
    (l.map fun x => if key x = k then f x else x).find? (fun x => key x == j)
      = if j = k then (l.find? fun x => key x == j).map f else l.find? fun x => key x == j := by
  induction l with
  | nil => simp
  | cons x r ih =>
    simp only [List.map_cons, List.find?_cons]
    by_cases hx : key x = k
    · simp only [hx, if_true, hf]
      by_cases hj : j = k
      · simp [hj]
      · have : ¬ k = j := fun h => hj h.symm
        simp only [hj, if_false] at ih
        have hb : (k == j) = false := by simpa using this
        simp only [hb, ih, hj, if_false]
    · simp only [hx, if_false]
      by_cases hk : key x = j
      · have : ¬ j = k := fun h => hx (hk.trans h)
        simp [hk, this]
      · have hb : (key x == j) = false := by simpa using hk
        simp only [hb, ih]

theorem Dev.team?_mapTeam (d : Dev) (f : Team → Team) (hf : ∀ t, (f t).id = t.id) (id j : Nat) :
    (d.mapTeam id f).team? j = if j = id then (d.team? j).map f else d.team? j :=
  find_map_key Team.id f hf id j d.teams

theorem Team.group?_mapGroup (t : Team) (f : Group → Group) (hf : ∀ g, (f g).gid = g.gid) (gid j : Nat) :
    (t.mapGroup gid f).group? j = if j = gid then (t.group? j).map f else t.group? j :=
  find_map_key Group.gid f hf gid j t.groups

theorem Group.thread?_mapThread (g : Group) (f : Thread → Thread) (hf : ∀ h, (f h).tid = h.tid) (tid j : Nat) :
    (g.mapThread tid f).thread? j = if j = tid then (g.thread? j).map f else g.thread? j :=
  find_map_key Thread.tid f hf tid j g.threads

theorem Dev.grid?_mapGrid (d : Dev) (f : Grid → Grid) (hf : ∀ g, (f g).id = g.id) (id j : Nat) :
    (d.mapGrid id f).grid? j = if j = id then (d.grid? j).map f else d.grid? j :=
  find_map_key Grid.id f hf id j d.grids

theorem Dev.group?_mapGroup (d : Dev) (f : Group → Group) (hf : ∀ g, (f g).gid = g.gid) (team gid team' gid' : Nat) :
    (d.mapGroup team gid f).group? team' gid'
      = if team' = team ∧ gid' = gid then (d.group? team' gid').map f else d.group? team' gid' := by
  unfold Dev.group? Dev.mapGroup
  rw [Dev.team?_mapTeam d (fun t => t.mapGroup gid f) (fun _ => rfl)]
  by_cases ht : team' = team
  · simp only [ht, if_true, true_and]
    cases d.team? team with
    | none => simp
    | some t => simpa using Team.group?_mapGroup t f hf gid gid'
  · simp [ht]

theorem Dev.thread?_mapGroup (d : Dev) (f : Group → Group) (hf : ∀ g, (f g).gid = g.gid) (team gid : Nat) (r : TRef) :
    (d.mapGroup team gid f).thread? r
      = if r.team = team ∧ r.gid = gid then ((d.group? r.team r.gid).map f).bind fun g => g.thread? r.tid else d.thread? r := by
  unfold Dev.thread?
  rw [Dev.group?_mapGroup d f hf]
  split <;> rfl

/-- A change of one thread: it shows at the thread's name, and every other name finds what it found. -/
theorem Dev.thread?_mapThread (d : Dev) (f : Thread → Thread) (hf : ∀ h, (f h).tid = h.tid) (r q : TRef) :
    (d.mapThread r f).thread? q = if q = r then (d.thread? q).map f else d.thread? q := by
  unfold Dev.mapThread
  rw [Dev.thread?_mapGroup d (fun g => g.mapThread r.tid f) (fun _ => rfl)]
  by_cases hg : q.team = r.team ∧ q.gid = r.gid
  · rw [if_pos hg]
    unfold Dev.thread?
    cases hq : d.group? q.team q.gid with
    | none => simp
    | some g =>
      simp only [Option.map_some, Option.bind_some]
      rw [Group.thread?_mapThread g f hf]
      have : q = r ↔ q.tid = r.tid := by
        constructor
        · exact fun h => h ▸ rfl
        · intro h; cases q; cases r; simp_all
      simp only [this]
  · rw [if_neg hg]
    have : ¬ q = r := fun h => hg (h ▸ ⟨rfl, rfl⟩)
    rw [if_neg this]

/-- A change of every thread of a group. -/
theorem Dev.thread?_mapAll (d : Dev) (F : Thread → Thread) (hF : ∀ h, (F h).tid = h.tid) (team gid : Nat) (q : TRef) :
    (d.mapGroup team gid fun g => { g with threads := g.threads.map F }).thread? q
      = if q.team = team ∧ q.gid = gid then (d.thread? q).map F else d.thread? q := by
  rw [Dev.thread?_mapGroup d (fun g => { g with threads := g.threads.map F }) (fun _ => rfl)]
  split
  · unfold Dev.thread?
    cases d.group? q.team q.gid with
    | none => rfl
    | some g =>
      simp only [Option.map_some, Option.bind_some, Group.thread?]
      induction g.threads with
      | nil => rfl
      | cons x l ih =>
        simp only [List.map_cons, List.find?_cons, hF]
        split
        · rfl
        · exact ih
  · rfl

/-- Changing a thread keeps every team, group and other part of the machine. -/
theorem Dev.mapThread_rest (d : Dev) (r : TRef) (f : Thread → Thread) : { d.mapThread r f with teams := d.teams } = d := rfl
theorem Dev.mapGroup_rest (d : Dev) (team gid : Nat) (f : Group → Group) : { d.mapGroup team gid f with teams := d.teams } = d := rfl
theorem Dev.mapTeam_rest (d : Dev) (id : Nat) (f : Team → Team) : { d.mapTeam id f with teams := d.teams } = d := rfl

/-! ## One thread's steps -/

theorem Thread.advance_tid (h : Thread) : h.advance.tid = h.tid := by
  unfold Thread.advance
  split
  · simp only
    split <;> rfl
  · rfl

/-- Past an instruction, a thread that repeats nothing stands one slot on (R235). -/
theorem Thread.advance_plain (h : Thread) (hr : h.repActive = false) : h.advance = { h with pc := h.pc + 1 } := by
  simp [Thread.advance, hr]

/-- Passing an instruction changes the PC and `sr.rep` alone. -/
theorem Thread.advance_eq (h : Thread) : h.advance = { h with pc := h.advance.pc, rep := h.advance.rep } := by
  unfold Thread.advance
  split
  · simp only
    split <;> rfl
  · rfl

@[simp] theorem Thread.advance_bank (h : Thread) : h.advance.bank = h.bank := by rw [Thread.advance_eq]
@[simp] theorem Thread.advance_win (h : Thread) : h.advance.win = h.win := by rw [Thread.advance_eq]
@[simp] theorem Thread.advance_p (h : Thread) : h.advance.p = h.p := by rw [Thread.advance_eq]
@[simp] theorem Thread.advance_x (h : Thread) : h.advance.x = h.x := by rw [Thread.advance_eq]
@[simp] theorem Thread.advance_lane (h : Thread) : h.advance.lane = h.lane := by rw [Thread.advance_eq]
@[simp] theorem Thread.advance_st (h : Thread) : h.advance.st = h.st := by rw [Thread.advance_eq]
@[simp] theorem Thread.advance_trap (h : Thread) : h.advance.trap = h.trap := by rw [Thread.advance_eq]
@[simp] theorem Thread.advance_imgBase (h : Thread) : h.advance.imgBase = h.imgBase := by rw [Thread.advance_eq]
@[simp] theorem Thread.advance_imgSlots (h : Thread) : h.advance.imgSlots = h.imgSlots := by rw [Thread.advance_eq]
@[simp] theorem Thread.advance_pos (h : Thread) : h.advance.pos = h.pos := by rw [Thread.advance_eq]
@[simp] theorem Thread.advance_ordinal (h : Thread) : h.advance.ordinal = h.ordinal := by rw [Thread.advance_eq]
@[simp] theorem Thread.advance_pend (h : Thread) : h.advance.pend = h.pend := by rw [Thread.advance_eq]
@[simp] theorem Thread.advance_bad (h : Thread) : h.advance.bad = h.bad := by rw [Thread.advance_eq]
@[simp] theorem Thread.advance_slot (h : Thread) (s : Nat) : h.advance.slot s = h.slot s := by
  simp [Thread.slot]

/-- Predicate 7 reads as true and is never written (R45). -/
@[simp] theorem Thread.pred_seven (h : Thread) : h.pred 7 = true := rfl
theorem Thread.setPred_seven (h : Thread) (i : Nat) (v : Bool) (hi : 7 ≤ i) : h.setPred i v = h := by
  simp [Thread.setPred, hi]

theorem postAdvance_tid (i : Instr) (h : Thread) : (postAdvance i h).tid = h.tid := by
  have key : ∀ (l : List Nat) (h : Thread), (l.foldl (fun h n =>
      if destIndex i = some n then h else { h with x := AMap.set 0 h.x n (advanceX (AMap.get 0 h.x n)) }) h).tid = h.tid := by
    intro l
    induction l with
    | nil => intro h; rfl
    | cons n r ih =>
      intro h
      rw [List.foldl_cons, ih]
      split <;> rfl
  exact key _ h

/-- An instruction with no indirect operand advances no index register. -/
theorem postAdvance_none (i : Instr) (h : Thread) (hi : postIndices i = []) : postAdvance i h = h := by
  simp [postAdvance, hi]

end Sys2Proof.Machine
end

