-- ==== Sys2Proof/Laws/Touch.lean ====
section
/-! SUPPORT. One thread changed, with the y registers of its group: what a register-to-register instruction does for each thread of a
head run, and what such a change leaves alone. -/

namespace Sys2Proof.Machine

/-! ## Two writes to one key -/

theorem AMap.drop_insert {α : Type} (m : AMap α) (k : Nat) (v : α) : AMap.drop (AMap.insert m k v) k = AMap.drop m k := by
  induction m with
  | nil => simp [AMap.insert, AMap.drop]
  | cons e r ih =>
    obtain ⟨j, w⟩ := e
    unfold AMap.insert
    split
    · simp [AMap.drop]
    · unfold AMap.drop at *
      simp only [List.filter_cons]
      rw [ih]

theorem AMap.drop_drop {α : Type} (m : AMap α) (k : Nat) : AMap.drop (AMap.drop m k) k = AMap.drop m k := by
  unfold AMap.drop
  rw [List.filter_filter]
  congr 1
  funext e
  simp

/-- The later of two writes to one key stands. -/
theorem AMap.set_set {α : Type} [DecidableEq α] (d : α) (m : AMap α) (k : Nat) (v w : α) :
    AMap.set d (AMap.set d m k v) k w = AMap.set d m k w := by
  have h : AMap.drop (AMap.set d m k v) k = AMap.drop m k := by
    unfold AMap.set
    split
    · exact AMap.drop_drop m k
    · rw [AMap.drop_insert, AMap.drop_drop]
  unfold AMap.set at *
  rw [h]

/-! ## A thread and its group's y registers -/

/-- Thread `w` changed by `F`, and its group's y registers by `Y`. -/
def Dev.touch (d : Dev) (w : Who) (F : Thread → Thread) (Y : AMap Word → AMap Word) : Dev :=
  match w with
  | .thr r => d.mapGroup r.team r.gid fun g => { g.mapThread r.tid F with y := Y g.y }
  | .que q => d.setQueue q { d.queue q with thread := F (d.queue q).thread }

theorem Dev.mapWho_touch (d : Dev) (w : Who) (F : Thread → Thread) : d.mapWho w F = d.touch w F id := by
  cases w <;> rfl

theorem Dev.mapTeam_comp (d : Dev) (id : Nat) (f g : Team → Team) (hf : ∀ t, (f t).id = t.id) :
    (d.mapTeam id f).mapTeam id g = d.mapTeam id (fun t => g (f t)) := by
  unfold Dev.mapTeam
  simp only [List.map_map]
  congr 1
  apply List.map_congr_left
  intro t _
  simp only [Function.comp]
  by_cases h : t.id = id <;> simp [h, hf]

theorem Dev.mapGroup_comp (d : Dev) (team gid : Nat) (f g : Group → Group) (hf : ∀ x, (f x).gid = x.gid) :
    (d.mapGroup team gid f).mapGroup team gid g = d.mapGroup team gid (fun x => g (f x)) := by
  unfold Dev.mapGroup
  rw [Dev.mapTeam_comp d team (fun t => t.mapGroup gid f) _ (fun _ => rfl)]
  congr 1
  funext t
  unfold Team.mapGroup
  simp only [List.map_map]
  congr 1
  apply List.map_congr_left
  intro x _
  simp only [Function.comp]
  by_cases h : x.gid = gid <;> simp [h, hf]

/-- Two changes of one thread are one. -/
theorem Dev.touch_touch (d : Dev) (w : Who) (F F' : Thread → Thread) (Y Y' : AMap Word → AMap Word) (hF : ∀ h, (F h).tid = h.tid) :
    (d.touch w F Y).touch w F' Y' = d.touch w (fun h => F' (F h)) (fun y => Y' (Y y)) := by
  cases w with
  | thr r =>
    unfold Dev.touch
    simp only
    rw [Dev.mapGroup_comp d r.team r.gid (fun g => { g.mapThread r.tid F with y := Y g.y }) _ (fun _ => rfl)]
    congr 1
    funext g
    unfold Group.mapThread
    simp only [List.map_map]
    congr 1
    apply List.map_congr_left
    intro h _
    simp only [Function.comp]
    by_cases hh : h.tid = r.tid <;> simp [hh, hF]
  | que q =>
    unfold Dev.touch Dev.setQueue Dev.queue
    simp only [AMap.get_set, if_true, AMap.set_set]

theorem Dev.whoThread_touch (d : Dev) (w v : Who) (F : Thread → Thread) (Y : AMap Word → AMap Word) (hF : ∀ h, (F h).tid = h.tid) :
    whoThread (d.touch w F Y) v = if v = w then (whoThread d v).map F else whoThread d v := by
  cases w with
  | thr r =>
    cases v with
    | thr q =>
      unfold Dev.touch whoThread
      simp only [Who.thr.injEq]
      rw [Dev.thread?_mapGroup d (fun g => { g.mapThread r.tid F with y := Y g.y }) (fun _ => rfl)]
      by_cases hg : q.team = r.team ∧ q.gid = r.gid
      · rw [if_pos hg]
        unfold Dev.thread?
        cases hq : d.group? q.team q.gid with
        | none => simp
        | some g =>
          simp only [Option.map_some, Option.bind_some]
          have := Group.thread?_mapThread g F hF r.tid q.tid
          unfold Group.thread? at this ⊢
          rw [this]
          have : q = r ↔ q.tid = r.tid := by
            constructor
            · exact fun h => h ▸ rfl
            · intro h; cases q; cases r; simp_all
          simp only [this]
      · rw [if_neg hg]
        have : ¬ q = r := fun h => hg (h ▸ ⟨rfl, rfl⟩)
        rw [if_neg this]
    | que q => simp [Dev.touch, whoThread, Dev.mapGroup, Dev.mapTeam, Dev.queue]
  | que q =>
    cases v with
    | thr r => simp [Dev.touch, whoThread, Dev.setQueue, Dev.thread?, Dev.group?, Dev.team?]
    | que p =>
      simp only [Dev.touch, whoThread, Dev.setQueue, Dev.queue, AMap.get_set, Who.que.injEq]
      split <;> simp_all

theorem Dev.touch_rest (d e : Dev) (w : Who) (F : Thread → Thread) (Y : AMap Word → AMap Word) :
    { d.touch w F Y with teams := e.teams, queues := e.queues } = { d with teams := e.teams, queues := e.queues } := by
  cases w <;> rfl

theorem Dev.touch_cur (d : Dev) (w : Who) (F : Thread → Thread) (Y : AMap Word → AMap Word) : (d.touch w F Y).cur = d.cur := by
  cases w <;> rfl

theorem Dev.touch_alive (d : Dev) (w v : Who) (F : Thread → Thread) (Y : AMap Word → AMap Word) :
    (d.touch w F Y).alive v = d.alive v := by
  cases v with
  | que q => rfl
  | thr r =>
    cases w with
    | que q => rfl
    | thr q =>
      unfold Dev.touch Dev.alive Dev.mapGroup
      simp only
      rw [Dev.team?_mapTeam d (fun t => t.mapGroup q.gid _) (fun _ => rfl)]
      split
      · cases d.team? r.team <;> rfl
      · rfl

/-- A change that a group's `fixed` does not see leaves every team's `fixed` part. -/
theorem Dev.mapGroup_fixed (d : Dev) (team gid : Nat) (f : Group → Group) (hf : ∀ g, (f g).fixed = g.fixed) :
    (d.mapGroup team gid f).teams.map Team.fixed = d.teams.map Team.fixed := by
  unfold Dev.mapGroup Dev.mapTeam
  simp only [List.map_map]
  apply List.map_congr_left
  intro t _
  simp only [Function.comp]
  split
  · unfold Team.mapGroup Team.fixed
    simp only [List.map_map]
    congr 1
    apply List.map_congr_left
    intro g _
    simp only [Function.comp]
    split
    · exact hf g
    · rfl
  · rfl

theorem Group.mapThread_fixed (g : Group) (tid : Nat) (F : Thread → Thread) (y : AMap Word) (hF : ∀ h, (F h).fixed = h.fixed) :
    Group.fixed { g.mapThread tid F with y := y } = g.fixed := by
  unfold Group.mapThread Group.fixed
  simp only [List.map_map]
  congr 1
  apply List.map_congr_left
  intro h _
  simp only [Function.comp]
  split
  · exact hF h
  · rfl

theorem Dev.touch_fixed (d : Dev) (w : Who) (F : Thread → Thread) (Y : AMap Word → AMap Word) (hF : ∀ h, (F h).fixed = h.fixed) :
    (d.touch w F Y).teams.map Team.fixed = d.teams.map Team.fixed := by
  cases w with
  | thr r => exact Dev.mapGroup_fixed d r.team r.gid _ fun g => Group.mapThread_fixed g r.tid F (Y g.y) hF
  | que q => rfl

theorem Dev.touch_queue (d : Dev) (w : Who) (F : Thread → Thread) (Y : AMap Word → AMap Word) (hF : ∀ h, (F h).fixed = h.fixed) (q : Nat) :
    ((d.touch w F Y).queue q).fixed = (d.queue q).fixed := by
  cases w with
  | thr r => rfl
  | que p =>
    unfold Dev.touch Dev.setQueue Dev.queue
    simp only [AMap.get_set]
    split
    · rename_i h
      subst h
      unfold Queue.fixed
      simp only [hF]
    · rfl

/-- The group of a thread changed, and every other one. -/
theorem Dev.touch_group (d : Dev) (r : TRef) (F : Thread → Thread) (Y : AMap Word → AMap Word) (team gid : Nat) :
    (d.touch (.thr r) F Y).group? team gid
      = if team = r.team ∧ gid = r.gid then (d.group? team gid).map fun g => { g.mapThread r.tid F with y := Y g.y } else d.group? team gid :=
  Dev.group?_mapGroup d (fun g => { g.mapThread r.tid F with y := Y g.y }) (fun _ => rfl) r.team r.gid team gid

end Sys2Proof.Machine
end

