-- ==== Sys2Proof/Laws/RegRun.lean ====
section
/-! SUPPORT. What a register-to-register instruction does to each thread of a head run, and to the machine: every statement about
results in registers rests on `computesAll_of_run`. -/

namespace Sys2Proof.Machine

/-! ## One destination -/

/-- What `writeDest` does to the thread. -/
def wrThread (w : Who) (r : Roles.Role) (o : Operand) (first seq val mask : Nat) (h : Thread) : Thread :=
  match o with
  | .reg .g _ _ _ =>
    match w with
    | .thr _ => { h.cure (wholeSlots first mask (roleSlots r).1) with
        win := windowPut seq (slotWrites first (h.slots first (roleSlots r).1) val mask (roleSlots r).1) h.win }
    | .que _ => { h.flush with bank := bankWrite h.flush.bank (slotWrites first (h.slots first (roleSlots r).1) val mask (roleSlots r).1) }
  | .ind _ _ _ => { h.cure (wholeSlots first mask (roleSlots r).1) with
      bank := bankWrite h.bank (slotWrites first (h.bankSlots first (roleSlots r).1) val mask (roleSlots r).1) }
  | .reg .p _ _ i => h.setPred i.toNat (val % 2 == 1)
  | .reg .x _ _ i => { h with x := AMap.set 0 h.x i.toNat (BitVec.ofNat 64 val) }
  | _ => h

theorem Dev.touch_id (d : Dev) (r : TRef) : d.touch (.thr r) id id = d := by
  unfold Dev.touch Dev.mapGroup Dev.mapTeam
  simp only
  have h : (d.teams.map fun t => if t.id = r.team then
      t.mapGroup r.gid (fun g => { g.mapThread r.tid id with y := id g.y }) else t) = d.teams.map id := by
    apply List.map_congr_left
    intro t _
    split
    · unfold Team.mapGroup
      have h : (t.groups.map fun g => if g.gid = r.gid then { g.mapThread r.tid id with y := id g.y } else g) = t.groups.map id := by
        apply List.map_congr_left
        intro g _
        split
        · unfold Group.mapThread
          simp
        · rfl
      rw [h, List.map_id]
      rfl
    · rfl
  rw [h, List.map_id]

/-- A result written and then one more change of the thread are one change. -/
theorem touch_writeDest (d : Dev) (w : Who) (r : Roles.Role) (o : Operand) (first seq val mask : Nat) (F : Thread → Thread)
    (Y : AMap Word → AMap Word) :
    (writeDest d w r o first seq val mask).touch w F Y
      = d.touch w (fun h => F (wrThread w r o first seq val mask h)) (fun y => Y (yPut o val mask y)) := by
  cases o with
  | reg file neg abs i =>
    cases file with
    | g =>
      cases w with
      | thr t =>
        simp only [writeDest, Dev.mapWho_touch]
        rw [Dev.touch_touch _ _ _ _ _ _ (fun h => by rfl)]
        rfl
      | que q =>
        simp only [writeDest, Dev.mapWho_touch]
        rw [Dev.touch_touch _ _ _ _ _ _ (fun h => by rfl)]
        rfl
    | y =>
      cases w with
      | thr t =>
        have h : writeDest d (.thr t) r (.reg .y neg abs i) first seq val mask
            = d.touch (.thr t) id (fun y => yWrite y i.toNat val mask) := by
          unfold writeDest Dev.touch Dev.mapGroup Group.mapThread
          simp only
          congr 1
          funext t'
          congr 1
          funext g
          simp
        rw [h, Dev.touch_touch _ _ _ _ _ _ (fun h => by rfl)]
        rfl
      | que q => rfl
    | p =>
      simp only [writeDest, Dev.mapWho_touch]
      rw [Dev.touch_touch _ _ _ _ _ _ (fun h => by unfold Thread.setPred; split <;> rfl)]
      rfl
    | x =>
      simp only [writeDest, Dev.mapWho_touch]
      rw [Dev.touch_touch _ _ _ _ _ _ (fun h => by rfl)]
      rfl
    | sr => rfl
    | h => rfl
    | t => rfl
  | ind x off post =>
    simp only [writeDest, Dev.mapWho_touch]
    rw [Dev.touch_touch _ _ _ _ _ _ (fun h => by rfl)]
    rfl
  | imm v => rfl
  | cbank b o => rfl
  | lit s k => rfl
  | none => rfl

theorem wrThread_tid (w : Who) (r : Roles.Role) (o : Operand) (first seq val mask : Nat) (h : Thread) :
    (wrThread w r o first seq val mask h).tid = h.tid := by
  unfold wrThread
  split
  · split <;> rfl
  · rfl
  · unfold Thread.setPred; split <;> rfl
  · rfl
  · rfl

theorem wrThread_fixed (w : Who) (r : Roles.Role) (o : Operand) (first seq val mask : Nat) (h : Thread) :
    (wrThread w r o first seq val mask h).fixed = h.fixed := by
  unfold wrThread
  split
  · split <;> rfl
  · rfl
  · unfold Thread.setPred; split <;> rfl
  · rfl
  · rfl

/-! ## A whole result -/

/-- Past the instruction. -/
def Thread.goOn (h : Thread) : Word × Word := (h.advance.pc, h.advance.rep)

/-- What an acting thread's issue does to the thread, `go` giving its PC and `sr.rep`. -/
def outThread (i : Instr) (o : Out) (e : Env) (w : Who) (go : Thread → Word × Word) (h : Thread) : Thread :=
  let k := wrThread w (Roles.rolesOf i).1 (Roles.opsOf i).1 (firstSlot e (Roles.rolesOf i).1 (Roles.opsOf i).1) (nextSeq e) o.val o.mask h
  let k := match o.scale with
    | some v => wrThread w (Roles.rolesOf i).2.2 (Roles.opsOf i).2.2 (firstSlot e (Roles.rolesOf i).2.2 (Roles.opsOf i).2.2) (nextSeq e) v 0xFF k
    | none => k
  { postAdvance i { k with pos := k.pos + BitVec.ofNat 64 o.draws } with pc := (go h).1, rep := (go h).2 }

/-- What it does to the y registers of the group. -/
def outY (i : Instr) (o : Out) (y : AMap Word) : AMap Word :=
  let y := yPut (Roles.opsOf i).1 o.val o.mask y
  match o.scale with | some v => yPut (Roles.opsOf i).2.2 v 0xFF y | none => y

theorem postAdvance_fixed (i : Instr) (h : Thread) :
    (postAdvance i h).fixed = h.fixed ∧ (postAdvance i h).pc = h.pc ∧ (postAdvance i h).rep = h.rep ∧ (postAdvance i h).p = h.p ∧
      (postAdvance i h).pos = h.pos ∧ (postAdvance i h).bank = h.bank ∧ (postAdvance i h).win = h.win ∧ (postAdvance i h).bad = h.bad := by
  have key : ∀ (l : List Nat) (h : Thread), ∃ x, (l.foldl (fun h n =>
      if destIndex i = some n then h else { h with x := AMap.set 0 h.x n (advanceX (AMap.get 0 h.x n)) }) h) = { h with x := x } := by
    intro l
    induction l with
    | nil => intro h; exact ⟨h.x, rfl⟩
    | cons n r ih =>
      intro h
      rw [List.foldl_cons]
      split
      · exact ih h
      · obtain ⟨x, hx⟩ := ih { h with x := AMap.set 0 h.x n (advanceX (AMap.get 0 h.x n)) }
        exact ⟨x, hx⟩
  obtain ⟨x, hx⟩ := key (postIndices i) h
  have : postAdvance i h = { h with x := x } := hx
  rw [this]
  exact ⟨rfl, rfl, rfl, rfl, rfl, rfl, rfl, rfl⟩

theorem Thread.advance_fixed (h : Thread) : h.advance.fixed = h.fixed := by
  rw [Thread.advance_eq]
  rfl

/-- Where a thread goes depends on its PC and `sr.rep` alone. -/
theorem Thread.goOn_congr (a b : Thread) (h1 : a.pc = b.pc) (h2 : a.rep = b.rep) : a.goOn = b.goOn := by
  unfold Thread.goOn Thread.advance Thread.repActive
  rw [h1, h2]
  split
  · simp only
    split <;> simp
  · simp

theorem wrThread_pc (w : Who) (r : Roles.Role) (o : Operand) (first seq val mask : Nat) (h : Thread) :
    (wrThread w r o first seq val mask h).pc = h.pc ∧ (wrThread w r o first seq val mask h).rep = h.rep ∧
      (wrThread w r o first seq val mask h).pos = h.pos := by
  unfold wrThread
  split
  · split <;> exact ⟨rfl, rfl, rfl⟩
  · exact ⟨rfl, rfl, rfl⟩
  · unfold Thread.setPred; split <;> exact ⟨rfl, rfl, rfl⟩
  · exact ⟨rfl, rfl, rfl⟩
  · exact ⟨rfl, rfl, rfl⟩

theorem writeOut_touch (i : Instr) (o : Out) (e : Env) (w : Who) (d : Dev) :
    writeOut i o e w d = d.touch w (outThread i o e w Thread.goOn) (outY i o) := by
  have go : ∀ (k h : Thread), k.pc = h.pc → k.rep = h.rep → (postAdvance i k).advance = { postAdvance i k with pc := h.goOn.1, rep := h.goOn.2 } := by
    intro k h h1 h2
    have hp := postAdvance_fixed i k
    have := Thread.goOn_congr (postAdvance i k) h (by rw [hp.2.1, h1]) (by rw [hp.2.2.1, h2])
    rw [← this]
    exact Thread.advance_eq _
  unfold writeOut Dev.pass
  simp only [Dev.mapWho_touch]
  rw [Dev.touch_touch _ _ _ _ _ _ (fun h => by rfl)]
  cases h : o.scale with
  | none =>
    simp only
    rw [touch_writeDest]
    congr 1
    · funext k
      have h1 := wrThread_pc w (Roles.rolesOf i).1 (Roles.opsOf i).1 (firstSlot e (Roles.rolesOf i).1 (Roles.opsOf i).1) (nextSeq e) o.val o.mask k
      rw [go _ k (by exact h1.1) (by exact h1.2.1)]
      unfold outThread
      simp only [h]
    · funext y
      unfold outY
      simp only [h]
      rfl
  | some v =>
    simp only
    rw [touch_writeDest, touch_writeDest]
    congr 1
    · funext k
      have h1 := wrThread_pc w (Roles.rolesOf i).1 (Roles.opsOf i).1 (firstSlot e (Roles.rolesOf i).1 (Roles.opsOf i).1) (nextSeq e) o.val o.mask k
      have h2 := wrThread_pc w (Roles.rolesOf i).2.2 (Roles.opsOf i).2.2 (firstSlot e (Roles.rolesOf i).2.2 (Roles.opsOf i).2.2) (nextSeq e) v 0xFF
        (wrThread w (Roles.rolesOf i).1 (Roles.opsOf i).1 (firstSlot e (Roles.rolesOf i).1 (Roles.opsOf i).1) (nextSeq e) o.val o.mask k)
      rw [go _ k (by exact h2.1.trans h1.1) (by exact h2.2.1.trans h1.2.1)]
      unfold outThread
      simp only [h]
    · funext y
      unfold outY
      simp only [h]
      rfl

theorem outThread_fixed (i : Instr) (o : Out) (e : Env) (w : Who) (go : Thread → Word × Word) (h : Thread) :
    (outThread i o e w go h).fixed = h.fixed := by
  unfold outThread
  simp only
  have step : ∀ (k : Thread) (a b : Word), Thread.fixed { postAdvance i k with pc := a, rep := b } = k.fixed := by
    intro k a b
    exact (postAdvance_fixed i k).1
  rw [step]
  cases o.scale with
  | none => exact wrThread_fixed ..
  | some v =>
    simp only
    exact (wrThread_fixed ..).trans (wrThread_fixed ..)

theorem fixed_tid {a b : Thread} (h : a.fixed = b.fixed) : a.tid = b.tid := by
  have := congrArg Thread.tid h
  exact this

/-! ## A run as one change for each thread -/

/-- Each thread of `l` in turn: the named ones are changed by `F` and `Y`, the others pass. -/
def foldRun (F : Who × Env → Thread → Thread) (Y : Who × Env → AMap Word → AMap Word) (acts : List Who) (l : List (Who × Env)) (d : Dev) : Dev :=
  l.foldl (fun d p => if p.1 ∈ acts then d.touch p.1 (F p) (Y p) else d.touch p.1 Thread.advance id) d

theorem issuers_alive (d : Dev) (p : Who × Env) (hp : p ∈ issuers d) : d.alive p.1 = true := by
  unfold issuers at hp
  split at hp
  · simp at hp
  · split at hp
    · simp at hp
    · rename_i t ht
      split at hp
      · simp at hp
      · rename_i hs
        split at hp
        · simp at hp
        · rename_i g hg
          simp only [List.mem_filterMap, Option.map_eq_some_iff] at hp
          obtain ⟨l, -, h, -, rfl⟩ := hp
          simpa [Dev.alive, ht] using hs
  · simp only [List.mem_singleton] at hp
    subst hp
    rfl

theorem issueOne_clear (i : Instr) (eff : Env → Who → Dev → Dev) (p : Who × Env) (d : Dev) (ha : d.alive p.1 = true)
    (hc : clear p.2 i = true) : issueOne i noCheck eff p d = eff p.2 p.1 d := by
  unfold clear at hc
  simp only [Bool.and_eq_true, Option.isNone_iff_eq_none] at hc
  simp [issueOne, ha, hc.1.1, hc.1.2, hc.2, noCheck]

theorem issueOne_false (i : Instr) (eff : Env → Who → Dev → Dev) (p : Who × Env) (d : Dev) (ha : d.alive p.1 = true)
    (hc : p.2.h.guard (Roles.ctlOf i) = false) : issueOne i noCheck eff p d = d.touch p.1 Thread.advance id := by
  simp [issueOne, ha, hc, Dev.skip, Dev.mapWho_touch]

theorem foldRun_alive (F : Who × Env → Thread → Thread) (Y : Who × Env → AMap Word → AMap Word) (acts : List Who) (l : List (Who × Env)) :
    ∀ (d : Dev) (w : Who), (foldRun F Y acts l d).alive w = d.alive w := by
  induction l with
  | nil => intro d w; rfl
  | cons p r ih =>
    intro d w
    unfold foldRun at ih ⊢
    rw [List.foldl_cons, ih]
    split <;> exact Dev.touch_alive ..

/-- Each thread of a run in turn, where those with a true guard do not trap; `eff` changes the thread and its y registers alone. -/
theorem eachThread_fold (i : Instr) (eff : Env → Who → Dev → Dev) (F : Who × Env → Thread → Thread) (Y : Who × Env → AMap Word → AMap Word)
    (he : ∀ p d, eff p.2 p.1 d = d.touch p.1 (F p) (Y p)) (acts : List Who) (l : List (Who × Env))
    (hact : ∀ p ∈ l, p.1 ∈ acts ↔ p.2.h.guard (Roles.ctlOf i) = true)
    (hc : ∀ p ∈ l, p.2.h.guard (Roles.ctlOf i) = true → clear p.2 i = true) : ∀ (d : Dev), (∀ p ∈ l, d.alive p.1 = true) →
    l.foldl (fun d p => issueOne i noCheck eff p d) d = foldRun F Y acts l d := by
  induction l with
  | nil => intro d _; rfl
  | cons p r ih =>
    intro d ha
    unfold foldRun
    rw [List.foldl_cons, List.foldl_cons]
    have hp := ha p (List.mem_cons_self ..)
    have one : issueOne i noCheck eff p d = if p.1 ∈ acts then d.touch p.1 (F p) (Y p) else d.touch p.1 Thread.advance id := by
      by_cases hg : p.2.h.guard (Roles.ctlOf i) = true
      · rw [issueOne_clear i _ p d hp (hc p (List.mem_cons_self ..) hg), he, if_pos ((hact p (List.mem_cons_self ..)).2 hg)]
      · have hg' : p.2.h.guard (Roles.ctlOf i) = false := by simpa using hg
        rw [issueOne_false i _ p d hp hg', if_neg (fun h => hg ((hact p (List.mem_cons_self ..)).1 h))]
    rw [one, ih (fun q hq => hact q (List.mem_cons_of_mem _ hq)) (fun q hq => hc q (List.mem_cons_of_mem _ hq))]
    · rfl
    · intro q hq
      have := ha q (List.mem_cons_of_mem _ hq)
      split <;> rw [Dev.touch_alive] <;> exact this

/-- The single issue of a run, where the thread that performs it does not trap (R27). -/
theorem uniformOnce_run (i : Instr) (eff : Env → Who → Dev → Dev) (F : Who × Env → Thread → Thread) (Y : Who × Env → AMap Word → AMap Word)
    (he : ∀ p d, eff p.2 p.1 d = d.touch p.1 (F p) (Y p)) (d : Dev) (hn : ((issuers d).map (·.1)).Nodup)
    (hc : ∀ p ∈ ((issuers d).filter fun p => p.2.h.guard (Roles.ctlOf i)).take 1, clear p.2 i = true) :
    uniformOnce i noCheck eff d
      = foldRun F Y ((((issuers d).filter fun p => p.2.h.guard (Roles.ctlOf i)).take 1).map (·.1)) (issuers d) d := by
  have skip : ∀ (acts : List Who) (l : List (Who × Env)), (∀ p ∈ l, p.1 ∉ acts) → ∀ d : Dev,
      l.foldl (fun d p => d.skip p.1) d = foldRun F Y acts l d := by
    intro acts l
    induction l with
    | nil => intro _ d; rfl
    | cons p r ih =>
      intro h d
      unfold foldRun
      rw [List.foldl_cons, List.foldl_cons, if_neg (h p (List.mem_cons_self ..)), ih fun q hq => h q (List.mem_cons_of_mem _ hq)]
      rw [Dev.skip, Dev.mapWho_touch]
      rfl
  unfold uniformOnce
  simp only
  cases hf : (issuers d).find? fun p => p.2.h.guard (Roles.ctlOf i) with
  | none =>
    simp only
    have : ((issuers d).filter fun p => p.2.h.guard (Roles.ctlOf i)) = [] := by
      rw [List.find?_eq_none] at hf
      rw [List.filter_eq_nil_iff]
      exact fun p hp => by simpa using hf p hp
    rw [this]
    exact skip _ _ (fun _ _ => by simp) d
  | some p =>
    simp only
    have hp : ((issuers d).filter fun p => p.2.h.guard (Roles.ctlOf i)).take 1 = [p] := by
      have := List.head?_filter (p := fun p : Who × Env => p.2.h.guard (Roles.ctlOf i)) (l := issuers d)
      rw [hf] at this
      cases h : (issuers d).filter fun p => p.2.h.guard (Roles.ctlOf i) with
      | nil => rw [h] at this; simp at this
      | cons q r => rw [h] at this; simp at this; simp [this]
    rw [hp] at hc ⊢
    have hpc := hc p (List.mem_singleton.2 rfl)
    have hmem : p ∈ issuers d := List.mem_of_find?_eq_some hf
    have go : ∀ (l : List (Who × Env)), (∀ q ∈ l, q ∈ issuers d) → ∀ e : Dev, (∀ q ∈ l, e.alive q.1 = true) →
        l.foldl (fun d q => if q.1 = p.1 then issueOne i noCheck eff q d
          else if d.alive q.1 then d.skip q.1 else d) e = foldRun F Y [p.1] l e := by
      intro l
      induction l with
      | nil => intro _ e _; rfl
      | cons q r ih =>
        intro hm e ha
        have hq := ha q (List.mem_cons_self ..)
        unfold foldRun
        rw [List.foldl_cons, List.foldl_cons]
        have one : (if q.1 = p.1 then issueOne i noCheck eff q e
            else if e.alive q.1 then e.skip q.1 else e)
            = if q.1 ∈ [p.1] then e.touch q.1 (F q) (Y q) else e.touch q.1 Thread.advance id := by
          by_cases hqp : q.1 = p.1
          · have hqm := hm q (List.mem_cons_self ..)
            have : q = p := by
              have := List.inj_on_of_nodup_map hn hqm hmem hqp
              exact this
            subst this
            rw [if_pos rfl, if_pos (by simp), issueOne_clear i _ q e hq hpc, he]
          · simp only [hqp, if_false, hq, if_true, List.mem_singleton, Dev.skip, Dev.mapWho_touch]
        rw [one, ih fun q hq => hm q (List.mem_cons_of_mem _ hq)]
        · rfl
        · intro v hv
          have := ha v (List.mem_cons_of_mem _ hv)
          split <;> rw [Dev.touch_alive] <;> exact this
    simpa using go (issuers d) (fun _ h => h) d fun q hq => issuers_alive d q hq

theorem Dev.mapGroup_id (d : Dev) (team gid : Nat) (f : Group → Group) (hf : ∀ g, f g = g) : d.mapGroup team gid f = d := by
  unfold Dev.mapGroup Dev.mapTeam
  have h : (d.teams.map fun t => if t.id = team then t.mapGroup gid f else t) = d.teams.map id := by
    apply List.map_congr_left
    intro t _
    split
    · unfold Team.mapGroup
      have h : (t.groups.map fun g => if g.gid = gid then f g else g) = t.groups.map id := by
        apply List.map_congr_left
        intro g _
        split
        · exact hf g
        · rfl
      rw [h, List.map_id]
      rfl
    · rfl
  rw [h, List.map_id]

/-- An instruction that issues once has no indirect operand, so the window needs no preparing. -/
theorem prepare_uniform (i : Instr) (d : Dev) (hu : uniformIssue i = true) : d.prepare i = d := by
  have hr : ∀ (b : Bool) (hs : List Thread), indRanges i b hs = [] := by
    intro b hs
    unfold uniformIssue at hu
    unfold indRanges
    simp only [Bool.and_eq_true] at hu ⊢
    obtain ⟨⟨h1, h2⟩, h3⟩ := hu
    generalize (Roles.opsOf i).1 = o1 at *
    generalize (Roles.opsOf i).2.1 = o2 at *
    generalize (Roles.opsOf i).2.2 = o3 at *
    cases o1 <;> first | exact absurd h1 Bool.false_ne_true | skip
    all_goals cases o2 <;> first | exact absurd h2 Bool.false_ne_true | skip
    all_goals cases o3 <;> first | exact absurd h3 Bool.false_ne_true | skip
    all_goals rfl
  unfold Dev.prepare
  split
  · apply Dev.mapGroup_id
    intro g
    unfold prepareWindow
    simp [hr]
  · rfl

/-- A run in which every thread with a true guard acts for itself. -/
theorem eachThread_run (i : Instr) (eff : Env → Who → Dev → Dev) (F : Who × Env → Thread → Thread) (Y : Who × Env → AMap Word → AMap Word)
    (he : ∀ p d, eff p.2 p.1 d = d.touch p.1 (F p) (Y p)) (s : State) (hq : quietAll i s = true) :
    eachThread i noCheck eff s.dev = foldRun F Y ((actors i s.dev).map (·.1)) (issuers (s.dev.prepare i)) (s.dev.prepare i) := by
  unfold quietAll quietFor at hq
  simp only [Bool.and_eq_true, decide_eq_true_eq, List.all_eq_true] at hq
  obtain ⟨⟨⟨-, hn⟩, -⟩, hc⟩ := hq
  unfold actors at hc ⊢
  unfold eachThread
  apply eachThread_fold i eff F Y he
  · intro p hp
    simp only [List.mem_map, List.mem_filter]
    constructor
    · rintro ⟨q, ⟨hq, hg⟩, hqp⟩
      have := List.inj_on_of_nodup_map hn hq hp hqp
      rwa [← this]
    · exact fun hg => ⟨p, ⟨hp, hg⟩, rfl⟩
  · intro p hp hg
    exact hc p (by simp [hp, hg])
  · intro p hp
    exact issuers_alive _ p hp

/-- The threads of a quiet run: their names are distinct, they are found by them, those that perform do not trap. -/
theorem issueAll_run (i : Instr) (eff : Env → Who → Dev → Dev) (F : Who × Env → Thread → Thread) (Y : Who × Env → AMap Word → AMap Word)
    (he : ∀ p d, eff p.2 p.1 d = d.touch p.1 (F p) (Y p)) (s : State) (hq : quiet i s = true) :
    issueAll i noCheck eff s.dev = foldRun F Y ((performers i s.dev).map (·.1)) (issuers (s.dev.prepare i)) (s.dev.prepare i) := by
  unfold issueAll
  by_cases hu : uniformIssue i = true
  · rw [if_pos hu]
    unfold quiet quietFor at hq
    simp only [Bool.and_eq_true, decide_eq_true_eq, List.all_eq_true] at hq
    obtain ⟨⟨⟨-, hn⟩, -⟩, hc⟩ := hq
    unfold performers actors at hc ⊢
    simp only [hu, if_true] at hc ⊢
    rw [prepare_uniform i s.dev hu] at hn hc ⊢
    exact uniformOnce_run i eff F Y he s.dev hn hc
  · rw [if_neg hu]
    have : performers i s.dev = actors i s.dev := by simp [performers, hu]
    rw [this]
    apply eachThread_run i eff F Y he
    unfold quiet at hq
    rwa [this] at hq

/-! ## What a whole run leaves -/

/-- The change of one thread in a run, and of the y registers. -/
def runThread (F : Who × Env → Thread → Thread) (acts : List Who) (p : Who × Env) : Thread → Thread :=
  if p.1 ∈ acts then F p else Thread.advance
def runY (Y : Who × Env → AMap Word → AMap Word) (acts : List Who) (p : Who × Env) : AMap Word → AMap Word :=
  if p.1 ∈ acts then Y p else id

theorem foldRun_cons (F : Who × Env → Thread → Thread) (Y : Who × Env → AMap Word → AMap Word) (acts : List Who) (p : Who × Env) (l : List (Who × Env)) (d : Dev) :
    foldRun F Y acts (p :: l) d = foldRun F Y acts l (d.touch p.1 (runThread F acts p) (runY Y acts p)) := by
  unfold foldRun runThread runY
  rw [List.foldl_cons]
  split <;> rfl

theorem runThread_fixed (F : Who × Env → Thread → Thread) (hF : ∀ p h, (F p h).fixed = h.fixed) (acts : List Who) (p : Who × Env) (h : Thread) :
    (runThread F acts p h).fixed = h.fixed := by
  unfold runThread
  split
  · exact hF p h
  · exact Thread.advance_fixed h

theorem runThread_tid (F : Who × Env → Thread → Thread) (hF : ∀ p h, (F p h).fixed = h.fixed) (acts : List Who) (p : Who × Env) (h : Thread) :
    (runThread F acts p h).tid = h.tid := fixed_tid (runThread_fixed F hF acts p h)

theorem foldRun_other (F : Who × Env → Thread → Thread) (hF : ∀ p h, (F p h).fixed = h.fixed) (Y : Who × Env → AMap Word → AMap Word) (acts : List Who) (l : List (Who × Env)) : ∀ (d : Dev) (v : Who),
    v ∉ l.map (·.1) → whoThread (foldRun F Y acts l d) v = whoThread d v := by
  induction l with
  | nil => intro d v _; rfl
  | cons p r ih =>
    intro d v hv
    have hne : ¬ v = p.1 := fun h => hv (by simp [h])
    rw [foldRun_cons, ih _ v (fun h => hv (List.mem_cons_of_mem _ h)), Dev.whoThread_touch _ _ _ _ _ (runThread_tid F hF acts p),
      if_neg hne]

theorem foldRun_mem (F : Who × Env → Thread → Thread) (hF : ∀ p h, (F p h).fixed = h.fixed) (Y : Who × Env → AMap Word → AMap Word) (acts : List Who) (l : List (Who × Env)) : ∀ (d : Dev), (l.map (·.1)).Nodup →
    ∀ p ∈ l, whoThread (foldRun F Y acts l d) p.1 = (whoThread d p.1).map (runThread F acts p) := by
  induction l with
  | nil => intro d _ p hp; simp at hp
  | cons q r ih =>
    intro d hn p hp
    rw [List.map_cons, List.nodup_cons] at hn
    rw [foldRun_cons]
    rcases List.mem_cons.1 hp with rfl | hp
    · rw [foldRun_other F hF Y acts r _ _ hn.1, Dev.whoThread_touch _ _ _ _ _ (runThread_tid F hF acts p), if_pos rfl]
    · have hne : ¬ p.1 = q.1 := fun h => hn.1 (h ▸ List.mem_map_of_mem hp)
      rw [ih _ hn.2 p hp, Dev.whoThread_touch _ _ _ _ _ (runThread_tid F hF acts q), if_neg hne]

theorem foldRun_rest (F : Who × Env → Thread → Thread) (Y : Who × Env → AMap Word → AMap Word) (acts : List Who) (l : List (Who × Env)) : ∀ (d e : Dev),
    { foldRun F Y acts l d with teams := e.teams, queues := e.queues } = { d with teams := e.teams, queues := e.queues } := by
  induction l with
  | nil => intro d e; rfl
  | cons p r ih => intro d e; rw [foldRun_cons, ih, Dev.touch_rest]

theorem foldRun_cur (F : Who × Env → Thread → Thread) (Y : Who × Env → AMap Word → AMap Word) (acts : List Who) (l : List (Who × Env)) (d : Dev) :
    (foldRun F Y acts l d).cur = d.cur := by
  have := congrArg Dev.cur (foldRun_rest F Y acts l d d)
  exact this

theorem foldRun_fixed (F : Who × Env → Thread → Thread) (hF : ∀ p h, (F p h).fixed = h.fixed) (Y : Who × Env → AMap Word → AMap Word) (acts : List Who) (l : List (Who × Env)) : ∀ (d : Dev),
    (foldRun F Y acts l d).teams.map Team.fixed = d.teams.map Team.fixed := by
  induction l with
  | nil => intro d; rfl
  | cons p r ih => intro d; rw [foldRun_cons, ih, Dev.touch_fixed _ _ _ _ (runThread_fixed F hF acts p)]

theorem foldRun_queue (F : Who × Env → Thread → Thread) (hF : ∀ p h, (F p h).fixed = h.fixed) (Y : Who × Env → AMap Word → AMap Word) (acts : List Who) (l : List (Who × Env)) (q : Nat) : ∀ (d : Dev),
    ((foldRun F Y acts l d).queue q).fixed = (d.queue q).fixed := by
  induction l with
  | nil => intro d; rfl
  | cons p r ih => intro d; rw [foldRun_cons, ih, Dev.touch_queue _ _ _ _ (runThread_fixed F hF acts p)]

theorem foldRun_group_other (F : Who × Env → Thread → Thread) (Y : Who × Env → AMap Word → AMap Word) (acts : List Who) (l : List (Who × Env)) (team gid : Nat) : ∀ (d : Dev),
    (∀ p ∈ l, ∀ r, p.1 = .thr r → ¬ (team = r.team ∧ gid = r.gid)) →
    (foldRun F Y acts l d).group? team gid = d.group? team gid := by
  induction l with
  | nil => intro d _; rfl
  | cons p r ih =>
    intro d h
    rw [foldRun_cons, ih _ fun q hq => h q (List.mem_cons_of_mem _ hq)]
    have hp := h p (List.mem_cons_self ..)
    cases hw : p.1 with
    | thr t => rw [Dev.touch_group, if_neg (hp t hw)]
    | que q => rfl

theorem foldRun_group (F : Who × Env → Thread → Thread) (Y : Who × Env → AMap Word → AMap Word) (acts : List Who) (l : List (Who × Env)) (team gid : Nat) : ∀ (d : Dev) (g : Group),
    (∀ p ∈ l, ∃ tid, p.1 = .thr ⟨team, gid, tid⟩) → d.group? team gid = some g →
    ∃ g', (foldRun F Y acts l d).group? team gid = some g' ∧ g'.y = l.foldl (fun y p => runY Y acts p y) g.y := by
  induction l with
  | nil => intro d g _ hg; exact ⟨g, hg, rfl⟩
  | cons p r ih =>
    intro d g h hg
    obtain ⟨tid, hp⟩ := h p (List.mem_cons_self ..)
    rw [foldRun_cons]
    have : (d.touch p.1 (runThread F acts p) (runY Y acts p)).group? team gid
        = some { g.mapThread tid (runThread F acts p) with y := runY Y acts p g.y } := by
      rw [hp, Dev.touch_group, if_pos ⟨rfl, rfl⟩, hg]
      rfl
    obtain ⟨g', h1, h2⟩ := ih _ _ (fun q hq => h q (List.mem_cons_of_mem _ hq)) this
    exact ⟨g', h1, by rw [h2, List.foldl_cons]⟩

/-! ## The window before and after -/

/-- A change of every thread of one group that no `fixed` part, PC, predicate or index register shows. -/
structure Quiet (d e : Dev) : Prop where
  rest : ∀ x : Dev, { e with teams := x.teams, queues := x.queues } = { d with teams := x.teams, queues := x.queues }
  queues : e.queues = d.queues
  fixed : e.teams.map Team.fixed = d.teams.map Team.fixed
  threads : ∀ w h, whoThread d w = some h → ∃ k, whoThread e w = some k ∧ (∀ s, k.slot s = h.slot s) ∧ k.p = h.p ∧ k.x = h.x ∧
    k.pos = h.pos ∧ k.pc = h.pc ∧ k.rep = h.rep
  groups : ∀ team gid g, d.group? team gid = some g → ∃ g', e.group? team gid = some g' ∧ g'.y = g.y
  others : ∀ team gid, (∀ lanes lits w, d.cur ≠ .run team gid lanes lits w) → e.group? team gid = d.group? team gid

theorem Quiet.refl (d : Dev) : Quiet d d :=
  ⟨fun _ => rfl, rfl, rfl, fun _ h hh => ⟨h, hh, fun _ => rfl, rfl, rfl, rfl, rfl, rfl⟩, fun _ _ g hg => ⟨g, hg, rfl⟩, fun _ _ _ => rfl⟩

/-- A change of every thread of the issuing group by a function that keeps what is read. -/
theorem Quiet.mapAll (d : Dev) (team gid : Nat) (f : Group → Group) (F : Group → Thread → Thread)
    (hf : ∀ g, (f g).threads = g.threads.map (F g)) (hg : ∀ g, (f g).gid = g.gid) (hy : ∀ g, (f g).y = g.y)
    (hx : ∀ g, { f g with threads := [], y := [], seq := 0 } = { g with threads := [], y := [], seq := 0 })
    (hF : ∀ g h, (F g h).fixed = h.fixed) (hs : ∀ g h s, (F g h).slot s = h.slot s)
    (hk : ∀ g h, (F g h).p = h.p ∧ (F g h).x = h.x ∧ (F g h).pos = h.pos ∧ (F g h).pc = h.pc ∧ (F g h).rep = h.rep)
    (hc : ∃ lanes lits w, d.cur = .run team gid lanes lits w) : Quiet d (d.mapGroup team gid f) where
  rest _ := rfl
  queues := rfl
  fixed := by
    apply Dev.mapGroup_fixed
    intro g
    have h1 := hx g
    have h2 : (f g).threads.map Thread.fixed = g.threads.map Thread.fixed := by
      rw [hf g, List.map_map]
      apply List.map_congr_left
      intro h _
      exact hF g h
    have e : ∀ a b : Group, { a with threads := [], y := [], seq := 0 } = { b with threads := [], y := [], seq := 0 } →
        a.threads.map Thread.fixed = b.threads.map Thread.fixed → a.fixed = b.fixed := by
      intro a b h k
      unfold Group.fixed
      rw [k]
      injection h
      simp_all
    exact e _ _ h1 h2
  threads := by
    intro w h hw
    cases w with
    | que q => exact ⟨h, hw, fun _ => rfl, rfl, rfl, rfl, rfl, rfl⟩
    | thr r =>
      unfold whoThread at hw ⊢
      simp only at hw ⊢
      rw [Dev.thread?_mapGroup d f hg]
      split
      · unfold Dev.thread? at hw
        cases hgr : d.group? r.team r.gid with
        | none => rw [hgr] at hw; simp at hw
        | some g =>
          rw [hgr] at hw
          simp only [Option.bind_some, Option.map_some] at hw ⊢
          refine ⟨F g h, ?_, hs g h, hk g h⟩
          unfold Group.thread? at hw ⊢
          rw [hf g]
          have ht : ∀ h, (F g h).tid = h.tid := fun h => fixed_tid (hF g h)
          generalize g.threads = l at hw
          induction l with
          | nil => simp at hw
          | cons x l ih =>
            simp only [List.map_cons, List.find?_cons, ht] at hw ⊢
            split at hw
            · simp only [Option.some.injEq] at hw ⊢
              rw [hw]
            · exact ih hw
      · exact ⟨h, hw, fun _ => rfl, rfl, rfl, rfl, rfl, rfl⟩
  groups := by
    intro t' g' g h
    rw [Dev.group?_mapGroup d f hg]
    split
    · rw [h]
      exact ⟨f g, rfl, hy g⟩
    · exact ⟨g, h, rfl⟩
  others := by
    intro t' g' h
    rw [Dev.group?_mapGroup d f hg]
    rw [if_neg]
    rintro ⟨rfl, rfl⟩
    obtain ⟨a, b, c, hcur⟩ := hc
    exact h a b c hcur

theorem Thread.spillFor_fixed (rs : List (Nat × Nat)) (h : Thread) : (h.spillFor rs).fixed = h.fixed := rfl
theorem Thread.yieldFor_fixed (rs : List (Nat × Nat)) (h : Thread) : (h.yieldFor rs).fixed = h.fixed := rfl

theorem prepare_quiet (i : Instr) (d : Dev) : Quiet d (d.prepare i) := by
  unfold Dev.prepare
  cases hc : d.cur with
  | none => exact Quiet.refl d
  | queue q l w => exact Quiet.refl d
  | run team gid lanes lits w =>
    simp only
    refine Quiet.mapAll d team gid (prepareWindow i lanes) (fun g h =>
      let hs := g.threads.filter fun h => lanes.contains h.lane
      let h := if (indRanges i false hs).isEmpty then h else h.spillFor (indRanges i false hs)
      if (indRanges i true hs).isEmpty then h else h.yieldFor (indRanges i true hs)) ?_ ?_ ?_ ?_ ?_ ?_ ?_ ⟨lanes, lits, w, hc⟩
    all_goals intro g
    · unfold prepareWindow
      simp only
      split <;> split <;> simp_all
    · unfold prepareWindow
      simp only
      split <;> split <;> rfl
    · unfold prepareWindow
      simp only
      split <;> split <;> rfl
    · unfold prepareWindow
      simp only
      split <;> split <;> rfl
    · intro h
      simp only
      split <;> split <;> rfl
    · intro h s
      simp only
      split <;> split <;> simp
    · intro h
      simp only
      split <;> split <;> exact ⟨rfl, rfl, rfl, rfl, rfl⟩

theorem closeWindow_quiet (i : Instr) (d : Dev) : Quiet d (d.closeWindow i) := by
  unfold Dev.closeWindow
  cases hc : d.cur with
  | none => exact Quiet.refl d
  | queue q l w => exact Quiet.refl d
  | run team gid lanes lits w =>
    simp only
    split
    · refine Quiet.mapAll d team gid _ (fun g h => h.retire (g.seq + 1)) ?_ ?_ ?_ ?_ ?_ ?_ ?_ ⟨lanes, lits, w, hc⟩
      all_goals intro g
      · rfl
      · rfl
      · rfl
      · rfl
      · intro h; rfl
      · intro h s; simp
      · intro h; exact ⟨rfl, rfl, rfl, rfl, rfl⟩
    · exact Quiet.refl d

end Sys2Proof.Machine
end

