-- ==== Sys2Proof/Laws/RegResult.lean ====
section
/-! SUPPORT. What a result leaves in the thread that performed the instruction, and the theorem that every register-to-register
instruction completes with its result and nothing else (`computesAll_of_collective`, `computes_of_alu`). -/

namespace Sys2Proof.Machine

/-! ## Merging under a mask (R168) -/

/-- A slot's word after a masked write: `k` counts slots from the first. -/
def mixSlot (w : Word) (val mask k : Nat) : Word :=
  BitVec.ofNat 32 (Nat.lor (Nat.land (val / 2 ^ (32 * k)) (mask / 2 ^ (32 * k) % 2 ^ 32) % 2 ^ 32)
    (Nat.land w.toNat (2 ^ 32 - 1 - mask / 2 ^ (32 * k) % 2 ^ 32) % 2 ^ 32))

theorem slots_div (g : Nat → Word) (F : Nat → Nat → Nat) (h1 : ∀ s n, F s (n + 1) = (g s).toNat + 2 ^ 32 * F (s + 1) n) : ∀ (n s k : Nat), k < n →
    F s n / 2 ^ (32 * k) % 2 ^ 32 = (g (s + k)).toNat := by
  intro n
  induction n with
  | zero => intro s k hk; omega
  | succ n ih =>
    intro s k hk
    rw [h1]
    have hg := (g s).isLt
    cases k with
    | zero => simp only [Nat.mul_zero, Nat.pow_zero, Nat.div_one, Nat.add_zero]; omega
    | succ k =>
      have e : (2 : Nat) ^ (32 * (k + 1)) = 2 ^ 32 * 2 ^ (32 * k) := by
        rw [show 32 * (k + 1) = 32 + 32 * k by omega, Nat.pow_add]
      have q : ((g s).toNat + 2 ^ 32 * F (s + 1) n) / 2 ^ 32 = F (s + 1) n := by
        rw [Nat.add_mul_div_left _ _ (Nat.two_pow_pos 32), Nat.div_eq_of_lt hg, Nat.zero_add]
      rw [e, ← Nat.div_div_eq_div_mul, q, ih (s + 1) k (by omega), show s + 1 + k = s + (k + 1) by omega]

theorem Thread.slots_slot (h : Thread) (s n k : Nat) (hk : k < n) :
    h.slots s n / 2 ^ (32 * k) % 2 ^ 32 = (h.slot (s + k)).toNat :=
  slots_div h.slot (fun s n => h.slots s n) (fun _ _ => rfl) n s k hk

theorem Thread.bankSlots_slot (h : Thread) (s n k : Nat) (hk : k < n) :
    h.bankSlots s n / 2 ^ (32 * k) % 2 ^ 32 = (AMap.get 0 h.bank (s + k)).toNat :=
  slots_div (fun s => AMap.get 0 h.bank s) (fun s n => h.bankSlots s n) (fun _ _ => rfl) n s k hk

theorem land_mod32 (a m : Nat) : Nat.land a m % 2 ^ 32 = Nat.land (a % 2 ^ 32) m % 2 ^ 32 := by
  apply Nat.eq_of_testBit_eq
  intro j
  change ((a &&& m) % 2 ^ 32).testBit j = (((a % 2 ^ 32) &&& m) % 2 ^ 32).testBit j
  simp only [Nat.testBit_mod_two_pow, Nat.testBit_and]
  by_cases h : j < 32 <;> simp [h]

theorem mergedSlot_mix (old val mask k : Nat) (w : Word) (h : old / 2 ^ (32 * k) % 2 ^ 32 = w.toNat) :
    mergedSlot old val mask k = mixSlot w val mask k := by
  unfold mergedSlot mixSlot
  rw [land_mod32 (old / 2 ^ (32 * k)), h]

theorem merged_mix (old val mask k : Nat) (w : Word) (h : old / 2 ^ (32 * k) % 2 ^ 32 = w.toNat) :
    BitVec.ofNat 32 (merged old val mask / 2 ^ (32 * k)) = mixSlot w val mask k := by
  unfold mixSlot
  rw [← h]
  apply BitVec.eq_of_toNat_eq
  simp only [BitVec.toNat_ofNat]
  apply Nat.eq_of_testBit_eq
  intro j
  have hm : ∀ m : Nat, (2 ^ 32 - 1 - m % 2 ^ 32).testBit j = (decide (j < 32) && !(m % 2 ^ 32).testBit j) := by
    intro m
    have := Nat.testBit_two_pow_sub_succ (n := 32) (x := m % 2 ^ 32) (Nat.mod_lt _ (by decide)) j
    rwa [show 2 ^ 32 - (m % 2 ^ 32 + 1) = 2 ^ 32 - 1 - m % 2 ^ 32 by omega] at this
  unfold merged
  change (((val &&& mask) ||| (old ^^^ (old &&& mask))) / 2 ^ (32 * k) % 2 ^ 32).testBit j =
    ((((val / 2 ^ (32 * k)) &&& (mask / 2 ^ (32 * k) % 2 ^ 32)) % 2 ^ 32 |||
      ((old / 2 ^ (32 * k) % 2 ^ 32) &&& (2 ^ 32 - 1 - mask / 2 ^ (32 * k) % 2 ^ 32)) % 2 ^ 32) % 2 ^ 32).testBit j
  simp only [Nat.testBit_mod_two_pow, Nat.testBit_or, Nat.testBit_and, Nat.testBit_xor, Nat.testBit_div_two_pow, hm]
  by_cases hj : j < 32
  · simp only [hj, decide_true, Bool.true_and]
    cases old.testBit (j + 32 * k) <;> cases val.testBit (j + 32 * k) <;> cases mask.testBit (j + 32 * k) <;> simp
  · simp [hj]

theorem mixSlot_zero (w : Word) (val mask k : Nat) (h : mask / 2 ^ (32 * k) % 2 ^ 32 = 0) : mixSlot w val mask k = w := by
  unfold mixSlot
  rw [h]
  have e : Nat.land w.toNat (2 ^ 32 - 1 - 0) % 2 ^ 32 = w.toNat := by
    have : Nat.land w.toNat (2 ^ 32 - 1) = w.toNat % 2 ^ 32 := Nat.and_two_pow_sub_one_eq_mod w.toNat 32
    rw [Nat.sub_zero, this]
    have := w.isLt
    omega
  rw [e]
  have e2 : Nat.land (val / 2 ^ (32 * k)) 0 = 0 := Nat.and_zero _
  rw [e2]
  have e3 : Nat.lor (0 % 2 ^ 32) w.toNat = w.toNat := Nat.zero_or _
  rw [e3]
  simp

/-! ## One write and the slots -/

/-- Slots of file g that a role's operand covers from its first slot on. -/
def spanOf (r : Roles.Role) (o : Operand) (first : Nat) : List Nat :=
  match o with
  | .reg .g _ _ _ | .ind _ _ _ => (List.range (roleSlots r).1).map (first + ·)
  | _ => []

theorem spanOf_first (e : Env) (r : Roles.Role) (o : Operand) : spanOf r o (firstSlot e r o) = slotsOf e r o := by
  unfold spanOf slotsOf
  cases o with
  | reg f n a i => cases f <;> rfl
  | _ => rfl

theorem mem_span (first n s : Nat) : s ∈ (List.range n).map (first + ·) ↔ first ≤ s ∧ s < first + n := by
  simp only [List.mem_map, List.mem_range]
  constructor
  · rintro ⟨a, h, rfl⟩; omega
  · rintro ⟨h1, h2⟩; exact ⟨s - first, by omega, by omega⟩

theorem lastWrite_none (s old val mask n x : Nat) (h : x ∉ (List.range n).map (s + ·)) : lastWrite x (slotWrites s old val mask n) = none := by
  rw [lastWrite_slotWrites, if_neg]
  rintro ⟨h1, h2, -⟩
  exact h ((mem_span s n x).2 ⟨h1, h2⟩)

/-- A slot the write does not cover keeps its value. -/
theorem wrThread_slot_other (w : Who) (r : Roles.Role) (o : Operand) (first seq val mask : Nat) (h : Thread) (s : Nat)
    (hs : s ∉ spanOf r o first) : (wrThread w r o first seq val mask h).slot s = h.slot s := by
  cases o with
  | reg f n a i =>
    cases f with
    | g =>
      cases w with
      | thr t =>
        simp only [wrThread, Thread.slot, winLookup_windowPut]
        rw [lastWrite_none _ _ _ _ _ _ hs]
        rfl
      | que q =>
        have := Thread.slot_flush h s
        simp only [wrThread, Thread.slot, get_bankWrite] at this ⊢
        rw [lastWrite_none _ _ _ _ _ _ hs]
        exact this
    | p =>
      simp only [wrThread]
      unfold Thread.setPred
      split <;> rfl
    | _ => rfl
  | ind x off post =>
    simp only [wrThread, Thread.slot, get_bankWrite]
    rw [lastWrite_none _ _ _ _ _ _ hs]
    rfl
  | _ => rfl

/-- A slot the window does not hold is not put there by a write elsewhere. -/
theorem wrThread_win_other (w : Who) (r : Roles.Role) (o : Operand) (first seq val mask : Nat) (h : Thread) (s : Nat)
    (hs : s ∉ spanOf r o first) (hw : winLookup s h.win = none) : winLookup s (wrThread w r o first seq val mask h).win = none := by
  cases o with
  | reg f n a i =>
    cases f with
    | g =>
      cases w with
      | thr t =>
        simp only [wrThread, winLookup_windowPut]
        rw [lastWrite_none _ _ _ _ _ _ hs, hw]
        rfl
      | que q => rfl
    | p =>
      simp only [wrThread]
      unfold Thread.setPred
      split <;> exact hw
    | _ => exact hw
  | ind x off post => exact hw
  | _ => exact hw

/-- A slot the write covers holds the value under the mask, what it held elsewhere: a direct register, or an indirect one that the
window does not hold. -/
theorem wrThread_slot (w : Who) (r : Roles.Role) (o : Operand) (first seq val mask : Nat) (h : Thread) (k : Nat) (hk : k < (roleSlots r).1)
    (ho : (∃ n a i, o = .reg .g n a i) ∨ (∃ x off post, o = .ind x off post) ∧ winLookup (first + k) h.win = none) :
    (wrThread w r o first seq val mask h).slot (first + k) = mixSlot (h.slot (first + k)) val mask k := by
  have sub : first + k - first = k := by omega
  rcases ho with ⟨n, a, i, rfl⟩ | ⟨⟨x, off, post, rfl⟩, hw⟩
  · cases w with
    | thr t =>
      have hm := mergedSlot_mix _ val mask k _ (Thread.slots_slot h first _ k hk)
      simp only [wrThread]
      unfold Thread.slot
      simp only [winLookup_windowPut, lastWrite_slotWrites, sub]
      by_cases hz : mask / 2 ^ (32 * k) % 2 ^ 32 = 0
      · rw [if_neg (fun h => h.2.2 hz), mixSlot_zero _ _ _ _ hz]
        rfl
      · rw [if_pos ⟨by omega, by omega, hz⟩, hm]
        rfl
    | que q =>
      have hm := mergedSlot_mix _ val mask k _ (Thread.slots_slot h first _ k hk)
      have hf := Thread.slot_flush h (first + k)
      simp only [wrThread]
      unfold Thread.slot at hf ⊢
      simp only [get_bankWrite, lastWrite_slotWrites, sub]
      by_cases hz : mask / 2 ^ (32 * k) % 2 ^ 32 = 0
      · rw [if_neg (fun h => h.2.2 hz), mixSlot_zero _ _ _ _ hz]
        exact hf
      · rw [if_pos ⟨by omega, by omega, hz⟩, hm]
        rfl
  · have hm := mergedSlot_mix _ val mask k _ (Thread.bankSlots_slot h first _ k hk)
    have hsl : h.slot (first + k) = AMap.get 0 h.bank (first + k) := by
      unfold Thread.slot
      rw [hw]
      rfl
    rw [hsl]
    simp only [wrThread]
    unfold Thread.slot
    have hw' : winLookup (first + k) (h.cure (wholeSlots first mask (roleSlots r).1)).win = none := hw
    simp only [hw', Option.getD_none, get_bankWrite, lastWrite_slotWrites, sub]
    by_cases hz : mask / 2 ^ (32 * k) % 2 ^ 32 = 0
    · rw [if_neg (fun h => h.2.2 hz), mixSlot_zero _ _ _ _ hz]
      rfl
    · rw [if_pos ⟨by omega, by omega, hz⟩, hm]
      rfl

/-! ## Operands that a role accepts -/

theorem accepts_x (r : Roles.Role) (n a : Bool) (k : BitVec 9) (h : Roles.accepts r (.reg .x n a k) = true) : r = .index := by
  cases r <;> simp_all [Roles.accepts]

theorem accepts_dest (r : Roles.Role) (o : Operand) (hr : isDestRole r = true) (h : Roles.accepts r o = true) :
    (∀ n a k, o ≠ .reg .p n a k) ∧ ∀ n a k, o ≠ .reg .x n a k := by
  constructor <;> (rintro n a k rfl; cases r <;> simp_all [Roles.accepts, isDestRole])

theorem wellFormed_accepts (i : Instr) (h : i.wellFormed = true) :
    Roles.accepts (Roles.rolesOf i).1 (Roles.opsOf i).1 = true ∧ Roles.accepts (Roles.rolesOf i).2.1 (Roles.opsOf i).2.1 = true ∧
      Roles.accepts (Roles.rolesOf i).2.2 (Roles.opsOf i).2.2 = true := by
  unfold Instr.wellFormed Roles.operandsOk at h
  simp only [Bool.and_eq_true] at h
  exact ⟨h.2.1.1, h.2.1.2, h.2.2⟩

/-! ## Post-advances -/

theorem eraseDups_nodup (l : List Nat) : l.eraseDups.Nodup := by
  have key : ∀ (n : Nat) (l : List Nat), l.length ≤ n → l.eraseDups.Nodup := by
    intro n
    induction n with
    | zero =>
      intro l hl
      have : l = [] := List.length_eq_zero_iff.1 (Nat.le_zero.1 hl)
      subst this
      exact List.nodup_nil
    | succ n ih =>
      intro l hl
      cases l with
      | nil => exact List.nodup_nil
      | cons a r =>
        rw [List.eraseDups_cons, List.nodup_cons]
        refine ⟨?_, ih _ ?_⟩
        · rw [List.mem_eraseDups]
          simp
        · have := List.length_filter_le (fun b => !b == a) r
          simp only [List.length_cons] at hl
          omega
  exact key l.length l (Nat.le_refl _)

/-- Post-advance moves each named index register once, the destination excepted (R52). -/
theorem postAdvance_x (i : Instr) (h : Thread) (k : Nat) (hk : destIndex i ≠ some k) :
    AMap.get 0 (postAdvance i h).x k = if k ∈ postIndices i then advanceX (AMap.get 0 h.x k) else AMap.get 0 h.x k := by
  have key : ∀ (l : List Nat) (h : Thread), l.Nodup → AMap.get 0 (l.foldl (fun h n =>
      if destIndex i = some n then h else { h with x := AMap.set 0 h.x n (advanceX (AMap.get 0 h.x n)) }) h).x k
        = if k ∈ l then advanceX (AMap.get 0 h.x k) else AMap.get 0 h.x k := by
    intro l
    induction l with
    | nil => intro h _; rfl
    | cons n r ih =>
      intro h hn
      rw [List.nodup_cons] at hn
      rw [List.foldl_cons, ih _ hn.2]
      by_cases hkn : k = n
      · subst hkn
        simp [hn.1, hk]
        try rw [AMap.get_set_eq]
      · have : (k ∈ n :: r) ↔ k ∈ r := by simp [hkn]
        simp only [this]
        have hx : ∀ h' : Thread, h' = (if destIndex i = some n then h else { h with x := AMap.set 0 h.x n (advanceX (AMap.get 0 h.x n)) }) →
            AMap.get 0 h'.x k = AMap.get 0 h.x k := by
          rintro h' rfl
          split
          · rfl
          · simp only [AMap.get_set, if_neg hkn]
        rw [hx _ rfl]
  exact key _ h (eraseDups_nodup _)

theorem postAdvance_dest (i : Instr) (h : Thread) (k : Nat) (hk : destIndex i = some k) :
    AMap.get 0 (postAdvance i h).x k = AMap.get 0 h.x k := by
  have key : ∀ (l : List Nat) (h : Thread), AMap.get 0 (l.foldl (fun h n =>
      if destIndex i = some n then h else { h with x := AMap.set 0 h.x n (advanceX (AMap.get 0 h.x n)) }) h).x k = AMap.get 0 h.x k := by
    intro l
    induction l with
    | nil => intro h; rfl
    | cons n r ih =>
      intro h
      rw [List.foldl_cons, ih]
      split
      · rfl
      · rename_i hn
        have : ¬ k = n := fun e => hn (e ▸ hk)
        simp [AMap.get_set, this]
  exact key _ h

/-! ## The thread after a whole result -/

/-- Both writes, before the post-advances. -/
def twoWrites (i : Instr) (o : Out) (e : Env) (w : Who) (h : Thread) : Thread :=
  let k := wrThread w (Roles.rolesOf i).1 (Roles.opsOf i).1 (firstSlot e (Roles.rolesOf i).1 (Roles.opsOf i).1) (nextSeq e) o.val o.mask h
  match o.scale with
  | some v => wrThread w (Roles.rolesOf i).2.2 (Roles.opsOf i).2.2 (firstSlot e (Roles.rolesOf i).2.2 (Roles.opsOf i).2.2) (nextSeq e) v 0xFF k
  | none => k

theorem outThread_eq (i : Instr) (o : Out) (e : Env) (w : Who) (go : Thread → Word × Word) (h : Thread) :
    outThread i o e w go h = { postAdvance i { twoWrites i o e w h with pos := (twoWrites i o e w h).pos + BitVec.ofNat 64 o.draws }
      with pc := (go h).1, rep := (go h).2 } := rfl

theorem outThread_slot (i : Instr) (o : Out) (e : Env) (w : Who) (go : Thread → Word × Word) (h : Thread) (s : Nat) :
    (outThread i o e w go h).slot s = (twoWrites i o e w h).slot s := by
  have hp := postAdvance_fixed i { twoWrites i o e w h with pos := (twoWrites i o e w h).pos + BitVec.ofNat 64 o.draws }
  rw [outThread_eq]
  unfold Thread.slot
  simp only [hp.2.2.2.2.2.1, hp.2.2.2.2.2.2.1]

theorem outThread_p (i : Instr) (o : Out) (e : Env) (w : Who) (go : Thread → Word × Word) (h : Thread) :
    (outThread i o e w go h).p = (twoWrites i o e w h).p := by
  have hp := postAdvance_fixed i { twoWrites i o e w h with pos := (twoWrites i o e w h).pos + BitVec.ofNat 64 o.draws }
  rw [outThread_eq]
  exact hp.2.2.2.1

theorem twoWrites_pos (i : Instr) (o : Out) (e : Env) (w : Who) (h : Thread) : (twoWrites i o e w h).pos = h.pos := by
  unfold twoWrites
  cases o.scale with
  | none => exact (wrThread_pc ..).2.2
  | some v => exact ((wrThread_pc ..).2.2).trans (wrThread_pc ..).2.2

theorem outThread_pos (i : Instr) (o : Out) (e : Env) (w : Who) (go : Thread → Word × Word) (h : Thread) :
    (outThread i o e w go h).pos = h.pos + BitVec.ofNat 64 o.draws := by
  have hp := postAdvance_fixed i { twoWrites i o e w h with pos := (twoWrites i o e w h).pos + BitVec.ofNat 64 o.draws }
  rw [outThread_eq]
  refine (hp.2.2.2.2.1).trans ?_
  simp only [twoWrites_pos]

theorem wrThread_p_other (w : Who) (r : Roles.Role) (o : Operand) (first seq val mask : Nat) (h : Thread)
    (ho : ∀ n a k, o ≠ .reg .p n a k) : (wrThread w r o first seq val mask h).p = h.p := by
  unfold wrThread
  split
  · split <;> rfl
  · rfl
  · exact absurd rfl (ho _ _ _)
  · rfl
  · rfl

theorem wrThread_x_other (w : Who) (r : Roles.Role) (o : Operand) (first seq val mask : Nat) (h : Thread)
    (ho : ∀ n a k, o ≠ .reg .x n a k) : (wrThread w r o first seq val mask h).x = h.x := by
  unfold wrThread
  split
  · split <;> rfl
  · rfl
  · unfold Thread.setPred; split <;> rfl
  · exact absurd rfl (ho _ _ _)
  · rfl

/-- Where the second result goes is a destination of file g or y. -/
def SecondIsReg (i : Instr) (o : Out) : Prop := ∀ v, o.scale = some v → isDestRole (Roles.rolesOf i).2.2 = true

theorem twoWrites_slot_other (i : Instr) (o : Out) (e : Env) (w : Who) (h : Thread) (s : Nat) (hB : SecondIsReg i o)
    (hs : s ∉ slotsWritten i e) : (twoWrites i o e w h).slot s = h.slot s := by
  unfold slotsWritten at hs
  rw [List.mem_append, not_or] at hs
  have h1 := wrThread_slot_other w (Roles.rolesOf i).1 (Roles.opsOf i).1 (firstSlot e (Roles.rolesOf i).1 (Roles.opsOf i).1) (nextSeq e)
    o.val o.mask h s (by rw [spanOf_first]; exact hs.1)
  unfold twoWrites
  cases ho : o.scale with
  | none => exact h1
  | some v =>
    have hb := hs.2
    rw [if_pos (hB v ho)] at hb
    simp only
    rw [wrThread_slot_other _ _ _ _ _ _ _ _ _ (by rw [spanOf_first]; exact hb), h1]

theorem putField_bit (v i j b : Nat) (hj : j ≠ i) : bitOf (putField v i i b) j = bitOf v j := by
  unfold bitOf
  have e : putField v i i b = v - (v / 2 ^ i % 2) * 2 ^ i + (b % 2) * 2 ^ i := by
    unfold putField field
    rw [Nat.shiftRight_eq_div_pow]
    simp
  have hv : v = v / 2 ^ (i + 1) * 2 ^ (i + 1) + (v / 2 ^ i % 2) * 2 ^ i + v % 2 ^ i := by
    have h1 := Nat.div_add_mod v (2 ^ i)
    have h2 := Nat.div_add_mod (v / 2 ^ i) 2
    have h3 : v / 2 ^ i / 2 = v / 2 ^ (i + 1) := by rw [Nat.div_div_eq_div_mul, ← Nat.pow_succ]
    rw [h3] at h2
    have h4 : (2 : Nat) ^ (i + 1) = 2 * 2 ^ i := by rw [Nat.pow_succ, Nat.mul_comm]
    rw [h4]
    calc v = 2 ^ i * (v / 2 ^ i) + v % 2 ^ i := h1.symm
      _ = 2 ^ i * (2 * (v / 2 ^ (i + 1)) + v / 2 ^ i % 2) + v % 2 ^ i := by rw [h2]
      _ = _ := by ring_nf
  generalize hq : v / 2 ^ (i + 1) = q at hv
  generalize hc : v / 2 ^ i % 2 = c at hv e
  generalize hr : v % 2 ^ i = r at hv
  have hrlt : r < 2 ^ i := hr ▸ Nat.mod_lt _ (Nat.two_pow_pos i)
  have hclt : c < 2 := hc ▸ Nat.mod_lt _ (by decide)
  have e2 : putField v i i b = q * 2 ^ (i + 1) + (b % 2) * 2 ^ i + r := by rw [e, hv]; omega
  rw [e2, hv]
  have bit : ∀ c, c < 2 → (q * 2 ^ (i + 1) + c * 2 ^ i + r).testBit j = if j < i then r.testBit j else q.testBit (j - (i + 1)) := by
    intro c hc
    have e3 : q * 2 ^ (i + 1) + c * 2 ^ i + r = 2 ^ i * (2 * q + c) + r := by rw [Nat.pow_succ]; ring
    rw [e3, Nat.testBit_two_pow_mul_add _ hrlt]
    split
    · rfl
    · obtain ⟨k, hk⟩ : ∃ k, j - i = k + 1 := ⟨j - i - 1, by omega⟩
      rw [hk, Nat.testBit_succ]
      congr 1
      · omega
      · omega
  rw [bit _ hclt, bit _ (Nat.mod_lt _ (by decide))]

theorem putField_self (v i : Nat) (b : Bool) : bitOf (putField v i i (b2n b)) i = b := by
  unfold bitOf
  have e : putField v i i (b2n b) = v - (v / 2 ^ i % 2) * 2 ^ i + b2n b * 2 ^ i := by
    unfold putField field
    rw [Nat.shiftRight_eq_div_pow]
    cases b <;> simp [b2n]
  have h1 := Nat.div_add_mod v (2 ^ i)
  have h2 := Nat.div_add_mod (v / 2 ^ i) 2
  rw [e, Nat.testBit_eq_decide_div_mod_eq]
  have hr : v % 2 ^ i < 2 ^ i := Nat.mod_lt _ (Nat.two_pow_pos i)
  have e2 : v - (v / 2 ^ i % 2) * 2 ^ i + b2n b * 2 ^ i = 2 ^ i * (2 * (v / 2 ^ i / 2) + b2n b) + v % 2 ^ i := by
    have : v = 2 ^ i * (2 * (v / 2 ^ i / 2)) + 2 ^ i * (v / 2 ^ i % 2) + v % 2 ^ i := by
      rw [← Nat.mul_add, h2, h1]
    have h3 : v - (v / 2 ^ i % 2) * 2 ^ i = 2 ^ i * (2 * (v / 2 ^ i / 2)) + v % 2 ^ i := by
      rw [Nat.mul_comm (v / 2 ^ i % 2)]
      omega
    rw [h3, Nat.mul_add, Nat.mul_comm (b2n b)]
    omega
  rw [e2]
  have : (2 ^ i * (2 * (v / 2 ^ i / 2) + b2n b) + v % 2 ^ i) / 2 ^ i = 2 * (v / 2 ^ i / 2) + b2n b := by
    rw [Nat.add_comm, Nat.add_mul_div_left _ _ (Nat.two_pow_pos i), Nat.div_eq_of_lt hr, Nat.zero_add]
  rw [this]
  cases b <;> simp [b2n]

theorem Thread.pred_setPred (h : Thread) (i j : Nat) (v : Bool) (hj : j ≤ 7) :
    (h.setPred i v).pred j = if j = i ∧ i < 7 then v else h.pred j := by
  unfold Thread.setPred
  by_cases hi : 7 ≤ i
  · rw [if_pos hi, if_neg (by omega)]
  · rw [if_neg hi]
    unfold Thread.pred
    by_cases h7 : j = 7
    · rw [if_pos h7, if_pos h7, if_neg (by omega)]
    · rw [if_neg h7, if_neg h7]
      have lt7 : j < 7 := by omega
      simp only [BitVec.toNat_ofNat]
      have m : bitOf (putField h.p.toNat i i (b2n v) % 2 ^ 7) j = bitOf (putField h.p.toNat i i (b2n v)) j := by
        unfold bitOf
        rw [Nat.testBit_mod_two_pow]
        simp [lt7]
      rw [m]
      by_cases hji : j = i
      · subst hji
        rw [putField_self, if_pos ⟨rfl, lt7⟩]
      · rw [putField_bit _ _ _ _ hji, if_neg (fun h => hji h.1)]

end Sys2Proof.Machine
end

