-- ==== Sys2Proof/Laws/RegRan.lean ====
section
/-! SUPPORT. Every instruction that only writes registers runs as `Ran` says: `ran_of_fold` for any of them,
`computesAll_of_collective` and `computes_of_alu` for those of fixed latency, `ran_of_each` for those in which each thread acts. -/

namespace Sys2Proof.Machine

/-! ## The window of an indirect destination -/

theorem winLookup_yieldFor (rs : List (Nat × Nat)) (h : Thread) (s : Nat) (hs : inRanges rs s = true) :
    winLookup s (h.yieldFor rs).win = none := by
  unfold Thread.yieldFor
  simp only
  rw [winLookup_yield, if_pos hs]

/-- The operand at a destination role, and that role. -/
def IsDestOperand (i : Instr) (o : Operand) : Prop :=
  (o = (Roles.opsOf i).1 ∧ isDestRole (Roles.rolesOf i).1 = true) ∨ (o = (Roles.opsOf i).2.2 ∧ isDestRole (Roles.rolesOf i).2.2 = true)

theorem mem_indRanges (i : Instr) (hs : List Thread) (h : Thread) (hh : h ∈ hs) (x : BitVec 3) (off : BitVec 6) (post : Bool)
    (ho : IsDestOperand i (.ind x off post)) : declaredRange (AMap.get 0 h.x x.toNat) ∈ indRanges i true hs := by
  unfold indRanges
  simp only [List.mem_append]
  rcases ho with ⟨e, hr⟩ | ⟨e, hr⟩
  · left; left
    rw [← e]
    simp only [hr]
    exact List.mem_map.2 ⟨h, hh, rfl⟩
  · right
    rw [← e]
    simp only [hr]
    exact List.mem_map.2 ⟨h, hh, rfl⟩

/-- No issuing thread's window holds a slot of the declared range of an indirect destination (R54). -/
theorem issuers_window (i : Instr) (d : Dev) (w : Who) (e : Env) (he : (w, e) ∈ issuers (d.prepare i)) (hq : ∀ q, w = .que q → e.h.win = [])
    (x : BitVec 3) (off : BitVec 6) (post : Bool) (ho : IsDestOperand i (.ind x off post)) (s : Nat)
    (hs : inRanges [declaredRange (AMap.get 0 e.h.x x.toNat)] s = true) : winLookup s e.h.win = none := by
  have hcur : (d.prepare i).cur = d.cur := by
    have := congrArg Dev.cur ((prepare_quiet i d).rest d)
    exact this
  unfold issuers at he
  rw [hcur] at he
  cases hc : d.cur with
  | none => rw [hc] at he; simp at he
  | queue q l k =>
    rw [hc] at he
    simp only [List.mem_singleton, Prod.mk.injEq] at he
    rw [hq q he.1]
    rfl
  | run team gid lanes lits k =>
    rw [hc] at he
    simp only at he
    split at he
    · simp at he
    · rename_i t ht
      split at he
      · simp at he
      split at he
      · simp at he
      · rename_i g hg
        simp only [List.mem_filterMap, Option.map_eq_some_iff, Prod.mk.injEq] at he
        obtain ⟨l, hl, h, hh, -, rfl⟩ := he
        simp only at hs ⊢
        have hgr : (d.prepare i).group? team gid = some g := by
          unfold Dev.group?
          rw [ht]
          exact hg
        have hpg : d.prepare i = d.mapGroup team gid (prepareWindow i lanes) := by
          unfold Dev.prepare
          rw [hc]
        have hgid : ∀ g, (prepareWindow i lanes g).gid = g.gid := by
          intro g
          unfold prepareWindow
          simp only
          split <;> split <;> rfl
        rw [hpg, Dev.group?_mapGroup d _ hgid, if_pos ⟨rfl, rfl⟩] at hgr
        obtain ⟨g0, hg0, rfl⟩ := Option.map_eq_some_iff.1 hgr
        have hm := List.mem_of_find?_eq_some hh
        have hlane := List.find?_some hh
        simp only [beq_iff_eq] at hlane
        unfold prepareWindow at hm
        simp only at hm
        have key : ∀ (src : List (Nat × Nat)) (dst : List (Nat × Nat)) (h0 : Thread), (∀ x, declaredRange (AMap.get 0 h0.x x) ∈ dst →
            ∀ s, inRanges [declaredRange (AMap.get 0 h0.x x)] s = true →
              winLookup s ((if src.isEmpty then h0 else h0.spillFor src).yieldFor dst).win = none) := by
          intro src dst h0 x hx s hs
          apply winLookup_yieldFor
          unfold inRanges at hs ⊢
          simp only [List.any_cons, List.any_nil, Bool.or_false] at hs
          rw [List.any_eq_true]
          exact ⟨_, hx, hs⟩
        generalize hsd : indRanges i false (g0.threads.filter fun h => lanes.contains h.lane) = src at hm
        have hlz : ∀ h0 ∈ g0.threads, h0.lane = l → declaredRange (AMap.get 0 h0.x x.toNat)
            ∈ indRanges i true (g0.threads.filter fun h => lanes.contains h.lane) := by
          intro h0 hm0 hl0
          apply mem_indRanges i _ h0 _ x off post ho
          rw [List.mem_filter]
          exact ⟨hm0, by rw [hl0]; simpa using hl⟩
        generalize indRanges i true (g0.threads.filter fun h => lanes.contains h.lane) = dst at hm hlz
        by_cases hde : dst.isEmpty = true
        · exfalso
          rw [if_pos hde] at hm
          have : ∃ h0 ∈ g0.threads, h0.lane = l := by
            split at hm
            · exact ⟨h, hm, hlane⟩
            · simp only [List.mem_map] at hm
              obtain ⟨h0, h1, rfl⟩ := hm
              exact ⟨h0, h1, hlane⟩
          obtain ⟨h0, h1, h2⟩ := this
          have := hlz h0 h1 h2
          rw [List.isEmpty_iff.1 hde] at this
          simp at this
        · rw [if_neg hde] at hm
          simp only [List.mem_map] at hm
          obtain ⟨h1, hm1, rfl⟩ := hm
          split at hm1
          · rename_i hse
            have := key src dst h1 x.toNat (hlz h1 hm1 hlane) s hs
            rwa [if_pos hse] at this
          · rename_i hse
            simp only [List.mem_map] at hm1
            obtain ⟨h0, hm0, rfl⟩ := hm1
            have := key src dst h0 x.toNat (hlz h0 hm0 hlane) s hs
            rwa [if_neg hse] at this

/-! ## Results -/

/-- A slot of an operand's span is its first slot and a distance. -/
theorem slotsOf_mem (e : Env) (r : Roles.Role) (o : Operand) (k : Nat) (hk : k < (roleSlots r).1)
    (ho : (∃ n a i, o = .reg .g n a i) ∨ ∃ x off post, o = .ind x off post) : firstSlot e r o + k ∈ slotsOf e r o := by
  unfold slotsOf
  rcases ho with ⟨n, a, i, rfl⟩ | ⟨x, off, post, rfl⟩ <;> exact (mem_span _ _ _).2 ⟨by omega, by omega⟩

/-- A destination after one write, given what the thread's window holds. -/
theorem holds_of_write (w : Who) (e : Env) (r : Roles.Role) (o : Operand) (but : List Nat) (seq val mask : Nat) (h k : Thread)
    (hs : ∀ s, s ∉ but → h.slot s = e.h.slot s)
    (hw : ∀ x off post, o = .ind x off post → ∀ s, inRanges [declaredRange (AMap.get 0 e.h.x x.toNat)] s = true → s ∉ but →
      winLookup s h.win = none ∧ winLookup s e.h.win = none)
    (hk : ∀ s, s ∉ but → k.slot s = (wrThread w r o (firstSlot e r o) seq val mask h).slot s)
    (hp : ∀ n a j, o = .reg .p n a j → k.p = (wrThread w r o (firstSlot e r o) seq val mask h).p)
    (hx : ∀ n a j, o = .reg .x n a j →
      AMap.get 0 k.x j.toNat = AMap.get 0 (wrThread w r o (firstSlot e r o) seq val mask h).x j.toNat) :
    holds e r o but val mask k := by
  cases o with
  | reg f n a i =>
    cases f with
    | g =>
      intro j hj hb
      rw [hk _ hb, wrThread_slot w r _ _ seq val mask h j hj (Or.inl ⟨n, a, i, rfl⟩), hs _ hb,
        merged_mix _ val mask j _ (Thread.slots_slot e.h _ _ j hj)]
    | p =>
      intro h7
      have := hp n a i rfl
      have e2 : k.pred i.toNat = (wrThread w r (.reg .p n a i) (firstSlot e r (.reg .p n a i)) seq val mask h).pred i.toNat := by
        unfold Thread.pred
        rw [this]
      rw [e2]
      simp only [wrThread]
      rw [Thread.pred_setPred _ _ _ _ (by omega), if_pos ⟨rfl, h7⟩]
    | x =>
      have := hx n a i rfl
      change AMap.get 0 k.x i.toNat = BitVec.ofNat 64 val
      rw [this]
      simp only [wrThread]
      rw [AMap.get_set, if_pos rfl]
    | _ => trivial
  | ind x off post =>
    intro j hj hb hr
    have hn := hw x off post rfl _ hr hb
    have hsl : e.h.slot (firstSlot e r (.ind x off post) + j) = AMap.get 0 e.h.bank (firstSlot e r (.ind x off post) + j) := by
      unfold Thread.slot
      rw [hn.2]
      rfl
    rw [hk _ hb, wrThread_slot w r _ _ seq val mask h j hj (Or.inr ⟨⟨x, off, post, rfl⟩, hn.1⟩), hs _ hb,
      merged_mix _ val mask j _ (Thread.bankSlots_slot e.h _ _ j hj), hsl]
  | _ => trivial

theorem mem_unique {l : List (Who × Env)} (hn : (l.map (·.1)).Nodup) {w : Who} {e e' : Env} (h : (w, e) ∈ l) (h' : (w, e') ∈ l) : e = e' := by
  have := List.inj_on_of_nodup_map hn h h' rfl
  exact (Prod.mk.inj this).2

theorem filter_sublist {l ps : List (Who × Env)} (hn : (l.map (·.1)).Nodup) (hps : ps.Sublist l) :
    l.filter (fun p => decide (p.1 ∈ ps.map (·.1))) = ps := by
  induction hps with
  | slnil => rfl
  | cons a h ih =>
    rename_i l1 l2
    rw [List.map_cons, List.nodup_cons] at hn
    rw [List.filter_cons, if_neg, ih hn.2]
    intro hc
    apply hn.1
    have := of_decide_eq_true hc
    obtain ⟨q, hq, e⟩ := List.mem_map.1 this
    rw [← e]
    exact List.mem_map_of_mem (h.subset hq)
  | cons_cons a h ih =>
    rename_i l1 l2
    rw [List.map_cons, List.nodup_cons] at hn
    rw [List.filter_cons, if_pos (by simp)]
    congr 1
    refine Eq.trans (List.filter_congr ?_) (ih hn.2)
    intro x hx
    have : ¬ x.1 = a.1 := fun e => hn.1 (e ▸ List.mem_map_of_mem hx)
    simp only [List.map_cons, List.mem_cons, this, false_or]

/-- What a run of register writes leaves is what `Ran` says. -/
theorem ran_of_fold (i : Instr) (ps : List (Who × Env)) (f : List Env → Env → Out) (go : Env → Word × Word)
    (goT : Env → Thread → Word × Word) (s : State) (d : Dev) (hq : quietFor i ps s = true) (hps : ps.Sublist (issuers (s.dev.prepare i)))
    (hgo : ∀ w e, (w, e) ∈ ps → goT e e.h = go e) (hB : ∀ qs e, SecondIsReg i (f qs e))
    (hD : ∀ x off post, (Roles.opsOf i).1 = .ind x off post → isDestRole (Roles.rolesOf i).1 = true)
    (hd : Quiet (foldRun (fun p => outThread i (f (ps.map (·.2)) p.2) p.2 p.1 (goT p.2)) (fun p => outY i (f (ps.map (·.2)) p.2))
      (ps.map (·.1)) (issuers (s.dev.prepare i)) (s.dev.prepare i)) d) :
    Ran i ps f go s { s with dev := d } := by
  unfold quietFor at hq
  simp only [Bool.and_eq_true, decide_eq_true_eq, List.all_eq_true, beq_iff_eq] at hq
  obtain ⟨⟨⟨hwf, hn⟩, hfound⟩, -⟩ := hq
  have hacc := wellFormed_accepts i hwf
  have hpre := prepare_quiet i s.dev
  have hcur1 : (s.dev.prepare i).cur = s.dev.cur := by
    have := congrArg Dev.cur (hpre.rest s.dev)
    exact this
  generalize hF : (fun p : Who × Env => outThread i (f (ps.map (·.2)) p.2) p.2 p.1 (goT p.2)) = F at hd
  generalize hY : (fun p : Who × Env => outY i (f (ps.map (·.2)) p.2)) = Y at hd
  have hFf : ∀ p h, (F p h).fixed = h.fixed := by
    intro p h
    rw [← hF]
    exact outThread_fixed ..
  have hwin : ∀ w e, (w, e) ∈ issuers (s.dev.prepare i) → ∀ q, w = .que q → e.h.win = [] := by
    rintro w e he q rfl
    have := (hfound _ he).2
    simpa using this
  -- the threads that act, those that pass, the others
  have acted : ∀ w e, (w, e) ∈ ps → ∃ k, whoThread d w = some k ∧
      (∀ x, k.slot x = (outThread i (f (ps.map (·.2)) e) e w (goT e) e.h).slot x) ∧
      k.p = (outThread i (f (ps.map (·.2)) e) e w (goT e) e.h).p ∧ k.x = (outThread i (f (ps.map (·.2)) e) e w (goT e) e.h).x ∧
      k.pos = (outThread i (f (ps.map (·.2)) e) e w (goT e) e.h).pos ∧ k.pc = (goT e e.h).1 ∧ k.rep = (goT e e.h).2 := by
    intro w e he
    have hm := hps.subset he
    have h1 := foldRun_mem F hFf Y (ps.map (·.1)) _ (s.dev.prepare i) hn _ hm
    have h2 := (hfound _ hm).1
    simp only at h2
    rw [h2, Option.map_some] at h1
    have hr : runThread F (ps.map (·.1)) (w, e) e.h = outThread i (f (ps.map (·.2)) e) e w (goT e) e.h := by
      unfold runThread
      rw [if_pos (List.mem_map.2 ⟨_, he, rfl⟩), ← hF]
    rw [hr] at h1
    obtain ⟨k, hk, h⟩ := hd.threads w _ h1
    exact ⟨k, hk, h⟩
  have passedBy : ∀ w e, (w, e) ∈ issuers (s.dev.prepare i) → w ∉ ps.map (·.1) → ∃ k, whoThread d w = some k ∧
      (∀ x, k.slot x = e.h.slot x) ∧ k.p = e.h.p ∧ k.x = e.h.x ∧ k.pos = e.h.pos ∧ k.pc = e.h.advance.pc ∧ k.rep = e.h.advance.rep := by
    intro w e hm hw
    have h1 := foldRun_mem F hFf Y (ps.map (·.1)) _ (s.dev.prepare i) hn _ hm
    have h2 := (hfound _ hm).1
    simp only at h2
    rw [h2, Option.map_some] at h1
    have hr : runThread F (ps.map (·.1)) (w, e) e.h = e.h.advance := by
      unfold runThread
      rw [if_neg hw]
    rw [hr] at h1
    obtain ⟨k, hk, hs, hp, hx, hpos, hpc, hrep⟩ := hd.threads w _ h1
    exact ⟨k, hk, fun x => by rw [hs, Thread.advance_slot], by rw [hp, Thread.advance_p], by rw [hx, Thread.advance_x],
      by rw [hpos, Thread.advance_pos], hpc, hrep⟩
  constructor
  · -- the frame
    constructor
    · exact ⟨rfl, rfl⟩
    · rw [hd.rest, foldRun_rest, hpre.rest]
    · rw [hd.fixed, foldRun_fixed F hFf, hpre.fixed]
    · intro q
      have h1 := foldRun_queue F hFf Y (ps.map (·.1)) (issuers (s.dev.prepare i)) q (s.dev.prepare i)
      have h2 : d.queue q = (foldRun F Y (ps.map (·.1)) (issuers (s.dev.prepare i)) (s.dev.prepare i)).queue q := by
        unfold Dev.queue
        rw [hd.queues]
      have h3 : (s.dev.prepare i).queue q = s.dev.queue q := by
        unfold Dev.queue
        rw [hpre.queues]
      rw [← h3, ← h1, ← h2]
    · intro team gid hc
      rw [hd.others team gid (by rw [foldRun_cur, hcur1]; exact hc), foldRun_group_other, hpre.others team gid hc]
      intro p hp r hr hh
      unfold issuers at hp
      rw [hcur1] at hp
      cases hcc : s.dev.cur with
      | none => rw [hcc] at hp; simp at hp
      | queue q l k => rw [hcc] at hp; simp only [List.mem_singleton] at hp; rw [hp] at hr; simp at hr
      | run t g lanes lits k =>
        rw [hcc] at hp
        simp only at hp
        split at hp
        · simp at hp
        split at hp
        · simp at hp
        · split at hp
          · simp at hp
          · simp only [List.mem_filterMap, Option.map_eq_some_iff] at hp
            obtain ⟨l, -, h, -, rfl⟩ := hp
            simp only [Who.thr.injEq] at hr
            subst hr
            exact hc lanes lits k (by rw [hcc, hh.1, hh.2])
    · intro w h hw
      obtain ⟨h1, hh1, hsl, hp, hx, hpos, hpc, hrep⟩ := hpre.threads w h hw
      by_cases hi : w ∈ (issuers (s.dev.prepare i)).map (·.1)
      · obtain ⟨⟨w', e⟩, hm, e1⟩ := List.mem_map.1 hi
        simp only at e1
        subst e1
        have hfe := (hfound _ hm).1
        simp only at hfe
        have : h1 = e.h := by
          rw [hfe] at hh1
          exact (Option.some.inj hh1).symm
        subst this
        by_cases ha : w' ∈ ps.map (·.1)
        · obtain ⟨⟨w2, e2⟩, hm2, e3⟩ := List.mem_map.1 ha
          simp only at e3
          subst e3
          obtain rfl := mem_unique hn hm (hps.subset hm2)
          obtain ⟨k, hk, ks, -⟩ := acted _ _ hm2
          refine ⟨k, hk, ?_, fun hc => absurd ha hc, fun hc => absurd hi hc⟩
          intro x hx
          rw [ks, outThread_slot, twoWrites_slot_other i _ e w2 e.h x (hB _ _) (hx e hm2), hsl]
        · obtain ⟨k, hk, ks, kp, kx, kpos, -⟩ := passedBy _ _ hm ha
          exact ⟨k, hk, fun x _ => by rw [ks, hsl], fun _ => ⟨by rw [kp, hp], by rw [kx, hx], by rw [kpos, hpos]⟩,
            fun hc => absurd hi hc⟩
      · have h2 := foldRun_other F hFf Y (ps.map (·.1)) _ (s.dev.prepare i) w hi
        rw [hh1] at h2
        obtain ⟨k, hk, ks, kp, kx, kpos, kpc, krep⟩ := hd.threads w _ h2
        exact ⟨k, hk, fun x _ => by rw [ks, hsl], fun _ => ⟨by rw [kp, hp], by rw [kx, hx], by rw [kpos, hpos]⟩,
          fun _ => ⟨by rw [kpc, hpc], by rw [krep, hrep]⟩⟩
    · intro w e he h' hh'
      obtain ⟨k, hk, ks, kp, kx, -⟩ := acted w e he
      have : k = h' := Option.some.inj (hk.symm.trans hh')
      subst this
      have hsec : ∀ v, (f (ps.map (·.2)) e).scale = some v →
          (∀ n a k, (Roles.opsOf i).2.2 ≠ .reg .p n a k) ∧ ∀ n a k, (Roles.opsOf i).2.2 ≠ .reg .x n a k :=
        fun v hv => accepts_dest _ _ (hB _ _ v hv) hacc.2.2
      constructor
      · intro j hj hne
        have e1 : k.pred j = (twoWrites i (f (ps.map (·.2)) e) e w e.h).pred j := by
          unfold Thread.pred
          rw [kp, outThread_p]
        rw [e1]
        have e2 : ∀ q : Thread, q.p = (wrThread w (Roles.rolesOf i).1 (Roles.opsOf i).1 (firstSlot e (Roles.rolesOf i).1 (Roles.opsOf i).1)
            (nextSeq e) (f (ps.map (·.2)) e).val (f (ps.map (·.2)) e).mask e.h).p → q.pred j = e.h.pred j := by
          intro q hqp
          by_cases hD : ∃ n a m, (Roles.opsOf i).1 = .reg .p n a m
          · obtain ⟨n, a, m, hD⟩ := hD
            have : q.pred j = (e.h.setPred m.toNat ((f (ps.map (·.2)) e).val % 2 == 1)).pred j := by
              unfold Thread.pred
              rw [hqp, hD]
              rfl
            rw [this, Thread.pred_setPred _ _ _ _ hj, if_neg (fun h => hne n a m hD h.1)]
          · have : q.p = e.h.p := by
              rw [hqp, wrThread_p_other]
              intro n a m hh
              exact hD ⟨n, a, m, hh⟩
            unfold Thread.pred
            rw [this]
        apply e2
        unfold twoWrites
        cases hv : (f (ps.map (·.2)) e).scale with
        | none => rfl
        | some v => exact wrThread_p_other _ _ _ _ _ _ _ _ (hsec v hv).1
      · intro j hj
        have e1 : AMap.get 0 (twoWrites i (f (ps.map (·.2)) e) e w e.h).x j = AMap.get 0 e.h.x j := by
          have e2 : ∀ q : Thread, q.x = (wrThread w (Roles.rolesOf i).1 (Roles.opsOf i).1 (firstSlot e (Roles.rolesOf i).1 (Roles.opsOf i).1)
              (nextSeq e) (f (ps.map (·.2)) e).val (f (ps.map (·.2)) e).mask e.h).x → AMap.get 0 q.x j = AMap.get 0 e.h.x j := by
            intro q hqx
            rw [hqx]
            by_cases hD : ∃ n a m, (Roles.opsOf i).1 = .reg .x n a m
            · obtain ⟨n, a, m, hD⟩ := hD
              have hr := accepts_x _ n a m (hD ▸ hacc.1)
              have hdi : destIndex i = some m.toNat := by
                unfold destIndex
                rw [hD, hr]
              have hne : ¬ j = m.toNat := fun e => hj (e ▸ hdi)
              rw [hD]
              simp only [wrThread]
              rw [AMap.get_set, if_neg hne]
            · rw [wrThread_x_other]
              intro n a m hh
              exact hD ⟨n, a, m, hh⟩
          apply e2
          unfold twoWrites
          cases hv : (f (ps.map (·.2)) e).scale with
          | none => rfl
          | some v => exact wrThread_x_other _ _ _ _ _ _ _ _ (hsec v hv).2
        rw [kx, outThread_eq]
        simp only
        rw [postAdvance_x i _ j hj]
        simp only [e1]
  · -- threads that pass
    intro w e hm hw
    obtain ⟨k, hk, -, -, -, -, h1, h2⟩ := passedBy w e hm hw
    exact ⟨k, hk, h1, h2⟩
  · -- PC and position
    intro w e he
    obtain ⟨k, hk, -, -, -, hpos, h1, h2⟩ := acted w e he
    refine ⟨k, hk, ?_, by rw [hpos, outThread_pos]⟩
    rw [h1, h2, hgo w e he]
  · -- results
    intro w e he
    obtain ⟨k, hk, ks, kp, kx, -⟩ := acted w e he
    refine ⟨k, hk, ?_⟩
    have hw0 : ∀ o, IsDestOperand i o → ∀ x off post, o = .ind x off post → ∀ a, inRanges [declaredRange (AMap.get 0 e.h.x x.toNat)] a = true →
        winLookup a e.h.win = none := by
      rintro o ho x off post rfl a ha
      exact issuers_window i s.dev w e (hps.subset he) (hwin w e (hps.subset he)) x off post ho a ha
    have kx' : ∀ j : BitVec 9, destIndex i = some j.toNat →
        AMap.get 0 k.x j.toNat = AMap.get 0 (twoWrites i (f (ps.map (·.2)) e) e w e.h).x j.toNat := by
      intro j hj
      rw [kx, outThread_eq]
      simp only
      rw [postAdvance_dest i _ _ hj]
    have hDx : ∀ n a j, (Roles.opsOf i).1 = .reg .x n a j → destIndex i = some j.toNat := by
      intro n a j h
      have hr := accepts_x _ n a j (h ▸ hacc.1)
      unfold destIndex
      rw [h, hr]
    cases hv : (f (ps.map (·.2)) e).scale with
    | none =>
      have two : twoWrites i (f (ps.map (·.2)) e) e w e.h = wrThread w (Roles.rolesOf i).1 (Roles.opsOf i).1
          (firstSlot e (Roles.rolesOf i).1 (Roles.opsOf i).1) (nextSeq e) (f (ps.map (·.2)) e).val (f (ps.map (·.2)) e).mask e.h := by
        unfold twoWrites
        rw [hv]
      simp only [hv]
      apply holds_of_write w e _ _ [] (nextSeq e) _ _ e.h k
      · intro _ _; rfl
      · intro x off post h a ha _
        have := hw0 _ (Or.inl ⟨rfl, hD x off post h⟩) x off post h a ha
        exact ⟨this, this⟩
      · intro a _
        rw [ks, outThread_slot, two]
      · intro n a j _
        rw [kp, outThread_p, two]
      · intro n a j h
        rw [kx' j (hDx n a j h), two]
    | some v =>
      have hr2 := hB _ _ v hv
      have hsec := accepts_dest _ _ hr2 hacc.2.2
      have two : twoWrites i (f (ps.map (·.2)) e) e w e.h = wrThread w (Roles.rolesOf i).2.2 (Roles.opsOf i).2.2
          (firstSlot e (Roles.rolesOf i).2.2 (Roles.opsOf i).2.2) (nextSeq e) v 0xFF
          (wrThread w (Roles.rolesOf i).1 (Roles.opsOf i).1
          (firstSlot e (Roles.rolesOf i).1 (Roles.opsOf i).1) (nextSeq e) (f (ps.map (·.2)) e).val (f (ps.map (·.2)) e).mask e.h) := by
        unfold twoWrites
        rw [hv]
      simp only [hv]
      constructor
      · apply holds_of_write w e _ _ _ (nextSeq e) _ _ e.h k
        · intro _ _; rfl
        · intro x off post h a ha _
          have := hw0 _ (Or.inl ⟨rfl, hD x off post h⟩) x off post h a ha
          exact ⟨this, this⟩
        · intro a ha
          rw [ks, outThread_slot, two, wrThread_slot_other _ _ _ _ _ _ _ _ _ (by rw [spanOf_first]; exact ha)]
        · intro n a j _
          rw [kp, outThread_p, two, wrThread_p_other _ _ _ _ _ _ _ _ hsec.1]
        · intro n a j h
          rw [kx' j (hDx n a j h), two, wrThread_x_other _ _ _ _ _ _ _ _ hsec.2]
      · apply holds_of_write w e _ _ _ (nextSeq e) _ _ (wrThread w (Roles.rolesOf i).1 (Roles.opsOf i).1
          (firstSlot e (Roles.rolesOf i).1 (Roles.opsOf i).1) (nextSeq e) (f (ps.map (·.2)) e).val (f (ps.map (·.2)) e).mask e.h) k
        · intro a ha
          exact wrThread_slot_other _ _ _ _ _ _ _ _ _ (by rw [spanOf_first]; exact ha)
        · intro x off post h a ha hb
          have := hw0 _ (Or.inr ⟨rfl, hr2⟩) x off post h a ha
          exact ⟨wrThread_win_other _ _ _ _ _ _ _ _ _ (by rw [spanOf_first]; exact hb) this, this⟩
        · intro a _
          rw [ks, outThread_slot, two]
        · intro n a j h
          exact absurd h (hsec.1 n a j)
        · intro n a j h
          exact absurd h (hsec.2 n a j)
  · -- y registers
    intro team gid lanes lits k g hc hg
    obtain ⟨g1, hg1, hy1⟩ := hpre.groups team gid g hg
    have hthr : ∀ p ∈ issuers (s.dev.prepare i), ∃ tid, p.1 = .thr ⟨team, gid, tid⟩ := by
      intro p hp
      unfold issuers at hp
      rw [hcur1, hc] at hp
      simp only at hp
      split at hp
      · simp at hp
      split at hp
      · simp at hp
      · split at hp
        · simp at hp
        · simp only [List.mem_filterMap, Option.map_eq_some_iff] at hp
          obtain ⟨l, -, h, -, rfl⟩ := hp
          exact ⟨h.tid, rfl⟩
    obtain ⟨g2, hg2, hy2⟩ := foldRun_group F Y (ps.map (·.1)) _ team gid (s.dev.prepare i) g1 hthr hg1
    obtain ⟨g3, hg3, hy3⟩ := hd.groups team gid g2 hg2
    refine ⟨g3, hg3, ?_⟩
    rw [hy3, hy2, hy1]
    unfold yAfter
    have skip : ∀ (l : List (Who × Env)) (y : AMap Word), l.foldl (fun y p => runY Y (ps.map (·.1)) p y) y
        = (l.filter fun p => decide (p.1 ∈ ps.map (·.1))).foldl (fun y p => Y p y) y := by
      intro l
      induction l with
      | nil => intro y; rfl
      | cons p r ih =>
        intro y
        rw [List.foldl_cons, List.filter_cons]
        unfold runY at ih ⊢
        by_cases hp : p.1 ∈ ps.map (·.1)
        · rw [if_pos hp, if_pos (by simpa using hp), List.foldl_cons, ih]
        · rw [if_neg hp, if_neg (by simpa using hp), ih]
          rfl
    rw [skip, filter_sublist hn hps, ← hY]
    rfl

theorem performers_sublist (i : Instr) (d : Dev) : (performers i d).Sublist (issuers (d.prepare i)) := by
  unfold performers actors
  split
  · exact (List.take_sublist 1 _).trans List.filter_sublist
  · exact List.filter_sublist

theorem actors_sublist (i : Instr) (d : Dev) : (actors i d).Sublist (issuers (d.prepare i)) := List.filter_sublist

/-- The participants of a run in which no thread with a true guard traps are those threads (R196). -/
theorem participants_actors (i : Instr) (s : State) (hq : quietAll i s = true) :
    participants i (issuers (s.dev.prepare i)) = actors i s.dev := by
  have hclear : ∀ p ∈ actors i s.dev, clear p.2 i = true := by
    unfold quietAll quietFor at hq
    simp only [Bool.and_eq_true, List.all_eq_true] at hq
    exact hq.2
  have e : participants i (issuers (s.dev.prepare i)) = (actors i s.dev).filter fun p => clear p.2 i := by
    unfold participants actors
    rw [List.filter_filter]
    apply List.filter_congr
    intro p _
    unfold clear
    cases p.2.h.guard (Roles.ctlOf i) <;> simp
  rw [e]
  exact List.filter_eq_self.2 hclear

/-- Where no thread with a true guard traps, no performing thread does. -/
theorem quiet_of_quietAll (i : Instr) (s : State) (hq : quietAll i s = true) : quiet i s = true := by
  unfold quietAll quietFor at hq
  unfold quiet quietFor
  simp only [Bool.and_eq_true, List.all_eq_true] at hq ⊢
  refine ⟨hq.1, fun p hp => hq.2 p ?_⟩
  unfold performers at hp
  split at hp
  · exact List.mem_of_mem_take hp
  · exact hp

/-- The issue of a register-to-register instruction as one change for each thread. -/
theorem issueAll_out (i : Instr) (g : Env → Out) (s : State) (hq : quiet i s = true) :
    issueAll i noCheck (fun e w d => writeOut i (g e) e w d) s.dev
      = foldRun (fun p => outThread i (g p.2) p.2 p.1 Thread.goOn) (fun p => outY i (g p.2)) ((performers i s.dev).map (·.1))
        (issuers (s.dev.prepare i)) (s.dev.prepare i) := by
  have he : ∀ (p : Who × Env) (d : Dev), (fun e w d => writeOut i (g e) e w d) p.2 p.1 d
      = d.touch p.1 (outThread i (g p.2) p.2 p.1 Thread.goOn) (outY i (g p.2)) := fun p d => writeOut_touch i (g p.2) p.2 p.1 d
  exact issueAll_run i (fun e w d => writeOut i (g e) e w d) (fun p => outThread i (g p.2) p.2 p.1 Thread.goOn) (fun p => outY i (g p.2)) he s hq

/-- A run-collective instruction completes with its result (R196). -/
theorem computesAll_of_collective (i : Instr) (f : List Env → Env → Out) (hB : ∀ qs e, SecondIsReg i (f qs e))
    (hD : ∀ x off post, (Roles.opsOf i).1 = .ind x off post → isDestRole (Roles.rolesOf i).1 = true)
    (hx : ∀ s, exec i s = s.onDev (collectiveRun i f)) : ComputesAll i f := by
  intro s hqa
  have hq := quiet_of_quietAll i s hqa
  refine ⟨_, hx s, ?_⟩
  have hrun : collectiveRun i f s.dev = (issueAll i noCheck (fun e w d => writeOut i (f ((actors i s.dev).map (·.2)) e) e w d) s.dev).closeWindow i := by
    unfold collectiveRun
    simp only
    rw [participants_actors i s hqa]
  rw [hrun, issueAll_out i (f ((actors i s.dev).map (·.2))) s hq]
  exact ran_of_fold i (performers i s.dev) (fun _ => f ((actors i s.dev).map (·.2))) goOn (fun _ => Thread.goOn) s _ hq
    (performers_sublist i s.dev) (fun _ _ _ => rfl) (fun _ => hB _) hD (closeWindow_quiet i _)

/-- An instruction of fixed latency completes with its result. -/
theorem computes_of_alu (i : Instr) (f : Env → Out) (hB : ∀ e, SecondIsReg i (f e))
    (hD : ∀ x off post, (Roles.opsOf i).1 = .ind x off post → isDestRole (Roles.rolesOf i).1 = true)
    (hx : ∀ s, exec i s = s.onDev (aluRun i f)) : Computes i f := by
  intro s hq
  refine ⟨_, hx s, ?_⟩
  unfold aluRun
  rw [issueAll_out i f s hq]
  exact ran_of_fold i (performers i s.dev) (fun _ => f) goOn (fun _ => Thread.goOn) s _ hq (performers_sublist i s.dev) (fun _ _ _ => rfl)
    (fun _ => hB) hD (closeWindow_quiet i _)

/-- An instruction in which every thread with a true guard acts for itself runs as `Ran` says, whether or not its result enters the
window. -/
theorem ran_of_each (i : Instr) (f : List Env → Env → Out) (go : Env → Word × Word) (goT : Env → Thread → Word × Word)
    (eff : Env → Who → Dev → Dev) (s : State) (hq : quietAll i s = true) (hgo : ∀ w e, (w, e) ∈ actors i s.dev → goT e e.h = go e)
    (hB : ∀ qs e, SecondIsReg i (f qs e))
    (hD : ∀ x off post, (Roles.opsOf i).1 = .ind x off post → isDestRole (Roles.rolesOf i).1 = true)
    (he : ∀ (p : Who × Env) (d : Dev), eff p.2 p.1 d
      = d.touch p.1 (outThread i (f ((actors i s.dev).map (·.2)) p.2) p.2 p.1 (goT p.2)) (outY i (f ((actors i s.dev).map (·.2)) p.2)))
    (d : Dev) (hd : d = eachThread i noCheck eff s.dev ∨ d = (eachThread i noCheck eff s.dev).closeWindow i) :
    Ran i (actors i s.dev) f go s { s with dev := d } := by
  have hps : ∃ ps, actors i s.dev = ps := ⟨_, rfl⟩
  obtain ⟨ps, hps⟩ := hps
  rw [hps] at hgo he ⊢
  have hq' : quietFor i ps s = true := by
    unfold quietAll at hq
    rw [hps] at hq
    exact hq
  have hsub : ps.Sublist (issuers (s.dev.prepare i)) := by
    have := actors_sublist i s.dev
    rw [hps] at this
    exact this
  have he' : ∀ (p : Who × Env) (d : Dev), eff p.2 p.1 d = d.touch p.1 ((fun p : Who × Env => outThread i (f (ps.map (·.2)) p.2) p.2 p.1 (goT p.2)) p)
      ((fun p : Who × Env => outY i (f (ps.map (·.2)) p.2)) p) := he
  have hrun := eachThread_run i eff _ _ he' s hq
  rw [hps] at hrun
  refine ran_of_fold i ps f go goT s d hq' hsub hgo hB hD ?_
  rcases hd with h | h
  · rw [h, hrun]
    exact Quiet.refl _
  · rw [h, hrun]
    exact closeWindow_quiet i _
end Sys2Proof.Machine
end

