-- ==== Sys2Proof/Laws/State.lean ====
section
/-! SUPPORT. What every update of the machine's state leaves in each field: one law per update and field, true by definition. -/

namespace Sys2Proof.Machine

/-! ## A team, a group, a thread, a grid of the machine -/

@[simp] theorem Dev.mapTeam_cur (d : Dev) (i : Nat) (f : Team → Team) : (d.mapTeam i f).cur = d.cur := rfl
@[simp] theorem Dev.mapTeam_cycle (d : Dev) (i : Nat) (f : Team → Team) : (d.mapTeam i f).cycle = d.cycle := rfl
@[simp] theorem Dev.mapTeam_fresh (d : Dev) (i : Nat) (f : Team → Team) : (d.mapTeam i f).fresh = d.fresh := rfl
@[simp] theorem Dev.mapTeam_nextId (d : Dev) (i : Nat) (f : Team → Team) : (d.mapTeam i f).nextId = d.nextId := rfl
@[simp] theorem Dev.mapTeam_notices (d : Dev) (i : Nat) (f : Team → Team) : (d.mapTeam i f).notices = d.notices := rfl
@[simp] theorem Dev.mapTeam_lost (d : Dev) (i : Nat) (f : Team → Team) : (d.mapTeam i f).lost = d.lost := rfl
@[simp] theorem Dev.mapTeam_losses (d : Dev) (i : Nat) (f : Team → Team) : (d.mapTeam i f).losses = d.losses := rfl
@[simp] theorem Dev.mapTeam_hbm (d : Dev) (i : Nat) (f : Team → Team) : (d.mapTeam i f).hbm = d.hbm := rfl
@[simp] theorem Dev.mapTeam_scr (d : Dev) (i : Nat) (f : Team → Team) : (d.mapTeam i f).scr = d.scr := rfl
@[simp] theorem Dev.mapTeam_tmem (d : Dev) (i : Nat) (f : Team → Team) : (d.mapTeam i f).tmem = d.tmem := rfl
@[simp] theorem Dev.mapTeam_tiles (d : Dev) (i : Nat) (f : Team → Team) : (d.mapTeam i f).tiles = d.tiles := rfl
@[simp] theorem Dev.mapTeam_host (d : Dev) (i : Nat) (f : Team → Team) : (d.mapTeam i f).host = d.host := rfl
@[simp] theorem Dev.mapTeam_poison (d : Dev) (i : Nat) (f : Team → Team) : (d.mapTeam i f).poison = d.poison := rfl
@[simp] theorem Dev.mapTeam_tileStat (d : Dev) (i : Nat) (f : Team → Team) : (d.mapTeam i f).tileStat = d.tileStat := rfl
@[simp] theorem Dev.mapTeam_keptTiles (d : Dev) (i : Nat) (f : Team → Team) : (d.mapTeam i f).keptTiles = d.keptTiles := rfl
@[simp] theorem Dev.mapTeam_grids (d : Dev) (i : Nat) (f : Team → Team) : (d.mapTeam i f).grids = d.grids := rfl
@[simp] theorem Dev.mapTeam_racq (d : Dev) (i : Nat) (f : Team → Team) : (d.mapTeam i f).racq = d.racq := rfl
@[simp] theorem Dev.mapTeam_bars (d : Dev) (i : Nat) (f : Team → Team) : (d.mapTeam i f).bars = d.bars := rfl
@[simp] theorem Dev.mapTeam_barWait (d : Dev) (i : Nat) (f : Team → Team) : (d.mapTeam i f).barWait = d.barWait := rfl
@[simp] theorem Dev.mapTeam_results (d : Dev) (i : Nat) (f : Team → Team) : (d.mapTeam i f).results = d.results := rfl
@[simp] theorem Dev.mapTeam_scrWrites (d : Dev) (i : Nat) (f : Team → Team) : (d.mapTeam i f).scrWrites = d.scrWrites := rfl
@[simp] theorem Dev.mapTeam_watch (d : Dev) (i : Nat) (f : Team → Team) : (d.mapTeam i f).watch = d.watch := rfl
@[simp] theorem Dev.mapTeam_sysUse (d : Dev) (i : Nat) (f : Team → Team) : (d.mapTeam i f).sysUse = d.sysUse := rfl
@[simp] theorem Dev.mapTeam_owners (d : Dev) (i : Nat) (f : Team → Team) : (d.mapTeam i f).owners = d.owners := rfl
@[simp] theorem Dev.mapTeam_qops (d : Dev) (i : Nat) (f : Team → Team) : (d.mapTeam i f).qops = d.qops := rfl
@[simp] theorem Dev.mapTeam_qbad (d : Dev) (i : Nat) (f : Team → Team) : (d.mapTeam i f).qbad = d.qbad := rfl
@[simp] theorem Dev.mapTeam_ctxs (d : Dev) (i : Nat) (f : Team → Team) : (d.mapTeam i f).ctxs = d.ctxs := rfl
@[simp] theorem Dev.mapTeam_indir (d : Dev) (i : Nat) (f : Team → Team) : (d.mapTeam i f).indir = d.indir := rfl
@[simp] theorem Dev.mapTeam_counts (d : Dev) (i : Nat) (f : Team → Team) : (d.mapTeam i f).counts = d.counts := rfl
@[simp] theorem Dev.mapTeam_migr (d : Dev) (i : Nat) (f : Team → Team) : (d.mapTeam i f).migr = d.migr := rfl
@[simp] theorem Dev.mapTeam_barred (d : Dev) (i : Nat) (f : Team → Team) : (d.mapTeam i f).barred = d.barred := rfl
@[simp] theorem Dev.mapTeam_tlb (d : Dev) (i : Nat) (f : Team → Team) : (d.mapTeam i f).tlb = d.tlb := rfl
@[simp] theorem Dev.mapTeam_ats (d : Dev) (i : Nat) (f : Team → Team) : (d.mapTeam i f).ats = d.ats := rfl
@[simp] theorem Dev.mapTeam_reqs (d : Dev) (i : Nat) (f : Team → Team) : (d.mapTeam i f).reqs = d.reqs := rfl
@[simp] theorem Dev.mapTeam_acks (d : Dev) (i : Nat) (f : Team → Team) : (d.mapTeam i f).acks = d.acks := rfl
@[simp] theorem Dev.mapTeam_tags (d : Dev) (i : Nat) (f : Team → Team) : (d.mapTeam i f).tags = d.tags := rfl
@[simp] theorem Dev.mapTeam_partials (d : Dev) (i : Nat) (f : Team → Team) : (d.mapTeam i f).partials = d.partials := rfl
@[simp] theorem Dev.mapTeam_shared (d : Dev) (i : Nat) (f : Team → Team) : (d.mapTeam i f).shared = d.shared := rfl
@[simp] theorem Dev.mapTeam_contribs (d : Dev) (i : Nat) (f : Team → Team) : (d.mapTeam i f).contribs = d.contribs := rfl
@[simp] theorem Dev.mapTeam_side (d : Dev) (i : Nat) (f : Team → Team) : (d.mapTeam i f).side = d.side := rfl
@[simp] theorem Dev.mapTeam_faulted (d : Dev) (i : Nat) (f : Team → Team) : (d.mapTeam i f).faulted = d.faulted := rfl
@[simp] theorem Dev.mapTeam_joins (d : Dev) (i : Nat) (f : Team → Team) : (d.mapTeam i f).joins = d.joins := rfl
@[simp] theorem Dev.mapTeam_cards (d : Dev) (i : Nat) (f : Team → Team) : (d.mapTeam i f).cards = d.cards := rfl
@[simp] theorem Dev.mapTeam_rays (d : Dev) (i : Nat) (f : Team → Team) : (d.mapTeam i f).rays = d.rays := rfl
@[simp] theorem Dev.mapTeam_tex (d : Dev) (i : Nat) (f : Team → Team) : (d.mapTeam i f).tex = d.tex := rfl
@[simp] theorem Dev.mapTeam_shc (d : Dev) (i : Nat) (f : Team → Team) : (d.mapTeam i f).shc = d.shc := rfl
@[simp] theorem Dev.mapTeam_shcReqs (d : Dev) (i : Nat) (f : Team → Team) : (d.mapTeam i f).shcReqs = d.shcReqs := rfl
@[simp] theorem Dev.mapTeam_entries (d : Dev) (i : Nat) (f : Team → Team) : (d.mapTeam i f).entries = d.entries := rfl
@[simp] theorem Dev.mapTeam_collReqs (d : Dev) (i : Nat) (f : Team → Team) : (d.mapTeam i f).collReqs = d.collReqs := rfl
@[simp] theorem Dev.mapTeam_queues (d : Dev) (i : Nat) (f : Team → Team) : (d.mapTeam i f).queues = d.queues := rfl
@[simp] theorem Dev.mapTeam_serving (d : Dev) (i : Nat) (f : Team → Team) : (d.mapTeam i f).serving = d.serving := rfl
@[simp] theorem Dev.mapTeam_serveAt (d : Dev) (i : Nat) (f : Team → Team) : (d.mapTeam i f).serveAt = d.serveAt := rfl
@[simp] theorem Dev.mapTeam_ptr (d : Dev) (i : Nat) (f : Team → Team) : (d.mapTeam i f).ptr = d.ptr := rfl
@[simp] theorem Dev.mapTeam_kerf (d : Dev) (i : Nat) (f : Team → Team) : (d.mapTeam i f).kerf = d.kerf := rfl
@[simp] theorem Dev.mapTeam_idle (d : Dev) (i : Nat) (f : Team → Team) : (d.mapTeam i f).idle = d.idle := rfl
@[simp] theorem Dev.mapTeam_periods (d : Dev) (i : Nat) (f : Team → Team) : (d.mapTeam i f).periods = d.periods := rfl
@[simp] theorem Dev.mapTeam_gwr (d : Dev) (i : Nat) (f : Team → Team) : (d.mapTeam i f).gwr = d.gwr := rfl
@[simp] theorem Dev.mapTeam_grd (d : Dev) (i : Nat) (f : Team → Team) : (d.mapTeam i f).grd = d.grd := rfl
@[simp] theorem Dev.mapTeam_gdropped (d : Dev) (i : Nat) (f : Team → Team) : (d.mapTeam i f).gdropped = d.gdropped := rfl
@[simp] theorem Dev.mapTeam_garmed (d : Dev) (i : Nat) (f : Team → Team) : (d.mapTeam i f).garmed = d.garmed := rfl
@[simp] theorem Dev.mapTeam_gvec0 (d : Dev) (i : Nat) (f : Team → Team) : (d.mapTeam i f).gvec0 = d.gvec0 := rfl
@[simp] theorem Dev.mapTeam_gvec1 (d : Dev) (i : Nat) (f : Team → Team) : (d.mapTeam i f).gvec1 = d.gvec1 := rfl
@[simp] theorem Dev.mapTeam_glog (d : Dev) (i : Nat) (f : Team → Team) : (d.mapTeam i f).glog = d.glog := rfl
@[simp] theorem Dev.mapTeam_recSeq (d : Dev) (i : Nat) (f : Team → Team) : (d.mapTeam i f).recSeq = d.recSeq := rfl
@[simp] theorem Dev.mapTeam_secs (d : Dev) (i : Nat) (f : Team → Team) : (d.mapTeam i f).secs = d.secs := rfl
@[simp] theorem Dev.mapTeam_nanos (d : Dev) (i : Nat) (f : Team → Team) : (d.mapTeam i f).nanos = d.nanos := rfl
@[simp] theorem Dev.mapTeam_frac (d : Dev) (i : Nat) (f : Team → Team) : (d.mapTeam i f).frac = d.frac := rfl
@[simp] theorem Dev.mapTeam_slew (d : Dev) (i : Nat) (f : Team → Team) : (d.mapTeam i f).slew = d.slew := rfl
@[simp] theorem Dev.mapTeam_half (d : Dev) (i : Nat) (f : Team → Team) : (d.mapTeam i f).half = d.half := rfl
@[simp] theorem Dev.mapTeam_reference (d : Dev) (i : Nat) (f : Team → Team) : (d.mapTeam i f).reference = d.reference := rfl
@[simp] theorem Dev.mapTeam_ports (d : Dev) (i : Nat) (f : Team → Team) : (d.mapTeam i f).ports = d.ports := rfl
@[simp] theorem Dev.mapTeam_outs (d : Dev) (i : Nat) (f : Team → Team) : (d.mapTeam i f).outs = d.outs := rfl
@[simp] theorem Dev.mapTeam_ioWait (d : Dev) (i : Nat) (f : Team → Team) : (d.mapTeam i f).ioWait = d.ioWait := rfl
@[simp] theorem Dev.mapTeam_ins (d : Dev) (i : Nat) (f : Team → Team) : (d.mapTeam i f).ins = d.ins := rfl
@[simp] theorem Dev.mapTeam_remotes (d : Dev) (i : Nat) (f : Team → Team) : (d.mapTeam i f).remotes = d.remotes := rfl
@[simp] theorem Dev.mapTeam_endpoint (d : Dev) (i : Nat) (f : Team → Team) : (d.mapTeam i f).endpoint = d.endpoint := rfl
@[simp] theorem Dev.mapTeam_firings (d : Dev) (i : Nat) (f : Team → Team) : (d.mapTeam i f).firings = d.firings := rfl
@[simp] theorem Dev.mapTeam_hstacks (d : Dev) (i : Nat) (f : Team → Team) : (d.mapTeam i f).hstacks = d.hstacks := rfl
@[simp] theorem Dev.mapTeam_rates (d : Dev) (i : Nat) (f : Team → Team) : (d.mapTeam i f).rates = d.rates := rfl
@[simp] theorem Dev.mapTeam_late (d : Dev) (i : Nat) (f : Team → Team) : (d.mapTeam i f).late = d.late := rfl
@[simp] theorem Dev.mapTeam_owed (d : Dev) (i : Nat) (f : Team → Team) : (d.mapTeam i f).owed = d.owed := rfl
@[simp] theorem Dev.mapTeam_lostWrites (d : Dev) (i : Nat) (f : Team → Team) : (d.mapTeam i f).lostWrites = d.lostWrites := rfl
@[simp] theorem Dev.mapGroup_cur (d : Dev) (i j : Nat) (f : Group → Group) : (d.mapGroup i j f).cur = d.cur := rfl
@[simp] theorem Dev.mapGroup_cycle (d : Dev) (i j : Nat) (f : Group → Group) : (d.mapGroup i j f).cycle = d.cycle := rfl
@[simp] theorem Dev.mapGroup_fresh (d : Dev) (i j : Nat) (f : Group → Group) : (d.mapGroup i j f).fresh = d.fresh := rfl
@[simp] theorem Dev.mapGroup_nextId (d : Dev) (i j : Nat) (f : Group → Group) : (d.mapGroup i j f).nextId = d.nextId := rfl
@[simp] theorem Dev.mapGroup_notices (d : Dev) (i j : Nat) (f : Group → Group) : (d.mapGroup i j f).notices = d.notices := rfl
@[simp] theorem Dev.mapGroup_lost (d : Dev) (i j : Nat) (f : Group → Group) : (d.mapGroup i j f).lost = d.lost := rfl
@[simp] theorem Dev.mapGroup_losses (d : Dev) (i j : Nat) (f : Group → Group) : (d.mapGroup i j f).losses = d.losses := rfl
@[simp] theorem Dev.mapGroup_hbm (d : Dev) (i j : Nat) (f : Group → Group) : (d.mapGroup i j f).hbm = d.hbm := rfl
@[simp] theorem Dev.mapGroup_scr (d : Dev) (i j : Nat) (f : Group → Group) : (d.mapGroup i j f).scr = d.scr := rfl
@[simp] theorem Dev.mapGroup_tmem (d : Dev) (i j : Nat) (f : Group → Group) : (d.mapGroup i j f).tmem = d.tmem := rfl
@[simp] theorem Dev.mapGroup_tiles (d : Dev) (i j : Nat) (f : Group → Group) : (d.mapGroup i j f).tiles = d.tiles := rfl
@[simp] theorem Dev.mapGroup_host (d : Dev) (i j : Nat) (f : Group → Group) : (d.mapGroup i j f).host = d.host := rfl
@[simp] theorem Dev.mapGroup_poison (d : Dev) (i j : Nat) (f : Group → Group) : (d.mapGroup i j f).poison = d.poison := rfl
@[simp] theorem Dev.mapGroup_tileStat (d : Dev) (i j : Nat) (f : Group → Group) : (d.mapGroup i j f).tileStat = d.tileStat := rfl
@[simp] theorem Dev.mapGroup_keptTiles (d : Dev) (i j : Nat) (f : Group → Group) : (d.mapGroup i j f).keptTiles = d.keptTiles := rfl
@[simp] theorem Dev.mapGroup_grids (d : Dev) (i j : Nat) (f : Group → Group) : (d.mapGroup i j f).grids = d.grids := rfl
@[simp] theorem Dev.mapGroup_racq (d : Dev) (i j : Nat) (f : Group → Group) : (d.mapGroup i j f).racq = d.racq := rfl
@[simp] theorem Dev.mapGroup_bars (d : Dev) (i j : Nat) (f : Group → Group) : (d.mapGroup i j f).bars = d.bars := rfl
@[simp] theorem Dev.mapGroup_barWait (d : Dev) (i j : Nat) (f : Group → Group) : (d.mapGroup i j f).barWait = d.barWait := rfl
@[simp] theorem Dev.mapGroup_results (d : Dev) (i j : Nat) (f : Group → Group) : (d.mapGroup i j f).results = d.results := rfl
@[simp] theorem Dev.mapGroup_scrWrites (d : Dev) (i j : Nat) (f : Group → Group) : (d.mapGroup i j f).scrWrites = d.scrWrites := rfl
@[simp] theorem Dev.mapGroup_watch (d : Dev) (i j : Nat) (f : Group → Group) : (d.mapGroup i j f).watch = d.watch := rfl
@[simp] theorem Dev.mapGroup_sysUse (d : Dev) (i j : Nat) (f : Group → Group) : (d.mapGroup i j f).sysUse = d.sysUse := rfl
@[simp] theorem Dev.mapGroup_owners (d : Dev) (i j : Nat) (f : Group → Group) : (d.mapGroup i j f).owners = d.owners := rfl
@[simp] theorem Dev.mapGroup_qops (d : Dev) (i j : Nat) (f : Group → Group) : (d.mapGroup i j f).qops = d.qops := rfl
@[simp] theorem Dev.mapGroup_qbad (d : Dev) (i j : Nat) (f : Group → Group) : (d.mapGroup i j f).qbad = d.qbad := rfl
@[simp] theorem Dev.mapGroup_ctxs (d : Dev) (i j : Nat) (f : Group → Group) : (d.mapGroup i j f).ctxs = d.ctxs := rfl
@[simp] theorem Dev.mapGroup_indir (d : Dev) (i j : Nat) (f : Group → Group) : (d.mapGroup i j f).indir = d.indir := rfl
@[simp] theorem Dev.mapGroup_counts (d : Dev) (i j : Nat) (f : Group → Group) : (d.mapGroup i j f).counts = d.counts := rfl
@[simp] theorem Dev.mapGroup_migr (d : Dev) (i j : Nat) (f : Group → Group) : (d.mapGroup i j f).migr = d.migr := rfl
@[simp] theorem Dev.mapGroup_barred (d : Dev) (i j : Nat) (f : Group → Group) : (d.mapGroup i j f).barred = d.barred := rfl
@[simp] theorem Dev.mapGroup_tlb (d : Dev) (i j : Nat) (f : Group → Group) : (d.mapGroup i j f).tlb = d.tlb := rfl
@[simp] theorem Dev.mapGroup_ats (d : Dev) (i j : Nat) (f : Group → Group) : (d.mapGroup i j f).ats = d.ats := rfl
@[simp] theorem Dev.mapGroup_reqs (d : Dev) (i j : Nat) (f : Group → Group) : (d.mapGroup i j f).reqs = d.reqs := rfl
@[simp] theorem Dev.mapGroup_acks (d : Dev) (i j : Nat) (f : Group → Group) : (d.mapGroup i j f).acks = d.acks := rfl
@[simp] theorem Dev.mapGroup_tags (d : Dev) (i j : Nat) (f : Group → Group) : (d.mapGroup i j f).tags = d.tags := rfl
@[simp] theorem Dev.mapGroup_partials (d : Dev) (i j : Nat) (f : Group → Group) : (d.mapGroup i j f).partials = d.partials := rfl
@[simp] theorem Dev.mapGroup_shared (d : Dev) (i j : Nat) (f : Group → Group) : (d.mapGroup i j f).shared = d.shared := rfl
@[simp] theorem Dev.mapGroup_contribs (d : Dev) (i j : Nat) (f : Group → Group) : (d.mapGroup i j f).contribs = d.contribs := rfl
@[simp] theorem Dev.mapGroup_side (d : Dev) (i j : Nat) (f : Group → Group) : (d.mapGroup i j f).side = d.side := rfl
@[simp] theorem Dev.mapGroup_faulted (d : Dev) (i j : Nat) (f : Group → Group) : (d.mapGroup i j f).faulted = d.faulted := rfl
@[simp] theorem Dev.mapGroup_joins (d : Dev) (i j : Nat) (f : Group → Group) : (d.mapGroup i j f).joins = d.joins := rfl
@[simp] theorem Dev.mapGroup_cards (d : Dev) (i j : Nat) (f : Group → Group) : (d.mapGroup i j f).cards = d.cards := rfl
@[simp] theorem Dev.mapGroup_rays (d : Dev) (i j : Nat) (f : Group → Group) : (d.mapGroup i j f).rays = d.rays := rfl
@[simp] theorem Dev.mapGroup_tex (d : Dev) (i j : Nat) (f : Group → Group) : (d.mapGroup i j f).tex = d.tex := rfl
@[simp] theorem Dev.mapGroup_shc (d : Dev) (i j : Nat) (f : Group → Group) : (d.mapGroup i j f).shc = d.shc := rfl
@[simp] theorem Dev.mapGroup_shcReqs (d : Dev) (i j : Nat) (f : Group → Group) : (d.mapGroup i j f).shcReqs = d.shcReqs := rfl
@[simp] theorem Dev.mapGroup_entries (d : Dev) (i j : Nat) (f : Group → Group) : (d.mapGroup i j f).entries = d.entries := rfl
@[simp] theorem Dev.mapGroup_collReqs (d : Dev) (i j : Nat) (f : Group → Group) : (d.mapGroup i j f).collReqs = d.collReqs := rfl
@[simp] theorem Dev.mapGroup_queues (d : Dev) (i j : Nat) (f : Group → Group) : (d.mapGroup i j f).queues = d.queues := rfl
@[simp] theorem Dev.mapGroup_serving (d : Dev) (i j : Nat) (f : Group → Group) : (d.mapGroup i j f).serving = d.serving := rfl
@[simp] theorem Dev.mapGroup_serveAt (d : Dev) (i j : Nat) (f : Group → Group) : (d.mapGroup i j f).serveAt = d.serveAt := rfl
@[simp] theorem Dev.mapGroup_ptr (d : Dev) (i j : Nat) (f : Group → Group) : (d.mapGroup i j f).ptr = d.ptr := rfl
@[simp] theorem Dev.mapGroup_kerf (d : Dev) (i j : Nat) (f : Group → Group) : (d.mapGroup i j f).kerf = d.kerf := rfl
@[simp] theorem Dev.mapGroup_idle (d : Dev) (i j : Nat) (f : Group → Group) : (d.mapGroup i j f).idle = d.idle := rfl
@[simp] theorem Dev.mapGroup_periods (d : Dev) (i j : Nat) (f : Group → Group) : (d.mapGroup i j f).periods = d.periods := rfl
@[simp] theorem Dev.mapGroup_gwr (d : Dev) (i j : Nat) (f : Group → Group) : (d.mapGroup i j f).gwr = d.gwr := rfl
@[simp] theorem Dev.mapGroup_grd (d : Dev) (i j : Nat) (f : Group → Group) : (d.mapGroup i j f).grd = d.grd := rfl
@[simp] theorem Dev.mapGroup_gdropped (d : Dev) (i j : Nat) (f : Group → Group) : (d.mapGroup i j f).gdropped = d.gdropped := rfl
@[simp] theorem Dev.mapGroup_garmed (d : Dev) (i j : Nat) (f : Group → Group) : (d.mapGroup i j f).garmed = d.garmed := rfl
@[simp] theorem Dev.mapGroup_gvec0 (d : Dev) (i j : Nat) (f : Group → Group) : (d.mapGroup i j f).gvec0 = d.gvec0 := rfl
@[simp] theorem Dev.mapGroup_gvec1 (d : Dev) (i j : Nat) (f : Group → Group) : (d.mapGroup i j f).gvec1 = d.gvec1 := rfl
@[simp] theorem Dev.mapGroup_glog (d : Dev) (i j : Nat) (f : Group → Group) : (d.mapGroup i j f).glog = d.glog := rfl
@[simp] theorem Dev.mapGroup_recSeq (d : Dev) (i j : Nat) (f : Group → Group) : (d.mapGroup i j f).recSeq = d.recSeq := rfl
@[simp] theorem Dev.mapGroup_secs (d : Dev) (i j : Nat) (f : Group → Group) : (d.mapGroup i j f).secs = d.secs := rfl
@[simp] theorem Dev.mapGroup_nanos (d : Dev) (i j : Nat) (f : Group → Group) : (d.mapGroup i j f).nanos = d.nanos := rfl
@[simp] theorem Dev.mapGroup_frac (d : Dev) (i j : Nat) (f : Group → Group) : (d.mapGroup i j f).frac = d.frac := rfl
@[simp] theorem Dev.mapGroup_slew (d : Dev) (i j : Nat) (f : Group → Group) : (d.mapGroup i j f).slew = d.slew := rfl
@[simp] theorem Dev.mapGroup_half (d : Dev) (i j : Nat) (f : Group → Group) : (d.mapGroup i j f).half = d.half := rfl
@[simp] theorem Dev.mapGroup_reference (d : Dev) (i j : Nat) (f : Group → Group) : (d.mapGroup i j f).reference = d.reference := rfl
@[simp] theorem Dev.mapGroup_ports (d : Dev) (i j : Nat) (f : Group → Group) : (d.mapGroup i j f).ports = d.ports := rfl
@[simp] theorem Dev.mapGroup_outs (d : Dev) (i j : Nat) (f : Group → Group) : (d.mapGroup i j f).outs = d.outs := rfl
@[simp] theorem Dev.mapGroup_ioWait (d : Dev) (i j : Nat) (f : Group → Group) : (d.mapGroup i j f).ioWait = d.ioWait := rfl
@[simp] theorem Dev.mapGroup_ins (d : Dev) (i j : Nat) (f : Group → Group) : (d.mapGroup i j f).ins = d.ins := rfl
@[simp] theorem Dev.mapGroup_remotes (d : Dev) (i j : Nat) (f : Group → Group) : (d.mapGroup i j f).remotes = d.remotes := rfl
@[simp] theorem Dev.mapGroup_endpoint (d : Dev) (i j : Nat) (f : Group → Group) : (d.mapGroup i j f).endpoint = d.endpoint := rfl
@[simp] theorem Dev.mapGroup_firings (d : Dev) (i j : Nat) (f : Group → Group) : (d.mapGroup i j f).firings = d.firings := rfl
@[simp] theorem Dev.mapGroup_hstacks (d : Dev) (i j : Nat) (f : Group → Group) : (d.mapGroup i j f).hstacks = d.hstacks := rfl
@[simp] theorem Dev.mapGroup_rates (d : Dev) (i j : Nat) (f : Group → Group) : (d.mapGroup i j f).rates = d.rates := rfl
@[simp] theorem Dev.mapGroup_late (d : Dev) (i j : Nat) (f : Group → Group) : (d.mapGroup i j f).late = d.late := rfl
@[simp] theorem Dev.mapGroup_owed (d : Dev) (i j : Nat) (f : Group → Group) : (d.mapGroup i j f).owed = d.owed := rfl
@[simp] theorem Dev.mapGroup_lostWrites (d : Dev) (i j : Nat) (f : Group → Group) : (d.mapGroup i j f).lostWrites = d.lostWrites := rfl
@[simp] theorem Dev.mapThread_cur (d : Dev) (r : TRef) (f : Thread → Thread) : (d.mapThread r f).cur = d.cur := rfl
@[simp] theorem Dev.mapThread_cycle (d : Dev) (r : TRef) (f : Thread → Thread) : (d.mapThread r f).cycle = d.cycle := rfl
@[simp] theorem Dev.mapThread_fresh (d : Dev) (r : TRef) (f : Thread → Thread) : (d.mapThread r f).fresh = d.fresh := rfl
@[simp] theorem Dev.mapThread_nextId (d : Dev) (r : TRef) (f : Thread → Thread) : (d.mapThread r f).nextId = d.nextId := rfl
@[simp] theorem Dev.mapThread_notices (d : Dev) (r : TRef) (f : Thread → Thread) : (d.mapThread r f).notices = d.notices := rfl
@[simp] theorem Dev.mapThread_lost (d : Dev) (r : TRef) (f : Thread → Thread) : (d.mapThread r f).lost = d.lost := rfl
@[simp] theorem Dev.mapThread_losses (d : Dev) (r : TRef) (f : Thread → Thread) : (d.mapThread r f).losses = d.losses := rfl
@[simp] theorem Dev.mapThread_hbm (d : Dev) (r : TRef) (f : Thread → Thread) : (d.mapThread r f).hbm = d.hbm := rfl
@[simp] theorem Dev.mapThread_scr (d : Dev) (r : TRef) (f : Thread → Thread) : (d.mapThread r f).scr = d.scr := rfl
@[simp] theorem Dev.mapThread_tmem (d : Dev) (r : TRef) (f : Thread → Thread) : (d.mapThread r f).tmem = d.tmem := rfl
@[simp] theorem Dev.mapThread_tiles (d : Dev) (r : TRef) (f : Thread → Thread) : (d.mapThread r f).tiles = d.tiles := rfl
@[simp] theorem Dev.mapThread_host (d : Dev) (r : TRef) (f : Thread → Thread) : (d.mapThread r f).host = d.host := rfl
@[simp] theorem Dev.mapThread_poison (d : Dev) (r : TRef) (f : Thread → Thread) : (d.mapThread r f).poison = d.poison := rfl
@[simp] theorem Dev.mapThread_tileStat (d : Dev) (r : TRef) (f : Thread → Thread) : (d.mapThread r f).tileStat = d.tileStat := rfl
@[simp] theorem Dev.mapThread_keptTiles (d : Dev) (r : TRef) (f : Thread → Thread) : (d.mapThread r f).keptTiles = d.keptTiles := rfl
@[simp] theorem Dev.mapThread_grids (d : Dev) (r : TRef) (f : Thread → Thread) : (d.mapThread r f).grids = d.grids := rfl
@[simp] theorem Dev.mapThread_racq (d : Dev) (r : TRef) (f : Thread → Thread) : (d.mapThread r f).racq = d.racq := rfl
@[simp] theorem Dev.mapThread_bars (d : Dev) (r : TRef) (f : Thread → Thread) : (d.mapThread r f).bars = d.bars := rfl
@[simp] theorem Dev.mapThread_barWait (d : Dev) (r : TRef) (f : Thread → Thread) : (d.mapThread r f).barWait = d.barWait := rfl
@[simp] theorem Dev.mapThread_results (d : Dev) (r : TRef) (f : Thread → Thread) : (d.mapThread r f).results = d.results := rfl
@[simp] theorem Dev.mapThread_scrWrites (d : Dev) (r : TRef) (f : Thread → Thread) : (d.mapThread r f).scrWrites = d.scrWrites := rfl
@[simp] theorem Dev.mapThread_watch (d : Dev) (r : TRef) (f : Thread → Thread) : (d.mapThread r f).watch = d.watch := rfl
@[simp] theorem Dev.mapThread_sysUse (d : Dev) (r : TRef) (f : Thread → Thread) : (d.mapThread r f).sysUse = d.sysUse := rfl
@[simp] theorem Dev.mapThread_owners (d : Dev) (r : TRef) (f : Thread → Thread) : (d.mapThread r f).owners = d.owners := rfl
@[simp] theorem Dev.mapThread_qops (d : Dev) (r : TRef) (f : Thread → Thread) : (d.mapThread r f).qops = d.qops := rfl
@[simp] theorem Dev.mapThread_qbad (d : Dev) (r : TRef) (f : Thread → Thread) : (d.mapThread r f).qbad = d.qbad := rfl
@[simp] theorem Dev.mapThread_ctxs (d : Dev) (r : TRef) (f : Thread → Thread) : (d.mapThread r f).ctxs = d.ctxs := rfl
@[simp] theorem Dev.mapThread_indir (d : Dev) (r : TRef) (f : Thread → Thread) : (d.mapThread r f).indir = d.indir := rfl
@[simp] theorem Dev.mapThread_counts (d : Dev) (r : TRef) (f : Thread → Thread) : (d.mapThread r f).counts = d.counts := rfl
@[simp] theorem Dev.mapThread_migr (d : Dev) (r : TRef) (f : Thread → Thread) : (d.mapThread r f).migr = d.migr := rfl
@[simp] theorem Dev.mapThread_barred (d : Dev) (r : TRef) (f : Thread → Thread) : (d.mapThread r f).barred = d.barred := rfl
@[simp] theorem Dev.mapThread_tlb (d : Dev) (r : TRef) (f : Thread → Thread) : (d.mapThread r f).tlb = d.tlb := rfl
@[simp] theorem Dev.mapThread_ats (d : Dev) (r : TRef) (f : Thread → Thread) : (d.mapThread r f).ats = d.ats := rfl
@[simp] theorem Dev.mapThread_reqs (d : Dev) (r : TRef) (f : Thread → Thread) : (d.mapThread r f).reqs = d.reqs := rfl
@[simp] theorem Dev.mapThread_acks (d : Dev) (r : TRef) (f : Thread → Thread) : (d.mapThread r f).acks = d.acks := rfl
@[simp] theorem Dev.mapThread_tags (d : Dev) (r : TRef) (f : Thread → Thread) : (d.mapThread r f).tags = d.tags := rfl
@[simp] theorem Dev.mapThread_partials (d : Dev) (r : TRef) (f : Thread → Thread) : (d.mapThread r f).partials = d.partials := rfl
@[simp] theorem Dev.mapThread_shared (d : Dev) (r : TRef) (f : Thread → Thread) : (d.mapThread r f).shared = d.shared := rfl
@[simp] theorem Dev.mapThread_contribs (d : Dev) (r : TRef) (f : Thread → Thread) : (d.mapThread r f).contribs = d.contribs := rfl
@[simp] theorem Dev.mapThread_side (d : Dev) (r : TRef) (f : Thread → Thread) : (d.mapThread r f).side = d.side := rfl
@[simp] theorem Dev.mapThread_faulted (d : Dev) (r : TRef) (f : Thread → Thread) : (d.mapThread r f).faulted = d.faulted := rfl
@[simp] theorem Dev.mapThread_joins (d : Dev) (r : TRef) (f : Thread → Thread) : (d.mapThread r f).joins = d.joins := rfl
@[simp] theorem Dev.mapThread_cards (d : Dev) (r : TRef) (f : Thread → Thread) : (d.mapThread r f).cards = d.cards := rfl
@[simp] theorem Dev.mapThread_rays (d : Dev) (r : TRef) (f : Thread → Thread) : (d.mapThread r f).rays = d.rays := rfl
@[simp] theorem Dev.mapThread_tex (d : Dev) (r : TRef) (f : Thread → Thread) : (d.mapThread r f).tex = d.tex := rfl
@[simp] theorem Dev.mapThread_shc (d : Dev) (r : TRef) (f : Thread → Thread) : (d.mapThread r f).shc = d.shc := rfl
@[simp] theorem Dev.mapThread_shcReqs (d : Dev) (r : TRef) (f : Thread → Thread) : (d.mapThread r f).shcReqs = d.shcReqs := rfl
@[simp] theorem Dev.mapThread_entries (d : Dev) (r : TRef) (f : Thread → Thread) : (d.mapThread r f).entries = d.entries := rfl
@[simp] theorem Dev.mapThread_collReqs (d : Dev) (r : TRef) (f : Thread → Thread) : (d.mapThread r f).collReqs = d.collReqs := rfl
@[simp] theorem Dev.mapThread_queues (d : Dev) (r : TRef) (f : Thread → Thread) : (d.mapThread r f).queues = d.queues := rfl
@[simp] theorem Dev.mapThread_serving (d : Dev) (r : TRef) (f : Thread → Thread) : (d.mapThread r f).serving = d.serving := rfl
@[simp] theorem Dev.mapThread_serveAt (d : Dev) (r : TRef) (f : Thread → Thread) : (d.mapThread r f).serveAt = d.serveAt := rfl
@[simp] theorem Dev.mapThread_ptr (d : Dev) (r : TRef) (f : Thread → Thread) : (d.mapThread r f).ptr = d.ptr := rfl
@[simp] theorem Dev.mapThread_kerf (d : Dev) (r : TRef) (f : Thread → Thread) : (d.mapThread r f).kerf = d.kerf := rfl
@[simp] theorem Dev.mapThread_idle (d : Dev) (r : TRef) (f : Thread → Thread) : (d.mapThread r f).idle = d.idle := rfl
@[simp] theorem Dev.mapThread_periods (d : Dev) (r : TRef) (f : Thread → Thread) : (d.mapThread r f).periods = d.periods := rfl
@[simp] theorem Dev.mapThread_gwr (d : Dev) (r : TRef) (f : Thread → Thread) : (d.mapThread r f).gwr = d.gwr := rfl
@[simp] theorem Dev.mapThread_grd (d : Dev) (r : TRef) (f : Thread → Thread) : (d.mapThread r f).grd = d.grd := rfl
@[simp] theorem Dev.mapThread_gdropped (d : Dev) (r : TRef) (f : Thread → Thread) : (d.mapThread r f).gdropped = d.gdropped := rfl
@[simp] theorem Dev.mapThread_garmed (d : Dev) (r : TRef) (f : Thread → Thread) : (d.mapThread r f).garmed = d.garmed := rfl
@[simp] theorem Dev.mapThread_gvec0 (d : Dev) (r : TRef) (f : Thread → Thread) : (d.mapThread r f).gvec0 = d.gvec0 := rfl
@[simp] theorem Dev.mapThread_gvec1 (d : Dev) (r : TRef) (f : Thread → Thread) : (d.mapThread r f).gvec1 = d.gvec1 := rfl
@[simp] theorem Dev.mapThread_glog (d : Dev) (r : TRef) (f : Thread → Thread) : (d.mapThread r f).glog = d.glog := rfl
@[simp] theorem Dev.mapThread_recSeq (d : Dev) (r : TRef) (f : Thread → Thread) : (d.mapThread r f).recSeq = d.recSeq := rfl
@[simp] theorem Dev.mapThread_secs (d : Dev) (r : TRef) (f : Thread → Thread) : (d.mapThread r f).secs = d.secs := rfl
@[simp] theorem Dev.mapThread_nanos (d : Dev) (r : TRef) (f : Thread → Thread) : (d.mapThread r f).nanos = d.nanos := rfl
@[simp] theorem Dev.mapThread_frac (d : Dev) (r : TRef) (f : Thread → Thread) : (d.mapThread r f).frac = d.frac := rfl
@[simp] theorem Dev.mapThread_slew (d : Dev) (r : TRef) (f : Thread → Thread) : (d.mapThread r f).slew = d.slew := rfl
@[simp] theorem Dev.mapThread_half (d : Dev) (r : TRef) (f : Thread → Thread) : (d.mapThread r f).half = d.half := rfl
@[simp] theorem Dev.mapThread_reference (d : Dev) (r : TRef) (f : Thread → Thread) : (d.mapThread r f).reference = d.reference := rfl
@[simp] theorem Dev.mapThread_ports (d : Dev) (r : TRef) (f : Thread → Thread) : (d.mapThread r f).ports = d.ports := rfl
@[simp] theorem Dev.mapThread_outs (d : Dev) (r : TRef) (f : Thread → Thread) : (d.mapThread r f).outs = d.outs := rfl
@[simp] theorem Dev.mapThread_ioWait (d : Dev) (r : TRef) (f : Thread → Thread) : (d.mapThread r f).ioWait = d.ioWait := rfl
@[simp] theorem Dev.mapThread_ins (d : Dev) (r : TRef) (f : Thread → Thread) : (d.mapThread r f).ins = d.ins := rfl
@[simp] theorem Dev.mapThread_remotes (d : Dev) (r : TRef) (f : Thread → Thread) : (d.mapThread r f).remotes = d.remotes := rfl
@[simp] theorem Dev.mapThread_endpoint (d : Dev) (r : TRef) (f : Thread → Thread) : (d.mapThread r f).endpoint = d.endpoint := rfl
@[simp] theorem Dev.mapThread_firings (d : Dev) (r : TRef) (f : Thread → Thread) : (d.mapThread r f).firings = d.firings := rfl
@[simp] theorem Dev.mapThread_hstacks (d : Dev) (r : TRef) (f : Thread → Thread) : (d.mapThread r f).hstacks = d.hstacks := rfl
@[simp] theorem Dev.mapThread_rates (d : Dev) (r : TRef) (f : Thread → Thread) : (d.mapThread r f).rates = d.rates := rfl
@[simp] theorem Dev.mapThread_late (d : Dev) (r : TRef) (f : Thread → Thread) : (d.mapThread r f).late = d.late := rfl
@[simp] theorem Dev.mapThread_owed (d : Dev) (r : TRef) (f : Thread → Thread) : (d.mapThread r f).owed = d.owed := rfl
@[simp] theorem Dev.mapThread_lostWrites (d : Dev) (r : TRef) (f : Thread → Thread) : (d.mapThread r f).lostWrites = d.lostWrites := rfl
@[simp] theorem Dev.mapGrid_cur (d : Dev) (i : Nat) (f : Grid → Grid) : (d.mapGrid i f).cur = d.cur := rfl
@[simp] theorem Dev.mapGrid_cycle (d : Dev) (i : Nat) (f : Grid → Grid) : (d.mapGrid i f).cycle = d.cycle := rfl
@[simp] theorem Dev.mapGrid_fresh (d : Dev) (i : Nat) (f : Grid → Grid) : (d.mapGrid i f).fresh = d.fresh := rfl
@[simp] theorem Dev.mapGrid_nextId (d : Dev) (i : Nat) (f : Grid → Grid) : (d.mapGrid i f).nextId = d.nextId := rfl
@[simp] theorem Dev.mapGrid_notices (d : Dev) (i : Nat) (f : Grid → Grid) : (d.mapGrid i f).notices = d.notices := rfl
@[simp] theorem Dev.mapGrid_lost (d : Dev) (i : Nat) (f : Grid → Grid) : (d.mapGrid i f).lost = d.lost := rfl
@[simp] theorem Dev.mapGrid_losses (d : Dev) (i : Nat) (f : Grid → Grid) : (d.mapGrid i f).losses = d.losses := rfl
@[simp] theorem Dev.mapGrid_hbm (d : Dev) (i : Nat) (f : Grid → Grid) : (d.mapGrid i f).hbm = d.hbm := rfl
@[simp] theorem Dev.mapGrid_scr (d : Dev) (i : Nat) (f : Grid → Grid) : (d.mapGrid i f).scr = d.scr := rfl
@[simp] theorem Dev.mapGrid_tmem (d : Dev) (i : Nat) (f : Grid → Grid) : (d.mapGrid i f).tmem = d.tmem := rfl
@[simp] theorem Dev.mapGrid_tiles (d : Dev) (i : Nat) (f : Grid → Grid) : (d.mapGrid i f).tiles = d.tiles := rfl
@[simp] theorem Dev.mapGrid_host (d : Dev) (i : Nat) (f : Grid → Grid) : (d.mapGrid i f).host = d.host := rfl
@[simp] theorem Dev.mapGrid_poison (d : Dev) (i : Nat) (f : Grid → Grid) : (d.mapGrid i f).poison = d.poison := rfl
@[simp] theorem Dev.mapGrid_tileStat (d : Dev) (i : Nat) (f : Grid → Grid) : (d.mapGrid i f).tileStat = d.tileStat := rfl
@[simp] theorem Dev.mapGrid_keptTiles (d : Dev) (i : Nat) (f : Grid → Grid) : (d.mapGrid i f).keptTiles = d.keptTiles := rfl
@[simp] theorem Dev.mapGrid_teams (d : Dev) (i : Nat) (f : Grid → Grid) : (d.mapGrid i f).teams = d.teams := rfl
@[simp] theorem Dev.mapGrid_racq (d : Dev) (i : Nat) (f : Grid → Grid) : (d.mapGrid i f).racq = d.racq := rfl
@[simp] theorem Dev.mapGrid_bars (d : Dev) (i : Nat) (f : Grid → Grid) : (d.mapGrid i f).bars = d.bars := rfl
@[simp] theorem Dev.mapGrid_barWait (d : Dev) (i : Nat) (f : Grid → Grid) : (d.mapGrid i f).barWait = d.barWait := rfl
@[simp] theorem Dev.mapGrid_results (d : Dev) (i : Nat) (f : Grid → Grid) : (d.mapGrid i f).results = d.results := rfl
@[simp] theorem Dev.mapGrid_scrWrites (d : Dev) (i : Nat) (f : Grid → Grid) : (d.mapGrid i f).scrWrites = d.scrWrites := rfl
@[simp] theorem Dev.mapGrid_watch (d : Dev) (i : Nat) (f : Grid → Grid) : (d.mapGrid i f).watch = d.watch := rfl
@[simp] theorem Dev.mapGrid_sysUse (d : Dev) (i : Nat) (f : Grid → Grid) : (d.mapGrid i f).sysUse = d.sysUse := rfl
@[simp] theorem Dev.mapGrid_owners (d : Dev) (i : Nat) (f : Grid → Grid) : (d.mapGrid i f).owners = d.owners := rfl
@[simp] theorem Dev.mapGrid_qops (d : Dev) (i : Nat) (f : Grid → Grid) : (d.mapGrid i f).qops = d.qops := rfl
@[simp] theorem Dev.mapGrid_qbad (d : Dev) (i : Nat) (f : Grid → Grid) : (d.mapGrid i f).qbad = d.qbad := rfl
@[simp] theorem Dev.mapGrid_ctxs (d : Dev) (i : Nat) (f : Grid → Grid) : (d.mapGrid i f).ctxs = d.ctxs := rfl
@[simp] theorem Dev.mapGrid_indir (d : Dev) (i : Nat) (f : Grid → Grid) : (d.mapGrid i f).indir = d.indir := rfl
@[simp] theorem Dev.mapGrid_counts (d : Dev) (i : Nat) (f : Grid → Grid) : (d.mapGrid i f).counts = d.counts := rfl
@[simp] theorem Dev.mapGrid_migr (d : Dev) (i : Nat) (f : Grid → Grid) : (d.mapGrid i f).migr = d.migr := rfl
@[simp] theorem Dev.mapGrid_barred (d : Dev) (i : Nat) (f : Grid → Grid) : (d.mapGrid i f).barred = d.barred := rfl
@[simp] theorem Dev.mapGrid_tlb (d : Dev) (i : Nat) (f : Grid → Grid) : (d.mapGrid i f).tlb = d.tlb := rfl
@[simp] theorem Dev.mapGrid_ats (d : Dev) (i : Nat) (f : Grid → Grid) : (d.mapGrid i f).ats = d.ats := rfl
@[simp] theorem Dev.mapGrid_reqs (d : Dev) (i : Nat) (f : Grid → Grid) : (d.mapGrid i f).reqs = d.reqs := rfl
@[simp] theorem Dev.mapGrid_acks (d : Dev) (i : Nat) (f : Grid → Grid) : (d.mapGrid i f).acks = d.acks := rfl
@[simp] theorem Dev.mapGrid_tags (d : Dev) (i : Nat) (f : Grid → Grid) : (d.mapGrid i f).tags = d.tags := rfl
@[simp] theorem Dev.mapGrid_partials (d : Dev) (i : Nat) (f : Grid → Grid) : (d.mapGrid i f).partials = d.partials := rfl
@[simp] theorem Dev.mapGrid_shared (d : Dev) (i : Nat) (f : Grid → Grid) : (d.mapGrid i f).shared = d.shared := rfl
@[simp] theorem Dev.mapGrid_contribs (d : Dev) (i : Nat) (f : Grid → Grid) : (d.mapGrid i f).contribs = d.contribs := rfl
@[simp] theorem Dev.mapGrid_side (d : Dev) (i : Nat) (f : Grid → Grid) : (d.mapGrid i f).side = d.side := rfl
@[simp] theorem Dev.mapGrid_faulted (d : Dev) (i : Nat) (f : Grid → Grid) : (d.mapGrid i f).faulted = d.faulted := rfl
@[simp] theorem Dev.mapGrid_joins (d : Dev) (i : Nat) (f : Grid → Grid) : (d.mapGrid i f).joins = d.joins := rfl
@[simp] theorem Dev.mapGrid_cards (d : Dev) (i : Nat) (f : Grid → Grid) : (d.mapGrid i f).cards = d.cards := rfl
@[simp] theorem Dev.mapGrid_rays (d : Dev) (i : Nat) (f : Grid → Grid) : (d.mapGrid i f).rays = d.rays := rfl
@[simp] theorem Dev.mapGrid_tex (d : Dev) (i : Nat) (f : Grid → Grid) : (d.mapGrid i f).tex = d.tex := rfl
@[simp] theorem Dev.mapGrid_shc (d : Dev) (i : Nat) (f : Grid → Grid) : (d.mapGrid i f).shc = d.shc := rfl
@[simp] theorem Dev.mapGrid_shcReqs (d : Dev) (i : Nat) (f : Grid → Grid) : (d.mapGrid i f).shcReqs = d.shcReqs := rfl
@[simp] theorem Dev.mapGrid_entries (d : Dev) (i : Nat) (f : Grid → Grid) : (d.mapGrid i f).entries = d.entries := rfl
@[simp] theorem Dev.mapGrid_collReqs (d : Dev) (i : Nat) (f : Grid → Grid) : (d.mapGrid i f).collReqs = d.collReqs := rfl
@[simp] theorem Dev.mapGrid_queues (d : Dev) (i : Nat) (f : Grid → Grid) : (d.mapGrid i f).queues = d.queues := rfl
@[simp] theorem Dev.mapGrid_serving (d : Dev) (i : Nat) (f : Grid → Grid) : (d.mapGrid i f).serving = d.serving := rfl
@[simp] theorem Dev.mapGrid_serveAt (d : Dev) (i : Nat) (f : Grid → Grid) : (d.mapGrid i f).serveAt = d.serveAt := rfl
@[simp] theorem Dev.mapGrid_ptr (d : Dev) (i : Nat) (f : Grid → Grid) : (d.mapGrid i f).ptr = d.ptr := rfl
@[simp] theorem Dev.mapGrid_kerf (d : Dev) (i : Nat) (f : Grid → Grid) : (d.mapGrid i f).kerf = d.kerf := rfl
@[simp] theorem Dev.mapGrid_idle (d : Dev) (i : Nat) (f : Grid → Grid) : (d.mapGrid i f).idle = d.idle := rfl
@[simp] theorem Dev.mapGrid_periods (d : Dev) (i : Nat) (f : Grid → Grid) : (d.mapGrid i f).periods = d.periods := rfl
@[simp] theorem Dev.mapGrid_gwr (d : Dev) (i : Nat) (f : Grid → Grid) : (d.mapGrid i f).gwr = d.gwr := rfl
@[simp] theorem Dev.mapGrid_grd (d : Dev) (i : Nat) (f : Grid → Grid) : (d.mapGrid i f).grd = d.grd := rfl
@[simp] theorem Dev.mapGrid_gdropped (d : Dev) (i : Nat) (f : Grid → Grid) : (d.mapGrid i f).gdropped = d.gdropped := rfl
@[simp] theorem Dev.mapGrid_garmed (d : Dev) (i : Nat) (f : Grid → Grid) : (d.mapGrid i f).garmed = d.garmed := rfl
@[simp] theorem Dev.mapGrid_gvec0 (d : Dev) (i : Nat) (f : Grid → Grid) : (d.mapGrid i f).gvec0 = d.gvec0 := rfl
@[simp] theorem Dev.mapGrid_gvec1 (d : Dev) (i : Nat) (f : Grid → Grid) : (d.mapGrid i f).gvec1 = d.gvec1 := rfl
@[simp] theorem Dev.mapGrid_glog (d : Dev) (i : Nat) (f : Grid → Grid) : (d.mapGrid i f).glog = d.glog := rfl
@[simp] theorem Dev.mapGrid_recSeq (d : Dev) (i : Nat) (f : Grid → Grid) : (d.mapGrid i f).recSeq = d.recSeq := rfl
@[simp] theorem Dev.mapGrid_secs (d : Dev) (i : Nat) (f : Grid → Grid) : (d.mapGrid i f).secs = d.secs := rfl
@[simp] theorem Dev.mapGrid_nanos (d : Dev) (i : Nat) (f : Grid → Grid) : (d.mapGrid i f).nanos = d.nanos := rfl
@[simp] theorem Dev.mapGrid_frac (d : Dev) (i : Nat) (f : Grid → Grid) : (d.mapGrid i f).frac = d.frac := rfl
@[simp] theorem Dev.mapGrid_slew (d : Dev) (i : Nat) (f : Grid → Grid) : (d.mapGrid i f).slew = d.slew := rfl
@[simp] theorem Dev.mapGrid_half (d : Dev) (i : Nat) (f : Grid → Grid) : (d.mapGrid i f).half = d.half := rfl
@[simp] theorem Dev.mapGrid_reference (d : Dev) (i : Nat) (f : Grid → Grid) : (d.mapGrid i f).reference = d.reference := rfl
@[simp] theorem Dev.mapGrid_ports (d : Dev) (i : Nat) (f : Grid → Grid) : (d.mapGrid i f).ports = d.ports := rfl
@[simp] theorem Dev.mapGrid_outs (d : Dev) (i : Nat) (f : Grid → Grid) : (d.mapGrid i f).outs = d.outs := rfl
@[simp] theorem Dev.mapGrid_ioWait (d : Dev) (i : Nat) (f : Grid → Grid) : (d.mapGrid i f).ioWait = d.ioWait := rfl
@[simp] theorem Dev.mapGrid_ins (d : Dev) (i : Nat) (f : Grid → Grid) : (d.mapGrid i f).ins = d.ins := rfl
@[simp] theorem Dev.mapGrid_remotes (d : Dev) (i : Nat) (f : Grid → Grid) : (d.mapGrid i f).remotes = d.remotes := rfl
@[simp] theorem Dev.mapGrid_endpoint (d : Dev) (i : Nat) (f : Grid → Grid) : (d.mapGrid i f).endpoint = d.endpoint := rfl
@[simp] theorem Dev.mapGrid_firings (d : Dev) (i : Nat) (f : Grid → Grid) : (d.mapGrid i f).firings = d.firings := rfl
@[simp] theorem Dev.mapGrid_hstacks (d : Dev) (i : Nat) (f : Grid → Grid) : (d.mapGrid i f).hstacks = d.hstacks := rfl
@[simp] theorem Dev.mapGrid_rates (d : Dev) (i : Nat) (f : Grid → Grid) : (d.mapGrid i f).rates = d.rates := rfl
@[simp] theorem Dev.mapGrid_late (d : Dev) (i : Nat) (f : Grid → Grid) : (d.mapGrid i f).late = d.late := rfl
@[simp] theorem Dev.mapGrid_owed (d : Dev) (i : Nat) (f : Grid → Grid) : (d.mapGrid i f).owed = d.owed := rfl
@[simp] theorem Dev.mapGrid_lostWrites (d : Dev) (i : Nat) (f : Grid → Grid) : (d.mapGrid i f).lostWrites = d.lostWrites := rfl
@[simp] theorem Team.mapGroup_id (t : Team) (i : Nat) (f : Group → Group) : (t.mapGroup i f).id = t.id := rfl
@[simp] theorem Team.mapGroup_ctx (t : Team) (i : Nat) (f : Group → Group) : (t.mapGroup i f).ctx = t.ctx := rfl
@[simp] theorem Team.mapGroup_grid (t : Team) (i : Nat) (f : Group → Group) : (t.mapGroup i f).grid = t.grid := rfl
@[simp] theorem Team.mapGroup_tx (t : Team) (i : Nat) (f : Group → Group) : (t.mapGroup i f).tx = t.tx := rfl
@[simp] theorem Team.mapGroup_ty (t : Team) (i : Nat) (f : Group → Group) : (t.mapGroup i f).ty = t.ty := rfl
@[simp] theorem Team.mapGroup_tz (t : Team) (i : Nat) (f : Group → Group) : (t.mapGroup i f).tz = t.tz := rfl
@[simp] theorem Team.mapGroup_core (t : Team) (i : Nat) (f : Group → Group) : (t.mapGroup i f).core = t.core := rfl
@[simp] theorem Team.mapGroup_kernel (t : Team) (i : Nat) (f : Group → Group) : (t.mapGroup i f).kernel = t.kernel := rfl
@[simp] theorem Team.mapGroup_stat (t : Team) (i : Nat) (f : Group → Group) : (t.mapGroup i f).stat = t.stat := rfl
@[simp] theorem Team.mapGroup_order (t : Team) (i : Nat) (f : Group → Group) : (t.mapGroup i f).order = t.order := rfl
@[simp] theorem Team.mapGroup_tmBase (t : Team) (i : Nat) (f : Group → Group) : (t.mapGroup i f).tmBase = t.tmBase := rfl
@[simp] theorem Team.mapGroup_tmBase2 (t : Team) (i : Nat) (f : Group → Group) : (t.mapGroup i f).tmBase2 = t.tmBase2 := rfl
@[simp] theorem Team.mapGroup_stkBase (t : Team) (i : Nat) (f : Group → Group) : (t.mapGroup i f).stkBase = t.stkBase := rfl
@[simp] theorem Team.mapGroup_ovfBase (t : Team) (i : Nat) (f : Group → Group) : (t.mapGroup i f).ovfBase = t.ovfBase := rfl
@[simp] theorem Team.mapGroup_tiles (t : Team) (i : Nat) (f : Group → Group) : (t.mapGroup i f).tiles = t.tiles := rfl
@[simp] theorem Team.mapGroup_bars (t : Team) (i : Nat) (f : Group → Group) : (t.mapGroup i f).bars = t.bars := rfl
@[simp] theorem Team.mapGroup_gather (t : Team) (i : Nat) (f : Group → Group) : (t.mapGroup i f).gather = t.gather := rfl
@[simp] theorem Team.mapGroup_waits (t : Team) (i : Nat) (f : Group → Group) : (t.mapGroup i f).waits = t.waits := rfl
@[simp] theorem Team.mapGroup_savedAt (t : Team) (i : Nat) (f : Group → Group) : (t.mapGroup i f).savedAt = t.savedAt := rfl
@[simp] theorem Team.mapGroup_save (t : Team) (i : Nat) (f : Group → Group) : (t.mapGroup i f).save = t.save := rfl
@[simp] theorem Team.mapGroup_staged (t : Team) (i : Nat) (f : Group → Group) : (t.mapGroup i f).staged = t.staged := rfl
@[simp] theorem Team.mapGroup_held (t : Team) (i : Nat) (f : Group → Group) : (t.mapGroup i f).held = t.held := rfl
@[simp] theorem Team.mapGroup_kept (t : Team) (i : Nat) (f : Group → Group) : (t.mapGroup i f).kept = t.kept := rfl
@[simp] theorem Team.mapGroup_keptStat (t : Team) (i : Nat) (f : Group → Group) : (t.mapGroup i f).keptStat = t.keptStat := rfl
@[simp] theorem Group.mapThread_gid (g : Group) (i : Nat) (f : Thread → Thread) : (g.mapThread i f).gid = g.gid := rfl
@[simp] theorem Group.mapThread_core (g : Group) (i : Nat) (f : Thread → Thread) : (g.mapThread i f).core = g.core := rfl
@[simp] theorem Group.mapThread_gslot (g : Group) (i : Nat) (f : Thread → Thread) : (g.mapThread i f).gslot = g.gslot := rfl
@[simp] theorem Group.mapThread_units (g : Group) (i : Nat) (f : Thread → Thread) : (g.mapThread i f).units = g.units := rfl
@[simp] theorem Group.mapThread_y (g : Group) (i : Nat) (f : Thread → Thread) : (g.mapThread i f).y = g.y := rfl
@[simp] theorem Group.mapThread_h (g : Group) (i : Nat) (f : Thread → Thread) : (g.mapThread i f).h = g.h := rfl
@[simp] theorem Group.mapThread_hfin (g : Group) (i : Nat) (f : Thread → Thread) : (g.mapThread i f).hfin = g.hfin := rfl
@[simp] theorem Group.mapThread_lambda (g : Group) (i : Nat) (f : Thread → Thread) : (g.mapThread i f).lambda = g.lambda := rfl
@[simp] theorem Group.mapThread_seq (g : Group) (i : Nat) (f : Thread → Thread) : (g.mapThread i f).seq = g.seq := rfl
@[simp] theorem Group.mapThread_active (g : Group) (i : Nat) (f : Thread → Thread) : (g.mapThread i f).active = g.active := rfl
@[simp] theorem Group.mapThread_laneNo (g : Group) (i : Nat) (f : Thread → Thread) : (g.mapThread i f).laneNo = g.laneNo := rfl
@[simp] theorem Group.mapThread_runs (g : Group) (i : Nat) (f : Thread → Thread) : (g.mapThread i f).runs = g.runs := rfl
@[simp] theorem Group.mapThread_since (g : Group) (i : Nat) (f : Thread → Thread) : (g.mapThread i f).since = g.since := rfl
@[simp] theorem Group.mapThread_relief (g : Group) (i : Nat) (f : Thread → Thread) : (g.mapThread i f).relief = g.relief := rfl
@[simp] theorem Group.mapThread_reliefPc (g : Group) (i : Nat) (f : Thread → Thread) : (g.mapThread i f).reliefPc = g.reliefPc := rfl
@[simp] theorem Group.mapThread_cut (g : Group) (i : Nat) (f : Thread → Thread) : (g.mapThread i f).cut = g.cut := rfl
@[simp] theorem Group.mapThread_block (g : Group) (i : Nat) (f : Thread → Thread) : (g.mapThread i f).block = g.block := rfl
@[simp] theorem Group.mapThread_fetchWait (g : Group) (i : Nat) (f : Thread → Thread) : (g.mapThread i f).fetchWait = g.fetchWait := rfl
@[simp] theorem Group.mapThread_pendInd (g : Group) (i : Nat) (f : Thread → Thread) : (g.mapThread i f).pendInd = g.pendInd := rfl
@[simp] theorem Group.mapThread_lastPost (g : Group) (i : Nat) (f : Thread → Thread) : (g.mapThread i f).lastPost = g.lastPost := rfl
@[simp] theorem Group.mapThread_ended (g : Group) (i : Nat) (f : Thread → Thread) : (g.mapThread i f).ended = g.ended := rfl

/-! ## A queue, a Joiner, a die, a name -/

@[simp] theorem Dev.setQueue_cur (d : Dev) (q : Nat) (v : Queue) : (d.setQueue q v).cur = d.cur := rfl
@[simp] theorem Dev.setQueue_cycle (d : Dev) (q : Nat) (v : Queue) : (d.setQueue q v).cycle = d.cycle := rfl
@[simp] theorem Dev.setQueue_fresh (d : Dev) (q : Nat) (v : Queue) : (d.setQueue q v).fresh = d.fresh := rfl
@[simp] theorem Dev.setQueue_nextId (d : Dev) (q : Nat) (v : Queue) : (d.setQueue q v).nextId = d.nextId := rfl
@[simp] theorem Dev.setQueue_notices (d : Dev) (q : Nat) (v : Queue) : (d.setQueue q v).notices = d.notices := rfl
@[simp] theorem Dev.setQueue_lost (d : Dev) (q : Nat) (v : Queue) : (d.setQueue q v).lost = d.lost := rfl
@[simp] theorem Dev.setQueue_losses (d : Dev) (q : Nat) (v : Queue) : (d.setQueue q v).losses = d.losses := rfl
@[simp] theorem Dev.setQueue_hbm (d : Dev) (q : Nat) (v : Queue) : (d.setQueue q v).hbm = d.hbm := rfl
@[simp] theorem Dev.setQueue_scr (d : Dev) (q : Nat) (v : Queue) : (d.setQueue q v).scr = d.scr := rfl
@[simp] theorem Dev.setQueue_tmem (d : Dev) (q : Nat) (v : Queue) : (d.setQueue q v).tmem = d.tmem := rfl
@[simp] theorem Dev.setQueue_tiles (d : Dev) (q : Nat) (v : Queue) : (d.setQueue q v).tiles = d.tiles := rfl
@[simp] theorem Dev.setQueue_host (d : Dev) (q : Nat) (v : Queue) : (d.setQueue q v).host = d.host := rfl
@[simp] theorem Dev.setQueue_poison (d : Dev) (q : Nat) (v : Queue) : (d.setQueue q v).poison = d.poison := rfl
@[simp] theorem Dev.setQueue_tileStat (d : Dev) (q : Nat) (v : Queue) : (d.setQueue q v).tileStat = d.tileStat := rfl
@[simp] theorem Dev.setQueue_keptTiles (d : Dev) (q : Nat) (v : Queue) : (d.setQueue q v).keptTiles = d.keptTiles := rfl
@[simp] theorem Dev.setQueue_teams (d : Dev) (q : Nat) (v : Queue) : (d.setQueue q v).teams = d.teams := rfl
@[simp] theorem Dev.setQueue_grids (d : Dev) (q : Nat) (v : Queue) : (d.setQueue q v).grids = d.grids := rfl
@[simp] theorem Dev.setQueue_racq (d : Dev) (q : Nat) (v : Queue) : (d.setQueue q v).racq = d.racq := rfl
@[simp] theorem Dev.setQueue_bars (d : Dev) (q : Nat) (v : Queue) : (d.setQueue q v).bars = d.bars := rfl
@[simp] theorem Dev.setQueue_barWait (d : Dev) (q : Nat) (v : Queue) : (d.setQueue q v).barWait = d.barWait := rfl
@[simp] theorem Dev.setQueue_results (d : Dev) (q : Nat) (v : Queue) : (d.setQueue q v).results = d.results := rfl
@[simp] theorem Dev.setQueue_scrWrites (d : Dev) (q : Nat) (v : Queue) : (d.setQueue q v).scrWrites = d.scrWrites := rfl
@[simp] theorem Dev.setQueue_watch (d : Dev) (q : Nat) (v : Queue) : (d.setQueue q v).watch = d.watch := rfl
@[simp] theorem Dev.setQueue_sysUse (d : Dev) (q : Nat) (v : Queue) : (d.setQueue q v).sysUse = d.sysUse := rfl
@[simp] theorem Dev.setQueue_owners (d : Dev) (q : Nat) (v : Queue) : (d.setQueue q v).owners = d.owners := rfl
@[simp] theorem Dev.setQueue_qops (d : Dev) (q : Nat) (v : Queue) : (d.setQueue q v).qops = d.qops := rfl
@[simp] theorem Dev.setQueue_qbad (d : Dev) (q : Nat) (v : Queue) : (d.setQueue q v).qbad = d.qbad := rfl
@[simp] theorem Dev.setQueue_ctxs (d : Dev) (q : Nat) (v : Queue) : (d.setQueue q v).ctxs = d.ctxs := rfl
@[simp] theorem Dev.setQueue_indir (d : Dev) (q : Nat) (v : Queue) : (d.setQueue q v).indir = d.indir := rfl
@[simp] theorem Dev.setQueue_counts (d : Dev) (q : Nat) (v : Queue) : (d.setQueue q v).counts = d.counts := rfl
@[simp] theorem Dev.setQueue_migr (d : Dev) (q : Nat) (v : Queue) : (d.setQueue q v).migr = d.migr := rfl
@[simp] theorem Dev.setQueue_barred (d : Dev) (q : Nat) (v : Queue) : (d.setQueue q v).barred = d.barred := rfl
@[simp] theorem Dev.setQueue_tlb (d : Dev) (q : Nat) (v : Queue) : (d.setQueue q v).tlb = d.tlb := rfl
@[simp] theorem Dev.setQueue_ats (d : Dev) (q : Nat) (v : Queue) : (d.setQueue q v).ats = d.ats := rfl
@[simp] theorem Dev.setQueue_reqs (d : Dev) (q : Nat) (v : Queue) : (d.setQueue q v).reqs = d.reqs := rfl
@[simp] theorem Dev.setQueue_acks (d : Dev) (q : Nat) (v : Queue) : (d.setQueue q v).acks = d.acks := rfl
@[simp] theorem Dev.setQueue_tags (d : Dev) (q : Nat) (v : Queue) : (d.setQueue q v).tags = d.tags := rfl
@[simp] theorem Dev.setQueue_partials (d : Dev) (q : Nat) (v : Queue) : (d.setQueue q v).partials = d.partials := rfl
@[simp] theorem Dev.setQueue_shared (d : Dev) (q : Nat) (v : Queue) : (d.setQueue q v).shared = d.shared := rfl
@[simp] theorem Dev.setQueue_contribs (d : Dev) (q : Nat) (v : Queue) : (d.setQueue q v).contribs = d.contribs := rfl
@[simp] theorem Dev.setQueue_side (d : Dev) (q : Nat) (v : Queue) : (d.setQueue q v).side = d.side := rfl
@[simp] theorem Dev.setQueue_faulted (d : Dev) (q : Nat) (v : Queue) : (d.setQueue q v).faulted = d.faulted := rfl
@[simp] theorem Dev.setQueue_joins (d : Dev) (q : Nat) (v : Queue) : (d.setQueue q v).joins = d.joins := rfl
@[simp] theorem Dev.setQueue_cards (d : Dev) (q : Nat) (v : Queue) : (d.setQueue q v).cards = d.cards := rfl
@[simp] theorem Dev.setQueue_rays (d : Dev) (q : Nat) (v : Queue) : (d.setQueue q v).rays = d.rays := rfl
@[simp] theorem Dev.setQueue_tex (d : Dev) (q : Nat) (v : Queue) : (d.setQueue q v).tex = d.tex := rfl
@[simp] theorem Dev.setQueue_shc (d : Dev) (q : Nat) (v : Queue) : (d.setQueue q v).shc = d.shc := rfl
@[simp] theorem Dev.setQueue_shcReqs (d : Dev) (q : Nat) (v : Queue) : (d.setQueue q v).shcReqs = d.shcReqs := rfl
@[simp] theorem Dev.setQueue_entries (d : Dev) (q : Nat) (v : Queue) : (d.setQueue q v).entries = d.entries := rfl
@[simp] theorem Dev.setQueue_collReqs (d : Dev) (q : Nat) (v : Queue) : (d.setQueue q v).collReqs = d.collReqs := rfl
@[simp] theorem Dev.setQueue_serving (d : Dev) (q : Nat) (v : Queue) : (d.setQueue q v).serving = d.serving := rfl
@[simp] theorem Dev.setQueue_serveAt (d : Dev) (q : Nat) (v : Queue) : (d.setQueue q v).serveAt = d.serveAt := rfl
@[simp] theorem Dev.setQueue_ptr (d : Dev) (q : Nat) (v : Queue) : (d.setQueue q v).ptr = d.ptr := rfl
@[simp] theorem Dev.setQueue_kerf (d : Dev) (q : Nat) (v : Queue) : (d.setQueue q v).kerf = d.kerf := rfl
@[simp] theorem Dev.setQueue_idle (d : Dev) (q : Nat) (v : Queue) : (d.setQueue q v).idle = d.idle := rfl
@[simp] theorem Dev.setQueue_periods (d : Dev) (q : Nat) (v : Queue) : (d.setQueue q v).periods = d.periods := rfl
@[simp] theorem Dev.setQueue_gwr (d : Dev) (q : Nat) (v : Queue) : (d.setQueue q v).gwr = d.gwr := rfl
@[simp] theorem Dev.setQueue_grd (d : Dev) (q : Nat) (v : Queue) : (d.setQueue q v).grd = d.grd := rfl
@[simp] theorem Dev.setQueue_gdropped (d : Dev) (q : Nat) (v : Queue) : (d.setQueue q v).gdropped = d.gdropped := rfl
@[simp] theorem Dev.setQueue_garmed (d : Dev) (q : Nat) (v : Queue) : (d.setQueue q v).garmed = d.garmed := rfl
@[simp] theorem Dev.setQueue_gvec0 (d : Dev) (q : Nat) (v : Queue) : (d.setQueue q v).gvec0 = d.gvec0 := rfl
@[simp] theorem Dev.setQueue_gvec1 (d : Dev) (q : Nat) (v : Queue) : (d.setQueue q v).gvec1 = d.gvec1 := rfl
@[simp] theorem Dev.setQueue_glog (d : Dev) (q : Nat) (v : Queue) : (d.setQueue q v).glog = d.glog := rfl
@[simp] theorem Dev.setQueue_recSeq (d : Dev) (q : Nat) (v : Queue) : (d.setQueue q v).recSeq = d.recSeq := rfl
@[simp] theorem Dev.setQueue_secs (d : Dev) (q : Nat) (v : Queue) : (d.setQueue q v).secs = d.secs := rfl
@[simp] theorem Dev.setQueue_nanos (d : Dev) (q : Nat) (v : Queue) : (d.setQueue q v).nanos = d.nanos := rfl
@[simp] theorem Dev.setQueue_frac (d : Dev) (q : Nat) (v : Queue) : (d.setQueue q v).frac = d.frac := rfl
@[simp] theorem Dev.setQueue_slew (d : Dev) (q : Nat) (v : Queue) : (d.setQueue q v).slew = d.slew := rfl
@[simp] theorem Dev.setQueue_half (d : Dev) (q : Nat) (v : Queue) : (d.setQueue q v).half = d.half := rfl
@[simp] theorem Dev.setQueue_reference (d : Dev) (q : Nat) (v : Queue) : (d.setQueue q v).reference = d.reference := rfl
@[simp] theorem Dev.setQueue_ports (d : Dev) (q : Nat) (v : Queue) : (d.setQueue q v).ports = d.ports := rfl
@[simp] theorem Dev.setQueue_outs (d : Dev) (q : Nat) (v : Queue) : (d.setQueue q v).outs = d.outs := rfl
@[simp] theorem Dev.setQueue_ioWait (d : Dev) (q : Nat) (v : Queue) : (d.setQueue q v).ioWait = d.ioWait := rfl
@[simp] theorem Dev.setQueue_ins (d : Dev) (q : Nat) (v : Queue) : (d.setQueue q v).ins = d.ins := rfl
@[simp] theorem Dev.setQueue_remotes (d : Dev) (q : Nat) (v : Queue) : (d.setQueue q v).remotes = d.remotes := rfl
@[simp] theorem Dev.setQueue_endpoint (d : Dev) (q : Nat) (v : Queue) : (d.setQueue q v).endpoint = d.endpoint := rfl
@[simp] theorem Dev.setQueue_firings (d : Dev) (q : Nat) (v : Queue) : (d.setQueue q v).firings = d.firings := rfl
@[simp] theorem Dev.setQueue_hstacks (d : Dev) (q : Nat) (v : Queue) : (d.setQueue q v).hstacks = d.hstacks := rfl
@[simp] theorem Dev.setQueue_rates (d : Dev) (q : Nat) (v : Queue) : (d.setQueue q v).rates = d.rates := rfl
@[simp] theorem Dev.setQueue_late (d : Dev) (q : Nat) (v : Queue) : (d.setQueue q v).late = d.late := rfl
@[simp] theorem Dev.setQueue_owed (d : Dev) (q : Nat) (v : Queue) : (d.setQueue q v).owed = d.owed := rfl
@[simp] theorem Dev.setQueue_lostWrites (d : Dev) (q : Nat) (v : Queue) : (d.setQueue q v).lostWrites = d.lostWrites := rfl
@[simp] theorem Dev.setJoin_cur (d : Dev) (c : Nat) (j : Join) : (d.setJoin c j).cur = d.cur := rfl
@[simp] theorem Dev.setJoin_cycle (d : Dev) (c : Nat) (j : Join) : (d.setJoin c j).cycle = d.cycle := rfl
@[simp] theorem Dev.setJoin_fresh (d : Dev) (c : Nat) (j : Join) : (d.setJoin c j).fresh = d.fresh := rfl
@[simp] theorem Dev.setJoin_nextId (d : Dev) (c : Nat) (j : Join) : (d.setJoin c j).nextId = d.nextId := rfl
@[simp] theorem Dev.setJoin_notices (d : Dev) (c : Nat) (j : Join) : (d.setJoin c j).notices = d.notices := rfl
@[simp] theorem Dev.setJoin_lost (d : Dev) (c : Nat) (j : Join) : (d.setJoin c j).lost = d.lost := rfl
@[simp] theorem Dev.setJoin_losses (d : Dev) (c : Nat) (j : Join) : (d.setJoin c j).losses = d.losses := rfl
@[simp] theorem Dev.setJoin_hbm (d : Dev) (c : Nat) (j : Join) : (d.setJoin c j).hbm = d.hbm := rfl
@[simp] theorem Dev.setJoin_scr (d : Dev) (c : Nat) (j : Join) : (d.setJoin c j).scr = d.scr := rfl
@[simp] theorem Dev.setJoin_tmem (d : Dev) (c : Nat) (j : Join) : (d.setJoin c j).tmem = d.tmem := rfl
@[simp] theorem Dev.setJoin_tiles (d : Dev) (c : Nat) (j : Join) : (d.setJoin c j).tiles = d.tiles := rfl
@[simp] theorem Dev.setJoin_host (d : Dev) (c : Nat) (j : Join) : (d.setJoin c j).host = d.host := rfl
@[simp] theorem Dev.setJoin_poison (d : Dev) (c : Nat) (j : Join) : (d.setJoin c j).poison = d.poison := rfl
@[simp] theorem Dev.setJoin_tileStat (d : Dev) (c : Nat) (j : Join) : (d.setJoin c j).tileStat = d.tileStat := rfl
@[simp] theorem Dev.setJoin_keptTiles (d : Dev) (c : Nat) (j : Join) : (d.setJoin c j).keptTiles = d.keptTiles := rfl
@[simp] theorem Dev.setJoin_teams (d : Dev) (c : Nat) (j : Join) : (d.setJoin c j).teams = d.teams := rfl
@[simp] theorem Dev.setJoin_grids (d : Dev) (c : Nat) (j : Join) : (d.setJoin c j).grids = d.grids := rfl
@[simp] theorem Dev.setJoin_racq (d : Dev) (c : Nat) (j : Join) : (d.setJoin c j).racq = d.racq := rfl
@[simp] theorem Dev.setJoin_bars (d : Dev) (c : Nat) (j : Join) : (d.setJoin c j).bars = d.bars := rfl
@[simp] theorem Dev.setJoin_barWait (d : Dev) (c : Nat) (j : Join) : (d.setJoin c j).barWait = d.barWait := rfl
@[simp] theorem Dev.setJoin_results (d : Dev) (c : Nat) (j : Join) : (d.setJoin c j).results = d.results := rfl
@[simp] theorem Dev.setJoin_scrWrites (d : Dev) (c : Nat) (j : Join) : (d.setJoin c j).scrWrites = d.scrWrites := rfl
@[simp] theorem Dev.setJoin_watch (d : Dev) (c : Nat) (j : Join) : (d.setJoin c j).watch = d.watch := rfl
@[simp] theorem Dev.setJoin_sysUse (d : Dev) (c : Nat) (j : Join) : (d.setJoin c j).sysUse = d.sysUse := rfl
@[simp] theorem Dev.setJoin_owners (d : Dev) (c : Nat) (j : Join) : (d.setJoin c j).owners = d.owners := rfl
@[simp] theorem Dev.setJoin_qops (d : Dev) (c : Nat) (j : Join) : (d.setJoin c j).qops = d.qops := rfl
@[simp] theorem Dev.setJoin_qbad (d : Dev) (c : Nat) (j : Join) : (d.setJoin c j).qbad = d.qbad := rfl
@[simp] theorem Dev.setJoin_ctxs (d : Dev) (c : Nat) (j : Join) : (d.setJoin c j).ctxs = d.ctxs := rfl
@[simp] theorem Dev.setJoin_indir (d : Dev) (c : Nat) (j : Join) : (d.setJoin c j).indir = d.indir := rfl
@[simp] theorem Dev.setJoin_counts (d : Dev) (c : Nat) (j : Join) : (d.setJoin c j).counts = d.counts := rfl
@[simp] theorem Dev.setJoin_migr (d : Dev) (c : Nat) (j : Join) : (d.setJoin c j).migr = d.migr := rfl
@[simp] theorem Dev.setJoin_barred (d : Dev) (c : Nat) (j : Join) : (d.setJoin c j).barred = d.barred := rfl
@[simp] theorem Dev.setJoin_tlb (d : Dev) (c : Nat) (j : Join) : (d.setJoin c j).tlb = d.tlb := rfl
@[simp] theorem Dev.setJoin_ats (d : Dev) (c : Nat) (j : Join) : (d.setJoin c j).ats = d.ats := rfl
@[simp] theorem Dev.setJoin_reqs (d : Dev) (c : Nat) (j : Join) : (d.setJoin c j).reqs = d.reqs := rfl
@[simp] theorem Dev.setJoin_acks (d : Dev) (c : Nat) (j : Join) : (d.setJoin c j).acks = d.acks := rfl
@[simp] theorem Dev.setJoin_tags (d : Dev) (c : Nat) (j : Join) : (d.setJoin c j).tags = d.tags := rfl
@[simp] theorem Dev.setJoin_partials (d : Dev) (c : Nat) (j : Join) : (d.setJoin c j).partials = d.partials := rfl
@[simp] theorem Dev.setJoin_shared (d : Dev) (c : Nat) (j : Join) : (d.setJoin c j).shared = d.shared := rfl
@[simp] theorem Dev.setJoin_contribs (d : Dev) (c : Nat) (j : Join) : (d.setJoin c j).contribs = d.contribs := rfl
@[simp] theorem Dev.setJoin_side (d : Dev) (c : Nat) (j : Join) : (d.setJoin c j).side = d.side := rfl
@[simp] theorem Dev.setJoin_faulted (d : Dev) (c : Nat) (j : Join) : (d.setJoin c j).faulted = d.faulted := rfl
@[simp] theorem Dev.setJoin_cards (d : Dev) (c : Nat) (j : Join) : (d.setJoin c j).cards = d.cards := rfl
@[simp] theorem Dev.setJoin_rays (d : Dev) (c : Nat) (j : Join) : (d.setJoin c j).rays = d.rays := rfl
@[simp] theorem Dev.setJoin_tex (d : Dev) (c : Nat) (j : Join) : (d.setJoin c j).tex = d.tex := rfl
@[simp] theorem Dev.setJoin_shc (d : Dev) (c : Nat) (j : Join) : (d.setJoin c j).shc = d.shc := rfl
@[simp] theorem Dev.setJoin_shcReqs (d : Dev) (c : Nat) (j : Join) : (d.setJoin c j).shcReqs = d.shcReqs := rfl
@[simp] theorem Dev.setJoin_entries (d : Dev) (c : Nat) (j : Join) : (d.setJoin c j).entries = d.entries := rfl
@[simp] theorem Dev.setJoin_collReqs (d : Dev) (c : Nat) (j : Join) : (d.setJoin c j).collReqs = d.collReqs := rfl
@[simp] theorem Dev.setJoin_queues (d : Dev) (c : Nat) (j : Join) : (d.setJoin c j).queues = d.queues := rfl
@[simp] theorem Dev.setJoin_serving (d : Dev) (c : Nat) (j : Join) : (d.setJoin c j).serving = d.serving := rfl
@[simp] theorem Dev.setJoin_serveAt (d : Dev) (c : Nat) (j : Join) : (d.setJoin c j).serveAt = d.serveAt := rfl
@[simp] theorem Dev.setJoin_ptr (d : Dev) (c : Nat) (j : Join) : (d.setJoin c j).ptr = d.ptr := rfl
@[simp] theorem Dev.setJoin_kerf (d : Dev) (c : Nat) (j : Join) : (d.setJoin c j).kerf = d.kerf := rfl
@[simp] theorem Dev.setJoin_idle (d : Dev) (c : Nat) (j : Join) : (d.setJoin c j).idle = d.idle := rfl
@[simp] theorem Dev.setJoin_periods (d : Dev) (c : Nat) (j : Join) : (d.setJoin c j).periods = d.periods := rfl
@[simp] theorem Dev.setJoin_gwr (d : Dev) (c : Nat) (j : Join) : (d.setJoin c j).gwr = d.gwr := rfl
@[simp] theorem Dev.setJoin_grd (d : Dev) (c : Nat) (j : Join) : (d.setJoin c j).grd = d.grd := rfl
@[simp] theorem Dev.setJoin_gdropped (d : Dev) (c : Nat) (j : Join) : (d.setJoin c j).gdropped = d.gdropped := rfl
@[simp] theorem Dev.setJoin_garmed (d : Dev) (c : Nat) (j : Join) : (d.setJoin c j).garmed = d.garmed := rfl
@[simp] theorem Dev.setJoin_gvec0 (d : Dev) (c : Nat) (j : Join) : (d.setJoin c j).gvec0 = d.gvec0 := rfl
@[simp] theorem Dev.setJoin_gvec1 (d : Dev) (c : Nat) (j : Join) : (d.setJoin c j).gvec1 = d.gvec1 := rfl
@[simp] theorem Dev.setJoin_glog (d : Dev) (c : Nat) (j : Join) : (d.setJoin c j).glog = d.glog := rfl
@[simp] theorem Dev.setJoin_recSeq (d : Dev) (c : Nat) (j : Join) : (d.setJoin c j).recSeq = d.recSeq := rfl
@[simp] theorem Dev.setJoin_secs (d : Dev) (c : Nat) (j : Join) : (d.setJoin c j).secs = d.secs := rfl
@[simp] theorem Dev.setJoin_nanos (d : Dev) (c : Nat) (j : Join) : (d.setJoin c j).nanos = d.nanos := rfl
@[simp] theorem Dev.setJoin_frac (d : Dev) (c : Nat) (j : Join) : (d.setJoin c j).frac = d.frac := rfl
@[simp] theorem Dev.setJoin_slew (d : Dev) (c : Nat) (j : Join) : (d.setJoin c j).slew = d.slew := rfl
@[simp] theorem Dev.setJoin_half (d : Dev) (c : Nat) (j : Join) : (d.setJoin c j).half = d.half := rfl
@[simp] theorem Dev.setJoin_reference (d : Dev) (c : Nat) (j : Join) : (d.setJoin c j).reference = d.reference := rfl
@[simp] theorem Dev.setJoin_ports (d : Dev) (c : Nat) (j : Join) : (d.setJoin c j).ports = d.ports := rfl
@[simp] theorem Dev.setJoin_outs (d : Dev) (c : Nat) (j : Join) : (d.setJoin c j).outs = d.outs := rfl
@[simp] theorem Dev.setJoin_ioWait (d : Dev) (c : Nat) (j : Join) : (d.setJoin c j).ioWait = d.ioWait := rfl
@[simp] theorem Dev.setJoin_ins (d : Dev) (c : Nat) (j : Join) : (d.setJoin c j).ins = d.ins := rfl
@[simp] theorem Dev.setJoin_remotes (d : Dev) (c : Nat) (j : Join) : (d.setJoin c j).remotes = d.remotes := rfl
@[simp] theorem Dev.setJoin_endpoint (d : Dev) (c : Nat) (j : Join) : (d.setJoin c j).endpoint = d.endpoint := rfl
@[simp] theorem Dev.setJoin_firings (d : Dev) (c : Nat) (j : Join) : (d.setJoin c j).firings = d.firings := rfl
@[simp] theorem Dev.setJoin_hstacks (d : Dev) (c : Nat) (j : Join) : (d.setJoin c j).hstacks = d.hstacks := rfl
@[simp] theorem Dev.setJoin_rates (d : Dev) (c : Nat) (j : Join) : (d.setJoin c j).rates = d.rates := rfl
@[simp] theorem Dev.setJoin_late (d : Dev) (c : Nat) (j : Join) : (d.setJoin c j).late = d.late := rfl
@[simp] theorem Dev.setJoin_owed (d : Dev) (c : Nat) (j : Join) : (d.setJoin c j).owed = d.owed := rfl
@[simp] theorem Dev.setJoin_lostWrites (d : Dev) (c : Nat) (j : Join) : (d.setJoin c j).lostWrites = d.lostWrites := rfl
@[simp] theorem Dev.setKerf_cur (d : Dev) (n : Nat) (k : KerfDie) : (d.setKerf n k).cur = d.cur := rfl
@[simp] theorem Dev.setKerf_cycle (d : Dev) (n : Nat) (k : KerfDie) : (d.setKerf n k).cycle = d.cycle := rfl
@[simp] theorem Dev.setKerf_fresh (d : Dev) (n : Nat) (k : KerfDie) : (d.setKerf n k).fresh = d.fresh := rfl
@[simp] theorem Dev.setKerf_nextId (d : Dev) (n : Nat) (k : KerfDie) : (d.setKerf n k).nextId = d.nextId := rfl
@[simp] theorem Dev.setKerf_notices (d : Dev) (n : Nat) (k : KerfDie) : (d.setKerf n k).notices = d.notices := rfl
@[simp] theorem Dev.setKerf_lost (d : Dev) (n : Nat) (k : KerfDie) : (d.setKerf n k).lost = d.lost := rfl
@[simp] theorem Dev.setKerf_losses (d : Dev) (n : Nat) (k : KerfDie) : (d.setKerf n k).losses = d.losses := rfl
@[simp] theorem Dev.setKerf_hbm (d : Dev) (n : Nat) (k : KerfDie) : (d.setKerf n k).hbm = d.hbm := rfl
@[simp] theorem Dev.setKerf_scr (d : Dev) (n : Nat) (k : KerfDie) : (d.setKerf n k).scr = d.scr := rfl
@[simp] theorem Dev.setKerf_tmem (d : Dev) (n : Nat) (k : KerfDie) : (d.setKerf n k).tmem = d.tmem := rfl
@[simp] theorem Dev.setKerf_tiles (d : Dev) (n : Nat) (k : KerfDie) : (d.setKerf n k).tiles = d.tiles := rfl
@[simp] theorem Dev.setKerf_host (d : Dev) (n : Nat) (k : KerfDie) : (d.setKerf n k).host = d.host := rfl
@[simp] theorem Dev.setKerf_poison (d : Dev) (n : Nat) (k : KerfDie) : (d.setKerf n k).poison = d.poison := rfl
@[simp] theorem Dev.setKerf_tileStat (d : Dev) (n : Nat) (k : KerfDie) : (d.setKerf n k).tileStat = d.tileStat := rfl
@[simp] theorem Dev.setKerf_keptTiles (d : Dev) (n : Nat) (k : KerfDie) : (d.setKerf n k).keptTiles = d.keptTiles := rfl
@[simp] theorem Dev.setKerf_teams (d : Dev) (n : Nat) (k : KerfDie) : (d.setKerf n k).teams = d.teams := rfl
@[simp] theorem Dev.setKerf_grids (d : Dev) (n : Nat) (k : KerfDie) : (d.setKerf n k).grids = d.grids := rfl
@[simp] theorem Dev.setKerf_racq (d : Dev) (n : Nat) (k : KerfDie) : (d.setKerf n k).racq = d.racq := rfl
@[simp] theorem Dev.setKerf_bars (d : Dev) (n : Nat) (k : KerfDie) : (d.setKerf n k).bars = d.bars := rfl
@[simp] theorem Dev.setKerf_barWait (d : Dev) (n : Nat) (k : KerfDie) : (d.setKerf n k).barWait = d.barWait := rfl
@[simp] theorem Dev.setKerf_results (d : Dev) (n : Nat) (k : KerfDie) : (d.setKerf n k).results = d.results := rfl
@[simp] theorem Dev.setKerf_scrWrites (d : Dev) (n : Nat) (k : KerfDie) : (d.setKerf n k).scrWrites = d.scrWrites := rfl
@[simp] theorem Dev.setKerf_watch (d : Dev) (n : Nat) (k : KerfDie) : (d.setKerf n k).watch = d.watch := rfl
@[simp] theorem Dev.setKerf_sysUse (d : Dev) (n : Nat) (k : KerfDie) : (d.setKerf n k).sysUse = d.sysUse := rfl
@[simp] theorem Dev.setKerf_owners (d : Dev) (n : Nat) (k : KerfDie) : (d.setKerf n k).owners = d.owners := rfl
@[simp] theorem Dev.setKerf_qops (d : Dev) (n : Nat) (k : KerfDie) : (d.setKerf n k).qops = d.qops := rfl
@[simp] theorem Dev.setKerf_qbad (d : Dev) (n : Nat) (k : KerfDie) : (d.setKerf n k).qbad = d.qbad := rfl
@[simp] theorem Dev.setKerf_ctxs (d : Dev) (n : Nat) (k : KerfDie) : (d.setKerf n k).ctxs = d.ctxs := rfl
@[simp] theorem Dev.setKerf_indir (d : Dev) (n : Nat) (k : KerfDie) : (d.setKerf n k).indir = d.indir := rfl
@[simp] theorem Dev.setKerf_counts (d : Dev) (n : Nat) (k : KerfDie) : (d.setKerf n k).counts = d.counts := rfl
@[simp] theorem Dev.setKerf_migr (d : Dev) (n : Nat) (k : KerfDie) : (d.setKerf n k).migr = d.migr := rfl
@[simp] theorem Dev.setKerf_barred (d : Dev) (n : Nat) (k : KerfDie) : (d.setKerf n k).barred = d.barred := rfl
@[simp] theorem Dev.setKerf_tlb (d : Dev) (n : Nat) (k : KerfDie) : (d.setKerf n k).tlb = d.tlb := rfl
@[simp] theorem Dev.setKerf_ats (d : Dev) (n : Nat) (k : KerfDie) : (d.setKerf n k).ats = d.ats := rfl
@[simp] theorem Dev.setKerf_reqs (d : Dev) (n : Nat) (k : KerfDie) : (d.setKerf n k).reqs = d.reqs := rfl
@[simp] theorem Dev.setKerf_acks (d : Dev) (n : Nat) (k : KerfDie) : (d.setKerf n k).acks = d.acks := rfl
@[simp] theorem Dev.setKerf_tags (d : Dev) (n : Nat) (k : KerfDie) : (d.setKerf n k).tags = d.tags := rfl
@[simp] theorem Dev.setKerf_partials (d : Dev) (n : Nat) (k : KerfDie) : (d.setKerf n k).partials = d.partials := rfl
@[simp] theorem Dev.setKerf_shared (d : Dev) (n : Nat) (k : KerfDie) : (d.setKerf n k).shared = d.shared := rfl
@[simp] theorem Dev.setKerf_contribs (d : Dev) (n : Nat) (k : KerfDie) : (d.setKerf n k).contribs = d.contribs := rfl
@[simp] theorem Dev.setKerf_side (d : Dev) (n : Nat) (k : KerfDie) : (d.setKerf n k).side = d.side := rfl
@[simp] theorem Dev.setKerf_faulted (d : Dev) (n : Nat) (k : KerfDie) : (d.setKerf n k).faulted = d.faulted := rfl
@[simp] theorem Dev.setKerf_joins (d : Dev) (n : Nat) (k : KerfDie) : (d.setKerf n k).joins = d.joins := rfl
@[simp] theorem Dev.setKerf_cards (d : Dev) (n : Nat) (k : KerfDie) : (d.setKerf n k).cards = d.cards := rfl
@[simp] theorem Dev.setKerf_rays (d : Dev) (n : Nat) (k : KerfDie) : (d.setKerf n k).rays = d.rays := rfl
@[simp] theorem Dev.setKerf_tex (d : Dev) (n : Nat) (k : KerfDie) : (d.setKerf n k).tex = d.tex := rfl
@[simp] theorem Dev.setKerf_shc (d : Dev) (n : Nat) (k : KerfDie) : (d.setKerf n k).shc = d.shc := rfl
@[simp] theorem Dev.setKerf_shcReqs (d : Dev) (n : Nat) (k : KerfDie) : (d.setKerf n k).shcReqs = d.shcReqs := rfl
@[simp] theorem Dev.setKerf_entries (d : Dev) (n : Nat) (k : KerfDie) : (d.setKerf n k).entries = d.entries := rfl
@[simp] theorem Dev.setKerf_collReqs (d : Dev) (n : Nat) (k : KerfDie) : (d.setKerf n k).collReqs = d.collReqs := rfl
@[simp] theorem Dev.setKerf_queues (d : Dev) (n : Nat) (k : KerfDie) : (d.setKerf n k).queues = d.queues := rfl
@[simp] theorem Dev.setKerf_serving (d : Dev) (n : Nat) (k : KerfDie) : (d.setKerf n k).serving = d.serving := rfl
@[simp] theorem Dev.setKerf_serveAt (d : Dev) (n : Nat) (k : KerfDie) : (d.setKerf n k).serveAt = d.serveAt := rfl
@[simp] theorem Dev.setKerf_ptr (d : Dev) (n : Nat) (k : KerfDie) : (d.setKerf n k).ptr = d.ptr := rfl
@[simp] theorem Dev.setKerf_idle (d : Dev) (n : Nat) (k : KerfDie) : (d.setKerf n k).idle = d.idle := rfl
@[simp] theorem Dev.setKerf_periods (d : Dev) (n : Nat) (k : KerfDie) : (d.setKerf n k).periods = d.periods := rfl
@[simp] theorem Dev.setKerf_gwr (d : Dev) (n : Nat) (k : KerfDie) : (d.setKerf n k).gwr = d.gwr := rfl
@[simp] theorem Dev.setKerf_grd (d : Dev) (n : Nat) (k : KerfDie) : (d.setKerf n k).grd = d.grd := rfl
@[simp] theorem Dev.setKerf_gdropped (d : Dev) (n : Nat) (k : KerfDie) : (d.setKerf n k).gdropped = d.gdropped := rfl
@[simp] theorem Dev.setKerf_garmed (d : Dev) (n : Nat) (k : KerfDie) : (d.setKerf n k).garmed = d.garmed := rfl
@[simp] theorem Dev.setKerf_gvec0 (d : Dev) (n : Nat) (k : KerfDie) : (d.setKerf n k).gvec0 = d.gvec0 := rfl
@[simp] theorem Dev.setKerf_gvec1 (d : Dev) (n : Nat) (k : KerfDie) : (d.setKerf n k).gvec1 = d.gvec1 := rfl
@[simp] theorem Dev.setKerf_glog (d : Dev) (n : Nat) (k : KerfDie) : (d.setKerf n k).glog = d.glog := rfl
@[simp] theorem Dev.setKerf_recSeq (d : Dev) (n : Nat) (k : KerfDie) : (d.setKerf n k).recSeq = d.recSeq := rfl
@[simp] theorem Dev.setKerf_secs (d : Dev) (n : Nat) (k : KerfDie) : (d.setKerf n k).secs = d.secs := rfl
@[simp] theorem Dev.setKerf_nanos (d : Dev) (n : Nat) (k : KerfDie) : (d.setKerf n k).nanos = d.nanos := rfl
@[simp] theorem Dev.setKerf_frac (d : Dev) (n : Nat) (k : KerfDie) : (d.setKerf n k).frac = d.frac := rfl
@[simp] theorem Dev.setKerf_slew (d : Dev) (n : Nat) (k : KerfDie) : (d.setKerf n k).slew = d.slew := rfl
@[simp] theorem Dev.setKerf_half (d : Dev) (n : Nat) (k : KerfDie) : (d.setKerf n k).half = d.half := rfl
@[simp] theorem Dev.setKerf_reference (d : Dev) (n : Nat) (k : KerfDie) : (d.setKerf n k).reference = d.reference := rfl
@[simp] theorem Dev.setKerf_ports (d : Dev) (n : Nat) (k : KerfDie) : (d.setKerf n k).ports = d.ports := rfl
@[simp] theorem Dev.setKerf_outs (d : Dev) (n : Nat) (k : KerfDie) : (d.setKerf n k).outs = d.outs := rfl
@[simp] theorem Dev.setKerf_ioWait (d : Dev) (n : Nat) (k : KerfDie) : (d.setKerf n k).ioWait = d.ioWait := rfl
@[simp] theorem Dev.setKerf_ins (d : Dev) (n : Nat) (k : KerfDie) : (d.setKerf n k).ins = d.ins := rfl
@[simp] theorem Dev.setKerf_remotes (d : Dev) (n : Nat) (k : KerfDie) : (d.setKerf n k).remotes = d.remotes := rfl
@[simp] theorem Dev.setKerf_endpoint (d : Dev) (n : Nat) (k : KerfDie) : (d.setKerf n k).endpoint = d.endpoint := rfl
@[simp] theorem Dev.setKerf_firings (d : Dev) (n : Nat) (k : KerfDie) : (d.setKerf n k).firings = d.firings := rfl
@[simp] theorem Dev.setKerf_hstacks (d : Dev) (n : Nat) (k : KerfDie) : (d.setKerf n k).hstacks = d.hstacks := rfl
@[simp] theorem Dev.setKerf_rates (d : Dev) (n : Nat) (k : KerfDie) : (d.setKerf n k).rates = d.rates := rfl
@[simp] theorem Dev.setKerf_late (d : Dev) (n : Nat) (k : KerfDie) : (d.setKerf n k).late = d.late := rfl
@[simp] theorem Dev.setKerf_owed (d : Dev) (n : Nat) (k : KerfDie) : (d.setKerf n k).owed = d.owed := rfl
@[simp] theorem Dev.setKerf_lostWrites (d : Dev) (n : Nat) (k : KerfDie) : (d.setKerf n k).lostWrites = d.lostWrites := rfl
@[simp] theorem Dev.freshId_cur (d : Dev) : (d.freshId.2).cur = d.cur := rfl
@[simp] theorem Dev.freshId_cycle (d : Dev) : (d.freshId.2).cycle = d.cycle := rfl
@[simp] theorem Dev.freshId_fresh (d : Dev) : (d.freshId.2).fresh = d.fresh := rfl
@[simp] theorem Dev.freshId_notices (d : Dev) : (d.freshId.2).notices = d.notices := rfl
@[simp] theorem Dev.freshId_lost (d : Dev) : (d.freshId.2).lost = d.lost := rfl
@[simp] theorem Dev.freshId_losses (d : Dev) : (d.freshId.2).losses = d.losses := rfl
@[simp] theorem Dev.freshId_hbm (d : Dev) : (d.freshId.2).hbm = d.hbm := rfl
@[simp] theorem Dev.freshId_scr (d : Dev) : (d.freshId.2).scr = d.scr := rfl
@[simp] theorem Dev.freshId_tmem (d : Dev) : (d.freshId.2).tmem = d.tmem := rfl
@[simp] theorem Dev.freshId_tiles (d : Dev) : (d.freshId.2).tiles = d.tiles := rfl
@[simp] theorem Dev.freshId_host (d : Dev) : (d.freshId.2).host = d.host := rfl
@[simp] theorem Dev.freshId_poison (d : Dev) : (d.freshId.2).poison = d.poison := rfl
@[simp] theorem Dev.freshId_tileStat (d : Dev) : (d.freshId.2).tileStat = d.tileStat := rfl
@[simp] theorem Dev.freshId_keptTiles (d : Dev) : (d.freshId.2).keptTiles = d.keptTiles := rfl
@[simp] theorem Dev.freshId_teams (d : Dev) : (d.freshId.2).teams = d.teams := rfl
@[simp] theorem Dev.freshId_grids (d : Dev) : (d.freshId.2).grids = d.grids := rfl
@[simp] theorem Dev.freshId_racq (d : Dev) : (d.freshId.2).racq = d.racq := rfl
@[simp] theorem Dev.freshId_bars (d : Dev) : (d.freshId.2).bars = d.bars := rfl
@[simp] theorem Dev.freshId_barWait (d : Dev) : (d.freshId.2).barWait = d.barWait := rfl
@[simp] theorem Dev.freshId_results (d : Dev) : (d.freshId.2).results = d.results := rfl
@[simp] theorem Dev.freshId_scrWrites (d : Dev) : (d.freshId.2).scrWrites = d.scrWrites := rfl
@[simp] theorem Dev.freshId_watch (d : Dev) : (d.freshId.2).watch = d.watch := rfl
@[simp] theorem Dev.freshId_sysUse (d : Dev) : (d.freshId.2).sysUse = d.sysUse := rfl
@[simp] theorem Dev.freshId_owners (d : Dev) : (d.freshId.2).owners = d.owners := rfl
@[simp] theorem Dev.freshId_qops (d : Dev) : (d.freshId.2).qops = d.qops := rfl
@[simp] theorem Dev.freshId_qbad (d : Dev) : (d.freshId.2).qbad = d.qbad := rfl
@[simp] theorem Dev.freshId_ctxs (d : Dev) : (d.freshId.2).ctxs = d.ctxs := rfl
@[simp] theorem Dev.freshId_indir (d : Dev) : (d.freshId.2).indir = d.indir := rfl
@[simp] theorem Dev.freshId_counts (d : Dev) : (d.freshId.2).counts = d.counts := rfl
@[simp] theorem Dev.freshId_migr (d : Dev) : (d.freshId.2).migr = d.migr := rfl
@[simp] theorem Dev.freshId_barred (d : Dev) : (d.freshId.2).barred = d.barred := rfl
@[simp] theorem Dev.freshId_tlb (d : Dev) : (d.freshId.2).tlb = d.tlb := rfl
@[simp] theorem Dev.freshId_ats (d : Dev) : (d.freshId.2).ats = d.ats := rfl
@[simp] theorem Dev.freshId_reqs (d : Dev) : (d.freshId.2).reqs = d.reqs := rfl
@[simp] theorem Dev.freshId_acks (d : Dev) : (d.freshId.2).acks = d.acks := rfl
@[simp] theorem Dev.freshId_tags (d : Dev) : (d.freshId.2).tags = d.tags := rfl
@[simp] theorem Dev.freshId_partials (d : Dev) : (d.freshId.2).partials = d.partials := rfl
@[simp] theorem Dev.freshId_shared (d : Dev) : (d.freshId.2).shared = d.shared := rfl
@[simp] theorem Dev.freshId_contribs (d : Dev) : (d.freshId.2).contribs = d.contribs := rfl
@[simp] theorem Dev.freshId_side (d : Dev) : (d.freshId.2).side = d.side := rfl
@[simp] theorem Dev.freshId_faulted (d : Dev) : (d.freshId.2).faulted = d.faulted := rfl
@[simp] theorem Dev.freshId_joins (d : Dev) : (d.freshId.2).joins = d.joins := rfl
@[simp] theorem Dev.freshId_cards (d : Dev) : (d.freshId.2).cards = d.cards := rfl
@[simp] theorem Dev.freshId_rays (d : Dev) : (d.freshId.2).rays = d.rays := rfl
@[simp] theorem Dev.freshId_tex (d : Dev) : (d.freshId.2).tex = d.tex := rfl
@[simp] theorem Dev.freshId_shc (d : Dev) : (d.freshId.2).shc = d.shc := rfl
@[simp] theorem Dev.freshId_shcReqs (d : Dev) : (d.freshId.2).shcReqs = d.shcReqs := rfl
@[simp] theorem Dev.freshId_entries (d : Dev) : (d.freshId.2).entries = d.entries := rfl
@[simp] theorem Dev.freshId_collReqs (d : Dev) : (d.freshId.2).collReqs = d.collReqs := rfl
@[simp] theorem Dev.freshId_queues (d : Dev) : (d.freshId.2).queues = d.queues := rfl
@[simp] theorem Dev.freshId_serving (d : Dev) : (d.freshId.2).serving = d.serving := rfl
@[simp] theorem Dev.freshId_serveAt (d : Dev) : (d.freshId.2).serveAt = d.serveAt := rfl
@[simp] theorem Dev.freshId_ptr (d : Dev) : (d.freshId.2).ptr = d.ptr := rfl
@[simp] theorem Dev.freshId_kerf (d : Dev) : (d.freshId.2).kerf = d.kerf := rfl
@[simp] theorem Dev.freshId_idle (d : Dev) : (d.freshId.2).idle = d.idle := rfl
@[simp] theorem Dev.freshId_periods (d : Dev) : (d.freshId.2).periods = d.periods := rfl
@[simp] theorem Dev.freshId_gwr (d : Dev) : (d.freshId.2).gwr = d.gwr := rfl
@[simp] theorem Dev.freshId_grd (d : Dev) : (d.freshId.2).grd = d.grd := rfl
@[simp] theorem Dev.freshId_gdropped (d : Dev) : (d.freshId.2).gdropped = d.gdropped := rfl
@[simp] theorem Dev.freshId_garmed (d : Dev) : (d.freshId.2).garmed = d.garmed := rfl
@[simp] theorem Dev.freshId_gvec0 (d : Dev) : (d.freshId.2).gvec0 = d.gvec0 := rfl
@[simp] theorem Dev.freshId_gvec1 (d : Dev) : (d.freshId.2).gvec1 = d.gvec1 := rfl
@[simp] theorem Dev.freshId_glog (d : Dev) : (d.freshId.2).glog = d.glog := rfl
@[simp] theorem Dev.freshId_recSeq (d : Dev) : (d.freshId.2).recSeq = d.recSeq := rfl
@[simp] theorem Dev.freshId_secs (d : Dev) : (d.freshId.2).secs = d.secs := rfl
@[simp] theorem Dev.freshId_nanos (d : Dev) : (d.freshId.2).nanos = d.nanos := rfl
@[simp] theorem Dev.freshId_frac (d : Dev) : (d.freshId.2).frac = d.frac := rfl
@[simp] theorem Dev.freshId_slew (d : Dev) : (d.freshId.2).slew = d.slew := rfl
@[simp] theorem Dev.freshId_half (d : Dev) : (d.freshId.2).half = d.half := rfl
@[simp] theorem Dev.freshId_reference (d : Dev) : (d.freshId.2).reference = d.reference := rfl
@[simp] theorem Dev.freshId_ports (d : Dev) : (d.freshId.2).ports = d.ports := rfl
@[simp] theorem Dev.freshId_outs (d : Dev) : (d.freshId.2).outs = d.outs := rfl
@[simp] theorem Dev.freshId_ioWait (d : Dev) : (d.freshId.2).ioWait = d.ioWait := rfl
@[simp] theorem Dev.freshId_ins (d : Dev) : (d.freshId.2).ins = d.ins := rfl
@[simp] theorem Dev.freshId_remotes (d : Dev) : (d.freshId.2).remotes = d.remotes := rfl
@[simp] theorem Dev.freshId_endpoint (d : Dev) : (d.freshId.2).endpoint = d.endpoint := rfl
@[simp] theorem Dev.freshId_firings (d : Dev) : (d.freshId.2).firings = d.firings := rfl
@[simp] theorem Dev.freshId_hstacks (d : Dev) : (d.freshId.2).hstacks = d.hstacks := rfl
@[simp] theorem Dev.freshId_rates (d : Dev) : (d.freshId.2).rates = d.rates := rfl
@[simp] theorem Dev.freshId_late (d : Dev) : (d.freshId.2).late = d.late := rfl
@[simp] theorem Dev.freshId_owed (d : Dev) : (d.freshId.2).owed = d.owed := rfl
@[simp] theorem Dev.freshId_lostWrites (d : Dev) : (d.freshId.2).lostWrites = d.lostWrites := rfl
@[simp] theorem Dev.freshId_nextId (d : Dev) : d.freshId.2.nextId = d.nextId + 1 := rfl
@[simp] theorem Dev.freshId_name (d : Dev) : d.freshId.1 = d.nextId := rfl

/-! ## A port, a pair, a stack, a firing -/

@[simp] theorem Dev.setPort_cur (d : Dev) (p : Nat) (v : Port) : (d.setPort p v).cur = d.cur := rfl
@[simp] theorem Dev.setPort_cycle (d : Dev) (p : Nat) (v : Port) : (d.setPort p v).cycle = d.cycle := rfl
@[simp] theorem Dev.setPort_fresh (d : Dev) (p : Nat) (v : Port) : (d.setPort p v).fresh = d.fresh := rfl
@[simp] theorem Dev.setPort_nextId (d : Dev) (p : Nat) (v : Port) : (d.setPort p v).nextId = d.nextId := rfl
@[simp] theorem Dev.setPort_notices (d : Dev) (p : Nat) (v : Port) : (d.setPort p v).notices = d.notices := rfl
@[simp] theorem Dev.setPort_lost (d : Dev) (p : Nat) (v : Port) : (d.setPort p v).lost = d.lost := rfl
@[simp] theorem Dev.setPort_losses (d : Dev) (p : Nat) (v : Port) : (d.setPort p v).losses = d.losses := rfl
@[simp] theorem Dev.setPort_hbm (d : Dev) (p : Nat) (v : Port) : (d.setPort p v).hbm = d.hbm := rfl
@[simp] theorem Dev.setPort_scr (d : Dev) (p : Nat) (v : Port) : (d.setPort p v).scr = d.scr := rfl
@[simp] theorem Dev.setPort_tmem (d : Dev) (p : Nat) (v : Port) : (d.setPort p v).tmem = d.tmem := rfl
@[simp] theorem Dev.setPort_tiles (d : Dev) (p : Nat) (v : Port) : (d.setPort p v).tiles = d.tiles := rfl
@[simp] theorem Dev.setPort_host (d : Dev) (p : Nat) (v : Port) : (d.setPort p v).host = d.host := rfl
@[simp] theorem Dev.setPort_poison (d : Dev) (p : Nat) (v : Port) : (d.setPort p v).poison = d.poison := rfl
@[simp] theorem Dev.setPort_tileStat (d : Dev) (p : Nat) (v : Port) : (d.setPort p v).tileStat = d.tileStat := rfl
@[simp] theorem Dev.setPort_keptTiles (d : Dev) (p : Nat) (v : Port) : (d.setPort p v).keptTiles = d.keptTiles := rfl
@[simp] theorem Dev.setPort_teams (d : Dev) (p : Nat) (v : Port) : (d.setPort p v).teams = d.teams := rfl
@[simp] theorem Dev.setPort_grids (d : Dev) (p : Nat) (v : Port) : (d.setPort p v).grids = d.grids := rfl
@[simp] theorem Dev.setPort_racq (d : Dev) (p : Nat) (v : Port) : (d.setPort p v).racq = d.racq := rfl
@[simp] theorem Dev.setPort_bars (d : Dev) (p : Nat) (v : Port) : (d.setPort p v).bars = d.bars := rfl
@[simp] theorem Dev.setPort_barWait (d : Dev) (p : Nat) (v : Port) : (d.setPort p v).barWait = d.barWait := rfl
@[simp] theorem Dev.setPort_results (d : Dev) (p : Nat) (v : Port) : (d.setPort p v).results = d.results := rfl
@[simp] theorem Dev.setPort_scrWrites (d : Dev) (p : Nat) (v : Port) : (d.setPort p v).scrWrites = d.scrWrites := rfl
@[simp] theorem Dev.setPort_watch (d : Dev) (p : Nat) (v : Port) : (d.setPort p v).watch = d.watch := rfl
@[simp] theorem Dev.setPort_sysUse (d : Dev) (p : Nat) (v : Port) : (d.setPort p v).sysUse = d.sysUse := rfl
@[simp] theorem Dev.setPort_owners (d : Dev) (p : Nat) (v : Port) : (d.setPort p v).owners = d.owners := rfl
@[simp] theorem Dev.setPort_qops (d : Dev) (p : Nat) (v : Port) : (d.setPort p v).qops = d.qops := rfl
@[simp] theorem Dev.setPort_qbad (d : Dev) (p : Nat) (v : Port) : (d.setPort p v).qbad = d.qbad := rfl
@[simp] theorem Dev.setPort_ctxs (d : Dev) (p : Nat) (v : Port) : (d.setPort p v).ctxs = d.ctxs := rfl
@[simp] theorem Dev.setPort_indir (d : Dev) (p : Nat) (v : Port) : (d.setPort p v).indir = d.indir := rfl
@[simp] theorem Dev.setPort_counts (d : Dev) (p : Nat) (v : Port) : (d.setPort p v).counts = d.counts := rfl
@[simp] theorem Dev.setPort_migr (d : Dev) (p : Nat) (v : Port) : (d.setPort p v).migr = d.migr := rfl
@[simp] theorem Dev.setPort_barred (d : Dev) (p : Nat) (v : Port) : (d.setPort p v).barred = d.barred := rfl
@[simp] theorem Dev.setPort_tlb (d : Dev) (p : Nat) (v : Port) : (d.setPort p v).tlb = d.tlb := rfl
@[simp] theorem Dev.setPort_ats (d : Dev) (p : Nat) (v : Port) : (d.setPort p v).ats = d.ats := rfl
@[simp] theorem Dev.setPort_reqs (d : Dev) (p : Nat) (v : Port) : (d.setPort p v).reqs = d.reqs := rfl
@[simp] theorem Dev.setPort_acks (d : Dev) (p : Nat) (v : Port) : (d.setPort p v).acks = d.acks := rfl
@[simp] theorem Dev.setPort_tags (d : Dev) (p : Nat) (v : Port) : (d.setPort p v).tags = d.tags := rfl
@[simp] theorem Dev.setPort_partials (d : Dev) (p : Nat) (v : Port) : (d.setPort p v).partials = d.partials := rfl
@[simp] theorem Dev.setPort_shared (d : Dev) (p : Nat) (v : Port) : (d.setPort p v).shared = d.shared := rfl
@[simp] theorem Dev.setPort_contribs (d : Dev) (p : Nat) (v : Port) : (d.setPort p v).contribs = d.contribs := rfl
@[simp] theorem Dev.setPort_side (d : Dev) (p : Nat) (v : Port) : (d.setPort p v).side = d.side := rfl
@[simp] theorem Dev.setPort_faulted (d : Dev) (p : Nat) (v : Port) : (d.setPort p v).faulted = d.faulted := rfl
@[simp] theorem Dev.setPort_joins (d : Dev) (p : Nat) (v : Port) : (d.setPort p v).joins = d.joins := rfl
@[simp] theorem Dev.setPort_cards (d : Dev) (p : Nat) (v : Port) : (d.setPort p v).cards = d.cards := rfl
@[simp] theorem Dev.setPort_rays (d : Dev) (p : Nat) (v : Port) : (d.setPort p v).rays = d.rays := rfl
@[simp] theorem Dev.setPort_tex (d : Dev) (p : Nat) (v : Port) : (d.setPort p v).tex = d.tex := rfl
@[simp] theorem Dev.setPort_shc (d : Dev) (p : Nat) (v : Port) : (d.setPort p v).shc = d.shc := rfl
@[simp] theorem Dev.setPort_shcReqs (d : Dev) (p : Nat) (v : Port) : (d.setPort p v).shcReqs = d.shcReqs := rfl
@[simp] theorem Dev.setPort_entries (d : Dev) (p : Nat) (v : Port) : (d.setPort p v).entries = d.entries := rfl
@[simp] theorem Dev.setPort_collReqs (d : Dev) (p : Nat) (v : Port) : (d.setPort p v).collReqs = d.collReqs := rfl
@[simp] theorem Dev.setPort_queues (d : Dev) (p : Nat) (v : Port) : (d.setPort p v).queues = d.queues := rfl
@[simp] theorem Dev.setPort_serving (d : Dev) (p : Nat) (v : Port) : (d.setPort p v).serving = d.serving := rfl
@[simp] theorem Dev.setPort_serveAt (d : Dev) (p : Nat) (v : Port) : (d.setPort p v).serveAt = d.serveAt := rfl
@[simp] theorem Dev.setPort_ptr (d : Dev) (p : Nat) (v : Port) : (d.setPort p v).ptr = d.ptr := rfl
@[simp] theorem Dev.setPort_kerf (d : Dev) (p : Nat) (v : Port) : (d.setPort p v).kerf = d.kerf := rfl
@[simp] theorem Dev.setPort_idle (d : Dev) (p : Nat) (v : Port) : (d.setPort p v).idle = d.idle := rfl
@[simp] theorem Dev.setPort_periods (d : Dev) (p : Nat) (v : Port) : (d.setPort p v).periods = d.periods := rfl
@[simp] theorem Dev.setPort_gwr (d : Dev) (p : Nat) (v : Port) : (d.setPort p v).gwr = d.gwr := rfl
@[simp] theorem Dev.setPort_grd (d : Dev) (p : Nat) (v : Port) : (d.setPort p v).grd = d.grd := rfl
@[simp] theorem Dev.setPort_gdropped (d : Dev) (p : Nat) (v : Port) : (d.setPort p v).gdropped = d.gdropped := rfl
@[simp] theorem Dev.setPort_garmed (d : Dev) (p : Nat) (v : Port) : (d.setPort p v).garmed = d.garmed := rfl
@[simp] theorem Dev.setPort_gvec0 (d : Dev) (p : Nat) (v : Port) : (d.setPort p v).gvec0 = d.gvec0 := rfl
@[simp] theorem Dev.setPort_gvec1 (d : Dev) (p : Nat) (v : Port) : (d.setPort p v).gvec1 = d.gvec1 := rfl
@[simp] theorem Dev.setPort_glog (d : Dev) (p : Nat) (v : Port) : (d.setPort p v).glog = d.glog := rfl
@[simp] theorem Dev.setPort_recSeq (d : Dev) (p : Nat) (v : Port) : (d.setPort p v).recSeq = d.recSeq := rfl
@[simp] theorem Dev.setPort_secs (d : Dev) (p : Nat) (v : Port) : (d.setPort p v).secs = d.secs := rfl
@[simp] theorem Dev.setPort_nanos (d : Dev) (p : Nat) (v : Port) : (d.setPort p v).nanos = d.nanos := rfl
@[simp] theorem Dev.setPort_frac (d : Dev) (p : Nat) (v : Port) : (d.setPort p v).frac = d.frac := rfl
@[simp] theorem Dev.setPort_slew (d : Dev) (p : Nat) (v : Port) : (d.setPort p v).slew = d.slew := rfl
@[simp] theorem Dev.setPort_half (d : Dev) (p : Nat) (v : Port) : (d.setPort p v).half = d.half := rfl
@[simp] theorem Dev.setPort_reference (d : Dev) (p : Nat) (v : Port) : (d.setPort p v).reference = d.reference := rfl
@[simp] theorem Dev.setPort_outs (d : Dev) (p : Nat) (v : Port) : (d.setPort p v).outs = d.outs := rfl
@[simp] theorem Dev.setPort_ioWait (d : Dev) (p : Nat) (v : Port) : (d.setPort p v).ioWait = d.ioWait := rfl
@[simp] theorem Dev.setPort_ins (d : Dev) (p : Nat) (v : Port) : (d.setPort p v).ins = d.ins := rfl
@[simp] theorem Dev.setPort_remotes (d : Dev) (p : Nat) (v : Port) : (d.setPort p v).remotes = d.remotes := rfl
@[simp] theorem Dev.setPort_endpoint (d : Dev) (p : Nat) (v : Port) : (d.setPort p v).endpoint = d.endpoint := rfl
@[simp] theorem Dev.setPort_firings (d : Dev) (p : Nat) (v : Port) : (d.setPort p v).firings = d.firings := rfl
@[simp] theorem Dev.setPort_hstacks (d : Dev) (p : Nat) (v : Port) : (d.setPort p v).hstacks = d.hstacks := rfl
@[simp] theorem Dev.setPort_rates (d : Dev) (p : Nat) (v : Port) : (d.setPort p v).rates = d.rates := rfl
@[simp] theorem Dev.setPort_late (d : Dev) (p : Nat) (v : Port) : (d.setPort p v).late = d.late := rfl
@[simp] theorem Dev.setPort_owed (d : Dev) (p : Nat) (v : Port) : (d.setPort p v).owed = d.owed := rfl
@[simp] theorem Dev.setPort_lostWrites (d : Dev) (p : Nat) (v : Port) : (d.setPort p v).lostWrites = d.lostWrites := rfl
@[simp] theorem Dev.setOut_cur (d : Dev) (p : Nat) (v : PeerOut) : (d.setOut p v).cur = d.cur := rfl
@[simp] theorem Dev.setOut_cycle (d : Dev) (p : Nat) (v : PeerOut) : (d.setOut p v).cycle = d.cycle := rfl
@[simp] theorem Dev.setOut_fresh (d : Dev) (p : Nat) (v : PeerOut) : (d.setOut p v).fresh = d.fresh := rfl
@[simp] theorem Dev.setOut_nextId (d : Dev) (p : Nat) (v : PeerOut) : (d.setOut p v).nextId = d.nextId := rfl
@[simp] theorem Dev.setOut_notices (d : Dev) (p : Nat) (v : PeerOut) : (d.setOut p v).notices = d.notices := rfl
@[simp] theorem Dev.setOut_lost (d : Dev) (p : Nat) (v : PeerOut) : (d.setOut p v).lost = d.lost := rfl
@[simp] theorem Dev.setOut_losses (d : Dev) (p : Nat) (v : PeerOut) : (d.setOut p v).losses = d.losses := rfl
@[simp] theorem Dev.setOut_hbm (d : Dev) (p : Nat) (v : PeerOut) : (d.setOut p v).hbm = d.hbm := rfl
@[simp] theorem Dev.setOut_scr (d : Dev) (p : Nat) (v : PeerOut) : (d.setOut p v).scr = d.scr := rfl
@[simp] theorem Dev.setOut_tmem (d : Dev) (p : Nat) (v : PeerOut) : (d.setOut p v).tmem = d.tmem := rfl
@[simp] theorem Dev.setOut_tiles (d : Dev) (p : Nat) (v : PeerOut) : (d.setOut p v).tiles = d.tiles := rfl
@[simp] theorem Dev.setOut_host (d : Dev) (p : Nat) (v : PeerOut) : (d.setOut p v).host = d.host := rfl
@[simp] theorem Dev.setOut_poison (d : Dev) (p : Nat) (v : PeerOut) : (d.setOut p v).poison = d.poison := rfl
@[simp] theorem Dev.setOut_tileStat (d : Dev) (p : Nat) (v : PeerOut) : (d.setOut p v).tileStat = d.tileStat := rfl
@[simp] theorem Dev.setOut_keptTiles (d : Dev) (p : Nat) (v : PeerOut) : (d.setOut p v).keptTiles = d.keptTiles := rfl
@[simp] theorem Dev.setOut_teams (d : Dev) (p : Nat) (v : PeerOut) : (d.setOut p v).teams = d.teams := rfl
@[simp] theorem Dev.setOut_grids (d : Dev) (p : Nat) (v : PeerOut) : (d.setOut p v).grids = d.grids := rfl
@[simp] theorem Dev.setOut_racq (d : Dev) (p : Nat) (v : PeerOut) : (d.setOut p v).racq = d.racq := rfl
@[simp] theorem Dev.setOut_bars (d : Dev) (p : Nat) (v : PeerOut) : (d.setOut p v).bars = d.bars := rfl
@[simp] theorem Dev.setOut_barWait (d : Dev) (p : Nat) (v : PeerOut) : (d.setOut p v).barWait = d.barWait := rfl
@[simp] theorem Dev.setOut_results (d : Dev) (p : Nat) (v : PeerOut) : (d.setOut p v).results = d.results := rfl
@[simp] theorem Dev.setOut_scrWrites (d : Dev) (p : Nat) (v : PeerOut) : (d.setOut p v).scrWrites = d.scrWrites := rfl
@[simp] theorem Dev.setOut_watch (d : Dev) (p : Nat) (v : PeerOut) : (d.setOut p v).watch = d.watch := rfl
@[simp] theorem Dev.setOut_sysUse (d : Dev) (p : Nat) (v : PeerOut) : (d.setOut p v).sysUse = d.sysUse := rfl
@[simp] theorem Dev.setOut_owners (d : Dev) (p : Nat) (v : PeerOut) : (d.setOut p v).owners = d.owners := rfl
@[simp] theorem Dev.setOut_qops (d : Dev) (p : Nat) (v : PeerOut) : (d.setOut p v).qops = d.qops := rfl
@[simp] theorem Dev.setOut_qbad (d : Dev) (p : Nat) (v : PeerOut) : (d.setOut p v).qbad = d.qbad := rfl
@[simp] theorem Dev.setOut_ctxs (d : Dev) (p : Nat) (v : PeerOut) : (d.setOut p v).ctxs = d.ctxs := rfl
@[simp] theorem Dev.setOut_indir (d : Dev) (p : Nat) (v : PeerOut) : (d.setOut p v).indir = d.indir := rfl
@[simp] theorem Dev.setOut_counts (d : Dev) (p : Nat) (v : PeerOut) : (d.setOut p v).counts = d.counts := rfl
@[simp] theorem Dev.setOut_migr (d : Dev) (p : Nat) (v : PeerOut) : (d.setOut p v).migr = d.migr := rfl
@[simp] theorem Dev.setOut_barred (d : Dev) (p : Nat) (v : PeerOut) : (d.setOut p v).barred = d.barred := rfl
@[simp] theorem Dev.setOut_tlb (d : Dev) (p : Nat) (v : PeerOut) : (d.setOut p v).tlb = d.tlb := rfl
@[simp] theorem Dev.setOut_ats (d : Dev) (p : Nat) (v : PeerOut) : (d.setOut p v).ats = d.ats := rfl
@[simp] theorem Dev.setOut_reqs (d : Dev) (p : Nat) (v : PeerOut) : (d.setOut p v).reqs = d.reqs := rfl
@[simp] theorem Dev.setOut_acks (d : Dev) (p : Nat) (v : PeerOut) : (d.setOut p v).acks = d.acks := rfl
@[simp] theorem Dev.setOut_tags (d : Dev) (p : Nat) (v : PeerOut) : (d.setOut p v).tags = d.tags := rfl
@[simp] theorem Dev.setOut_partials (d : Dev) (p : Nat) (v : PeerOut) : (d.setOut p v).partials = d.partials := rfl
@[simp] theorem Dev.setOut_shared (d : Dev) (p : Nat) (v : PeerOut) : (d.setOut p v).shared = d.shared := rfl
@[simp] theorem Dev.setOut_contribs (d : Dev) (p : Nat) (v : PeerOut) : (d.setOut p v).contribs = d.contribs := rfl
@[simp] theorem Dev.setOut_side (d : Dev) (p : Nat) (v : PeerOut) : (d.setOut p v).side = d.side := rfl
@[simp] theorem Dev.setOut_faulted (d : Dev) (p : Nat) (v : PeerOut) : (d.setOut p v).faulted = d.faulted := rfl
@[simp] theorem Dev.setOut_joins (d : Dev) (p : Nat) (v : PeerOut) : (d.setOut p v).joins = d.joins := rfl
@[simp] theorem Dev.setOut_cards (d : Dev) (p : Nat) (v : PeerOut) : (d.setOut p v).cards = d.cards := rfl
@[simp] theorem Dev.setOut_rays (d : Dev) (p : Nat) (v : PeerOut) : (d.setOut p v).rays = d.rays := rfl
@[simp] theorem Dev.setOut_tex (d : Dev) (p : Nat) (v : PeerOut) : (d.setOut p v).tex = d.tex := rfl
@[simp] theorem Dev.setOut_shc (d : Dev) (p : Nat) (v : PeerOut) : (d.setOut p v).shc = d.shc := rfl
@[simp] theorem Dev.setOut_shcReqs (d : Dev) (p : Nat) (v : PeerOut) : (d.setOut p v).shcReqs = d.shcReqs := rfl
@[simp] theorem Dev.setOut_entries (d : Dev) (p : Nat) (v : PeerOut) : (d.setOut p v).entries = d.entries := rfl
@[simp] theorem Dev.setOut_collReqs (d : Dev) (p : Nat) (v : PeerOut) : (d.setOut p v).collReqs = d.collReqs := rfl
@[simp] theorem Dev.setOut_queues (d : Dev) (p : Nat) (v : PeerOut) : (d.setOut p v).queues = d.queues := rfl
@[simp] theorem Dev.setOut_serving (d : Dev) (p : Nat) (v : PeerOut) : (d.setOut p v).serving = d.serving := rfl
@[simp] theorem Dev.setOut_serveAt (d : Dev) (p : Nat) (v : PeerOut) : (d.setOut p v).serveAt = d.serveAt := rfl
@[simp] theorem Dev.setOut_ptr (d : Dev) (p : Nat) (v : PeerOut) : (d.setOut p v).ptr = d.ptr := rfl
@[simp] theorem Dev.setOut_kerf (d : Dev) (p : Nat) (v : PeerOut) : (d.setOut p v).kerf = d.kerf := rfl
@[simp] theorem Dev.setOut_idle (d : Dev) (p : Nat) (v : PeerOut) : (d.setOut p v).idle = d.idle := rfl
@[simp] theorem Dev.setOut_periods (d : Dev) (p : Nat) (v : PeerOut) : (d.setOut p v).periods = d.periods := rfl
@[simp] theorem Dev.setOut_gwr (d : Dev) (p : Nat) (v : PeerOut) : (d.setOut p v).gwr = d.gwr := rfl
@[simp] theorem Dev.setOut_grd (d : Dev) (p : Nat) (v : PeerOut) : (d.setOut p v).grd = d.grd := rfl
@[simp] theorem Dev.setOut_gdropped (d : Dev) (p : Nat) (v : PeerOut) : (d.setOut p v).gdropped = d.gdropped := rfl
@[simp] theorem Dev.setOut_garmed (d : Dev) (p : Nat) (v : PeerOut) : (d.setOut p v).garmed = d.garmed := rfl
@[simp] theorem Dev.setOut_gvec0 (d : Dev) (p : Nat) (v : PeerOut) : (d.setOut p v).gvec0 = d.gvec0 := rfl
@[simp] theorem Dev.setOut_gvec1 (d : Dev) (p : Nat) (v : PeerOut) : (d.setOut p v).gvec1 = d.gvec1 := rfl
@[simp] theorem Dev.setOut_glog (d : Dev) (p : Nat) (v : PeerOut) : (d.setOut p v).glog = d.glog := rfl
@[simp] theorem Dev.setOut_recSeq (d : Dev) (p : Nat) (v : PeerOut) : (d.setOut p v).recSeq = d.recSeq := rfl
@[simp] theorem Dev.setOut_secs (d : Dev) (p : Nat) (v : PeerOut) : (d.setOut p v).secs = d.secs := rfl
@[simp] theorem Dev.setOut_nanos (d : Dev) (p : Nat) (v : PeerOut) : (d.setOut p v).nanos = d.nanos := rfl
@[simp] theorem Dev.setOut_frac (d : Dev) (p : Nat) (v : PeerOut) : (d.setOut p v).frac = d.frac := rfl
@[simp] theorem Dev.setOut_slew (d : Dev) (p : Nat) (v : PeerOut) : (d.setOut p v).slew = d.slew := rfl
@[simp] theorem Dev.setOut_half (d : Dev) (p : Nat) (v : PeerOut) : (d.setOut p v).half = d.half := rfl
@[simp] theorem Dev.setOut_reference (d : Dev) (p : Nat) (v : PeerOut) : (d.setOut p v).reference = d.reference := rfl
@[simp] theorem Dev.setOut_ports (d : Dev) (p : Nat) (v : PeerOut) : (d.setOut p v).ports = d.ports := rfl
@[simp] theorem Dev.setOut_ioWait (d : Dev) (p : Nat) (v : PeerOut) : (d.setOut p v).ioWait = d.ioWait := rfl
@[simp] theorem Dev.setOut_ins (d : Dev) (p : Nat) (v : PeerOut) : (d.setOut p v).ins = d.ins := rfl
@[simp] theorem Dev.setOut_remotes (d : Dev) (p : Nat) (v : PeerOut) : (d.setOut p v).remotes = d.remotes := rfl
@[simp] theorem Dev.setOut_endpoint (d : Dev) (p : Nat) (v : PeerOut) : (d.setOut p v).endpoint = d.endpoint := rfl
@[simp] theorem Dev.setOut_firings (d : Dev) (p : Nat) (v : PeerOut) : (d.setOut p v).firings = d.firings := rfl
@[simp] theorem Dev.setOut_hstacks (d : Dev) (p : Nat) (v : PeerOut) : (d.setOut p v).hstacks = d.hstacks := rfl
@[simp] theorem Dev.setOut_rates (d : Dev) (p : Nat) (v : PeerOut) : (d.setOut p v).rates = d.rates := rfl
@[simp] theorem Dev.setOut_late (d : Dev) (p : Nat) (v : PeerOut) : (d.setOut p v).late = d.late := rfl
@[simp] theorem Dev.setOut_owed (d : Dev) (p : Nat) (v : PeerOut) : (d.setOut p v).owed = d.owed := rfl
@[simp] theorem Dev.setOut_lostWrites (d : Dev) (p : Nat) (v : PeerOut) : (d.setOut p v).lostWrites = d.lostWrites := rfl
@[simp] theorem Dev.setIn_cur (d : Dev) (p : Nat) (v : PeerIn) : (d.setIn p v).cur = d.cur := rfl
@[simp] theorem Dev.setIn_cycle (d : Dev) (p : Nat) (v : PeerIn) : (d.setIn p v).cycle = d.cycle := rfl
@[simp] theorem Dev.setIn_fresh (d : Dev) (p : Nat) (v : PeerIn) : (d.setIn p v).fresh = d.fresh := rfl
@[simp] theorem Dev.setIn_nextId (d : Dev) (p : Nat) (v : PeerIn) : (d.setIn p v).nextId = d.nextId := rfl
@[simp] theorem Dev.setIn_notices (d : Dev) (p : Nat) (v : PeerIn) : (d.setIn p v).notices = d.notices := rfl
@[simp] theorem Dev.setIn_lost (d : Dev) (p : Nat) (v : PeerIn) : (d.setIn p v).lost = d.lost := rfl
@[simp] theorem Dev.setIn_losses (d : Dev) (p : Nat) (v : PeerIn) : (d.setIn p v).losses = d.losses := rfl
@[simp] theorem Dev.setIn_hbm (d : Dev) (p : Nat) (v : PeerIn) : (d.setIn p v).hbm = d.hbm := rfl
@[simp] theorem Dev.setIn_scr (d : Dev) (p : Nat) (v : PeerIn) : (d.setIn p v).scr = d.scr := rfl
@[simp] theorem Dev.setIn_tmem (d : Dev) (p : Nat) (v : PeerIn) : (d.setIn p v).tmem = d.tmem := rfl
@[simp] theorem Dev.setIn_tiles (d : Dev) (p : Nat) (v : PeerIn) : (d.setIn p v).tiles = d.tiles := rfl
@[simp] theorem Dev.setIn_host (d : Dev) (p : Nat) (v : PeerIn) : (d.setIn p v).host = d.host := rfl
@[simp] theorem Dev.setIn_poison (d : Dev) (p : Nat) (v : PeerIn) : (d.setIn p v).poison = d.poison := rfl
@[simp] theorem Dev.setIn_tileStat (d : Dev) (p : Nat) (v : PeerIn) : (d.setIn p v).tileStat = d.tileStat := rfl
@[simp] theorem Dev.setIn_keptTiles (d : Dev) (p : Nat) (v : PeerIn) : (d.setIn p v).keptTiles = d.keptTiles := rfl
@[simp] theorem Dev.setIn_teams (d : Dev) (p : Nat) (v : PeerIn) : (d.setIn p v).teams = d.teams := rfl
@[simp] theorem Dev.setIn_grids (d : Dev) (p : Nat) (v : PeerIn) : (d.setIn p v).grids = d.grids := rfl
@[simp] theorem Dev.setIn_racq (d : Dev) (p : Nat) (v : PeerIn) : (d.setIn p v).racq = d.racq := rfl
@[simp] theorem Dev.setIn_bars (d : Dev) (p : Nat) (v : PeerIn) : (d.setIn p v).bars = d.bars := rfl
@[simp] theorem Dev.setIn_barWait (d : Dev) (p : Nat) (v : PeerIn) : (d.setIn p v).barWait = d.barWait := rfl
@[simp] theorem Dev.setIn_results (d : Dev) (p : Nat) (v : PeerIn) : (d.setIn p v).results = d.results := rfl
@[simp] theorem Dev.setIn_scrWrites (d : Dev) (p : Nat) (v : PeerIn) : (d.setIn p v).scrWrites = d.scrWrites := rfl
@[simp] theorem Dev.setIn_watch (d : Dev) (p : Nat) (v : PeerIn) : (d.setIn p v).watch = d.watch := rfl
@[simp] theorem Dev.setIn_sysUse (d : Dev) (p : Nat) (v : PeerIn) : (d.setIn p v).sysUse = d.sysUse := rfl
@[simp] theorem Dev.setIn_owners (d : Dev) (p : Nat) (v : PeerIn) : (d.setIn p v).owners = d.owners := rfl
@[simp] theorem Dev.setIn_qops (d : Dev) (p : Nat) (v : PeerIn) : (d.setIn p v).qops = d.qops := rfl
@[simp] theorem Dev.setIn_qbad (d : Dev) (p : Nat) (v : PeerIn) : (d.setIn p v).qbad = d.qbad := rfl
@[simp] theorem Dev.setIn_ctxs (d : Dev) (p : Nat) (v : PeerIn) : (d.setIn p v).ctxs = d.ctxs := rfl
@[simp] theorem Dev.setIn_indir (d : Dev) (p : Nat) (v : PeerIn) : (d.setIn p v).indir = d.indir := rfl
@[simp] theorem Dev.setIn_counts (d : Dev) (p : Nat) (v : PeerIn) : (d.setIn p v).counts = d.counts := rfl
@[simp] theorem Dev.setIn_migr (d : Dev) (p : Nat) (v : PeerIn) : (d.setIn p v).migr = d.migr := rfl
@[simp] theorem Dev.setIn_barred (d : Dev) (p : Nat) (v : PeerIn) : (d.setIn p v).barred = d.barred := rfl
@[simp] theorem Dev.setIn_tlb (d : Dev) (p : Nat) (v : PeerIn) : (d.setIn p v).tlb = d.tlb := rfl
@[simp] theorem Dev.setIn_ats (d : Dev) (p : Nat) (v : PeerIn) : (d.setIn p v).ats = d.ats := rfl
@[simp] theorem Dev.setIn_reqs (d : Dev) (p : Nat) (v : PeerIn) : (d.setIn p v).reqs = d.reqs := rfl
@[simp] theorem Dev.setIn_acks (d : Dev) (p : Nat) (v : PeerIn) : (d.setIn p v).acks = d.acks := rfl
@[simp] theorem Dev.setIn_tags (d : Dev) (p : Nat) (v : PeerIn) : (d.setIn p v).tags = d.tags := rfl
@[simp] theorem Dev.setIn_partials (d : Dev) (p : Nat) (v : PeerIn) : (d.setIn p v).partials = d.partials := rfl
@[simp] theorem Dev.setIn_shared (d : Dev) (p : Nat) (v : PeerIn) : (d.setIn p v).shared = d.shared := rfl
@[simp] theorem Dev.setIn_contribs (d : Dev) (p : Nat) (v : PeerIn) : (d.setIn p v).contribs = d.contribs := rfl
@[simp] theorem Dev.setIn_side (d : Dev) (p : Nat) (v : PeerIn) : (d.setIn p v).side = d.side := rfl
@[simp] theorem Dev.setIn_faulted (d : Dev) (p : Nat) (v : PeerIn) : (d.setIn p v).faulted = d.faulted := rfl
@[simp] theorem Dev.setIn_joins (d : Dev) (p : Nat) (v : PeerIn) : (d.setIn p v).joins = d.joins := rfl
@[simp] theorem Dev.setIn_cards (d : Dev) (p : Nat) (v : PeerIn) : (d.setIn p v).cards = d.cards := rfl
@[simp] theorem Dev.setIn_rays (d : Dev) (p : Nat) (v : PeerIn) : (d.setIn p v).rays = d.rays := rfl
@[simp] theorem Dev.setIn_tex (d : Dev) (p : Nat) (v : PeerIn) : (d.setIn p v).tex = d.tex := rfl
@[simp] theorem Dev.setIn_shc (d : Dev) (p : Nat) (v : PeerIn) : (d.setIn p v).shc = d.shc := rfl
@[simp] theorem Dev.setIn_shcReqs (d : Dev) (p : Nat) (v : PeerIn) : (d.setIn p v).shcReqs = d.shcReqs := rfl
@[simp] theorem Dev.setIn_entries (d : Dev) (p : Nat) (v : PeerIn) : (d.setIn p v).entries = d.entries := rfl
@[simp] theorem Dev.setIn_collReqs (d : Dev) (p : Nat) (v : PeerIn) : (d.setIn p v).collReqs = d.collReqs := rfl
@[simp] theorem Dev.setIn_queues (d : Dev) (p : Nat) (v : PeerIn) : (d.setIn p v).queues = d.queues := rfl
@[simp] theorem Dev.setIn_serving (d : Dev) (p : Nat) (v : PeerIn) : (d.setIn p v).serving = d.serving := rfl
@[simp] theorem Dev.setIn_serveAt (d : Dev) (p : Nat) (v : PeerIn) : (d.setIn p v).serveAt = d.serveAt := rfl
@[simp] theorem Dev.setIn_ptr (d : Dev) (p : Nat) (v : PeerIn) : (d.setIn p v).ptr = d.ptr := rfl
@[simp] theorem Dev.setIn_kerf (d : Dev) (p : Nat) (v : PeerIn) : (d.setIn p v).kerf = d.kerf := rfl
@[simp] theorem Dev.setIn_idle (d : Dev) (p : Nat) (v : PeerIn) : (d.setIn p v).idle = d.idle := rfl
@[simp] theorem Dev.setIn_periods (d : Dev) (p : Nat) (v : PeerIn) : (d.setIn p v).periods = d.periods := rfl
@[simp] theorem Dev.setIn_gwr (d : Dev) (p : Nat) (v : PeerIn) : (d.setIn p v).gwr = d.gwr := rfl
@[simp] theorem Dev.setIn_grd (d : Dev) (p : Nat) (v : PeerIn) : (d.setIn p v).grd = d.grd := rfl
@[simp] theorem Dev.setIn_gdropped (d : Dev) (p : Nat) (v : PeerIn) : (d.setIn p v).gdropped = d.gdropped := rfl
@[simp] theorem Dev.setIn_garmed (d : Dev) (p : Nat) (v : PeerIn) : (d.setIn p v).garmed = d.garmed := rfl
@[simp] theorem Dev.setIn_gvec0 (d : Dev) (p : Nat) (v : PeerIn) : (d.setIn p v).gvec0 = d.gvec0 := rfl
@[simp] theorem Dev.setIn_gvec1 (d : Dev) (p : Nat) (v : PeerIn) : (d.setIn p v).gvec1 = d.gvec1 := rfl
@[simp] theorem Dev.setIn_glog (d : Dev) (p : Nat) (v : PeerIn) : (d.setIn p v).glog = d.glog := rfl
@[simp] theorem Dev.setIn_recSeq (d : Dev) (p : Nat) (v : PeerIn) : (d.setIn p v).recSeq = d.recSeq := rfl
@[simp] theorem Dev.setIn_secs (d : Dev) (p : Nat) (v : PeerIn) : (d.setIn p v).secs = d.secs := rfl
@[simp] theorem Dev.setIn_nanos (d : Dev) (p : Nat) (v : PeerIn) : (d.setIn p v).nanos = d.nanos := rfl
@[simp] theorem Dev.setIn_frac (d : Dev) (p : Nat) (v : PeerIn) : (d.setIn p v).frac = d.frac := rfl
@[simp] theorem Dev.setIn_slew (d : Dev) (p : Nat) (v : PeerIn) : (d.setIn p v).slew = d.slew := rfl
@[simp] theorem Dev.setIn_half (d : Dev) (p : Nat) (v : PeerIn) : (d.setIn p v).half = d.half := rfl
@[simp] theorem Dev.setIn_reference (d : Dev) (p : Nat) (v : PeerIn) : (d.setIn p v).reference = d.reference := rfl
@[simp] theorem Dev.setIn_ports (d : Dev) (p : Nat) (v : PeerIn) : (d.setIn p v).ports = d.ports := rfl
@[simp] theorem Dev.setIn_outs (d : Dev) (p : Nat) (v : PeerIn) : (d.setIn p v).outs = d.outs := rfl
@[simp] theorem Dev.setIn_ioWait (d : Dev) (p : Nat) (v : PeerIn) : (d.setIn p v).ioWait = d.ioWait := rfl
@[simp] theorem Dev.setIn_remotes (d : Dev) (p : Nat) (v : PeerIn) : (d.setIn p v).remotes = d.remotes := rfl
@[simp] theorem Dev.setIn_endpoint (d : Dev) (p : Nat) (v : PeerIn) : (d.setIn p v).endpoint = d.endpoint := rfl
@[simp] theorem Dev.setIn_firings (d : Dev) (p : Nat) (v : PeerIn) : (d.setIn p v).firings = d.firings := rfl
@[simp] theorem Dev.setIn_hstacks (d : Dev) (p : Nat) (v : PeerIn) : (d.setIn p v).hstacks = d.hstacks := rfl
@[simp] theorem Dev.setIn_rates (d : Dev) (p : Nat) (v : PeerIn) : (d.setIn p v).rates = d.rates := rfl
@[simp] theorem Dev.setIn_late (d : Dev) (p : Nat) (v : PeerIn) : (d.setIn p v).late = d.late := rfl
@[simp] theorem Dev.setIn_owed (d : Dev) (p : Nat) (v : PeerIn) : (d.setIn p v).owed = d.owed := rfl
@[simp] theorem Dev.setIn_lostWrites (d : Dev) (p : Nat) (v : PeerIn) : (d.setIn p v).lostWrites = d.lostWrites := rfl
@[simp] theorem Dev.setStack_cur (d : Dev) (n : Nat) (v : Stack) : (d.setStack n v).cur = d.cur := rfl
@[simp] theorem Dev.setStack_cycle (d : Dev) (n : Nat) (v : Stack) : (d.setStack n v).cycle = d.cycle := rfl
@[simp] theorem Dev.setStack_fresh (d : Dev) (n : Nat) (v : Stack) : (d.setStack n v).fresh = d.fresh := rfl
@[simp] theorem Dev.setStack_nextId (d : Dev) (n : Nat) (v : Stack) : (d.setStack n v).nextId = d.nextId := rfl
@[simp] theorem Dev.setStack_notices (d : Dev) (n : Nat) (v : Stack) : (d.setStack n v).notices = d.notices := rfl
@[simp] theorem Dev.setStack_lost (d : Dev) (n : Nat) (v : Stack) : (d.setStack n v).lost = d.lost := rfl
@[simp] theorem Dev.setStack_losses (d : Dev) (n : Nat) (v : Stack) : (d.setStack n v).losses = d.losses := rfl
@[simp] theorem Dev.setStack_hbm (d : Dev) (n : Nat) (v : Stack) : (d.setStack n v).hbm = d.hbm := rfl
@[simp] theorem Dev.setStack_scr (d : Dev) (n : Nat) (v : Stack) : (d.setStack n v).scr = d.scr := rfl
@[simp] theorem Dev.setStack_tmem (d : Dev) (n : Nat) (v : Stack) : (d.setStack n v).tmem = d.tmem := rfl
@[simp] theorem Dev.setStack_tiles (d : Dev) (n : Nat) (v : Stack) : (d.setStack n v).tiles = d.tiles := rfl
@[simp] theorem Dev.setStack_host (d : Dev) (n : Nat) (v : Stack) : (d.setStack n v).host = d.host := rfl
@[simp] theorem Dev.setStack_poison (d : Dev) (n : Nat) (v : Stack) : (d.setStack n v).poison = d.poison := rfl
@[simp] theorem Dev.setStack_tileStat (d : Dev) (n : Nat) (v : Stack) : (d.setStack n v).tileStat = d.tileStat := rfl
@[simp] theorem Dev.setStack_keptTiles (d : Dev) (n : Nat) (v : Stack) : (d.setStack n v).keptTiles = d.keptTiles := rfl
@[simp] theorem Dev.setStack_teams (d : Dev) (n : Nat) (v : Stack) : (d.setStack n v).teams = d.teams := rfl
@[simp] theorem Dev.setStack_grids (d : Dev) (n : Nat) (v : Stack) : (d.setStack n v).grids = d.grids := rfl
@[simp] theorem Dev.setStack_racq (d : Dev) (n : Nat) (v : Stack) : (d.setStack n v).racq = d.racq := rfl
@[simp] theorem Dev.setStack_bars (d : Dev) (n : Nat) (v : Stack) : (d.setStack n v).bars = d.bars := rfl
@[simp] theorem Dev.setStack_barWait (d : Dev) (n : Nat) (v : Stack) : (d.setStack n v).barWait = d.barWait := rfl
@[simp] theorem Dev.setStack_results (d : Dev) (n : Nat) (v : Stack) : (d.setStack n v).results = d.results := rfl
@[simp] theorem Dev.setStack_scrWrites (d : Dev) (n : Nat) (v : Stack) : (d.setStack n v).scrWrites = d.scrWrites := rfl
@[simp] theorem Dev.setStack_watch (d : Dev) (n : Nat) (v : Stack) : (d.setStack n v).watch = d.watch := rfl
@[simp] theorem Dev.setStack_sysUse (d : Dev) (n : Nat) (v : Stack) : (d.setStack n v).sysUse = d.sysUse := rfl
@[simp] theorem Dev.setStack_owners (d : Dev) (n : Nat) (v : Stack) : (d.setStack n v).owners = d.owners := rfl
@[simp] theorem Dev.setStack_qops (d : Dev) (n : Nat) (v : Stack) : (d.setStack n v).qops = d.qops := rfl
@[simp] theorem Dev.setStack_qbad (d : Dev) (n : Nat) (v : Stack) : (d.setStack n v).qbad = d.qbad := rfl
@[simp] theorem Dev.setStack_ctxs (d : Dev) (n : Nat) (v : Stack) : (d.setStack n v).ctxs = d.ctxs := rfl
@[simp] theorem Dev.setStack_indir (d : Dev) (n : Nat) (v : Stack) : (d.setStack n v).indir = d.indir := rfl
@[simp] theorem Dev.setStack_counts (d : Dev) (n : Nat) (v : Stack) : (d.setStack n v).counts = d.counts := rfl
@[simp] theorem Dev.setStack_migr (d : Dev) (n : Nat) (v : Stack) : (d.setStack n v).migr = d.migr := rfl
@[simp] theorem Dev.setStack_barred (d : Dev) (n : Nat) (v : Stack) : (d.setStack n v).barred = d.barred := rfl
@[simp] theorem Dev.setStack_tlb (d : Dev) (n : Nat) (v : Stack) : (d.setStack n v).tlb = d.tlb := rfl
@[simp] theorem Dev.setStack_ats (d : Dev) (n : Nat) (v : Stack) : (d.setStack n v).ats = d.ats := rfl
@[simp] theorem Dev.setStack_reqs (d : Dev) (n : Nat) (v : Stack) : (d.setStack n v).reqs = d.reqs := rfl
@[simp] theorem Dev.setStack_acks (d : Dev) (n : Nat) (v : Stack) : (d.setStack n v).acks = d.acks := rfl
@[simp] theorem Dev.setStack_tags (d : Dev) (n : Nat) (v : Stack) : (d.setStack n v).tags = d.tags := rfl
@[simp] theorem Dev.setStack_partials (d : Dev) (n : Nat) (v : Stack) : (d.setStack n v).partials = d.partials := rfl
@[simp] theorem Dev.setStack_shared (d : Dev) (n : Nat) (v : Stack) : (d.setStack n v).shared = d.shared := rfl
@[simp] theorem Dev.setStack_contribs (d : Dev) (n : Nat) (v : Stack) : (d.setStack n v).contribs = d.contribs := rfl
@[simp] theorem Dev.setStack_side (d : Dev) (n : Nat) (v : Stack) : (d.setStack n v).side = d.side := rfl
@[simp] theorem Dev.setStack_faulted (d : Dev) (n : Nat) (v : Stack) : (d.setStack n v).faulted = d.faulted := rfl
@[simp] theorem Dev.setStack_joins (d : Dev) (n : Nat) (v : Stack) : (d.setStack n v).joins = d.joins := rfl
@[simp] theorem Dev.setStack_cards (d : Dev) (n : Nat) (v : Stack) : (d.setStack n v).cards = d.cards := rfl
@[simp] theorem Dev.setStack_rays (d : Dev) (n : Nat) (v : Stack) : (d.setStack n v).rays = d.rays := rfl
@[simp] theorem Dev.setStack_tex (d : Dev) (n : Nat) (v : Stack) : (d.setStack n v).tex = d.tex := rfl
@[simp] theorem Dev.setStack_shc (d : Dev) (n : Nat) (v : Stack) : (d.setStack n v).shc = d.shc := rfl
@[simp] theorem Dev.setStack_shcReqs (d : Dev) (n : Nat) (v : Stack) : (d.setStack n v).shcReqs = d.shcReqs := rfl
@[simp] theorem Dev.setStack_entries (d : Dev) (n : Nat) (v : Stack) : (d.setStack n v).entries = d.entries := rfl
@[simp] theorem Dev.setStack_collReqs (d : Dev) (n : Nat) (v : Stack) : (d.setStack n v).collReqs = d.collReqs := rfl
@[simp] theorem Dev.setStack_queues (d : Dev) (n : Nat) (v : Stack) : (d.setStack n v).queues = d.queues := rfl
@[simp] theorem Dev.setStack_serving (d : Dev) (n : Nat) (v : Stack) : (d.setStack n v).serving = d.serving := rfl
@[simp] theorem Dev.setStack_serveAt (d : Dev) (n : Nat) (v : Stack) : (d.setStack n v).serveAt = d.serveAt := rfl
@[simp] theorem Dev.setStack_ptr (d : Dev) (n : Nat) (v : Stack) : (d.setStack n v).ptr = d.ptr := rfl
@[simp] theorem Dev.setStack_kerf (d : Dev) (n : Nat) (v : Stack) : (d.setStack n v).kerf = d.kerf := rfl
@[simp] theorem Dev.setStack_idle (d : Dev) (n : Nat) (v : Stack) : (d.setStack n v).idle = d.idle := rfl
@[simp] theorem Dev.setStack_periods (d : Dev) (n : Nat) (v : Stack) : (d.setStack n v).periods = d.periods := rfl
@[simp] theorem Dev.setStack_gwr (d : Dev) (n : Nat) (v : Stack) : (d.setStack n v).gwr = d.gwr := rfl
@[simp] theorem Dev.setStack_grd (d : Dev) (n : Nat) (v : Stack) : (d.setStack n v).grd = d.grd := rfl
@[simp] theorem Dev.setStack_gdropped (d : Dev) (n : Nat) (v : Stack) : (d.setStack n v).gdropped = d.gdropped := rfl
@[simp] theorem Dev.setStack_garmed (d : Dev) (n : Nat) (v : Stack) : (d.setStack n v).garmed = d.garmed := rfl
@[simp] theorem Dev.setStack_gvec0 (d : Dev) (n : Nat) (v : Stack) : (d.setStack n v).gvec0 = d.gvec0 := rfl
@[simp] theorem Dev.setStack_gvec1 (d : Dev) (n : Nat) (v : Stack) : (d.setStack n v).gvec1 = d.gvec1 := rfl
@[simp] theorem Dev.setStack_glog (d : Dev) (n : Nat) (v : Stack) : (d.setStack n v).glog = d.glog := rfl
@[simp] theorem Dev.setStack_recSeq (d : Dev) (n : Nat) (v : Stack) : (d.setStack n v).recSeq = d.recSeq := rfl
@[simp] theorem Dev.setStack_secs (d : Dev) (n : Nat) (v : Stack) : (d.setStack n v).secs = d.secs := rfl
@[simp] theorem Dev.setStack_nanos (d : Dev) (n : Nat) (v : Stack) : (d.setStack n v).nanos = d.nanos := rfl
@[simp] theorem Dev.setStack_frac (d : Dev) (n : Nat) (v : Stack) : (d.setStack n v).frac = d.frac := rfl
@[simp] theorem Dev.setStack_slew (d : Dev) (n : Nat) (v : Stack) : (d.setStack n v).slew = d.slew := rfl
@[simp] theorem Dev.setStack_half (d : Dev) (n : Nat) (v : Stack) : (d.setStack n v).half = d.half := rfl
@[simp] theorem Dev.setStack_reference (d : Dev) (n : Nat) (v : Stack) : (d.setStack n v).reference = d.reference := rfl
@[simp] theorem Dev.setStack_ports (d : Dev) (n : Nat) (v : Stack) : (d.setStack n v).ports = d.ports := rfl
@[simp] theorem Dev.setStack_outs (d : Dev) (n : Nat) (v : Stack) : (d.setStack n v).outs = d.outs := rfl
@[simp] theorem Dev.setStack_ioWait (d : Dev) (n : Nat) (v : Stack) : (d.setStack n v).ioWait = d.ioWait := rfl
@[simp] theorem Dev.setStack_ins (d : Dev) (n : Nat) (v : Stack) : (d.setStack n v).ins = d.ins := rfl
@[simp] theorem Dev.setStack_remotes (d : Dev) (n : Nat) (v : Stack) : (d.setStack n v).remotes = d.remotes := rfl
@[simp] theorem Dev.setStack_endpoint (d : Dev) (n : Nat) (v : Stack) : (d.setStack n v).endpoint = d.endpoint := rfl
@[simp] theorem Dev.setStack_firings (d : Dev) (n : Nat) (v : Stack) : (d.setStack n v).firings = d.firings := rfl
@[simp] theorem Dev.setStack_rates (d : Dev) (n : Nat) (v : Stack) : (d.setStack n v).rates = d.rates := rfl
@[simp] theorem Dev.setStack_late (d : Dev) (n : Nat) (v : Stack) : (d.setStack n v).late = d.late := rfl
@[simp] theorem Dev.setStack_owed (d : Dev) (n : Nat) (v : Stack) : (d.setStack n v).owed = d.owed := rfl
@[simp] theorem Dev.setStack_lostWrites (d : Dev) (n : Nat) (v : Stack) : (d.setStack n v).lostWrites = d.lostWrites := rfl
@[simp] theorem Dev.setFiring_cur (d : Dev) (n e : Nat) (v : Firing) : (d.setFiring n e v).cur = d.cur := rfl
@[simp] theorem Dev.setFiring_cycle (d : Dev) (n e : Nat) (v : Firing) : (d.setFiring n e v).cycle = d.cycle := rfl
@[simp] theorem Dev.setFiring_fresh (d : Dev) (n e : Nat) (v : Firing) : (d.setFiring n e v).fresh = d.fresh := rfl
@[simp] theorem Dev.setFiring_nextId (d : Dev) (n e : Nat) (v : Firing) : (d.setFiring n e v).nextId = d.nextId := rfl
@[simp] theorem Dev.setFiring_notices (d : Dev) (n e : Nat) (v : Firing) : (d.setFiring n e v).notices = d.notices := rfl
@[simp] theorem Dev.setFiring_lost (d : Dev) (n e : Nat) (v : Firing) : (d.setFiring n e v).lost = d.lost := rfl
@[simp] theorem Dev.setFiring_losses (d : Dev) (n e : Nat) (v : Firing) : (d.setFiring n e v).losses = d.losses := rfl
@[simp] theorem Dev.setFiring_hbm (d : Dev) (n e : Nat) (v : Firing) : (d.setFiring n e v).hbm = d.hbm := rfl
@[simp] theorem Dev.setFiring_scr (d : Dev) (n e : Nat) (v : Firing) : (d.setFiring n e v).scr = d.scr := rfl
@[simp] theorem Dev.setFiring_tmem (d : Dev) (n e : Nat) (v : Firing) : (d.setFiring n e v).tmem = d.tmem := rfl
@[simp] theorem Dev.setFiring_tiles (d : Dev) (n e : Nat) (v : Firing) : (d.setFiring n e v).tiles = d.tiles := rfl
@[simp] theorem Dev.setFiring_host (d : Dev) (n e : Nat) (v : Firing) : (d.setFiring n e v).host = d.host := rfl
@[simp] theorem Dev.setFiring_poison (d : Dev) (n e : Nat) (v : Firing) : (d.setFiring n e v).poison = d.poison := rfl
@[simp] theorem Dev.setFiring_tileStat (d : Dev) (n e : Nat) (v : Firing) : (d.setFiring n e v).tileStat = d.tileStat := rfl
@[simp] theorem Dev.setFiring_keptTiles (d : Dev) (n e : Nat) (v : Firing) : (d.setFiring n e v).keptTiles = d.keptTiles := rfl
@[simp] theorem Dev.setFiring_teams (d : Dev) (n e : Nat) (v : Firing) : (d.setFiring n e v).teams = d.teams := rfl
@[simp] theorem Dev.setFiring_grids (d : Dev) (n e : Nat) (v : Firing) : (d.setFiring n e v).grids = d.grids := rfl
@[simp] theorem Dev.setFiring_racq (d : Dev) (n e : Nat) (v : Firing) : (d.setFiring n e v).racq = d.racq := rfl
@[simp] theorem Dev.setFiring_bars (d : Dev) (n e : Nat) (v : Firing) : (d.setFiring n e v).bars = d.bars := rfl
@[simp] theorem Dev.setFiring_barWait (d : Dev) (n e : Nat) (v : Firing) : (d.setFiring n e v).barWait = d.barWait := rfl
@[simp] theorem Dev.setFiring_results (d : Dev) (n e : Nat) (v : Firing) : (d.setFiring n e v).results = d.results := rfl
@[simp] theorem Dev.setFiring_scrWrites (d : Dev) (n e : Nat) (v : Firing) : (d.setFiring n e v).scrWrites = d.scrWrites := rfl
@[simp] theorem Dev.setFiring_watch (d : Dev) (n e : Nat) (v : Firing) : (d.setFiring n e v).watch = d.watch := rfl
@[simp] theorem Dev.setFiring_sysUse (d : Dev) (n e : Nat) (v : Firing) : (d.setFiring n e v).sysUse = d.sysUse := rfl
@[simp] theorem Dev.setFiring_owners (d : Dev) (n e : Nat) (v : Firing) : (d.setFiring n e v).owners = d.owners := rfl
@[simp] theorem Dev.setFiring_qops (d : Dev) (n e : Nat) (v : Firing) : (d.setFiring n e v).qops = d.qops := rfl
@[simp] theorem Dev.setFiring_qbad (d : Dev) (n e : Nat) (v : Firing) : (d.setFiring n e v).qbad = d.qbad := rfl
@[simp] theorem Dev.setFiring_ctxs (d : Dev) (n e : Nat) (v : Firing) : (d.setFiring n e v).ctxs = d.ctxs := rfl
@[simp] theorem Dev.setFiring_indir (d : Dev) (n e : Nat) (v : Firing) : (d.setFiring n e v).indir = d.indir := rfl
@[simp] theorem Dev.setFiring_counts (d : Dev) (n e : Nat) (v : Firing) : (d.setFiring n e v).counts = d.counts := rfl
@[simp] theorem Dev.setFiring_migr (d : Dev) (n e : Nat) (v : Firing) : (d.setFiring n e v).migr = d.migr := rfl
@[simp] theorem Dev.setFiring_barred (d : Dev) (n e : Nat) (v : Firing) : (d.setFiring n e v).barred = d.barred := rfl
@[simp] theorem Dev.setFiring_tlb (d : Dev) (n e : Nat) (v : Firing) : (d.setFiring n e v).tlb = d.tlb := rfl
@[simp] theorem Dev.setFiring_ats (d : Dev) (n e : Nat) (v : Firing) : (d.setFiring n e v).ats = d.ats := rfl
@[simp] theorem Dev.setFiring_reqs (d : Dev) (n e : Nat) (v : Firing) : (d.setFiring n e v).reqs = d.reqs := rfl
@[simp] theorem Dev.setFiring_acks (d : Dev) (n e : Nat) (v : Firing) : (d.setFiring n e v).acks = d.acks := rfl
@[simp] theorem Dev.setFiring_tags (d : Dev) (n e : Nat) (v : Firing) : (d.setFiring n e v).tags = d.tags := rfl
@[simp] theorem Dev.setFiring_partials (d : Dev) (n e : Nat) (v : Firing) : (d.setFiring n e v).partials = d.partials := rfl
@[simp] theorem Dev.setFiring_shared (d : Dev) (n e : Nat) (v : Firing) : (d.setFiring n e v).shared = d.shared := rfl
@[simp] theorem Dev.setFiring_contribs (d : Dev) (n e : Nat) (v : Firing) : (d.setFiring n e v).contribs = d.contribs := rfl
@[simp] theorem Dev.setFiring_side (d : Dev) (n e : Nat) (v : Firing) : (d.setFiring n e v).side = d.side := rfl
@[simp] theorem Dev.setFiring_faulted (d : Dev) (n e : Nat) (v : Firing) : (d.setFiring n e v).faulted = d.faulted := rfl
@[simp] theorem Dev.setFiring_joins (d : Dev) (n e : Nat) (v : Firing) : (d.setFiring n e v).joins = d.joins := rfl
@[simp] theorem Dev.setFiring_cards (d : Dev) (n e : Nat) (v : Firing) : (d.setFiring n e v).cards = d.cards := rfl
@[simp] theorem Dev.setFiring_rays (d : Dev) (n e : Nat) (v : Firing) : (d.setFiring n e v).rays = d.rays := rfl
@[simp] theorem Dev.setFiring_tex (d : Dev) (n e : Nat) (v : Firing) : (d.setFiring n e v).tex = d.tex := rfl
@[simp] theorem Dev.setFiring_shc (d : Dev) (n e : Nat) (v : Firing) : (d.setFiring n e v).shc = d.shc := rfl
@[simp] theorem Dev.setFiring_shcReqs (d : Dev) (n e : Nat) (v : Firing) : (d.setFiring n e v).shcReqs = d.shcReqs := rfl
@[simp] theorem Dev.setFiring_entries (d : Dev) (n e : Nat) (v : Firing) : (d.setFiring n e v).entries = d.entries := rfl
@[simp] theorem Dev.setFiring_collReqs (d : Dev) (n e : Nat) (v : Firing) : (d.setFiring n e v).collReqs = d.collReqs := rfl
@[simp] theorem Dev.setFiring_queues (d : Dev) (n e : Nat) (v : Firing) : (d.setFiring n e v).queues = d.queues := rfl
@[simp] theorem Dev.setFiring_serving (d : Dev) (n e : Nat) (v : Firing) : (d.setFiring n e v).serving = d.serving := rfl
@[simp] theorem Dev.setFiring_serveAt (d : Dev) (n e : Nat) (v : Firing) : (d.setFiring n e v).serveAt = d.serveAt := rfl
@[simp] theorem Dev.setFiring_ptr (d : Dev) (n e : Nat) (v : Firing) : (d.setFiring n e v).ptr = d.ptr := rfl
@[simp] theorem Dev.setFiring_kerf (d : Dev) (n e : Nat) (v : Firing) : (d.setFiring n e v).kerf = d.kerf := rfl
@[simp] theorem Dev.setFiring_idle (d : Dev) (n e : Nat) (v : Firing) : (d.setFiring n e v).idle = d.idle := rfl
@[simp] theorem Dev.setFiring_periods (d : Dev) (n e : Nat) (v : Firing) : (d.setFiring n e v).periods = d.periods := rfl
@[simp] theorem Dev.setFiring_gwr (d : Dev) (n e : Nat) (v : Firing) : (d.setFiring n e v).gwr = d.gwr := rfl
@[simp] theorem Dev.setFiring_grd (d : Dev) (n e : Nat) (v : Firing) : (d.setFiring n e v).grd = d.grd := rfl
@[simp] theorem Dev.setFiring_gdropped (d : Dev) (n e : Nat) (v : Firing) : (d.setFiring n e v).gdropped = d.gdropped := rfl
@[simp] theorem Dev.setFiring_garmed (d : Dev) (n e : Nat) (v : Firing) : (d.setFiring n e v).garmed = d.garmed := rfl
@[simp] theorem Dev.setFiring_gvec0 (d : Dev) (n e : Nat) (v : Firing) : (d.setFiring n e v).gvec0 = d.gvec0 := rfl
@[simp] theorem Dev.setFiring_gvec1 (d : Dev) (n e : Nat) (v : Firing) : (d.setFiring n e v).gvec1 = d.gvec1 := rfl
@[simp] theorem Dev.setFiring_glog (d : Dev) (n e : Nat) (v : Firing) : (d.setFiring n e v).glog = d.glog := rfl
@[simp] theorem Dev.setFiring_recSeq (d : Dev) (n e : Nat) (v : Firing) : (d.setFiring n e v).recSeq = d.recSeq := rfl
@[simp] theorem Dev.setFiring_secs (d : Dev) (n e : Nat) (v : Firing) : (d.setFiring n e v).secs = d.secs := rfl
@[simp] theorem Dev.setFiring_nanos (d : Dev) (n e : Nat) (v : Firing) : (d.setFiring n e v).nanos = d.nanos := rfl
@[simp] theorem Dev.setFiring_frac (d : Dev) (n e : Nat) (v : Firing) : (d.setFiring n e v).frac = d.frac := rfl
@[simp] theorem Dev.setFiring_slew (d : Dev) (n e : Nat) (v : Firing) : (d.setFiring n e v).slew = d.slew := rfl
@[simp] theorem Dev.setFiring_half (d : Dev) (n e : Nat) (v : Firing) : (d.setFiring n e v).half = d.half := rfl
@[simp] theorem Dev.setFiring_reference (d : Dev) (n e : Nat) (v : Firing) : (d.setFiring n e v).reference = d.reference := rfl
@[simp] theorem Dev.setFiring_ports (d : Dev) (n e : Nat) (v : Firing) : (d.setFiring n e v).ports = d.ports := rfl
@[simp] theorem Dev.setFiring_outs (d : Dev) (n e : Nat) (v : Firing) : (d.setFiring n e v).outs = d.outs := rfl
@[simp] theorem Dev.setFiring_ioWait (d : Dev) (n e : Nat) (v : Firing) : (d.setFiring n e v).ioWait = d.ioWait := rfl
@[simp] theorem Dev.setFiring_ins (d : Dev) (n e : Nat) (v : Firing) : (d.setFiring n e v).ins = d.ins := rfl
@[simp] theorem Dev.setFiring_remotes (d : Dev) (n e : Nat) (v : Firing) : (d.setFiring n e v).remotes = d.remotes := rfl
@[simp] theorem Dev.setFiring_endpoint (d : Dev) (n e : Nat) (v : Firing) : (d.setFiring n e v).endpoint = d.endpoint := rfl
@[simp] theorem Dev.setFiring_hstacks (d : Dev) (n e : Nat) (v : Firing) : (d.setFiring n e v).hstacks = d.hstacks := rfl
@[simp] theorem Dev.setFiring_rates (d : Dev) (n e : Nat) (v : Firing) : (d.setFiring n e v).rates = d.rates := rfl
@[simp] theorem Dev.setFiring_late (d : Dev) (n e : Nat) (v : Firing) : (d.setFiring n e v).late = d.late := rfl
@[simp] theorem Dev.setFiring_owed (d : Dev) (n e : Nat) (v : Firing) : (d.setFiring n e v).owed = d.owed := rfl
@[simp] theorem Dev.setFiring_lostWrites (d : Dev) (n e : Nat) (v : Firing) : (d.setFiring n e v).lostWrites = d.lostWrites := rfl

/-! ## The machine -/

@[simp] theorem State.mapDev_moves (s : State) (f : Dev → Dev) : (s.mapDev f).moves = s.moves := rfl
@[simp] theorem State.mapDev_mgmt (s : State) (f : Dev → Dev) : (s.mapDev f).mgmt = s.mgmt := rfl
@[simp] theorem State.mapDev_dev (s : State) (f : Dev → Dev) : (s.mapDev f).dev = f s.dev := rfl
@[simp] theorem State.mapMgmt_moves (s : State) (f : Mgmt → Mgmt) : (s.mapMgmt f).moves = s.moves := rfl
@[simp] theorem State.mapMgmt_mgmt (s : State) (f : Mgmt → Mgmt) : (s.mapMgmt f).mgmt = f s.mgmt := rfl
@[simp] theorem State.mapMgmt_dev (s : State) (f : Mgmt → Mgmt) : (s.mapMgmt f).dev = s.dev := rfl
@[simp] theorem State.onDev_eq (s : State) (f : Dev → Dev) : s.onDev f = .next { s with dev := f s.dev } := rfl

/-- A message is sent or lost; nothing else changes. -/
theorem Dev.notify_cases (d : Dev) (n : Notice) : d.notify n = d ∨ d.notify n = { d with notices := d.notices ++ [n] } := by
  have key : ∀ gone : Bool, (if gone = true then d else { d with notices := d.notices ++ [n] }) = d ∨
      (if gone = true then d else { d with notices := d.notices ++ [n] }) = { d with notices := d.notices ++ [n] } := by
    intro gone
    cases gone
    · exact .inr rfl
    · exact .inl rfl
  exact key _

/-! ## What is read after a table was changed -/

theorem Dev.queue_setQueue (d : Dev) (q k : Nat) (v : Queue) : (d.setQueue q v).queue k = if k = q then v else d.queue k :=
  AMap.get_set Queue.blank d.queues q k v

theorem Dev.join_setJoin (d : Dev) (c k : Nat) (j : Join) : (d.setJoin c j).join k = if k = c then j else d.join k :=
  AMap.get_set Join.blank d.joins c k j

theorem Dev.kerfAt_setKerf (d : Dev) (n k : Nat) (v : KerfDie) : (d.setKerf n v).kerfAt k = if k = n then v else d.kerfAt k :=
  AMap.get_set KerfDie.blank d.kerf n k v

theorem Dev.port_setPort (d : Dev) (p k : Nat) (v : Port) : (d.setPort p v).port k = if k = p then v else d.port k :=
  AMap.get_set Port.blank d.ports p k v

theorem Dev.out_setOut (d : Dev) (p k : Nat) (v : PeerOut) : (d.setOut p v).out k = if k = p then v else d.out k :=
  AMap.get_set PeerOut.blank d.outs p k v

theorem Dev.in_setIn (d : Dev) (p k : Nat) (v : PeerIn) : (d.setIn p v).in_ k = if k = p then v else d.in_ k :=
  AMap.get_set PeerIn.blank d.ins p k v

end Sys2Proof.Machine
end

