-- ==== Sys2Proof/Tests/Slice0.lean ====
section
/-! SUPPORT. Own tests: decoding and well-formedness, results worked out from the spec's text and examples, and for every statement
with hypotheses a state and operands that meet them. -/

set_option Elab.async false

open Sys2Proof Sys2Proof.Machine

namespace Sys2Proof.Tests

/-! ## States of the tests -/

abbrev c : Ctl := Ctl.always
abbrev g (n : BitVec 9) : Operand := .file .g n
abbrev y (n : BitVec 9) : Operand := .file .y n
abbrev p (n : BitVec 9) : Operand := .file .p n
abbrev x (n : BitVec 9) : Operand := .file .x n
abbrev h (n : BitVec 9) : Operand := .file .h n
abbrev t (n : BitVec 9) : Operand := .file .t n
abbrev sr (n : BitVec 9) : Operand := .file .sr n

/-- Every word decodes to its instruction. -/
def reads (l : List (Nat × Instr)) : Bool := l.all fun e => decodeTableWord 96 e.1 == some e.2

/-- Slots of a value of 64 bits from slot 2k on. -/
def e64 (k v : Nat) : AMap Word := [(2 * k, BitVec.ofNat 32 v), (2 * k + 1, BitVec.ofNat 32 (v / 2 ^ 32))]

/-- Slots from k on that hold the words of a list. -/
def words (k : Nat) (l : List Nat) : AMap Word :=
  ((l.zip (List.range l.length)).filter fun v => v.1 % 2 ^ 32 != 0).map fun v => (k + v.2, BitVec.ofNat 32 v.1)

/-- A state with its machine changed. -/
def dev (f : Dev → Dev) (s : State) : State := { s with dev := f s.dev }

/-- The host's registers changed. -/
def regs (f : Mgmt → Mgmt) (s : State) : State := { s with mgmt := f s.mgmt }

def team (f : Team → Team) : State → State := dev fun d => d.mapTeam 0 f
def group (f : Group → Group) : State → State := dev fun d => d.mapGroup 0 0 f
def lane (k : Nat) (f : Thread → Thread) : State → State := dev fun d => d.mapThread ⟨0, 0, k⟩ f

/-- A machine with one team of one group on core 0, its code and page tables in place. -/
def start : State := { State.reset.withFetchWord 96 0 with moves := [] }

/-- Its lane 0 about to issue, with slots set. -/
def solo (l : AMap Word) : State := dev (fun d => { d with cur := .run 0 0 [0] [] 0 }) (lane 0 (fun h => { h with bank := l }) start)

/-- Lanes 0 and 1 about to issue. -/
def pair (k l : AMap Word) : State :=
  dev (fun d => { d with cur := .run 0 0 [0, 1] [] 0 })
    (lane 1 (fun h => { h with bank := l }) (lane 0 (fun h => { h with bank := k }) start))

/-- The queue thread of queue 0 about to issue, with slots set. -/
def que (l : AMap Word) : State :=
  let s := State.reset.withFetchWord 96 0xC00
  let q := s.dev.queue 0
  { s with
    moves := []
    dev := { (s.dev.setQueue 0 { q with thread := { q.thread with bank := l }, started := true }) with cur := .queue 0 [] 0 } }

/-- The state after an instruction; the same one where it stops. -/
def after (i : Instr) (s : State) : State := match exec i s with | .next u => u | _ => s

/-- `n` slots from `k` on of a lane of group 0, as a number. -/
def slotsAt (s : State) (l k n : Nat) : Nat :=
  match s.dev.thread? ⟨0, 0, l⟩ with | some h => h.slots k n | none => 0

/-- What lane 0 holds in `n` slots from `k` on after an instruction. -/
def gives (i : Instr) (s : State) (k n v : Nat) : Bool := slotsAt (after i s) 0 k n == v

/-- What lane 0 is after an instruction. -/
def ends (i : Instr) (s : State) (f : Thread → Bool) : Bool :=
  match (after i s).dev.thread? ⟨0, 0, 0⟩ with | some h => f h | none => false

/-! ## Decoding (R129 to R139, R153 to R163)

One word of every instruction, each put together from the encoding tables of the spec. -/

/-- Class 0: add, sub, multiply, shifts, counts, bit fields. -/
theorem test_decode_class0 : reads
    [(0x02FFFFB00001000003217000, .add c .w32 .signed (g 3) (g 4) (.imm 0xFFFFB)),
     (0x000000300000800001207005, .sub c .w64 .unsigned (g 1) (g 2) (g 3)),
     (0x00000030000080000100700A, .mul c .w16 (g 1) (g 2) (g 3)),
     (0x00000030000080000100700D, .mulHiI c .w64 (g 1) (g 2) (g 3)),
     (0x000000300000800001007010, .mulHiN c .w32 (g 1) (g 2) (g 3)),
     (0x000000300000800001007014, .mad c .w32 (g 1) (g 2) (g 3)),
     (0x00000030000080000100701B, .minI c .w8 (g 1) (g 2) (g 3)),
     (0x00000030000080000100701E, .minN c .w16 (g 1) (g 2) (g 3)),
     (0x000000300000800001007020, .maxI c .w32 (g 1) (g 2) (g 3)),
     (0x000000300000800001007025, .maxN c .w64 (g 1) (g 2) (g 3)),
     (0x020001F00000800001007028, .shl c .w32 (g 1) (g 2) (.imm 0x1F)),
     (0x00000030000080000100702D, .shrN c .w64 (g 1) (g 2) (g 3)),
     (0x000000300000800001007033, .shrI c .w8 (g 1) (g 2) (g 3)),
     (0x000000300000800001007034, .rol c .w32 (g 1) (g 2) (g 3)),
     (0x010B80042C001080801B7038, .lop3 c .w32 0x1B (.ind 2 0 true) (.ind 2 48 false) (.ind 2 56 false)),
     (0x00E00000000080000100703C, .popc c .w32 (g 1) (g 2) .none),
     (0x00E000000000800001007041, .clz c .w64 (g 1) (g 2) .none),
     (0x00E000000000800001007044, .ctz c .w32 (g 1) (g 2) .none),
     (0x00E000000000800001007048, .brev c .w32 (g 1) (g 2) .none),
     (0x02004080000080000100704C, .bfeN c .w32 (g 1) (g 2) (.imm 0x408)),
     (0x000000300000800001007051, .bfeI c .w64 (g 1) (g 2) (g 3)),
     (0x000000300000800001007054, .bfi c .w32 (g 1) (g 2) (g 3)),
     (0x000000300000800001057059, .lea c .w64 5 (g 1) (g 2) (g 3)),
     (0x00000030000084000102705F, .cmpI c .w8 .lt (p 1) (g 2) (g 3)),
     (0x033000900000840002057060, .cmpN c .w32 .ge (p 2) (g 2) (.cbank 3 9)),
     (0x0000003000008000010B7066, .sel c .w16 true 3 (g 1) (g 2) (g 3)),
     (0x00E0000FC004800001007069, .mov c .w64 (g 1) (.lit 2 2) .none)] = true := by decide +kernel

/-- Class 1: scalar floating point. -/
theorem test_decode_class1 : reads
    [(0x000000300000800001007101, .addFp c .f64 .plain (g 1) (g 2) (g 3)),
     (0x0000003000008000010B7102, .subFp c .f32 ⟨false, false, true, .rup⟩ (g 1) (g 2) (g 3)),
     (0x000000300000800001257104, .mulFp c .f32 ⟨true, false, false, .sr⟩ (g 1) (g 2) (g 3)),
     (0x063FC000000100000A00B106, .fmaAcc ⟨3, true, true, 0, false, false⟩ .f32 .plain (g 10) (g 4) (.imm 0x3FC00)),
     (0x03F0003410A0000014107108, .fmaHor c .f32 ⟨false, true, false, .rne⟩ (g 20) (.ind 1 2 true) (.lit 0 3)),
     (0x00000030000080000108710A, .minFp c true (g 1) (g 2) (g 3)),
     (0x00000030000080000100710C, .maxFp c false (g 1) (g 2) (g 3)),
     (0x0000003000008400040E710F, .cmpFp c .f64 true .unord (p 4) (g 2) (g 3)),
     (0x00E000000000800001007110, .classFp c (g 1) (g 2) .none)] = true := by decide +kernel

/-- Class 2: packets. -/
theorem test_decode_class2 : reads
    [(0x000000300000800001007201, .addPkt c .f16x16 false .plain (g 1) (g 2) (g 3)),
     (0x00000030000080000120721D, .subPkt c .n8x32 false ⟨true, false, false, .rne⟩ (g 1) (g 2) (g 3)),
     (0x000000300000800001047222, .mulPkt c .bf16x16 false ⟨false, false, false, .rna⟩ (g 1) (g 2) (g 3)),
     (0x002000500000C00002407230, .fmaAccPkt c .f32x8 true .plain (g 2) (g 3) (y 5)),
     (0x000000300000800001017240, .fmaHorPkt c .f32x8 false ⟨false, false, false, .rtz⟩ (g 1) (g 2) (g 3)),
     (0x000000300000800001007258, .minPkt c .i32x8 false .plain (g 1) (g 2) (g 3)),
     (0x000000300000800001407269, .maxPkt c .n32x8 true .plain (g 1) (g 2) (g 3)),
     (0x00000030000080000103727A, .cmpPkt c .i16x16 false .le (g 1) (g 2) (g 3)),
     (0x000000300000800001007287, .dot c .e2m1x64 false .plain (g 1) (g 2) (g 3)),
     (0x00E000000000800001027290, .hsum c .f32x8 false ⟨false, false, false, .rdn⟩ (g 1) (g 2) .none),
     (0x00E0000000008000010872A1, .hmax c .f16x16 false ⟨false, false, true, .rne⟩ (g 1) (g 2) .none),
     (0x00E0000000008000014072B0, .omse c true (g 1) (g 2) .none)] = true := by decide +kernel

/-- A negated A of an element sum is read (R174, R178); the same bit in a tree sum, which names no such role, leaves the slot unassigned
(R136, R166, R181). -/
theorem test_decode_negate :
    decodeTableWord 96 0x000000304000800001007201 = some (.addPkt c .f16x16 false .plain (g 1) (.reg .g true false 2) (g 3)) ∧
    decodeTableWord 96 0x00E000004000800001027290 = none := by decide +kernel

/-- Class 3: permutes, spectra, random numbers. -/
theorem test_decode_class3 : reads
    [(0x000000300000800001007300, .pperm c (g 1) (g 2) (g 3)),
     (0x000000300000800001037301, .plut c true true (g 1) (g 2) (g 3)),
     (0x020000000001000005007302, .eshl c .e32 (g 5) (g 4) (.imm 0x0)),
     (0x000000300000800001407303, .eshr c .e16 (g 1) (g 2) (g 3)),
     (0x000000300000800001807304, .bcast c .e8 (g 1) (g 2) (g 3)),
     (0x000000300000800001C07305, .esel c .e4 (g 1) (g 2) (g 3)),
     (0x000000300000800001007306, .eins c .e32 (g 1) (g 2) (g 3)),
     (0x000000300000800001407307, .eext c .e16 (g 1) (g 2) (g 3)),
     (0x002000200001800004007310, .specLerp c .plain (g 4) (g 6) (y 2)),
     (0x000000300000800001407311, .specCie c true .plain (g 1) (g 2) (g 3)),
     (0x000000300000800001807312, .specMueller c 2 .plain (g 1) (g 2) (g 3)),
     (0x00E000038000000001C07320, .prng c .f32x8 (g 1) .none .none)] = true := by decide +kernel

/-- Class 4: special functions, quantisers, conversions. -/
theorem test_decode_class4 : reads
    [(0x00E000000000800001007400, .sfuRcp c .f32 .plain (g 1) (g 2) .none),
     (0x00E000000000800001407401, .sfuRsqrt c .f32x8 .plain (g 1) (g 2) .none),
     (0x00E000000000800001807402, .sfuSqrt c .f16x16 .plain (g 1) (g 2) .none),
     (0x00E000000000800001C07403, .sfuExp2 c .bf16x16 .plain (g 1) (g 2) .none),
     (0x00E000000000800001007404, .sfuLog2 c .f32 .plain (g 1) (g 2) .none),
     (0x00E000000000800001007405, .sfuSin c .f32 .plain (g 1) (g 2) .none),
     (0x00E000000000800001407406, .sfuCos c .f32x8 .plain (g 1) (g 2) .none),
     (0x00E000000000800001007407, .sfuTanh c .f32 .plain (g 1) (g 2) .none),
     (0x00E000000000800001807408, .sfuSigm c .f16x16 .plain (g 1) (g 2) .none),
     (0x00E000000000800001007409, .sfuErf c .f32 .plain (g 1) (g 2) .none),
     (0x00E00000000080000100740A, .sfuGelu c .f32 .plain (g 1) (g 2) .none),
     (0x00E000000000800001C0740B, .sfuSilu c .bf16x16 .plain (g 1) (g 2) .none),
     (0x000002800000000008207420, .mxqE4M3 c ⟨true, false, false, .rne⟩ (g 8) (g 0) (g 40)),
     (0x000002800001000001007421, .mxqE5M2 c .plain (g 1) (g 4) (g 40)),
     (0x000002800001000001007422, .mxqE3M2 c .plain (g 1) (g 4) (g 40)),
     (0x000002800001000001007423, .mxqE2M3 c .plain (g 1) (g 4) (g 40)),
     (0x000002800001000001407424, .mxqE2M1 c true .plain (g 1) (g 4) (g 40)),
     (0x000002800001000001007425, .mxqI8 c .plain (g 1) (g 4) (g 40)),
     (0x00E000000000800001007460, .cvtScalar c .i32 .f32 .plain (g 1) (g 2) .none),
     (0x00E000000000800004407490, .cvtPacket c .bf16x16 .f32x8 1 .plain (g 4) (g 2) .none)] = true := by decide +kernel

/-- Class 5: run collectives and control flow. -/
theorem test_decode_class5 : reads
    [(0x020000100000400002067500, .shfl c .b64 .flip (g 2) (g 1) (.imm 0x1)),
     (0x00E000010000C00002027501, .vote c .mask (g 2) (p 3) .none),
     (0x00E000000000400002057502, .matchV c true .lead (g 2) (g 1) .none),
     (0x00E000000000400002097503, .scan c true .addF32 (g 2) (g 1) .none),
     (0x0200001000004E0000007504, .regroup c .none (g 1) (.imm 0x1)),
     (0x00E0000BFFFE4E0000007510, .bra c .none (.imm 0xFFFF9) .none),
     (0x00E0000000024E0000007511, .brx c .none (g 9) .none),
     (0x00E000080005000009007512, .call c (g 9) (.imm 0x14) .none),
     (0x00E0000000024E0000007513, .ret c .none (g 9) .none),
     (0x00E0000BFFFF420004007514, .loop c (y 4) (.imm 0xFFFFD) .none),
     (0x00E0000000004E0000007515, .rep c .none (g 1) .none),
     (0x00E0000380000E0000007516, .exit c .none .none .none),
     (0x00E0000380000E0000007517, .yield c .none .none .none),
     (0x00E0000380000E0000007518, .nop c .none .none .none)] = true := by decide +kernel

/-- Class 6: predicates, register units, index registers. -/
theorem test_decode_class6 : reads
    [(0x0040003100008400017F7600, .plop3 c 0x7F (p 1) (p 2) (p 3)),
     (0x00E000038000000006007602, .pget c (g 6) .none .none),
     (0x020007F00001840000007603, .pset c (p 0) (g 6) (.imm 0x7F)),
     (0x00E0000800008E0000007610, .racq c .none (.imm 0x2) .none),
     (0x00E0000800008E0000007611, .rrel c .none (.imm 0x2) .none),
     (0x00E000000001060003017620, .xset c .cur (x 3) (g 4) .none),
     (0x00E000018000C00004057621, .xget c .view (g 4) (x 3) .none)] = true := by decide +kernel

/-- Class 7: local memory. -/
theorem test_decode_class7 : reads
    [(0x020001008001800004007703, .ld c .b64 (g 4) (y 6) (.imm 0x10)),
     (0x00000010800000000200770A, .st c .b32 (g 2) (y 0) (g 1)),
     (0x00000030800000000A287710, .atomExch c .rlx .die .b32 (g 10) (y 0) (g 3)),
     (0x00000030800000000A517711, .atomCas c .acq .team .b64 (g 10) (y 0) (g 3)),
     (0x00000030800000000AA47712, .atomAdd c .rel .clu .n32 (g 10) (y 0) (g 3)),
     (0x00000030800000000ADA7713, .atomMin c .acqrel .pair .i32 (g 10) (y 0) (g 3)),
     (0x00000030800000000A2D7714, .atomMax c .rlx .die .n64 (g 10) (y 0) (g 3)),
     (0x00000030800000000A507715, .atomAnd c .acq .team .b32 (g 10) (y 0) (g 3)),
     (0x00000030800000000AA07716, .atomOr c .rel .clu .b32 (g 10) (y 0) (g 3)),
     (0x00000030800000000AD97717, .atomXor c .acqrel .pair .b64 (g 10) (y 0) (g 3))] = true := by decide +kernel

/-- Class 8: glob. -/
theorem test_decode_class8 : reads
    [(0x020004008001800002007805, .stG c .b256 (g 2) (y 6) (.imm 0x40)),
     (0x0200008080018000043E7810, .redGAdd c .rlx .sys .f32 (g 4) (y 6) (.imm 0x8)),
     (0x020000808001800004BA7811, .redGMin c .rel .sys .i32 (g 4) (y 6) (.imm 0x8)),
     (0x0200008080018000043D7812, .redGMax c .rlx .sys .n64 (g 4) (y 6) (.imm 0x8)),
     (0x020000808001800004B97813, .redGAnd c .rel .sys .b64 (g 4) (y 6) (.imm 0x8)),
     (0x020000808001800004387814, .redGOr c .rlx .sys .b32 (g 4) (y 6) (.imm 0x8)),
     (0x020000808001800004B87815, .redGXor c .rel .sys .b32 (g 4) (y 6) (.imm 0x8)),
     (0x0200008080018000043E7816, .redGKahan c .rlx .sys .f32 (g 4) (y 6) (.imm 0x8)),
     (0x02000010800180000A797820, .atomGExch c .acq .sys .b64 (g 10) (y 6) (.imm 0x1)),
     (0x02000010800180000AF87821, .atomGCas c .acqrel .sys .b32 (g 10) (y 6) (.imm 0x1)),
     (0x02000010800180000A3D7822, .atomGAdd c .rlx .sys .n64 (g 10) (y 6) (.imm 0x1)),
     (0x0200080080018E0000287830, .redCommit c .rlx .die .none (y 6) (.imm 0x80))] = true := by decide +kernel

/-- Class 9: synchronisation. -/
theorem test_decode_class9 : reads
    [(0x00E0000380000E0000F87900, .fence c .acqrel .sys .none .none .none),
     (0x00E0000800000E0000007910, .barTeam c .none (.imm 0x0) .none),
     (0x020000480000CE0000007911, .barPair c .none (.imm 0x3) (.imm 0x4)),
     (0x002000180003CE0000007912, .barClu c .none (.imm 0xF) (y 1)),
     (0x0000003080008E0000807913, .barSys c true .none (y 2) (g 3)),
     (0x0200009080008E0000027920, .wait c .ge .none (y 2) (.imm 0x9)),
     (0x0000002000004E0000007930, .qpush c .none (g 1) (g 2)),
     (0x00E000000000400002007931, .qpop c (g 2) (g 1) .none)] = true := by decide +kernel

/-- Class A: jobs and units. -/
theorem test_decode_classA : reads
    [(0x00E000000001080002017A00, .jpostCopy c true (h 2) (g 4) .none),
     (0x00E0000000010E0000007A01, .jpostGather c false .none (g 4) .none),
     (0x00E00000000108000F007A02, .jpostMma c false (h 15) (g 4) .none),
     (0x00E000000001080000017A03, .jpostMmaGather c true (h 0) (g 4) .none),
     (0x00E0000000010E0000007A04, .jpostEpilogue c false .none (g 4) .none),
     (0x00E000020000800001007A10, .jwait c (g 1) (h 2) .none),
     (0x00E000020000840001007A11, .jtest c (p 1) (h 2) .none),
     (0x00E0000200008E0000007A12, .jcancel c .none (h 2) .none),
     (0x020000808000880002007A13, .hstore c (h 2) (y 2) (.imm 0x8)),
     (0x020000808000880002007A14, .hload c (h 2) (y 2) (.imm 0x8)),
     (0x00E000028000C40001007A20, .tacq c (p 1) (t 3) .none),
     (0x00E000028000CE0000007A21, .trel c .none (t 3) .none),
     (0x00E000028000C00001007A22, .tstat c (g 1) (t 3) .none),
     (0x000000928000000006007A23, .tld c (g 6) (t 0) (g 9)),
     (0x0000009000018A0000007A24, .tst c (t 0) (g 6) (g 9)),
     (0x030000000000800004007A30, .trace c (g 4) (g 2) (.cbank 0 0)),
     (0x020000000002400004007A31, .traceResume c (g 4) (g 9) (.imm 0x0)),
     (0x0200000000014000068B7A38, .stex c (.mueller 2 3) (g 6) (g 5) (.imm 0x0)),
     (0x00E000000002400004007A40, .shcProbe c (g 4) (g 9) .none),
     (0x0000004000024E0000007A41, .shcFill c .none (g 9) (g 4)),
     (0x0206005C0000000002007A50, .collArm c (g 2) (.cbank 0 0) (.imm 0x6005)),
     (0x00E000008000CE0000007A51, .collReady c .none (y 3) .none)] = true := by decide +kernel

/-- Class B: system. -/
theorem test_decode_classB : reads
    [(0x00E000038000000004007B00, .dtime c (g 4) .none .none),
     (0x00E000080001400004007B01, .sysr c (g 4) (.imm 0x5) .none),
     (0x00E0000000010C0010007B02, .sysw c (sr 16) (g 4) .none),
     (0x00E0000800014E0000007B10, .trap c .none (.imm 0x5) .none),
     (0x00E0000380000E0000007B11, .tret c .none .none .none),
     (0x00E000080000CE0000007B12, .brk c .none (.imm 0x3) .none)] = true := by decide +kernel

/-- Class C: control cores. -/
theorem test_decode_classC : reads
    [(0x00E0000000008E0000007C00, .launch c .none (g 2) .none),
     (0x0000000000008E0000007C01, .semWaitGe c .none (g 2) (g 0)),
     (0x0000000000008E0000017C02, .semSig c true .none (g 2) (g 0)),
     (0x00E0000000008E0000007C03, .ttrig c .none (g 2) .none),
     (0x00E000080001CE0000007C04, .intr c .none (.imm 0x7) .none),
     (0x00E000038000000000007C05, .qnext c (g 0) .none .none)] = true := by decide +kernel

/-! ## Ill-formed instructions (R66, R136, R141, R153 to R164)

Each list has one instruction for every check that it violates alone. -/

/-- Widths, shapes, modifier fields and types that have no encoding. -/
theorem test_illformed_modifiers :
    ([.mulHiI c .w16 (g 1) (g 2) (g 3), .lop3 c .w8 0 (g 1) (g 2) (g 3), .popc c .w16 (g 1) (g 2) .none, .lea c .w8 0 (g 1) (g 2) (g 3),
      .cmpI c .w32 .unord (p 1) (g 2) (g 3), .cmpN c .w32 .ord (p 1) (g 2) (g 3),
      .addPkt c .e4m3x32 false .plain (g 1) (g 2) (g 3), .addPkt c .f16x16 true .plain (g 1) (g 2) (g 3),
      .addPkt c .i16x16 false ⟨false, true, false, .rne⟩ (g 1) (g 2) (g 3), .fmaAccPkt c .i32x8 false .plain (g 1) (g 2) (g 3),
      .mulPkt c .i8x32 true .plain (g 1) (g 2) (g 3), .minPkt c .f32x8 false ⟨true, false, false, .rne⟩ (g 1) (g 2) (g 3),
      .maxPkt c .i32x8 false ⟨true, false, false, .rne⟩ (g 1) (g 2) (g 3), .cmpPkt c .i32x8 true .lt (g 1) (g 2) (g 3),
      .cmpPkt c .n16x16 false .unord (g 1) (g 2) (g 3), .dot c .e2m1x64 true .plain (g 1) (g 2) (g 3),
      .hsum c .i32x8 false .plain (g 1) (g 2) .none, .hmax c .f32x8 false ⟨false, false, true, .rtz⟩ (g 1) (g 2) .none,
      .sfuExp2 c .f32 ⟨false, false, false, .rtz⟩ (g 1) (g 2) .none, .sfuSin c .f32x8 ⟨false, false, false, .sr⟩ (g 1) (g 2) .none,
      .cvtScalar c .f32 .f32 .plain (g 1) (g 2) .none, .cvtPacket c .f32x8 .f32x8 0 .plain (g 1) (g 2) .none,
      .cvtPacket c .bf16x16 .f32x8 2 .plain (g 1) (g 2) .none, .cvtPacket c .e2m1x64 .f32x8 0 .plain (g 1) (g 2) .none,
      .atomExch c .rlx .die .n32 .none (g 2) (g 4), .atomAdd c .rlx .die .b32 .none (g 2) (g 4), .atomMax c .rlx .die .f64 .none (g 2) (g 4),
      .redGAdd c .acq .sys .f32 (g 1) (g 2) (.imm 0), .redGAdd c .rlx .sys .b32 (g 1) (g 2) (.imm 0),
      .redGAnd c .rlx .sys .n32 (g 1) (g 2) (.imm 0), .redGKahan c .rlx .sys .f64 (g 1) (g 2) (.imm 0),
      .atomGCas c .rlx .sys .f32 (g 1) (g 2) (g 4), .atomGAdd c .rlx .sys .b64 (g 1) (g 2) (g 4),
      .redCommit c .acqrel .sys .none (g 2) (.imm 0), .fence c .rlx .sys .none .none .none] : List Instr).all (fun i => !i.wellFormed) = true := by
  decide +kernel

/-- Operands that their roles do not accept. -/
theorem test_illformed_operands :
    ([.nop c (g 0) .none .none, .mov c .w32 .none (g 1) .none, .mov c .w32 (.reg .g true false 1) (g 1) .none, .mov c .w32 (p 1) (g 1) .none,
      .mov c .w64 (g 256) (g 1) .none, .mov c .w64 (y 3) (g 1) .none, .mov c .w32 (y 64) (g 1) .none, .mov c .w32 (sr 0) (g 1) .none,
      .mov c .w32 (g 1) (.reg .g true false 1) .none, .mov c .w32 (g 1) (sr 11) .none, .mov c .w64 (g 1) (sr 0) .none,
      .mov c .w64 (g 1) (sr 17) .none, .mov c .w32 (g 1) (.cbank 15 0) .none, .mov c .w64 (g 1) (.cbank 0 1) .none,
      .mov c .w32 (g 1) (.lit 2 1) .none, .mov c .w32 (g 1) (.lit 0 0) .none, .mov c .w64 (g 1) (.lit 0 1) .none,
      .addPkt c .bf16x16 false .plain (g 1) (g 2) (.imm 1), .addPkt c .f16x16 false .plain (g 1) (g 2) (.imm 0x10000),
      .dot c .e4m3x32 false .plain (g 1) (g 2) (.imm 0x100), .dot c .e3m2x32 false .plain (g 1) (g 2) (.imm 0x40),
      .dot c .e2m1x64 false .plain (g 1) (g 2) (.imm 0x10), .addPkt c .i32x8 false .plain (g 64) (g 2) (g 3),
      .addPkt c .i32x8 false .plain (y 1) (g 2) (g 3), .addPkt c .i32x8 false .plain (g 1) (sr 16) (g 3),
      .addPkt c .i32x8 false .plain (g 1) (.reg .g false true 2) (g 3), .prng c .b32 (y 1) .none .none,
      .cmpN c .w32 .eq (g 1) (g 2) (g 3), .cmpN c .w32 .eq (p 8) (g 2) (g 3), .pset c (p 1) (g 2) (g 3),
      .specLerp c .plain (g 1) (g 63) (g 3), .xget c .whole (g 1) (x 8) .none, .jwait c (g 1) (h 16) .none, .tacq c (p 1) (t 8) .none,
      .ld c .b128 (g 3) (g 2) (.imm 0), .st c .b128 (g 256) (g 2) (.imm 0), .intr c .none (h 1) .none, .racq c .none (.imm 0) .none,
      .racq c .none (.imm 5) .none, .bra c .none (g 1) .none, .sysw c (sr 18) (g 2) .none, .sysr c (g 2) (.imm 8) .none,
      .jpostCopy c false (g 1) (g 2) .none, .trap c .none (.imm 0x10000) .none] : List Instr).all (fun i => !i.wellFormed) = true := by
  decide +kernel

/-! ## Results -/

/-- R172's example: position 8, length 4. -/
theorem test_bfe_example :
    gives (.bfeN c .w32 (g 1) (g 2) (g 3)) (solo [(2, 0x0F00), (3, 0x0408)]) 1 1 0xF &&
    gives (.bfeI c .w32 (g 1) (g 2) (g 3)) (solo [(2, 0x0F00), (3, 0x0408)]) 1 1 0xFFFFFFFF &&
    gives (.bfi c .w32 (g 1) (g 2) (g 3)) (solo [(1, 0x12345678), (2, 0x0F00), (3, 0x0408)]) 1 1 0x12345078 = true := by decide +kernel

/-- R173: 127 + 1 saturates to 127 as signed bytes, 3 − 5 to 0 as unsigned halfwords, and −2 wraps. -/
theorem test_add_sub_saturate :
    gives (.add c .w8 .signed (g 1) (g 2) (.imm 1)) (solo [(2, 0x7F)]) 1 1 0x7F &&
    gives (.sub c .w16 .unsigned (g 1) (g 2) (.imm 5)) (solo [(2, 3)]) 1 1 0 &&
    gives (.sub c .w64 .wrap (g 1) (g 2) (.imm 5)) (solo [(4, 3)]) 2 2 0xFFFFFFFFFFFFFFFE = true := by decide +kernel

/-- R171: the high half of −1 · 2 is −1 as signed numbers, 1 as unsigned ones; mad 3 · 5 + 7; lea 7 + 3 · 16. -/
theorem test_products :
    gives (.mulHiI c .w32 (g 1) (g 2) (.imm 2)) (solo [(2, 0xFFFFFFFF)]) 1 1 0xFFFFFFFF &&
    gives (.mulHiN c .w32 (g 1) (g 2) (.imm 2)) (solo [(2, 0xFFFFFFFF)]) 1 1 1 &&
    gives (.mad c .w32 (g 1) (g 2) (.imm 5)) (solo [(1, 7), (2, 3)]) 1 1 22 &&
    gives (.lea c .w32 4 (g 1) (g 2) (.imm 3)) (solo [(2, 7)]) 1 1 55 = true := by decide +kernel

/-- R171: a shift by the width or more gives zeros, or the sign; a rotation takes its count modulo the width. -/
theorem test_shifts :
    gives (.shl c .w32 (g 1) (g 2) (.imm 32)) (solo [(2, 1)]) 1 1 0 &&
    gives (.shrN c .w32 (g 1) (g 2) (.imm 31)) (solo [(2, 0x80000000)]) 1 1 1 &&
    gives (.shrI c .w32 (g 1) (g 2) (.imm 40)) (solo [(2, 0x80000000)]) 1 1 0xFFFFFFFF &&
    gives (.rol c .w32 (g 1) (g 2) (.imm 36)) (solo [(2, 0x80000001)]) 1 1 0x18 = true := by decide +kernel

/-- R138, R171: the table of d xor a xor b; population, zeros and reversal of 0x00F0. -/
theorem test_bits :
    gives (.lop3 c .w32 0x69 (g 1) (g 2) (g 3)) (solo [(1, 0xFF00), (2, 0xF0F0), (3, 0xAAAA)]) 1 1 0xA55A &&
    gives (.popc c .w32 (g 1) (g 2) .none) (solo [(2, 0xF0)]) 1 1 4 && gives (.clz c .w32 (g 1) (g 2) .none) (solo [(2, 0xF0)]) 1 1 24 &&
    gives (.ctz c .w32 (g 1) (g 2) .none) (solo [(2, 0xF0)]) 1 1 4 && gives (.ctz c .w64 (g 2) (g 3) .none) (solo []) 4 2 64 &&
    gives (.brev c .w32 (g 1) (g 2) .none) (solo [(2, 0xF0)]) 1 1 0x0F000000 = true := by decide +kernel

/-- R171, R173: the least of −1 and 1 as signed and as unsigned numbers, and their comparison. -/
theorem test_order :
    gives (.minI c .w32 (g 1) (g 2) (.imm 1)) (solo [(2, 0xFFFFFFFF)]) 1 1 0xFFFFFFFF &&
    gives (.minN c .w32 (g 1) (g 2) (.imm 1)) (solo [(2, 0xFFFFFFFF)]) 1 1 1 &&
    gives (.maxI c .w32 (g 1) (g 2) (.imm 1)) (solo [(2, 0xFFFFFFFF)]) 1 1 1 &&
    ends (.cmpI c .w32 .lt (p 2) (g 2) (.imm 1)) (solo [(2, 0xFFFFFFFF)]) (fun h => h.p == 4) &&
    ends (.cmpN c .w32 .lt (p 2) (g 2) (.imm 1)) (solo [(2, 0xFFFFFFFF)]) (fun h => h.p == 0) = true := by decide +kernel

/-- R167's example: `add.i32 y1, y1, g2` over three threads with 1, 2 and 3 leaves 13. -/
theorem test_uniform_register_sum :
    let s := dev (fun d => { d with cur := .run 0 0 [0, 1, 2] [] 0 })
      (group (fun g => { g with y := [(1, 10)] }) (lane 2 (fun h => { h with bank := [(2, 3)] }) (pair [(2, 1)] [(2, 2)])))
    (((after (.add c .w32 .wrap (y 1) (y 1) (g 2)) s).dev.group? 0 0).map (·.y)) = some [(1, 13)] := by decide +kernel

/-- The example after R176: the fused product rounds once, product and sum twice. -/
theorem test_fused_product :
    gives (.fmaAcc c .f32 .plain (g 1) (g 2) (g 2)) (solo [(1, 0xBF801000), (2, 0x3F800800)]) 1 1 0x33800000 &&
    gives (.mulFp c .f32 .plain (g 1) (g 2) (g 2)) (solo [(2, 0x3F800800)]) 1 1 0x3F801000 &&
    gives (.addFp c .f32 .plain (g 1) (g 2) (g 1)) (solo [(1, 0xBF801000), (2, 0x3F801000)]) 1 1 0 = true := by decide +kernel

/-- R71, R176: −0 is below +0, a NaN gives the other operand, an ordered comparison with a NaN is false; classes of −0 and of a signalling NaN. -/
theorem test_special_values :
    gives (.minFp c false (g 1) (g 2) (g 3)) (solo [(3, 0x80000000)]) 1 1 0x80000000 &&
    gives (.maxFp c false (g 1) (g 2) (g 3)) (solo [(2, 0x7FC00000), (3, 0x3F800000)]) 1 1 0x3F800000 &&
    ends (.cmpFp c .f32 false .le (p 0) (g 2) (g 3)) (solo [(2, 0x7FC00000)]) (fun h => h.p == 0) &&
    gives (.classFp c (g 1) (g 2) .none) (solo [(2, 0x80000000)]) 1 1 0x20 &&
    gives (.classFp c (g 1) (g 2) .none) (solo [(2, 0x7F800001)]) 1 1 1 = true := by decide +kernel

/-- R178: a saturating byte sum, an f16 sum of 1 and 1, and elements that `.lam` masks off keep their bits. -/
theorem test_packets :
    gives (.addPkt c .n8x32 false ⟨true, false, false, .rne⟩ (g 1) (g 2) (g 3)) (solo [(16, 0x01FF), (24, 0x0101)]) 8 1 0x02FF &&
    gives (.addPkt c .f16x16 false .plain (g 1) (g 2) (g 3)) (solo [(16, 0x3C00), (24, 0x3C00)]) 8 1 0x4000 &&
    gives (.addPkt c .f32x8 true .plain (g 1) (g 2) (g 3))
      (group (fun g => { g with lambda := 0x0000010138809C40#64 }) (solo [(9, 5), (16, 0x3F800000), (17, 0x3F800000)])) 8 2
      0x000000053F800000 = true := by decide +kernel

/-- R180 to R182: 1 · 2 + 3 · 4 + 5 of integers, the sum and the largest of eight. -/
theorem test_reductions :
    gives (.dot c .i32x8 false .plain (g 1) (g 2) (g 3)) (solo ([(1, 5)] ++ words 16 [1, 3] ++ words 24 [2, 4])) 1 1 19 &&
    gives (.hsum c .f32x8 false .plain (g 1) (g 2) .none) (solo (words 16 (List.replicate 8 0x3F800000))) 1 1 0x41000000 &&
    gives (.hmax c .f32x8 false .plain (g 1) (g 2) .none) (solo (words 16 [0x3F800000, 0xC1000000, 0x40000000])) 1 1 0x40000000 = true := by
  decide +kernel

/-- R183 to R185: a byte from the end, its sign, zero; low nibbles looked up; elements moved up by one. -/
theorem test_permutes :
    gives (.pperm c (g 1) (g 2) (g 3)) (solo [(23, 0x85000000), (24, 0x00805F1F)]) 8 1 0x0000FF85 &&
    gives (.plut c false false (g 1) (g 2) (g 3)) (solo [(16, 0x0103), (24, 0x44332211)]) 8 1 0x11112244 &&
    gives (.eshl c .e32 (g 1) (g 2) (.imm 1)) (solo (words 16 [7, 8])) 8 3 (8 * 2 ^ 64 + 7 * 2 ^ 32) &&
    gives (.eins c .e16 (g 1) (g 2) (.imm 1)) (solo [(2, 0xABCD), (8, 0x11112222)]) 8 1 0xABCD2222 = true := by decide +kernel

/-- The example after R189. -/
theorem test_spectral_example :
    gives (.specLerp c .plain (g 4) (g 6) (y 2))
      (group (fun g => { g with lambda := 0x0000060138809C40#64, y := [(2, 0xFA009470)] })
        (solo (words 48 ((List.range 16).map fun j => (127 + j) * 2 ^ 23)))) 32 8
      (0x42E0000042400000 * 2 ^ 128 + 0x41A0000041000000 * 2 ^ 64 + 0x406000003FC00000) = true := by decide +kernel

/-- R70: the first two words of Philox-4x32-10 with key and counter zero, as published with the generator. -/
theorem test_random_words :
    gives (.prng c .b32x8 (g 1) .none .none) (solo []) 8 2 0xE169C58D6627E8D5 &&
    ends (.prng c .b32x8 (g 1) .none .none) (solo []) (fun h => h.pos == 8) = true := by decide +kernel

/-- R77, R79: 1/2, 2^3, √4 and sin 0 are exact; the logarithm of a negative number is the canonical NaN. -/
theorem test_special_functions :
    gives (.sfuRcp c .f32 .plain (g 1) (g 2) .none) (solo [(2, 0x40000000)]) 1 1 0x3F000000 &&
    gives (.sfuExp2 c .f32 .plain (g 1) (g 2) .none) (solo [(2, 0x40400000)]) 1 1 0x41000000 &&
    gives (.sfuSqrt c .f32 .plain (g 1) (g 2) .none) (solo [(2, 0x40800000)]) 1 1 0x40000000 &&
    gives (.sfuSin c .f32 .plain (g 1) (g 2) .none) (solo []) 1 1 0 &&
    gives (.sfuLog2 c .f32 .plain (g 1) (g 2) .none) (solo [(2, 0xBF800000)]) 1 1 0x7FC00000 = true := by decide +kernel

/-- R372, block 0: scale 0x77 and the elements of both passes. -/
theorem test_quantiser_example :
    let v := words 8 [0x3F800000, 0x3F000000, 0x3D880000, 0x3D980000, 0x37A00000, 0x36800000, 0xBF400000]
    gives (.mxqE4M3 c .plain (g 5) (g 1) (g 2)) (solo v) 40 2 0x00F400025A587078 &&
    gives (.mxqE4M3 c .plain (g 5) (g 1) (g 2)) (solo v) 2 1 0x77 &&
    gives (.mxqE4M3 c ⟨true, true, false, .rne⟩ (g 5) (g 1) (g 2)) (solo v) 40 2 0x00F400005A587078 = true := by decide +kernel

/-- R192: −1.5 and 2.5 go to the even integers, a NaN to zero or the canonical NaN. -/
theorem test_conversions :
    gives (.cvtScalar c .i32 .f32 .plain (g 1) (g 2) .none) (solo [(2, 0xBFC00000)]) 1 1 0xFFFFFFFE &&
    gives (.cvtScalar c .n32 .f32 .plain (g 1) (g 2) .none) (solo [(2, 0x40200000)]) 1 1 2 &&
    gives (.cvtScalar c .f64 .f32 .plain (g 1) (g 2) .none) (solo [(2, 0x3FC00000)]) 2 2 0x3FF8000000000000 &&
    gives (.cvtPacket c .bf16x16 .f32x8 1 .plain (g 1) (g 2) .none) (solo [(8, 7), (16, 0x3F808000)]) 8 5 (0x3F80 * 2 ^ 128 + 7) = true := by
  decide +kernel

/-- R197 to R200: lanes 0 and 1 exchange values; both are counted; lanes with the same value; sums before and with the lane. -/
theorem test_collectives :
    let s := pair [(1, 5), (2, 9)] [(1, 7), (2, 9)]
    slotsAt (after (.shfl c .b32 .flip (g 3) (g 1) (.imm 1)) s) 0 3 1 = 7 ∧ slotsAt (after (.shfl c .b32 .flip (g 3) (g 1) (.imm 1)) s) 1 3 1 = 5 ∧
    slotsAt (after (.vote c .cnt (g 3) (p 7) .none) s) 0 3 1 = 2 ∧ slotsAt (after (.matchV c false .mask (g 4) (g 2) .none) s) 1 8 2 = 3 ∧
    slotsAt (after (.scan c true .addI32 (g 3) (g 1) .none) s) 1 3 1 = 5 ∧ slotsAt (after (.scan c false .addI32 (g 3) (g 1) .none) s) 1 3 1 = 12 := by
  decide +kernel

/-- R194, R195: a predicate from two others; the mask of `pset`. -/
theorem test_predicates :
    ends (.plop3 c 0x03 (p 3) (p 0) (p 1)) (lane 0 (fun h => { h with p := 3 }) (solo [])) (fun h => h.p == 11) &&
    ends (.pset c (p 0) (.imm 0x55) (.imm 0x0F)) (lane 0 (fun h => { h with p := 0x30 }) (solo [])) (fun h => h.p == 0x35) = true := by decide +kernel

/-- R51, R52: with base 8, bound 16, view w and step 1 at 8, `w[x1+0]!` is the packet at slot 64, and the index moves to 9; R230: step −16. -/
theorem test_index_registers :
    let s := group (fun g => { g with units := 1 }) (lane 0 (fun h => { h with x := [(1, 0x0000001041002008#64)] }) (solo (words 64 [5, 6])))
    ends (.mov c .w32 (g 1) (.ind 1 0 true) .none) s (fun h => h.slot 1 == 5 && AMap.get 0 h.x 1 == 0x0000001041002009#64) &&
    gives (.xget c .step (g 1) (x 1) .none) (lane 0 (fun h => { h with x := [(1, 0x400000000#64)] }) (solo [])) 1 1 0xFFFFFFF0 &&
    ends (.xset c .cur (x 1) (.imm 0x3FF) .none) s (fun h => AMap.get 0 h.x 1 == 0x00000010410023FF#64) = true := by decide +kernel

/-- R231 to R234: the encoded displacement is in slots; `call` writes the return address; a `loop` counter of 1 falls through; a count of
0 skips the repeated slot. -/
theorem test_branches :
    let s := lane 0 (fun h => { h with pc := 20 }) (solo [(1, 9), (4, 1), (5, 3)])
    ends (.bra c .none (.imm 0xFFFF9) .none) s (fun h => h.pc == 13) &&
    ends (.brx c .none (g 1) .none) s (fun h => h.pc == 9) &&
    ends (.call c (g 2) (.imm 4) .none) s (fun h => h.pc == 24 && h.slot 2 == 21) &&
    ends (.loop c (g 4) (.imm 0xFFFFD) .none) s (fun h => h.pc == 21 && h.slot 4 == 0) &&
    ends (.loop c (g 5) (.imm 0xFFFFD) .none) s (fun h => h.pc == 17 && h.slot 5 == 2) &&
    ends (.rep c .none (g 6) .none) s (fun h => h.pc == 22 && h.rep == 0) &&
    ends (.rep c .none (g 5) .none) s (fun h => h.pc == 21 && h.rep == 0x80000003) = true := by decide +kernel

/-- R137: with its guard false an instruction only advances. -/
theorem test_false_guard :
    ends (.mov ⟨0, false, false, 0, false, false⟩ .w32 (g 1) (.imm 7) .none) (solo []) (fun h => h.slot 1 == 0 && h.pc == 1) &&
    ends (.mov ⟨0, true, false, 0, false, false⟩ .w32 (g 1) (.imm 7) .none) (solo []) (fun h => h.slot 1 == 7 && h.pc == 1) = true := by
  decide +kernel

/-- First bytes of team memory, and of die scratchpads, as generic addresses (R81). -/
def teamAt (k : Nat) : Nat := 0xFE00000000000000 + k
def dieAt (k : Nat) : Nat := 0xFC00000000000000 + k

/-- Granule 0 of die 0 is the context's. -/
def own : State → State := dev fun d => { d with owners := AMap.set 0 d.owners 0 0x80000000#32 }

/-- Team memory and scratchpad with 8 bytes at 16, and a thread with their addresses, a value and a compare value. -/
def atTeam : State := dev (fun d => { d with tmem := Memory.writeN d.tmem 16 8 0x1122334455667788 })
  (solo (e64 1 (teamAt 16) ++ e64 3 0xAABBCCDDEEFF0011 ++ e64 5 0x1122334455667788))
def atDie : State := own (dev (fun d => { d with scr := Memory.writeN d.scr 16 8 0x1122334455667788 })
  (solo (e64 1 (dieAt 16) ++ e64 3 0xAABBCCDDEEFF0011 ++ e64 5 0x1122334455667788)))

/-- The state in which the only access on its way to a die, or to team memory, has arrived. -/
def arrived (s : State) : State := after (.diePortWrite ((s.dev.scrWrites.head?.map (·.id)).getD 0)) s

/-- R206, R207: the bytes of a store, least significant first; the value a load awaits. -/
theorem test_die_memory :
    ((List.range 3).map fun k => Memory.read (arrived (after (.st c .b16 (g 6) (g 1) (.imm 0)) atDie)).dev.scr (16 + k)) = [0x11, 0x00, 0x66] ∧
    (arrived (after (.ld c .b32 (g 9) (g 1) (.imm 4)) atDie)).dev.results.map (·.value) = [some 0x11223344] := by decide +kernel

/-- An access of lane 0 on its way to team memory at 16. -/
def onWay (kind : AccKind) (s : State) : State := dev (fun d => { d with
  nextId := 2
  results := [⟨3, ⟨0, 0, 0⟩, noDest, none, [], 0, 0, true⟩]
  scrWrites := [{ id := 1, who := .thread ⟨0, 0, 0⟩ 0, ctx := 0, pc := 0, space := 2, addr := teamAt 16, key := 16, rel := none, after := [], det := false,
                  faulted := false, kind, result := some 3, ltag := 0, stamp := 0, die := 0 }] }) s

/-- R209, R210: the old value is the result; an equal compare value stores the new one; a store of one byte changes that byte. -/
theorem test_team_atomics :
    let s := arrived (onWay (.atom .cas .b64 0xAABBCCDDEEFF0011 0x1122334455667788) atTeam)
    s.dev.results.map (·.value) = [some 0x1122334455667788] ∧ Memory.readN s.dev.tmem 16 8 = 0xAABBCCDDEEFF0011 ∧
    Memory.readN (arrived (onWay (.atom .add .n32 8 0) atTeam)).dev.tmem 16 8 = 0x1122334455667790 ∧
    Memory.readN (arrived (onWay (.store 1 0x99) atTeam)).dev.tmem 16 8 = 0x1122334455667799 := by decide +kernel

/-- A handler for a cause. -/
def handled (cause : Nat) : State → State := dev fun d =>
  let d := { d with ctxs := AMap.set 0 d.ctxs 3 0x14000#64 }
  physWriteN (physWriteN d (0x14000 + 16 * cause) 8 0x15000) (0x14000 + 16 * cause + 8) 8 (100 * 2 ^ 32 + 5)

/-- Word k of lane 0's topmost frame is `v`. -/
def framed (s : State) (k v : Nat) : Bool :=
  match s.dev.team? 0 with
  | some t =>
    match t.group? 0 with
    | some g => match g.thread? 0 with | some h => stkReadN s.dev t g 0 (h.sp + 8 * k) 8 == v | none => false
    | none => false
  | none => false

/-- R82, R390, R391: a misaligned load traps: the thread stands at the handler at depth 1, its frame below its stack. -/
theorem test_aperture_trap :
    let s := handled 3 (solo (e64 1 (teamAt 17)))
    let i := Instr.ld c .b64 (g 4) (g 1) (.imm 0)
    ends i s (fun h => h.pc == 5 && h.imgBase == 0x15000 && h.imgSlots == 100 && h.depth == 1) &&
    framed (after i s) 0 0 && framed (after i s) 1 (3 * 2 ^ 56) && framed (after i s) 2 (teamAt 17) = true := by decide +kernel

/-- R281, R393: `trap 5` and `tret` come back behind the trap. -/
theorem test_trap_and_return :
    let u := dev (fun d => { d with cur := .run 0 0 [0] [] 0 }) (after (.trap c .none (.imm 5) .none) (handled 16 (solo [(1, 4)])))
    ends (.tret c .none .none .none) u (fun h => h.pc == 1 && h.depth == 0 && h.slot 1 == 4) = true := by decide +kernel

/-- R213, R211: a store to glob writes when it reaches its home slice, not before. -/
theorem test_glob_store :
    let s := dev (fun d => { d with cur := .none }) (after (.stG c .b64 (g 3) (g 1) (.imm 8)) (solo (e64 1 0x14000 ++ e64 3 77)))
    physReadN s.dev 0x14008 8 = 0 ∧
    (s.dev.reqs.map fun r => physReadN (after (.homeSliceRequest r.id) s).dev 0x14008 8) = [77] := by decide +kernel

/-- R264, R265: 32 bytes of a tile, at row 4 of 32-byte rows, once they reach it. -/
theorem test_tile_store :
    let s := dev (fun d => { d with cur := .none }) (after (.tst c (t 3) (g 6) (g 9))
      (team (fun t => { t with tiles := [(3, 6)] }) (solo [(9, 4), (48, 5)])))
    (s.dev.scrWrites.map fun a =>
      let d := (after (.diePortWrite a.id) s).dev
      (Memory.readN d.tiles (5 * 65536 + 128) 4, d.tileStat)) = [(5, [(5, 3)])] := by decide +kernel

/-- The example card of R243 to R245: the posted header, its handle, and the card held at the core. -/
def card : AMap Word := words 16
  ([0x00A290000080003F, 0x0000000120100000, 0x2000000800000000, 0x0000400000000100, 0, 0, 0x8000000000004000, 0].flatMap fun v =>
    [v % 2 ^ 32, v / 2 ^ 32])
def posting : State := team (fun t => { t with kernel := { t.kernel with tmem := 65536 } }) (solo card)

theorem test_job_card :
    let u := after (.jpostCopy c true (h 2) (g 2) .none) posting
    (u.dev.cards.map fun x => (x.core, x.job.card.headD 0, x.job.state)) = [(0, 0x00A298000080003F#64, .waiting)] ∧
    ((u.dev.group? 0 0).map (·.h)) = some [(2, 0x8000000000000000#64)] := by decide +kernel

/-- R284: a signal adds to the word; a test of a value not reached leaves the thread waiting. -/
theorem test_semaphores :
    let s := own (dev (fun d => { d with scr := Memory.writeN d.scr 16 8 5 }) (que (e64 1 (dieAt 16) ++ e64 2 9)))
    Memory.readN (after (.semSig c false .none (g 1) (g 2)) s).dev.scr 16 8 = 14 ∧
    ((after (.semWaitGe c .none (g 1) (g 2)) s).dev.queue 0).wait = .word (dieAt 16) ∧
    ((after (.semWaitGe c .none (g 1) (.imm 5)) s).dev.queue 0).thread.pc = 1 := by decide +kernel

/-- R310's fields of the example after R311: owner, context 12, priority 60, energy class 5, ring of 256 entries at 0x40_0000 of die 2. -/
theorem test_queue_example :
    let q := { Queue.blank with w0 := 0xFC50006008400000#64, w1 := 0x003D090080000000#64 }
    q.ctx = 12 ∧ q.prio = 60 ∧ q.ringSize = 256 ∧ q.ringDie = 2 ∧ ringKey q 257 = 2 * 2 ^ 26 + 0x400008 ∧ bitOf q.w0.toNat 62 = true := by
  decide +kernel

/-- R21: the first teams of an 8 by 8 plane, by Hilbert's and by Morton's curve. -/
theorem test_curves :
    let k := Kernel.plain 0 0
    (List.range 8).map (planePoint { k with curve := 2 } 8 8) = [(0, 0), (0, 1), (1, 1), (1, 0), (2, 0), (3, 0), (3, 1), (2, 1)] ∧
    (List.range 8).map (planePoint { k with curve := 1 } 8 8) = [(0, 0), (1, 0), (0, 1), (1, 1), (2, 0), (3, 0), (2, 1), (3, 1)] := by
  decide +kernel

/-- R319, R414, R450: K takes 1 to 15 with semaphore 0 held; 0 is discarded with a record; the watchdog's exponent is 20 to 40. -/
def holding (n : Nat) : State := regs (fun m => { m with sems := AMap.set Sem.free m.sems n { held := true, owner := 0, gen := 1 } }) start

theorem test_host_registers :
    (after (.mgmtRegisterWrite ⟨0, 0⟩ 0x20088 9) (holding 0)).mgmt.k = 9 ∧ (after (.mgmtRegisterWrite ⟨0, 0⟩ 0x20088 0) (holding 0)).mgmt.k = 4 ∧
    (after (.mgmtRegisterWrite ⟨0, 0⟩ 0x20088 9) start).mgmt.k = 4 ∧ (after (.mgmtRegisterWrite ⟨0, 0⟩ 0x40010 41) (holding 2)).mgmt.wdLog2 = 32 ∧
    (after (.mgmtRegisterWrite ⟨0, 0⟩ 0x40010 20) (holding 2)).mgmt.wdLog2 = 20 := by decide +kernel

/-- R88, R323: a granule that becomes a context's is zeroed; the window on the scratchpads reads and writes their bytes. -/
theorem test_host_windows :
    let s := dev (fun d => { d with scr := Memory.writeN d.scr (65536 * 7) 4 99 }) (holding 2)
    Memory.readN (after (.ownerEntryWrite 0 0 7 0x80000005) s).dev.scr (65536 * 7) 4 = 0 ∧
    (after (.bar2Access 0 (.read (65536 * 7) 2)) s).dev.notices = [.readData 0 false [99, 0]] ∧
    Memory.readN (after (.bar2Access 0 (.write 64 [1, 2])) s).dev.scr 64 4 = 0x0201 := by decide +kernel

/-- R351: power good brings Reset, both links trained Waiting, and a length from the streaming port Verifying. -/
theorem test_boot :
    let s := after (.pcieLinkTrained 1) (after (.pcieLinkTrained 0) (after .powerGood (after .powerOff start)))
    (after .powerGood (after .powerOff start)).mgmt.boot.state = .reset ∧ s.mgmt.boot.state = .waiting ∧
    (after (.bootLength 0 4) (after (.bootStart true false) s)).mgmt.boot.state = .verifying ∧
    (after (.bootLength 1 4) (after (.bootStart true false) s)).mgmt.boot.state = .waiting := by decide +kernel

/-- R129, R130: one step fetches the slot at the PC and runs it, in every lane of the head run. -/
def stepped (w : Nat) : State := match step (State.reset.withFetchWord 96 w) with | .next u => u | _ => start

theorem test_step :
    let u := stepped 0x02FFFFB00001000003007000
    slotsAt u 0 3 1 = 0xFFFFFFFB ∧ slotsAt u 15 3 1 = 0xFFFFFFFB ∧ (u.dev.thread? ⟨0, 0, 15⟩).map (·.pc) = some 1 ∧ u.moves = [] := by
  decide +kernel

/-! ## Witnesses

For every statement with hypotheses: states and operands that meet them, one for each clause. -/

/-- The one issuing thread executes, and what it reads meets `f`. -/
def alone (i : Instr) (s : State) (f : TRef → Env → Team → Group → Bool) : Bool :=
  match soloOf i s with | some (r, e, t, g) => f r e t g | none => false

/-- The queue thread executes, and what it reads meets `f`. -/
def served (i : Instr) (s : State) (f : Nat → Env → Bool) : Bool :=
  match queueOf i s with | some (q, e) => f q e | none => false

/-- Every instruction of a list can be performed by the threads that issue. -/
def quiets (l : List Instr) (s : State) : Bool := l.all fun i => quiet i s && !(performers i s.dev).isEmpty
def quietsAll (l : List Instr) (s : State) : Bool := l.all fun i => quietAll i s && !(actors i s.dev).isEmpty

/-- Two lanes with small numbers in slots 1 to 31. -/
def filled : State := pair (words 1 (List.range 31)) (words 1 (List.range 31))

theorem witness_IntegerArithmetic :
    quiets [.add c .w32 .wrap (g 1) (g 2) (g 3), .add c .w8 .signed (g 1) (g 2) (.imm 3), .add c .w64 .unsigned (g 1) (g 2) (g 3),
      .sub c .w16 .wrap (y 1) (g 2) (y 3), .sub c .w32 .signed (g 1) (g 2) (g 3), .sub c .w32 .unsigned (g 1) (g 2) (.cbank 0 0),
      .mul c .w32 (g 1) (g 2) (g 3), .mulHiI c .w64 (g 1) (g 2) (g 3), .mulHiN c .w32 (g 1) (g 2) (g 3), .mad c .w32 (g 1) (g 2) (g 3),
      .minI c .w8 (g 1) (g 2) (g 3), .minN c .w8 (g 1) (g 2) (g 3), .maxI c .w8 (g 1) (g 2) (g 3), .maxN c .w8 (g 1) (g 2) (sr 3),
      .lea c .w64 3 (g 1) (g 2) (g 3)] filled = true := by decide +kernel

theorem witness_IntegerBits :
    quiets [.shl c .w32 (g 1) (g 2) (g 3), .shrN c .w16 (g 1) (g 2) (g 3), .shrI c .w8 (g 1) (g 2) (g 3), .rol c .w64 (g 1) (g 2) (g 3),
      .lop3 c .w32 0x1B (g 1) (g 2) (g 3), .popc c .w32 (g 1) (g 2) .none, .clz c .w64 (g 1) (g 2) .none, .ctz c .w32 (g 1) (g 2) .none,
      .brev c .w32 (g 1) (g 2) .none, .bfeN c .w32 (g 1) (g 2) (g 3), .bfeI c .w64 (g 1) (g 2) (g 3), .bfi c .w32 (g 1) (g 2) (g 3),
      .cmpI c .w8 .lt (p 1) (g 2) (g 3), .cmpN c .w16 .ge (p 7) (g 2) (g 3), .sel c .w32 true 2 (g 1) (g 2) (g 3),
      .mov c .w32 (g 1) (g 2) .none] filled = true := by decide +kernel

theorem witness_FloatArithmetic :
    quiets [.addFp c .f64 .plain (g 1) (g 2) (g 3), .subFp c .f32 ⟨true, false, false, .rdn⟩ (g 1) (g 2) (g 3),
      .mulFp c .f32 ⟨false, false, false, .sr⟩ (g 1) (g 2) (g 3), .fmaAcc c .f32 .plain (g 1) (g 2) (g 3), .fmaHor c .f64 .plain (g 1) (g 2) (g 3),
      .minFp c true (g 1) (g 2) (g 3), .maxFp c false (g 1) (g 2) (g 3), .cmpFp c .f32 false .unord (p 1) (g 2) (g 3),
      .classFp c (g 1) (g 2) .none] filled = true := by decide +kernel

theorem witness_PacketArithmetic :
    shapeFmt .f16x16 = some .f16 ∧ shapeFmt .i8x32 = none ∧
    quiets [.addPkt c .f16x16 false .plain (g 1) (g 2) (g 3), .subPkt c .f32x8 true .plain (g 1) (g 2) (g 3),
      .mulPkt c .bf16x16 false ⟨false, false, false, .sr⟩ (g 1) (g 2) (g 3), .fmaAccPkt c .f32x8 false .plain (g 1) (g 2) (g 3),
      .fmaHorPkt c .f16x16 false .plain (g 1) (g 2) (g 3), .addPkt c .i8x32 false ⟨true, false, false, .rne⟩ (g 1) (g 2) (g 3),
      .subPkt c .n16x16 false .plain (g 1) (g 2) (g 3), .mulPkt c .i32x8 true .plain (g 1) (g 2) (g 3), .minPkt c .f32x8 false .plain (g 1) (g 2) (g 3),
      .maxPkt c .bf16x16 false .plain (g 1) (g 2) (g 3), .cmpPkt c .f32x8 true .lt (g 1) (g 2) (g 3), .minPkt c .i8x32 false .plain (g 1) (g 2) (g 3),
      .maxPkt c .n32x8 false .plain (g 1) (g 2) (g 3), .cmpPkt c .n8x32 false .ge (g 1) (g 2) (g 3)] filled = true := by decide +kernel

theorem witness_PacketReductions :
    quiets [.dot c .f16x16 false .plain (g 1) (g 2) (g 3), .dot c .i8x32 false ⟨true, false, false, .rne⟩ (g 1) (g 2) (g 3),
      .hsum c .f32x8 true .plain (g 1) (g 2) .none, .hmax c .bf16x16 false .plain (g 1) (g 2) .none,
      .omse c false (g 1) (g 2) .none] filled = true := by decide +kernel

theorem witness_PacketMoves :
    quiets [.pperm c (g 1) (g 2) (g 3), .plut c true false (g 1) (g 2) (g 3), .eshl c .e32 (g 1) (g 2) (g 3), .eshr c .e4 (g 1) (g 2) (g 3),
      .bcast c .e8 (g 1) (g 2) (g 3), .esel c .e4 (g 1) (g 2) (g 3), .eins c .e16 (g 1) (g 2) (g 3), .eext c .e16 (g 1) (g 2) (g 3)] filled = true := by
  decide +kernel

theorem witness_SpectraAndRandom :
    quiets [.specLerp c .plain (g 1) (g 2) (y 2), .specCie c true .plain (g 1) (g 2) (g 3), .specMueller c 2 .plain (g 1) (g 2) (g 3),
      .prng c .b32 (g 1) .none .none, .prng c .f32 (g 1) .none .none, .prng c .b32x8 (g 1) .none .none,
      .prng c .f32x8 (g 1) .none .none] filled = true := by decide +kernel

theorem witness_SpecialFunctions :
    quiets [.sfuRcp c .f32 .plain (g 1) (g 2) .none, .sfuRsqrt c .f32x8 .plain (g 1) (g 2) .none, .sfuSqrt c .f16x16 .plain (g 1) (g 2) .none,
      .sfuExp2 c .bf16x16 ⟨true, false, false, .rtz⟩ (g 1) (g 2) .none, .sfuLog2 c .f32 .plain (g 1) (g 2) .none,
      .sfuSin c .f32 .plain (g 1) (g 2) .none, .sfuCos c .f32 .plain (g 1) (g 2) .none, .sfuTanh c .f32 .plain (g 1) (g 2) .none,
      .sfuSigm c .f32 .plain (g 1) (g 2) .none, .sfuErf c .f32 .plain (g 1) (g 2) .none, .sfuGelu c .f32 .plain (g 1) (g 2) .none,
      .sfuSilu c .f32 .plain (g 1) (g 2) .none] filled = true := by decide +kernel

theorem witness_Conversions :
    quiets [.mxqE4M3 c .plain (g 4) (g 0) (g 40), .mxqE5M2 c .plain (g 4) (g 0) (g 40), .mxqE3M2 c .plain (g 4) (g 0) (g 40),
      .mxqE2M3 c .plain (g 4) (g 0) (g 40), .mxqE2M1 c false .plain (g 4) (g 0) (g 40), .mxqE2M1 c true .plain (g 4) (g 0) (g 40),
      .mxqI8 c ⟨false, false, false, .sr⟩ (g 4) (g 0) (g 40), .cvtScalar c .i32 .f32 .plain (g 1) (g 2) .none,
      .cvtPacket c .bf16x16 .f32x8 1 .plain (g 1) (g 2) .none, .cvtPacket c .f32x8 .e4m3x32 3 .plain (g 1) (g 2) .none] filled = true := by
  decide +kernel

theorem witness_RunCollectives :
    quietsAll [.shfl c .b32 .flip (g 1) (g 2) (.imm 1), .shfl c .b64 .atLane (g 1) (g 2) (g 3), .shfl c .b256 .byOffset (g 1) (g 2) (g 3),
      .vote c .someOf (p 1) (p 0) .none, .vote c .everyOf (p 1) (p 0) .none, .vote c .same (p 1) (p 0) .none, .vote c .mask (g 1) (p 7) .none,
      .vote c .cnt (g 1) (p 7) .none, .vote c .pre (g 1) (p 7) .none, .matchV c false .mask (g 1) (g 2) .none, .matchV c true .lead (g 1) (g 2) .none,
      .matchV c true .cnt (g 1) (g 2) .none, .matchV c false .cnt (y 1) (y 2) .none, .scan c true .addF32 (g 1) (g 2) .none, .scan c false .maxN32 (g 1) (g 2) .none] filled = true := by
  decide +kernel

theorem witness_PredicatesAndIndices :
    quiets [.plop3 c 0x7F (p 1) (p 2) (p 7), .pget c (g 1) .none .none, .xset c .whole (x 1) (g 2) .none, .xset c .cur (x 1) (g 2) .none,
      .xset c .add (x 1) (g 2) .none, .xget c .whole (g 1) (x 1) .none, .xget c .cur (g 1) (x 1) .none, .xget c .base (g 1) (x 1) .none,
      .xget c .bound (g 1) (x 1) .none, .xget c .step (g 1) (x 1) .none, .xget c .view (g 1) (x 1) .none,
      .xget c .wrap (g 1) (x 1) .none] filled = true := by decide +kernel

theorem witness_BranchesGo :
    quietsAll [.bra c .none (.imm 0xFFFF9) .none, .call c (g 1) (.imm 5) .none, .loop c (g 1) (.imm 3) .none, .loop c (y 1) (.imm 3) .none,
      .brx c .none (g 2) .none, .ret c .none (g 2) .none, .call c (g 1) (g 2) .none] filled = true := by decide +kernel

theorem witness_PassingInstructions :
    quietsAll [.nop c .none .none .none, .rep c .none (g 3) .none, .rep c .none (g 1) .none, .yield c .none .none .none] filled = true ∧
    ((actors (.rep c .none (g 3) .none) filled.dev).all fun p => p.2.count (g 3) ≤ 65535) = true ∧
    quietAll (.yield ⟨0, false, false, 0, false, false⟩ .none .none .none) filled = true ∧
    alone (.pset c (p 0) (g 1) (g 2)) (solo [(1, 5), (2, 7)]) (fun _ _ _ _ => true) = true := by decide +kernel

theorem witness_ThreadsEndAndRegroup :
    alone (.exit c .none .none .none) (solo []) (fun _ _ _ _ => true) && served (.exit c .none .none .none) (que []) (fun _ _ => true) &&
    alone (.regroup c .none (g 1) (.imm 1)) (solo [(1, 5)]) (fun _ e t _ =>
      !t.kernel.pair && e.h.depth == 0 && (t.groups.all fun x => x.units == 0) && t.gather.isNone) &&
    alone (.regroup c .none (g 1) (.imm 1)) (team (fun t => { t with gather := some ⟨0, 0, [⟨3, 0, 1⟩]⟩ }) (solo [])) (fun _ e t _ =>
      match t.gather with | some x => x.pc == e.h.pc.toNat | none => false) = true := by decide +kernel

theorem witness_RegisterUnits :
    let i := Instr.racq c .none (.imm 1) .none
    let some2 : State := group (fun g => { g with units := 2 }) (solo [(1, 5), (64, 3)])
    let room (e : State) : Bool := alone i e fun _ _ t g => decide (t.gather = none) && decide (g.units + 1 ≤ 4) &&
      decide (t.kernel.width * 64 ≤ freeSlots e.dev g.core)
    room (solo []) && alone i (dev (fun d => { d with racq := [(0, 7, 7)] }) (solo [])) (fun _ _ t g => t.gather.isNone && g.core == 0) &&
    (alone (.rrel c .none (.imm 1) .none) some2 fun _ _ t g => decide (1 ≤ g.units) && !unitsBusy some2.dev t g 1) = true := by decide +kernel

/-- An access of lane 0 on its way: to a scratchpad, or to team memory at 16. -/
def behindDie (s : State) : State := dev (fun d => { d with nextId := 2, scrWrites := [
  { id := 1, who := .thread ⟨0, 0, 0⟩ 0, ctx := 0, pc := 0, space := 1, addr := dieAt 64, key := 64, rel := none, after := [], det := false, faulted := false,
    kind := .store 8 0, result := none, ltag := 0, stamp := 0, die := 0 }] }) s
def behindTeam (s : State) : State := dev (fun d => { d with nextId := 2, scrWrites := [
  { id := 1, who := .thread ⟨0, 0, 0⟩ 0, ctx := 0, pc := 0, space := 2, addr := teamAt 16, key := 16, rel := none, after := [], det := false, faulted := false,
    kind := .store 8 0, result := none, ltag := 0, stamp := 0, die := 0 }] }) s

/-- A final handle in h2. -/
def handle2 : State → State := group fun g => { g with h := [(2, 0x77#64)], hfin := [(2, 1)] }

/-- Whether an access of lane 0 to team memory at 16 goes on its way, since it must follow another. -/
def goesAway (e : Env) (kind : AccKind) (rel : Option Nat) (m : Dev) : Bool := awayAt e ⟨0, 0, 0⟩ (teamAt 16) (.tmem 16) kind rel m == some (2, 16)

/-- Where an access of lane 0 lies. -/
def lies (i : Instr) (a b : Operand) (s : State) (f : Env → Loc → Bool) : Bool :=
  alone i s fun _ e _ _ => match localAt e 8 (e.ea a b) false with | some l => f e l | none => false

theorem witness_LoadsRead :
    let i := Instr.ld c .b64 (g 4) (g 1) (.imm 0)
    let k := Instr.hload c (h 2) (g 1) (.imm 0)
    lies i (g 1) (.imm 0) atDie (fun _ l => l == .scr 16) && lies k (g 1) (.imm 0) (handle2 atDie) (fun _ l => l == .scr 16) &&
    lies i (g 1) (.imm 0) (behindTeam atTeam) (fun e l => l == .tmem 16 &&
      goesAway e (.load 8) none (startOf i (behindTeam atTeam).dev)) &&
    lies k (g 1) (.imm 0) (behindTeam (handle2 atTeam)) (fun e l => l == .tmem 16 &&
      goesAway e (.load 8) none (startOf k (behindTeam (handle2 atTeam)).dev)) &&
    lies i (g 1) (.imm 0) atTeam (fun e l => l == .tmem 16 && !l.poisoned (startOf i atTeam.dev) e.own e.h.lane 8) &&
    lies k (g 1) (.imm 0) (handle2 atTeam) (fun e l => l == .tmem 16 &&
      !l.poisoned (startOf k (handle2 atTeam).dev) e.own e.h.lane 8) = true := by decide +kernel

theorem witness_StoresWrite :
    let i := Instr.st c .b64 (g 3) (g 1) (.imm 0)
    let k := Instr.hstore c (h 2) (g 1) (.imm 0)
    lies i (g 1) (.imm 0) atDie (fun _ l => l == .scr 16) && lies k (g 1) (.imm 0) (handle2 atDie) (fun _ l => l == .scr 16) &&
    lies i (g 1) (.imm 0) (behindTeam atTeam) (fun e l => l == .tmem 16 &&
      goesAway e (.store 8 0) none (startOf i (behindTeam atTeam).dev)) &&
    lies k (g 1) (.imm 0) (behindTeam (handle2 atTeam)) (fun e l => l == .tmem 16 &&
      goesAway e (.store 8 0) none (startOf k (behindTeam (handle2 atTeam)).dev)) &&
    lies i (g 1) (.imm 0) atTeam (fun _ l => l == .tmem 16) &&
    lies k (g 1) (.imm 0) (handle2 atTeam) (fun _ l => l == .tmem 16) = true := by decide +kernel

theorem witness_TeamStoreBytes :
    let i := Instr.st c .b64 (g 3) (g 1) (.imm 0)
    lies i (g 1) (.imm 0) atTeam (fun _ l => l == .tmem 16) = true := by decide +kernel

/-- Where an atomic's bytes lie. -/
def atomAt (i : Instr) (s : State) (l : Loc) : Bool := alone i s fun _ e _ _ => localAt e 8 (e.scalar 64 .int (g 1)) true == some l

theorem witness_LocalAtomics :
    let l : List Instr := [.atomExch c .rlx .team .b64 .none (g 1) (g 3), .atomCas c .acq .team .b64 (g 5) (g 1) (g 3), .atomAdd c .rlx .team .n64 (g 5) (g 1) (g 3),
      .atomMin c .rlx .team .i64 (g 5) (g 1) (g 3), .atomMax c .rlx .team .n64 (g 5) (g 1) (g 3), .atomAnd c .rlx .team .b64 (g 5) (g 1) (g 3),
      .atomOr c .rlx .team .b64 (g 5) (g 1) (g 3), .atomXor c .rlx .team .b64 (g 5) (g 1) (g 3)]
    let i := Instr.atomAdd c .rlx .team .n64 (g 5) (g 1) (g 3)
    let r := Instr.atomAdd c .rel .die .n64 (g 5) (g 1) (g 3)
    let m (s : State) : Dev := startOf i s.dev
    (l.all fun i => atomAt i atDie (.scr 16) && atomAt i atTeam (.tmem 16) && atomAt i (behindTeam atTeam) (.tmem 16) && !poisoned (m atTeam) 2 16 8 &&
      atomAt i (solo (e64 1 (0xFD00000000000000 + 2 ^ 20))) .miss) &&
    relOf .rlx .team == none && (l.all fun i => alone i (behindTeam atTeam) fun _ e _ _ =>
      goesAway e (.atom .add .n64 0 0) none (m (behindTeam atTeam))) &&
    relOf .rel .die == some 5 && atomAt r (behindDie atTeam) (.tmem 16) &&
    outstandingBefore (m (behindDie atTeam)) ⟨0, 0, 0⟩ 5 (m (behindDie atTeam)).nextId && atomAt r atTeam (.tmem 16) &&
    !outstandingBefore (m atTeam) ⟨0, 0, 0⟩ 5 (m atTeam).nextId && (m atTeam).partials.isEmpty = true := by decide +kernel

/-- A queue thread with the address of a word of its context, and a value. -/
def atQueue : State := own (dev (fun d => { d with scr := Memory.writeN d.scr 16 8 0x1122334455667788 })
  (que (e64 1 (dieAt 16) ++ e64 2 9 ++ e64 3 0xAABBCCDDEEFF0011)))

theorem witness_QueueThreadAccesses :
    let on (i : Instr) : Bool := served i atQueue fun _ e => localAt e 8 (dieAt 16) true == some (.scr 16) && granuleOk atQueue.dev e.ctx true 16
    on (.ld c .b64 (g 4) (g 1) (.imm 0)) && on (.st c .b64 (g 3) (g 1) (.imm 0)) &&
    ([.atomExch c .rlx .team .b64 .none (g 1) (g 3), .atomCas c .rlx .team .b64 (g 5) (g 1) (g 3), .atomAdd c .rlx .team .n64 (g 5) (g 1) (g 3),
      .atomMin c .rlx .team .i64 (g 5) (g 1) (g 3), .atomMax c .rlx .team .n64 (g 5) (g 1) (g 3), .atomAnd c .rlx .team .b64 (g 5) (g 1) (g 3),
      .atomOr c .rlx .team .b64 (g 5) (g 1) (g 3), .atomXor c .rlx .team .b64 (g 5) (g 1) (g 3)] : List Instr).all on && !poisoned atQueue.dev 1 16 8 = true := by decide +kernel

theorem witness_ApertureTraps :
    let s := solo (e64 1 (teamAt 17) ++ e64 2 0x14001)
    let none8 (i : Instr) : Bool := alone i s fun _ e _ _ => (localAt e 8 (e.ea (g 1) (.imm 0)) false).isNone
    none8 (.ld c .b64 (g 4) (g 1) (.imm 0)) && none8 (.st c .b64 (g 3) (g 1) (.imm 0)) &&
    (alone (.stG c .b64 (g 3) (g 1) (.imm 0)) s fun _ e _ _ => apertureOf (e.ea (g 1) (.imm 0)) != .glob) &&
    (alone (.stG c .b64 (g 3) (g 2) (.imm 0)) s fun _ e _ _ =>
      apertureOf (e.ea (g 2) (.imm 0)) == .glob && e.ea (g 2) (.imm 0) % 8 != 0) = true := by decide +kernel

theorem witness_GlobRequests :
    let s := solo (e64 1 0x14000 ++ e64 3 0xAABBCCDDEEFF0011)
    let posted (i : Instr) : Bool := alone i s fun _ e _ _ => apertureOf (e.ea (g 1) (.imm 128)) == .glob && e.ea (g 1) (.imm 128) % 128 == 0
    let answered (i : Instr) : Bool := alone i s fun _ e _ _ =>
      apertureOf (e.scalar 64 .int (g 1)) == .glob && e.scalar 64 .int (g 1) % 8 == 0
    ([.stG c .b64 (g 3) (g 1) (.imm 128), .redGAdd c .rel .sys .f32 (g 3) (g 1) (.imm 128), .redGMin c .rlx .sys .n64 (g 3) (g 1) (.imm 128),
      .redGMax c .rlx .sys .i32 (g 3) (g 1) (.imm 128), .redGAnd c .rlx .sys .b64 (g 3) (g 1) (.imm 128), .redGOr c .rlx .sys .b32 (g 3) (g 1) (.imm 128),
      .redGXor c .rlx .sys .b32 (g 3) (g 1) (.imm 128), .redGKahan c .rel .sys .f32 (g 3) (g 1) (.imm 128),
      .redCommit c .rel .die .none (g 1) (.imm 128)] : List Instr).all posted &&
    ([.atomGExch c .rel .sys .b64 .none (g 1) (g 3), .atomGCas c .rlx .sys .b64 (g 5) (g 1) (g 3),
      .atomGAdd c .acq .sys .n64 (g 5) (g 1) (g 3)] : List Instr).all answered = true := by decide +kernel

theorem witness_FencesComplete :
    let i (o : MOrder) := Instr.fence c o .sys .none .none .none
    let any : TRef → Env → Team → Group → Bool := fun _ _ _ _ => true
    alone (i .acq) (solo []) any && alone (i .acqrel) (solo []) any && alone (i .rel) (behindDie (solo [])) any && relOf .acq .sys == none &&
    relOf .acqrel .sys == some 7 && relOf .rel .sys == some 7 && !outstandingBefore (solo []).dev ⟨0, 0, 0⟩ 7 (solo []).dev.nextId &&
    outstandingBefore (behindDie (solo [])).dev ⟨0, 0, 0⟩ 7 (behindDie (solo [])).dev.nextId && served (i .rel) (que []) (fun _ _ => true) = true := by
  decide +kernel

theorem witness_BarriersArrive :
    let any : TRef → Env → Team → Group → Bool := fun _ _ _ _ => true
    let p := Instr.barPair c .none (.imm 3) (.imm 4)
    let q := Instr.barClu c .none (.imm 3) (.imm 4)
    let s := solo (e64 1 0x14000 ++ e64 2 2)
    let mine (kind : Nat) (x : CountBar) : Bool := x.ctx == 0 && x.kind == kind && x.place == 0 && x.number == 3
    let one (kind : Nat) : State := dev (fun d => { d with nextId := 9, bars := [⟨7, 0, kind, 0, 3, 4, 1, 0⟩] }) s
    let full : State := dev (fun d => { d with nextId := 90, bars := (List.range 64).map fun k => ⟨k, 5, 2, 0, k % 16, 4, 3, 0⟩ }) s
    let used (s : State) : Nat := (s.dev.bars.filter fun x => barCluster x.kind x.place == 0).length
    let r (b : Bool) := Instr.barSys c b .none (g 1) (g 4)
    let word (b : Bool) (s : State) : Bool := alone (r b) s fun _ e _ _ =>
      apertureOf (e.scalar 64 .int (g 1)) == .glob && e.scalar 64 .int (g 1) % 8 == 0 && e.count (g 4) != 0
    alone (.barTeam c .none (.imm 3) .none) s any && alone p (one 1) any && ((one 1).dev.bars.find? (mine 1)).isSome && alone q (one 2) any &&
    ((one 2).dev.bars.find? (mine 2)).isSome && alone p s any && alone q s any && s.dev.bars.isEmpty && decide (used s < 64) &&
    alone p full any && alone q full any && (full.dev.bars.find? (mine 2)).isNone && (full.dev.bars.find? (mine 1)).isNone && decide (64 ≤ used full) &&
    word false s && word true s && !outstandingBefore s.dev ⟨0, 0, 0⟩ 7 s.dev.nextId && s.dev.partials.isEmpty && word true (behindDie s) &&
    outstandingBefore (behindDie s).dev ⟨0, 0, 0⟩ 7 (behindDie s).dev.nextId = true := by decide +kernel

theorem witness_WaitsAndQueues :
    let s := solo (e64 1 (dieAt 16) ++ [(4, 5), (5, 0x40000005)])
    (alone (.wait c .ge .none (g 1) (.imm 9)) s fun _ e _ _ =>
      apertureOf (e.scalar 64 .int (g 1)) == .die && localAt e 8 (e.scalar 64 .int (g 1)) false == some (.scr 16)) &&
    (alone (.qpush c .none (g 4) (g 3)) s fun _ e _ _ => (queueName e.die (e.count (g 4))).isSome) &&
    (alone (.qpop c (g 3) (g 4) .none) s fun _ e _ _ => (queueName e.die (e.count (g 4))).isSome) &&
    (alone (.qpush c .none (g 5) (g 3)) s fun _ e _ _ => (queueName e.die (e.count (g 5))).isNone) &&
    (alone (.qpop c (g 3) (g 5) .none) s fun _ e _ _ => (queueName e.die (e.count (g 5))).isNone) = true := by decide +kernel

/-- Words of a card as slots of packets w2 and w3. -/
def cardSlots (l : List Nat) : AMap Word := words 16 (l.flatMap fun v => [v % 2 ^ 32, v / 2 ^ 32])

/-- A job that nobody issued. -/
def idleJob : Job :=
  { seq := 0, slot := 0, card := [], who := ⟨0, 0, 0⟩, ctx := 0, core := 0, team := 0, grid := 0, state := .waiting, preds := [],
    failedRoot := none, shares := [], engine := none, drain := false, lost := none, passes := 0, cancelAsked := false }

theorem witness_JobPosts :
    let all : List Instr := [.jpostCopy c true (h 2) (g 2) .none, .jpostCopy c true .none (g 2) .none]
    let kinds : List (Nat × Instr) := [(0, .jpostCopy c false (h 2) (g 2) .none), (1, .jpostGather c false (h 2) (g 2) .none),
      (2, .jpostMma c false (h 2) (g 2) .none), (3, .jpostMmaGather c true (h 2) (g 2) .none), (4, .jpostEpilogue c true .none (g 2) .none)]
    let ok (kind : Nat) (v : Bool) : TRef → Env → Team → Group → Bool := fun _ e t _ => cardOk t.kernel.tmem (e.card kind true (g 2)) == v
    let ahead : State := group (fun g => { g with lastPost := some (0, 41) }) posting
    let crowd : State := dev (fun d => { d with cards := List.replicate 4 { core := 0, job := idleJob, upto := 0, ordAfter := none } }) posting
    (all.all fun i => alone i posting (ok 0 true) && alone i ahead (ok 0 true) && alone i crowd (ok 0 true)) && cardRoom posting.dev 0 &&
    !cardRoom crowd.dev 0 && (kinds.all fun k => alone k.2 (solo []) (ok k.1 false)) = true := by decide +kernel

/-- The job of `posting` held at its core, and at its cluster. -/
def posted : State := dev (fun d => { d with cur := .run 0 0 [0] [] 0 }) (after (.jpostCopy c true (h 2) (g 2) .none) posting)
def queued : State := dev (fun d => { d with cur := .run 0 0 [0] [] 0 }) (after (.jobEnterQueue 0) (dev (fun d => { d with cur := .none }) posted))

theorem witness_HandleInstructions :
    let pending : TRef → Env → Team → Group → Bool := fun _ e _ _ => (statusOf e (h 2)).isNone
    let w := Instr.jwait c (g 5) (h 2) .none
    let k := Instr.jcancel c .none (h 2) .none
    quietAll w (handle2 filled) && ((actors w (handle2 filled).dev).all fun q => statusOf q.2 (h 2) == some 0) && alone w posted pending &&
    quietAll (.jtest c (p 1) (h 2) .none) posted && quietAll (.jtest c (p 1) (h 2) .none) (handle2 filled) &&
    (alone k (handle2 (solo [])) fun _ e _ _ => (statusOf e (h 2)).isSome) &&
    (alone k posted fun _ e _ g => (statusOf e (h 2)).isNone && posted.dev.cards.any fun x => x.job.handle == AMap.get 0 g.h 2) &&
    (alone k queued fun _ e _ g => (statusOf e (h 2)).isNone && queued.dev.cards.isEmpty &&
      (queued.dev.join 0).jobs.any fun x => x.handle == AMap.get 0 g.h 2) = true := by decide +kernel

/-- A team that holds tile 3, at place 5 of its core. -/
def tiled (l : AMap Word) : State := team (fun t => { t with tiles := [(3, 6)] }) (solo l)
/-- A job in its cluster whose card names the tile at place 5. -/
def tileJob : State := dev (fun d => d.setJoin 0 { d.join 0 with jobs := [{ idleJob with
  card := [0x2000000000000000#64, 0x0000000000800080#64] ++ List.replicate 6 0xC000000000000005#64 }] }) (tiled [])

theorem witness_TileInstructions :
    let a (n : BitVec 9) := Instr.tacq c (p 1) (t n) .none
    let free := Instr.trel c .none (t 3) .none
    let own3 : TRef → Env → Team → Group → Bool := fun _ _ t _ => t.tile? 3 == some 5
    let full : State := dev (fun d => { d with teams := d.teams.map fun t => { t with tiles := (List.range 8).map fun k => (k + 4, k + 1) } }) (solo [])
    quietAll (a 3) (tiled []) && quietAll (a 2) (tiled []) && (freeTile (tiled []).dev 0).isSome && quietAll (a 2) full &&
    (freeTile full.dev 0).isNone && !(actors (a 2) full.dev).isEmpty && alone free (tiled []) own3 && !tileInflight (tiled []).dev 0 5 &&
    alone free tileJob own3 && tileInflight tileJob.dev 0 5 && quietAll (.tstat c (g 1) (t 3) .none) (tiled []) &&
    ((actors (.tstat c (g 1) (t 3) .none) (tiled []).dev).all fun q => tileCheck (t 3) q.2 == none) &&
    alone (.tld c (g 6) (t 3) (g 9)) (tiled [(9, 2047)]) own3 && alone (.tst c (t 3) (g 6) (g 9)) (tiled [(9, 2048)]) own3 &&
    (alone (.tld c (g 6) (t 3) (g 9)) (solo [(9, 4)]) fun _ _ t _ => (t.tile? 3).isNone) = true := by decide +kernel

theorem witness_UnitRequests :
    let any : TRef → Env → Team → Group → Bool := fun _ _ _ _ => true
    let s := solo (words 8 [0x14000, 0, 0x10007, 0x30007] ++ words 16 (List.range 16))
    let x : Ray := { newRay 0 ⟨0, 0, 0⟩ 0 0x14000 (List.replicate 16 0) 0 with
      slot := some 7, candidate := some { t := 0, u := 0, v := 0, prim := 0, inst := 0, tag := 0, back := false }, result := none }
    let r (n : BitVec 9) := Instr.traceResume c (g 1) (g n) (.imm 0)
    let u : State := dev (fun d => { d with rays := [x] }) s
    let arm (d : Operand) (n : BitVec 9) := Instr.collArm c d (g n) (.imm 0x6005)
    let armed (s : State) (d : Operand) (n : BitVec 9) (l : Loc) : Bool := alone (arm d n) s fun _ e _ _ =>
      imageAt e (e.scalar 64 .int (g n)) == some l && !l.poisoned s.dev none 0 64 && granuleOk s.dev e.ctx false 64 && s.dev.collReqs.isEmpty
    let m := own (solo (e64 1 (dieAt 64) ++ e64 2 (teamAt 0)))
    alone (.trace c (g 1) (g 2) (g 4)) s any &&
    (alone (r 10) u fun _ e _ _ => u.dev.rays.any fun x => x.isAt e.core 7 && sameThread x.who ⟨0, 0, 0⟩ && x.candidate.isSome) &&
    alone (r 10) s any && s.dev.rays.isEmpty && (alone (r 11) u fun _ e _ _ => field (e.scalar 32 .int (g 11)) 17 16 == 3) &&
    alone (.stex c .spec (g 1) (g 2) (.imm 5)) s any && alone (.shcProbe c (g 1) (g 8) .none) s any &&
    alone (.shcFill c .none (g 8) (g 2)) s any && alone (.collReady c .none (.imm 5) .none) s any &&
    armed m (g 6) 2 (.tmem 0) && armed m .none 1 (.scr 64) = true := by decide +kernel

theorem witness_SystemRegisters :
    let any : TRef → Env → Team → Group → Bool := fun _ _ _ _ => true
    let s : State := dev (fun d => { d with grids := [{ Grid.plain (Kernel.plain 0 0) with deadline := some 77 }] }) (solo (e64 1 0xFFFFF9FFFFFFFFFF))
    quietAll (.dtime c (g 4) .none .none) filled && decide (filled.dev.frac < 2 ^ 32) && decide (filled.dev.nanos < 2 ^ 32) &&
    (([0, 1, 2, 3, 4, 5, 6, 7] : List (BitVec 20)).all fun n => alone (.sysr c (g 4) (.imm n) .none) s fun _ _ t _ => (s.dev.grid? t.grid).isSome) &&
    alone (.sysw c (sr 16) (g 1) .none) s any = true := by decide +kernel

/-- A thread before a trap, and the reads of its handler's entry. -/
theorem witness_TrapEntry :
    let d := (handled 16 (solo [(1, 4)])).dev
    let a := partRead d 0 (0x14000 + 256) 8
    let b := partRead a.2 0 (0x14000 + 264) 8
    (match d.team? 0 with
     | some t =>
       (ctxAt d t 3).toNat == 0x14000 && (match t.group? 0 with
       | some g => (match g.thread? 0 with | some h => h.depth == 0 && decide (64 ≤ h.sp) && decide (h.imgBase < 2 ^ 64) && decide (h.imgSlots < 2 ^ 32) | none => false)
       | none => false)
     | none => false) &&
    !globPoisoned d 0 (0x14000 + 256) 8 && !globPoisoned d 0 (0x14000 + 264) 8 && a.1 == some 0x15000 && b.1 == some (5 + 100 * 2 ^ 32) = true := by
  decide +kernel

/-- The same thread and entry, with cause 0x10 and a word to resume at. -/
theorem witness_TrapRoundTrip :
    let x : Trap := { cause := 0x10, fpc := 3, resume := 4, detail := 5, code := 5 }
    let d := (handled 16 (solo [(1, 4)])).dev
    let a := partRead d 0 (0x14000 + 256) 8
    (match d.team? 0 with
     | some t =>
       (ctxAt d t 3).toNat == 0x14000 && (match t.group? 0 with
       | some g => (match g.thread? 0 with | some h => h.depth == 0 && decide (64 ≤ h.sp) && decide (h.imgBase < 2 ^ 64) && decide (h.imgSlots < 2 ^ 32) | none => false)
       | none => false)
     | none => false) &&
    !globPoisoned d 0 (0x14000 + 256) 8 && !globPoisoned d 0 (0x14000 + 264) 8 && a.1 == some 0x15000 &&
    (partRead a.2 0 (0x14000 + 264) 8).1 == some (5 + 100 * 2 ^ 32) && decide (x.resume < 2 ^ 32) && decide (x.cause < 32) = true := by decide +kernel

theorem witness_SoftwareTraps :
    let i := Instr.trap c .none (.imm 5) .none
    let back := Instr.tret c .none .none .none
    let any : TRef → Env → Team → Group → Bool := fun _ _ _ _ => true
    alone i (solo []) any && alone (.brk c .none (.imm 5) .none) (solo []) any && served i (que [(1, 3)]) (fun _ _ => true) &&
    alone back (dev (fun d => { d with cur := .run 0 0 [0] [] 0 }) (after i (handled 16 (solo [])))) (fun _ e _ _ => e.h.depth == 1) &&
    alone back (solo []) (fun _ e _ _ => e.h.depth == 0) = true := by decide +kernel

theorem witness_FalseGuardsAdvance :
    let n : Ctl := ⟨0, false, false, 0, false, false⟩
    (([.mov n .w32 (g 1) (.imm 7) .none, .stG n .b64 (g 3) (g 1) (.imm 0), .exit n .none .none .none, .barTeam n .none (.imm 3) .none,
      .jpostCopy n true (h 2) (g 2) .none, .wait n .ge .none (g 1) (.imm 9)] : List Instr).all fun i =>
      !Roles.isEvent i && quietAll i filled && (actors i filled.dev).isEmpty && (issuers (filled.dev.prepare i)).length == 2) = true := by decide +kernel

theorem witness_RegisterRangeTraps :
    let s : State := solo [(6, 65536)]
    let held : State := group (fun g => { g with units := 1 }) s
    let big : State := group (fun g => { g with units := 4 }) s
    let m (i : Instr) : Bool := match issuers (startOf i s.dev) with
      | [(.thr _, e)] => e.own.isSome && e.h.guard c && (rangeCheck e i).isSome
      | _ => false
    m (.mov c .w32 (g 200) (.imm 7) .none) && m (.pset c (p 0) (g 300) (g 2)) && m (.pset c (p 0) (g 63) (g 64)) &&
    alone (.racq c .none (.imm 1) .none) big (fun _ _ t g => t.gather.isNone && decide (4 < g.units + 1)) &&
    alone (.rrel c .none (.imm 2) .none) held (fun _ _ _ g => decide (g.units < 2)) &&
    alone (.rep c .none (g 6) .none) s (fun _ e _ _ => decide (65535 < e.count (g 6))) = true := by decide +kernel

/-- A queue thread whose A names a launch record for a descriptor at 0x14000, both in memory. -/
def launching (w1 : Nat) : State := own (dev (fun d =>
  let d := { d with
    ctxs := AMap.set 0 d.ctxs 6 0x0100000000000000#64
    scr := Memory.writeN (Memory.writeN (Memory.writeN (Memory.writeN (Memory.writeN d.scr 64 8 0x14000) 72 8 w1) 80 8 1) 88 8 (2 ^ 63 + 128)) 96 8 5 }
  physWriteN (physWriteN (physWriteN (physWriteN (physWriteN d 0x14000 8 0x13000) 0x14008 8 (100 + 2 ^ 40)) 0x14018 8 (8 * 2 ^ 14 + 2 ^ 24 + 2 ^ 34))
    0x14100 8 0x15000) 0x14108 8 16) (que (e64 1 (dieAt 64))))

theorem witness_LaunchMakesGrid :
    let i := Instr.launch c .none (g 1) .none
    let s := launching (4 + 2 ^ 32)
    let sem (s : State) (e : Env) (off : Nat) : Bool :=
      match dieOffset e.die off with | some p => granuleOk s.dev e.ctx true (scrKey p.1 p.2) | none => false
    let rec_ (s : State) : List Nat := (List.range 8).map fun j => Memory.readN s.dev.scr (64 + 8 * j) 8
    let word (s : State) (e : Env) : Bool := queueWord e 64 (dieAt 64) == some 64 && granuleOk s.dev e.ctx true 64 && !poisoned s.dev 1 64 64
    (served i s fun q e => word s e && recordBad (rec_ s) (sem s e) == none && bitOf (ctxWord s.dev e.ctx 0).toNat 63 &&
      (match readWords e.ctx (queueRec e q 0 2) 0x14000 128 s.dev with
       | (some ws, d1) =>
         let k := kernelOf ws
         decide (largestSave k ≤ field (ctxWord d1 e.ctx 6).toNat 63 32) && descriptorBad ws == none && k.curve != 3 && regionsBad ws k.tmem == none &&
         k.affinity == none && (match readBanks e.ctx (queueRec e q 0 2) ws 0 15 [] d1 with
         | (some _, d2) => !(d2.queue q).stopping
         | _ => false)
       | _ => false)) &&
    (served i (launching 0) fun _ e => word (launching 0) e && (recordBad (rec_ (launching 0)) (sem (launching 0) e)).isSome) = true := by decide +kernel

theorem witness_QueueInstructions :
    let w (v : Nat) := Instr.semWaitGe c .none (g 1) (.imm v)
    let at16 (i : Instr) : Bool := served i atQueue fun _ e =>
      queueWord e 8 (dieAt 16) == some 16 && granuleOk atQueue.dev e.ctx true 16 && !poisoned atQueue.dev 1 16 8
    let high : Instr := .semWaitGe c .none (g 1) (g 3)
    let t (i : Instr) (n : BitVec 9) (v : Bool) : Bool := served i (que (e64 3 9)) fun _ e =>
      (dtime64 (que []).dev - BitVec.ofNat 64 (e.scalar 64 .int (g n))).msb == v
    let ring (w3 : DWord) : State := own (dev (fun d => d.setQueue 0 { d.queue 0 with w3 }) (que []))
    let next := Instr.qnext c (g 4) .none .none
    at16 (w 5) && decide (5 ≤ Memory.readN atQueue.dev.scr 16 8) && at16 high && decide (Memory.readN atQueue.dev.scr 16 8 < 0xAABBCCDDEEFF0011) &&
    !(atQueue.dev.queue 0).stopping && at16 (.semSig c true .none (g 1) (g 3)) && at16 (.semSig c false .none (g 1) (g 3)) &&
    t (.ttrig c .none (g 3) .none) 3 true && t (.ttrig c .none (g 6) .none) 6 false && served (.intr c .none (.imm 2047) .none) (que []) (fun _ _ => true) &&
    served next (ring 0x500000005#64) (fun _ _ => true) && !((ring 0).dev.queue 0).stopping &&
    (served next (ring 0x500000006#64) fun _ e => let q := (ring 0x500000006#64).dev.queue 0
      granuleOk (ring 0).dev e.ctx true (ringKey q 5) && !poisoned (ring 0).dev 1 (ringKey q 5) 8) = true := by decide +kernel

/-- The machine between instructions, and the state after an event there. -/
def idle : State → State := dev fun d => { d with cur := .none }
def event (i : Instr) (s : State) : State := after i (idle s)

/-- Two groups on core 0, the second with no lane. -/
def two : State := team (fun t => { t with groups := t.groups ++
  [{ Group.launch t.kernel 1 0 2 with active := some 0, since := some 0 }] }) start
def gone : State → State := group fun g => { g with threads := g.threads.map fun h => { h with st := .exited } }

theorem witness_CoreEvents :
    let limit : State := group (fun g => { g with active := some 0, laneNo := some 2, runs := 64 }) two
    let old : State := dev (fun d => { (d.mapGroup 0 1 fun g => { g with active := none, since := some 3 }).mapGroup 0 0
      (fun g => { g with active := some 5 }) with cycle := 5000 }) two
    let want : State := dev (fun d => { d with racq := [(0, 0, 0)] }) (group (fun g => { g with block := some (.racq 2 5 [0, 1]) }) start)
    let last (s : State) : Bool := (match s.dev.team? 0, s.dev.group? 0 0 with
      | some t, some g => t.stat == .running && !g.ended && (g.threads.all fun h => h.st == .exited) && groupQuiet s.dev 0 0 | _, _ => false)
    let left (s : State) : Bool := match (s.dev.mapGroup 0 0 fun g => { g.leave with ended := true }).team? 0 with
      | some t => t.groups.all (·.ended) | none => false
    ((limit.dev.bay 0 0).any fun x => x.2.laneNo == some 2 && decide (64 ≤ x.2.runs)) &&
    ((limit.dev.bay 0 0).any fun x => x.2.active.isSome && x.2.laneNo.isNone && x.2.canRun) &&
    (((old.dev.bay 0 0).find? fun x => x.2.gslot == 0).any fun x => x.2.active.any fun a => decide (a + 4096 ≤ old.dev.cycle)) &&
    ((old.dev.bay 0 0).any fun x => x.2.active.isNone && x.2.since.isSome) && (start.dev.inSlot 0 0).isSome &&
    (match want.dev.team? 0, want.dev.group? 0 0 with
     | some t, some g => g.block == some (.racq 2 5 [0, 1]) && decide (t.kernel.width * 64 * 2 ≤ freeSlots want.dev 0) | _, _ => false) &&
    last (gone start) && left (gone start) && last (gone two) && !left (gone two) &&
    (let s : State := dev (fun d => { d with serving := [(3, 5)], serveAt := [(3, 10)], cycle := 250 }) start
     AMap.get 0 s.dev.serving 3 != 0 && decide (AMap.get 0 s.dev.serveAt 3 + 240 ≤ s.dev.cycle)) &&
    !(dtime64 start.dev - 0#64).msb = true := by decide +kernel

/-- A grid of 4 by 4 teams of two groups and a tile, three of them ended. -/
def gridded : State :=
  let k := { Kernel.plain 0x13000 4096 with groups := 2, tiles := 1, curve := 2 }
  dev (fun d => { d with nextId := 44, teams := [], grids := [{ Grid.plain k with gx := 4, gy := 4, next := 3, placed := 3, ended := 3, id := 5 }] }) start
/-- A team about to stage, one being saved, one being restored, one that waits at a barrier for 2^32 cycles, and an ended grid. -/
def staging : State := team (fun t => { t with stat := .staging }) start
def saving : State := team (fun t => { t with stat := .saving, save := some (0, 8192) })
  (dev (fun d => { d with ctxs := AMap.set 0 (AMap.set 0 d.ctxs 5 0x20000) 6 0x0100000000000000#64 }) start)
def restoring : State := team (fun t => { t with stat := .restoring, savedAt := 3 }) (dev (fun d => { d with cycle := 50 }) start)
def waiting : State := team (fun t => { t with bars := [⟨3, 1, 5⟩] })
  (lane 0 (fun h => { h with st := .parked (.barTeam 3) }) (dev (fun d => { d with cycle := 2 ^ 32 + 10 }) start))
def ended : State := dev (fun d => { d with teams := [], grids := [{ Grid.plain (Kernel.plain 0 0) with ended := 1, endSem := some (128, 7#64) }] }) (own start)

theorem witness_SchedulerEvents :
    (match chooseGrid gridded.dev gridded.mgmt 0 with
     | some (g, none) => g.id == 5 && (findPlace (setPtr gridded.dev (dieKey 0 g.prio) g.queue) g).isSome &&
       (g.waiting (setPtr gridded.dev (dieKey 0 g.prio) g.queue)).isNone && g.nextTeam.isSome
     | _ => false) && gridded.mgmt.places && !(gridded.dev.kerfAt 0).emergency &&
    ((staging.dev.team? 0).any fun t => t.stat == .staging && !t.held &&
      let base : ErrRec :=
        { cls := 0, sev := 2, kind := 0, index := t.core, ctx := some t.ctx, grid := some t.grid, addr := 0, team := linearIndex staging.dev t }
      match ((stageTeam { ctx := t.ctx, core := t.core, team := t.id, who := .part t.ctx, base, cut := false } t).on staging.dev).1 with
      | .ok _ => true | .error _ => false) &&
    ((saving.dev.team? 0).any fun t => t.stat == .saving && saveReady saving.dev t) &&
    ((restoring.dev.team? 0).any fun t => t.stat == .restoring) &&
    ((ended.dev.grid? 0).any fun g => gridDone ended.dev g && (ended.dev.queue g.queue).wait != .grid 0) &&
    (let s := dev (fun d => d.setQueue 0 { Queue.blank with wait := .grid 0 }) ended
     (s.dev.grid? 0).any fun g => gridDone s.dev g && (s.dev.queue g.queue).wait == .grid 0) &&
    ((waiting.dev.team? 0).any fun t => t.resident && t.stat != .restoring &&
      (sortBy (·.start) (watchedWaits waiting.dev t)).head?.any fun w => decide (w.start + 2 ^ waiting.mgmt.wdLog2 < waiting.dev.cycle)) = true := by
  decide +kernel

/-- Queue 5 of die 0 with a descriptor, in a granule the context may keep queues in. -/
def withQueue (v : Nat) : State := dev (fun d => { d with
  owners := AMap.set 0 d.owners 0 0xA0000000#32
  scr := Memory.writeN (Memory.writeN d.scr (queueKey 0 5) 8 256) (queueKey 0 5 + 8) 8 v }) (solo (e64 1 (dieAt 16) ++ [(4, 5), (6, 0x55)]))
def pushing (v : Nat) : State := idle (after (.qpush c .none (g 4) (g 3)) (withQueue v))
def popping (v : Nat) : State := idle (after (.qpop c (g 3) (g 4) .none) (withQueue v))
def globStore (a : Nat) : State := idle (after (.stG c .b64 (g 3) (g 1) (.imm 8)) (solo (e64 1 a ++ e64 3 7)))

theorem witness_MemoryEvents :
    let got : State := idle (arrived (after (.ld c .b64 (g 4) (g 1) (.imm 0)) atDie))
    let store := idle (after (.st c .b64 (g 3) (g 1) (.imm 0)) atDie)
    let load := idle (after (.ld c .b64 (g 4) (g 1) (.imm 0)) atDie)
    let test := idle (after (.wait c .ge .none (g 1) (.imm 9)) atDie)
    let tiles (i : Instr) := idle (after i (tiled [(9, 4), (48, 5)]))
    let acc (s : State) (space : Nat) (f : Access → Bool) : Bool := s.dev.scrWrites.head?.any fun a =>
      (s.dev.scrWrites.find? fun x => x.id == a.id) == some a && !behindOwn s.dev s.dev.scrWrites a && !heldBy s.dev a.after && a.space == space && a.rel.isNone && f a
    let team (k : AccKind) : Bool := acc (idle (onWay k atTeam)) 2 fun a => a.result.isSome && peerHit atTeam.dev a.ctx (a.key / 2 ^ 19) (a.key % 2 ^ 19)
    let good (s : State) (w : Bool) (a : Access) : Bool := granuleOk s.dev a.ctx w a.key && !poisoned s.dev 1 a.key 8
    let tile (s : State) (a : Access) : Bool := !tileInflight s.dev (a.key / 2 ^ 19) (a.key / 2 ^ 16 % 8) &&
      !issuerSaved s.dev a.who && tileHeld s.dev a.ctx (a.key / 2 ^ 19) (a.key / 2 ^ 16 % 8) && !poisoned s.dev 3 a.key 32
    let bare : State := dev (fun d => { d with owners := [] }) load
    let waits (k v : Nat) : State := dev (fun d => physWriteN { d with
      watch := [⟨k, .thread ⟨0, 0, 0⟩ 0, 2, v, false⟩], scr := Memory.writeN d.scr 16 8 5 } 0x14000 8 4) start
    let push (s : State) (v : Bool) : Bool := s.dev.qops.head?.any fun o => !o.waiting && o.value.isSome == v &&
      (if v then (tryRelease s.dev o.who (coreOfRef s.dev o.who) 6 o.id).1 else true)
    let fit (s : State) : Bool := s.dev.qops.head?.any fun o => let q := queueDesc s.dev o.die o.number
      q.enabled && q.ctx == o.ctx && !queueMalformed s.dev o.die q && !q.poisoned && !poisoned s.dev 1 (queueKey o.die o.number) 16
    let req (s : State) (f : Access → Walk → Dev → Bool) : Bool := s.dev.reqs.head?.any fun a => (reqReady s.dev a).1 &&
      (let w := translate (reqReady s.dev a).2 a.ctx a.addr a.kind.need; f a w.1 w.2)
    let bad : State := dev (fun d => physWriteN d 0x10000 8 3) (globStore 0x14000)
    (got.dev.results.any fun r => r.value.isSome && (got.dev.thread? (got.dev.refNow r.who)).any fun h => h.st != .exited) &&
    acc store 1 (fun a => good store false a && match a.kind with | .store _ _ => true | _ => false) &&
    acc load 1 (fun a => good load false a && a.result.isSome && match a.kind with | .load _ => true | _ => false) &&
    acc test 1 (fun a => good test true a && match a.kind with | .test _ _ => true | _ => false) &&
    team (.store 1 5) && team (.load 1) && team (.atom .add .n32 1 0) && !poisoned atTeam.dev 2 16 8 &&
    acc bare 1 (fun a => !granuleOk bare.dev a.ctx false a.key && match a.kind with | .test _ _ => false | _ => true) &&
    acc (tiles (.tst c (t 3) (g 6) (g 9))) 3 (tile (tiles (.tst c (t 3) (g 6) (g 9)))) &&
    acc (tiles (.tld c (g 6) (t 3) (g 9))) 3 (fun a => a.result.isSome && tile (tiles (.tld c (g 6) (t 3) (g 9))) a) &&
    waitHolds 2 (Memory.readN (waits 16 5).dev.scr 16 8) 5 && decide (4 ≤ physReadN (waits (2 ^ 60 + 0x14000) 4).dev 0x14000 8) &&
    push (pushing 0x0221) true && fit (pushing 0x0221) && push (popping 0x01000121) false && fit (popping 0x01000121) &&
    push (pushing 0) true && push (popping 0) false && !(queueDesc (popping 0).dev 0 5).enabled &&
    req (globStore 0x14000) (fun a w u => match w with
      | .leaf e _ size => placementFault a (field e.toNat 53 52) == false && (match targetOf e a.addr size with
        | .phys pa => frameOk u pa && !tierLost (countAccess (removeReq u a) e pa) u.isLost pa | _ => false)
      | _ => false) &&
    req (globStore 0x140000000000) (fun _ w _ => match w with | .pageFault _ _ _ => true | _ => false) &&
    req bad (fun _ w _ => w == .bad) &&
    (after (.homeSliceRequest (((globStore 0x14000).dev.reqs.head?.map (·.id)).getD 0)) (globStore 0x14000)).dev.acks.length == 1 &&
    ((after (.diePortWrite ((bare.dev.scrWrites.head?.map (·.id)).getD 0)) bare).dev.late.any fun x =>
      match x.who with | .thread _ _ => true | _ => false) = true := by decide +kernel

/-- A job of cluster 0 that copies within HBM, as its card comes from R243 to R245, changed by `f`. -/
def copyJob (f : Job → Job) : State := dev (fun d => d.setJoin 0 { d.join 0 with count := 3, jobs := [f { idleJob with
  card := [0x00A2880000800000#64, 0#64, 0x2000000000014000#64, 0x0000010000000100#64, 0, 0, 0x2000000000015000#64, 0] }] }) start

theorem witness_JobEvents :
    let held (v : Bool) : State := dev (fun d => { d with cards := [{ core := 0, job := idleJob, upto := 0, ordAfter := none }] })
      (if v then behindDie start else start)
    let one (s : State) (f : Job → Bool) : Bool := (s.dev.join 0).jobs.head?.any f
    let work (s : State) (b : Job) := (workOut s.dev 0 b false).1
    let issued (n : Nat) := copyJob fun j => { j with state := .issued, engine := some 0, shares := (List.range n).map fun k => ⟨k, some k⟩ }
    let wrong : State := dev (fun d => { d with poison := [⟨5, poisonWord 5 0x14000⟩] }) (issued 1)
    let word : State := own (copyJob fun j => { j with state := .issued, drain := true, card := (j.card.set 0 0x00A2980000800000#64).set 1 16 })
    let ready := copyJob fun j => { j with state := .ready }
    let rooted := copyJob fun j => { j with state := .waiting, failedRoot := some 9 }
    let halted : State := dev (fun d => { d with ctxs := [] }) (copyJob fun j => { j with state := .paged 5 })
    let runs (b : Job) : Bool := b.state == .issued && !b.drain && (b.shares.find? b.runs).isSome
    ((held false).dev.cards.any fun x => (tryRelease (held false).dev x.job.who 0 4 x.upto).1 && !x.job.cancelAsked) &&
    one ready (fun b => chooseJob (jobFits ready.dev ready.mgmt 0)
        (fun b => heldBack (heldItems ready.dev ready.mgmt 0) (.job 0 b.seq) (jobPrio b.card)) (issueOrder (ready.dev.join 0)) none == some (none, b) &&
      !poisoned ready.dev 6 (jobWord 0 b.slot) 8 && (jobTiles b.card).isEmpty) &&
    ready.mgmt.places && !(ready.dev.kerfAt 0).emergency && one (issued 2) (fun b => runs b && decide (1 < b.shares.length)) &&
    one (issued 1) (fun b => runs b && decide (b.shares.length ≤ 1) && !jobCw b.card && b.lost.isNone && (work (issued 1) b).isNone) &&
    (one (issued 1) fun b => match ((runJob (jobEng 0 b false) b.card).on (issued 1).dev).1 with | .ok _ => true | .error _ => false) &&
    one wrong (fun b => runs b && decide (b.shares.length ≤ 1) && (work wrong b).isSome) &&
    one word (fun b => b.lost.isNone && jobCw b.card && (storeWord word.dev b).isSome) && one rooted (fun b => b.preds.isEmpty && b.failedRoot.isSome) &&
    one halted (fun b => b.state == .paged 5 && !bitOf (ctxWord halted.dev b.ctx 0).toNat 63) = true := by decide +kernel

/-- A ray from the origin along x, and rays with another first direction or a minimum that is no number; one in slot 3. -/
def rayOf (dir tmin : Nat) : Ray :=
  newRay 0 ⟨0, 0, 0⟩ 0 0x14000 (([0, 0, 0, tmin, dir, 0, 0, 0x42C80000] ++ List.replicate 8 0).map (BitVec.ofNat 32)) 7
def traced (r : Ray) : State := dev (fun d => { d with rays := [{ r with slot := some 3 }] }) start
/-- A spectral texture request for entry 256, its table at 0x10000 with count 512. -/
def texed : State := dev (fun d =>
  let d := { d with ctxs := AMap.set 0 d.ctxs 1 0x10200#64, tex := [
    { id := 5, who := ⟨0, 0, 0⟩, ctx := 0, core := 0, mode := .spec, index := 256, packet := 0, lambda := 0x0000080138809C40#64, result := 3, held := none }] }
  physWriteN (physWriteN (physWriteN d 0x14000 8 0x15000) 0x14010 8 1) 0x15000 4 0x3F800000) start

theorem witness_UnitEvents :
    let free : State := dev (fun d => { d with rays := [rayOf 0x3F800000 0] }) start
    let is (s : State) (v m : Bool) : Bool := s.dev.rays.any fun r => r.isAt 0 3 && r.result.isSome && r.candidate.isNone && r.held.isNone && rayInvalid r == v && rayMisses r == m
    let q : ShcReq := { id := 5, who := ⟨0, 0, 0⟩, ctx := 0, core := 0, key := 77, fill := none, result := some 3 }
    let e (v : Bool) : ShcEntry := { core := 0, set := 77, way := 0, ctx := 0, key := 77, valid := v, values := [1, 2, 3, 4, 5, 6, 7], age := 1 }
    let at_ (l : List ShcEntry) : Dev := { start.dev with shcReqs := [q], shc := l }
    let taken : List ShcEntry := (List.range 4).map fun k => { e false with key := BitVec.ofNat 64 (78 + k), way := k }
    (free.dev.rays.any fun r => r.core == 0 && mayTake free.dev r) &&
    ((List.range Config.raySlots).find? fun k => !free.dev.rays.any fun x => x.isAt 0 k) == some 0 &&
    ((traced (rayOf 0x3F800000 0x7FC00000)).dev.rays.any fun r => r.isAt 0 3 && r.result.isSome && r.candidate.isNone && rayInvalid r) &&
    is (traced (rayOf 0 0)) false true && is (traced (rayOf 0x3F800000 0)) false false &&
    (texed.dev.tex.head?.any fun q => match ((stexValue (unitEng texed.dev q.core q.ctx q.who) q
      (texWord texed.dev q)).on texed.dev).1 with | .ok _ => true | .error _ => false) &&
    (start.dev.teams.any fun t => t.ctx == q.ctx) && shcFind (at_ [e true]) 0 0 77 == some (e true) && shcFind (at_ [e false]) 0 0 77 == some (e false) &&
    (shcFind (at_ []) 0 0 77).isNone && shcWay (at_ []) 0 (shcSet 77) == some 0 && shcSet 77 == 77 && (shcFind (at_ taken) 0 0 77).isNone &&
    (shcWay (at_ taken) 0 (shcSet 77)).isNone = true := by decide +kernel

/-- Entry 0 of stack 0: an all-reduce of 256 bytes at 0x14000 with agent 0x21, running as `f` says. -/
def image : List DWord := [0x0000010000000001#64, 0x14000#64, 0x14000#64, 0x0000002100000000#64, 0, 0, 0, 0x0000000700000100#64]
def agent (head : Nat) (f : Firing → Firing) : State := own (dev (fun d => { d with
  entries := ((image.set 0 (BitVec.ofNat 64 (head + 0x10000000001))).zip (List.range 8)).foldl (fun m p => AMap.set 0 m p.2 p.1) []
  firings := AMap.set Firing.blank [] 0 (f { Firing.blank with plan := .direct, rank := 0, since := some 5, count := 9 }) }) start)
def firing : Nat := 2 ^ 63 + 2 ^ 62 + 2 ^ 61

theorem witness_CollectiveEvents :
    let s := agent firing id
    let again := agent firing fun f => { f with replan := some { since := 5, plane := 0, own := false, answered := [] } }
    let late : State := dev (fun d => { d with cycle := 5 * 10 ^ 9 }) again
    let up (s : State) : State := dev (fun d => d.setPort 16 { d.port 16 with state := .up }) s
    let broken : State := dev (fun d => d.setPort 16 { d.port 16 with state := .failed }) s
    let q (m : Option (List DWord)) : CollReq := { id := 4, who := ⟨0, 0, 0⟩, core := 0, ctx := 0, selector := 0, image := m, result := none }
    let asks (s : State) (m : Option (List DWord)) : Dev := { s.dev with collReqs := [q m] }
    let runs (s : State) : Bool := entryRunning (entryWord s.dev 0 0 0)
    let p := agentPair 0 0x21
    runs s && runs late && !runs (agent (2 ^ 63) id) && (s.dev.firing 0 0).count == 9 && (s.dev.firing 0 0).replan.isNone && !(s.dev.firing 0 0).determinism &&
    !collBehind (asks s (some image)) (q (some image)) && !collBehind (asks (agent (2 ^ 63) id) none) (q none) && s.dev.collReqs.isEmpty &&
    (tryRelease (asks (agent (2 ^ 63) id) none) ⟨0, 0, 0⟩ 0 7 4).1 && (collJob s.dev 0 0).rank == 0 && (collJob s.dev 0 0).n == 2 &&
    s.mgmt.runs && s.mgmt.boot.gen == 0 && (s.dev.in_ p).next == 0 && (s.dev.in_ p).waiting.isEmpty &&
    aheadOf (s.dev.firing 0 0) 9 == 0 && aheadOf (s.dev.firing 0 0) 10 == 1 && decide (aheadOf ((agent (2 ^ 63) id).dev.firing 0 0) 9 < 32768) &&
    ((List.range 2).flatMap fun r => piecesOf (collJob s.dev 0 0) (s.dev.firing 0 0).plan r).contains (0, 256) &&
    (badPlane (up s).dev 0 (s.dev.firing 0 0)).isNone && badPlane broken.dev 0 (broken.dev.firing 0 0) == some 0 && runs broken && ((late.dev.firing 0 0).replan.any fun p => decide (p.since + 4000000 ≤ late.dev.cycle)) &&
    ((late.dev.firing 0 0).since.any fun t => decide (t + 4000000000 ≤ late.dev.cycle)) && decide ((late.dev.firing 0 0).agreed.length + 1 < 2) = true := by decide +kernel

/-- The part running, port 0 holding semaphore n. -/
def counting : State := regs (fun m => { m with migCfg := 0x8000004000100008#64 }) (holding 2)

theorem witness_MigrationEvents :
    let moving : State := dev (fun d => { d with migr := [{ frame := 3, dest := 0x8000000000000005#64, copied := 0 }] }) counting
    let late : State := dev (fun d => { d with cycle := 10 ^ 9 }) counting
    let mid : State := dev (fun d => { d with indir := AMap.set 0 d.indir 3 0xA000000000000005#64 }) counting
    let data : State := regs (fun m => { m with migData := 0x8000000000000009#64 }) counting
    counting.mgmt.counting && counting.mgmt.runs && decide (sliceOf 3 < Config.slices) && (moving.dev.migr.any fun x => sliceOf x.frame == sliceOf 3) &&
    decide (periodStart late.dev (sliceOf 3) + field counting.mgmt.migCfg.toNat 6 0 * 4000000 ≤ late.dev.cycle) &&
    decide (counting.dev.cycle < periodStart counting.dev (sliceOf 3) + field counting.mgmt.migCfg.toNat 6 0 * 4000000) &&
    counting.dev.migr.isEmpty && !bitOf counting.mgmt.migReq.toNat 63 && gate counting 0 (some 2) false == .taken &&
    (entMoving (indirAt mid.dev 3) || entMoving (indirAt moving.dev 3)) && !entMoving (indirAt data.dev 7) && (writeEntry data.dev 7 data.mgmt.migData).1 &&
    gate start 0 (some 2) false == .refused = true := by decide +kernel

theorem witness_ErrorEvents :
    let s := start.dev
    let k (m : Nat) (b : Bool) : Dev := s.setStack 2 { s.stackAt 2 with missed := m, allBank := b }
    (3 != 0 && !bitOf start.mgmt.migReq.toNat 63 && !(s.poison.contains ⟨2, poisonWord 2 77⟩) && decide (2 < Config.hbmStacks) &&
    !(s.stackAt 2).allBank && (s.stackAt 2).refreshing.isEmpty && !((k 3 false).stackAt 2).allBank && ((k 3 false).stackAt 2).missed == 3 &&
    ((k 3 true).stackAt 2).allBank) = true := by decide +kernel

theorem witness_KerfEvents :
    let k (c : Nat) (f : KerfDie → KerfDie) : State := dev (fun d => { d.setKerf 0 (f (d.kerfAt 0)) with cycle := c }) start
    let warm := k 5000000 fun x => { x with throttled := true, below92 := some 3 }
    let hot := k 500000000 fun x => { x with emergency := true, since := 3 }
    let none_ : State := dev (fun d => { d with teams := [] }) start
    let slept : State := dev (fun d => { d with cycle := 5000000 }) none_
    (start.mgmt.runs && decide ((16 * 106 : Int) < 16 * 115) && decide (0 < Config.dies) && (warm.dev.kerfAt 0).throttled &&
    (warm.dev.kerfAt 0).below92 == some 3 && !(warm.dev.kerfAt 0).emergency && (hot.dev.kerfAt 0).emergency &&
    decide ((hot.dev.kerfAt 0).since + 400000000 ≤ hot.dev.cycle) && !(warm.dev.kerfAt 0).silent &&
    decide ((warm.dev.kerfAt 0).sampled + 400000 ≤ warm.dev.cycle) && none_.dev.teams.isEmpty && none_.dev.joins.isEmpty &&
    decide (4000000 ≤ slept.dev.cycle) && decide (max 1 (AMap.get 0 slept.dev.idle 0) + 4000000 ≤ slept.dev.cycle + 1) &&
    decide (none_.dev.cycle + 1 < max 1 (AMap.get 0 none_.dev.idle 0) + 4000000)) = true := by decide +kernel

/-- A store of lane 0 sent to another package by a port. -/
def sentStore (port : Nat) : Sent :=
  { seq := 4, endpoint := 7, gen := 3, rctx := 0, raddr := 0x14000, planes := 1, port, at_ := 5, since := 5
    access := { id := 5, who := .thread ⟨0, 0, 0⟩ 0, ctx := 0, pc := 3, space := 0, addr := 0x14000, key := 0, rel := none, after := [], det := false,
                faulted := false, kind := .store 8 77, result := none, ltag := 0, stamp := 0, die := 0 } }

/-- The boot registers changed. -/
def boots (f : Boot → Boot) : State := regs (fun m => { m with boot := f m.boot }) start

theorem witness_BootEvents :
    let reset := boots fun b => { b with state := .reset, trained0 := true }
    let timed : State := dev (fun d => { d with cycle := 800000000 }) reset
    let free := boots fun b => { b with state := .waiting, owner := none }
    let owned := boots fun b => { b with state := .waiting, owner := some 0, pending := some 7 }
    let streamed := boots fun b => { b with state := .waiting, owner := some 0, pending := none, streamed := true }
    let check := boots fun b => { b with state := .verifying, length := 1024 }
    let load := boots fun b => { b with state := .loading }
    let asks : State := regs (fun m => { m with attest := { m.attest with building := true } }) start
    let sleeps : State := regs (fun m => { m with power := .standby }) (holding 0)
    (regs (fun m => { m with power := .off }) start).mgmt.power == .off && reset.mgmt.boot.state == .reset && reset.mgmt.boot.trained0 &&
    !reset.dev.isLost 1 && decide (800000000 ≤ timed.dev.cycle) && free.mgmt.boot.owner.isNone && !free.dev.isLost 0 && owned.mgmt.boot.owner == some 0 &&
    owned.mgmt.boot.pending == some 7 && streamed.mgmt.boot.streamed && hostOk owned 0 && check.mgmt.boot.state == .verifying &&
    (bundleFailure check.dev 1024).isSome && load.mgmt.boot.state == .loading && hostOk start 0 && start.mgmt.boot.state == .running &&
    start.mgmt.attestOpen && !start.mgmt.attest.building && !start.mgmt.attest.broken && asks.mgmt.attest.building && gate (holding 0) 0 (some 0) true == .taken &&
    gate sleeps 0 (some 0) true == .taken = true := by decide +kernel

/-- Where no context is valid, halting every context changes nothing. -/
theorem haltAll_idle {d : Dev} (h : d.ctxs = []) : haltAll d = d := by
  have : ∀ l : List Nat, l.foldl (fun d c => if bitOf (ctxWord d c 0).toNat 63 then haltContext d c else d) d = d := by
    intro l
    induction l with
    | nil => rfl
    | cons c r ih => simpa [ctxWord, h, AMap.get, bitOf] using ih
  exact this _

/-- The part with no context valid, port 0 holding semaphore 0: nothing is outstanding, or a request to another package. -/
def resting (outs : AMap PeerOut) : State := dev (fun d => { d with ctxs := [], outs }) (holding 0)

theorem witness_StandbyEntry :
    let waits := resting [(9, { PeerOut.blank with next := 5, sent := [sentStore 0] })]
    fabricQuiet (beginStandby (resting [])).dev = true ∧ fabricQuiet (beginStandby waits).dev = false ∧
    (gate (resting []) 0 (some 0) true == .taken && gate waits 0 (some 0) true == .taken && waits.mgmt.power == .active && !waits.mgmt.entering) = true := by
  refine ⟨?_, ?_, by decide +kernel⟩
  · rw [beginStandby, haltAll_idle (by decide +kernel)]; decide +kernel
  · rw [beginStandby, haltAll_idle (by decide +kernel)]; decide +kernel

theorem witness_RegisterEvents :
    let closed := boots fun b => { b with state := .waiting }
    let shut : State := dev (fun d => d.setOut 0x800005 { PeerOut.blank with closed := true }) (holding 2)
    let v : DWord := 0x8000000000800005#64
    let w : DWord := 0x8000000000180005#64
    let inval : State := regs (fun m => { m with inval := BitVec.ofNat 64 (2 ^ 31 + 5) }) (holding 2)
    gate closed 0 (some 2) false == .closed && gate start 0 (some 2) false == .refused && gate (holding 2) 0 (some 2) false == .taken &&
    !bitOf (holding 2).mgmt.inval.toNat 31 && gate shut 0 (some 2) false == .taken && !bitOf shut.mgmt.reopenReg.toNat 63 && bitOf v.toNat 63 &&
    bitOf v.toNat 23 && !(reopenPairs shut.dev v.toNat).isEmpty && bitOf w.toNat 63 && !bitOf w.toNat 23 && w.toNat / 2 ^ 19 % 16 != 0 && bitOf inval.mgmt.inval.toNat 31 && inval.mgmt.runs && hostOk start 0 &&
    hostOk start 1 && start.mgmt.isOpen true && !(start.mgmt.sem 31).held && hostOk (holding 31) 0 && (holding 31).mgmt.isOpen true &&
    (holding 31).mgmt.holds 0 31 && gate (holding 0) 0 (some 0) false == .taken = true := by
  decide +kernel

theorem witness_QueueEvents :
    let q (f : Queue → Queue) : State := dev (fun d => { d.setQueue 3 (f { d.queue 3 with w0 := 0, w1 := 0x003D090080000000#64, w2 := 0x14000 }) with
      owners := [(0, 0xA0000000#32)] }) start
    let on := q fun y => { y with w0 := 0x8000000000000000#64, wait := .ring }
    let off := q id
    let fn : HostFn := ⟨0, 0⟩
    let used : State := dev (fun d => { d with owners := [(1031, 0x80000005#32)] }) (holding 2)
    hostOk off fn.port && off.mgmt.isOpen true && off.mgmt.isOpen false && enableOk off.dev (off.dev.queue 3) (2 ^ 63) &&
    !enableOk { off.dev with ctxs := [] } (off.dev.queue 3) (2 ^ 63) && (on.dev.queue 3).w0.msb && (on.dev.queue 3).wait == .ring &&
    !(off.dev.queue 3).w0.msb && !(off.dev.queue 3).enabled && decide ((1 + 2 ^ 32 - (on.dev.queue 3).head) % 2 ^ 32 ≤ (on.dev.queue 3).ringSize) &&
    decide ((on.dev.queue 3).ringSize < (10 ^ 9 + 2 ^ 32 - (on.dev.queue 3).head) % 2 ^ 32) && gate used 0 (some 2) false == .taken &&
    (ownerEntry used.dev (scrKey 1 (7 * 65536))).msb && !(ownerEntry (holding 2).dev (scrKey 1 (7 * 65536))).msb = true := by decide +kernel

theorem witness_WindowEvents :
    let s : State := dev (fun d => { d with scr := Memory.writeN d.scr 64 8 0x1122334455667788 }) start
    let own := boots fun b => { b with owner := some 1 }
    let named : State := dev (fun d => d.setQueue 3 { d.queue 3 with w0 := BitVec.ofNat 64 (5 * 2 ^ 45) }) start
    let lost : State := dev (fun d => { d with losses := [(1, 2)], cycle := 4000002 }) (holding 4)
    hostOk s 0 && s.mgmt.runs && ((List.range 8).all fun k => bar2Open (64 + k) && (64 + k) % 2 ^ 26 / 65536 != 1023) && !poisoned s.dev 1 64 8 &&
    s.dev.watch.isEmpty && s.mgmt.isOpen true && frameOk s.dev (AMap.get 0 s.mgmt.windows 0 * 2 ^ 32 + 0x14000) &&
    !tierLost s.dev s.dev.isLost (AMap.get 0 s.mgmt.windows 0 * 2 ^ 32 + 0x14000) && 0x14000 % 128 == 0 && s.mgmt.boot.state == .running && s.mgmt.boot.owner.isNone && (own.mgmt.boot.owner == some 1) && decide (own.mgmt.boot.reason < 256) &&
    reachesQueue named.dev ⟨0, 5⟩ 3 && !reachesQueue named.dev ⟨0, 6⟩ 3 && !bitOf s.mgmt.migReq.toNat 63 &&
    (lost.dev.losses.find? fun x => x.1 == 1 && decide (x.2 + 4000000 ≤ lost.dev.cycle)).isSome = true := by decide +kernel

theorem witness_TimeEvents :
    let t (src : Nat) : State := regs (fun m => { m with timeCtl := BitVec.ofNat 64 (1 + src * 2 + 5 * 2 ^ 24 + 0xA00000000) }) (holding 1)
    let p : State := regs (fun m => { m with ppsSecs := BitVec.ofNat 64 (2 ^ 63 + 8) }) (t 2)
    gate (holding 1) 0 (some 1) false == .taken && (t 1).mgmt.disciplined && (t 1).mgmt.source == 1 && (t 1).mgmt.domain == 5 && (t 1).mgmt.stepUs == 10 &&
    let f : State := regs (fun m => { m with ptp := { m.ptp with best := some (7, []), pending := some (3, 5, 1), down := some (4, 5), asked := some (3, 6) } }) (t 1)
    (t 1).mgmt.ptp.best.isNone && (t 1).mgmt.transport == 0 && f.mgmt.ptp.best == some (7, []) && f.mgmt.ptp.pending == some (3, 5, 1) &&
    f.mgmt.ptp.asked == some (3, 6) && f.mgmt.ptp.down == some (4, 5) && p.mgmt.disciplined && p.mgmt.source == 2 && bitOf p.mgmt.ppsSecs.toNat 63 && decide (p.dev.nanos < 5) = true := by decide +kernel

/-- Port k as `f` makes it, some time later. -/
def ported (k : Nat) (f : Port → Port) : State := dev (fun d => { d.setPort k (f (d.port k)) with cycle := 50000000 }) (holding 2)

theorem witness_LinkEvents :
    let failed := ported 3 fun p => { p with state := .failed, failedAt := 3, reason := 2 }
    let training := ported 3 fun p => { p with state := .training, trainedAt := 3 }
    linkKey ⟨false, 3⟩ == 3 && linkKey ⟨true, 3⟩ == 19 && failed.mgmt.runs && (failed.dev.port 3).state == .failed && !(failed.dev.port 3).disable &&
    decide ((failed.dev.port 3).failedAt + 40000000 ≤ failed.dev.cycle) && (training.dev.port 3).state == .training &&
    decide ((training.dev.port 3).trainedAt + 4000000 ≤ training.dev.cycle) && (training.dev.port 3).reason == 0 && !(training.dev.port 3).disable && training.dev.outs.isEmpty &&
    ((ported 3 fun p => { p with state := .up }).dev.port 3).state == .up &&
    ((ported 3 fun p => { p with state := .degraded }).dev.port 3).state == .degraded && gate (holding 2) 0 (some 2) false == .taken = true := by
  decide +kernel

theorem witness_PackageEvents :
    let x := sentStore
    let o (port : Nat) (st : PortState) : State := dev (fun d => { (d.setPort 0 { Port.blank with state := st }).setOut 9 { d.out 9 with next := 5, sent := [x port] } with
      cycle := 50000000 }) start
    let peer : State := dev (fun d => { ((d.setPort 16 { Port.blank with state := .failed }).setPort 17 { Port.blank with state := .failed }).setOut (agentPair 0 33)
      { d.out 9 with next := 5, sent := [x 16] } with cycle := 50000000 }) start
    let again : State := regs (fun m => { m with reopenReg := BitVec.ofNat 64 (2 ^ 63 + 9) }) (dev (fun d => { (d.setPort 0 { Port.blank with state := .up }).setOut 9
      { PeerOut.blank with closed := true, closedAt := 3, fresh := true } with cycle := 50000000 }) start)
    let r : RemoteReq := { src := 9, seq := 0, gen := 0, rctx := 0, addr := 0x14000, op := .write 3 99 7, stamp := 0, ltag := 0, plane := 0 }
    let suspect : State := dev (fun d => d.setOut 9 { d.out 9 with suspects := [⟨0, 3, false⟩] }) (o 0 .up)
    let missed : State := dev (fun d => d.setOut 9 { d.out 9 with misses := [(0, 2), (0, 3), (0, 4)] }) (o 0 .up)
    (((o 255 .up).dev.out 9).sent.find? fun y => y.seq == 4) == some (x 255) && decide ((x 255).at_ + 80000 ≤ (o 255 .up).dev.cycle) &&
    ((o 0 .up).dev.port 0).usable && decide (missesOf (o 0 .up).dev 9 0 < 3) && ((o 0 .up).dev.out 9).suspects.isEmpty && (suspect.dev.out 9).suspects.any (fun y => y.port == 0) &&
    decide (3 ≤ missesOf missed.dev 9 0) && !((o 0 .failed).dev.port 0).usable && (x 0).gen != 4 &&
    !((o 0 .failed).dev.out 9).closed && routesLost (o 0 .failed).dev 9 && !isAgent 9 && isAgent (agentPair 0 33) &&
    !(peer.dev.out (agentPair 0 33)).closed && routesLost peer.dev (agentPair 0 33) && bitOf again.mgmt.reopenReg.toNat 63 && !bitOf again.mgmt.reopenReg.toNat 23 &&
    (again.dev.out 9).closed && badContext start.dev { r with addr := 2 ^ 40 } && !badContext start.dev r &&
    decide ((again.dev.out 9).closedAt + 40000000 ≤ again.dev.cycle) && reopenPort again.dev 9 && start.mgmt.runs && r.gen == start.mgmt.boot.gen &&
    decide (r.rctx < Config.contexts) && bitOf (ctxWord start.dev r.rctx 0).toNat 63 && r.op == .write 3 99 (2 ^ 3 - 1) &&
    r.seq == (start.dev.in_ r.src).next && (start.dev.in_ r.src).waiting.isEmpty && frameOk start.dev r.addr &&
    !tierLost start.dev start.dev.isLost r.addr = true := by decide +kernel

theorem witness_DecodeAfterEncode :
    (Instr.add c .w64 .wrap (g 255) (y 2) (.imm 0xFFFFF)).encodable = true ∧ (Instr.sysr c (g 4) (.imm 7) .none).encodable = true := by decide +kernel

theorem witness_EncodeAfterDecode :
    decode 0x020010000000400002007001#96 = .ok (.add c .w64 .wrap (g 2) (g 1) (.imm 0x100)) ∧
    BitVec.extractLsb' 0 12 0xFFF#96 = 0xFFF#12 ∧ (0x020010000000400002007001#96 ||| 0x800000000000000000000000#96).msb = true ∧
    0xC00#12 < BitVec.extractLsb' 0 12 0xD01#96 &&& 0xF00#12 := by decide +kernel

/-- The slot of an `add` at the PC of the first group of core 0, and of a `qnext` at that of queue 0. -/
def ready : State := State.reset.withFetchWord 96 0x02FFFFB00001000003007000
def readyQueue : State := State.reset.withFetchWord 96 0x0000000000008E0000007C01

theorem witness_StepRunsDecoded :
    (let d := settleBay (takeMove ready).2.dev 0 0
     (takeMove ready).1 == .issue 0 0 && ready.mgmt.power == .active && ready.mgmt.boot.state == .running &&
     match d.inSlot 0 0 with
     | some (t, g) => t.stat == .running && g.laneNo.isSome && dueEvent d 0 0 g == none && (match g.headRun.head?.bind g.atLane? with
       | some h => (match fetchFor d t h with
         | (.instr i lits w0, d1) => !(Roles.ctlOf i).switch && !runWaits d1 t g lits (g.threads.filter fun k => g.headRun.contains k.lane) i &&
           !interlocked g i (g.threads.filter fun k => g.headRun.contains k.lane) && (settleThreads d1 t g i w0.toNat g.headRun).2 != []
         | _ => false)
       | none => false)
     | none => false) &&
    ((takeMove readyQueue).1 == .serve 0 && readyQueue.mgmt.power == .active && readyQueue.mgmt.boot.state == .running &&
     !serviceOver (takeMove readyQueue).2.dev 0 && match serveNext (takeMove readyQueue).2.dev 0 with
     | (some q, d1) => (match startQueue d1 q with
       | (true, d2) => let v := d2.queue q
         (match fetch d2 v.ctx v.thread.imgBase v.thread.imgSlots v.thread.pc.toNat v.level true with | (.instr _ _ _, _) => true | _ => false)
       | _ => false)
     | _ => false) &&
    (match codeSlot ready.dev 0 0x13000 0 with
     | (.ok w, _) => (match decode w with | .ok i => decide (opcodeOf i / 256 ≠ 0xC) && !levelTwo i && (litDistances i).isEmpty | .error _ => false)
     | _ => false) &&
    (match codeSlot (State.reset.withFetchWord 96 0xD01).dev 0 0x13000 0 with
     | (.ok w, _) => (match decode w with | .ok _ => false | .error _ => true) | _ => false) = true := by decide +kernel

theorem witness_StepAnswers :
    let s : State := { start with moves := [.tick 3] }
    let off : State := regs (fun m => { m with power := .off }) s
    s.mgmt.power != .off && off.mgmt.power == .off && Roles.isEvent .powerGood && s.dev.slew == 0 && !s.dev.half && s.dev.migr.isEmpty && decide (s.dev.frac < 65536) &&
    decide (s.dev.nanos < 10 ^ 9) = true := by decide +kernel

/-- A state within the bounds, after a step that changed one of them. -/
theorem witness_BoundsKept :
    let s : State := { holding 0 with moves := [.event (.mgmtRegisterWrite ⟨0, 0⟩ 0x20088 9)] }
    s.mgmt.Bounded ∧ ∃ t, step s = .next t ∧ t.mgmt.k = 9 :=
  ⟨⟨by decide +kernel, by decide +kernel, by decide +kernel, by decide +kernel, by decide +kernel, by decide +kernel, by decide +kernel⟩,
   _, rfl, by decide +kernel⟩

end Sys2Proof.Tests
end

section
/-! SUPPORT. Fields of registers as bit vectors (R5, R9). -/

namespace Sys2Proof.Machine

/-- A field set to zero is the value above it and the value below it. -/
theorem putField_zero (v hi lo : Nat) (h : lo ≤ hi) : putField v hi lo 0 = 2 ^ (hi + 1) * (v / 2 ^ (hi + 1)) + v % 2 ^ lo := by
  have hp : 2 ^ (hi + 1) = 2 ^ lo * 2 ^ (hi + 1 - lo) := by rw [← Nat.pow_add]; congr 1; omega
  have h1 := Nat.div_add_mod v (2 ^ lo)
  have h2 := Nat.div_add_mod (v / 2 ^ lo) (2 ^ (hi + 1 - lo))
  rw [Nat.div_div_eq_div_mul, ← hp] at h2
  have h3 : 2 ^ lo * (v / 2 ^ lo) = 2 ^ (hi + 1) * (v / 2 ^ (hi + 1)) + v / 2 ^ lo % 2 ^ (hi + 1 - lo) * 2 ^ lo := by
    calc 2 ^ lo * (v / 2 ^ lo)
      _ = 2 ^ lo * (2 ^ (hi + 1 - lo) * (v / 2 ^ (hi + 1)) + v / 2 ^ lo % 2 ^ (hi + 1 - lo)) := by rw [h2]
      _ = _ := by rw [hp]; ring
  simp only [putField, field, Nat.shiftRight_eq_div_pow, Nat.zero_mod, Nat.zero_mul, Nat.add_zero]
  omega

/-- The bits of a value with a field set to zero. -/
theorem testBit_putField_zero (v hi lo j : Nat) (h : lo ≤ hi) :
    (putField v hi lo 0).testBit j = (v.testBit j && !(decide (lo ≤ j) && decide (j ≤ hi))) := by
  have hlt : v % 2 ^ lo < 2 ^ (hi + 1) := lt_of_lt_of_le (Nat.mod_lt _ (by positivity)) (Nat.pow_le_pow_right (by omega) (by omega))
  rw [putField_zero v hi lo h, Nat.testBit_two_pow_mul_add _ hlt, Nat.testBit_mod_two_pow, Nat.testBit_div_two_pow]
  by_cases hj : j < hi + 1
  · by_cases hl : j < lo
    · simp [hj, hl, Nat.not_le.mpr hl]
    · simp [hj, hl, Nat.not_lt.mp hl, Nat.le_of_lt_succ hj]
  · have : j - (hi + 1) + (hi + 1) = j := by omega
    simp [hj, this, show ¬ j ≤ hi by omega]

/-- A field of a register set to zero is the register under the mask of the other bits. -/
theorem ofNat_putField_zero (w v hi lo : Nat) (h : lo ≤ hi) :
    BitVec.ofNat w (putField v hi lo 0) = BitVec.ofNat w v &&& ~~~BitVec.ofNat w ((2 ^ (hi + 1 - lo) - 1) <<< lo) := by
  apply BitVec.eq_of_getLsbD_eq
  intro j hj
  simp only [BitVec.getLsbD_ofNat, BitVec.getLsbD_and, BitVec.getLsbD_not, testBit_putField_zero v hi lo j h, hj, decide_true, Bool.true_and,
    Nat.testBit_shiftLeft, Nat.testBit_two_pow_sub_one]
  by_cases hl : lo ≤ j <;> simp [hl, show j - lo < hi + 1 - lo ↔ j ≤ hi by omega]

/-- `sr.rep` of a frame word, reserved bits zero (R5, R234). -/
theorem frameRep_eq (w : Nat) :
    BitVec.ofNat 32 (putField (field w 31 0) 30 16 0) = BitVec.ofNat 32 w &&& 0x8000FFFF#32 := by
  rw [ofNat_putField_zero 32 _ 30 16 (by decide)]
  congr 1
  apply BitVec.eq_of_toNat_eq
  simp [field]

/-- `sr.trap` of a frame word, reserved bits zero (R5, R392). -/
theorem frameTrap_eq (w : Nat) : BitVec.ofNat 64 (putField w 20 17 0) = BitVec.ofNat 64 w &&& ~~~0x1E0000#64 :=
  ofNat_putField_zero 64 w 20 17 (by decide)

end Sys2Proof.Machine
end

section
/-! SUPPORT. A thread's stack (R84): what its bytes and words read as after a write, and which poison is left. -/

namespace Sys2Proof.Machine

/-! ## A thread's stack (R84): what a byte reads as after a write -/

/-- Two offsets of one thread's stack are two bytes. -/
theorem stkByte_inj (t : Team) (g : Group) (lane : Nat) {o o' : Nat} (h : stkByte t g lane o = stkByte t g lane o') : o = o' := by
  simp only [stkByte, tmemKey, scrKey] at h
  split at h <;> split at h <;> simp only [StkByte.tmem.injEq, StkByte.scr.injEq, reduceCtorEq] at h <;> omega

/-- A byte of a stack after a write of one of its bytes. -/
theorem StkByte.read_write (d : Dev) (b : Byte) (p q : StkByte) : q.read (p.write d b) = if q = p then b else q.read d := by
  cases p <;> cases q <;> simp [StkByte.read, StkByte.write, Memory.read_write]

@[simp] theorem StkByte.write_fresh (d : Dev) (b : Byte) (p : StkByte) : (p.write d b).fresh = d.fresh := by cases p <;> rfl
@[simp] theorem StkByte.write_teams (d : Dev) (b : Byte) (p : StkByte) : (p.write d b).teams = d.teams := by cases p <;> rfl
@[simp] theorem StkByte.write_poison (d : Dev) (b : Byte) (p : StkByte) : (p.write d b).poison = d.poison := by cases p <;> rfl

section
variable (d : Dev) (t : Team) (g : Group) (lane : Nat)

@[simp] theorem stkWrite_fresh (o : Nat) (b : Byte) : (stkWrite d t g lane o b).fresh = d.fresh := by unfold stkWrite; split <;> simp
@[simp] theorem stkWrite_teams (o : Nat) (b : Byte) : (stkWrite d t g lane o b).teams = d.teams := by unfold stkWrite; split <;> simp
@[simp] theorem stkWrite_poison (o : Nat) (b : Byte) : (stkWrite d t g lane o b).poison = d.poison := by unfold stkWrite; split <;> simp

theorem stkRead_stkWrite_eq (o : Nat) (b : Byte) (h : o < t.kernel.stackS) : stkRead (stkWrite d t g lane o b) t g lane o = b := by
  simp [stkRead, stkWrite, h, StkByte.read_write]

theorem stkRead_stkWrite_ne (o o' : Nat) (b : Byte) (h : o' ≠ o) :
    stkRead (stkWrite d t g lane o b) t g lane o' = stkRead d t g lane o' := by
  have hne : stkByte t g lane o' ≠ stkByte t g lane o := fun e => h (stkByte_inj t g lane e)
  unfold stkRead
  rw [stkWrite_fresh]
  split
  · unfold stkWrite
    split <;> simp [StkByte.read_write, hne]
  · rfl

@[simp] theorem stkCure_fresh (o n : Nat) : (stkCure d t g lane o n).fresh = d.fresh := by unfold stkCure; split; rfl; split <;> rfl
@[simp] theorem stkCure_teams (o n : Nat) : (stkCure d t g lane o n).teams = d.teams := by unfold stkCure; split; rfl; split <;> rfl
@[simp] theorem stkCure_tmem (o n : Nat) : (stkCure d t g lane o n).tmem = d.tmem := by unfold stkCure; split; rfl; split <;> rfl
@[simp] theorem stkCure_scr (o n : Nat) : (stkCure d t g lane o n).scr = d.scr := by unfold stkCure; split; rfl; split <;> rfl

/-- A write only ends poison. -/
theorem stkCure_poison (o n : Nat) : (stkCure d t g lane o n).poison ⊆ d.poison := by
  unfold stkCure
  split
  · exact List.Subset.refl _
  · split <;> exact List.filter_subset_self _

end

/-- A stack byte reads alike where the local memories and the counter of free values are the same. -/
theorem stkRead_congr {d e : Dev} (t : Team) (g : Group) (lane o : Nat) (hm : e.tmem = d.tmem) (hs : e.scr = d.scr) (hf : e.fresh = d.fresh) :
    stkRead e t g lane o = stkRead d t g lane o := by
  unfold stkRead
  rw [hf]
  split
  · cases stkByte t g lane o <;> simp [StkByte.read, hm, hs]
  · rfl

/-- Bytes of a stack that each read alike make the same number. -/
theorem stkReadN_congr {d e : Dev} (t : Team) (g : Group) (lane n : Nat) : ∀ o : Nat,
    (∀ k, k < n → stkRead e t g lane (o + k) = stkRead d t g lane (o + k)) → stkReadN e t g lane o n = stkReadN d t g lane o n := by
  induction n with
  | zero => intro o _; rfl
  | succ n ih =>
    intro o h
    have h0 := h 0 (by omega)
    have hr := ih (o + 1) fun k hk => by have := h (k + 1) (by omega); rwa [show o + (k + 1) = o + 1 + k by omega] at this
    simp only [Nat.add_zero] at h0
    rw [stkReadN, stkReadN, h0, hr]

section
variable (t : Team) (g : Group) (lane : Nat)

@[simp] theorem stkPutN_fresh (n : Nat) : ∀ (d : Dev) (o v : Nat), (stkPutN d t g lane o n v).fresh = d.fresh := by
  induction n with
  | zero => intros; rfl
  | succ n ih => intro d o v; rw [stkPutN, ih, stkWrite_fresh]

@[simp] theorem stkPutN_teams (n : Nat) : ∀ (d : Dev) (o v : Nat), (stkPutN d t g lane o n v).teams = d.teams := by
  induction n with
  | zero => intros; rfl
  | succ n ih => intro d o v; rw [stkPutN, ih, stkWrite_teams]

@[simp] theorem stkPutN_poison (n : Nat) : ∀ (d : Dev) (o v : Nat), (stkPutN d t g lane o n v).poison = d.poison := by
  induction n with
  | zero => intros; rfl
  | succ n ih => intro d o v; rw [stkPutN, ih, stkWrite_poison]

theorem stkRead_stkPutN_out (n : Nat) : ∀ (d : Dev) (o v o' : Nat), o' < o ∨ o + n ≤ o' →
    stkRead (stkPutN d t g lane o n v) t g lane o' = stkRead d t g lane o' := by
  induction n with
  | zero => intros; rfl
  | succ n ih =>
    intro d o v o' h
    rw [stkPutN, ih _ _ _ _ (by omega), stkRead_stkWrite_ne _ _ _ _ _ _ _ (by omega)]

/-- A number put on a stack and read back, in its low `n` bytes. -/
theorem stkReadN_stkPutN (n : Nat) : ∀ (d : Dev) (o v : Nat), o + n ≤ t.kernel.stackS →
    stkReadN (stkPutN d t g lane o n v) t g lane o n = v % 256 ^ n := by
  induction n with
  | zero => intro d o v _; simp [stkReadN, Nat.mod_one]
  | succ n ih =>
    intro d o v h
    rw [stkPutN, stkReadN, ih _ _ _ (by omega), stkRead_stkPutN_out _ _ _ _ _ _ _ _ (by omega),
      stkRead_stkWrite_eq _ _ _ _ _ _ (by omega), Nat.pow_succ, Nat.mul_comm (256 ^ n) 256, Nat.mod_mul, BitVec.toNat_ofNat]

@[simp] theorem stkWriteN_fresh (d : Dev) (o n v : Nat) : (stkWriteN d t g lane o n v).fresh = d.fresh := by simp [stkWriteN]
@[simp] theorem stkWriteN_teams (d : Dev) (o n v : Nat) : (stkWriteN d t g lane o n v).teams = d.teams := by simp [stkWriteN]

theorem stkWriteN_poison (d : Dev) (o n v : Nat) : (stkWriteN d t g lane o n v).poison ⊆ d.poison := by
  simpa [stkWriteN] using stkCure_poison (stkPutN d t g lane o n v) t g lane o n

theorem stkRead_stkWriteN (d : Dev) (o n v o' : Nat) :
    stkRead (stkWriteN d t g lane o n v) t g lane o' = stkRead (stkPutN d t g lane o n v) t g lane o' :=
  stkRead_congr t g lane o' (by simp [stkWriteN]) (by simp [stkWriteN]) (by simp [stkWriteN])

theorem stkReadN_stkWriteN_eq (d : Dev) (o n v : Nat) (h : o + n ≤ t.kernel.stackS) :
    stkReadN (stkWriteN d t g lane o n v) t g lane o n = v % 256 ^ n := by
  rw [stkReadN_congr t g lane n o fun k _ => stkRead_stkWriteN t g lane d o n v (o + k), stkReadN_stkPutN t g lane n d o v h]

theorem stkReadN_stkWriteN_out (d : Dev) (o n v o' m : Nat) (h : o' + m ≤ o ∨ o + n ≤ o') :
    stkReadN (stkWriteN d t g lane o n v) t g lane o' m = stkReadN d t g lane o' m :=
  stkReadN_congr t g lane m o' fun k hk => by
    rw [stkRead_stkWriteN, stkRead_stkPutN_out t g lane n d o v (o' + k) (by omega)]

/-! ## Words pushed one after the other: a trap frame (R391) -/

/-- 8-byte words written on a stack from offset `o` up. -/
def stkWords (d : Dev) (o : Nat) : List Nat → Dev
  | [] => d
  | w :: r => stkWords (stkWriteN d t g lane o 8 w) (o + 8) r

@[simp] theorem stkWords_fresh (l : List Nat) : ∀ (d : Dev) (o : Nat), (stkWords t g lane d o l).fresh = d.fresh := by
  induction l with
  | nil => intros; rfl
  | cons w r ih => intro d o; rw [stkWords, ih, stkWriteN_fresh]

@[simp] theorem stkWords_teams (l : List Nat) : ∀ (d : Dev) (o : Nat), (stkWords t g lane d o l).teams = d.teams := by
  induction l with
  | nil => intros; rfl
  | cons w r ih => intro d o; rw [stkWords, ih, stkWriteN_teams]

theorem stkWords_poison (l : List Nat) : ∀ (d : Dev) (o : Nat), (stkWords t g lane d o l).poison ⊆ d.poison := by
  induction l with
  | nil => intro d _; exact List.Subset.refl _
  | cons w r ih => intro d o; exact List.Subset.trans (ih _ _) (stkWriteN_poison t g lane d o 8 w)

theorem stkReadN_stkWords_below (l : List Nat) : ∀ (d : Dev) (o o' m : Nat), o' + m ≤ o →
    stkReadN (stkWords t g lane d o l) t g lane o' m = stkReadN d t g lane o' m := by
  induction l with
  | nil => intros; rfl
  | cons w r ih =>
    intro d o o' m h
    rw [stkWords, ih _ _ _ _ (by omega), stkReadN_stkWriteN_out t g lane d o 8 w o' m (by omega)]

/-- Word `k` of those pushed, read back. -/
theorem stkReadN_stkWords (l : List Nat) : ∀ (d : Dev) (o k : Nat), k < l.length → o + 8 * l.length ≤ t.kernel.stackS →
    stkReadN (stkWords t g lane d o l) t g lane (o + 8 * k) 8 = l.getD k 0 % 2 ^ 64 := by
  induction l with
  | nil => intro d o k hk; simp at hk
  | cons w r ih =>
    intro d o k hk h
    simp only [List.length_cons] at hk h
    cases k with
    | zero =>
      simp only [Nat.mul_zero, Nat.add_zero]
      rw [stkWords, stkReadN_stkWords_below t g lane r _ _ _ _ (by omega), stkReadN_stkWriteN_eq _ _ _ _ _ _ _ (by omega)]
      rfl
    | succ k =>
      have := ih (stkWriteN d t g lane o 8 w) (o + 8) k (by omega) (by omega)
      rwa [show o + 8 + 8 * k = o + 8 * (k + 1) by omega] at this

end

/-- Bytes of a stack are poisoned only where the machine's poison says so. -/
theorem stkPoisoned_mono {d e : Dev} (t : Team) (g : Group) (lane o n : Nat) (hp : e.poison ⊆ d.poison)
    (h : stkPoisoned d t g lane o n = false) : stkPoisoned e t g lane o n = false := by
  have key : ∀ space k, poisoned d space k n = false → poisoned e space k n = false := by
    intro space k hk
    simp only [poisoned, List.any_eq_false] at hk ⊢
    exact fun p hm => hk p (hp hm)
  unfold stkPoisoned at h ⊢
  simp only [Bool.and_eq_false_iff] at h ⊢
  refine h.imp id fun h => ?_
  cases hb : stkByte t g lane o with
  | tmem k => rw [hb] at h; exact key 2 k h
  | scr k => rw [hb] at h; exact key 1 k h

end Sys2Proof.Machine
end

section
/-! SUPPORT. What the part's own reads leave alone. -/

namespace Sys2Proof.Machine

/-! ## The part's own reads (R331, R341) leave the teams alone -/

@[simp] theorem Place.write_teams (d : Dev) (b : Byte) (p : Place) : (p.write d b).teams = d.teams := by
  cases p with
  | hbm k => rfl
  | host k => simp only [Place.write]; split <;> rfl

@[simp] theorem physWrite_teams (d : Dev) (pa : Nat) (b : Byte) : (physWrite d pa b).teams = d.teams := by
  unfold physWrite
  split
  · split <;> simp
  · rfl

@[simp] theorem physWriteN_teams (n : Nat) : ∀ (d : Dev) (pa v : Nat), (physWriteN d pa n v).teams = d.teams := by
  induction n with
  | zero => intros; rfl
  | succ n ih => intro d pa v; rw [physWriteN, ih, physWrite_teams]

@[simp] theorem contribute_teams (d : Dev) (pa : Nat) (op : AtomOp) (ty : MType) (v : Nat) (r : ErrRec) :
    (contribute d pa op ty v r).teams = d.teams := by
  unfold contribute
  split
  · rfl
  · split
    · rfl
    · simp [applyAt]

/-- What every step of a fold leaves alone, the fold does. -/
theorem foldl_keeps {α β : Type} (get : Dev → β) (f : Dev → α → Dev) (hf : ∀ d x, get (f d x) = get d) (l : List α) :
    ∀ d : Dev, get (l.foldl f d) = get d := by
  induction l with
  | nil => intro d; rfl
  | cons x r ih => intro d; rw [List.foldl_cons, ih, hf]

@[simp] theorem mergePartials_teams (d : Dev) (sel : Partial → Bool) : (mergePartials d sel).teams = d.teams := by
  unfold mergePartials tidyNear
  refine foldl_keeps Dev.teams _ (fun d p => ?_) _ _
  dsimp only
  split
  · rfl
  · simp

@[simp] theorem sliceRead_teams (d : Dev) (pa n : Nat) : (sliceRead d pa n).2.teams = d.teams := by
  simp [sliceRead, takeTag]

@[simp] theorem countAccess_teams (d : Dev) (leaf : DWord) (pa : Nat) : (countAccess d leaf pa).teams = d.teams := by
  unfold countAccess; split <;> rfl

@[simp] theorem translate_teams (d : Dev) (ctx va : Nat) (need : Need) : (translate d ctx va need).2.teams = d.teams := by
  unfold translate Dev.choose
  dsimp only
  repeat' split
  all_goals rfl

@[simp] theorem atsAsk_teams (d : Dev) (port a : Nat) : (atsAsk d port a).2.teams = d.teams := by
  unfold atsAsk
  repeat' split
  all_goals rfl

@[simp] theorem hostPlace_teams (d : Dev) (port a : Nat) : (hostPlace d port a).2.teams = d.teams := by
  have h := atsAsk_teams d port a
  unfold hostPlace
  split
  · rfl
  · split <;> rename_i he <;> rw [he] at h <;> exact h

@[simp] theorem useEndpoint_teams (d : Dev) (ctx slot : Nat) : (useEndpoint d ctx slot).2.teams = d.teams := by
  unfold useEndpoint Dev.choose
  dsimp only
  repeat' split
  all_goals rfl

@[simp] theorem Dev.notify_teams (d : Dev) (n : Notice) : (d.notify n).teams = d.teams := by
  rcases d.notify_cases n with h | h <;> rw [h]

theorem postRemote_teams {d e : Dev} {a : Access} {w0 w1 : DWord} {raddr : Nat} (h : postRemote d a w0 w1 raddr = some e) :
    e.teams = d.teams := by
  simp only [postRemote] at h
  split at h
  · simp at h
  · cases h
    split <;> simp

@[simp] theorem askRemote_teams (d : Dev) (who : Issuer) (ctx addr die slot raddr : Nat) (kind : AccKind) :
    (askRemote d who ctx addr die slot raddr kind).2.teams = d.teams := by
  have h := useEndpoint_teams d ctx slot
  unfold askRemote
  split
  · rename_i he; rw [he] at h; exact h
  · rename_i he
    rw [he] at h
    dsimp only [partAccess, Dev.freshId]
    split
    · exact h
    · split
      · rename_i hp; exact (postRemote_teams hp).trans h
      · exact h

@[simp] theorem askOrWait_teams (d : Dev) (who : Issuer) (ctx addr die slot raddr : Nat) (kind : AccKind) :
    (askOrWait d who ctx addr die slot raddr kind).2.teams = d.teams := by
  have h := askRemote_teams d who ctx addr die slot raddr kind
  unfold askOrWait
  dsimp only [partAccess, Dev.freshId]
  split
  · rfl
  · split
    · rename_i he; rw [he] at h; exact h
    · exact h

@[simp] theorem freeBytes_teams (n : Nat) : ∀ d : Dev, (freeBytes n d).2.teams = d.teams := by
  induction n with
  | zero => intro d; rfl
  | succ n ih => intro d; rw [freeBytes]; exact ih _

/-- A read that the part makes for a context changes no team. -/
theorem partRead_teams (d : Dev) (ctx va n : Nat) : (partRead d ctx va n).2.teams = d.teams := by
  have ht := translate_teams d ctx va needR
  unfold partRead
  dsimp only
  split
  · rename_i e _ size _
    split
    · split <;> simp
    · rename_i port a _
      have hh := hostPlace_teams (translate d ctx va needR).2 port a
      split <;> rename_i he <;> rw [he] at hh <;> exact hh.trans ht
    · rename_i slot raddr _
      have hh := askOrWait_teams (translate d ctx va needR).2 (.part ctx) ctx va 0 slot raddr (.load n)
      split <;> rename_i he <;> rw [he] at hh
      · exact ((freeBytes_teams n _).trans hh).trans ht
      · exact ((freeBytes_teams n _).trans hh).trans ht
      · exact hh.trans ht
      · exact hh.trans ht
  · exact ht

end Sys2Proof.Machine
end

section
/-! PROOF. A trap and its return (R390 to R393). -/

namespace Sys2Proof.Machine

/-! ## Entry into a trap handler and the return from it (R390 to R393) -/

/-- The eight words of a trap frame (R391). -/
def trapFrame (x : Trap) (h : Thread) : List Nat :=
  let f := frameWords x h.p h.rep
  [f.1, f.2.1, f.2.2.1, f.2.2.2, h.trap.toNat, h.imgBase, h.imgSlots, 0]

/-- `sr.trap` in a handler (R392). -/
def handlerTrap (x : Trap) (h : Thread) : DWord :=
  BitVec.ofNat 64 (x.fpc % 2 ^ 32 * 2 ^ 32 + x.cause * 2 ^ 24 + b2n x.deferred * 2 ^ 23 + (h.depth + 1) * 2 ^ 21 + (h.sp - 64))

/-- A thread at its handler: words `b` and `e` of the trap table's entry name the image and its PC (R390). -/
def enterHandler (trap : DWord) (b e : Nat) (h : Thread) : Thread :=
  { h with trap, imgBase := b, imgSlots := e / 2 ^ 32 % 2 ^ 32, pc := BitVec.ofNat 32 (e % 2 ^ 32), st := .ready }

/-- A thread as the frame words `w` give it back (R393). -/
def leaveHandler (w : Nat → Nat) (h : Thread) : Thread :=
  { h with
    imgBase := w 5
    imgSlots := w 6 % 2 ^ 32
    pc := BitVec.ofNat 32 (w 0 / 2 ^ 32)
    p := BitVec.ofNat 7 (w 1 / 2 ^ 48)
    rep := BitVec.ofNat 32 (w 1) &&& 0x8000FFFF#32
    trap := BitVec.ofNat 64 (w 4) &&& ~~~0x1E0000#64 }

/-- Where a thread's stack lies does not change with the threads of its group. -/
theorem stkReadN_mapThread (d : Dev) (r : TRef) (f : Thread → Thread) (t : Team) (g : Group) (lane n : Nat) : ∀ o : Nat,
    stkReadN (d.mapThread r f) (t.mapGroup r.gid fun g => g.mapThread r.tid f) (g.mapThread r.tid f) lane o n = stkReadN d t g lane o n := by
  induction n with
  | zero => intro o; rfl
  | succ n ih => intro o; rw [stkReadN, stkReadN, ih]; rfl

theorem stkPoisoned_mapThread (d : Dev) (r : TRef) (f : Thread → Thread) (t : Team) (g : Group) (lane o n : Nat) :
    stkPoisoned (d.mapThread r f) (t.mapGroup r.gid fun g => g.mapThread r.tid f) (g.mapThread r.tid f) lane o n =
      stkPoisoned d t g lane o n := rfl

theorem leaveHandler_congr {w v : Nat → Nat} (hw : ∀ k, k < 8 → w k = v k) : leaveHandler w = leaveHandler v := by
  funext h
  simp only [leaveHandler, hw 0 (by decide), hw 1 (by decide), hw 4 (by decide), hw 5 (by decide), hw 6 (by decide)]

/-- A name finds a thread, in its group and its team. -/
structure Dev.Finds (d : Dev) (r : TRef) (t : Team) (g : Group) (h : Thread) : Prop where
  team : d.team? r.team = some t
  group : t.group? r.gid = some g
  thread : g.thread? r.tid = some h

theorem Dev.Finds.thread? {d : Dev} {r : TRef} {t : Team} {g : Group} {h : Thread} (hf : d.Finds r t g h) : d.thread? r = some h := by
  simp [Dev.thread?, Dev.group?, hf.team, hf.group, hf.thread]

/-- Where the teams are the same, a name finds the same. -/
theorem Dev.Finds.of_teams {d e : Dev} {r : TRef} {t : Team} {g : Group} {h : Thread} (hf : d.Finds r t g h) (he : e.teams = d.teams) :
    e.Finds r t g h :=
  ⟨by rw [Dev.team?, he]; exact hf.team, hf.group, hf.thread⟩

/-- A thread found after it was changed. -/
theorem Dev.Finds.mapThread {d : Dev} {r : TRef} {t : Team} {g : Group} {h : Thread} (hf : d.Finds r t g h) (f : Thread → Thread)
    (htid : ∀ h, (f h).tid = h.tid) :
    (d.mapThread r f).Finds r (t.mapGroup r.gid fun g => g.mapThread r.tid f) (g.mapThread r.tid f) (f h) where
  team := by
    have := Dev.team?_mapTeam d (fun t => t.mapGroup r.gid fun g => g.mapThread r.tid f) (fun _ => rfl) r.team r.team
    rwa [if_pos rfl, hf.team] at this
  group := by
    have := Team.group?_mapGroup t (fun g => g.mapThread r.tid f) (fun _ => rfl) r.gid r.gid
    rwa [if_pos rfl, hf.group] at this
  thread := by
    have := Group.thread?_mapThread g f htid r.tid r.tid
    rwa [if_pos rfl, hf.thread] at this

/-- The entry into a handler: the frame on the thread's stack, and the thread at the handler. -/
theorem takeTrap_handled {d d1 d2 : Dev} {r : TRef} {x : Trap} {t : Team} {g : Group} {h : Thread} {b e : Nat}
    (hf : d.Finds r t g h) (hbase : (ctxAt d t 3).toNat ≠ 0)
    (hp0 : globPoisoned d t.ctx ((ctxAt d t 3).toNat + 16 * x.cause) 8 = false)
    (hp1 : globPoisoned d t.ctx ((ctxAt d t 3).toNat + 16 * x.cause + 8) 8 = false)
    (hb : partRead d t.ctx ((ctxAt d t 3).toNat + 16 * x.cause) 8 = (some b, d1))
    (he : partRead d1 t.ctx ((ctxAt d t 3).toNat + 16 * x.cause + 8) 8 = (some e, d2))
    (hpc : e % 2 ^ 32 < e / 2 ^ 32 % 2 ^ 32) (hdepth : h.depth ≠ 3) (hsp : 64 ≤ h.sp) :
    takeTrap d r x =
      (stkWords t g h.lane d2 (h.sp - 64) (trapFrame x h)).mapThread r (enterHandler (handlerTrap x h) b e) := by
  have hs : field e 63 32 = e / 2 ^ 32 % 2 ^ 32 := by simp [field, Nat.shiftRight_eq_div_pow]
  have hl : field e 31 0 = e % 2 ^ 32 := by simp [field]
  simp only [takeTrap, hf.team, hf.group, hf.thread, hp0, hp1, Bool.or_self, Bool.and_false, Bool.false_eq_true, if_false, hbase, hb, he, hs, hl,
    Nat.not_le.mpr hpc, hdepth, Nat.not_lt.mpr hsp]
  rfl

/-- The return from a handler whose frame is not poisoned (R393). -/
theorem returnTrap_clean {d : Dev} {r : TRef} {t : Team} {g : Group} {h : Thread} (hf : d.Finds r t g h)
    (hp : ∀ k ∈ [0, 1, 4, 5, 6], stkPoisoned d t g h.lane (h.sp + 8 * k) 8 = false) :
    returnTrap d r = ({ d with fresh := d.fresh + 2 ^ 17 } : Dev).mapThread r
      (leaveHandler fun k => stkReadN d t g h.lane (h.sp + 8 * k) 8) := by
  have hnone : [0, 1, 4, 5, 6].find? (fun k => stkPoisoned d t g h.lane (h.sp + 8 * k) 8) = none :=
    List.find?_eq_none.mpr fun k hk => by simp [hp k hk]
  have hpc : ∀ w : Nat, BitVec.ofNat 32 (field w 63 32) = BitVec.ofNat 32 (w / 2 ^ 32) := fun w => by
    apply BitVec.eq_of_toNat_eq
    simp [field, Nat.shiftRight_eq_div_pow]
  have hpr : ∀ w : Nat, BitVec.ofNat 7 (field w 54 48) = BitVec.ofNat 7 (w / 2 ^ 48) := fun w => by
    apply BitVec.eq_of_toNat_eq
    simp [field, Nat.shiftRight_eq_div_pow]
  have hsl : ∀ w : Nat, field w 31 0 = w % 2 ^ 32 := fun w => by simp [field]
  have hrep := frameRep_eq
  simp only [hsl] at hrep
  simp only [returnTrap, hf.team, hf.group, hf.thread, hnone, hpc, hpr, hsl, hrep, frameTrap_eq]
  rfl

/-- The thread that returned, as the frame's words give it back. -/
theorem thread?_returnTrap {d : Dev} {r : TRef} {t : Team} {g : Group} {h : Thread} (hf : d.Finds r t g h)
    (hp : ∀ k ∈ [0, 1, 4, 5, 6], stkPoisoned d t g h.lane (h.sp + 8 * k) 8 = false) :
    (returnTrap d r).thread? r = some (leaveHandler (fun k => stkReadN d t g h.lane (h.sp + 8 * k) 8) h) := by
  rw [returnTrap_clean hf hp]
  have hf' : ({ d with fresh := d.fresh + 2 ^ 17 } : Dev).Finds r t g h := hf.of_teams rfl
  exact (hf'.mapThread (leaveHandler _) fun _ => rfl).thread?

/-- In a handler sp is 64 below where it was (R391). -/
theorem handlerTrap_sp (x : Trap) (h : Thread) : field (handlerTrap x h).toNat 16 0 = h.sp - 64 := by
  have hlt : h.sp < 2 ^ 17 := Nat.mod_lt _ (by decide)
  simp only [handlerTrap, field, BitVec.toNat_ofNat, Nat.shiftRight_zero]
  omega

/-- The frame words of a trap give the thread back (R391, R393), the reserved bits of its two registers as zero. -/
theorem leaveHandler_trapFrame (x : Trap) (h : Thread) (hres : x.resume < 2 ^ 32) (hbase : h.imgBase < 2 ^ 64)
    (hslots : h.imgSlots < 2 ^ 32) (hcause : x.cause < 32) (b e : Nat) (trap : DWord) :
    leaveHandler (fun j => (trapFrame x h).getD j 0 % 2 ^ 64) (enterHandler trap b e h) =
      { h with pc := BitVec.ofNat 32 x.resume, st := .ready, rep := h.rep &&& 0x8000FFFF#32, trap := h.trap &&& ~~~0x1E0000#64 } := by
  have hd : b2n x.deferred ≤ 1 := by cases x.deferred <;> decide
  have hp : h.p.toNat < 2 ^ 7 := h.p.isLt
  have hr : h.rep.toNat < 2 ^ 32 := h.rep.isLt
  have ht : h.trap.toNat < 2 ^ 64 := h.trap.isLt
  have hw1 : x.cause * 2 ^ 56 + b2n x.deferred * 2 ^ 55 + h.p.toNat * 2 ^ 48 + x.code % 2 ^ 16 * 2 ^ 32 + h.rep.toNat < 2 ^ 64 := by omega
  have e0 : BitVec.ofNat 32 ((x.resume % 2 ^ 32 * 2 ^ 32 + x.fpc % 2 ^ 32) % 2 ^ 64 / 2 ^ 32) = BitVec.ofNat 32 x.resume := by
    congr 1; omega
  have e1 : BitVec.ofNat 7 ((x.cause * 2 ^ 56 + b2n x.deferred * 2 ^ 55 + h.p.toNat * 2 ^ 48 + x.code % 2 ^ 16 * 2 ^ 32 + h.rep.toNat) % 2 ^ 64 / 2 ^ 48)
      = h.p := by
    apply BitVec.eq_of_toNat_eq; rw [BitVec.toNat_ofNat]; omega
  have e2 : BitVec.ofNat 32 ((x.cause * 2 ^ 56 + b2n x.deferred * 2 ^ 55 + h.p.toNat * 2 ^ 48 + x.code % 2 ^ 16 * 2 ^ 32 + h.rep.toNat) % 2 ^ 64)
      = h.rep := by
    apply BitVec.eq_of_toNat_eq; rw [BitVec.toNat_ofNat]; omega
  have e4 : BitVec.ofNat 64 (h.trap.toNat % 2 ^ 64) = h.trap := by
    apply BitVec.eq_of_toNat_eq; rw [BitVec.toNat_ofNat]; omega
  have e5 : h.imgBase % 2 ^ 64 = h.imgBase := by omega
  have e6 : h.imgSlots % 2 ^ 64 % 2 ^ 32 = h.imgSlots := by omega
  simp only [leaveHandler, enterHandler, trapFrame, frameWords, List.getD_cons_zero, List.getD_cons_succ, e0, e1, e2, e4, e5, e6]

/-- Settles O32: the frame's words are read back as they were pushed. -/
theorem trapRoundTrip : Obligations.TrapRoundTrip := by
  intro d d1 d2 r x t g h b e base entry ht hg hh hbase hp0 hp1 hb he hpc hdepth hsp hstk hclean hres himg hslots hcause
  have hteams : d2.teams = d.teams := by
    have h1 := partRead_teams d t.ctx entry 8
    have h2 := partRead_teams d1 t.ctx (entry + 8) 8
    rw [hb] at h1
    rw [he] at h2
    exact h2.trans h1
  have hfind : d.Finds r t g h := ⟨ht, hg, hh⟩
  rw [takeTrap_handled hfind hbase hp0 hp1 hb he hpc hdepth hsp]
  let enter := enterHandler (handlerTrap x h) b e
  have hsp' : (enter h).sp = h.sp - 64 := handlerTrap_sp x h
  have hlen : h.sp - 64 + 8 * (trapFrame x h).length ≤ t.kernel.stackS := by
    simp only [trapFrame, List.length_cons, List.length_nil]
    omega
  have hpushed : (stkWords t g h.lane d2 (h.sp - 64) (trapFrame x h)).Finds r t g h :=
    hfind.of_teams ((stkWords_teams t g h.lane _ d2 _).trans hteams)
  have hpoison : ∀ k ∈ [0, 1, 4, 5, 6], stkPoisoned (stkWords t g h.lane d2 (h.sp - 64) (trapFrame x h)) t g h.lane (h.sp - 64 + 8 * k) 8 = false :=
    fun k hk => stkPoisoned_mono t g h.lane _ 8 (stkWords_poison t g h.lane _ d2 _) (hclean k (by fin_cases hk <;> decide))
  have hback := thread?_returnTrap (hpushed.mapThread enter fun _ => rfl)
  simp only [stkReadN_mapThread, stkPoisoned_mapThread, hsp', show (enter h).lane = h.lane from rfl] at hback
  rw [hback hpoison, leaveHandler_congr fun k hk => stkReadN_stkWords t g h.lane (trapFrame x h) d2 (h.sp - 64) k hk hlen,
    leaveHandler_trapFrame x h hres himg hslots hcause]

end Sys2Proof.Machine
end

section
/-! PROOF. The instructions `trap`, `brk` and `tret`, in the one thread that issues and in a queue thread. -/

namespace Sys2Proof.Machine

/-! ## The one thread that issues -/

theorem startOf_plain (i : Instr) (d : Dev) (hn : named i = false) (hf : flushes i = false) : startOf i d = d.prepare i := by
  simp [startOf, hn, hf]

/-- A compute thread that issues reads the machine as it stands, and its name finds its team and its group. -/
theorem issuers_thr {d : Dev} {r : TRef} {e : Env} (h : (Who.thr r, e) ∈ issuers d) :
    ∃ t g, e.d = d ∧ e.own = some (t, g) ∧ d.team? r.team = some t ∧ t.group? r.gid = some g := by
  unfold issuers at h
  split at h
  · simp at h
  · split at h
    · simp at h
    · rename_i t ht
      split at h
      · simp at h
      · split at h
        · simp at h
        · rename_i g hg
          obtain ⟨l, -, hl⟩ := List.mem_filterMap.mp h
          obtain ⟨k, -, hk⟩ := Option.map_eq_some_iff.mp hl
          obtain ⟨hr, he⟩ := Prod.mk.inj hk
          cases hr
          cases he
          exact ⟨t, g, rfl, rfl, ht, hg⟩
  · simp at h

/-- A queue thread that issues is that of the machine's current queue. -/
theorem issuers_que {d : Dev} {q : Nat} {e : Env} (h : (Who.que q, e) ∈ issuers d) :
    (∃ lits w, d.cur = .queue q lits w) ∧ e.d = d ∧ e.own = none ∧ e.q = q ∧ e.h = (d.queue q).thread := by
  unfold issuers at h
  split at h
  · simp at h
  · split at h
    · simp at h
    · split at h
      · simp at h
      · split at h
        · simp at h
        · obtain ⟨l, -, hl⟩ := List.mem_filterMap.mp h
          obtain ⟨k, -, hk⟩ := Option.map_eq_some_iff.mp hl
          simp at hk
  · rename_i p lits w hc
    obtain ⟨hq, he⟩ := Prod.mk.inj (List.mem_singleton.mp h)
    cases hq
    cases he
    exact ⟨⟨lits, w, hc⟩, rfl, rfl, rfl, rfl⟩

/-- What `soloOf` says: one thread issues and executes, and the machine finds it. -/
structure Solo (i : Instr) (s : State) (r : TRef) (e : Env) (t : Team) (g : Group) : Prop where
  issues : issuers (startOf i s.dev) = [(.thr r, e)]
  reads : e.d = startOf i s.dev
  clear : clear e i = true
  finds : (startOf i s.dev).Finds r t g e.h

theorem solo_of_soloOf {i : Instr} {s : State} {r : TRef} {e : Env} {t : Team} {g : Group} (h : soloOf i s = some (r, e, t, g)) :
    Solo i s r e t g := by
  unfold soloOf at h
  split at h
  · rename_i r' e' hi
    split at h
    · rename_i t' g' ho
      split at h
      · rename_i hc
        cases h
        simp only [Bool.and_eq_true, beq_iff_eq] at hc
        obtain ⟨⟨-, hclear⟩, hthread⟩ := hc
        obtain ⟨t₁, g₁, hd, ho₁, ht, hg⟩ := issuers_thr (r := r) (e := e) (by rw [hi]; exact List.mem_singleton_self _)
        cases ho.symm.trans ho₁
        refine ⟨hi, hd, hclear, ht, hg, ?_⟩
        simpa [Dev.thread?, Dev.group?, ht, hg] using hthread
      · simp at h
    · simp at h
  · simp at h

/-- What `queueOf` says: the queue thread issues and executes. -/
theorem issuers_of_queueOf {i : Instr} {s : State} {q : Nat} {e : Env} (h : queueOf i s = some (q, e)) :
    issuers (startOf i s.dev) = [(.que q, e)] ∧ clear e i = true := by
  unfold queueOf at h
  split at h
  · rename_i hi
    split at h
    · rename_i hc
      cases h
      exact ⟨hi, (Bool.and_eq_true _ _ ▸ hc).2⟩
    · simp at h
  · simp at h

/-- A run of one thread that executes: its trap, where the instruction raises one, or its effect. -/
theorem eachThread_one {i : Instr} {d : Dev} {w : Who} {e : Env} (check : Env → Option Trap) (eff : Env → Who → Dev → Dev)
    (hi : issuers (d.prepare i) = [(w, e)]) (hc : clear e i = true) :
    eachThread i check eff d = (check e).elim (eff e w (d.prepare i)) ((d.prepare i).trap w) := by
  have halive : (d.prepare i).alive w = true := issuers_alive _ (w, e) (by rw [hi]; exact List.mem_singleton_self _)
  simp only [clear, Bool.and_eq_true, Option.isNone_iff_eq_none] at hc
  obtain ⟨⟨hguard, hrange⟩, hpoison⟩ := hc
  simp only [eachThread, hi, List.foldl_cons, List.foldl_nil, issueOne, halive, hguard, hrange, hpoison, Bool.not_true, Bool.false_eq_true, if_false]
  cases check e <;> rfl

/-- A trap of a thread that the machine finds. -/
theorem trap_thr {d : Dev} {r : TRef} {e : Env} {t : Team} {g : Group} (hf : d.Finds r t g e.h) (x : Trap) :
    d.trap (.thr r) x = trapped e r x d := by
  simp only [Dev.trap, raiseTrap, trapped, hf.thread?, Option.bind_some]
  cases e.h.pend <;> simp

theorem curWord_prepare (i : Instr) (d : Dev) : curWord (d.prepare i) = curWord d := by
  unfold Dev.prepare
  split <;> rfl

theorem prepare_poison (i : Instr) (d : Dev) : (d.prepare i).poison = d.poison := by
  unfold Dev.prepare
  split <;> rfl

/-! ## trap, brk and tret (R281, R386, R393, R396) -/

theorem exec_trap (c : Ctl) (d a b : Operand) (s : State) : exec (.trap c d a b) s = execTrap c d a b s := rfl
theorem exec_brk (c : Ctl) (d a b : Operand) (s : State) : exec (.brk c d a b) s = execBrk c d a b s := rfl
theorem exec_tret (c : Ctl) (d a b : Operand) (s : State) : exec (.tret c d a b) s = execTret c d a b s := rfl

/-- A software trap of one thread. -/
theorem softwareTrap_solo {i : Instr} {s : State} {r : TRef} {e : Env} {t : Team} {g : Group} (x : Env → Trap) (hn : named i = false)
    (hf : flushes i = false) (hs : soloOf i s = some (r, e, t, g)) :
    eachThread i noCheck (fun e w m => m.trap w (x e)) s.dev = trapped e r (x e) (startOf i s.dev) := by
  have h := solo_of_soloOf hs
  have hi := h.issues
  rw [startOf_plain i _ hn hf] at hi
  rw [eachThread_one _ _ hi h.clear, ← startOf_plain i _ hn hf]
  exact trap_thr h.finds (x e)

/-- `tret` of one thread: the trap of an illegal instruction at depth 0, else the return. -/
theorem exec_tret_solo {c : Ctl} {d a b : Operand} {s : State} {r : TRef} {e : Env} {t : Team} {g : Group}
    (hs : soloOf (.tret c d a b) s = some (r, e, t, g)) :
    exec (.tret c d a b) s = .next { s with
      dev := if e.h.depth = 0 then
          trapped e r { cause := 0x01, fpc := e.h.pc.toNat, resume := e.h.pc.toNat, detail := curWord s.dev } (startOf (.tret c d a b) s.dev)
        else returnTrap (startOf (.tret c d a b) s.dev) r } := by
  have h := solo_of_soloOf hs
  have hi := h.issues
  have hstart := startOf_plain (.tret c d a b) s.dev rfl rfl
  have hword : curWord e.d = curWord s.dev := by rw [h.reads, hstart, curWord_prepare]
  rw [hstart] at hi
  simp only [exec_tret, execTret, State.onDev_eq, eachThread_one _ _ hi h.clear, hword, ← hstart]
  split
  · rw [Option.elim_some, trap_thr h.finds]
    rfl
  · rfl

theorem tret_illegal {c : Ctl} {d a b : Operand} {s : State} {r : TRef} {e : Env} {t : Team} {g : Group}
    (hs : soloOf (.tret c d a b) s = some (r, e, t, g)) (hdepth : e.h.depth = 0) :
    Does (.tret c d a b) s
      (trapped e r { cause := 0x01, fpc := e.h.pc.toNat, resume := e.h.pc.toNat, detail := curWord s.dev }) := by
  unfold Does
  rw [exec_tret_solo hs, if_pos hdepth]

theorem tret_returns {c : Ctl} {d a b : Operand} {s : State} {r : TRef} {e : Env} {t : Team} {g : Group}
    (hs : soloOf (.tret c d a b) s = some (r, e, t, g)) (hdepth : e.h.depth ≠ 0)
    (hclean : ∀ k ∈ [0, 1, 4, 5, 6], stkPoisoned s.dev t g e.h.lane (e.h.sp + 8 * k) 8 = false) :
    Does (.tret c d a b) s fun m =>
      ({ m with fresh := m.fresh + 2 ^ 17 } : Dev).mapThread r (leaveHandler fun k => stkReadN m t g e.h.lane (e.h.sp + 8 * k) 8) := by
  have hpoison : ∀ k ∈ [0, 1, 4, 5, 6], stkPoisoned (startOf (.tret c d a b) s.dev) t g e.h.lane (e.h.sp + 8 * k) 8 = false :=
    fun k hk => stkPoisoned_mono t g _ _ 8 (by rw [startOf_plain _ _ rfl rfl, prepare_poison]; exact List.Subset.refl _) (hclean k hk)
  unfold Does
  rw [exec_tret_solo hs, if_neg hdepth, returnTrap_clean (solo_of_soloOf hs).finds hpoison]

/-- `enabled` of a queue's word 0 cleared (R310). -/
theorem clearEnabled_eq (w : DWord) : BitVec.ofNat 64 (putField w.toNat 63 63 0) = w &&& 0x7FFFFFFFFFFFFFFF#64 := by
  rw [ofNat_putField_zero 64 _ 63 63 (by decide), BitVec.ofNat_toNat, BitVec.setWidth_eq]
  congr 1

/-- A trap of a queue thread (R396): the queue disabled, and the trap recorded with the thread's registers and the queue's context. -/
theorem queueTrap_eq (d : Dev) (q : Nat) (x : Trap) {h : Thread} {ctx : Nat} (hh : (d.queue q).thread = h)
    (hc : field (d.queue q).w0.toNat 44 35 = ctx) :
    queueTrap d q x = report
      { d.setQueue q { d.queue q with w0 := (d.queue q).w0 &&& 0x7FFFFFFFFFFFFFFF#64, wait := .none, stopping := false } with
        serving := AMap.set 0 d.serving (q / 8192) 0 }
      { cls := x.cause, sev := 1, kind := 1, index := q / 8192, ctx := some ctx, queue := some q, addr := x.addr, pc := x.fpc
        d0 := (frameWords x h.p 0).1, d1 := (frameWords x h.p 0).2.1, d2 := (frameWords x h.p 0).2.2.1, d3 := (frameWords x h.p 0).2.2.2 } := by
  subst hh hc
  simp only [queueTrap, clearEnabled_eq, Dev.setQueue_serving]

/-- A software trap of a queue thread. -/
theorem softwareTrap_queue {i : Instr} {s : State} {q : Nat} {e : Env} (x : Env → Trap) (hn : named i = false)
    (hf : flushes i = false) (hq : queueOf i s = some (q, e)) :
    eachThread i noCheck (fun e w m => m.trap w (x e)) s.dev = queueTrap s.dev q (x e) ∧ (s.dev.queue q).thread = e.h ∧
      field (s.dev.queue q).w0.toNat 44 35 = e.ctx := by
  obtain ⟨hi, hclear⟩ := issuers_of_queueOf hq
  rw [startOf_plain i _ hn hf] at hi
  obtain ⟨⟨lits, w, hcur⟩, hd, hown, heq, hthread⟩ := issuers_que (by rw [hi]; exact List.mem_singleton_self (Who.que q, e))
  have hprep : s.dev.prepare i = s.dev := by
    have hsame : (s.dev.prepare i).cur = s.dev.cur := by unfold Dev.prepare; split <;> rfl
    unfold Dev.prepare
    rw [hsame.symm.trans hcur]
  rw [hprep] at hd hthread
  refine ⟨?_, hthread.symm, by simp [Env.ctx, hown, hd, heq]⟩
  rw [eachThread_one _ _ hi hclear, hprep]
  rfl

/-- Settles O33, instruction by instruction, for a compute thread and a queue thread. -/
theorem softwareTraps : Obligations.SoftwareTraps := by
  intro c d a b n s x
  refine ⟨fun r e t g => ⟨fun hs => ?_, fun hs => ?_, fun hs => ⟨tret_returns hs, tret_illegal hs⟩⟩, fun q e hq => ?_⟩
  · exact congrArg (fun m => Host.Outcome.next { s with dev := m }) (softwareTrap_solo (fun e => x e 0x10 (e.h.pc.toNat + 1)) rfl rfl hs)
  · exact congrArg (fun m => Host.Outcome.next { s with dev := m }) (softwareTrap_solo (fun e => x e 0x11 e.h.pc.toNat) rfl rfl hs)
  · obtain ⟨h, hthread, hctx⟩ := softwareTrap_queue (fun e => x e 0x10 (e.h.pc.toNat + 1)) rfl rfl hq
    exact congrArg (fun m => Host.Outcome.next { s with dev := m }) (h.trans (queueTrap_eq _ _ _ hthread hctx))

end Sys2Proof.Machine
end

section
/-! PROOF. The host's windows, its reads of registers, and the loss of a port (R323, R324, R346, R453). -/

namespace Sys2Proof.Machine

/-! ## Bytes that a host writes through BAR2 (R323) -/

/-- Bytes written one after the other: each place holds its byte, every other place what it held. -/
theorem read_bar2Put_from (off : Nat) (sel : Nat → Bool) (l : List Byte) : ∀ (m : Memory) (a j : Nat),
    (∀ k, k < l.length → (bar2Open (off + (a + k)) && sel (off + (a + k))) = true) →
    Memory.read ((l.zip (List.range' a l.length)).foldl
        (fun m p => if bar2Open (off + p.2) && sel (off + p.2) then Memory.write m (off + p.2) p.1 else m) m) (off + j) =
      if a ≤ j ∧ j < a + l.length then l.getD (j - a) 0 else Memory.read m (off + j) := by
  induction l with
  | nil => intro m a j _; simp only [List.length_nil, List.zip_nil_left, List.foldl_nil]; rw [if_neg (by omega)]
  | cons b r ih =>
    intro m a j h
    have h0 := h 0 (by simp)
    rw [Nat.add_zero] at h0
    have hr := ih (Memory.write m (off + a) b) (a + 1) j fun k hk => by
      have := h (k + 1) (by simpa using hk)
      rwa [show a + (k + 1) = a + 1 + k by omega] at this
    simp only [List.length_cons, List.range'_succ, List.zip_cons_cons, List.foldl_cons]
    rw [if_pos h0, hr, Memory.read_write]
    by_cases hj : a = j
    · subst hj
      simp
    · by_cases hin : a + 1 ≤ j ∧ j < a + 1 + r.length
      · rw [if_pos hin, if_pos (by omega), show j - a = j - (a + 1) + 1 by omega, List.getD_cons_succ]
      · rw [if_neg hin, if_neg (by omega), if_neg (by omega)]

theorem read_bar2Put (m : Memory) (off : Nat) (l : List Byte) (sel : Nat → Bool)
    (h : ∀ k, k < l.length → (bar2Open (off + k) && sel (off + k)) = true) (k : Nat) (hk : k < l.length) :
    Memory.read (bar2Put m off l sel) (off + k) = l.getD k 0 := by
  have := read_bar2Put_from off sel l m 0 k fun j hj => by rw [Nat.zero_add]; exact h j hj
  rw [if_pos (by omega), Nat.sub_zero, ← List.range_eq_range'] at this
  exact this

/-- Bytes outside granule 1,023 touch no queue descriptor (R94). -/
theorem tableQueues_outside (off n : Nat) (h : ∀ k, k < n → (off + k) % 2 ^ 26 / 65536 ≠ 1023) (hn : 0 < n) : tableQueues off n = [] := by
  simp only [tableQueues, List.filterMap_eq_nil_iff, List.mem_map, List.mem_range, forall_exists_index, and_imp]
  intro a i hi ha
  rw [if_neg]
  intro hlow
  -- the 16 bytes at `a` hold a byte of the range
  have hk := h (max off a - off) (by omega)
  omega

theorem wakeWatch_of_nil (d : Dev) (h : d.watch = []) (key : Nat) : wakeWatch d key = d := by
  simp only [wakeWatch, h, List.filter_nil, List.foldl_nil]
  rw [← h]

theorem wakeWords_of_nil (d : Dev) (h : d.watch = []) (key n : Nat) : wakeWords d key n = d :=
  List.foldl_fixed' (f := fun d k => wakeWatch d (key / 8 * 8 + 8 * k)) (fun _ => wakeWatch_of_nil d h _) _

/-- A write through BAR2 to words that nobody watches, outside granule 1,023: each byte is stored. -/
theorem read_bar2Write (d : Dev) (off : Nat) (l : List Byte) (hw : d.watch = [])
    (h : ∀ k, k < l.length → bar2Open (off + k) = true ∧ (off + k) % 2 ^ 26 / 65536 ≠ 1023) (k : Nat) (hk : k < l.length) :
    Memory.read (bar2Write d off l).scr (off + k) = l.getD k 0 := by
  have hne : l.isEmpty = false := by
    cases l with
    | nil => simp at hk
    | cons _ _ => rfl
  simp only [bar2Write, hne, Bool.false_eq_true, if_false, tableQueues_outside off l.length (fun k hk => (h k hk).2) (by omega),
    wakeWords_of_nil, hw, List.foldl_nil]
  exact read_bar2Put d.scr off l _ (fun k hk => by simp [(h k hk).1]) k hk

/-! ## The windows as events (R323, R324, R346) -/

theorem exec_bar2Access (port : Nat) (op : BarOp) (s : State) : exec (.bar2Access port op) s = execBar2Access port op s := rfl
theorem exec_bar4Access (port : Nat) (op : BarOp) (s : State) : exec (.bar4Access port op) s = execBar4Access port op s := rfl
theorem exec_pcieAtomicOp (port : Nat) (op : PcieAtomic) (s : State) : exec (.pcieAtomicOp port op) s = execPcieAtomicOp port op s := rfl
theorem exec_hostPortLost (port : Nat) (s : State) : exec (.hostPortLost port) s = execHostPortLost port s := rfl
theorem exec_portSemReleaseTimeout (port : Nat) (s : State) :
    exec (.portSemReleaseTimeout port) s = execPortSemReleaseTimeout port s := rfl

theorem bar2_reads {s : State} {port : Nat} (hp : hostOk s port = true) (hr : s.mgmt.runs = true) (off len : Nat) :
    Makes (.bar2Access port (.read off len)) s (s.dev.notify (.readData port (poisoned s.dev 1 off len)
      ((List.range len).map fun i => if bar2Open (off + i) then Memory.read s.dev.scr (off + i) else 0))) := by
  simp only [Makes, exec_bar2Access, execBar2Access, hp, hr, Bool.not_true, Bool.false_eq_true, if_false, Bool.true_and]
  rfl

theorem bar2_writes {s : State} {port : Nat} (hp : hostOk s port = true) (hr : s.mgmt.runs = true) (off : Nat) (l : List Byte) :
    Makes (.bar2Access port (.write off l)) s (bar2Write s.dev off l) := by
  simp only [Makes, exec_bar2Access, execBar2Access, hp, hr, Bool.not_true, Bool.false_eq_true, if_false, if_true]
  rfl

/-- An AtomicOp through BAR2 that finds its word open and whole: the new value written, the old one answered. -/
theorem bar2_atomic {s : State} {port : Nat} (hp : hostOk s port = true) (hr : s.mgmt.runs = true) {a : PcieAtomic} {v : Nat}
    (hok : atomicOk a = true) (hb : onBar4 a = false) (hopen : bar2Open (atomicOff a) = true)
    (hpoison : poisoned s.dev 1 (atomicOff a) (atomicBytes a) = false)
    (hnew : atomicNew a (Memory.readN s.dev.scr (atomicOff a) (atomicBytes a)) = some v) :
    Makes (.pcieAtomicOp port a) s ((bar2Write s.dev (atomicOff a) (toBytes (atomicBytes a) v)).notify
      (.readData port false (toBytes (atomicBytes a) (Memory.readN s.dev.scr (atomicOff a) (atomicBytes a))))) := by
  simp only [Makes, exec_pcieAtomicOp, execPcieAtomicOp, hp, hr, hok, hb, Bool.not_true, Bool.or_self, Bool.false_eq_true, if_false, if_true,
    State.mapDev, atomicBar2, hopen, hpoison, hnew]

/-- Bytes within one line are one piece. -/
theorem lineCuts_one (k a n : Nat) (hk : 0 < k) (hn : 0 < n) (h : a % 128 + n ≤ 128) : lineCuts k a n = [(a, n)] := by
  obtain ⟨k, rfl⟩ := Nat.exists_eq_succ_of_ne_zero hk.ne'
  have hmin : min n (128 - a % 128) = n := by omega
  rw [lineCuts, if_neg hn.ne', hmin, Nat.sub_self]
  cases k <;> simp [lineCuts]

/-- A window begins at a line (R324). -/
theorem window_mod_line (w off : Nat) : (w * 2 ^ 32 + off) % 128 = off % 128 := by omega

/-- A read through BAR4 within one line of a valid frame that can be reached. -/
theorem bar4_reads {s : State} {port off len pa : Nat} (hp : hostOk s port = true) (ho : s.mgmt.isOpen true = true) (hlen : 0 < len)
    (hpa : pa = AMap.get 0 s.mgmt.windows port * 2 ^ 32 + off % 2 ^ 32) (hline : pa % 128 + len ≤ 128) (hf : frameOk s.dev pa = true)
    (hl : tierLost s.dev s.dev.isLost pa = false) :
    let d1 := recallLine (takeTag s.dev (sliceAt pa)).2 (lineOf pa)
    Makes (.bar4Access port (.read off len)) s
      (d1.notify (.readData port (physPoisoned d1 pa len) ((List.range len).map fun i => physRead d1 (pa + i)))) := by
  simp only [Makes, exec_bar4Access, execBar4Access, hp, ho, ← hpa, lineCuts_one len pa len hlen hlen hline, List.foldl_cons, List.foldl_nil,
    bar4ReadLine, hf, hl, Bool.not_true, Bool.false_eq_true, if_false, Bool.false_or, List.nil_append]

/-- A write through BAR4 within one line of a valid frame that can be reached. -/
theorem bar4_writes {s : State} {port off pa : Nat} {l : List Byte} (hp : hostOk s port = true) (ho : s.mgmt.isOpen true = true)
    (hlen : 0 < l.length) (hpa : pa = AMap.get 0 s.mgmt.windows port * 2 ^ 32 + off % 2 ^ 32) (hline : pa % 128 + l.length ≤ 128)
    (hf : frameOk s.dev pa = true) (hl : tierLost s.dev s.dev.isLost pa = false) :
    Makes (.bar4Access port (.write off l)) s
      (physStore (recallLine (takeTag s.dev (sliceAt pa)).2 (lineOf pa)) pa l.length (ofBytes l)) := by
  have htag : tierLost (takeTag s.dev (sliceAt pa)).2 (takeTag s.dev (sliceAt pa)).2.isLost pa = false := hl
  simp only [Makes, exec_bar4Access, execBar4Access, hp, ho, ← hpa, lineCuts_one l.length pa l.length hlen hlen hline, List.foldl_cons,
    List.foldl_nil, State.mapDev, bar4WriteLine, hf, htag, Bool.not_true, Bool.false_eq_true, if_false, Nat.sub_self, List.drop_zero, List.take_length]

/-! ## Registers as they read (R323, R351, R356) -/

/-- A physical function's read of a register outside the port semaphores. -/
theorem register_pf {s : State} {port off : Nat} (hp : hostOk s port = true) (h8 : off % 8 = 0) (hs : off < 0x10000 ∨ 0x10100 ≤ off) :
    Makes (.bar2Access port (.register ⟨port, 0⟩ off)) s (s.dev.notify (.readData port false (toBytes 8 (readPf s off)))) := by
  have ha : off / 8 * 8 = off := by omega
  have hsem : (decide (0x10000 ≤ off) && decide (off < 0x10100)) = false := by
    rw [Bool.and_eq_false_iff, decide_eq_false_iff_not, decide_eq_false_iff_not]
    omega
  simp only [Makes, exec_bar2Access, execBar2Access, hp, registerRead, isPf, ha, hsem, Bool.not_true, Bool.false_eq_true, if_false, if_true,
    BEq.rfl, Bool.true_and]
  rfl

/-- A virtual function's read of a register. -/
theorem register_vf {s : State} {port fn off : Nat} (hp : hostOk s port = true) (hfn : 0 < fn) :
    Makes (.bar2Access port (.register ⟨port, fn⟩ off)) s
      (s.dev.notify (.readData port false (toBytes 8 (readVf s ⟨port, fn⟩ (off / 8 * 8))))) := by
  have hvf : isPf ⟨port, fn⟩ = false := by simp [isPf, hfn.ne']
  simp only [Makes, exec_bar2Access, execBar2Access, hp, registerRead, hvf, Bool.not_true, Bool.false_eq_true, if_false, if_true, Bool.false_and]
  rfl

/-- Part, steppings and instruction level (R356). -/
theorem readPf_identification (s : State) :
    readPf s 0 = Config.part * 2 ^ 48 + Config.stepping * 2 ^ 40 + Config.baseStep * 2 ^ 32 + Config.isaLevel * 2 ^ 24 := by
  rw [readPf, if_pos (by decide)]
  rfl

/-- Boot status (R351). -/
theorem readPf_bootStatus (s : State) :
    readPf s 0x0108 = s.mgmt.boot.reason % 256 * 2 ^ 8 + s.mgmt.boot.owner.getD 0 % 2 * 2 ^ 4 + bootCode s.mgmt.boot.state := by
  rw [readPf, if_pos (by decide)]
  rfl

/-- Word `k` of a queue's descriptor (R310). -/
def descWord (v : Queue) (k : Nat) : Nat := (if k = 0 then v.w0 else if k = 1 then v.w1 else if k = 2 then v.w2 else v.w3).toNat

theorem readQueue_word (d : Dev) (q k : Nat) (hk : k < 4) : readQueue d (0x01000000 + 32 * q + 8 * k) = descWord (d.queue q) k := by
  have hq : (0x01000000 + 32 * q + 8 * k - 0x01000000) / 32 = q := by omega
  have hw : (0x01000000 + 32 * q + 8 * k) / 8 % 4 = k := by omega
  simp only [readQueue, hq, hw]
  interval_cases k <;> rfl

theorem queueTable_word (q k : Nat) (hq : q < Config.queues) (hk : k < 4) : queueTable (0x01000000 + 32 * q + 8 * k) = true := by
  have : Config.queues = 131072 := rfl
  simp only [queueTable, Bool.and_eq_true, decide_eq_true_eq]
  omega

/-- A physical function reads the table of queue descriptors. -/
theorem readPf_queueTable (s : State) (off : Nat) (ho : s.mgmt.isOpen false = true) (ht : queueTable off = true) :
    readPf s off = readQueue s.dev off := by
  have h : 0x01000000 ≤ off := by simp only [queueTable, Bool.and_eq_true, decide_eq_true_eq] at ht; exact ht.1
  simp only [readPf, ho, ht, Bool.not_true, Bool.false_eq_true, if_false, if_true, Bool.or_eq_true, Bool.and_eq_true, decide_eq_true_eq]
  repeat rw [if_neg (by omega)]

theorem readVf_below (s : State) (fn : HostFn) (off : Nat) (h : off < 0x01000000) : readVf s fn off = 0 := by
  simp only [readVf, queueTable, decide_eq_false (Nat.not_le.mpr h), Bool.false_and, Bool.and_false, Bool.false_eq_true, if_false]

/-- A virtual function reads the descriptors of its own queues, and zero for another's (R323). -/
theorem readVf_word (s : State) (fn : HostFn) (q k : Nat) (ho : s.mgmt.isOpen false = true) (hq : q < Config.queues) (hk : k < 4) :
    readVf s fn (0x01000000 + 32 * q + 8 * k) = if reachesQueue s.dev fn q then descWord (s.dev.queue q) k else 0 := by
  have hi : (0x01000000 + 32 * q + 8 * k - 0x01000000) / 32 = q := by omega
  simp only [readVf, ho, queueTable_word q k hq hk, hi, readQueue_word _ q k hk, Bool.true_and]

/-- A physical function's read of a descriptor word (R323). -/
theorem descriptor_pf {s : State} {port q k : Nat} (hp : hostOk s port = true) (ho : s.mgmt.isOpen false = true) (hq : q < Config.queues)
    (hk : k < 4) :
    Makes (.bar2Access port (.register ⟨port, 0⟩ (0x01000000 + 32 * q + 8 * k))) s
      (s.dev.notify (.readData port false (toBytes 8 (descWord (s.dev.queue q) k)))) := by
  have h := register_pf (off := 0x01000000 + 32 * q + 8 * k) hp (by omega) (by omega)
  rwa [readPf_queueTable s _ ho (queueTable_word q k hq hk), readQueue_word _ q k hk] at h

/-- A virtual function's read of a descriptor word (R323). -/
theorem descriptor_vf {s : State} {port fn q k : Nat} (hp : hostOk s port = true) (hfn : 0 < fn) (ho : s.mgmt.isOpen false = true)
    (hq : q < Config.queues) (hk : k < 4) :
    Makes (.bar2Access port (.register ⟨port, fn⟩ (0x01000000 + 32 * q + 8 * k))) s
      (s.dev.notify (.readData port false (toBytes 8 (if reachesQueue s.dev ⟨port, fn⟩ q then descWord (s.dev.queue q) k else 0)))) := by
  have h := register_vf (off := 0x01000000 + 32 * q + 8 * k) hp hfn
  rwa [show (0x01000000 + 32 * q + 8 * k) / 8 * 8 = 0x01000000 + 32 * q + 8 * k by omega, readVf_word s _ q k ho hq hk] at h

/-! ## The loss of a port (R433, R453) -/

@[simp] theorem Dev.notify_lost (d : Dev) (n : Notice) : (d.notify n).lost = d.lost := by
  rcases d.notify_cases n with h | h <;> rw [h]

@[simp] theorem placeGlobal_lost (d : Dev) (ws : List Nat) : (placeGlobal d ws).lost = d.lost := by
  unfold placeGlobal
  dsimp only
  split
  · rfl
  · split <;> split <;> simp

/-- A record of no context goes to the global log; the ports stay as they are. -/
theorem report_lost (d : Dev) (r : ErrRec) (h : r.ctx = none) : (report d r).lost = d.lost := by
  simp [report, h]

theorem setIndir_lost (d : Dev) (f : Nat) (e : DWord) : (setIndir d f e).lost = d.lost := rfl

theorem abortMove_lost (d : Dev) (f : Nat) (bad : Bool) : (abortMove d f bad).lost = d.lost := by
  have key (d : Dev) (m : List FrameMove) (b : List Nat) (r : ErrRec) (hr : r.ctx = none) :
      (report { d with migr := m, barred := b } r).lost = d.lost := report_lost _ r hr
  exact (key (setIndir d f _) _ _ _ (by exact rfl)).trans (setIndir_lost d f _)

/-- A move aborted for what stops it (R433). -/
def abortStopped (d : Dev) (m : FrameMove) : Dev := abortMove d m.frame (moveStop d m == some true)

theorem abortStopped_lost (d : Dev) (m : FrameMove) : (abortStopped d m).lost = d.lost := by rw [abortStopped, abortMove_lost]

/-- A move that something stops is aborted, with its partner (R433). -/
theorem endMove_stopped (d : Dev) (m : FrameMove) (h : (moveStop d m).isSome = true) :
    endMove d m = (m :: (swapPartner d m).toList).foldl abortStopped d :=
  if_pos (by rw [List.any_cons, h, Bool.true_or])

theorem endMove_lost (d : Dev) (m : FrameMove) (h : (moveStop d m).isSome = true) : (endMove d m).lost = d.lost := by
  rw [endMove_stopped d m h]
  exact foldl_keeps Dev.lost abortStopped abortStopped_lost _ d

theorem abortMoves_lost (d : Dev) : (abortMoves d).lost = d.lost := by
  unfold abortMoves
  rw [foldl_keeps Dev.lost]
  intro d m
  split
  · rename_i h
    exact endMove_lost d m (Bool.and_eq_true _ _ ▸ h).2
  · rfl

/-- Without a request of a migration write, none waits. -/
theorem settleWrite_idle (s : State) (h : bitOf s.mgmt.migReq.toNat 63 = false) : settleWrite s = s := by
  simp [settleWrite, writeWaits, h]

theorem portLost {s : State} {port : Nat} (hp : hostOk s port = true) (hm : bitOf s.mgmt.migReq.toNat 63 = false) :
    ∃ u, exec (.hostPortLost port) s = .next u ∧ u.dev.isLost port = true ∧ u.mgmt.sems = (s.mgmt.loseSems port s.dev.cycle).sems := by
  have hidle (d : Dev) : settleWrite { s with mgmt := s.mgmt.loseSems port s.dev.cycle, dev := d } =
      { s with mgmt := s.mgmt.loseSems port s.dev.cycle, dev := d } := settleWrite_idle _ hm
  simp only [exec_hostPortLost, execHostPortLost, hp, Bool.not_true, Bool.false_eq_true, if_false, hidle]
  refine ⟨_, rfl, ?_, rfl⟩
  simp [State.mapBoot, Dev.isLost, abortMoves_lost, report_lost]

/-- The semaphores of a lost port released 1 ms after the loss, with their record (R453). -/
theorem portSem_released {s : State} {port : Nat} {x : Nat × Nat}
    (h : s.dev.losses.find? (fun x => x.1 == port && decide (x.2 + 4000000 ≤ s.dev.cycle)) = some x) :
    ∃ u, exec (.portSemReleaseTimeout port) s = .next u ∧ u.mgmt = s.mgmt.dropSems port x.2 ∧
      u.dev = report { s.dev with losses := s.dev.losses.erase x }
        { cls := 0x6C, sev := 3, kind := 5, index := port, ctx := none,
          d0 := (List.range 32).foldl (fun n i => if (s.mgmt.sem i).lostWith port x.2 then n + 2 ^ i else n) 0 } := by
  simp only [exec_portSemReleaseTimeout, execPortSemReleaseTimeout, show ms = 4000000 from rfl, h]
  exact ⟨_, rfl, rfl, rfl⟩

/-- Settles O50, window by window. -/
theorem windowEvents : Obligations.WindowEvents := by
  intro s port off len l old v d base
  refine ⟨fun hp hr => ⟨bar2_reads hp hr off len, fun _ hopen => ?_, fun n hn hal hopen hpoison hold => ?_⟩,
    fun hp ho _ hlen hline hf hl => ?_,
    fun hp => ⟨?_, fun hb o hown ho hreason => ?_, fun q k hq hk ho => ⟨descriptor_pf hp ho hq hk, fun fn hfn hown => ?_, fun fn hfn hother => ?_⟩,
      fun fn hfn hoff => ?_⟩,
    fun hp hm => portLost hp hm, fun x hx => portSem_released hx⟩
  · exact ⟨_, bar2_writes hp hr off l, fun hw k hk => read_bar2Write d off l hw hopen k hk⟩
  · have hfirst : bar2Open off = true := hopen 0 (by omega)
    have hok : ([4, 8].contains n && off % n == 0) = true := by rcases hn with rfl | rfl <;> simp [hal]
    subst hold
    exact ⟨bar2_atomic hp hr (a := .fetchAdd false n off v) hok rfl hfirst hpoison rfl,
      bar2_atomic hp hr (a := .swap false n off v) hok rfl hfirst hpoison rfl⟩
  · have hpiece : (base + off % 2 ^ 32) % 128 + len ≤ 128 := by rwa [window_mod_line]
    exact ⟨bar4_reads hp ho hlen rfl hpiece hf hl, fun hlen' => by subst hlen'; exact bar4_writes hp ho hlen rfl hpiece hf hl⟩
  · have h := register_pf (off := 0) hp rfl (by omega)
    rwa [readPf_identification] at h
  · have h := register_pf (off := 0x0108) hp rfl (by omega)
    rwa [readPf_bootStatus, hb, hown, Option.getD_some, Nat.mod_eq_of_lt ho, Nat.mod_eq_of_lt hreason] at h
  · have h := descriptor_vf hp hfn ho hq hk
    rwa [if_pos (show reachesQueue s.dev ⟨port, fn⟩ q = true from hown)] at h
  · have h := descriptor_vf hp hfn ho hq hk
    rwa [if_neg (Bool.eq_false_iff.mp (show reachesQueue s.dev ⟨port, fn⟩ q = false from hother))] at h
  · have h := register_vf (off := off) hp hfn
    rwa [readVf_below s _ _ (by omega)] at h

end Sys2Proof.Machine
end

section
/-! PROOF. Instructions that pass: `nop`, `rep`, `yield` and `pset` (R38, R53, R195, R234, R235, R238). -/

namespace Sys2Proof.Machine

theorem exec_nop (c : Ctl) (d a b : Operand) (s : State) : exec (.nop c d a b) s = execNop c d a b s := rfl
theorem exec_rep (c : Ctl) (d a b : Operand) (s : State) : exec (.rep c d a b) s = execRep c d a b s := rfl
theorem exec_yield (c : Ctl) (d a b : Operand) (s : State) : exec (.yield c d a b) s = execYield c d a b s := rfl
theorem exec_pset (c : Ctl) (d a b : Operand) (s : State) : exec (.pset c d a b) s = execPset c d a b s := rfl

/-! ## A run of an instruction without a result -/

/-- Past an instruction with its post-advances: the PC and `sr.rep` go where those of the thread would. -/
theorem advance_postAdvance (i : Instr) (h : Thread) :
    (postAdvance i h).advance = { postAdvance i h with pc := h.goOn.1, rep := h.goOn.2 } := by
  obtain ⟨-, hpc, hrep, -⟩ := postAdvance_fixed i h
  rw [← Thread.goOn_congr (postAdvance i h) h hpc hrep]
  exact Thread.advance_eq _

/-- The thread of an instruction that writes no register: its post-advances, and its PC and `sr.rep`. -/
theorem outThread_noOut {i : Instr} (hD : (Roles.opsOf i).1 = .none) (e : Env) (w : Who) (go : Thread → Word × Word) (h : Thread) :
    outThread i noOut e w go h = { postAdvance i h with pc := (go h).1, rep := (go h).2 } := by
  simp [outThread, noOut, hD, wrThread]

/-- An instruction of no register destination in which each acting thread goes where `goT` says, nothing else. -/
theorem ran_of_going {i : Instr} {s : State} (go : Env → Word × Word) (goT : Env → Thread → Word × Word) (eff : Env → Who → Dev → Dev)
    (hD : (Roles.opsOf i).1 = .none) (hq : quietAll i s = true) (hgo : ∀ e, goT e e.h = go e)
    (he : ∀ e w d, eff e w d = d.mapWho w fun h => { postAdvance i h with pc := (goT e h).1, rep := (goT e h).2 }) :
    Ran i (actors i s.dev) (fun _ _ => noOut) go s { s with dev := eachThread i noCheck eff s.dev } := by
  refine ran_of_each i (fun _ _ => noOut) go goT eff s hq (fun _ e _ => hgo e) (fun _ _ v hv => by cases hv)
    (fun x off post h => by simp [hD] at h) (fun p d => ?_) _ (.inl rfl)
  have hY : outY i noOut = id := by
    funext y
    simp [outY, noOut, hD, yPut]
  rw [he, Dev.mapWho_touch, hY]
  congr 1
  funext h
  exact (outThread_noOut hD p.2 p.1 (goT p.2) h).symm

theorem pass_eq (i : Instr) (w : Who) (d : Dev) :
    d.pass i w = d.mapWho w fun h => { postAdvance i h with pc := h.goOn.1, rep := h.goOn.2 } := by
  simp only [Dev.pass, advance_postAdvance]

/-- A field that an instruction does not use is empty. -/
theorem eq_none_of_unused {o : Operand} (h : Roles.accepts .unused o = true) : o = .none := by simpa [Roles.accepts] using h

theorem wellFormed_of_quietAll {i : Instr} {s : State} (hq : quietAll i s = true) : i.wellFormed = true := by
  simp only [quietAll, quietFor, Bool.and_eq_true] at hq
  exact hq.1.1.1

/-- A check that no acting thread fails changes nothing. -/
theorem eachThread_of_check {i : Instr} {d : Dev} {check : Env → Option Trap} (eff : Env → Who → Dev → Dev)
    (h : ∀ p ∈ actors i d, check p.2 = none) : eachThread i check eff d = eachThread i noCheck eff d := by
  refine List.foldl_ext _ _ _ fun m p hp => ?_
  cases hg : p.2.h.guard (Roles.ctlOf i) with
  | false => simp [issueOne, hg]
  | true =>
    have hnone := h p (List.mem_filter.mpr ⟨hp, hg⟩)
    simp [issueOne, hnone, noCheck]

/-! ## nop, rep and yield (R234, R235, R238) -/

theorem nop_ran {c : Ctl} {d a b : Operand} {s : State} (hq : quietAll (.nop c d a b) s = true) :
    ∃ t, exec (.nop c d a b) s = .next t ∧ Ran (.nop c d a b) (actors (.nop c d a b) s.dev) (fun _ _ => noOut) goOn s t := by
  obtain ⟨hD, -⟩ := wellFormed_accepts _ (wellFormed_of_quietAll hq)
  exact ⟨_, rfl, ran_of_going goOn (fun _ => Thread.goOn) _ (eq_none_of_unused hD) hq (fun _ => rfl) fun _ w m => pass_eq _ w m⟩

/-- Where a thread stands after `rep` with a count, given where it stands before (R235). -/
def repGo (a : Operand) (e : Env) (h : Thread) : Word × Word :=
  if e.count a = 0 then (e.h.pc + 2, h.rep) else (h.pc + 1, BitVec.ofNat 32 (2 ^ 31 + e.count a))

theorem rep_ran {c : Ctl} {d a b : Operand} {s : State} (hq : quietAll (.rep c d a b) s = true)
    (hcount : ∀ p ∈ actors (.rep c d a b) s.dev, p.2.count a ≤ 65535) :
    ∃ t, exec (.rep c d a b) s = .next t ∧ Ran (.rep c d a b) (actors (.rep c d a b) s.dev) (fun _ _ => noOut)
      (fun e => if e.count a = 0 then (e.h.pc + 2, e.h.rep) else (e.h.pc + 1, BitVec.ofNat 32 (2 ^ 31 + e.count a))) s t := by
  obtain ⟨hD, -⟩ := wellFormed_accepts _ (wellFormed_of_quietAll hq)
  have hnoTrap : ∀ p ∈ actors (.rep c d a b) s.dev, repTrap a p.2 = none := fun p hp => if_neg (Nat.not_lt.mpr (hcount p hp))
  refine ⟨_, rfl, ?_⟩
  rw [eachThread_of_check _ hnoTrap]
  refine ran_of_going _ (repGo a) _ (eq_none_of_unused hD) hq (fun _ => rfl) fun e w m => ?_
  by_cases hzero : srcC e a = 0
  · have hgo (h : Thread) : repGo a e h = (e.h.pc + 2, h.rep) := if_pos hzero
    have hrep (h : Thread) : (postAdvance (.rep c d a b) h).rep = h.rep := (postAdvance_fixed _ h).2.2.1
    simp only [hzero, if_true, jumpTo, hgo]
    congr 1
    funext h
    rw [← hrep h]
  · have hgo (h : Thread) : repGo a e h = (h.pc + 1, BitVec.ofNat 32 (2 ^ 31 + srcC e a)) := if_neg hzero
    simp only [hzero, if_false, hgo]

/-- `yield` names no register, so its window needs no preparing. -/
theorem yield_prepare {c : Ctl} {d a b : Operand} (hw : (Instr.yield c d a b).wellFormed = true) (m : Dev) :
    m.prepare (.yield c d a b) = m := by
  obtain ⟨hD, hA, hB⟩ := wellFormed_accepts _ hw
  obtain rfl : d = .none := eq_none_of_unused hD
  obtain rfl : a = .none := eq_none_of_unused hA
  obtain rfl : b = .none := eq_none_of_unused hB
  exact prepare_uniform _ m rfl

/-- What `yield` does: the threads pass, and a run in which a guard is true gives up its lane. -/
theorem exec_yield_eq {c : Ctl} {d a b : Operand} {s : State} (hw : (Instr.yield c d a b).wellFormed = true) :
    exec (.yield c d a b) s = .next { s with dev :=
      let u := eachThread (.yield c d a b) noCheck (fun _ w m => m.pass (.yield c d a b) w) s.dev
      match s.dev.cur with
      | .run team gid _ _ _ => if actors (.yield c d a b) s.dev = [] then u else u.mapGroup team gid (Group.giveLane s.dev.cycle)
      | _ => u } := by
  have hany : ((issuers s.dev).any fun p => p.2.h.guard c) = true ↔ actors (.yield c d a b) s.dev ≠ [] := by
    rw [actors, yield_prepare hw]
    simp [List.filter_eq_nil_iff, Roles.ctlOf]
  cases hcur : s.dev.cur with
  | run team gid lanes lits w =>
    simp only [exec_yield, execYield, State.onDev_eq, hcur]
    by_cases h : actors (.yield c d a b) s.dev = []
    · rw [if_neg (mt hany.mp (not_not.mpr h)), if_pos h]
    · rw [if_pos (hany.mpr h), if_neg h]
  | none => simp only [exec_yield, execYield, State.onDev_eq, hcur]
  | queue => simp only [exec_yield, execYield, State.onDev_eq, hcur]

theorem yield_ran {c : Ctl} {d a b : Operand} {s : State} (hq : quietAll (.yield c d a b) s = true) :
    ∃ u : Dev, Ran (.yield c d a b) (actors (.yield c d a b) s.dev) (fun _ _ => noOut) goOn s { s with dev := u } ∧
      (actors (.yield c d a b) s.dev = [] → exec (.yield c d a b) s = .next { s with dev := u }) ∧
      ∀ team gid lanes lits w, s.dev.cur = .run team gid lanes lits w → actors (.yield c d a b) s.dev ≠ [] →
        exec (.yield c d a b) s =
          .next { s with dev := u.mapGroup team gid fun g => { g with laneNo := none, runs := 0, since := some s.dev.cycle } } := by
  have hw := wellFormed_of_quietAll hq
  obtain ⟨hD, -⟩ := wellFormed_accepts _ hw
  refine ⟨_, ran_of_going goOn (fun _ => Thread.goOn) _ (eq_none_of_unused hD) hq (fun _ => rfl) fun _ w m => pass_eq _ w m,
    fun hnone => ?_, fun team gid lanes lits w hcur hsome => ?_⟩
  · rw [exec_yield_eq hw]
    split <;> simp [hnone]
  · rw [exec_yield_eq hw, hcur]
    simp only [if_neg hsome]
    rfl

/-! ## pset (R53, R195) -/

theorem Dev.mapThread_mapThread (d : Dev) (r : TRef) (f g : Thread → Thread) (hf : ∀ h, (f h).tid = h.tid) :
    (d.mapThread r f).mapThread r g = d.mapThread r fun h => g (f h) :=
  Dev.touch_touch d (.thr r) f g id id hf

/-- Predicates under a mask, as bit vectors (R195). -/
theorem setPredicates_eq (p : BitVec 7) (a b : Nat) :
    setPredicates p a b =
      ((BitVec.ofNat 32 a).setWidth 7 &&& (BitVec.ofNat 32 b).setWidth 7) ||| (p &&& ~~~(BitVec.ofNat 32 b).setWidth 7) := by
  have hmask : BitVec.ofNat 7 (127 - b % 128) = ~~~BitVec.ofNat 7 b := by
    apply BitVec.eq_of_toNat_eq
    simp only [BitVec.toNat_ofNat, BitVec.toNat_not]
    omega
  have hset (x : Nat) : (BitVec.ofNat 32 x).setWidth 7 = BitVec.ofNat 7 x := by
    apply BitVec.eq_of_toNat_eq
    simp only [BitVec.toNat_setWidth, BitVec.toNat_ofNat]
    omega
  rw [hset, hset, ← hmask]
  change BitVec.ofNat 7 ((a &&& b) ||| (p.toNat &&& (127 - b % 128))) = _
  apply BitVec.eq_of_toNat_eq
  simp only [BitVec.toNat_or, BitVec.toNat_and, BitVec.toNat_ofNat, Nat.or_mod_two_pow, Nat.and_mod_two_pow, Nat.mod_eq_of_lt p.isLt]

theorem pset_does {c : Ctl} {d a b : Operand} {s : State} {r : TRef} {e : Env} {t : Team} {g : Group}
    (hs : soloOf (.pset c d a b) s = some (r, e, t, g)) :
    Does (.pset c d a b) s fun m => (m.mapThread r fun h => (postAdvance (.pset c d a b)
      { h with p := ((e.bv 32 a).setWidth 7 &&& (e.bv 32 b).setWidth 7) ||| (h.p &&& ~~~(e.bv 32 b).setWidth 7) }).advance).closeWindow
        (.pset c d a b) := by
  have h := solo_of_soloOf hs
  have hi := h.issues
  have hstart := startOf_plain (.pset c d a b) s.dev rfl rfl
  rw [hstart] at hi
  have hset (p : BitVec 7) : setPredicates p (e.scalar 32 .int a) (e.scalar 32 .int b) =
      ((e.bv 32 a).setWidth 7 &&& (e.bv 32 b).setWidth 7) ||| (p &&& ~~~(e.bv 32 b).setWidth 7) := setPredicates_eq _ _ _
  unfold Does
  rw [exec_pset, hstart]
  simp only [execPset, State.onDev_eq, eachThread_one _ _ hi h.clear, noCheck, Option.elim_none, hset]
  rw [Dev.pass, Dev.mapWho, Dev.mapWho, Dev.mapThread_mapThread]
  exact fun _ => rfl

/-- Settles O13: runs of instructions that pass, and the predicates of one thread. -/
theorem passingInstructions : Obligations.PassingInstructions :=
  ⟨fun _ _ _ _ _ => ⟨nop_ran, rep_ran, yield_ran⟩, fun _ _ _ _ _ _ _ _ _ => pset_does⟩

end Sys2Proof.Machine
end

section
/-! PROOF. Threads that end and threads that gather: `exit` and `regroup` (R33, R34, R201, R237, R416). -/

namespace Sys2Proof.Machine

theorem exec_exit (c : Ctl) (d a b : Operand) (s : State) : exec (.exit c d a b) s = execExit c d a b s := rfl
theorem exec_regroup (c : Ctl) (d a b : Operand) (s : State) : exec (.regroup c d a b) s = execRegroup c d a b s := rfl

/-- `exit` of a thread (R33, R237, R445). -/
theorem exit_thread_does {c : Ctl} {d a b : Operand} {s : State} {r : TRef} {e : Env} {t : Team} {g : Group}
    (hs : soloOf (.exit c d a b) s = some (r, e, t, g)) :
    Does (.exit c d a b) s fun m => ({ m.mapThread r fun h => { h with st := .exited } with
      rays := m.rays.filter fun x => !(sameThread x.who r && x.candidate.isSome) } : Dev).checkTeam r.team := by
  have h := solo_of_soloOf hs
  have hi := h.issues
  have hstart := startOf_plain (.exit c d a b) s.dev rfl rfl
  rw [hstart] at hi
  unfold Does
  rw [exec_exit, execExit, State.onDev_eq, eachThread_one _ _ hi h.clear, hstart]
  rfl

/-- `exit` of a queue thread (R237, R310). -/
theorem exit_queue_does {c : Ctl} {d a b : Operand} {s : State} {q : Nat} {e : Env}
    (hq : queueOf (.exit c d a b) s = some (q, e)) :
    Does (.exit c d a b) s fun m => m.setQueue q { m.queue q with exited := true, started := false, stopping := false } := by
  obtain ⟨hi, hclear⟩ := issuers_of_queueOf hq
  have hstart := startOf_plain (.exit c d a b) s.dev rfl rfl
  rw [hstart] at hi
  unfold Does
  rw [exec_exit, execExit, State.onDev_eq, eachThread_one _ _ hi hclear, hstart]
  rfl

/-- The team that a thread's name finds has the name's number. -/
theorem Dev.Finds.team_id {d : Dev} {r : TRef} {t : Team} {g : Group} {h : Thread} (hf : d.Finds r t g h) : t.id = r.team := by
  simpa using List.find?_some hf.team

/-- No case of R416 stops a thread outside trap service whose team has one thread per lane, no granted unit and gathers at its PC. -/
theorem regroupReason_none {d : Dev} {e : Env} {t : Team} {g : Group} (hown : e.own = some (t, g)) (hteam : d.team? t.id = some t)
    (hpair : t.kernel.pair = false) (hdepth : e.h.depth = 0) (hunits : (t.groups.all fun x => x.units == 0) = true)
    (hpc : ∀ x, t.gather = some x → x.pc = e.h.pc.toNat) : regroupReason d e = none := by
  have hany : (t.groups.any fun x => x.units != 0) = false := by
    simpa using hunits
  cases hx : t.gather with
  | none => simp [regroupReason, hown, hteam, hpair, hdepth, hany, hx]
  | some x => simp [regroupReason, hown, hteam, hpair, hdepth, hany, hx, hpc x hx]

/-- `regroup` outside every case of R416 (R34, R201). -/
theorem regroup_does {c : Ctl} {d a b : Operand} {s : State} {r : TRef} {e : Env} {t : Team} {g : Group}
    (hs : soloOf (.regroup c d a b) s = some (r, e, t, g)) (hpair : t.kernel.pair = false) (hdepth : e.h.depth = 0)
    (hunits : (t.groups.all fun x => x.units == 0) = true) (hpc : ∀ x, t.gather = some x → x.pc = e.h.pc.toNat) :
    Does (.regroup c d a b) s fun m =>
      ((m.mapThread r fun h => { postAdvance (.regroup c d a b) h with pc := h.pc + 1, st := .parked .regroup }).mapTeam r.team fun t =>
        { t with gather := some (match t.gather with
          | some x => { x with arrivals := x.arrivals ++ [⟨e.h.tid, e.count a, e.count b⟩] }
          | none => ⟨e.h.pc.toNat, m.cycle, [⟨e.h.tid, e.count a, e.count b⟩]⟩) }).checkTeam r.team := by
  have h := solo_of_soloOf hs
  have hi := h.issues
  have hfinds := h.finds
  have hstart := startOf_plain (.regroup c d a b) s.dev rfl rfl
  rw [hstart] at hi hfinds
  have hown : e.own = some (t, g) := by
    obtain ⟨t', g', -, hown, ht, hg⟩ := issuers_thr (r := r) (e := e) (by rw [hi]; exact List.mem_singleton_self _)
    cases hfinds.team.symm.trans ht
    cases hfinds.group.symm.trans hg
    exact hown
  have hreason : regroupReason (s.dev.prepare (.regroup c d a b)) e = none :=
    regroupReason_none hown (hfinds.team_id ▸ hfinds.team) hpair hdepth hunits hpc
  unfold Does
  rw [exec_regroup, execRegroup, State.onDev_eq, eachThread_one _ _ hi h.clear, hstart]
  simp only [noCheck, Option.elim_none, hreason]
  congr 4
  funext x
  cases x.gather <;> rfl

/-- Settles O14: an ended thread, an ended service, and an arrival at a regroup. -/
theorem threadsEndAndRegroup : Obligations.ThreadsEndAndRegroup :=
  ⟨fun _ _ _ _ _ => ⟨fun _ _ _ _ => exit_thread_does, fun _ _ => exit_queue_does⟩, fun _ _ _ _ _ _ _ _ _ => regroup_does⟩

end Sys2Proof.Machine
end

section
/-! PROOF. Local loads: `ld` and `hload` (R26, R58, R206, R208, R260). -/

namespace Sys2Proof.Machine

theorem exec_ld (c : Ctl) (w : MWidth) (d a b : Operand) (s : State) : exec (.ld c w d a b) s = execLd c w d a b s := rfl
theorem exec_hload (c : Ctl) (d a b : Operand) (s : State) : exec (.hload c d a b) s = execHload c d a b s := rfl

/-! ## What leaves the bytes of the memories as they are -/

/-- The memories that hold bytes. -/
def Dev.byteStores (d : Dev) : Memory × Memory × Memory × Memory × Memory := (d.hbm, d.scr, d.tmem, d.tiles, d.host)

theorem sameMemory_of_byteStores {d u : Dev} (h : u.byteStores = d.byteStores) : sameMemory d u := by
  simp only [Dev.byteStores, Prod.mk.injEq] at h
  obtain ⟨hhbm, hscr, htmem, htiles, hhost⟩ := h
  intro a
  rw [hhbm, hscr, htmem, htiles, hhost]
  exact ⟨rfl, rfl, rfl, rfl, rfl⟩

@[simp] theorem Dev.mapThread_byteStores (d : Dev) (r : TRef) (f : Thread → Thread) : (d.mapThread r f).byteStores = d.byteStores := rfl
@[simp] theorem Dev.mapGroup_byteStores (d : Dev) (team gid : Nat) (f : Group → Group) : (d.mapGroup team gid f).byteStores = d.byteStores := rfl
@[simp] theorem Dev.freshId_byteStores (d : Dev) : d.freshId.2.byteStores = d.byteStores := rfl
@[simp] theorem past_byteStores (i : Instr) (r : TRef) (m : Dev) : (past i r m).byteStores = m.byteStores := rfl

@[simp] theorem Dev.prepare_byteStores (d : Dev) (i : Instr) : (d.prepare i).byteStores = d.byteStores := by
  unfold Dev.prepare
  split <;> rfl

@[simp] theorem Dev.closeWindow_byteStores (d : Dev) (i : Instr) : (d.closeWindow i).byteStores = d.byteStores := by
  unfold Dev.closeWindow
  split
  · split <;> rfl
  · rfl

@[simp] theorem recordInd_byteStores (i : Instr) (k : Nat) (before d : Dev) : (recordInd i k before d).byteStores = d.byteStores := by
  unfold recordInd
  split
  · split <;> rfl
  · rfl

@[simp] theorem clearLong_byteStores (i : Instr) (d : Dev) : (clearLong i d).byteStores = d.byteStores := by
  unfold clearLong
  split
  · dsimp only
    split
    · split <;> rfl
    · rfl
  · rfl

/-- Naming a result and readying the window change no byte. -/
theorem startOf_byteStores {i : Instr} {d : Dev} (hn : named i = true) (hf : flushes i = false) :
    (startOf i d).byteStores = d.byteStores := by
  simp [startOf, hn, hf]

/-! ## One thread's load -/

/-- What one thread's load does before the thread passes: on its way, with its result awaited, or the bytes that lie there (R26). -/
def loaded (e : Env) (r : TRef) (n ea : Nat) (loc : Loc) (dest : Dest) (mask instr : Nat) (m : Dev) : Dev :=
  match awayAt e r ea loc (.load n) none m with
  | some (space, k) => onItsWay e r space ea k (.load n) none false (some dest) mask instr (drawn e r ea loc (.load n) none m)
  | none => awaiting r (some dest) (some (loc.read m e.own e.h.lane n)) mask instr true (drawn e r ea loc (.load n) none m)

@[simp] theorem drawn_byteStores (e : Env) (r : TRef) (ea : Nat) (loc : Loc) (kind : AccKind) (rel : Option Nat) (m : Dev) :
    (drawn e r ea loc kind rel m).byteStores = m.byteStores := by
  cases loc with
  | tmem k =>
    unfold drawn
    dsimp only
    split <;> rfl
  | scr | bank | stk | miss => rfl

@[simp] theorem loaded_byteStores (e : Env) (r : TRef) (n ea : Nat) (loc : Loc) (dest : Dest) (mask instr : Nat) (m : Dev) :
    (loaded e r n ea loc dest mask instr m).byteStores = m.byteStores := by
  unfold loaded
  split
  · exact drawn_byteStores e r ea loc (.load n) none m
  · exact drawn_byteStores e r ea loc (.load n) none m

/-- Whether a location lies neither in die scratchpad nor in team memory: a stack, a bank, or nothing. -/
def Loc.outsideShared : Loc → Bool
  | .scr _ | .tmem _ => false
  | _ => true

/-- Whether a load from a bank or a stack goes on its way (R58, R111, R120). -/
def waitsAtBank (e : Env) (r : TRef) (n ea : Nat) (loc : Loc) (m : Dev) : Bool :=
  apertureOf ea == .rwin && ((decide (8 < n) && !loc.ownSlot r) || goesBehind e r 4 ea (ea % 2 ^ 35) (.load n) none m)

theorem awayAt_bank {e : Env} {r : TRef} {n ea : Nat} {loc : Loc} {m : Dev} (hloc : loc.outsideShared = true) :
    awayAt e r ea loc (.load n) none m = if waitsAtBank e r n ea loc m then some (4, ea % 2 ^ 35) else none := by
  cases loc with
  | scr | tmem => simp [Loc.outsideShared] at hloc
  | bank | stk | miss => rfl

theorem drawn_bank {e : Env} {r : TRef} {n ea : Nat} {loc : Loc} {m : Dev} (hloc : loc.outsideShared = true) :
    drawn e r ea loc (.load n) none m = m := by
  cases loc with
  | scr | tmem => simp [Loc.outsideShared] at hloc
  | bank | stk | miss => rfl

theorem localAccess_load_bank {e : Env} {r : TRef} {n ea : Nat} {loc : Loc} {dest : Dest} {mask instr : Nat} {m : Dev}
    (hloc : loc.outsideShared = true) :
    localAccess e r instr n ea loc (.load n) none false (some dest) mask m =
      if waitsAtBank e r n ea loc m then onItsWay e r 4 ea (ea % 2 ^ 35) (.load n) none false (some dest) mask instr m
      else if loc.poisoned m e.own e.h.lane n then consumePoison e ea m
      else awaiting r (some dest) (some (loc.read m e.own e.h.lane n)) mask instr true m := by
  cases loc with
  | scr | tmem => simp [Loc.outsideShared] at hloc
  | bank | stk | miss => rfl

theorem localAccess_load_team {e : Env} {r : TRef} {n ea k : Nat} {dest : Dest} {mask instr : Nat} {m : Dev} :
    localAccess e r instr n ea (.tmem k) (.load n) none false (some dest) mask m =
      if goesBehind e r 2 ea k (.load n) none m then onItsWay e r 2 ea k (.load n) none false (some dest) mask instr m
      else if m.choose.1 then onItsWay e r 2 ea k (.load n) none false (some dest) mask instr m.choose.2
      else if (Loc.tmem k).poisoned m e.own e.h.lane n then consumePoison e ea m.choose.2
      else awaiting r (some dest) (some ((Loc.tmem k).read m e.own e.h.lane n)) mask instr true m.choose.2 := by
  cases hbehind : goesBehind e r 2 ea k (.load n) none m with
  | true =>
    unfold goesBehind at hbehind
    simp only [localAccess, hbehind, Bool.not_true, Bool.false_or, if_true]
    rfl
  | false =>
    unfold goesBehind at hbehind
    simp only [localAccess, hbehind, Bool.not_true, Bool.false_or, Bool.false_eq_true, if_false, if_true]
    rfl

/-- The model's access of a load whose bytes, where they are read at once, hold no poison. -/
theorem localAccess_load {e : Env} {r : TRef} {n ea : Nat} {loc : Loc} {dest : Dest} {mask instr : Nat} {m : Dev}
    (hclean : awayAt e r ea loc (.load n) none m ≠ none ∨ loc.poisoned m e.own e.h.lane n = false) :
    localAccess e r instr n ea loc (.load n) none false (some dest) mask m = loaded e r n ea loc dest mask instr m := by
  cases hloc : loc.outsideShared with
  | true =>
    rw [awayAt_bank hloc] at hclean
    rw [localAccess_load_bank hloc, loaded, awayAt_bank hloc, drawn_bank hloc]
    cases hwait : waitsAtBank e r n ea loc m with
    | true => rfl
    | false =>
      have hgood : loc.poisoned m e.own e.h.lane n = false := by simpa [hwait] using hclean
      simp only [hgood, Bool.false_eq_true, if_false]
  | false =>
    cases loc with
    | scr k => rfl
    | tmem k =>
      rw [localAccess_load_team]
      simp only [loaded, awayAt, drawn] at hclean ⊢
      cases hbehind : goesBehind e r 2 ea k (.load n) none m with
      | true => rfl
      | false =>
        cases hlate : m.choose.1 with
        | true => rfl
        | false =>
          have hgood : (Loc.tmem k).poisoned m e.own e.h.lane n = false := by simpa [hbehind, hlate] using hclean
          simp only [hgood, Bool.false_or, Bool.false_eq_true, if_false]
    | bank | stk | miss => simp [Loc.outsideShared] at hloc

/-! ## A run of one thread -/

/-- A run of one thread that executes, whether the instruction issues once for the run or once for each thread. -/
theorem issueAll_one {i : Instr} {d : Dev} {w : Who} {e : Env} (check : Env → Option Trap) (eff : Env → Who → Dev → Dev)
    (hi : issuers (d.prepare i) = [(w, e)]) (hc : clear e i = true) :
    issueAll i check eff d = (check e).elim (eff e w (d.prepare i)) ((d.prepare i).trap w) := by
  unfold issueAll
  split
  · next hu =>
    have hprep := prepare_uniform i d hu
    have hguard : e.h.guard (Roles.ctlOf i) = true := by
      simp only [clear, Bool.and_eq_true] at hc
      exact hc.1.1
    rw [← eachThread_one check eff hi hc]
    rw [hprep] at hi
    simp [uniformOnce, eachThread, hprep, hi, hguard]
  · exact eachThread_one check eff hi hc

theorem startOf_named {i : Instr} {d : Dev} (hn : named i = true) (hf : flushes i = false) :
    startOf i d = (clearLong i d.freshId.2).prepare i := by
  simp [startOf, hn, hf]

/-- A run whose one thread makes the model's access of a load: what is issued, and that no byte changes. -/
theorem load_issues {i : Instr} {s : State} {r : TRef} {e : Env} {n ea mask : Nat} {loc : Loc} {dest : Dest}
    (hn : named i = true) (hf : flushes i = false)
    (hexec : exec i s = .next { s with dev := (recordInd i s.dev.nextId s.dev.freshId.2 (past i r
      (localAccess e r s.dev.nextId n ea loc (.load n) none false (some dest) mask (startOf i s.dev)))).closeWindow i })
    (hclean : awayAt e r ea loc (.load n) none (startOf i s.dev) ≠ none ∨ loc.poisoned (startOf i s.dev) e.own e.h.lane n = false) :
    (Issues i s r fun m => match awayAt e r ea loc (.load n) none (startOf i s.dev) with
      | some (space, k) => onItsWay e r space ea k (.load n) none false (some dest) mask s.dev.nextId (drawn e r ea loc (.load n) none m)
      | none => awaiting r (some dest) (some (loc.read m e.own e.h.lane n)) mask s.dev.nextId true (drawn e r ea loc (.load n) none m)) ∧
    ∃ u, exec i s = .next u ∧ sameMemory s.dev u.dev := by
  rw [localAccess_load hclean] at hexec
  exact ⟨hexec, _, hexec, sameMemory_of_byteStores (by simp [startOf_byteStores hn hf])⟩

theorem exec_ld_solo {c : Ctl} {w : MWidth} {d a b : Operand} {s : State} {r : TRef} {e : Env} {t : Team} {g : Group} {loc : Loc}
    (hs : soloOf (.ld c w d a b) s = some (r, e, t, g)) (hloc : localAt e (mwBytes w) (e.ea a b) false = some loc) :
    exec (.ld c w d a b) s = .next { s with dev := (recordInd (.ld c w d a b) s.dev.nextId s.dev.freshId.2 (past (.ld c w d a b) r
      (localAccess e r s.dev.nextId (mwBytes w) (e.ea a b) loc (.load (mwBytes w)) none false (some (destOf e (Roles.ldD w) d))
        (2 ^ (8 * mwBytes w) - 1) (startOf (.ld c w d a b) s.dev)))).closeWindow (.ld c w d a b) } := by
  have h := solo_of_soloOf hs
  have hi := h.issues
  have hstart := startOf_named (i := .ld c w d a b) (d := s.dev) rfl rfl
  rw [hstart] at hi ⊢
  simp only [exec_ld, execLd, State.onDev_eq, localRun, longRun, issueAll_one _ _ hi h.clear, hloc, anyLocal, Option.isSome_some, Bool.and_true,
    if_true, Option.elim_none, Option.map_some, Option.getD_some]
  rfl

theorem exec_hload_solo {c : Ctl} {d a b : Operand} {s : State} {r : TRef} {e : Env} {t : Team} {g : Group} {loc : Loc}
    (hap : apertureOf (e.ea a b) = .team ∨ apertureOf (e.ea a b) = .die)
    (hs : soloOf (.hload c d a b) s = some (r, e, t, g)) (hloc : localAt e 8 (e.ea a b) false = some loc) :
    exec (.hload c d a b) s = .next { s with dev := (recordInd (.hload c d a b) s.dev.nextId s.dev.freshId.2 (past (.hload c d a b) r
      (localAccess e r s.dev.nextId 8 (e.ea a b) loc (.load 8) none false (some (destOf e .handle d)) (2 ^ 64 - 1)
        (startOf (.hload c d a b) s.dev)))).closeWindow (.hload c d a b) } := by
  have h := solo_of_soloOf hs
  have hi := h.issues
  have htoken : tokenAperture e (e.ea a b) = true := by simpa [tokenAperture] using hap
  have hstart := startOf_named (i := .hload c d a b) (d := s.dev) rfl rfl
  rw [hstart] at hi ⊢
  simp only [exec_hload, execHload, State.onDev_eq, longEach, eachThread_one _ _ hi h.clear, hloc, htoken, Option.isSome_some, Bool.and_true,
    if_true, Option.elim_none]
  rfl

/-- Settles O16: both loads issue the model's access, which reads the bytes of its location or sends it on its way. -/
theorem loadsRead : Obligations.LoadsRead := by
  intro c w d a b s r e t g
  refine ⟨?_, ?_⟩
  · intro hs loc hloc m0 away draw hclean
    exact load_issues (i := .ld c w d a b) rfl rfl (exec_ld_solo hs hloc) hclean
  · intro hap hs loc hloc m0 away draw hclean
    exact load_issues (i := .hload c d a b) rfl rfl (exec_hload_solo hap hs hloc) hclean

end Sys2Proof.Machine
end

section
/-! PROOF. The events of the cores: lanes, active sets, relief cuts, register units, ends of groups, services of queue threads (R28, R29,
R33, R37, R38, R47, R312, R313). -/

namespace Sys2Proof.Machine

theorem exec_regroupDone (team : Nat) (s : State) : exec (.regroupDone team) s = execRegroupDone team s := rfl
theorem exec_laneRunLimit (core lane : Nat) (s : State) : exec (.laneRunLimit core lane) s = execLaneRunLimit core lane s := rfl
theorem exec_activeTimeLimit (core gslot : Nat) (s : State) : exec (.activeTimeLimit core gslot) s = execActiveTimeLimit core gslot s := rfl
theorem exec_reliefCut (core gslot : Nat) (s : State) : exec (.reliefCut core gslot) s = execReliefCut core gslot s := rfl
theorem exec_reliefCutEnd (core gslot : Nat) (s : State) : exec (.reliefCutEnd core gslot) s = execReliefCutEnd core gslot s := rfl
theorem exec_racqGrant (core : Nat) (s : State) : exec (.racqGrant core) s = execRacqGrant core s := rfl
theorem exec_groupEnd (team gid : Nat) (s : State) : exec (.groupEnd team gid) s = execGroupEnd team gid s := rfl
theorem exec_serviceQuantumExpiry (cc : Nat) (s : State) : exec (.serviceQuantumExpiry cc) s = execServiceQuantumExpiry cc s := rfl
theorem exec_ttrigTimeReached (q : Nat) (s : State) : exec (.ttrigTimeReached q) s = execTtrigTimeReached q s := rfl

/-! ## Lanes and active sets (R28, R29) -/

theorem laneRunLimit_makes {s : State} {core lane : Nat} {p : Nat × Group}
    (hp : (s.dev.bay core (lane / 4)).find? (fun x => x.2.laneNo == some lane && decide (64 ≤ x.2.runs)) = some p)
    (hw : ∃ x ∈ s.dev.bay core (lane / 4), x.2.active.isSome = true ∧ x.2.laneNo = none ∧ x.2.canRun = true) :
    Makes (.laneRunLimit core lane) s
      (s.dev.mapGroup p.1 p.2.gid fun g => { g with laneNo := none, runs := 0, since := some s.dev.cycle }) := by
  have hany : ((s.dev.bay core (lane / 4)).any fun q => q.2.active.isSome && q.2.laneNo.isNone && q.2.canRun) = true := by
    simpa [and_assoc] using hw
  simp only [Makes, exec_laneRunLimit, execLaneRunLimit, State.onDev_eq, hp, hany, if_true]
  rfl

theorem activeTimeLimit_makes {s : State} {core gslot : Nat} {p : Nat × Group} {a : Nat}
    (hp : (s.dev.bay core (gslot % 2)).find? (fun x => x.2.gslot == gslot) = some p) (ha : p.2.active = some a)
    (ht : a + 4096 ≤ s.dev.cycle) (hw : ∃ x ∈ s.dev.bay core (gslot % 2), x.2.active = none ∧ x.2.since.isSome = true) :
    Makes (.activeTimeLimit core gslot) s (s.dev.mapGroup p.1 p.2.gid fun g => { g.leave with since := some s.dev.cycle }) := by
  have hany : ((s.dev.bay core (gslot % 2)).any fun q => q.2.active.isNone && q.2.since.isSome) = true := by
    simpa using hw
  simp only [Makes, exec_activeTimeLimit, execActiveTimeLimit, State.onDev_eq, hp, ha, ht, hany, decide_true, Bool.and_self, if_true]

/-! ## Relief cuts (R38) -/

theorem mapSlot_eq {d : Dev} {core gslot : Nat} {t : Team} {g : Group} (h : d.inSlot core gslot = some (t, g)) (f : Group → Group) :
    d.mapSlot core gslot f = d.mapGroup t.id g.gid f := by
  rw [Dev.mapSlot, h]

theorem reliefCut_makes {s : State} {core gslot : Nat} {t : Team} {g : Group} (h : s.dev.inSlot core gslot = some (t, g)) :
    Makes (.reliefCut core gslot) s (s.dev.mapGroup t.id g.gid fun g =>
      if g.cut = none ∧ 1024 ≤ g.relief then { g with cut := some (g.reliefPc, 1024) } else g) := by
  simp only [Makes, exec_reliefCut, execReliefCut, State.onDev_eq, mapSlot_eq h, Bool.and_eq_true, Option.isNone_iff_eq_none,
    decide_eq_true_eq]

theorem reliefCutEnd_makes {s : State} {core gslot : Nat} {t : Team} {g : Group} (h : s.dev.inSlot core gslot = some (t, g)) :
    Makes (.reliefCutEnd core gslot) s
      (s.dev.mapGroup t.id g.gid fun g => if g.cutOver then { g with cut := none, relief := 0 } else g) := by
  simp only [Makes, exec_reliefCutEnd, execReliefCutEnd, State.onDev_eq, mapSlot_eq h]

/-! ## Register units granted (R47), groups and teams that end (R33) -/

theorem racqGrant_makes {s : State} {core n since : Nat} {lanes : List Nat} {r : Nat × Nat × Nat} {t : Team} {g : Group}
    (hr : s.dev.racq.find? (fun x => x.1 == core) = some r) (ht : s.dev.team? r.2.1 = some t) (hg : s.dev.group? r.2.1 r.2.2 = some g)
    (hb : g.block = some (.racq n since lanes)) (hfree : t.kernel.width * 64 * n ≤ freeSlots s.dev core) :
    Makes (.racqGrant core) s
      ((grantUnits { s.dev with racq := s.dev.racq.filter fun x => x != r } t.id g.gid n).mapGroup t.id g.gid fun g =>
        { g with block := none
                 threads := g.threads.map fun h => if lanes.contains h.lane && h.st == .ready then h.advance else h }) := by
  simp only [Makes, exec_racqGrant, execRacqGrant, State.onDev_eq, hr, ht, hg, hb, hfree, if_true]

/-- A group that has ended: its registers are free, and it stands in no lane and no active set. -/
def Group.atEnd (g : Group) : Group := { g.leave with ended := true, units := 0, block := none, cut := none }

theorem groupEnd_eq {s : State} {team gid : Nat} {t t' : Team} {g : Group} (ht : s.dev.team? team = some t)
    (hg : s.dev.group? team gid = some g) (hrun : t.stat = .running) (hended : g.ended = false)
    (hexit : ∀ h ∈ g.threads, h.st = .exited) (hquiet : groupQuiet s.dev team gid = true)
    (ht' : (s.dev.mapGroup team gid Group.atEnd).team? team = some t') :
    exec (.groupEnd team gid) s = .next { s with
      dev := if t'.groups.all (·.ended) then endTeam (s.dev.mapGroup team gid Group.atEnd) t' else s.dev.mapGroup team gid Group.atEnd } := by
  have hall : (g.threads.all fun h => h.st == .exited) = true := by simpa using hexit
  have hcond : (t.stat != .running || g.ended || !(g.threads.all fun h => h.st == .exited) || !groupQuiet s.dev team gid) = false := by
    simp [hrun, hended, hall, hquiet]
  simp only [exec_groupEnd, execGroupEnd, State.onDev_eq, ht, hg, hcond, Bool.false_eq_true, if_false]
  rw [show (s.dev.mapGroup team gid fun g => { g.leave with ended := true, units := 0, block := none, cut := none }) =
    s.dev.mapGroup team gid Group.atEnd from rfl, ht']

/-! ## Queue threads (R312, R313) -/

theorem serviceQuantumExpiry_makes {s : State} {cc : Nat} (hs : AMap.get 0 s.dev.serving cc ≠ 0)
    (ht : AMap.get 0 s.dev.serveAt cc + 240 ≤ s.dev.cycle) :
    Makes (.serviceQuantumExpiry cc) s { s.dev with serving := AMap.set 0 s.dev.serving cc 0 } := by
  have hcond : (AMap.get 0 s.dev.serving cc != 0 && decide (AMap.get 0 s.dev.serveAt cc + 240 ≤ s.dev.cycle)) = true := by simp [hs, ht]
  simp only [Makes, exec_serviceQuantumExpiry, execServiceQuantumExpiry, State.onDev_eq, hcond, if_true]

/-- Device time has reached an instant where their difference as 64 bits is not negative (R284). -/
theorem timeReached_iff (d : Dev) (w : DWord) : timeReached d w.toNat = true ↔ (dtime64 d - w).msb = false := by
  have hw : w.toNat < 2 ^ 64 := w.isLt
  have hd : (dtime64 d).toNat < 2 ^ 64 := (dtime64 d).isLt
  rw [timeReached, decide_eq_true_eq, BitVec.msb_eq_false_iff_two_mul_lt, BitVec.toNat_sub]
  generalize (dtime64 d).toNat = x at *
  generalize w.toNat = y at *
  omega

theorem ttrigTimeReached_makes {s : State} {q : Nat} {w : DWord} (hw : (s.dev.queue q).wait = .time w)
    (ht : (dtime64 s.dev - w).msb = false) : Makes (.ttrigTimeReached q) s (s.dev.readyQueue q) := by
  simp only [Makes, exec_ttrigTimeReached, execTtrigTimeReached, State.onDev_eq, hw, (timeReached_iff s.dev w).mpr ht, if_true]

/-- Settles O38, event by event. -/
theorem coreEvents : Obligations.CoreEvents := by
  intro s core gslot lane team gid cc q t g p
  refine ⟨rfl, laneRunLimit_makes, fun a => activeTimeLimit_makes, fun h => ⟨reliefCut_makes h, reliefCutEnd_makes h⟩,
    fun r n since lanes => racqGrant_makes, fun ht hg hrun hended hexit hquiet t' ht' => ⟨fun hsome => ?_, fun hall => ?_⟩,
    serviceQuantumExpiry_makes, fun w => ttrigTimeReached_makes⟩
  · have hnot : ¬ (t'.groups.all (·.ended)) = true := by simpa using hsome
    exact (groupEnd_eq ht hg hrun hended hexit hquiet ht').trans (by rw [if_neg hnot]; rfl)
  · have hend : (t'.groups.all (·.ended)) = true := by simpa using hall
    exact (groupEnd_eq ht hg hrun hended hexit hquiet ht').trans (by rw [if_pos hend]; rfl)

end Sys2Proof.Machine
end

section
/-! PROOF. A step of the machine that issues an instruction, and what a fetch gives (R25, R28, R129, R130, R282, R310). -/

namespace Sys2Proof.Machine

/-! ## A fetch (R129, R130, R135) -/

/-- An instruction that is no `rep` is fetched by itself (R236). -/
theorem fetch_of_fetchOne {d : Dev} {ctx base slots pc level : Nat} {control : Bool} {r : Fetched × Dev}
    (h : fetchOne d ctx base slots pc level control = r) (hr : ∀ c x a b lits w d', r ≠ (.instr (.rep c x a b) lits w, d')) :
    fetch d ctx base slots pc level control = r := by
  unfold fetch
  rw [h]
  split
  · exact absurd rfl (hr _ _ _ _ _ _ _)
  · rfl

theorem fetch_decoded {d d1 : Dev} {ctx base slots pc level : Nat} {control : Bool} {w : SlotWord} {i : Instr} (hpc : pc < slots)
    (hbase : base % 256 = 0) (hslot : codeSlot d ctx base pc = (.ok w, d1)) (hi : decode w = .ok i)
    (hhome : if control then queueAllows i = true else opcodeOf i / 256 ≠ 0xC) (hlevel : levelTwo i = true → 2 ≤ level)
    (hlits : litDistances i = []) (hrep : ∀ c d a b, i ≠ .rep c d a b) :
    fetch d ctx base slots pc level control = (.instr i [] (w.extractLsb' 0 32), d1) := by
  have hword : BitVec.ofNat 32 (slotField w 31 0) = w.extractLsb' 0 32 := by
    apply BitVec.eq_of_toNat_eq
    simp [slotField, field]
  have hin : (decide (slots ≤ pc) || base % 256 != 0) = false := by simp [hpc, hbase]
  have hallowed : (if control then queueAllows i else opcodeOf i / 256 != 0xC) = true := by cases control <;> simpa using hhome
  have hlevelled : (levelTwo i && decide (level < 2)) = false := by
    cases hl : levelTwo i with
    | false => rfl
    | true => simp [Nat.not_lt.mpr (hlevel hl)]
  refine fetch_of_fetchOne ?_ fun c x a b lits w d' h => ?_
  · simp only [fetchOne, hin, Bool.false_eq_true, if_false, hslot, hi, hallowed, hlevelled, Bool.not_true, Bool.or_self, hlits, fetchLits, hword]
  · cases h
    exact hrep _ _ _ _ rfl

theorem fetch_undecoded {d d1 : Dev} {ctx base slots pc level : Nat} {control : Bool} {w : SlotWord} {x : _} (hpc : pc < slots)
    (hbase : base % 256 = 0) (hslot : codeSlot d ctx base pc = (.ok w, d1)) (hx : decode w = .error x) :
    fetch d ctx base slots pc level control = (.illegal (w.toNat % 2 ^ 32), d1) := by
  have hin : (decide (slots ≤ pc) || base % 256 != 0) = false := by simp [hpc, hbase]
  refine fetch_of_fetchOne ?_ fun c x a b lits w d' h => by cases h
  simp [fetchOne, hin, hslot, hx, slotField, field]

/-! ## An attempt that issues (R25, R28, R310) -/

theorem takeMove_mgmt (s : State) : (takeMove s).2.mgmt = s.mgmt := by
  unfold takeMove
  split <;> rfl

/-- Where the module runs, an issue is attempted on any core. -/
theorem step_issue {s : State} {core gslot : Nat} (hm : (takeMove s).1 = .issue core gslot) (hp : s.mgmt.power = .active)
    (hb : s.mgmt.boot.state = .running) :
    step s = settled (runAttempt (attemptIssue (takeMove s).2.dev core gslot) (takeMove s).2) := by
  simp [step, stepMove, hm, takeMove_mgmt, hp, coreRuns, Mgmt.runs, hb]

theorem step_serve {s : State} {cc : Nat} (hm : (takeMove s).1 = .serve cc) (hp : s.mgmt.power = .active)
    (hb : s.mgmt.boot.state = .running) :
    step s = settled (runAttempt (attemptServe (takeMove s).2.dev cc) (takeMove s).2) := by
  simp [step, stepMove, hm, takeMove_mgmt, hp, Mgmt.runs, hb]

/-- The head run of a group that fetched an instruction, with nothing due before it. -/
theorem attemptIssue_fetched {d0 d1 : Dev} {core gslot : Nat} {t : Team} {g : Group} {h : Thread} {i : Instr} {lits : AMap DWord} {w0 : Word}
    (hslot : (settleBay d0 core (gslot % 2)).inSlot core gslot = some (t, g)) (hrun : t.stat = .running) (hlane : g.laneNo.isSome = true)
    (hdue : dueEvent (settleBay d0 core (gslot % 2)) core gslot g = none) (hhead : g.headRun.head?.bind g.atLane? = some h)
    (hfetch : fetchFor (settleBay d0 core (gslot % 2)) t h = (.instr i lits w0, d1)) :
    attemptIssue d0 core gslot = issueRun d1 t g g.headRun i lits w0 := by
  have hready : (t.stat != .running || g.laneNo.isNone) = false := by
    rw [hrun, Option.isNone_eq_false_iff.mpr hlane]
    rfl
  simp only [attemptIssue, hslot, hready, Bool.false_eq_true, if_false, hdue, hhead, hfetch]

/-- The head run issues to the threads that take no fault first. -/
theorem issueRun_runs {d1 d2 : Dev} {t : Team} {g : Group} {lanes rest : List Nat} {i : Instr} {lits : AMap DWord} {w0 : Word}
    (hswitch : (Roles.ctlOf i).switch = false ∨ d1.outstanding t.id g.gid = false)
    (hwaits : runWaits d1 t g lits (g.threads.filter fun k => lanes.contains k.lane) i = false)
    (hlock : interlocked g i (g.threads.filter fun k => lanes.contains k.lane) = false)
    (hsettle : settleThreads d1 t g i w0.toNat lanes = (d2, rest)) (hrest : rest ≠ []) :
    issueRun d1 t g lanes i lits w0 =
      (let all := lanes.length == (g.threads.filter fun k => k.st == .ready).length
       let d3 := d2.mapGroup t.id g.gid fun g =>
         let g := { g with runs := g.runs + 1, relief := if all then 0 else g.relief, cut := g.cut.map fun c => (c.1, c.2 - 1) }
         if (Roles.ctlOf i).yld then g.giveLane d2.cycle else g
       .run i { d3 with cur := .run t.id g.gid rest lits w0 }) := by
  have hfree : ((Roles.ctlOf i).switch && d1.outstanding t.id g.gid) = false := by
    rcases hswitch with h | h <;> simp [h]
  have hsome : rest.isEmpty = false := by simpa using hrest
  simp only [issueRun, hfree, hwaits, hlock, Bool.or_self, Bool.false_eq_true, if_false, hsettle, hsome]

/-- The queue thread served, with an instruction fetched. -/
theorem attemptServe_fetched {d0 d1 d2 d3 : Dev} {cc q : Nat} {i : Instr} {lits : AMap DWord} {w0 : Word} (hover : serviceOver d0 cc = false)
    (hnext : serveNext d0 cc = (some q, d1)) (hstart : startQueue d1 q = (true, d2))
    (hfetch : fetch d2 (d2.queue q).ctx (d2.queue q).thread.imgBase (d2.queue q).thread.imgSlots (d2.queue q).thread.pc.toNat
      (d2.queue q).level true = (.instr i lits w0, d3)) :
    attemptServe d0 cc = .run i { d3 with cur := .queue q lits w0 } := by
  simp only [attemptServe, hover, Bool.false_eq_true, if_false, hnext, hstart, hfetch]

/-- Settles O57: an attempt that issues on a core of either kind, and the fetch. -/
theorem stepRunsDecoded : Obligations.StepRunsDecoded := by
  refine ⟨fun s core gslot t g h i lits w0 d1 d2 rest => ?_, fun s cc q i lits w0 d1 d2 d3 => ?_,
    fun d d1 ctx base slots pc level control w i hpc hbase hslot => ⟨fetch_decoded hpc hbase hslot, fun x => fetch_undecoded hpc hbase hslot⟩⟩
  · intro s1 d hm hp hb hslot hrun hlane hdue hhead hfetch hswitch hwaits hlock hsettle hrest
    rw [step_issue hm hp hb, attemptIssue_fetched hslot hrun hlane hdue hhead hfetch, issueRun_runs hswitch hwaits hlock hsettle hrest]
    rfl
  · intro s1 hm hp hb hover hnext hstart hfetch
    rw [step_serve hm hp hb, attemptServe_fetched hover hnext hstart hfetch]
    rfl

end Sys2Proof.Machine
end

section
/-! PROOF. Counterexamples to statements of this family: states in which two threads of a group, or two teams, bear one name, and an
instruction of the compute cores in a queue thread. -/

namespace Sys2Proof.Machine

/-! ## The arrival at a `bar.sys` where two threads of a group bear one `sr.tid` (R222) -/

/-- Lane 0 of a group of two threads issues; both threads bear `sr.tid` 0. -/
def sharedTid : State :=
  let k := { Kernel.plain 0 1 with width := 2 }
  let twins (g : Group) : Group := { g with threads := g.threads.map fun h => { h with tid := 0 } }
  { State.reset with dev := { State.reset.dev with cur := .run 0 0 [0] [] 0, teams := [(Team.plain k).mapGroup 0 twins] } }

/-- `bar.sys` without `.rel` at the word at 0 of glob, for two arrivals. -/
def barSysOfTwo : Instr := .barSys ⟨7, false, false, 0, false, false⟩ false .none (.imm 0) (.imm 2)

/-- The lanes of all threads. -/
def Dev.lanes (d : Dev) : List Nat := d.teams.flatMap fun t => t.groups.flatMap fun g => g.threads.map (·.lane)

/-- A change of one thread's registers moves no thread to another lane. -/
theorem lanes_mapThread (d : Dev) (r : TRef) (f : Thread → Thread) (hf : ∀ h, (f h).lane = h.lane) : (d.mapThread r f).lanes = d.lanes := by
  simp only [Dev.lanes, Dev.mapThread, Dev.mapGroup, Dev.mapTeam, List.flatMap_map]
  congr 1
  funext t
  split
  · simp only [Team.mapGroup, List.flatMap_map]
    congr 1
    funext g
    split
    · simp only [Group.mapThread, List.map_map]
      congr 1
      funext h
      simp only [Function.comp_apply]
      split
      · exact hf h
      · rfl
    · rfl
  · rfl

theorem postAdvance_lane (i : Instr) (h : Thread) : (postAdvance i h).lane = h.lane := by
  have hfixed : (postAdvance i h).fixed.lane = h.fixed.lane := by rw [(postAdvance_fixed i h).1]
  exact hfixed

/-- What an outcome's machine shows; nothing of one that stopped. -/
def shows {α : Type} (f : Dev → α) : Host.Outcome State Fault Refusal → Option α
  | .next s => some (f s.dev)
  | _ => none

/-- Refutes O24: sending the add of `bar.sys`, the model sets every thread of the name to the one that issues, so that a second
thread of that `sr.tid` loses its lane; the statement parks each thread of the name with its own registers. -/
theorem not_barriersArrive : ¬ Obligations.BarriersArrive := by
  intro hall
  have hsome : (soloOf barSysOfTwo sharedTid).isSome = true := by decide +kernel
  obtain ⟨⟨r, e, t, g⟩, hsolo⟩ := Option.isSome_iff_exists.mp hsome
  obtain ⟨-, -, hsys⟩ := hall ⟨7, false, false, 0, false, false⟩ false .none (.imm 0) (.imm 2) sharedTid r e t g
  obtain ⟨hsent, -⟩ := hsys hsolo (show apertureOf 0 = .glob by decide) (show 0 % 8 = 0 by decide)
    (show 2 ≠ 0 by decide)
  have hlanes := congrArg (shows Dev.lanes) (hsent rfl)
  have hkept : (startOf barSysOfTwo sharedTid.dev).lanes = [0, 1] := by decide +kernel
  have hlost : shows Dev.lanes (exec barSysOfTwo sharedTid) = some [0, 0] := by decide +kernel
  have hstated := lanes_mapThread (startOf barSysOfTwo sharedTid.dev) r
    (fun h => { postAdvance barSysOfTwo h with pc := h.pc + 1, st := .parked (.barSysSent 0 2) }) (postAdvance_lane barSysOfTwo)
  have : some [0, 0] = some [0, 1] := hlost.symm.trans (hlanes.trans (congrArg some (hstated.trans hkept)))
  exact absurd this (by decide)

/-! ## A false guard in a queue thread (R25, R282) -/

/-- The thread of queue 0 issues, its predicates all false. -/
def queueIssues : State := { State.reset with dev := { State.reset.dev with cur := .queue 0 [] 0 } }

/-- `racq` of one unit, guarded by p0. -/
def racqIfP0 : Instr := .racq ⟨0, false, false, 0, false, false⟩ .none (.imm 1) .none

/-- Refutes O34: `racq`, which no queue thread fetches, leaves a queue thread where it is, its guard false or not. -/
theorem not_falseGuardsAdvance : ¬ Obligations.FalseGuardsAdvance := by
  intro hall
  obtain ⟨u, hnext, -, hwent⟩ := hall racqIfP0 queueIssues (by decide +kernel) (by decide +kernel) (by decide +kernel)
  obtain ⟨h, hfound, hpc, -⟩ := hwent _ _ (List.mem_singleton_self _)
  have hstays : exec racqIfP0 queueIssues = .next queueIssues := rfl
  cases hstays.symm.trans hnext
  cases hfound
  exact absurd hpc (by decide +kernel)

/-! ## A restored team where two teams bear one name (R321) -/

/-- Two teams of one name that are being restored, the first staged, the second not. -/
def sharedTeam : State :=
  let t := { Team.plain (Kernel.plain 0 1) with stat := .restoring, groups := [] }
  { State.reset with dev := { State.reset.dev with teams := [t, { t with staged := false }] } }

def Dev.teamStats (d : Dev) : List TeamStat := d.teams.map (·.stat)

/-- Refutes O39: the model lets each team of the name go on as its own staging says, the statement as that of the first one says. -/
theorem not_schedulerEvents : ¬ Obligations.SchedulerEvents := by
  intro hall
  obtain ⟨-, -, -, hrestore, -⟩ := hall sharedTeam 0 0 0
  have hmade := hrestore _ rfl rfl
  have hstats := congrArg (shows Dev.teamStats) hmade
  exact absurd hstats (by decide +kernel)

end Sys2Proof.Machine
end

section
/-! PROOF. Predicate logic and index registers: `plop3`, `pget`, `xset` and `xget` (R194, R195, R229, R230). -/

namespace Sys2Proof.Machine

theorem exec_plop3 (c : Ctl) (tab : Byte) (d a b : Operand) (s : State) : exec (.plop3 c tab d a b) s = execPlop3 c tab d a b s := rfl
theorem exec_pget (c : Ctl) (d a b : Operand) (s : State) : exec (.pget c d a b) s = execPget c d a b s := rfl
theorem exec_xset (c : Ctl) (m : XsetMode) (d a b : Operand) (s : State) : exec (.xset c m d a b) s = execXset c m d a b s := rfl
theorem exec_xget (c : Ctl) (f : XgetField) (d a b : Operand) (s : State) : exec (.xget c f d a b) s = execXget c f d a b s := rfl

/-! ## Numbers of the model as bit vectors (R9) -/

theorem intOut_eq_bvOut (n v : Nat) : intOut n v = bvOut (BitVec.ofNat n v) := by simp [intOut, bvOut]

theorem ofNat_field {w : Nat} (n : Nat) (x : BitVec w) (hi lo : Nat) :
    BitVec.ofNat n (field x.toNat hi lo) = (x.extractLsb' lo (hi + 1 - lo)).setWidth n := by
  rw [field, ← BitVec.extractLsb'_toNat, BitVec.ofNat_toNat]

theorem sext_eq_toInt (v n : Nat) : sext v n = (BitVec.ofNat n v).toInt := by
  rw [BitVec.toInt_eq_toNat_cond, BitVec.toNat_ofNat, sext]
  have hlt : v % 2 ^ n < 2 ^ n := Nat.mod_lt _ (Nat.two_pow_pos n)
  cases n with
  | zero => simp [Nat.mod_one]
  | succ k =>
    have hhalf : 2 ^ (k + 1) = 2 * 2 ^ k := Nat.pow_succ'
    simp only [Nat.add_sub_cancel]
    split <;> split <;> omega

theorem ofNat_wrapInt (n m : Nat) (x : Int) : BitVec.ofNat n (wrapInt x m) = (BitVec.ofInt m x).setWidth n := by
  apply BitVec.eq_of_toNat_eq
  simp [wrapInt]

/-- The low bits of a register replaced. -/
theorem ofNat_putField_low (x : DWord) (f : Nat) :
    BitVec.ofNat 64 (putField x.toNat 9 0 f) = (x &&& ~~~1023#64) ||| (BitVec.ofNat 10 f).setWidth 64 := by
  have hsplit : putField x.toNat 9 0 f = 2 ^ 10 * (x.toNat / 2 ^ 10) + f % 2 ^ 10 := by
    simp only [putField, field, Nat.shiftRight_zero]
    omega
  apply BitVec.eq_of_getLsbD_eq
  intro j hj
  have hmask : (1023#64).getLsbD j = decide (j < 10) := by
    rw [show (1023#64) = BitVec.ofNat 64 (2 ^ 10 - 1) from rfl, BitVec.getLsbD_ofNat, Nat.testBit_two_pow_sub_one]
    simp [hj]
  rw [BitVec.getLsbD_ofNat, hsplit, Nat.testBit_two_pow_mul_add _ (Nat.mod_lt _ (by decide))]
  simp only [BitVec.getLsbD_or, BitVec.getLsbD_and, BitVec.getLsbD_not, BitVec.getLsbD_setWidth, BitVec.getLsbD_ofNat, hmask, hj,
    Nat.testBit_mod_two_pow, Nat.testBit_div_two_pow]
  by_cases hlow : j < 10
  · simp [hlow]
  · simp [hlow, BitVec.getLsbD, Nat.sub_add_cancel (Nat.not_lt.mp hlow)]

/-! ## Instructions of fixed latency whose destination is a predicate or an index register -/

/-- An instruction of fixed latency completes with its result, whatever its destination. -/
theorem computes_of_aluRun {i : Instr} {f g : Env → Out} (hx : ∀ s, exec i s = s.onDev (aluRun i g)) (hfg : ∀ e, g e = f e)
    (hscale : ∀ e, (f e).scale = none)
    (hD : ∀ x off post, Roles.accepts (Roles.rolesOf i).1 (.ind x off post) = true → isDestRole (Roles.rolesOf i).1 = true) :
    Computes i f := by
  obtain rfl : g = f := funext hfg
  cases hw : i.wellFormed with
  | false => exact fun s hq => by simp [quiet, quietFor, hw] at hq
  | true =>
    refine computes_of_alu i g (fun e v hv => ?_) (fun x off post h => hD x off post ?_) hx
    · rw [hscale e] at hv
      cases hv
    · rw [← h]
      exact (wellFormed_accepts i hw).1

/-! ## plop3 (R138, R194) -/

/-- A truth table's bit as the union of its minterms (R138). -/
theorem lutBit_eq_minterms (tab : Byte) (d a b : Bool) :
    lutBit tab d a b = (minterms tab (BitVec.ofBool d) (BitVec.ofBool a) (BitVec.ofBool b)).getLsbD 0 := by
  have hbit (k : Nat) : bitOf tab.toNat k = tab.getLsbD k := rfl
  have hone (p : Bool) : (if p = true then 1#1 else 0#1)[0] = p := by cases p <;> rfl
  cases d <;> cases a <;> cases b <;> simp [lutBit, minterms, b2n, hbit, hone, List.range_succ, Nat.testBit]

theorem plop3_computes (c : Ctl) (tab : Byte) (d a b : Operand) : Computes (.plop3 c tab d a b) fun e =>
    predOut ((minterms tab (BitVec.ofBool (e.pred d)) (BitVec.ofBool (e.pred a)) (BitVec.ofBool (e.pred b))).getLsbD 0) :=
  computes_of_aluRun (exec_plop3 c tab d a b) (fun _ => congrArg predOut (lutBit_eq_minterms ..)) (fun _ => rfl)
    fun _ _ _ h => by cases h

/-! ## pget and xget (R195, R230) -/

theorem pget_computes (c : Ctl) (d a b : Operand) : Computes (.pget c d a b) fun e => bvOut (e.h.p.setWidth 32) :=
  computes_of_aluRun (exec_pget c d a b) (fun e => by rw [intOut_eq_bvOut, BitVec.ofNat_toNat]) (fun _ => rfl) fun _ _ _ _ => rfl

/-- `xget` of a field that the model reads as `g`. -/
theorem xget_computes {c : Ctl} {fld : XgetField} {d a b : Operand} {n : Nat} (g : DWord → Nat) {f : Env → BitVec n}
    (hx : ∀ s, exec (.xget c fld d a b) s = s.onDev (aluRun (.xget c fld d a b) fun e => intOut n (g (e.index a))))
    (hf : ∀ e, BitVec.ofNat n (g (e.index a)) = f e) : Computes (.xget c fld d a b) fun e => bvOut (f e) :=
  computes_of_aluRun hx (fun e => by rw [intOut_eq_bvOut, hf]) (fun _ => rfl) fun _ _ _ _ => rfl

/-- The step of an index register, five bits with a sign. -/
theorem ofNat_xStep (x : DWord) : BitVec.ofNat 32 (wrapInt (xStep x) 32) = (x.extractLsb' 30 5).signExtend 32 := by
  rw [ofNat_wrapInt, BitVec.setWidth_eq, xStep, sext_eq_toInt, ofNat_field, BitVec.setWidth_eq]
  rfl

/-- The wrap bit of an index register. -/
theorem ofNat_xWrap (x : DWord) : BitVec.ofNat 32 (b2n (xWrap x)) = (x.extractLsb' 37 1).setWidth 32 := by
  refine Eq.trans ?_ (ofNat_field 32 x 37 37)
  rw [xWrap, field, bitOf, Nat.testBit_eq_decide_div_mod_eq, Nat.shiftRight_eq_div_pow, b2n]
  simp only [decide_eq_true_eq, Nat.add_sub_cancel_left, Nat.pow_one]
  congr 1
  split <;> omega

/-! ## xset (R229) -/

/-- `xset` whose new value of the index register the model gives as `g`. -/
theorem xset_computes {c : Ctl} {mode : XsetMode} {d a b : Operand} (g : Env → Nat) {f : Env → DWord}
    (hx : ∀ s, exec (.xset c mode d a b) s = s.onDev (aluRun (.xset c mode d a b) fun e => intOut 64 (g e)))
    (hf : ∀ e, BitVec.ofNat 64 (g e) = f e) : Computes (.xset c mode d a b) fun e => bvOut (f e) :=
  computes_of_aluRun hx (fun e => by rw [intOut_eq_bvOut, hf]) (fun _ => rfl) fun _ _ _ h => by cases h

/-- The position of an index register moved by `v`, brought into its range where the register wraps (R51, R229). -/
def movedCur (x : DWord) (v : Int) : Int :=
  if xWrap x && decide (xBase x < xBound x) && (xCur x + v < xBase x || (xBound x : Int) ≤ xCur x + v)
  then wrapRange (xBase x) (xBound x) (xCur x + v) else xCur x + v

theorem movedCur_eq (x : DWord) (v : Int) : movedCur x v =
    if xWrap x = true ∧ xBase x < xBound x ∧ ((xCur x : Int) + v < xBase x ∨ (xBound x : Int) ≤ xCur x + v)
    then xBase x + (xCur x + v - xBase x) % ((xBound x : Int) - xBase x) else xCur x + v := by
  simp only [movedCur, Bool.and_eq_true, Bool.or_eq_true, decide_eq_true_eq, and_assoc]
  split
  · next h => rw [wrapRange, Nat.cast_sub h.2.1.le]
  · rfl

theorem xset_add_computes (c : Ctl) (d a b : Operand) : Computes (.xset c .add d a b) fun e =>
    let x := e.index d
    let next : Int := (xCur x : Int) + (e.bv 32 a).toInt
    let next := if xWrap x = true ∧ xBase x < xBound x ∧ (next < xBase x ∨ (xBound x : Int) ≤ next)
      then xBase x + (next - xBase x) % ((xBound x : Int) - xBase x) else next
    bvOut ((x &&& ~~~1023#64) ||| (BitVec.ofInt 10 next).setWidth 64) := by
  refine xset_computes (fun e => putField (e.index d).toNat 9 0 (wrapInt (movedCur (e.index d) (sext (e.scalar 32 .int a) 32)) 10)) (fun _ => rfl)
    fun e => ?_
  rw [ofNat_putField_low, ofNat_wrapInt, BitVec.setWidth_eq, movedCur_eq, sext_eq_toInt]
  rfl

/-- Settles O11, instruction by instruction and mode by mode. -/
theorem predicatesAndIndices : Obligations.PredicatesAndIndices := by
  intro c d a b
  refine ⟨fun tab => plop3_computes c tab d a b, pget_computes c d a b, ?_, ?_, xset_add_computes c d a b, ?_, ?_, ?_, ?_, ?_, ?_, ?_⟩
  · exact xset_computes (fun e => e.scalar 64 .int a) (fun _ => rfl) fun _ => rfl
  · refine xset_computes (fun e => putField (e.index d).toNat 9 0 (e.scalar 32 .int a)) (fun _ => rfl) fun e => ?_
    rw [ofNat_putField_low, Env.bv, BitVec.setWidth_ofNat_of_le (show 10 ≤ 32 by decide)]
  · exact xget_computes BitVec.toNat (fun _ => rfl) fun e => BitVec.ofNat_toNat 64 _ |>.trans (BitVec.setWidth_eq _)
  · exact xget_computes xCur (fun _ => rfl) fun e => ofNat_field 32 (e.index a) 9 0
  · exact xget_computes xBase (fun _ => rfl) fun e => ofNat_field 32 (e.index a) 19 10
  · exact xget_computes xBound (fun _ => rfl) fun e => ofNat_field 32 (e.index a) 29 20
  · exact xget_computes (fun x => wrapInt (xStep x) 32) (fun _ => rfl) fun e => ofNat_xStep (e.index a)
  · exact xget_computes xView (fun _ => rfl) fun e => ofNat_field 32 (e.index a) 36 35
  · exact xget_computes (fun x => b2n (xWrap x)) (fun _ => rfl) fun e => ofNat_xWrap (e.index a)

end Sys2Proof.Machine
end

section
/-! PROOF. Register allocation: `racq` and `rrel` (R46, R47, R227, R228). -/

namespace Sys2Proof.Machine

theorem exec_racq (c : Ctl) (d a b : Operand) (s : State) : exec (.racq c d a b) s = execRacq c d a b s := rfl
theorem exec_rrel (c : Ctl) (d a b : Operand) (s : State) : exec (.rrel c d a b) s = execRrel c d a b s := rfl

/-! ## The run of one thread, and its group changed before it passes -/

/-- A compute thread that issues belongs to the group of the machine's current run. -/
theorem cur_of_issuers_thr {d : Dev} {r : TRef} {e : Env} (h : (Who.thr r, e) ∈ issuers d) :
    ∃ lanes lits w, d.cur = .run r.team r.gid lanes lits w := by
  unfold issuers at h
  split at h
  · simp at h
  · rename_i team gid lanes lits w hcur
    split at h
    · simp at h
    · split at h
      · simp at h
      · split at h
        · simp at h
        · obtain ⟨l, -, hl⟩ := List.mem_filterMap.mp h
          obtain ⟨k, -, hk⟩ := Option.map_eq_some_iff.mp hl
          cases (Prod.mk.inj hk).1
          exact ⟨lanes, lits, w, hcur⟩
  · simp at h

theorem Dev.Finds.group? {d : Dev} {r : TRef} {t : Team} {g : Group} {h : Thread} (hf : d.Finds r t g h) :
    d.group? r.team r.gid = some g := by
  rw [Dev.group?, hf.team, Option.bind_some, hf.group]

/-- The group that a thread's name finds has the name's number. -/
theorem Dev.Finds.group_gid {d : Dev} {r : TRef} {t : Team} {g : Group} {h : Thread} (hf : d.Finds r t g h) : g.gid = r.gid := by
  simpa using List.find?_some hf.group

theorem Group.atLane?_map {g k : Group} (F : Thread → Thread) (hF : ∀ h, (F h).lane = h.lane) (hk : k.threads = g.threads.map F) (l : Nat) :
    k.atLane? l = (g.atLane? l).map F := by
  simp only [Group.atLane?, hk, List.find?_map, Function.comp_def, hF]

/-- A change of the issuing group that leaves its threads their lanes and names leaves the thread that issues. -/
theorem issuers_mapGroup {d : Dev} {r : TRef} {e : Env} {t : Team} {g : Group} (hi : issuers d = [(.thr r, e)]) (hf : d.Finds r t g e.h)
    {f : Group → Group} (F : Thread → Thread) (hgid : ∀ x, (f x).gid = x.gid) (hthreads : (f g).threads = g.threads.map F)
    (hlane : ∀ h, (F h).lane = h.lane) (htid : ∀ h, (F h).tid = h.tid) :
    ∃ e', issuers (d.mapGroup r.team r.gid f) = [(.thr r, e')] ∧ e'.h = F e.h := by
  obtain ⟨lanes, lits, w, hcur⟩ := cur_of_issuers_thr (r := r) (e := e) (by rw [hi]; exact List.mem_singleton_self _)
  have hteam : (d.mapGroup r.team r.gid f).team? r.team = some (t.mapGroup r.gid f) := by
    have := Dev.team?_mapTeam d (fun t => t.mapGroup r.gid f) (fun _ => rfl) r.team r.team
    rwa [if_pos rfl, hf.team] at this
  have hgroup : (t.mapGroup r.gid f).group? r.gid = some (f g) := by
    have := Team.group?_mapGroup t f hgid r.gid r.gid
    rwa [if_pos rfl, hf.group] at this
  let env (h : Thread) : Env := { d := d.mapGroup r.team r.gid f, own := some (t.mapGroup r.gid f, f g), q := 0, h := F h, lits }
  have hmap : issuers (d.mapGroup r.team r.gid f) = (issuers d).map fun p => (p.1, env p.2.h) := by
    have hcur' : (d.mapGroup r.team r.gid f).cur = .run r.team r.gid lanes lits w := hcur
    simp only [issuers, hcur, hcur', hteam, hf.team, hgroup, hf.group, Group.atLane?_map F hlane hthreads]
    by_cases hhalt : t.stat = .halting
    · simp [hhalt, Team.mapGroup]
    · have hstat : (t.mapGroup r.gid f).stat ≠ .halting := hhalt
      simp only [hhalt, hstat, if_false, List.map_filterMap]
      refine List.filterMap_congr fun l _ => ?_
      cases g.atLane? l with
      | none => rfl
      | some h => simp only [Option.map_some, htid]; rfl
  exact ⟨env e.h, by rw [hmap, hi]; rfl, rfl⟩

/-- The thread of a run of one passes. -/
theorem passRun_one {i : Instr} {d : Dev} {w : Who} {e : Env} (hi : issuers (d.prepare i) = [(w, e)]) (hc : clear e i = true) :
    passRun i d = (d.prepare i).pass i w := eachThread_one noCheck _ hi hc

/-! ## An instruction of the whole group whose one operand is an immediate -/

/-- An instruction of the whole group that names no register. -/
structure Immediate (i : Instr) (n : BitVec 20) : Prop where
  ops : Roles.opsOf i = (.none, .imm n, .none)
  name : named i = false
  window : flushes i = false

namespace Immediate
variable {i : Instr} {n : BitVec 20} (hi : Immediate i n)
include hi

theorem prepare (d : Dev) : d.prepare i = d := prepare_uniform i d (by rw [uniformIssue, hi.ops]; rfl)

theorem start (d : Dev) : startOf i d = d := by rw [startOf_plain i d hi.name hi.window, hi.prepare]

/-- It executes wherever the guard is true. -/
theorem clear_iff (e : Env) : clear e i = true ↔ e.h.guard (Roles.ctlOf i) = true := by
  have hrange : rangeCheck e i = none := by simp [rangeCheck, hi.ops, locate]
  have hpoison : poisonRead e i = none := by simp [poisonRead, hi.ops, locate]
  simp [clear, hrange, hpoison]

theorem pass (d : Dev) (r : TRef) : d.pass i (.thr r) = d.mapThread r Thread.advance := by
  have hpost (h : Thread) : postAdvance i h = h := postAdvance_none i h (by simp [postIndices, hi.ops])
  simp only [Dev.pass, Dev.mapWho, hpost]

/-- The thread of a run of one passes, its group changed before. -/
theorem passRun_mapGroup {d : Dev} {r : TRef} {e : Env} {t : Team} {g : Group} (hissue : issuers d = [(.thr r, e)])
    (hf : d.Finds r t g e.h) (hguard : e.h.guard (Roles.ctlOf i) = true) {f : Group → Group} (F : Thread → Thread)
    (hgid : ∀ x, (f x).gid = x.gid) (hthreads : (f g).threads = g.threads.map F) (hlane : ∀ h, (F h).lane = h.lane)
    (htid : ∀ h, (F h).tid = h.tid) (hp : ∀ h, (F h).p = h.p) :
    passRun i (d.mapGroup r.team r.gid f) = (d.mapGroup r.team r.gid f).mapThread r Thread.advance := by
  obtain ⟨e', he', hh⟩ := issuers_mapGroup hissue hf F hgid hthreads hlane htid
  have hguard' : e'.h.guard (Roles.ctlOf i) = true := by
    rw [hh, ← hguard]
    simp only [Thread.guard, Thread.pred, hp]
  rw [passRun_one (by rw [hi.prepare]; exact he') ((hi.clear_iff e').mpr hguard'), hi.prepare, hi.pass]

end Immediate

/-- `racq` and `rrel` of one thread: the thread alone issues, and its guard is true. -/
theorem racq_immediate {c : Ctl} {d b : Operand} {n : BitVec 20} (hw : (Instr.racq c d (.imm n) b).wellFormed = true) :
    Immediate (.racq c d (.imm n) b) n := by
  obtain ⟨hD, -, hB⟩ := wellFormed_accepts _ hw
  obtain rfl : d = .none := eq_none_of_unused hD
  obtain rfl : b = .none := eq_none_of_unused hB
  exact ⟨rfl, rfl, rfl⟩

theorem rrel_immediate {c : Ctl} {d b : Operand} {n : BitVec 20} (hw : (Instr.rrel c d (.imm n) b).wellFormed = true) :
    Immediate (.rrel c d (.imm n) b) n := by
  obtain ⟨hD, -, hB⟩ := wellFormed_accepts _ hw
  obtain rfl : d = .none := eq_none_of_unused hD
  obtain rfl : b = .none := eq_none_of_unused hB
  exact ⟨rfl, rfl, rfl⟩

theorem wellFormed_of_soloOf {i : Instr} {s : State} {x : TRef × Env × Team × Group} (h : soloOf i s = some x) : i.wellFormed = true := by
  unfold soloOf at h
  split at h
  · split at h
    · split at h
      · next hc => simp only [Bool.and_eq_true] at hc; exact hc.1.1
      · simp at h
    · simp at h
  · simp at h

/-- What `soloOf` says of an instruction that names no register: one thread issues from the machine as it stands. -/
theorem Immediate.solo {i : Instr} {n : BitVec 20} (hi : Immediate i n) {s : State} {r : TRef} {e : Env} {t : Team} {g : Group}
    (hs : soloOf i s = some (r, e, t, g)) : issuers s.dev = [(.thr r, e)] ∧ s.dev.Finds r t g e.h ∧ e.h.guard (Roles.ctlOf i) = true := by
  have h := solo_of_soloOf hs
  have hissues := h.issues
  have hfinds := h.finds
  rw [hi.start] at hissues hfinds
  exact ⟨hissues, hfinds, (hi.clear_iff e).mp h.clear⟩

/-! ## racq (R47, R228) -/

section
variable {c : Ctl} {d b : Operand} {n : BitVec 20} {s : State} {r : TRef} {e : Env} {t : Team} {g : Group}

/-- `racq` of one thread whose team does not gather. -/
theorem exec_racq_solo (hs : soloOf (.racq c d (.imm n) b) s = some (r, e, t, g)) (hgather : t.gather = none) {lanes : List Nat}
    {lits : AMap DWord} {w : Word} (hcur : s.dev.cur = .run r.team r.gid lanes lits w) :
    exec (.racq c d (.imm n) b) s = .next { s with
      dev := if 4 < g.units + n.toNat then unitsTrap (.racq c d (.imm n) b) n.toNat s.dev
        else if (s.dev.racq.any fun x => x.1 == g.core) || decide (freeSlots s.dev g.core < t.kernel.width * 64 * n.toNat) then
          { s.dev.mapGroup r.team r.gid fun x => { x with block := some (.racq n.toNat s.dev.cycle lanes) } with
            racq := s.dev.racq ++ [(g.core, r.team, r.gid)] }
        else passRun (.racq c d (.imm n) b) (grantUnits s.dev r.team r.gid n.toNat) } := by
  obtain ⟨hissues, hf, hguard⟩ := (racq_immediate (wellFormed_of_soloOf hs)).solo hs
  have hany : ((issuers s.dev).any fun p => p.2.h.guard c) = true := by
    rw [hissues]
    simpa [Roles.ctlOf] using hguard
  simp only [exec_racq, execRacq, State.onDev_eq, hcur, hf.team, hf.group?, hany, hgather, unitCount, Bool.not_true, Bool.false_eq_true,
    if_false, Option.isSome_none] <;> rfl

/-- The slots of a thread below those that a grant adds to its group (R47). -/
def Thread.below (a : Nat) (h : Thread) : Thread :=
  { h with bank := h.bank.filter fun p => p.1 < a, bad := h.bad.filter fun k => decide (k < a) }

theorem racq_granted (hs : soloOf (.racq c d (.imm n) b) s = some (r, e, t, g)) (hgather : t.gather = none) (hmax : g.units + n.toNat ≤ 4)
    (hfirst : ∀ x ∈ s.dev.racq, x.1 ≠ g.core) (hfree : t.kernel.width * 64 * n.toNat ≤ freeSlots s.dev g.core) :
    Does (.racq c d (.imm n) b) s fun m => (m.mapGroup r.team r.gid fun x =>
      { x with
        units := x.units + n.toNat
        threads := x.threads.map (Thread.below (t.kernel.base + 64 * x.units)) }).mapThread r Thread.advance := by
  have hi := racq_immediate (wellFormed_of_soloOf hs)
  obtain ⟨hissues, hf, hguard⟩ := hi.solo hs
  obtain ⟨lanes, lits, w, hcur⟩ := cur_of_issuers_thr (r := r) (e := e) (by rw [hissues]; exact List.mem_singleton_self _)
  have hnone : (s.dev.racq.any fun x => x.1 == g.core) = false := by simpa using hfirst
  unfold Does
  rw [hi.start, exec_racq_solo hs hgather hcur, if_neg (Nat.not_lt.mpr hmax), hnone, Bool.false_or,
    if_neg (by simpa using hfree), grantUnits, hf.team]
  refine congrArg (fun m => Host.Outcome.next { s with dev := m })
    (hi.passRun_mapGroup hissues hf hguard (Thread.below (allocSlots t.kernel g)) ?_ ?_ ?_ ?_ ?_) <;> intros <;> rfl

theorem racq_waits (hs : soloOf (.racq c d (.imm n) b) s = some (r, e, t, g)) (hgather : t.gather = none) (hmax : g.units + n.toNat ≤ 4)
    (hbusy : (∃ x ∈ s.dev.racq, x.1 = g.core) ∨ freeSlots s.dev g.core < t.kernel.width * 64 * n.toNat) (team gid : Nat) (lanes : List Nat)
    (lits : AMap DWord) (w : Word) (hcur : s.dev.cur = .run team gid lanes lits w) :
    Does (.racq c d (.imm n) b) s fun m =>
      { m.mapGroup team gid fun x => { x with block := some (.racq n.toNat m.cycle lanes) } with
        racq := m.racq ++ [(g.core, team, gid)] } := by
  have hi := racq_immediate (wellFormed_of_soloOf hs)
  obtain ⟨hissues, -⟩ := hi.solo hs
  obtain ⟨_, _, _, hrun⟩ := cur_of_issuers_thr (r := r) (e := e) (by rw [hissues]; exact List.mem_singleton_self _)
  cases hcur.symm.trans hrun
  have hheld : ((s.dev.racq.any fun x => x.1 == g.core) || decide (freeSlots s.dev g.core < t.kernel.width * 64 * n.toNat)) = true := by
    simpa using hbusy
  unfold Does
  rw [hi.start, exec_racq_solo hs hgather hcur, if_neg (Nat.not_lt.mpr hmax), if_pos hheld]

/-! ## rrel (R47, R228) -/

/-- `rrel` of one thread. -/
theorem exec_rrel_solo (hs : soloOf (.rrel c d (.imm n) b) s = some (r, e, t, g)) :
    exec (.rrel c d (.imm n) b) s = .next { s with
      dev := if g.units < n.toNat then unitsTrap (.rrel c d (.imm n) b) n.toNat s.dev
        else if unitsBusy s.dev t g n.toNat then s.dev.mapGroup r.team r.gid fun x => { x with block := some (.rrel n.toNat) }
        else passRun (.rrel c d (.imm n) b) (releaseUnits s.dev t g n.toNat) } := by
  obtain ⟨hissues, hf, hguard⟩ := (rrel_immediate (wellFormed_of_soloOf hs)).solo hs
  obtain ⟨_, _, _, hcur⟩ := cur_of_issuers_thr (r := r) (e := e) (by rw [hissues]; exact List.mem_singleton_self _)
  have hany : ((issuers s.dev).any fun p => p.2.h.guard c) = true := by
    rw [hissues]
    simpa [Roles.ctlOf] using hguard
  simp only [exec_rrel, execRrel, State.onDev_eq, hcur, hf.team, hf.group?, hany, unitCount, Bool.not_true, Bool.false_eq_true, if_false]
    <;> rfl

/-- A thread without its slots from `a` on (R47). -/
def Thread.without (a : Nat) (h : Thread) : Thread := { h.below a with win := winBelow a h.win }

theorem rrel_released (hs : soloOf (.rrel c d (.imm n) b) s = some (r, e, t, g)) (hunits : n.toNat ≤ g.units)
    (hquiet : unitsBusy s.dev t g n.toNat = false) :
    Does (.rrel c d (.imm n) b) s fun m => (m.mapGroup r.team r.gid fun x =>
      { x with
        units := x.units - n.toNat
        block := none
        threads := x.threads.map (Thread.without (t.kernel.base + 64 * g.units - 64 * n.toNat)) }).mapThread r Thread.advance := by
  have hi := rrel_immediate (wellFormed_of_soloOf hs)
  obtain ⟨hissues, hf, hguard⟩ := hi.solo hs
  unfold Does
  rw [hi.start, exec_rrel_solo hs, if_neg (Nat.not_lt.mpr hunits), hquiet, if_neg Bool.false_ne_true, releaseUnits, hf.team_id, hf.group_gid]
  refine congrArg (fun m => Host.Outcome.next { s with dev := m })
    (hi.passRun_mapGroup hissues hf hguard (Thread.without (allocSlots t.kernel g - 64 * n.toNat)) ?_ ?_ ?_ ?_ ?_) <;> intros <;> rfl

end

/-- Settles O15: units granted, a group that waits for them, units released. -/
theorem registerUnits : Obligations.RegisterUnits :=
  fun _ _ _ _ _ _ _ _ _ => ⟨fun hs hgather hmax => ⟨racq_granted hs hgather hmax, racq_waits hs hgather hmax⟩, rrel_released⟩

end Sys2Proof.Machine
end

section
/-! PROOF. Register-range traps and the count trap (R47, R235, R388, R408). -/

namespace Sys2Proof.Machine

theorem exec_mov (c : Ctl) (w : IWidth) (d a b : Operand) (s : State) : exec (.mov c w d a b) s = execMov c w d a b s := rfl

/-! ## A run of one thread, whether or not it executes -/

theorem eachThread_single {i : Instr} {d : Dev} {w : Who} {e : Env} (check : Env → Option Trap) (eff : Env → Who → Dev → Dev)
    (hi : issuers (d.prepare i) = [(w, e)]) : eachThread i check eff d = issueOne i check eff (w, e) (d.prepare i) := by
  simp only [eachThread, hi, List.foldl_cons, List.foldl_nil]

/-- One thread alone performs the single issue of R27 as it would perform its own. -/
theorem issueAll_single {i : Instr} {d : Dev} {w : Who} {e : Env} (check : Env → Option Trap) (eff : Env → Who → Dev → Dev)
    (hi : issuers (d.prepare i) = [(w, e)]) : issueAll i check eff d = issueOne i check eff (w, e) (d.prepare i) := by
  unfold issueAll
  split
  · next hu =>
    have halive : (d.prepare i).alive w = true := issuers_alive _ (w, e) (by rw [hi]; exact List.mem_singleton_self _)
    rw [prepare_uniform i d hu] at hi halive ⊢
    cases hg : e.h.guard (Roles.ctlOf i) with
    | false => simp [uniformOnce, hi, hg, issueOne, halive]
    | true => simp [uniformOnce, hi, hg]
  · exact eachThread_single check eff hi

/-- A thread with a true guard whose operands lie outside its allocation takes the register-range trap (R408). -/
theorem issueOne_range {i : Instr} {check : Env → Option Trap} {eff : Env → Who → Dev → Dev} {d : Dev} {w : Who} {e : Env} {k : Nat}
    (halive : d.alive w = true) (hguard : e.h.guard (Roles.ctlOf i) = true) (hk : rangeCheck e i = some k) :
    issueOne i check eff (w, e) d = d.trap w (rangeTrap e k) := by
  simp [issueOne, halive, hguard, hk]

/-- A thread that issues and that its name finds, in its team and its group. -/
theorem finds_of_issuers {d : Dev} {r : TRef} {e : Env} {t : Team} {g : Group} (hi : (Who.thr r, e) ∈ issuers d)
    (hown : e.own = some (t, g)) (hthread : d.thread? r = some e.h) : d.Finds r t g e.h := by
  obtain ⟨t', g', -, hown', ht, hg⟩ := issuers_thr hi
  cases hown.symm.trans hown'
  refine ⟨ht, hg, ?_⟩
  simpa [Dev.thread?, Dev.group?, ht, hg] using hthread

/-- The register-range trap of the one thread of a run. -/
theorem issueOne_range_one {i : Instr} {check : Env → Option Trap} {eff : Env → Who → Dev → Dev} {d : Dev} {r : TRef} {e : Env} {t : Team}
    {g : Group} {k : Nat} (hi : issuers d = [(.thr r, e)]) (hthread : d.thread? r = some e.h) (hown : e.own = some (t, g))
    (hguard : e.h.guard (Roles.ctlOf i) = true) (hk : rangeCheck e i = some k) :
    issueOne i check eff (.thr r, e) d = trapped e r (rangeTrap e k) d := by
  have hmem : (Who.thr r, e) ∈ issuers d := by rw [hi]; exact List.mem_singleton_self _
  rw [issueOne_range (issuers_alive d _ hmem) hguard hk, trap_thr (finds_of_issuers hmem hown hthread)]

/-! ## The traps, instruction by instruction -/

theorem mov_range {c : Ctl} {w : IWidth} {d a b : Operand} {s : State} {r : TRef} {e : Env} {t : Team} {g : Group}
    (hi : issuers (startOf (.mov c w d a b) s.dev) = [(.thr r, e)]) (hthread : (startOf (.mov c w d a b) s.dev).thread? r = some e.h)
    (hown : e.own = some (t, g)) (hguard : e.h.guard (Roles.ctlOf (.mov c w d a b)) = true) {k : Nat}
    (hk : rangeCheck e (.mov c w d a b) = some k) :
    Does (.mov c w d a b) s fun m => (trapped e r (rangeTrap e k) m).closeWindow (.mov c w d a b) := by
  have hstart := startOf_plain (.mov c w d a b) s.dev rfl rfl
  rw [hstart] at hi hthread
  unfold Does
  rw [exec_mov, execMov, State.onDev_eq, aluRun, issueAll_single _ _ hi, issueOne_range_one hi hthread hown hguard hk, hstart]

theorem pset_range {c : Ctl} {d a b : Operand} {s : State} {r : TRef} {e : Env} {t : Team} {g : Group}
    (hi : issuers (startOf (.pset c d a b) s.dev) = [(.thr r, e)]) (hthread : (startOf (.pset c d a b) s.dev).thread? r = some e.h)
    (hown : e.own = some (t, g)) (hguard : e.h.guard (Roles.ctlOf (.pset c d a b)) = true) {k : Nat}
    (hk : rangeCheck e (.pset c d a b) = some k) :
    Does (.pset c d a b) s fun m => (trapped e r (rangeTrap e k) m).closeWindow (.pset c d a b) := by
  have hstart := startOf_plain (.pset c d a b) s.dev rfl rfl
  rw [hstart] at hi hthread
  unfold Does
  rw [exec_pset, execPset, State.onDev_eq, eachThread_single _ _ hi, issueOne_range_one hi hthread hown hguard hk, hstart]

section
variable {c : Ctl} {d a b : Operand} {n : BitVec 20} {s : State} {r : TRef} {e : Env} {t : Team} {g : Group}

/-- The trap of more or fewer units than a group may have (R47). -/
theorem unitsTrap_solo {i : Instr} (hi : Immediate i n) (hs : soloOf i s = some (r, e, t, g)) :
    unitsTrap i n.toNat s.dev = trapped e r (rangeTrap e (2 ^ 32 + n.toNat)) (startOf i s.dev) :=
  softwareTrap_solo (fun e => rangeTrap e (2 ^ 32 + n.toNat)) hi.name hi.window hs

theorem racq_traps (hs : soloOf (.racq c d (.imm n) b) s = some (r, e, t, g)) (hgather : t.gather = none) (hmax : 4 < g.units + n.toNat) :
    Does (.racq c d (.imm n) b) s (trapped e r (rangeTrap e (2 ^ 32 + n.toNat))) := by
  have hi := racq_immediate (wellFormed_of_soloOf hs)
  obtain ⟨hissues, -⟩ := hi.solo hs
  obtain ⟨_, _, _, hcur⟩ := cur_of_issuers_thr (r := r) (e := e) (by rw [hissues]; exact List.mem_singleton_self _)
  unfold Does
  rw [exec_racq_solo hs hgather hcur, if_pos hmax, unitsTrap_solo hi hs]

theorem rrel_traps (hs : soloOf (.rrel c d (.imm n) b) s = some (r, e, t, g)) (hunits : g.units < n.toNat) :
    Does (.rrel c d (.imm n) b) s (trapped e r (rangeTrap e (2 ^ 32 + n.toNat))) := by
  have hi := rrel_immediate (wellFormed_of_soloOf hs)
  unfold Does
  rw [exec_rrel_solo hs, if_pos hunits, unitsTrap_solo hi hs]

/-- A count above 65,535 (R235). -/
theorem rep_traps (hs : soloOf (.rep c d a b) s = some (r, e, t, g)) (hcount : 65535 < e.count a) :
    Does (.rep c d a b) s (trapped e r { cause := 0x09, fpc := e.h.pc.toNat, resume := e.h.pc.toNat, detail := e.count a }) := by
  have h := solo_of_soloOf hs
  have hi := h.issues
  have hstart := startOf_plain (.rep c d a b) s.dev rfl rfl
  have htrap : repTrap a e = some { cause := 0x09, fpc := e.h.pc.toNat, resume := e.h.pc.toNat, detail := e.count a } := if_pos hcount
  rw [hstart] at hi
  unfold Does
  rw [exec_rep, execRep, State.onDev_eq, eachThread_one _ _ hi h.clear, htrap, Option.elim_some, ← hstart, trap_thr h.finds]

end

/-- Settles O35: an operand outside the allocation, units beyond the bounds, and a count above 65,535. -/
theorem registerRangeTraps : Obligations.RegisterRangeTraps :=
  fun _ _ _ _ _ _ _ _ _ _ => ⟨fun _ hi hthread hown _ hguard _ hk => mov_range hi hthread hown hguard hk,
    fun hi hthread hown _ hguard _ hk => pset_range hi hthread hown hguard hk, racq_traps, rrel_traps, rep_traps⟩

end Sys2Proof.Machine
end

section
/-! PROOF. Device time and system registers: `dtime`, `sysr` and `sysw` (R49, R278 to R280). -/

namespace Sys2Proof.Machine

theorem exec_dtime (c : Ctl) (d a b : Operand) (s : State) : exec (.dtime c d a b) s = .next { s with
      dev := (eachThread (.dtime c d a b) noCheck (fun e w m => writeOut (.dtime c d a b) { val := dtimeQuad e.d, mask := 2 ^ 128 - 1 } e w m)
        s.dev).closeWindow (.dtime c d a b) } := rfl

/-- What `sysr` does for one thread: the result awaited, or, in a queue thread, written (R279). -/
def sysrEff (mgmt : Mgmt) (i : Instr) (d : Operand) (n k : Nat) (e : Env) (w : Who) (m : Dev) : Dev :=
  match w with
  | .thr r => past i r (awaiting r (some (destOf e (.dst true) d)) (some (systemReg mgmt m e n)) (2 ^ 64 - 1) k false m)
  | .que _ => writeOut i { val := systemReg mgmt m e n, mask := 2 ^ 64 - 1 } e w m

theorem exec_sysr (c : Ctl) (d : Operand) (n : BitVec 20) (b : Operand) (s : State) : exec (.sysr c d (.imm n) b) s =
    s.onDev (longEach (.sysr c d (.imm n) b) noCheck (sysrEff s.mgmt (.sysr c d (.imm n) b) d n.toNat)) := by
  refine congrArg s.onDev (congrArg (longEach _ noCheck) ?_)
  funext k e w m
  cases w <;> rfl

theorem exec_sysw (c : Ctl) (d a b : Operand) (s : State) : exec (.sysw c d a b) s = execSysw c d a b s := rfl

/-! ## What readying an instruction leaves alone -/

theorem dtimeQuad_prepare (i : Instr) (d : Dev) : dtimeQuad (d.prepare i) = dtimeQuad d := by
  unfold Dev.prepare
  split <;> rfl

theorem systemReg_prepare (mgmt : Mgmt) (i : Instr) (d : Dev) (e : Env) (n : Nat) :
    systemReg mgmt (d.prepare i) e n = systemReg mgmt d e n := by
  unfold Dev.prepare
  split <;> rfl

theorem systemReg_clearLong (mgmt : Mgmt) (i : Instr) (d : Dev) (e : Env) (n : Nat) :
    systemReg mgmt (clearLong i d) e n = systemReg mgmt d e n := by
  unfold clearLong
  split
  · dsimp only
    split
    · split <;> rfl
    · rfl
  · rfl

/-- The one thread of a run stands in the team and the group that its name finds. -/
theorem Solo.own {i : Instr} {s : State} {r : TRef} {e : Env} {t : Team} {g : Group} (h : Solo i s r e t g) : e.own = some (t, g) := by
  obtain ⟨t', g', -, hown, ht, hg⟩ := issuers_thr (r := r) (e := e) (by rw [h.issues]; exact List.mem_singleton_self _)
  cases h.finds.team.symm.trans ht
  cases h.finds.group.symm.trans hg
  exact hown

/-! ## dtime (R278) -/

theorem env_d_of_issuers {d : Dev} {p : Who × Env} (h : p ∈ issuers d) : p.2.d = d := by
  obtain ⟨w, e⟩ := p
  cases w with
  | thr r =>
    obtain ⟨-, -, hd, -⟩ := issuers_thr h
    exact hd
  | que q =>
    obtain ⟨-, hd, -⟩ := issuers_que h
    exact hd

/-- Effects that agree on the threads that issue. -/
theorem eachThread_congr {i : Instr} {check : Env → Option Trap} {d : Dev} {eff eff' : Env → Who → Dev → Dev}
    (h : ∀ p ∈ issuers (d.prepare i), eff p.2 p.1 = eff' p.2 p.1) : eachThread i check eff d = eachThread i check eff' d := by
  refine List.foldl_ext _ _ _ fun m p hp => ?_
  simp only [issueOne, h p hp]

/-- The four slots of device time as one bit vector. -/
theorem dtimeQuad_eq {d : Dev} (hfrac : d.frac < 2 ^ 32) (hnanos : d.nanos < 2 ^ 32) :
    dtimeQuad d = ((BitVec.ofNat 48 d.secs ++ BitVec.ofNat 32 d.nanos ++ BitVec.ofNat 32 d.frac : BitVec 112).setWidth 128).toNat := by
  have happend : (BitVec.ofNat 48 d.secs ++ BitVec.ofNat 32 d.nanos ++ BitVec.ofNat 32 d.frac : BitVec 112).toNat =
      (d.secs % 2 ^ 48 * 2 ^ 32 + d.nanos) * 2 ^ 32 + d.frac := by
    rw [BitVec.toNat_append, BitVec.toNat_append, ← Nat.shiftLeft_add_eq_or_of_lt (BitVec.isLt _),
      ← Nat.shiftLeft_add_eq_or_of_lt (BitVec.isLt _)]
    simp only [BitVec.toNat_ofNat, Nat.shiftLeft_eq, Nat.mod_eq_of_lt hfrac, Nat.mod_eq_of_lt hnanos]
  rw [BitVec.toNat_setWidth, happend]
  simp only [dtimeQuad, packElems]
  omega

/-- Device time as a result in four slots. -/
def dtimeOut (d : Dev) : Out :=
  bvOut ((BitVec.ofNat 48 d.secs ++ BitVec.ofNat 32 d.nanos ++ BitVec.ofNat 32 d.frac : BitVec 112).setWidth 128)

theorem dtimeOut_eq {d : Dev} (hfrac : d.frac < 2 ^ 32) (hnanos : d.nanos < 2 ^ 32) :
    { val := dtimeQuad d, mask := 2 ^ 128 - 1 } = dtimeOut d := by
  rw [dtimeQuad_eq hfrac hnanos, dtimeOut, bvOut]

theorem dtime_ran {c : Ctl} {d a b : Operand} {s : State} (hq : quietAll (.dtime c d a b) s = true) (hfrac : s.dev.frac < 2 ^ 32)
    (hnanos : s.dev.nanos < 2 ^ 32) :
    ∃ u, exec (.dtime c d a b) s = .next u ∧
      Ran (.dtime c d a b) (actors (.dtime c d a b) s.dev) (fun _ _ => dtimeOut s.dev) goOn s u := by
  refine ⟨_, exec_dtime c d a b s, ?_⟩
  have hval : ∀ p ∈ issuers (s.dev.prepare (.dtime c d a b)), dtimeQuad p.2.d = dtimeQuad s.dev := fun p hp => by
    rw [env_d_of_issuers hp, dtimeQuad_prepare]
  rw [eachThread_congr (eff' := fun e w m => writeOut (.dtime c d a b) (dtimeOut s.dev) e w m) fun p hp => by
    rw [hval p hp, dtimeOut_eq hfrac hnanos]]
  exact ran_of_each _ (fun _ _ => dtimeOut s.dev) goOn (fun _ => Thread.goOn)
    (fun e w m => writeOut (.dtime c d a b) (dtimeOut s.dev) e w m) s hq (fun _ _ _ => rfl) (fun _ _ v hv => by cases hv) (fun _ _ _ _ => rfl)
    (fun p m => writeOut_touch (.dtime c d a b) (dtimeOut s.dev) p.2 p.1 m) _ (.inr rfl)

/-! ## sysr (R279) -/

section
variable {c : Ctl} {d a b : Operand} {n : BitVec 20} {s : State} {r : TRef} {e : Env} {t : Team} {g : Group}

/-- The result of `sysr` in one thread: the register as the machine stands before the instruction. -/
theorem sysr_issues (hs : soloOf (.sysr c d (.imm n) b) s = some (r, e, t, g)) :
    Issues (.sysr c d (.imm n) b) s r
      (awaiting r (some (destOf e (.dst true) d)) (some (systemReg s.mgmt s.dev e n.toNat)) (2 ^ 64 - 1) s.dev.nextId false) := by
  have h := solo_of_soloOf hs
  have hi := h.issues
  have hstart := startOf_named (i := .sysr c d (.imm n) b) (d := s.dev) rfl rfl
  have hreg : systemReg s.mgmt ((clearLong (.sysr c d (.imm n) b) s.dev.freshId.2).prepare (.sysr c d (.imm n) b)) e n.toNat =
      systemReg s.mgmt s.dev e n.toNat := by
    rw [systemReg_prepare, systemReg_clearLong]
    rfl
  rw [hstart] at hi
  unfold Issues Does
  rw [hstart]
  simp only [exec_sysr, State.onDev_eq, longEach, eachThread_one _ _ hi h.clear, noCheck, Option.elim_none, sysrEff]
  rw [show s.dev.freshId.1 = s.dev.nextId from rfl, hreg]

/-! ## sysw (R49, R280) -/

/-- The count of `sr.lambda` at most 8, and its reserved bits zero (R49). -/
theorem lambdaStored_eq (v : Nat) :
    lambdaStored v = (BitVec.ofNat 64 v &&& 0xFF_FFFF_FFFF#64) |||
      ((if (BitVec.ofNat 64 v).extractLsb' 40 4 ≤ 8#4 then (BitVec.ofNat 64 v).extractLsb' 40 4 else 8#4).setWidth 64 <<< 40) := by
  let count : BitVec 4 := if (BitVec.ofNat 64 v).extractLsb' 40 4 ≤ 8#4 then (BitVec.ofNat 64 v).extractLsb' 40 4 else 8#4
  have hfield : ((BitVec.ofNat 64 v).extractLsb' 40 4).toNat = v / 2 ^ 40 % 2 ^ 4 := by
    simp only [BitVec.extractLsb'_toNat, BitVec.toNat_ofNat, Nat.shiftRight_eq_div_pow]
    omega
  have hcount : count.toNat = min 8 (v / 2 ^ 40 % 2 ^ 4) := by
    simp only [count, apply_ite BitVec.toNat, BitVec.le_def, hfield, BitVec.toNat_ofNat]
    split <;> omega
  apply BitVec.eq_of_toNat_eq
  have hlow : v % 2 ^ 64 &&& 0xFFFFFFFFFF = v % 2 ^ 40 := by
    rw [show 0xFFFFFFFFFF = 2 ^ 40 - 1 from rfl, Nat.and_two_pow_sub_one_eq_mod]
    omega
  change _ = ((BitVec.ofNat 64 v &&& 0xFF_FFFF_FFFF#64) ||| (count.setWidth 64 <<< 40)).toNat
  have hshift : (count.setWidth 64 <<< 40).toNat = 2 ^ 40 * count.toNat := by
    simp only [BitVec.toNat_shiftLeft, BitVec.toNat_setWidth, Nat.shiftLeft_eq]
    omega
  rw [BitVec.toNat_or, BitVec.toNat_and, hshift, BitVec.toNat_ofNat, BitVec.toNat_ofNat, Nat.or_comm,
    show (0xFF_FFFF_FFFF : Nat) % 2 ^ 64 = 0xFFFFFFFFFF from rfl, hlow, ← Nat.two_pow_add_eq_or_of_lt (Nat.mod_lt _ (by decide)), hcount]
  simp only [lambdaStored, putField, field, BitVec.toNat_ofNat, Nat.shiftRight_eq_div_pow]
  omega

theorem sysw_does (hs : soloOf (.sysw c d a b) s = some (r, e, t, g)) :
    Does (.sysw c d a b) s fun m => (past (.sysw c d a b) r (m.mapGroup r.team r.gid fun g =>
      { g with lambda := lambdaStored (e.scalar 64 .int a) })).closeWindow (.sysw c d a b) := by
  have h := solo_of_soloOf hs
  have hi := h.issues
  have hstart := startOf_plain (.sysw c d a b) s.dev rfl rfl
  rw [hstart] at hi
  unfold Does
  rw [exec_sysw, execSysw, State.onDev_eq, eachThread_one _ _ hi h.clear, hstart]
  rfl

end

/-- Settles O30: device time, the eight system registers, and `sr.lambda` written. -/
theorem systemRegisters : Obligations.SystemRegisters := by
  refine ⟨fun c d a b s => dtime_ran, fun c d b n a s r e t g => ⟨fun hs => ?_, fun hs => ?_⟩⟩
  · have hreads : ∀ v, systemReg s.mgmt s.dev e n.toNat = v → Issues (.sysr c d (.imm n) b) s r
        (awaiting r (some (destOf e (.dst true) d)) (some v) (2 ^ 64 - 1) s.dev.nextId false) := fun v hv => hv ▸ sysr_issues hs
    simp only [systemReg, (solo_of_soloOf hs).own] at hreads
    refine ⟨?_, ?_, fun x hx => ⟨?_, ?_, ?_⟩, ?_, ?_, ?_⟩ <;> rintro rfl <;> apply hreads
    · rfl
    · rfl
    · rw [hx]; rfl
    · rw [hx]; rfl
    · rw [hx]; rfl
    · rfl
    · rfl
    · rfl
  · have hdoes := sysw_does hs
    simp only [lambdaStored_eq] at hdoes
    exact hdoes

end Sys2Proof.Machine
end

section
/-! PROOF. Local stores: `st` and `hstore` (R58, R206 to R208, R260). -/

namespace Sys2Proof.Machine

theorem exec_st (c : Ctl) (w : MWidth) (d a b : Operand) (s : State) : exec (.st c w d a b) s = execSt c w d a b s := rfl
theorem exec_hstore (c : Ctl) (d a b : Operand) (s : State) : exec (.hstore c d a b) s = execHstore c d a b s := rfl

/-! ## One thread's store -/

/-- What one thread's store does before the thread passes: on its way, or its bytes written at the location. -/
def stored (e : Env) (r : TRef) (n v ea : Nat) (loc : Loc) (m : Dev) : Dev :=
  match awayAt e r ea loc (.store n v) none m with
  | some (space, k) => onItsWay e r space ea k (.store n v) none false none 0 0 (drawn e r ea loc (.store n v) none m)
  | none => loc.write (drawn e r ea loc (.store n v) none m) e.own e.h.lane n v

/-- The model's access of a store to team memory, which draws a free value where it waits for nothing (log 62). -/
theorem localAccess_store_team {e : Env} {r : TRef} {instr n v ea k mask : Nat} {m : Dev} :
    localAccess e r instr n ea (.tmem k) (.store n v) none false none mask m =
      if goesBehind e r 2 ea k (.store n v) none m then onItsWay e r 2 ea k (.store n v) none false none 0 0 m
      else if m.choose.1 then onItsWay e r 2 ea k (.store n v) none false none 0 0 m.choose.2
      else (Loc.tmem k).write m.choose.2 e.own e.h.lane n v := by
  cases hbehind : goesBehind e r 2 ea k (.store n v) none m with
  | true =>
    unfold goesBehind at hbehind
    simp only [localAccess, hbehind, Bool.not_true, Bool.false_or, if_true]
    rfl
  | false =>
    unfold goesBehind at hbehind
    simp only [localAccess, hbehind, Bool.not_true, Bool.false_or, Bool.false_eq_true, if_false]
    rfl

/-- Whether a store to a bank or a stack goes on its way (R58, R111, R120). -/
def storeWaitsAtBank (e : Env) (r : TRef) (n v ea : Nat) (loc : Loc) (m : Dev) : Bool :=
  apertureOf ea == .rwin && ((decide (8 < n) && !loc.ownSlot r) || goesBehind e r 4 ea (ea % 2 ^ 35) (.store n v) none m)

theorem awayAt_store_bank {e : Env} {r : TRef} {n v ea : Nat} {loc : Loc} {m : Dev} (hloc : loc.outsideShared = true) :
    awayAt e r ea loc (.store n v) none m = if storeWaitsAtBank e r n v ea loc m then some (4, ea % 2 ^ 35) else none := by
  cases loc with
  | scr | tmem => simp [Loc.outsideShared] at hloc
  | bank | stk | miss => rfl

theorem drawn_store_bank {e : Env} {r : TRef} {n v ea : Nat} {loc : Loc} {m : Dev} (hloc : loc.outsideShared = true) :
    drawn e r ea loc (.store n v) none m = m := by
  cases loc with
  | scr | tmem => simp [Loc.outsideShared] at hloc
  | bank | stk | miss => rfl

theorem localAccess_store_bank {e : Env} {r : TRef} {instr n v ea mask : Nat} {loc : Loc} {m : Dev} (hloc : loc.outsideShared = true) :
    localAccess e r instr n ea loc (.store n v) none false none mask m =
      if storeWaitsAtBank e r n v ea loc m then onItsWay e r 4 ea (ea % 2 ^ 35) (.store n v) none false none 0 0 m
      else loc.write m e.own e.h.lane n v := by
  cases loc with
  | scr | tmem => simp [Loc.outsideShared] at hloc
  | bank | stk | miss => rfl

/-- The model's access of a store. -/
theorem localAccess_store {e : Env} {r : TRef} {instr n v ea mask : Nat} {loc : Loc} {m : Dev} :
    localAccess e r instr n ea loc (.store n v) none false none mask m = stored e r n v ea loc m := by
  cases loc with
  | scr k => rfl
  | tmem k =>
    rw [localAccess_store_team]
    simp only [stored, awayAt, drawn]
    cases hbehind : goesBehind e r 2 ea k (.store n v) none m with
    | true => rfl
    | false => cases hlate : m.choose.1 <;> rfl
  | bank | stk | miss =>
    rw [localAccess_store_bank rfl, stored, awayAt_store_bank rfl, drawn_store_bank rfl]
    split <;> rfl

/-- A store that goes on its way writes no byte yet. -/
theorem stored_byteStores {e : Env} {r : TRef} {n v ea : Nat} {loc : Loc} {m : Dev} (haway : awayAt e r ea loc (.store n v) none m ≠ none) :
    (stored e r n v ea loc m).byteStores = m.byteStores := by
  unfold stored
  split
  · exact drawn_byteStores e r ea loc (.store n v) none m
  · next hnone => exact absurd hnone haway

/-! ## The run of one thread -/

theorem exec_st_solo {c : Ctl} {w : MWidth} {d a b : Operand} {s : State} {r : TRef} {e : Env} {t : Team} {g : Group} {loc : Loc}
    (hs : soloOf (.st c w d a b) s = some (r, e, t, g)) (hloc : localAt e (mwBytes w) (e.ea a b) false = some loc) :
    Issues (.st c w d a b) s r (stored e r (mwBytes w) (storeData e w d) (e.ea a b) loc) := by
  have h := solo_of_soloOf hs
  have hi := h.issues
  have hstart := startOf_named (i := .st c w d a b) (d := s.dev) rfl rfl
  rw [hstart] at hi
  unfold Issues Does
  rw [hstart]
  simp only [exec_st, execSt, State.onDev_eq, localRun, longRun, issueAll_one _ _ hi h.clear, hloc, anyLocal, Option.isSome_some, Bool.and_true,
    if_true, Option.elim_none, Option.map_none, Option.getD_none, localAccess_store]
  rfl

theorem exec_hstore_solo {c : Ctl} {d a b : Operand} {s : State} {r : TRef} {e : Env} {t : Team} {g : Group} {loc : Loc}
    (hap : apertureOf (e.ea a b) = .team ∨ apertureOf (e.ea a b) = .die)
    (hs : soloOf (.hstore c d a b) s = some (r, e, t, g)) (hloc : localAt e 8 (e.ea a b) false = some loc) :
    Does (.hstore c d a b) s fun m => past (.hstore c d a b) r (stored e r 8 (e.handle d).toNat (e.ea a b) loc m) := by
  have h := solo_of_soloOf hs
  have hi := h.issues
  have htoken : tokenAperture e (e.ea a b) = true := by simpa [tokenAperture] using hap
  have hstart := startOf_plain (.hstore c d a b) s.dev rfl rfl
  rw [hstart] at hi
  unfold Does
  rw [hstart]
  simp only [exec_hstore, execHstore, State.onDev_eq, eachThread_one _ _ hi h.clear, hloc, htoken, Option.isSome_some, Bool.and_true, if_true,
    Option.elim_none, localAccess_store]
  rfl

/-- Settles O17: both stores make the model's access, which writes its bytes at the location or goes on its way. -/
theorem storesWrite : Obligations.StoresWrite := by
  intro c w d a b s r e t g
  refine ⟨fun hs loc hloc => ?_, fun hap hs loc hloc => ?_⟩
  · have hissues := exec_st_solo hs hloc
    exact ⟨hissues, fun haway => ⟨_, hissues, sameMemory_of_byteStores (by
      simp [stored_byteStores haway, startOf_byteStores (i := .st c w d a b) rfl rfl])⟩⟩
  · have hdoes := exec_hstore_solo hap hs hloc
    exact ⟨hdoes, fun haway => ⟨_, hdoes, sameMemory_of_byteStores (by
      rw [past_byteStores, stored_byteStores haway, startOf_plain (.hstore c d a b) s.dev rfl rfl, Dev.prepare_byteStores])⟩⟩

end Sys2Proof.Machine
end

section
/-! PROOF. Events of the memories (R55, R58, R88, R93, R95, R109 to R112, R116, R222, R265, R331, R388, R420, R426). -/

namespace Sys2Proof.Machine

theorem exec_longResultReturn (id : Nat) (s : State) : exec (.longResultReturn id) s = execLongResultReturn id s := rfl
theorem exec_diePortWrite (id : Nat) (s : State) : exec (.diePortWrite id) s = execDiePortWrite id s := rfl
theorem exec_waitPoll (team tid : Nat) (s : State) : exec (.waitPoll team tid) s = execWaitPoll team tid s := rfl
theorem exec_barSysPoll (team tid : Nat) (s : State) : exec (.barSysPoll team tid) s = execBarSysPoll team tid s := rfl
theorem exec_queuePushArrival (id : Nat) (s : State) : exec (.queuePushArrival id) s = s.onDev (queueOpArrives id true) := rfl
theorem exec_queuePopArrival (id : Nat) (s : State) : exec (.queuePopArrival id) s = s.onDev (queueOpArrives id false) := rfl
theorem exec_homeSliceRequest (id : Nat) (s : State) : exec (.homeSliceRequest id) s = execHomeSliceRequest id s := rfl
theorem exec_requestAck (id : Nat) (s : State) : exec (.requestAck id) s = execRequestAck id s := rfl
theorem exec_deferredFaultArrival (id : Nat) (s : State) : exec (.deferredFaultArrival id) s = execDeferredFaultArrival id s := rfl

/-! ## Results that return (R55) -/

theorem longResultReturn_behind {s : State} {id v : Nat} {r : Result} (hr : s.dev.results.find? (fun x => x.id == id) = some r)
    (hv : r.value = some v) (hb : behindLane s.dev r = true) : Makes (.longResultReturn id) s s.dev := by
  simp only [Makes, exec_longResultReturn, execLongResultReturn, State.onDev_eq, returnResult, hr, hv, hb, if_true]

theorem longResultReturn_delivers {s : State} {id v : Nat} {r : Result} {h : Thread}
    (hr : s.dev.results.find? (fun x => x.id == id) = some r) (hv : r.value = some v) (hb : behindLane s.dev r = false)
    (hh : s.dev.thread? (s.dev.refNow r.who) = some h) (hst : h.st ≠ .exited) :
    Makes (.longResultReturn id) s
      (unholdRrel (dropResult (deliver s.dev (s.dev.refNow r.who) r.dest v r.mask) id) (s.dev.refNow r.who).team (s.dev.refNow r.who).gid) := by
  simp only [Makes, exec_longResultReturn, execLongResultReturn, State.onDev_eq, returnResult, hr, hv, hb, hh, beq_eq_false_iff_ne.mpr hst,
    Bool.false_and, Bool.false_eq_true, if_false]

/-! ## An access performed at its ordering point (R58, R109, R110) -/

/-- The accesses on their way without one that has arrived. -/
def Dev.arrived (d : Dev) (id : Nat) : Dev := { d with scrWrites := d.scrWrites.filter fun x => x.id != id }

/-- An access that acts on system granules: the test of a `wait`. -/
def AccKind.system : AccKind → Bool
  | .test _ _ => true
  | _ => false

theorem rest?_store {a : Access} {n v : Nat} (hk : a.kind = .store n v) : a.rest? =
    if a.unit < n then some { a with kind := .store (n - a.unit) (v / 2 ^ (8 * a.unit)), addr := a.addr + a.unit, key := a.key + a.unit }
    else none := by
  simp only [Access.rest?, hk]

theorem rest?_load {a : Access} {n : Nat} (hk : a.kind = .load n) : a.rest? =
    if a.unit < n then some { a with kind := .load (n - a.unit), addr := a.addr + a.unit, key := a.key + a.unit } else none := by
  simp only [Access.rest?, hk]

theorem rest?_test {a : Access} {cmp v : Nat} (hk : a.kind = .test cmp v) : a.rest? = none := by
  simp only [Access.rest?, hk]

theorem rest?_atom {a : Access} {op : AtomOp} {ty : MType} {v cmp : Nat} (hk : a.kind = .atom op ty v cmp) : a.rest? = none := by
  simp only [Access.rest?, hk]

theorem performDie_whole {d : Dev} {a : Access} (h : a.rest? = none) : performDie d a = performLocal d a := by
  simp only [performDie, h]

theorem performDie_untorn {d : Dev} {a b : Access} (h : a.rest? = some b) (hc : d.choose.1 = false) :
    performDie d a = performLocal d.choose.2 a := by
  simp only [performDie, h, hc, Bool.not_false, if_true]

/-- A store or load that no boundary cuts, or whose free value says so, is performed whole. -/
theorem performDie_untorn_of_unit_lt {d : Dev} {a : Access} {n : Nat} (hk : (∃ v, a.kind = .store n v) ∨ a.kind = .load n)
    (hn : a.unit < n) (hc : d.choose.1 = false) : performDie d a = performLocal d.choose.2 a := by
  rcases hk with ⟨v, hk⟩ | hk
  · exact performDie_untorn ((rest?_store hk).trans (if_pos hn)) hc
  · exact performDie_untorn ((rest?_load hk).trans (if_pos hn)) hc

theorem performDie_of_le_unit {d : Dev} {a : Access} {n : Nat} (hk : (∃ v, a.kind = .store n v) ∨ a.kind = .load n)
    (hn : n ≤ a.unit) : performDie d a = performLocal d a := by
  rcases hk with ⟨v, hk⟩ | hk
  · exact performDie_whole ((rest?_store hk).trans (if_neg (Nat.not_lt.mpr hn)))
  · exact performDie_whole ((rest?_load hk).trans (if_neg (Nat.not_lt.mpr hn)))

theorem unit_scr {a : Access} (hs : a.space = 1) : a.unit = 8 := by
  simp only [Access.unit, hs, Nat.reduceEqDiff, if_false]

theorem arrivalLoc_scr {d : Dev} {a : Access} (hs : a.space = 1) : arrivalLoc d a = .scr a.key := if_pos hs

theorem arrivalLoc_tmem {d : Dev} {a : Access} (hs : a.space = 2) (hp : peerHit d a.ctx (a.key / 2 ^ 19) (a.key % 2 ^ 19) = true) :
    arrivalLoc d a = .tmem a.key := by
  simp only [arrivalLoc, hs, hp, if_true, Nat.reduceEqDiff, if_false]

theorem performLocal_test {d : Dev} {a : Access} {cmp v : Nat} (hk : a.kind = .test cmp v) : performLocal d a = testWord d a cmp v := by
  simp only [performLocal, hk]

theorem performLocal_store_scr {d : Dev} {a : Access} {n v : Nat} (hs : a.space = 1) (hk : a.kind = .store n v) :
    performLocal d a = wakeWords { d with scr := Memory.writeN d.scr a.key n v, poison := unpoison d 1 a.key n } a.key n := by
  simp only [performLocal, hk, arrivalLoc_scr hs, hs, if_true, AccKind.bytes, Loc.write]

theorem performLocal_load_scr {d : Dev} {a : Access} {n r : Nat} (hs : a.space = 1) (hk : a.kind = .load n) (hr : a.result = some r)
    (hp : poisoned d 1 a.key n = false) : performLocal d a = finishLoad d r 8 (Memory.readN d.scr a.key n) := by
  simp only [performLocal, hk, hr, arrivalLoc_scr hs, Loc.poisoned, Loc.read, hp, Access.unit, hs, Bool.false_eq_true, if_false,
    Nat.reduceEqDiff]

theorem performLocal_store_tmem {d : Dev} {a : Access} {n v : Nat} (hs : a.space = 2)
    (hp : peerHit d a.ctx (a.key / 2 ^ 19) (a.key % 2 ^ 19) = true) (hk : a.kind = .store n v) :
    performLocal d a = { d with tmem := Memory.writeN d.tmem a.key n v, poison := unpoison d 2 a.key n } := by
  simp only [performLocal, hk, arrivalLoc_tmem hs hp, hs, Nat.reduceEqDiff, if_false, Loc.write]

theorem performLocal_load_tmem {d : Dev} {a : Access} {n r : Nat} (hs : a.space = 2)
    (hp : peerHit d a.ctx (a.key / 2 ^ 19) (a.key % 2 ^ 19) = true) (hk : a.kind = .load n) (hr : a.result = some r)
    (hpoison : poisoned d 2 a.key n = false) : performLocal d a = finishLoad d r 1 (Memory.readN d.tmem a.key n) := by
  simp only [performLocal, hk, hr, arrivalLoc_tmem hs hp, Loc.poisoned, Loc.read, hpoison, Access.unit, hs, Bool.false_eq_true,
    if_false, if_true]

theorem performLocal_atom_tmem {d : Dev} {a : Access} {op : AtomOp} {ty : MType} {v cmp r : Nat} (hs : a.space = 2)
    (hp : peerHit d a.ctx (a.key / 2 ^ 19) (a.key % 2 ^ 19) = true) (hk : a.kind = .atom op ty v cmp) (hr : a.result = some r)
    (hpoison : poisoned d 2 a.key a.kind.bytes = false) :
    performLocal d a = setResult (if op = .cas ∧ Memory.readN d.tmem a.key (tyBytes ty) ≠ cmp % 2 ^ (8 * tyBytes ty) then d else
      { d with
        tmem := Memory.writeN d.tmem a.key (tyBytes ty) (atomApply op ty (Memory.readN d.tmem a.key (tyBytes ty)) v cmp)
        poison := unpoison d 2 a.key (tyBytes ty) }) r (Memory.readN d.tmem a.key (tyBytes ty)) := by
  rw [hk] at hpoison
  simp only [performLocal, hk, hr, arrivalLoc_tmem hs hp, Loc.poisoned, hpoison, hs, Bool.false_eq_true, if_false, Nat.reduceEqDiff,
    Machine.atomAt, Loc.read, Loc.write, Bool.and_eq_true, decide_eq_true_eq, bne_iff_ne]
  split <;> rfl

/-- An unpoisoned range has unpoisoned first bytes. -/
theorem poisoned_eq_false_of_le {d : Dev} {space k m n : Nat} (hmn : m ≤ n) (h : poisoned d space k n = false) :
    poisoned d space k m = false := by
  have hword : poisonWord space (k + m - 1) ≤ poisonWord space (k + n - 1) := by
    unfold poisonWord
    split <;> exact Nat.div_le_div_right (by omega)
  simp only [poisoned, List.any_eq_false, Bool.and_eq_true, decide_eq_true_eq, not_and] at h ⊢
  exact fun p hp hfirst hlast => h p hp hfirst (hlast.trans hword)

/-- A torn store to die scratchpad: its first 8 bytes now, the rest on its way (R58). -/
theorem performDie_torn_store {d : Dev} {a : Access} {n v : Nat} (hs : a.space = 1) (hk : a.kind = .store n v) (hn : 8 < n)
    (hc : d.choose.1 = true) :
    performDie d a = wakeWords
      { d.choose.2 with
        scrWrites := d.scrWrites ++ [{ a with kind := .store (n - 8) (v / 2 ^ 64), addr := a.addr + 8, key := a.key + 8 }]
        scr := Memory.writeN d.scr a.key 8 (v % 2 ^ 64), poison := unpoison d 1 a.key 8 } a.key 8 := by
  have hu : a.unit = 8 := unit_scr hs
  have hrest := (rest?_store hk).trans (if_pos (hu.trans_lt hn))
  simp only [performDie, hrest, hc, Bool.not_true, Bool.false_eq_true, if_false, hk, hu, hs, Nat.reduceEqDiff]
  exact performLocal_store_scr rfl rfl

/-- A torn load from die scratchpad: its first 8 bytes now, the rest on its way (R58). -/
theorem performDie_torn_load {d : Dev} {a : Access} {n r : Nat} (hs : a.space = 1) (hk : a.kind = .load n) (hr : a.result = some r)
    (hp : poisoned d 1 a.key n = false) (hn : 8 < n) (hc : d.choose.1 = true) :
    performDie d a = addPart
      { d.choose.2 with
        scrWrites := d.scrWrites ++ [{ a with kind := .load (n - 8), addr := a.addr + 8, key := a.key + 8 }] }
      r (Memory.readN d.scr a.key 8) := by
  have hu : a.unit = 8 := unit_scr hs
  have hrest := (rest?_load hk).trans (if_pos (hu.trans_lt hn))
  have hp8 : poisoned { d.choose.2 with
      scrWrites := d.scrWrites ++ [{ a with kind := .load (n - 8), addr := a.addr + 8, key := a.key + 8 }] } 1 a.key 8 = false :=
    poisoned_eq_false_of_le (d := d) hn.le hp
  simp only [performDie, hrest, hc, Bool.not_true, Bool.false_eq_true, if_false, hk, hr, hu, arrivalLoc_scr hs, Loc.poisoned, Loc.read]
  exact if_neg (Bool.eq_false_iff.mp hp8)

/-! ## An access at a die's port (R88, R93, R109, R426) -/

/-- An access on its way that nothing holds back. -/
structure ReachesPoint (d : Dev) (id : Nat) (a : Access) : Prop where
  found : d.scrWrites.find? (fun x => x.id == id) = some a
  first : behindOwn d d.scrWrites a = false
  free : heldBy d a.after = false

/-- An access without a release at a die's port or in team memory: refused by its granule, or performed. -/
theorem diePortWrite_makes {s : State} {id : Nat} {a : Access} (h : ReachesPoint s.dev id a) (hs : a.space ≠ 3) (hrel : a.rel = none) :
    Makes (.diePortWrite id) s (progressIssuer
      (if a.space = 1 && !granuleOk s.dev a.ctx a.kind.system a.key then refuseDie (s.dev.arrived id) a else performDie (s.dev.arrived id) a)
      a.who) := by
  have hport : portWrite s.dev id = progressIssuer
      (if a.space = 1 && !granuleOk s.dev a.ctx a.kind.system a.key then refuseDie (s.dev.arrived id) a else performDie (s.dev.arrived id) a)
      a.who := by
    simp only [portWrite, h.found, h.first, h.free, hrel, Bool.or_self, Bool.not_true, Bool.false_eq_true, if_false]
    rfl
  simp only [Makes, exec_diePortWrite, execDiePortWrite, State.onDev_eq, h.found, hs, if_false, hport]

theorem diePortWrite_granted {s : State} {id : Nat} {a : Access} (h : ReachesPoint s.dev id a) (hs : a.space = 1) (hrel : a.rel = none)
    (hg : granuleOk s.dev a.ctx a.kind.system a.key = true) :
    Makes (.diePortWrite id) s (progressIssuer (performDie (s.dev.arrived id) a) a.who) := by
  have hm := diePortWrite_makes h (by omega) hrel
  rwa [hg, Bool.not_true, Bool.and_false, if_neg Bool.false_ne_true] at hm

theorem diePortWrite_refused {s : State} {id : Nat} {a : Access} (h : ReachesPoint s.dev id a) (hs : a.space = 1) (hrel : a.rel = none)
    (hk : ∀ cmp v, a.kind ≠ .test cmp v) (hg : granuleOk s.dev a.ctx false a.key = false) :
    Makes (.diePortWrite id) s (progressIssuer (refuseAccess (s.dev.arrived id) a 0x04 (ownerEntry s.dev a.key).toNat) a.who) := by
  have hm := diePortWrite_makes h (by omega) hrel
  have hsys : a.kind.system = false := by
    cases hkind : a.kind with
    | test cmp v => exact absurd hkind (hk cmp v)
    | _ => rfl
  rwa [hsys, hg, decide_eq_true hs, Bool.not_false, Bool.and_true, if_pos rfl] at hm

theorem diePortWrite_teamMemory {s : State} {id : Nat} {a : Access} (h : ReachesPoint s.dev id a) (hs : a.space = 2) (hrel : a.rel = none) :
    Makes (.diePortWrite id) s (progressIssuer (performDie (s.dev.arrived id) a) a.who) := by
  have hm := diePortWrite_makes h (by omega) hrel
  rwa [decide_eq_false (show ¬ a.space = 1 by omega), Bool.false_and, if_neg Bool.false_ne_true] at hm

/-! ## What the free value decides (R58, R110, R432) -/

section
variable {s : State} {d : Dev} {id n : Nat} {a : Access}

/-- A store to die scratchpad, by its size and the free value. -/
theorem scratchStore_cases {v : Nat} (hs : a.space = 1) (hk : a.kind = .store n v)
    (hm : Makes (.diePortWrite id) s (progressIssuer (performDie d a) a.who)) :
    (n ≤ 8 → Makes (.diePortWrite id) s (progressIssuer
      (wakeWords { d with scr := Memory.writeN d.scr a.key n v, poison := unpoison d 1 a.key n } a.key n) a.who)) ∧
    (8 < n → d.choose.1 = false → Makes (.diePortWrite id) s (progressIssuer
      (wakeWords { d.choose.2 with scr := Memory.writeN d.scr a.key n v, poison := unpoison d 1 a.key n } a.key n) a.who)) ∧
    (8 < n → d.choose.1 = true → Makes (.diePortWrite id) s (progressIssuer (wakeWords
      { d.choose.2 with
        scrWrites := d.scrWrites ++ [{ a with kind := .store (n - 8) (v / 2 ^ 64), addr := a.addr + 8, key := a.key + 8 }]
        scr := Memory.writeN d.scr a.key 8 (v % 2 ^ 64), poison := unpoison d 1 a.key 8 } a.key 8) a.who)) := by
  have hu : a.unit = 8 := unit_scr hs
  refine ⟨fun hn => ?_, fun hn hc => ?_, fun hn hc => ?_⟩
  · rwa [performDie_of_le_unit (.inl ⟨v, hk⟩) (hn.trans_eq hu.symm), performLocal_store_scr hs hk] at hm
  · rwa [performDie_untorn_of_unit_lt (.inl ⟨v, hk⟩) (hu.trans_lt hn) hc, performLocal_store_scr hs hk] at hm
  · rwa [performDie_torn_store hs hk hn hc] at hm

/-- A load from die scratchpad, by its size and the free value. -/
theorem scratchLoad_cases {r : Nat} (hs : a.space = 1) (hk : a.kind = .load n) (hr : a.result = some r) (hp : poisoned d 1 a.key n = false)
    (hm : Makes (.diePortWrite id) s (progressIssuer (performDie d a) a.who)) :
    (n ≤ 8 → Makes (.diePortWrite id) s (progressIssuer (finishLoad d r 8 (Memory.readN d.scr a.key n)) a.who)) ∧
    (8 < n → d.choose.1 = false →
      Makes (.diePortWrite id) s (progressIssuer (finishLoad d.choose.2 r 8 (Memory.readN d.scr a.key n)) a.who)) ∧
    (8 < n → d.choose.1 = true → Makes (.diePortWrite id) s (progressIssuer (addPart
      { d.choose.2 with
        scrWrites := d.scrWrites ++ [{ a with kind := .load (n - 8), addr := a.addr + 8, key := a.key + 8 }] }
      r (Memory.readN d.scr a.key 8)) a.who)) := by
  have hu : a.unit = 8 := unit_scr hs
  refine ⟨fun hn => ?_, fun hn hc => ?_, fun hn hc => ?_⟩
  · rwa [performDie_of_le_unit (.inr hk) (hn.trans_eq hu.symm), performLocal_load_scr hs hk hr hp] at hm
  · rwa [performDie_untorn_of_unit_lt (.inr hk) (hu.trans_lt hn) hc, performLocal_load_scr (d := d.choose.2) hs hk hr hp] at hm
  · rwa [performDie_torn_load hs hk hr hp hn hc] at hm

/-- A store to team memory that is performed whole. -/
theorem teamStore_cases {v : Nat} (hs : a.space = 2) (hpeer : peerHit d a.ctx (a.key / 2 ^ 19) (a.key % 2 ^ 19) = true)
    (hk : a.kind = .store n v) (hm : Makes (.diePortWrite id) s (progressIssuer (performDie d a) a.who)) :
    (n ≤ 1 → Makes (.diePortWrite id) s (progressIssuer
      { d with tmem := Memory.writeN d.tmem a.key n v, poison := unpoison d 2 a.key n } a.who)) ∧
    (1 < n → d.choose.1 = false → Makes (.diePortWrite id) s (progressIssuer
      { d.choose.2 with tmem := Memory.writeN d.tmem a.key n v, poison := unpoison d 2 a.key n } a.who)) := by
  have hu : a.unit = 1 := if_pos hs
  refine ⟨fun hn => ?_, fun hn hc => ?_⟩
  · rwa [performDie_of_le_unit (.inl ⟨v, hk⟩) (hn.trans_eq hu.symm), performLocal_store_tmem hs hpeer hk] at hm
  · rwa [performDie_untorn_of_unit_lt (.inl ⟨v, hk⟩) (hu.trans_lt hn) hc, performLocal_store_tmem (d := d.choose.2) hs hpeer hk] at hm

/-- A load from team memory that is performed whole. -/
theorem teamLoad_cases {r : Nat} (hs : a.space = 2) (hpeer : peerHit d a.ctx (a.key / 2 ^ 19) (a.key % 2 ^ 19) = true)
    (hk : a.kind = .load n) (hr : a.result = some r) (hp : poisoned d 2 a.key n = false)
    (hm : Makes (.diePortWrite id) s (progressIssuer (performDie d a) a.who)) :
    (n ≤ 1 → Makes (.diePortWrite id) s (progressIssuer (finishLoad d r 1 (Memory.readN d.tmem a.key n)) a.who)) ∧
    (1 < n → d.choose.1 = false →
      Makes (.diePortWrite id) s (progressIssuer (finishLoad d.choose.2 r 1 (Memory.readN d.tmem a.key n)) a.who)) := by
  have hu : a.unit = 1 := if_pos hs
  refine ⟨fun hn => ?_, fun hn hc => ?_⟩
  · rwa [performDie_of_le_unit (.inr hk) (hn.trans_eq hu.symm), performLocal_load_tmem hs hpeer hk hr hp] at hm
  · rwa [performDie_untorn_of_unit_lt (.inr hk) (hu.trans_lt hn) hc, performLocal_load_tmem (d := d.choose.2) hs hpeer hk hr hp] at hm

end

/-! ## An access at a tile (R265) -/

/-- A tile that the context holds and no job has in flight, for an access of a team that is resident. -/
structure TileOpen (d : Dev) (a : Access) : Prop where
  landed : tileInflight d (a.key / 2 ^ 19) (a.key / 2 ^ 16 % 8) = false
  resident : issuerSaved d a.who = false
  held : tileHeld d a.ctx (a.key / 2 ^ 19) (a.key / 2 ^ 16 % 8) = true

theorem ReachesPoint.id_eq {d : Dev} {id : Nat} {a : Access} (h : ReachesPoint d id a) : a.id = id := by
  simpa only [beq_iff_eq] using List.find?_some h.found

theorem TileOpen.held_arrived {d : Dev} {a : Access} (h : TileOpen d a) :
    tileHeld { d with scrWrites := d.scrWrites.filter fun x => x.id != a.id } a.ctx (a.key / 2 ^ 19) (a.key / 2 ^ 16 % 8) = true := h.held

theorem tileArrival_store {d : Dev} {id n v : Nat} {a : Access} (h : ReachesPoint d id a) (ht : TileOpen d a) (hk : a.kind = .store n v) :
    tileArrival d a = progressIssuer
      { d.arrived id with
        tiles := Memory.writeN d.tiles a.key n v, poison := unpoison d 3 a.key n
        tileStat := AMap.set 0 d.tileStat (a.key / 2 ^ 19 * 8 + a.key / 2 ^ 16 % 8) 3 } a.who := by
  rw [← h.id_eq]
  simp only [tileArrival, h.first, h.free, ht.landed, ht.resident, ht.held_arrived, hk, Bool.or_self, Bool.false_eq_true, if_false, if_true]
  rfl

theorem tileArrival_load {d : Dev} {id n r : Nat} {a : Access} (h : ReachesPoint d id a) (ht : TileOpen d a) (hk : a.kind = .load n)
    (hr : a.result = some r) (hp : poisoned d 3 a.key n = false) :
    tileArrival d a = progressIssuer (setResult (d.arrived id) r (Memory.readN d.tiles a.key n)) a.who := by
  have hp' : poisoned { d with scrWrites := d.scrWrites.filter fun x => x.id != a.id } 3 a.key n = false := hp
  rw [← h.id_eq]
  simp only [tileArrival, h.first, h.free, ht.landed, ht.resident, ht.held_arrived, hk, hr, hp', Bool.or_self, Bool.true_and, Bool.false_eq_true,
    if_false, if_true]
  rfl

theorem diePortWrite_tile {s : State} {id : Nat} {a : Access} (h : ReachesPoint s.dev id a) (hs : a.space = 3) :
    Makes (.diePortWrite id) s (tileArrival s.dev a) := by
  simp only [Makes, exec_diePortWrite, execDiePortWrite, State.onDev_eq, h.found, hs, if_true]

/-! ## Polls (R93, R222) -/

theorem waitPoll_wakes {s : State} {team tid : Nat} {v : Watch}
    (hv : s.dev.watch.find? (fun v => !v.held && v.key < 2 ^ 60 && (v.who.isThread ⟨team, 0, tid⟩ || (team == 2 ^ 32 && v.who == .queue tid))) =
      some v) (hw : waitHolds v.cmp (Memory.readN s.dev.scr v.key 8) v.value = true) :
    Makes (.waitPoll team tid) s (({ s.dev with watch := s.dev.watch.filter fun x => x != v } : Dev).wakeIssuer v.who) := by
  simp only [Makes, exec_waitPoll, execWaitPoll, State.onDev_eq, hv, hw, if_true]

/-- A word of this package that is not poison is read at its slice, and its value decides. -/
theorem readSysWord_eq {d : Dev} {v : Watch} (hkey : v.key < 2 ^ 61) (hp : physPoisoned d (v.key - 2 ^ 60) 8 = false) :
    readSysWord d v =
      if v.value ≤ (sliceRead d (v.key - 2 ^ 60) 8).1 then
        ({ (sliceRead d (v.key - 2 ^ 60) 8).2 with
            watch := (sliceRead d (v.key - 2 ^ 60) 8).2.watch.filter fun x => x != v } : Dev).wakeIssuer v.who
      else (sliceRead d (v.key - 2 ^ 60) 8).2 := by
  simp only [readSysWord, hp, Bool.and_false, Bool.false_eq_true, if_false, Nat.not_le.mpr hkey, Prod.map, id, decide_eq_true_eq]

theorem barSysPoll_makes {s : State} {team tid : Nat} {v : Watch}
    (hv : s.dev.watch.find? (fun v => (!v.held || decide (2 ^ 61 ≤ v.key)) && 2 ^ 60 ≤ v.key && v.who.isThread ⟨team, 0, tid⟩) = some v) :
    Makes (.barSysPoll team tid) s (readSysWord s.dev v) := by
  simp only [Makes, exec_barSysPoll, execBarSysPoll, State.onDev_eq, hv]

/-! ## Queue operations (R95, R427) -/

/-- The arrival of a push or a pop, by whether the operation has a value. -/
def queueArrivalOf (o : QueueOp) (id : Nat) : Instr := if o.value.isSome then .queuePushArrival id else .queuePopArrival id

/-- An operation on its way that nothing holds back; a push has released at `.pkg`, which leaves the device `u`. -/
def ReachesQueue (d : Dev) (id : Nat) (o : QueueOp) (u : Dev) : Prop :=
  (d.qops.find? (fun (x : QueueOp) => x.id == id && !x.waiting && x.value.isSome == true) = some o ∧
    tryRelease d o.who (coreOfRef d o.who) 6 o.id = (true, u)) ∨
  (d.qops.find? (fun (x : QueueOp) => x.id == id && !x.waiting && x.value.isSome == false) = some o ∧ u = d)

theorem queueArrivalOf_makes {s : State} {id : Nat} {o : QueueOp} {u : Dev}
    (hheld : heldBy s.dev (((s.dev.thread? (s.dev.refNow o.who)).map (·.acqs)).getD []) = false) (ho : ReachesQueue s.dev id o u) :
    Makes (queueArrivalOf o id) s (queueArrival u o) := by
  rcases ho with ⟨hfind, hrel⟩ | ⟨hfind, rfl⟩
  · have hpush : o.value.isSome = true := by
      have h := List.find?_some hfind
      simp only [Bool.and_eq_true, beq_iff_eq] at h
      exact h.2
    simp only [Makes, queueArrivalOf, hpush, if_true, exec_queuePushArrival, State.onDev_eq, queueOpArrives, hfind, hheld, Bool.false_eq_true,
      if_false, hrel]
  · have hpop : o.value.isSome = false := by
      have h := List.find?_some hfind
      simp only [Bool.and_eq_true, beq_iff_eq] at h
      exact h.2
    simp only [Makes, queueArrivalOf, hpop, Bool.false_eq_true, if_false, exec_queuePopArrival, State.onDev_eq, queueOpArrives, hfind, hheld,
      if_true]

theorem queueArrival_refused {d : Dev} {o : QueueOp}
    (h : (queueDesc d o.die o.number).enabled = false ∨ (queueDesc d o.die o.number).ctx ≠ o.ctx) :
    queueArrival d o = refuseQueue d o 0x04 := by
  have hcond : (!(queueDesc d o.die o.number).enabled || (queueDesc d o.die o.number).ctx != o.ctx) = true := by
    simpa only [Bool.or_eq_true, Bool.not_eq_true', bne_iff_ne] using h
  simp only [queueArrival, hcond, if_true]

theorem queueArrival_served {d : Dev} {o : QueueOp} (hen : (queueDesc d o.die o.number).enabled = true)
    (hctx : (queueDesc d o.die o.number).ctx = o.ctx) (hbad : queueMalformed d o.die (queueDesc d o.die o.number) = false)
    (hpoison : (queueDesc d o.die o.number).poisoned = false) (hp : poisoned d 1 (queueKey o.die o.number) 16 = false) :
    queueArrival d o = settleQueue o.die o.number (((d.qops.filter fun (x : QueueOp) => x.id != o.id) ++ [{ o with waiting := true }]).length + 1)
      { d with qops := (d.qops.filter fun x => x.id != o.id) ++ [{ o with waiting := true }] } := by
  simp only [queueArrival, hen, hctx, hbad, hpoison, hp, bne_self_eq_false, Bool.not_true, Bool.or_self, Bool.false_eq_true, if_false]

/-! ## Requests at their home slices (R117, R331, R420) -/

/-- A request on its way that walks: it has not faulted, nothing comes before it, and its release leaves the device `u`. -/
structure ReachesSlice (d : Dev) (id : Nat) (a : Access) (u : Dev) : Prop where
  found : d.reqs.find? (fun x => x.id == id) = some a
  fresh : a.faulted = false
  ready : reqReady d a = (true, u)

theorem homeSliceRequest_makes {s : State} {id : Nat} {a : Access} {u : Dev} (h : ReachesSlice s.dev id a u) :
    Makes (.homeSliceRequest id) s (progressIssuer (homeRequest s.dev a) a.who) := by
  simp only [Makes, exec_homeSliceRequest, execHomeSliceRequest, State.onDev_eq, h.found]

theorem homeRequest_leaf {d u w : Dev} {id b size : Nat} {a : Access} {e : DWord} (h : ReachesSlice d id a u)
    (hw : translate u a.ctx a.addr a.kind.need = (.leaf e b size, w)) (hlog : behindLog w a = false) :
    homeRequest d a = routeRequest w a e size := by
  simp only [homeRequest, walkRequest, h.fresh, h.ready, hw, hlog, Bool.false_eq_true, if_false]

theorem homeRequest_pageFault {d u w : Dev} {id l r : Nat} {a : Access} {e : DWord} (h : ReachesSlice d id a u)
    (hw : translate u a.ctx a.addr a.kind.need = (.pageFault l r e, w)) : homeRequest d a = faultRequest w a l r e := by
  simp only [homeRequest, walkRequest, h.fresh, h.ready, hw, Bool.false_eq_true, if_false]

theorem homeRequest_bad {d u w : Dev} {id : Nat} {a : Access} (h : ReachesSlice d id a u)
    (hw : translate u a.ctx a.addr a.kind.need = (.bad, w)) (hlog : behindLog w a = false) :
    homeRequest d a = contextError (removeReq w a) (accessRec w a 0x41 2) := by
  simp only [homeRequest, walkRequest, h.fresh, h.ready, hw, hlog, Bool.false_eq_true, if_false]

/-- What an access leaves of the read copies as it goes where its leaf says: one that may write spoils them. -/
def spoiled (d : Dev) (a : Access) : Dev := if a.kind.writes then spoilBuffers d a.ctx a.addr a.kind.bytes else d

/-- A request to a place of this package that stands, tagged and performed at its slice. -/
theorem routeRequest_phys {d : Dev} {a : Access} {e : DWord} {size pa : Nat} (hplace : placementFault a (field e.toNat 53 52) = false)
    (htarget : targetOf e a.addr size = .phys pa) (hframe : frameOk (spoiled d a) pa = true)
    (hlost : tierLost (takeTag (countAccess (removeReq (spoiled d a) a) e pa) (sliceAt pa)).2
      (takeTag (countAccess (removeReq (spoiled d a) a) e pa) (sliceAt pa)).2.isLost pa = false) :
    routeRequest d a e size = performPhys (takeTag (countAccess (removeReq (spoiled d a) a) e pa) (sliceAt pa)).2 a pa
      (field e.toNat 8 7 == 1) (sliceAt pa) (takeTag (countAccess (removeReq (spoiled d a) a) e pa) (sliceAt pa)).1 := by
  unfold spoiled at hframe hlost ⊢
  simp only [routeRequest, hplace, htarget, hframe, hlost, Bool.not_true, Bool.false_and, Bool.false_eq_true, if_false]

/-! ## Acknowledgements and deferred faults (R116, R388) -/

theorem requestAck_makes {s : State} {id : Nat} {a : Ack} (ha : s.dev.acks.find? (fun x => x.id == id) = some a) :
    Makes (.requestAck id) s (progressIssuer { s.dev with acks := s.dev.acks.filter fun x => x.id != id } a.who) := by
  simp only [Makes, exec_requestAck, execRequestAck, State.onDev_eq, ha]

/-- A thread parked at the access that a fault ends stands ready at it. -/
def unparked (x : LateFault) (h : Thread) : Thread :=
  match h.st with
  | .parked (.word _ _) | .parked .queue => if x.parks then { h with st := .ready } else h
  | _ => h

/-- The device without a deferred fault that has reached its thread. -/
def Dev.delivered (d : Dev) (id : Nat) : Dev := { d with late := d.late.filter fun y => y.id != id }

theorem deferredFaultArrival_makes {s : State} {id core : Nat} {x : LateFault} {r : TRef}
    (hx : s.dev.late.find? (fun y => y.id == id) = some x) (hw : x.who = .thread r core) :
    Makes (.deferredFaultArrival id) s (progress (giveDeferred
      ((refusedResult (s.dev.delivered id) ((s.dev.delivered id).refNow r) x.result).mapThread ((s.dev.delivered id).refNow r) (unparked x))
      ((s.dev.delivered id).refNow r) x.fault) ((s.dev.delivered id).refNow r)) := by
  simp only [Makes, exec_deferredFaultArrival, execDeferredFaultArrival, State.onDev_eq, hx, hw]
  rfl

/-- Settles O40, event by event. -/
theorem memoryEvents : Obligations.MemoryEvents := by
  intro s id team tid
  refine ⟨fun r v h hr hv => ⟨longResultReturn_behind hr hv, longResultReturn_delivers hr hv⟩, fun a hfound hfirst hfree => ?_,
    fun v => waitPoll_wakes, fun v hv hkey hp => ?_, fun o u hheld ho => ⟨fun hen hctx hbad hpoison hp => ?_, fun href => ?_⟩,
    fun a u w hfound hfault hready => ?_, fun a => requestAck_makes, fun x r core => deferredFaultArrival_makes⟩
  · have h : ReachesPoint s.dev id a := ⟨hfound, hfirst, hfree⟩
    refine ⟨fun hs hrel => ⟨fun n v hk hg => scratchStore_cases hs hk (diePortWrite_granted h hs hrel (by rwa [hk])),
        fun n r hk hr hg hp => scratchLoad_cases hs hk hr hp (diePortWrite_granted h hs hrel (by rwa [hk])),
        fun cmp v hk hg => ?_, diePortWrite_refused h hs hrel⟩,
      fun hs hrel hpeer => ⟨fun n v hk => teamStore_cases hs hpeer hk (diePortWrite_teamMemory h hs hrel),
        fun n r hk hr hp => teamLoad_cases hs hpeer hk hr hp (diePortWrite_teamMemory h hs hrel), fun op ty v cmp r hk hr hp => ?_⟩,
      fun hs hfly hsaved hheld => ⟨fun n v hk => ?_, fun n r hk hr hp => ?_⟩⟩
    · have hm := diePortWrite_granted h hs hrel (by rwa [hk])
      rwa [performDie_whole (rest?_test hk), performLocal_test hk] at hm
    · have hm := diePortWrite_teamMemory h hs hrel
      rwa [performDie_whole (rest?_atom hk), performLocal_atom_tmem (d := s.dev.arrived id) hs hpeer hk hr hp] at hm
    · have hm := diePortWrite_tile h hs
      rwa [tileArrival_store h ⟨hfly, hsaved, hheld⟩ hk] at hm
    · have hm := diePortWrite_tile h hs
      rwa [tileArrival_load h ⟨hfly, hsaved, hheld⟩ hk hr hp] at hm
  · have hm := barSysPoll_makes hv
    rw [readSysWord_eq hkey hp] at hm
    exact ⟨fun hle => by rwa [if_pos hle] at hm, fun hlt => by rwa [if_neg (Nat.not_le.mpr hlt)] at hm⟩
  · have hm := queueArrivalOf_makes hheld ho
    rwa [queueArrival_served hen hctx hbad hpoison hp] at hm
  · have hm := queueArrivalOf_makes hheld ho
    rwa [queueArrival_refused href] at hm
  · have h : ReachesSlice s.dev id a u := ⟨hfound, hfault, hready⟩
    have hm := homeSliceRequest_makes h
    refine ⟨fun e b size pa hw hlog hplace htarget hframe hlost => ?_, fun l r e hw => ?_, fun hw hlog => ?_⟩
    · rwa [homeRequest_leaf h hw hlog, routeRequest_phys hplace htarget hframe hlost] at hm
    · rwa [homeRequest_pageFault h hw] at hm
    · rwa [homeRequest_bad h hw hlog] at hm

end Sys2Proof.Machine
end

section
/-! SUPPORT. Operands and results of the number formats as numbers and bit vectors (R62, R71, R168, R173). -/

namespace Sys2Proof.Machine

/-! ## Scalar operands (R136, R166) -/

theorem signMods_lt (neg abs : Bool) {n v : Nat} (hn : 0 < n) (hv : v < 2 ^ n) : signMods neg abs n v < 2 ^ n := by
  have hhalf : 2 ^ (n - 1) < 2 ^ n := Nat.pow_lt_pow_right (by omega) (by omega)
  have habs : (if abs then v % 2 ^ (n - 1) else v) < 2 ^ n := by
    split
    · exact (Nat.mod_lt _ (by positivity)).trans hhalf
    · exact hv
  unfold signMods
  dsimp only
  split
  · exact Nat.xor_lt_two_pow habs hhalf
  · exact habs

/-- A scalar source fits its width. -/
theorem Env.scalar_lt (e : Env) {n : Nat} (hn : 0 < n) (t : Roles.ImmTy) (o : Operand) : e.scalar n t o < 2 ^ n := by
  have hmod (v : Nat) : v % 2 ^ n < 2 ^ n := Nat.mod_lt _ (by positivity)
  unfold Env.scalar
  dsimp only
  split
  case h_1 | h_2 | h_3 => exact signMods_lt _ _ hn (hmod _)
  case h_4 | h_5 | h_6 | h_7 => exact hmod _
  case h_8 => positivity

theorem Env.bv_toNat (e : Env) {n : Nat} (hn : 0 < n) (o : Operand) : (e.bv n o).toNat = e.scalar n .int o := by
  rw [Env.bv, BitVec.toNat_ofNat, Nat.mod_eq_of_lt (e.scalar_lt hn .int o)]

/-! ## Integer results (R171, R173) -/

theorem intOut_wrapInt (n : Nat) (x : Int) : intOut n (wrapInt x n) = bvOut (BitVec.ofInt n x) := by
  rw [intOut_eq_bvOut, ofNat_wrapInt, BitVec.setWidth_eq]

theorem ofInt_satInt_signed (n : Nat) (x : Int) : BitVec.ofInt n (satInt .signed n x) = clampSigned n x := by
  simp [satInt, clampSigned]

/-! ## Integer elements (R139, R173, R178) -/

theorem elem_lt (w v k : Nat) : elem w v k < 2 ^ w := Nat.mod_lt _ (by positivity)

theorem intLt_eq_bv (signed : Bool) (n a b : Nat) :
    intLt signed n a b = if signed then (BitVec.ofNat n a).slt (BitVec.ofNat n b) else (BitVec.ofNat n a).ult (BitVec.ofNat n b) := by
  unfold intLt
  cases signed <;> simp [BitVec.slt, BitVec.ult, sext_eq_toInt]

theorem intLt_elem (sh : Shape) {x y : Nat} (hx : x < 2 ^ shapeBits sh) (hy : y < 2 ^ shapeBits sh) :
    intLt (shapeSigned sh) (shapeBits sh) x y = decide (elemInt sh x < elemInt sh y) := by
  unfold intLt elemInt
  split <;> simp [Nat.mod_eq_of_lt hx, Nat.mod_eq_of_lt hy]

/-- Elements of one value are one pattern. -/
theorem elemInt_inj (sh : Shape) {x y : Nat} (hx : x < 2 ^ shapeBits sh) (hy : y < 2 ^ shapeBits sh) (h : elemInt sh x = elemInt sh y) :
    x = y := by
  unfold elemInt at h
  split at h
  · rw [sext_eq_toInt, sext_eq_toInt, BitVec.toInt_inj] at h
    have hn := congrArg BitVec.toNat h
    rwa [BitVec.toNat_ofNat, BitVec.toNat_ofNat, Nat.mod_eq_of_lt hx, Nat.mod_eq_of_lt hy] at hn
  · exact_mod_cast h

theorem not_slt_iff {n : Nat} (a b : BitVec n) : (!b.slt a) = (a.slt b || a == b) := by
  rw [Bool.eq_iff_iff]
  simp [BitVec.slt, ← BitVec.toInt_inj, Int.le_iff_lt_or_eq]

theorem not_ult_iff {n : Nat} (a b : BitVec n) : (!b.ult a) = (a.ult b || a == b) := by
  rw [Bool.eq_iff_iff]
  simp [BitVec.ult, ← BitVec.toNat_inj, Nat.le_iff_lt_or_eq]

/-- An integer condition as one on bit vectors. -/
theorem condInt_eq_condBv (c : Cond) (signed : Bool) (n a b : Nat) :
    condInt c signed n a b = condBv c signed (BitVec.ofNat n a) (BitVec.ofNat n b) := by
  have heq : (a % 2 ^ n == b % 2 ^ n) = (BitVec.ofNat n a == BitVec.ofNat n b) := by
    rw [Bool.eq_iff_iff]
    simp [← BitVec.toNat_inj]
  have hle (a b : Nat) : (!intLt signed n b a) = (intLt signed n a b || BitVec.ofNat n a == BitVec.ofNat n b) := by
    rw [intLt_eq_bv, intLt_eq_bv]
    cases signed
    · exact not_ult_iff _ _
    · exact not_slt_iff _ _
  have hge : (BitVec.ofNat n b == BitVec.ofNat n a) = (BitVec.ofNat n a == BitVec.ofNat n b) := BEq.comm
  cases c with
  | eq => exact heq
  | ne => exact congrArg not heq
  | lt => exact intLt_eq_bv signed n a b
  | le => exact (hle a b).trans (by rw [intLt_eq_bv]; rfl)
  | gt => exact intLt_eq_bv signed n b a
  | ge => exact (hle b a).trans (by rw [intLt_eq_bv, hge]; rfl)
  | unord => rfl
  | ord => rfl

/-- Element `k` of a packet source. -/
abbrev srcElem (e : Env) (sh : Shape) (o : Operand) (k : Nat) : Nat := elem (shapeBits sh) (srcP e sh o) k

theorem srcElem_lt (e : Env) (sh : Shape) (o : Operand) (k : Nat) : srcElem e sh o k < 2 ^ shapeBits sh := elem_lt _ _ _

/-! ## Results in a destination register (R168) -/

/-- An instruction of fixed latency whose operand D is a destination completes with its result. -/
theorem computes_of_result {i : Instr} {f g : Env → Out} (hx : ∀ s, exec i s = s.onDev (aluRun i g)) (hfg : ∀ e, g e = f e)
    (hscale : ∀ e, (f e).scale = none := by exact fun _ => rfl) (hD : isDestRole (Roles.rolesOf i).1 = true := by rfl) : Computes i f :=
  computes_of_aluRun hx hfg hscale fun _ _ _ _ => hD

/-! ## Packet results (R168, R178) -/

/-- A packet result depends on its function at the listed elements and their places alone. -/
theorem packetOut_congr {w : Nat} {els : List Nat} {draws : Nat} {f g : Nat → Nat → Nat}
    (h : ∀ j, (hj : j < els.length) → f els[j] j = g els[j] j) : packetOut w els draws f = packetOut w els draws g := by
  have hmap : ((els.zip (List.range els.length)).map fun p => (p.1, f p.1 p.2)) =
      (els.zip (List.range els.length)).map fun p => (p.1, g p.1 p.2) := by
    refine List.map_congr_left fun p hp => ?_
    obtain ⟨j, hj, rfl⟩ := List.mem_iff_getElem.mp hp
    have hlen : j < els.length := by simpa using hj
    simp only [List.getElem_zip, List.getElem_range, h j hlen]
  simp only [packetOut, hmap]

theorem packElems_lt (w : Nat) (l : List Nat) : packElems w l < 2 ^ (w * l.length) := by
  induction l with
  | nil => simp [packElems]
  | cons v r ih =>
    have hv : v % 2 ^ w < 2 ^ w := Nat.mod_lt _ (by positivity)
    calc packElems w (v :: r)
      _ < 2 ^ w * (packElems w r + 1) := by rw [packElems, Nat.mul_succ]; omega
      _ ≤ 2 ^ w * 2 ^ (w * r.length) := Nat.mul_le_mul_left _ ih
      _ = 2 ^ (w * (v :: r).length) := by rw [List.length_cons, Nat.mul_succ, Nat.add_comm, Nat.pow_add]

/-- Consecutive elements laid in a packet: packed from the first one's place up. -/
theorem scatter_range' (w : Nat) (f : Nat → Nat) (n : Nat) : ∀ s,
    scatter w ((List.range' s n).map fun k => (k, f k)) =
      (2 ^ (w * s) * packElems w ((List.range' s n).map f), 2 ^ (w * s) * (2 ^ (w * n) - 1)) := by
  induction n with
  | zero => intro s; simp [scatter, packElems]
  | succ n ih =>
    intro s
    have hs : 2 ^ (w * (s + 1)) = 2 ^ (w * s) * 2 ^ w := by rw [Nat.mul_succ, Nat.pow_add]
    have hn : 2 ^ (w * (n + 1)) = 2 ^ (w * n) * 2 ^ w := by rw [Nat.mul_succ, Nat.pow_add]
    simp only [List.range'_succ, List.map_cons, scatter, ih, packElems, hs, hn, Prod.mk.injEq]
    refine ⟨by ring, ?_⟩
    have h1 : 1 ≤ 2 ^ w := Nat.one_le_two_pow
    have h2 : 1 ≤ 2 ^ (w * n) := Nat.one_le_two_pow
    obtain ⟨p, hp⟩ := Nat.exists_eq_add_of_le h1
    obtain ⟨q, hq⟩ := Nat.exists_eq_add_of_le h2
    rw [hp, hq, show (1 + q) * (1 + p) - 1 = q + p + q * p by ring_nf; omega, Nat.add_sub_cancel_left, Nat.add_sub_cancel_left]
    ring

/-- All elements laid in a packet are the packet of them. -/
theorem packetOut_range (w n draws : Nat) (f : Nat → Nat) :
    packetOut w (List.range n) draws (fun k _ => f k) = { val := packElems w ((List.range n).map f), mask := 2 ^ (w * n) - 1, draws := draws } := by
  have hzip : (((List.range n).zip (List.range (List.range n).length)).map fun p => (p.1, f p.1)) =
      (List.range n).map fun k => (k, f k) := List.ext_getElem (by simp) (by simp)
  have hscatter := scatter_range' w f n 0
  rw [← List.range_eq_range', Nat.mul_zero, Nat.pow_zero, Nat.one_mul, Nat.one_mul] at hscatter
  simp only [packetOut, hzip, hscatter]

/-- A whole packet, all of its elements written. -/
theorem wholePacket_genPacket {w : Nat} (hw : w * elemCount w = 256) (f : Nat → Nat) (draws : Nat) :
    { wholePacket (genPacket w f) with draws := draws } = packetOut w (List.range (elemCount w)) draws fun k _ => f k := by
  have hlt := packElems_lt w ((List.range (elemCount w)).map f)
  rw [List.length_map, List.length_range, hw] at hlt
  simp only [packetOut_range, hw, wholePacket, genPacket, Nat.mod_eq_of_lt hlt]

/-! ## FP32 patterns (R60, R67) -/

theorem Fmt.pattern_lt {f : Fmt} {code : Nat} (h : code < 2 ^ (f.ebits + f.fbits)) (neg : Bool) : f.pattern neg code < 2 ^ f.bits := by
  have hb : b2n neg ≤ 1 := by cases neg <;> decide
  calc f.pattern neg code
    _ < (b2n neg + 1) * 2 ^ (f.ebits + f.fbits) := by rw [Fmt.pattern, Nat.succ_mul]; omega
    _ ≤ 2 * 2 ^ (f.ebits + f.fbits) := Nat.mul_le_mul_right _ (by omega)
    _ = 2 ^ f.bits := by rw [Fmt.bits, Nat.add_assoc, Nat.pow_add 2 1, Nat.pow_one]

/-- A rounded FP32 result is a 32-bit pattern. -/
theorem fpResult_f32_lt (m : FpMod) (w : Word) (x : Val) : fpResult .f32 m w x < 2 ^ 32 := by
  have hpat {code : Nat} (h : code < 2 ^ 31) (neg : Bool) : Fmt.f32.pattern neg code < 2 ^ 32 := Fmt.pattern_lt h neg
  have hmax : Fmt.f32.maxCode + 1 < 2 ^ 31 := by decide
  have hinf (sat neg : Bool) : encodeInf .f32 sat neg < 2 ^ 32 := by
    cases sat
    · exact hpat hmax neg
    · exact hpat (by omega) neg
  cases x with
  | nan => exact show Fmt.f32.nan < 2 ^ 32 by decide
  | inf s => exact hinf m.sat s
  | fin s n d =>
    unfold fpResult
    dsimp only
    split
    · split
      · exact hpat (by omega) s
      · exact hinf m.sat s
    · split
      · exact hpat (by decide) s
      · exact hpat (by omega) s

end Sys2Proof.Machine
end

section
/-! PROOF. Element-wise instructions on packets (R178, R179). -/

namespace Sys2Proof.Machine

section
variable {c : Ctl} {sh : Shape} {lam : Bool} {m : FpMod} {d a b : Operand} {g : Fmt}

/-! ## add, sub, mul and fma (R66 to R68, R178) -/

theorem elementwise_fp (hg : shapeFmt sh = some g) (fp : Val → Val → Val → Val) (int : Int → Int → Int) (e : Env) :
    elementwise e sh lam m d a b fp int = packetOut (shapeBits sh) (liveElems e sh lam) ((liveElems e sh lam).length * draws m) fun k j =>
      fpResult g m (e.word m j) (fp (readFp g m.ftzi (elem (shapeBits sh) (e.oldPacket d) k)) (readFp g m.ftzi (srcElem e sh a k))
        (readFp g m.ftzi (srcElem e sh b k))) := by
  simp only [elementwise, hg]

theorem elementwise_int (hg : shapeFmt sh = none) (fp : Val → Val → Val → Val) (int : Int → Int → Int) (e : Env) :
    elementwise e sh lam m d a b fp int = packetOut (shapeBits sh) (liveElems e sh lam) 0 fun k _ =>
      let x := int (elemInt sh (srcElem e sh a k)) (elemInt sh (srcElem e sh b k))
      wrapInt (if m.sat then clampElem sh x else x) (shapeBits sh) := by
  simp only [elementwise, hg]

/-! ## min and max (R71, R178) -/

theorem chooseElems_fp (hg : shapeFmt sh = some g) (greater : Bool) (e : Env) :
    chooseElems e sh lam m greater a b = packetOut (shapeBits sh) (liveElems e sh lam) 0 fun k _ =>
      let flush (v : Nat) : Nat := if m.ftzi then flushPattern g v else v
      if greater then maxNum g (flush (srcElem e sh a k)) (flush (srcElem e sh b k))
      else minNum g (flush (srcElem e sh a k)) (flush (srcElem e sh b k)) := by
  simp only [chooseElems, hg]

/-- Of two integer elements the smaller one: which of them, where they are equal, makes no difference. -/
theorem chooseElems_min (hg : shapeFmt sh = none) (e : Env) :
    chooseElems e sh lam m false a b = packetOut (shapeBits sh) (liveElems e sh lam) 0 fun k _ =>
      if elemInt sh (srcElem e sh b k) < elemInt sh (srcElem e sh a k) then srcElem e sh b k else srcElem e sh a k := by
  have hpick {x y : Nat} (hx : x < 2 ^ shapeBits sh) (hy : y < 2 ^ shapeBits sh) :
      (if (intLt (shapeSigned sh) (shapeBits sh) x y == false) = true then y else x) = if elemInt sh y < elemInt sh x then y else x := by
    rw [intLt_elem sh hx hy]
    rcases lt_trichotomy (elemInt sh x) (elemInt sh y) with h | h | h
    · simp [h, h.le]
    · simp [elemInt_inj sh hx hy h]
    · simp [h, h.le]
  simp only [chooseElems, hg, hpick (srcElem_lt e sh a _) (srcElem_lt e sh b _)]

theorem chooseElems_max (hg : shapeFmt sh = none) (e : Env) :
    chooseElems e sh lam m true a b = packetOut (shapeBits sh) (liveElems e sh lam) 0 fun k _ =>
      if elemInt sh (srcElem e sh a k) < elemInt sh (srcElem e sh b k) then srcElem e sh b k else srcElem e sh a k := by
  simp only [chooseElems, hg, intLt_elem sh (srcElem_lt e sh a _) (srcElem_lt e sh b _), beq_true, decide_eq_true_eq]

/-! ## cmp (R139, R179) -/

theorem cmpPkt_fp (hg : shapeFmt sh = some g) (ftzi : Bool) (cond : Cond) :
    Computes (.cmpPkt c sh ftzi cond d a b) fun e => bvOut (BitVec.ofNat 32 (bitsOf (fun k => decide (k < Roles.shapeCount sh) &&
      condFp cond (readFp g ftzi (srcElem e sh a k)) (readFp g ftzi (srcElem e sh b k))) 32)) :=
  computes_of_result (fun _ => rfl) fun e => by simp only [hg, intOut_eq_bvOut]

theorem cmpPkt_int (hg : shapeFmt sh = none) (ftzi : Bool) (cond : Cond) :
    Computes (.cmpPkt c sh ftzi cond d a b) fun e => bvOut (BitVec.ofNat 32 (bitsOf (fun k => decide (k < Roles.shapeCount sh) &&
      condBv cond (shapeSigned sh) (BitVec.ofNat (shapeBits sh) (srcElem e sh a k)) (BitVec.ofNat (shapeBits sh) (srcElem e sh b k))) 32)) :=
  computes_of_result (fun _ => rfl) fun e => by simp only [hg, intOut_eq_bvOut, condInt_eq_condBv]

end

/-- Settles O4, instruction by instruction, for shapes of floating-point elements and of integers. -/
theorem packetArithmetic : Obligations.PacketArithmetic := by
  refine ⟨fun c sh lam m d a b => ⟨fun g hg => ?_, fun hg => ?_⟩, fun c sh lam m d a b => ⟨fun g hg => ?_, fun hg => ?_⟩⟩
  · refine ⟨?_, ?_, ?_, ?_, ?_⟩
    all_goals exact computes_of_result (fun _ => rfl) (elementwise_fp hg _ _)
  · refine ⟨?_, ?_, ?_⟩
    all_goals exact computes_of_result (fun _ => rfl) (elementwise_int hg _ _)
  · exact ⟨computes_of_result (fun _ => rfl) (chooseElems_fp hg false), computes_of_result (fun _ => rfl) (chooseElems_fp hg true), cmpPkt_fp hg⟩
  · exact ⟨computes_of_result (fun _ => rfl) (chooseElems_min hg), computes_of_result (fun _ => rfl) (chooseElems_max hg), cmpPkt_int hg⟩

end Sys2Proof.Machine
end

section
/-! PROOF. Dot products and horizontal reductions (R72, R180 to R182). -/

namespace Sys2Proof.Machine

section
variable {sh : Shape} {lam : Bool} {m : FpMod} {d a b : Operand}

/-- `dot` of floating-point elements: D and every product added exactly, one rounding (R180). -/
theorem dotOut_fp {g : Fmt} (hg : shapeFmt sh = some g) (e : Env) : dotOut e sh lam m d a b =
    { val := fpResult .f32 m (e.word m 0) ((liveElems e sh lam).foldl
        (fun x k => x.add (isRdn m) ((readFp g m.ftzi (srcElem e sh a k)).mul (readFp g m.ftzi (srcElem e sh b k))))
        (readFp .f32 m.ftzi (e.scalar 32 .int d)))
      mask := 2 ^ 32 - 1, draws := draws m } := by
  simp only [dotOut, hg, Val.sum, List.foldl_map, Env.oldScalar]

/-- A sum of a shape's integers brought into 32 bits (R173, R180). -/
theorem clampSum_eq (sh : Shape) (sat : Bool) (x : Int) :
    intOut 32 (wrapInt (if sat then satInt (if shapeSigned sh then .signed else .unsigned) 32 x else x) 32) =
      bvOut (if sat then (if shapeSigned sh then clampSigned 32 x else BitVec.ofInt 32 (max 0 (min x (2 ^ 32 - 1)))) else BitVec.ofInt 32 x) := by
  rw [intOut_wrapInt]
  cases sat
  · rfl
  · cases shapeSigned sh
    · rfl
    · exact congrArg bvOut (ofInt_satInt_signed 32 x)

/-- `dot` of integer elements: the exact sum modulo 2^32, or clamped (R180). -/
theorem dotOut_int (hg : shapeFmt sh = none) (e : Env) : dotOut e sh lam m d a b =
    let d0 : Int := if shapeSigned sh then (e.bv 32 d).toInt else (e.bv 32 d).toNat
    let x := (liveElems e sh lam).foldl (fun x k => x + elemInt sh (srcElem e sh a k) * elemInt sh (srcElem e sh b k)) d0
    bvOut (if m.sat then (if shapeSigned sh then clampSigned 32 x else BitVec.ofInt 32 (max 0 (min x (2 ^ 32 - 1)))) else BitVec.ofInt 32 x) := by
  simp only [dotOut, hg, clampSum_eq, List.foldl_map, Env.oldScalar, sext_eq_toInt, Env.bv_toNat e (show 0 < 32 by decide)]
  rfl

end

/-- Settles O5, instruction by instruction; `omse` leaves D as it is where the model names no new pair (R182). -/
theorem packetReductions : Obligations.PacketReductions := by
  intro c sh lam m d a b
  refine ⟨fun g hg => computes_of_result (fun _ => rfl) (dotOut_fp hg), fun hg => computes_of_result (fun _ => rfl) (dotOut_int hg),
    computes_of_result (fun _ => rfl) fun _ => rfl, computes_of_result (fun _ => rfl) fun _ => intOut_eq_bvOut 32 _,
    computes_of_result (fun _ => rfl) (fun e => ?_) fun e => ?_⟩
  · rw [Env.bv_toNat e (show 0 < 64 by decide)]
    cases h : omsePair e.compat (e.scalar 64 .int d % 2 ^ 32) (e.scalar 64 .int d / 2 ^ 32) (treeLeaves e .f32x8 lam false a) with
    | none => simp only [Env.oldScalar, h, noOut]
    | some p => simp only [Env.oldScalar, h, intOut_eq_bvOut]
  · cases omsePair e.compat ((e.bv 64 d).toNat % 2 ^ 32) ((e.bv 64 d).toNat / 2 ^ 32) (treeLeaves e .f32x8 lam false a) <;> rfl

end Sys2Proof.Machine
end

section
/-! PROOF. Spectral instructions and the Philox stream (R70, R186 to R189). -/

namespace Sys2Proof.Machine

/-- The table's start and step in operand B of `spec.lerp` (R186). -/
theorem field_19_0 (v : Nat) : field v 19 0 = v % 2 ^ 20 := rfl

theorem field_31_20 (v : Nat) : field v 31 20 = v / 2 ^ 20 % 2 ^ 12 := by
  rw [field, Nat.shiftRight_eq_div_pow]

/-- A Philox word as a 32-bit result (R189). -/
theorem intOut_word (w : Word) : intOut 32 w.toNat = { val := w.toNat, mask := 2 ^ 32 - 1 } := by
  rw [intOut, Nat.mod_eq_of_lt w.isLt]

/-- A Philox word's upper 24 bits as a fraction, an FP32 pattern (R189). -/
theorem intOut_rne32 (x : Val) : intOut 32 (rne32 x) = { val := rne32 x, mask := 2 ^ 32 - 1 } := by
  rw [intOut, Nat.mod_eq_of_lt (show rne32 x < 2 ^ 32 from fpResult_f32_lt rneMod 0 x)]

/-- Settles O7, instruction by instruction and shape by shape. -/
theorem spectraAndRandom : Obligations.SpectraAndRandom := by
  intro c m d a b
  refine ⟨computes_of_result (fun _ => rfl) fun e => by simp only [field_19_0, field_31_20]; rfl,
    fun _ => computes_of_result (fun _ => rfl) fun _ => rfl, fun _ => computes_of_result (fun _ => rfl) fun _ => rfl, ?_, ?_, ?_, ?_⟩
  · exact computes_of_result (fun _ => rfl) fun e => congrArg (fun o : Out => { o with draws := 1 }) (intOut_word (e.philox 0))
  · exact computes_of_result (fun _ => rfl) fun e => congrArg (fun o : Out => { o with draws := 1 }) (intOut_rne32 _)
  · exact computes_of_result (fun _ => rfl) fun e => wholePacket_genPacket (w := 32) rfl _ 8
  · exact computes_of_result (fun _ => rfl) fun e => wholePacket_genPacket (w := 32) rfl _ 8

end Sys2Proof.Machine
end

section
/-! PROOF. Special functions (R77 to R80, R190). -/

namespace Sys2Proof.Machine

theorem isDestRole_sfuD (v : SfuShape) : isDestRole (Roles.sfuD v) = true := by cases v <;> rfl

/-- An instruction that gives function `fn`'s result in each shape: one value rounded once, or the element values of a packet (R190). -/
theorem sfu_computes {m : FpMod} {a : Operand} (i : SfuShape → Instr) (fn : SfuFn)
    (hx : ∀ v s, exec (i v) s = s.onDev (aluRun (i v) fun e => sfuOut e fn v m a) := by exact fun _ _ => rfl)
    (hD : ∀ v, isDestRole (Roles.rolesOf (i v)).1 = true := by exact isDestRole_sfuD) :
    let pkt (g : Fmt) (t : Roles.ImmTy) (e : Env) : Out :=
      packetOut g.bits (List.range (256 / g.bits)) (256 / g.bits * draws m) fun k j => sfuElem e fn g m (elem g.bits (e.packet g.bits t a) k) j
    Computes (i .f32) (fun e => { val := sfuElem e fn .f32 m (e.scalar 32 .f32 a) 0 % 2 ^ 32, mask := 2 ^ 32 - 1, draws := draws m }) ∧
      Computes (i .f32x8) (pkt .f32 .f32) ∧ Computes (i .f16x16) (pkt .f16 .f16) ∧ Computes (i .bf16x16) (pkt .bf16 .bf16) := by
  refine ⟨?_, ?_, ?_, ?_⟩
  all_goals exact computes_of_result (hx _) (fun _ => rfl) (fun _ => rfl) (hD _)

/-- Settles O8, function by function. -/
theorem specialFunctions : Obligations.SpecialFunctions := by
  intro c m d a b
  exact ⟨sfu_computes (fun v => .sfuRcp c v m d a b) .rcp, sfu_computes (fun v => .sfuRsqrt c v m d a b) .rsqrt,
    sfu_computes (fun v => .sfuSqrt c v m d a b) .sqrt, sfu_computes (fun v => .sfuExp2 c v m d a b) .exp2,
    sfu_computes (fun v => .sfuLog2 c v m d a b) .log2, sfu_computes (fun v => .sfuSin c v m d a b) .sin,
    sfu_computes (fun v => .sfuCos c v m d a b) .cos, sfu_computes (fun v => .sfuTanh c v m d a b) .tanh,
    sfu_computes (fun v => .sfuSigm c v m d a b) .sigm, sfu_computes (fun v => .sfuErf c v m d a b) .erf,
    sfu_computes (fun v => .sfuGelu c v m d a b) .gelu, sfu_computes (fun v => .sfuSilu c v m d a b) .silu⟩

end Sys2Proof.Machine
end

section
/-! PROOF. Block quantisers and conversions (R62 to R65, R191 to R193). -/

namespace Sys2Proof.Machine

theorem draws_eq_if (n : Nat) (m : FpMod) : n * draws m = if m.rnd = .sr then n else 0 := by
  unfold draws
  split <;> simp

/-- A quantiser completes with its block's elements in D and its scale in B. -/
theorem mxq_computes {m : FpMod} {a : Operand} {i : Instr} {f : MxFmt} {lo : Nat}
    (hx : ∀ s, exec i s = s.onDev (aluRun i fun e => mxqOut e f m a lo)) (hD : isDestRole (Roles.rolesOf i).1 = true)
    (hB : isDestRole (Roles.rolesOf i).2.2 = true) :
    Computes i fun e =>
      let q := mxQuantise f m ((List.range 32).map fun k => e.word m k)
        ((List.range 32).map fun k => readFp .f32 m.ftzi (elem 32 (e.packets 4 a) k))
      { val := packElems f.bits q.2 * 2 ^ lo, mask := (2 ^ (32 * f.bits) - 1) * 2 ^ lo, scale := some q.1
        draws := if m.rnd = .sr then 32 else 0 } := by
  simp only [← draws_eq_if]
  exact computes_of_alu i _ (fun _ _ _ => hB) (fun _ _ _ _ => hD) hx

/-- Settles O9, format by format, and part by part of a packet conversion. -/
theorem conversions : Obligations.Conversions := by
  refine ⟨fun c m d a b => ?_, fun c m d a b => ⟨fun dst src => computes_of_result (fun _ => rfl) fun _ => rfl, fun dst src part => ?_⟩⟩
  · refine ⟨?_, ?_, ?_, ?_, ?_, ?_, ?_⟩
    all_goals exact mxq_computes (fun _ => rfl) rfl rfl
  · refine computes_of_result (fun _ => rfl) (fun e => ?_) fun e => ?_
    · -- where D has more elements than A, the one at place P·Ns + j receives A's element j (R193)
      refine ite_congr rfl (fun _ => packetOut_congr fun j _ => ?_) fun _ => rfl
      simp only [List.getElem_map, List.getElem_range, Nat.add_sub_cancel_left, srcP]
    · dsimp only
      split <;> rfl

end Sys2Proof.Machine
end

section
/-! PROOF. A counterexample to the statement about reset: the owner entry of granule 1,023 (R88, R94). -/

namespace Sys2Proof.Machine

/-- Refutes O59: by R94 the owner entry of granule 1,023 of a die reads as valid and system from reset on, and not as 0. -/
theorem not_resetState : ¬ Obligations.ResetState := by
  intro h
  obtain ⟨-, -, -, -, -, -, -, -, -, -, howners, -⟩ := h
  have hzero : ownerEntry State.reset.dev (scrKey 0 (1023 * 65536)) = 0 := howners _
  exact absurd hzero (by decide)

end Sys2Proof.Machine
end

section
/-! PROOF. What a write action of the migration block leaves (R105). -/

namespace Sys2Proof.Machine

/-- A write action carried out, by what becomes of the entry (R105). The entry's new value is kept as a function of its own until the
action is unfolded, so that it is not computed. -/
theorem runWrite_eq {s : State} {ok : Bool} {d : Dev} (port : Nat)
    (h : writeEntry s.dev (field s.mgmt.migReq.toNat 24 0) s.mgmt.migData = (ok, d)) :
    runWrite s port = { s with
      mgmt := { s.mgmt with migReq := BitVec.ofNat 64 (putField s.mgmt.migReq.toNat 63 63 0) }
      dev := if ok then d else discard6A d port 0x00040108 } := by
  generalize hrun : @runWrite = run
  delta runWrite at hrun
  subst hrun
  revert h
  generalize @writeEntry = entryWritten
  revert entryWritten
  refine id ?_
  intro entryWritten h
  dsimp only
  rw [h]

end Sys2Proof.Machine
end

section
/-! PROOF. The bounds of the host registers over a step (R105, R319, R325, R349, R414). -/

namespace Sys2Proof.Machine

/-! ## Fields beside a field set to zero -/

theorem testBit_field (v hi lo j : Nat) : (field v hi lo).testBit j = (decide (j < hi + 1 - lo) && v.testBit (lo + j)) := by
  rw [field, Nat.testBit_mod_two_pow, Nat.testBit_shiftRight]

/-- A field apart from one set to zero keeps its value. -/
theorem field_putField_zero (v : Nat) {hi lo h l : Nat} (hlo : lo ≤ hi) (hapart : h < lo ∨ hi < l) :
    field (putField v hi lo 0) h l = field v h l := by
  apply Nat.eq_of_testBit_eq
  intro j
  simp only [testBit_field, testBit_putField_zero v hi lo _ hlo]
  by_cases hj : j < h + 1 - l
  · have hout : (decide (lo ≤ l + j) && decide (l + j ≤ hi)) = false := by simp; omega
    rw [hout, Bool.not_false, Bool.and_true]
  · simp [hj]

theorem putField_zero_le (v hi lo : Nat) : putField v hi lo 0 ≤ v := by
  simp [putField]

/-- The fields of the migration control register that a write keeps (R105). -/
theorem field_migrationWord (w : DWord) {h l : Nat} (hl : h < 7 ∨ (15 < l ∧ h < 48)) :
    field (BitVec.ofNat 64 (putField (putField w.toNat 62 48 0) 15 7 0)).toNat h l = field w.toNat h l := by
  have hlt : putField (putField w.toNat 62 48 0) 15 7 0 < 2 ^ 64 :=
    lt_of_le_of_lt ((putField_zero_le _ _ _).trans (putField_zero_le _ _ _)) w.isLt
  rw [BitVec.toNat_ofNat, Nat.mod_eq_of_lt hlt, field_putField_zero _ (by decide) (by omega), field_putField_zero _ (by decide) (by omega)]

/-- The fields of the time control register that a write keeps (R349). -/
theorem field_timeWord (w : DWord) {h l : Nat} (hl : h < 3 ∨ (17 < l ∧ h < 20)) :
    field (BitVec.ofNat 64 (putField (putField (putField w.toNat 63 48 0) 23 20 0) 17 3 0)).toNat h l = field w.toNat h l := by
  have hlt : putField (putField (putField w.toNat 63 48 0) 23 20 0) 17 3 0 < 2 ^ 64 :=
    lt_of_le_of_lt (((putField_zero_le _ _ _).trans (putField_zero_le _ _ _)).trans (putField_zero_le _ _ _)) w.isLt
  rw [BitVec.toNat_ofNat, Nat.mod_eq_of_lt hlt, field_putField_zero _ (by decide) (by omega), field_putField_zero _ (by decide) (by omega),
    field_putField_zero _ (by decide) (by omega)]

/-! ## The registers with bounds -/

/-- The registers that the bounds speak of, taken out by the constructor: of registers written as others with fields changed they show
without the other fields being compared. -/
def Mgmt.limits : Mgmt → AMap (Nat × Nat) × Nat × Nat × Nat × DWord × DWord
  | ⟨budgets, share, k, _, _, _, _, wdLog2, _, _, _, _, migCfg, _, _, timeCtl, _, _, _, _, _, _, _, _, _, _⟩ =>
    (budgets, share, k, wdLog2, migCfg, timeCtl)

theorem Mgmt.limits_eq (m : Mgmt) : m.limits = (m.budgets, m.share, m.k, m.wdLog2, m.migCfg, m.timeCtl) := rfl

/-- Registers keep the bounds when those that the bounds speak of are those of registers that meet them. -/
theorem Mgmt.Bounded.of_limits {m n : Mgmt} (h : m.Bounded) (e : n.limits = (m.budgets, m.share, m.k, m.wdLog2, m.migCfg, m.timeCtl)) :
    n.Bounded := by
  simp only [Mgmt.limits_eq, Prod.mk.injEq] at e
  obtain ⟨hbudgets, hshare, hk, hwd, hmig, htime⟩ := e
  obtain ⟨k, watchdog, power, reserves, period, moves, source⟩ := h
  refine ⟨hk ▸ k, hwd ▸ watchdog, ?_, ?_, hmig ▸ period, hmig ▸ moves, htime ▸ source⟩
  · simpa only [Mgmt.powerSum, Mgmt.budget, hbudgets, hshare] using power
  · simpa only [Mgmt.budget, hbudgets] using reserves

theorem reset_bounded : Mgmt.reset.Bounded where
  k := by decide
  watchdog := by decide
  power := by decide
  reserves := by decide
  period := by decide
  moves := by decide
  source := by decide

/-! ## The writes of registers with bounds (R105, R319, R325, R349, R414) -/

/-- A write that is taken leaves the bounds. -/
def Put.Bounded : Put → Prop
  | .taken m => m.Bounded
  | .noted | .ignored => True

section
variable {m : Mgmt} (hm : m.Bounded)
include hm

theorem putBudget_bounded (die v : Nat) : (putBudget die v m).Bounded := by
  unfold putBudget
  dsimp only
  split
  · trivial
  · next h =>
    simp only [Bool.or_eq_true, decide_eq_true_eq, not_or, Nat.not_lt] at h
    obtain ⟨hsum, hreserve⟩ := h
    refine ⟨hm.k, hm.watchdog, hsum, fun k hk => ?_, hm.period, hm.moves, hm.source⟩
    rw [Mgmt.budget, AMap.get_set]
    split
    · exact hreserve
    · exact hm.reserves k hk

theorem putShare_bounded (v : Nat) : (putShare v m).Bounded := by
  unfold putShare
  dsimp only
  split
  · trivial
  · next h => exact ⟨hm.k, hm.watchdog, Nat.not_lt.mp h, hm.reserves, hm.period, hm.moves, hm.source⟩

theorem putK_bounded (v : Nat) : (putK v m).Bounded := by
  unfold putK
  split
  · trivial
  · next h => exact ⟨⟨by dsimp only; omega, by dsimp only; omega⟩, hm.watchdog, hm.power, hm.reserves, hm.period, hm.moves, hm.source⟩

theorem putWatchdog_bounded (v : Nat) : (putWatchdog v m).Bounded := by
  unfold putWatchdog
  split
  · trivial
  · next h =>
    simp only [Bool.or_eq_true, decide_eq_true_eq, not_or, Nat.not_lt] at h
    exact ⟨hm.k, h, hm.power, hm.reserves, hm.period, hm.moves, hm.source⟩

theorem Mgmt.Bounded.withMigration {w : DWord} (hperiod : 1 ≤ field w.toNat 6 0 ∧ field w.toNat 6 0 ≤ 64) (hmoves : field w.toNat 47 32 ≤ 4096) :
    { m with migCfg := w }.Bounded :=
  ⟨hm.k, hm.watchdog, hm.power, hm.reserves, hperiod, hmoves, hm.source⟩

theorem Mgmt.Bounded.withTimeCtl {w : DWord} (hsource : field w.toNat 2 1 ≠ 3 ∧ field w.toNat 19 18 < 2) : { m with timeCtl := w }.Bounded :=
  ⟨hm.k, hm.watchdog, hm.power, hm.reserves, hm.period, hm.moves, hsource⟩

theorem putMigration_bounded (w : DWord) : (putMigration w.toNat m).Bounded := by
  unfold putMigration
  split
  · trivial
  · next h =>
    simp only [Bool.or_eq_true, decide_eq_true_eq, not_or, Nat.not_lt] at h
    obtain ⟨⟨hlow, hhigh⟩, hmoves⟩ := h
    refine hm.withMigration ?_ ?_
    · rw [field_migrationWord w (by decide)]
      exact ⟨hlow, hhigh⟩
    · rw [field_migrationWord w (by decide)]
      exact hmoves

theorem putTimeCtl_bounded (w : DWord) : (putTimeCtl w.toNat m).Bounded := by
  unfold putTimeCtl
  split
  · trivial
  · next h =>
    simp only [Bool.or_eq_true, decide_eq_true_eq, not_or, Nat.not_le] at h
    have hw := hm.withTimeCtl (w := BitVec.ofNat 64 (putField (putField (putField w.toNat 63 48 0) 23 20 0) 17 3 0)) (by
      rw [field_timeWord w (by decide), field_timeWord w (by decide)]
      exact h)
    dsimp only
    split
    · exact hw
    · exact hw.of_limits rfl

end
/-! ## What changes no register with bounds -/

theorem bounded_ite {c : Prop} [Decidable c] {s t : State} (hs : s.mgmt.Bounded) (ht : t.mgmt.Bounded) :
    (if c then s else t).mgmt.Bounded := by
  split
  · exact hs
  · exact ht

section
variable {s : State} (hs : s.mgmt.Bounded)
include hs

theorem discardVf_bounded (f : HostFn) (off : Nat) : (discardVf s f off).mgmt.Bounded := by
  unfold discardVf
  split <;> exact hs.of_limits rfl

theorem runWrite_bounded (port : Nat) : (runWrite s port).mgmt.Bounded := by
  obtain ⟨⟨ok, d⟩, h⟩ : ∃ p, writeEntry s.dev (field s.mgmt.migReq.toNat 24 0) s.mgmt.migData = p := ⟨_, rfl⟩
  rw [runWrite_eq port h]
  exact hs.of_limits rfl

theorem settleWrite_bounded : (settleWrite s).mgmt.Bounded := by
  unfold settleWrite
  split
  · exact runWrite_bounded hs _
  · exact hs

theorem reachPart_bounded (r : RemoteReq) : (reachPart s r).mgmt.Bounded := by
  unfold reachPart
  split <;> exact hs.of_limits rfl

theorem linkFails_bounded (link : LinkId) (reason : Nat) : (linkFails link reason s).mgmt.Bounded := by
  unfold linkFails
  split <;> exact hs.of_limits rfl

theorem semAccess_bounded (port : Nat) (a : SemAccess) : (semAccess s port a).mgmt.Bounded := by
  cases a with
  | read n =>
    unfold semAccess readSem
    dsimp only
    split
    · split <;> exact hs.of_limits rfl
    · exact hs.of_limits rfl
  | write n v =>
    unfold semAccess releaseSem
    dsimp only
    split <;> exact hs.of_limits rfl

theorem registerRead_bounded (fn : HostFn) (off : Nat) : (registerRead s fn off).mgmt.Bounded := by
  unfold registerRead
  dsimp only
  split
  · exact semAccess_bounded hs _ _
  · exact hs.of_limits rfl

theorem tieOrder_bounded (p0 p1 : Bool) : (tieOrder s.mgmt p0 p1).2.Bounded := by
  unfold tieOrder
  split
  · exact hs.of_limits rfl
  · exact hs

theorem semCycle_bounded (port : Nat) (x : SemAccess) (same : Option SemAccess) : (semCycle port x same s).mgmt.Bounded := by
  unfold semCycle
  dsimp only
  split
  · exact hs
  · refine List.foldlRecOn (motive := fun t : State => t.mgmt.Bounded) _ _ ?_ fun t ht p _ => ?_
    · split
      · exact tieOrder_bounded hs _ _
      · exact hs
    · split
      · exact semAccess_bounded ht _ _
      · exact ht

theorem writeWord0_bounded (f : HostFn) (q : Nat) (w : DWord) : (writeWord0 s f q w).mgmt.Bounded := by
  unfold writeWord0
  dsimp only
  split
  · exact hs
  split
  · exact discardVf_bounded hs _ _
  repeat' split
  all_goals exact hs.of_limits rfl

theorem putWord1_bounded (f : HostFn) (q : Nat) (v : DWord) : (putWord1 s f q v).mgmt.Bounded := by
  unfold putWord1
  dsimp only
  split
  · exact discardVf_bounded hs _ _
  · split <;> exact hs.of_limits rfl

theorem moduleStop_bounded (die : Nat) : (moduleStop die s).mgmt.Bounded := hs.of_limits rfl

theorem takeOffset_bounded (o : Int) : (takeOffset s o).mgmt.Bounded := hs.of_limits rfl

theorem announced_bounded (source : Nat) (quality : List Nat) : (announced s source quality).mgmt.Bounded := by
  unfold announced
  dsimp only
  repeat' split
  all_goals exact hs.of_limits rfl

theorem ptpTake_bounded (h : PtpHead) (m : PtpMsg) : (ptpTake s h m).mgmt.Bounded := by
  unfold ptpTake
  dsimp only
  split
  · exact announced_bounded hs _ _
  all_goals repeat' split
  all_goals exact hs.of_limits rfl

theorem finishStandby_bounded : (finishStandby s).mgmt.Bounded := by
  unfold finishStandby
  split <;> exact hs.of_limits rfl

/-! ## Guarded writes (R323) -/

/-- A write that its block takes leaves the bounds, and one that it does not take changes no register. -/
theorem gated_bounded {port off : Nat} {sem : Option Nat} {standby : Bool} {f : State → State} (hf : (f s).mgmt.Bounded) :
    (gated s port sem standby off f).mgmt.Bounded := by
  unfold gated
  split
  · exact hs
  · exact hs.of_limits rfl
  · exact hf

theorem putReg_bounded {port off : Nat} {sem : Option Nat} {standby : Bool} {f : Mgmt → Put} (hf : (f s.mgmt).Bounded) :
    (putReg s port sem standby off f).mgmt.Bounded := by
  refine gated_bounded hs ?_
  generalize f s.mgmt = p at hf
  cases p with
  | taken m => exact hf
  | noted => exact hs.of_limits rfl
  | ignored => exact hs

theorem writeMig_bounded (port w : Nat) : (writeMig s port w).mgmt.Bounded := by
  refine gated_bounded hs ?_
  dsimp only
  split
  · exact hs
  have hfields : (s.mapMgmt fun m => { m with migReq := BitVec.ofNat 64 (putField (putField w 61 25 0) 63 63 0) }).mgmt.Bounded :=
    hs.of_limits rfl
  generalize (s.mapMgmt fun m => { m with migReq := BitVec.ofNat 64 (putField (putField w 61 25 0) 63 63 0) }) = t at hfields
  split
  · exact hfields
  split
  · exact hfields.of_limits rfl
  split
  · exact hfields.of_limits rfl
  · refine runWrite_bounded ?_ port
    exact hfields.of_limits rfl

theorem writeFault_bounded (port w : Nat) : (writeFault s port w).mgmt.Bounded := by
  refine gated_bounded hs ?_
  dsimp only
  repeat' split
  all_goals exact hs.of_limits rfl

theorem writeRay_bounded (port w : Nat) : (writeRay s port w).mgmt.Bounded := by
  refine gated_bounded hs ?_
  dsimp only
  split <;> exact hs.of_limits rfl

theorem writeMigration_bounded (port : Nat) (w : DWord) : (writeMigration s port w.toNat).mgmt.Bounded := by
  refine gated_bounded hs ?_
  have hput := putMigration_bounded hs w
  generalize putMigration w.toNat s.mgmt = p at hput
  cases p with
  | taken m => exact hput
  | noted => exact hs.of_limits rfl
  | ignored => exact hs.of_limits rfl

/-- The register at an offset, block by block (R323). -/
theorem putOffset_bounded (port off : Nat) (v : DWord) : (putOffset s port off v).mgmt.Bounded := by
  unfold putOffset
  extract_lets w
  refine bounded_ite (gated_bounded hs hs) (bounded_ite (bounded_ite ?_ hs) ?_)
  · exact hs.of_limits rfl
  refine bounded_ite (putReg_bounded hs (hs.of_limits rfl)) ?_
  refine bounded_ite (putReg_bounded hs (putBudget_bounded hs _ _)) ?_
  refine bounded_ite (putReg_bounded hs (putShare_bounded hs _)) ?_
  refine bounded_ite (putReg_bounded hs (putK_bounded hs _)) ?_
  refine bounded_ite (putReg_bounded hs (hs.of_limits rfl)) ?_
  refine bounded_ite (putReg_bounded hs (putTimeCtl_bounded hs v)) ?_
  refine bounded_ite (putReg_bounded hs (hs.of_limits rfl)) ?_
  refine bounded_ite (putReg_bounded hs (hs.of_limits rfl)) ?_
  refine bounded_ite (putReg_bounded hs (putWatchdog_bounded hs _)) ?_
  refine bounded_ite (writeFault_bounded hs _ _) ?_
  refine bounded_ite (writeRay_bounded hs _ _) ?_
  refine bounded_ite (writeMigration_bounded hs _ v) ?_
  refine bounded_ite (writeMig_bounded hs _ _) ?_
  refine bounded_ite (putReg_bounded hs (hs.of_limits rfl)) ?_
  exact bounded_ite (gated_bounded hs (hs.of_limits rfl)) (gated_bounded hs hs)

end

/-! ## Events -/

/-- An answer keeps the bounds. -/
def AnswerBounded : Host.Outcome State Fault Refusal → Prop
  | .next s => s.mgmt.Bounded
  | _ => True

section
variable {s : State} (hs : s.mgmt.Bounded)
include hs

theorem execMoveSwitch_bounded (frame : Nat) : AnswerBounded (execMoveSwitch frame s) := by
  unfold execMoveSwitch AnswerBounded
  dsimp only
  split
  · exact hs
  · next m _ =>
    have hmove : (s.mapDev fun d => endMove d m).mgmt.Bounded := hs.of_limits rfl
    exact bounded_ite (runWrite_bounded hmove _) hmove

theorem execEccUncorrectable_bounded (site : PoisonSite) : AnswerBounded (execEccUncorrectable site s) := by
  have hsite : (s.mapDev fun d => poisonSite d site).mgmt.Bounded := hs.of_limits rfl
  exact bounded_ite (runWrite_bounded hsite _) hsite

theorem execKerfSample_bounded (die mw : Nat) (temp : Int) : AnswerBounded (execKerfSample die mw temp s) := by
  unfold execKerfSample AnswerBounded
  refine bounded_ite hs ?_
  extract_lets k hot danger k' d d' d'' t
  have ht : t.mgmt.Bounded := hs.of_limits rfl
  exact bounded_ite (moduleStop_bounded ht die) ht

theorem execEmergencyTimeout_bounded (die : Nat) : AnswerBounded (execEmergencyTimeout die s) :=
  bounded_ite (moduleStop_bounded hs die) hs

theorem execPcieLinkTrained_bounded (port : Nat) : AnswerBounded (execPcieLinkTrained port s) :=
  bounded_ite hs (hs.of_limits rfl)

theorem execBootStart_bounded (p0 p1 : Bool) : AnswerBounded (execBootStart p0 p1 s) := by
  have hr := tieOrder_bounded hs (p0 && !s.dev.isLost 0) (p1 && !s.dev.isLost 1)
  unfold execBootStart AnswerBounded
  dsimp only
  split
  · exact bounded_ite hs (hr.of_limits rfl)
  · exact hs.of_limits rfl
  · exact hs

theorem execBundleVerifyDone_bounded : AnswerBounded (execBundleVerifyDone s) := by
  unfold execBundleVerifyDone AnswerBounded
  refine bounded_ite hs ?_
  split
  · exact hs.of_limits rfl
  · exact hs.of_limits rfl

theorem execAttestTrigger_bounded (port : Nat) : AnswerBounded (execAttestTrigger port s) :=
  bounded_ite hs (hs.of_limits rfl)

theorem execAttestReportReady_bounded (selfTest : Bool) : AnswerBounded (execAttestReportReady selfTest s) :=
  bounded_ite hs (bounded_ite (hs.of_limits rfl) (hs.of_limits rfl))

theorem execStandbyEnter_bounded (port : Nat) : AnswerBounded (execStandbyEnter port s) :=
  gated_bounded hs (bounded_ite (hs.of_limits rfl) (hs.of_limits rfl))

theorem execStandbyExit_bounded (port : Nat) : AnswerBounded (execStandbyExit port s) :=
  gated_bounded hs (bounded_ite hs (hs.of_limits rfl))

theorem execQueueProgWrite_bounded (fn : HostFn) (queue : Nat) (v : DWord) : AnswerBounded (execQueueProgWrite fn queue v s) :=
  bounded_ite (discardVf_bounded hs _ _) (bounded_ite hs (hs.of_limits rfl))

theorem execDoorbell_bounded (fn : HostFn) (queue : Nat) (v : DWord) : AnswerBounded (execDoorbell fn queue v s) :=
  bounded_ite hs (bounded_ite (discardVf_bounded hs _ _) (hs.of_limits rfl))

theorem execPairReopen_bounded (port : Nat) (v : DWord) : AnswerBounded (execPairReopen port v s) :=
  gated_bounded hs (bounded_ite hs (bounded_ite (hs.of_limits rfl) (hs.of_limits rfl)))

theorem execMgmtRegisterWrite_bounded (fn : HostFn) (off : Nat) (v : DWord) : AnswerBounded (execMgmtRegisterWrite fn off v s) :=
  bounded_ite (bounded_ite (putWord1_bounded hs _ _ _) (bounded_ite hs (discardVf_bounded hs _ _)))
    (bounded_ite (putOffset_bounded hs _ _ _) (discardVf_bounded hs _ _))

theorem execBar2Access_bounded (port : Nat) (op : BarOp) : AnswerBounded (execBar2Access port op s) := by
  refine bounded_ite hs ?_
  cases op with
  | read off len => exact hs.of_limits rfl
  | register fn a => exact bounded_ite (registerRead_bounded hs _ _) hs
  | write off l => exact bounded_ite (hs.of_limits rfl) (bounded_ite (hs.of_limits rfl) hs)

theorem execBar4Access_bounded (port : Nat) (op : BarOp) : AnswerBounded (execBar4Access port op s) := by
  refine bounded_ite hs ?_
  cases op with
  | read off len => exact bounded_ite (hs.of_limits rfl) (hs.of_limits rfl)
  | register fn a => exact bounded_ite (registerRead_bounded hs _ _) hs
  | write off l => exact bounded_ite hs (hs.of_limits rfl)

theorem execPcieAtomicOp_bounded (port : Nat) (op : PcieAtomic) : AnswerBounded (execPcieAtomicOp port op s) :=
  bounded_ite hs (bounded_ite (bounded_ite (hs.of_limits rfl) hs) (bounded_ite (hs.of_limits rfl) hs))

theorem execHostPortLost_bounded (port : Nat) : AnswerBounded (execHostPortLost port s) := by
  refine bounded_ite hs ?_
  have hlost : ∀ d, (settleWrite { s with mgmt := s.mgmt.loseSems port s.dev.cycle, dev := d }).mgmt.Bounded :=
    fun d => settleWrite_bounded (hs.of_limits rfl)
  exact (hlost _).of_limits rfl

theorem execPortSemReleaseTimeout_bounded (port : Nat) : AnswerBounded (execPortSemReleaseTimeout port s) := by
  unfold execPortSemReleaseTimeout AnswerBounded
  dsimp only
  split
  · exact hs
  · exact hs.of_limits rfl

theorem execPtpMessage_bounded (h : PtpHead) (m : PtpMsg) : AnswerBounded (execPtpMessage h m s) :=
  bounded_ite (ptpTake_bounded hs h m) hs

theorem execPpsInput_bounded : AnswerBounded (execPpsInput s) := by
  refine bounded_ite ?_ hs
  extract_lets w secs o
  exact (takeOffset_bounded hs o).of_limits rfl

theorem execReopenRetry_bounded : AnswerBounded (execReopenRetry s) := by
  refine bounded_ite hs ?_
  extract_lets d m mgmt
  have hm : mgmt.Bounded := by
    unfold mgmt
    split
    · exact hs.of_limits rfl
    · exact hs
  exact hm.of_limits rfl

/-- An answer that differs from the state outside the registers alone. -/
theorem answerBounded_dev (d : Dev) : AnswerBounded (.next { s with dev := d }) := hs

/-- Every instruction and every event keeps the bounds. Those that are not named leave the registers as they are. -/
theorem exec_bounded (i : Instr) : AnswerBounded (exec i s) := by
  cases i
  -- power and boot (R351, R357)
  case powerGood => exact bounded_ite reset_bounded hs
  case powerOff => exact reset_bounded.of_limits rfl
  case pcieLinkTrained port => exact execPcieLinkTrained_bounded hs port
  case bootWaitTimer => exact bounded_ite (hs.of_limits rfl) hs
  case bootStart p0 p1 => exact execBootStart_bounded hs p0 p1
  case bootLength port units => exact bounded_ite (hs.of_limits rfl) hs
  case bootGen port v => exact bounded_ite hs (hs.of_limits rfl)
  case bundleVerifyDone => exact execBundleVerifyDone_bounded hs
  case loadingDone => exact bounded_ite hs (hs.of_limits rfl)
  case attestTrigger port => exact execAttestTrigger_bounded hs port
  case attestReportReady selfTest => exact execAttestReportReady_bounded hs selfTest
  case standbyEnter port => exact execStandbyEnter_bounded hs port
  case standbyExit port => exact execStandbyExit_bounded hs port
  -- Kerf and memory errors (R428, R451)
  case kerfSample die mw temp => exact execKerfSample_bounded hs die mw temp
  case emergencyTimeout die => exact execEmergencyTimeout_bounded hs die
  case eccUncorrectable site => exact execEccUncorrectable_bounded hs site
  case moveSwitch frame => exact execMoveSwitch_bounded hs frame
  -- registers and tables of the host (R105, R310, R323, R326)
  case portSemaphoreRead port n same => exact semCycle_bounded hs _ _ _
  case portSemaphoreRelease port n v => exact semCycle_bounded hs _ _ _
  case doorbell fn queue v => exact execDoorbell_bounded hs fn queue v
  case queueEnable fn queue w0 => exact bounded_ite (writeWord0_bounded hs _ _ _) hs
  case queueDisable fn queue w0 => exact bounded_ite hs (writeWord0_bounded hs _ _ _)
  case queueProgWrite fn queue v => exact execQueueProgWrite_bounded hs fn queue v
  case ownerEntryWrite port die granule v => exact bounded_ite hs (gated_bounded hs (hs.of_limits rfl))
  case contextTableWrite port ctx word v => exact bounded_ite hs (gated_bounded hs (hs.of_limits rfl))
  case migrationRead port frame => exact writeMig_bounded hs _ _
  case migrationWrite port frame => exact writeMig_bounded hs _ _
  case contextInvalidation port ctx => exact gated_bounded hs (bounded_ite hs (hs.of_limits rfl))
  case invalidationComplete => exact bounded_ite hs (hs.of_limits rfl)
  case faultRetry port ctx page => exact writeFault_bounded hs _ _
  case faultFail port ctx page => exact writeFault_bounded hs _ _
  case rayDiscard port ctx => exact writeRay_bounded hs _ _
  case pairReopen port v => exact execPairReopen_bounded hs port v
  case portDisable port link v => exact gated_bounded hs (hs.of_limits rfl)
  case mgmtRegisterWrite fn off v => exact execMgmtRegisterWrite_bounded hs fn off v
  case bar2Access port op => exact execBar2Access_bounded hs port op
  case bar4Access port op => exact execBar4Access_bounded hs port op
  case pcieAtomicOp port op => exact execPcieAtomicOp_bounded hs port op
  case hostPortLost port => exact execHostPortLost_bounded hs port
  case portSemReleaseTimeout port => exact execPortSemReleaseTimeout_bounded hs port
  -- time (R348 to R350)
  case timeSet port v => exact gated_bounded hs (bounded_ite hs (hs.of_limits rfl))
  case ptpMessage h m => exact execPtpMessage_bounded hs h m
  case ppsInput => exact execPpsInput_bounded hs
  -- links, and requests of other packages (R336, R342, R457)
  case laneSignalLoss link => exact linkFails_bounded hs _ _
  case replayLimit link => exact linkFails_bounded hs _ _
  case creditTimeout link => exact linkFails_bounded hs _ _
  case portRetrain link => exact bounded_ite (hs.of_limits rfl) hs
  case portUp link => exact bounded_ite (hs.of_limits rfl) hs
  case reopenRetry => exact execReopenRetry_bounded hs
  case resyncArrival src seq => exact bounded_ite (hs.of_limits rfl) hs
  case e2eRequestArrival r => exact reachPart_bounded hs _
  case firingMessage stack m => exact reachPart_bounded hs _
  case chunkArrival stack c => exact reachPart_bounded hs _
  case collAbortArrival stack entry count => exact reachPart_bounded hs _
  case collReplan stack entry m =>
    cases m with
    | seen => exact answerBounded_dev hs _
    | message h agrees count rank plane => exact reachPart_bounded hs _
  all_goals exact answerBounded_dev hs _

end

/-! ## A step -/

theorem finish_bounded {o : Host.Outcome State Fault Refusal} (ho : AnswerBounded o) : AnswerBounded (finish o) := by
  cases o with
  | next s => exact answerBounded_dev ho _
  | fault => trivial
  | refused => trivial

theorem settled_bounded {o : Host.Outcome State Fault Refusal} (ho : AnswerBounded o) : AnswerBounded (settled o) := by
  cases o with
  | next s => exact finishStandby_bounded (s := { s with dev := settle s.dev }) ho
  | fault => trivial
  | refused => trivial

theorem runAttempt_bounded {s : State} (hs : s.mgmt.Bounded) (a : Attempt) : AnswerBounded (runAttempt a s) := by
  cases a with
  | hold d => exact hs
  | due i d => exact exec_bounded (s := { s with dev := d }) hs i
  | run i d => exact finish_bounded (exec_bounded (s := { s with dev := d }) hs i)

theorem answerBounded_ite {c : Prop} [Decidable c] {o p : Host.Outcome State Fault Refusal} (ho : AnswerBounded o) (hp : AnswerBounded p) :
    AnswerBounded (if c then o else p) := by
  split
  · exact ho
  · exact hp

theorem stepMove_bounded {s : State} (hs : s.mgmt.Bounded) (m : Move) : AnswerBounded (stepMove m s) := by
  refine answerBounded_ite trivial ?_
  cases m with
  | tick n => exact answerBounded_dev hs _
  | event i => exact answerBounded_ite (exec_bounded hs i) (answerBounded_dev hs s.dev)
  | issue core gslot =>
    dsimp only
    generalize attemptIssue s.dev core gslot = a
    exact answerBounded_ite (runAttempt_bounded hs a) (answerBounded_dev hs s.dev)
  | serve cc =>
    dsimp only
    generalize attemptServe s.dev cc = a
    exact answerBounded_ite (runAttempt_bounded hs a) (answerBounded_dev hs s.dev)

/-- Settles O60: the move taken keeps the bounds, and so does what the units do after it. -/
theorem boundsKept : Obligations.BoundsKept := by
  intro s t hs hstep
  have h : AnswerBounded (step s) := settled_bounded (stepMove_bounded (by rw [takeMove_mgmt]; exact hs) _)
  rw [hstep] at h
  exact h

end Sys2Proof.Machine
end

section
/-! PROOF. The local atomics of one thread (R86, R111, R116, R120, R209, R210). -/

namespace Sys2Proof.Machine

/-! ## The model's access of an atomic -/

/-- The machine after the release part of an atomic: at `.die` or wider the near partials of its core are merged (R332). -/
def released (core : Nat) (rel : Option Nat) (m : Dev) : Dev :=
  match rel with
  | some x => if 5 ≤ x then mergePartials m fun p => p.core == core else m
  | none => m

/-- An atomic performed in team memory: the location takes its new value, but for a failed `cas` (R210). -/
def teamAtom (op : AtomOp) (ty : MType) (v cmp k : Nat) (m : Dev) : Dev :=
  if op = .cas ∧ Memory.readN m.tmem k (tyBytes ty) ≠ cmp % 2 ^ (8 * tyBytes ty) then m else
    { m with
      tmem := Memory.writeN m.tmem k (tyBytes ty) (atomApply op ty (Memory.readN m.tmem k (tyBytes ty)) v cmp)
      poison := unpoison m 2 k (tyBytes ty) }

theorem atomAt_tmem (d : Dev) (k : Nat) (op : AtomOp) (ty : MType) (v cmp : Nat) :
    atomAt d (.tmem k) op ty v cmp = (Memory.readN d.tmem k (tyBytes ty), teamAtom op ty v cmp k d) := by
  simp only [atomAt, teamAtom, Loc.read, Loc.write, Bool.and_eq_true, decide_eq_true_eq, bne_iff_ne]
  split <;> rfl

section
variable {e : Env} {r : TRef} {instr n ea k v cmp mask : Nat} {op : AtomOp} {ty : MType} {rel : Option Nat} {acq : Bool}
  {dest : Option Dest} {m : Dev}

/-- What a die's port is sent (R210). -/
theorem localAccess_atom_scr : localAccess e r instr n ea (.scr k) (.atom op ty v cmp) rel acq dest mask m =
    onItsWay e r 1 ea k (.atom op ty v cmp) rel acq dest mask instr m := by
  cases dest <;> rfl

/-- A release that waits for earlier accesses of the thread takes the atomic along (R116). -/
theorem localAccess_atom_held {x : Nat} (hout : outstandingBefore m r x m.nextId = true) :
    localAccess e r instr n ea (.tmem k) (.atom op ty v cmp) (some x) acq dest mask m =
      onItsWay e r 2 ea k (.atom op ty v cmp) (some x) acq dest mask instr m := by
  simp only [localAccess, tryRelease, hout, if_true, Bool.not_false, Bool.true_or]
  cases dest <;> rfl

/-- What an atomic in team memory does once its release is performed (R332). -/
def atomFree (e : Env) (r : TRef) (instr n ea k : Nat) (op : AtomOp) (ty : MType) (v cmp : Nat) (rel : Option Nat) (acq : Bool) (dest : Option Dest)
    (mask : Nat) (u : Dev) : Dev :=
  let away := onItsWay e r 2 ea k (.atom op ty v cmp) rel acq dest mask instr
  if goesBehind e r 2 ea k (.atom op ty v cmp) rel u then away u
  else if u.choose.1 then away u.choose.2
  else if poisoned u 2 k n then consumePoison e ea u.choose.2
  else awaiting r dest (some (Memory.readN u.tmem k (tyBytes ty))) mask instr true (teamAtom op ty v cmp k u.choose.2)

theorem localAccess_atom_unreleased :
    localAccess e r instr n ea (.tmem k) (.atom op ty v cmp) none acq dest mask m = atomFree e r instr n ea k op ty v cmp none acq dest mask m := by
  unfold atomFree
  cases hbehind : goesBehind e r 2 ea k (.atom op ty v cmp) none m with
  | true =>
    unfold goesBehind at hbehind
    simp only [localAccess, hbehind, Bool.not_true, Bool.false_or, if_true]
    cases dest <;> rfl
  | false =>
    unfold goesBehind at hbehind
    simp only [localAccess, hbehind, Bool.not_true, Bool.false_or, Bool.false_eq_true, if_false, if_true, atomAt_tmem]
    cases dest <;> rfl

theorem localAccess_atom_released {x : Nat} (hfree : outstandingBefore m r x m.nextId = false) :
    localAccess e r instr n ea (.tmem k) (.atom op ty v cmp) (some x) acq dest mask m =
      atomFree e r instr n ea k op ty v cmp (some x) acq dest mask (released e.core (some x) m) := by
  have hrelease : tryRelease m r e.core x m.nextId = (true, released e.core (some x) m) := by
    simp only [tryRelease, hfree, Bool.false_eq_true, if_false, released]
  generalize released e.core (some x) m = u at hrelease ⊢
  unfold atomFree
  cases hbehind : goesBehind e r 2 ea k (.atom op ty v cmp) (some x) u with
  | true =>
    unfold goesBehind at hbehind
    simp only [localAccess, hrelease, hbehind, Bool.not_true, Bool.false_or, if_true]
    cases dest <;> rfl
  | false =>
    unfold goesBehind at hbehind
    simp only [localAccess, hrelease, hbehind, Bool.not_true, Bool.false_or, Bool.false_eq_true, if_false, if_true, atomAt_tmem]
    cases dest <;> rfl

/-- An atomic in team memory whose release waits for nothing. -/
theorem localAccess_atom_free (hfree : ∀ x, rel = some x → outstandingBefore m r x m.nextId = false) :
    localAccess e r instr n ea (.tmem k) (.atom op ty v cmp) rel acq dest mask m =
      atomFree e r instr n ea k op ty v cmp rel acq dest mask (released e.core rel m) := by
  cases rel with
  | none => exact localAccess_atom_unreleased
  | some x => exact localAccess_atom_released (hfree x rfl)

/-- Whether it goes on its way is decided once (log 62), and where it does not, what it reads is not poisoned. -/
theorem atomFree_clean {u : Dev}
    (hclean : awayAt e r ea (.tmem k) (.atom op ty v cmp) rel u ≠ none ∨ poisoned u 2 k n = false) :
    atomFree e r instr n ea k op ty v cmp rel acq dest mask u =
      let m := drawn e r ea (.tmem k) (.atom op ty v cmp) rel u
      if awayAt e r ea (.tmem k) (.atom op ty v cmp) rel u = none
      then awaiting r dest (some (Memory.readN m.tmem k (tyBytes ty))) mask instr true (teamAtom op ty v cmp k m)
      else onItsWay e r 2 ea k (.atom op ty v cmp) rel acq dest mask instr m := by
  simp only [awayAt, drawn, atomFree] at hclean ⊢
  by_cases hbehind : goesBehind e r 2 ea k (.atom op ty v cmp) rel u = true
  · simp [hbehind]
  · by_cases hlate : u.choose.1 = true
    · simp [hbehind, hlate]
    · have hgood : poisoned u 2 k n = false := by simpa [hbehind, hlate] using hclean
      simp only [hbehind, hlate, hgood, Bool.or_self, Bool.false_eq_true, if_false, if_true]
      rfl

/-- Where nothing lies, nothing waits: a location outside the bank aperture answers zero (R86). -/
theorem localAccess_atom_miss (hap : apertureOf ea ≠ .rwin) :
    localAccess e r instr n ea .miss (.atom op ty v cmp) rel acq dest mask m = awaiting r dest (some 0) mask instr true m := by
  have hrwin : (apertureOf ea == .rwin) = false := beq_eq_false_iff_ne.mpr hap
  simp only [localAccess, hrwin, Bool.false_and, Bool.false_eq_true, if_false]
  cases dest <;> rfl

/-- An atomic does not reach the banks (R83). -/
theorem aperture_of_atomic {loc : Loc} (h : localAt e n ea true = some loc) : apertureOf ea ≠ .rwin := by
  intro hap
  unfold localAt at h
  cases hown : e.own with
  | none => simp [hap, hown] at h
  | some p => simp [hap, hown] at h

/-- The model's access of a local atomic, in a run of one thread. -/
theorem atom_issues {i : Instr} {s : State} {t : Team} {g : Group} {loc : Loc} {ord : MOrder} {sc : Scope} {d a b : Operand}
    (hexec : exec i s = s.onDev (atomRun i op ord sc ty d a b)) (hn : named i = true) (hf : flushes i = false) (hd : (Roles.opsOf i).1 = d)
    (hs : soloOf i s = some (r, e, t, g)) (hloc : localAt e (tyBytes ty) (e.scalar 64 .int a) true = some loc) :
    Issues i s r (localAccess e r s.dev.nextId (tyBytes ty) (e.scalar 64 .int a) loc
      (.atom op ty (e.scalar (8 * tyBytes ty) (Roles.mImm ty) b) (if op = .cas then e.scalar (8 * tyBytes ty) .int d else 0)) (relOf ord sc)
      (acquires ord sc) (if d = .none then none else some (destOf e (Roles.rolesOf i).1 d)) (if d = .none then 0 else 2 ^ (8 * tyBytes ty) - 1)) := by
  have h := solo_of_soloOf hs
  have hi := h.issues
  unfold Issues Does
  rw [startOf_named hn hf] at hi ⊢
  rw [hexec]
  simp only [State.onDev_eq, atomRun, localRun, longRun, issueAll_one _ _ hi h.clear, hloc, hd, anyLocal, Option.isSome_some, Bool.and_true,
    if_true, Option.elim_none]
  by_cases hnone : d = .none
  · simp only [hnone, if_true]
    rfl
  · simp only [hnone, if_false]
    rfl

end

theorem Issues.congr {i : Instr} {s : State} {r : TRef} {f out : Dev → Dev} (h : Issues i s r f)
    (heq : f (startOf i s.dev) = out (startOf i s.dev)) : Issues i s r out := by
  unfold Issues Does at h ⊢
  simp only [h, heq]

theorem exec_atomExch (c ord sc ty d a b) (s : State) :
    exec (.atomExch c ord sc ty d a b) s = s.onDev (atomRun (.atomExch c ord sc ty d a b) .exch ord sc ty d a b) := rfl
theorem exec_atomCas (c ord sc ty d a b) (s : State) :
    exec (.atomCas c ord sc ty d a b) s = s.onDev (atomRun (.atomCas c ord sc ty d a b) .cas ord sc ty d a b) := rfl
theorem exec_atomAdd (c ord sc ty d a b) (s : State) :
    exec (.atomAdd c ord sc ty d a b) s = s.onDev (atomRun (.atomAdd c ord sc ty d a b) .add ord sc ty d a b) := rfl
theorem exec_atomMin (c ord sc ty d a b) (s : State) :
    exec (.atomMin c ord sc ty d a b) s = s.onDev (atomRun (.atomMin c ord sc ty d a b) .min ord sc ty d a b) := rfl
theorem exec_atomMax (c ord sc ty d a b) (s : State) :
    exec (.atomMax c ord sc ty d a b) s = s.onDev (atomRun (.atomMax c ord sc ty d a b) .max ord sc ty d a b) := rfl
theorem exec_atomAnd (c ord sc ty d a b) (s : State) :
    exec (.atomAnd c ord sc ty d a b) s = s.onDev (atomRun (.atomAnd c ord sc ty d a b) .and ord sc ty d a b) := rfl
theorem exec_atomOr (c ord sc ty d a b) (s : State) :
    exec (.atomOr c ord sc ty d a b) s = s.onDev (atomRun (.atomOr c ord sc ty d a b) .or ord sc ty d a b) := rfl
theorem exec_atomXor (c ord sc ty d a b) (s : State) :
    exec (.atomXor c ord sc ty d a b) s = s.onDev (atomRun (.atomXor c ord sc ty d a b) .xor ord sc ty d a b) := rfl

/-- Settles O19: each of the eight atomics issues the model's access, which the location and the release decide. -/
theorem localAtomics : Obligations.LocalAtomics := by
  intro c ord sc ty d a b case
  have key : ∀ op i, (∀ s, exec i s = s.onDev (atomRun i op ord sc ty d a b)) → named i = true → flushes i = false →
      (Roles.opsOf i).1 = d → case op i := by
    intro op i hexec hn hf hd s r e t g hs n ea v cmp kind dest mask m0 merged away
    have issues := fun {loc : Loc} (hloc : localAt e n ea true = some loc) => atom_issues (hexec s) hn hf hd hs hloc
    refine ⟨?scratchpad, ?held, ?free, ?nowhere⟩
    case scratchpad => exact fun k hloc => (issues hloc).congr localAccess_atom_scr
    case held =>
      intro k x hloc hrel hout
      refine (issues hloc).congr ?_
      rw [hrel]
      exact localAccess_atom_held hout
    case free =>
      intro k hloc hfree goes hclean
      exact (issues hloc).congr ((localAccess_atom_free hfree).trans (atomFree_clean hclean))
    case nowhere => exact fun hloc => (issues hloc).congr (localAccess_atom_miss (aperture_of_atomic hloc))
  exact ⟨key .exch _ (exec_atomExch c ord sc ty d a b) rfl rfl rfl, key .cas _ (exec_atomCas c ord sc ty d a b) rfl rfl rfl,
    key .add _ (exec_atomAdd c ord sc ty d a b) rfl rfl rfl, key .min _ (exec_atomMin c ord sc ty d a b) rfl rfl rfl,
    key .max _ (exec_atomMax c ord sc ty d a b) rfl rfl rfl, key .and _ (exec_atomAnd c ord sc ty d a b) rfl rfl rfl,
    key .or _ (exec_atomOr c ord sc ty d a b) rfl rfl rfl, key .xor _ (exec_atomXor c ord sc ty d a b) rfl rfl rfl⟩

end Sys2Proof.Machine
end

section
/-! PROOF. The accesses of a queue thread (R88, R165, R210, R282). -/

namespace Sys2Proof.Machine

/-! ## The run that issues stays current -/

theorem Dev.notify_cur (d : Dev) (n : Notice) : (d.notify n).cur = d.cur :=
  (apply_ite Dev.cur _ _ _).trans (ite_self _)

theorem Dev.wakeIssuer_cur (d : Dev) (w : Issuer) : (d.wakeIssuer w).cur = d.cur := by
  cases w with
  | thread t c => rfl
  | queue q =>
    simp only [Dev.wakeIssuer]
    split <;> rfl
  | remote src seq => exact d.notify_cur _
  | part | job | agent => rfl

theorem foldl_cur {α : Type} (f : Dev → α → Dev) (hf : ∀ d x, (f d x).cur = d.cur) (l : List α) (d : Dev) : (l.foldl f d).cur = d.cur := by
  induction l generalizing d with
  | nil => rfl
  | cons x l ih => exact (ih (f d x)).trans (hf d x)

theorem wakeWatch_cur (d : Dev) (key : Nat) : (wakeWatch d key).cur = d.cur :=
  foldl_cur _ (fun d (v : Watch) => d.wakeIssuer_cur v.who) _ _

theorem wakeWords_cur (d : Dev) (key n : Nat) : (wakeWords d key n).cur = d.cur :=
  foldl_cur _ (fun d (k : Nat) => wakeWatch_cur d (key / 8 * 8 + 8 * k)) _ _

theorem writeDest_que_cur (d : Dev) (q : Nat) (r : Roles.Role) (o : Operand) (first seq val mask : Nat) :
    (writeDest d (.que q) r o first seq val mask).cur = d.cur := by
  unfold writeDest
  split <;> rfl

theorem startOf_cur {i : Instr} {d : Dev} (hf : flushes i = false) : (startOf i d).cur = d.cur := by
  have hprep : ∀ m : Dev, (m.prepare i).cur = m.cur := by
    intro m
    unfold Dev.prepare
    split <;> rfl
  have hclear : ∀ m : Dev, (clearLong i m).cur = m.cur := by
    intro m
    unfold clearLong
    dsimp only
    split
    · split
      · split <;> rfl
      · rfl
    · rfl
  simp only [startOf, hf, Bool.false_and, Bool.false_eq_true, if_false, hprep]
  split
  · exact hclear _
  · rfl

/-! ## What a queue thread's instruction does besides its access -/

section
variable {i : Instr} {m : Dev} {q : Nat} {w : Word} {lits : AMap DWord}

theorem prepare_queue (h : m.cur = .queue q lits w) : m.prepare i = m := by
  simp only [Dev.prepare, h]

theorem clearLong_queue (h : m.cur = .queue q lits w) : clearLong i m = m := by
  simp only [clearLong, h]

theorem closeWindow_queue (h : m.cur = .queue q lits w) : m.closeWindow i = m := by
  simp only [Dev.closeWindow, h]

theorem recordInd_queue {k : Nat} {u : Dev} (h : m.cur = .queue q lits w) : recordInd i k m u = u := by
  simp only [recordInd, h]

end

/-- The machine with a name taken. -/
def nameTaken (m : Dev) : Dev := { m with nextId := m.nextId + 1 }

/-- A queue thread's local access, which leaves the run that issues current. -/
theorem queueLocal {i : Instr} {s : State} {q k n : Nat} {e : Env} {atomic acq : Bool} {ea : Env → Nat} {kind : Env → AccKind}
    {rel returns : Option Nat} (hexec : exec i s = s.onDev (localRun i n atomic anyLocal ea kind rel acq returns)) (hn : named i = true)
    (hf : flushes i = false) (hq : queueOf i s = some (q, e)) (hloc : localAt e n (ea e) atomic = some (.scr k))
    (hcur : (queueAccess i e q (ea e) n (.scr k) (kind e) (returns.getD 0) (nameTaken s.dev)).cur = s.dev.cur) :
    exec i s = .next { s with dev := queueAccess i e q (ea e) n (.scr k) (kind e) (returns.getD 0) (nameTaken s.dev) } := by
  obtain ⟨hi, hclear⟩ := issuers_of_queueOf hq
  obtain ⟨⟨lits, w, hstart⟩, -⟩ := issuers_que (by rw [hi]; exact List.mem_singleton_self (Who.que q, e))
  rw [startOf_cur hf] at hstart
  have hnamed : s.dev.freshId.2.cur = .queue q lits w := hstart
  rw [startOf_named hn hf, clearLong_queue hnamed] at hi
  rw [hexec]
  simp only [State.onDev_eq, localRun, longRun, issueAll_one _ _ hi hclear, hloc, anyLocal, Option.isSome_some, Bool.and_true, if_true,
    Option.elim_none, clearLong_queue hnamed, prepare_queue hnamed, recordInd_queue hnamed]
  exact congrArg (fun d => Host.Outcome.next { s with dev := d }) (closeWindow_queue (hcur.trans hstart))

theorem granuleOk_nameTaken (m : Dev) (ctx : Nat) (sys : Bool) (key : Nat) : granuleOk (nameTaken m) ctx sys key = granuleOk m ctx sys key := rfl

theorem poisoned_nameTaken (m : Dev) (space a n : Nat) : poisoned (nameTaken m) space a n = poisoned m space a n := rfl

/-! ## The accesses -/

theorem atomAt_scr (m : Dev) (k : Nat) (op : AtomOp) (ty : MType) (v cmp : Nat) :
    atomAt m (.scr k) op ty v cmp = (Memory.readN m.scr k (tyBytes ty),
      if op = .cas ∧ Memory.readN m.scr k (tyBytes ty) ≠ cmp % 2 ^ (8 * tyBytes ty) then m else
        { m with
          scr := Memory.writeN m.scr k (tyBytes ty) (atomApply op ty (Memory.readN m.scr k (tyBytes ty)) v cmp)
          poison := unpoison m 1 k (tyBytes ty) }) := by
  simp only [atomAt, Loc.read, Loc.write, Bool.and_eq_true, decide_eq_true_eq, bne_iff_ne]
  split <;> rfl

section
variable {i : Instr} {e : Env} {q ea k n mask : Nat} {m : Dev}

theorem queueAccess_load (hg : granuleOk m e.ctx true k = true) (hp : poisoned m 1 k n = false) :
    queueAccess i e q ea n (.scr k) (.load n) mask m =
      (if (Roles.opsOf i).1 = .none then m else writeDest m (.que q) (Roles.rolesOf i).1 (Roles.opsOf i).1
        (firstSlot e (Roles.rolesOf i).1 (Roles.opsOf i).1) 0 (Memory.readN m.scr k n) mask).pass i (.que q) := by
  simp only [queueAccess, hg, hp, Bool.not_true, Bool.false_eq_true, if_false]
  rfl

theorem queueAccess_store {v : Nat} (hg : granuleOk m e.ctx true k = true) :
    queueAccess i e q ea n (.scr k) (.store n v) mask m =
      (wakeWords { m with scr := Memory.writeN m.scr k n v, poison := unpoison m 1 k n } k n).pass i (.que q) := by
  simp only [queueAccess, hg, Bool.not_true, Bool.false_eq_true, if_false]
  rfl

theorem queueAccess_atom {op : AtomOp} {ty : MType} {v cmp : Nat} (hg : granuleOk m e.ctx true k = true) (hp : poisoned m 1 k n = false) :
    queueAccess i e q ea n (.scr k) (.atom op ty v cmp) mask m =
      (if (Roles.opsOf i).1 = .none then wakeWords (atomAt m (.scr k) op ty v cmp).2 k n
        else writeDest (wakeWords (atomAt m (.scr k) op ty v cmp).2 k n) (.que q) (Roles.rolesOf i).1 (Roles.opsOf i).1
          (firstSlot e (Roles.rolesOf i).1 (Roles.opsOf i).1) 0 (Memory.readN m.scr k (tyBytes ty)) mask).pass i (.que q) := by
  simp only [queueAccess, hg, hp, Bool.not_true, Bool.false_eq_true, if_false, atomAt_scr]

theorem pass_que_cur (i : Instr) (q : Nat) (m : Dev) : (m.pass i (.que q)).cur = m.cur := rfl

theorem queueAccess_load_cur (hg : granuleOk m e.ctx true k = true) (hp : poisoned m 1 k n = false) :
    (queueAccess i e q ea n (.scr k) (.load n) mask m).cur = m.cur := by
  rw [queueAccess_load hg hp, pass_que_cur]
  split
  · rfl
  · exact writeDest_que_cur _ _ _ _ _ _ _ _

theorem queueAccess_store_cur {v : Nat} (hg : granuleOk m e.ctx true k = true) :
    (queueAccess i e q ea n (.scr k) (.store n v) mask m).cur = m.cur := by
  rw [queueAccess_store hg, pass_que_cur, wakeWords_cur]

theorem queueAccess_atom_cur {op : AtomOp} {ty : MType} {v cmp : Nat} (hg : granuleOk m e.ctx true k = true)
    (hp : poisoned m 1 k n = false) : (queueAccess i e q ea n (.scr k) (.atom op ty v cmp) mask m).cur = m.cur := by
  have hatom : (atomAt m (.scr k) op ty v cmp).2.cur = m.cur := by
    rw [atomAt_scr]
    exact (apply_ite Dev.cur _ _ _).trans (ite_self _)
  rw [queueAccess_atom hg hp, pass_que_cur]
  split
  · rw [wakeWords_cur, hatom]
  · rw [writeDest_que_cur, wakeWords_cur, hatom]

end

/-- Settles O20: a queue thread's instruction is its access, at once, and the thread passes. -/
theorem queueThreadAccesses : Obligations.QueueThreadAccesses := by
  intro c w ord sc ty d a b s q e k hgran next step
  have hg : granuleOk (nameTaken s.dev) e.ctx true k = true := (granuleOk_nameTaken ..).trans hgran
  refine ⟨?_, ?_, ?_⟩
  · intro i hq hloc hclean
    have hp : poisoned (nameTaken s.dev) 1 k (mwBytes w) = false := (poisoned_nameTaken ..).trans hclean
    rw [queueLocal (exec_ld c w d a b s) rfl rfl hq hloc (queueAccess_load_cur hg hp), queueAccess_load hg hp]
    by_cases hd : d = .none
    · subst hd
      rfl
    · rw [if_neg (show (Roles.opsOf i).1 ≠ .none from hd)]
      rfl
  · intro i hq hloc
    rw [queueLocal (exec_st c w d a b s) rfl rfl hq hloc (queueAccess_store_cur hg), queueAccess_store hg]
    rfl
  · intro case
    have key : ∀ op i, (∀ s, exec i s = s.onDev (atomRun i op ord sc ty d a b)) → named i = true → flushes i = false →
        (Roles.opsOf i).1 = d → case op i := by
      intro op i hexec hn hf hd hq hloc hclean n v cmp old u r
      have hp : poisoned (nameTaken s.dev) 1 k n = false := (poisoned_nameTaken ..).trans hclean
      rw [queueLocal (hexec s) hn hf hq hloc (queueAccess_atom_cur hg hp), queueAccess_atom hg hp, atomAt_scr, hd]
      by_cases hnone : d = .none
      · simp only [if_pos hnone]
        rfl
      · simp only [if_neg hnone]
        rfl
    exact ⟨key .exch _ (exec_atomExch c ord sc ty d a b) rfl rfl rfl, key .cas _ (exec_atomCas c ord sc ty d a b) rfl rfl rfl,
      key .add _ (exec_atomAdd c ord sc ty d a b) rfl rfl rfl, key .min _ (exec_atomMin c ord sc ty d a b) rfl rfl rfl,
      key .max _ (exec_atomMax c ord sc ty d a b) rfl rfl rfl, key .and _ (exec_atomAnd c ord sc ty d a b) rfl rfl rfl,
      key .or _ (exec_atomOr c ord sc ty d a b) rfl rfl rfl, key .xor _ (exec_atomXor c ord sc ty d a b) rfl rfl rfl⟩

end Sys2Proof.Machine
end

section
/-! PROOF. The aperture trap (R82, R83, R203, R388). -/

namespace Sys2Proof.Machine

section
variable {i : Instr} {s : State} {r : TRef} {e : Env} {t : Team} {g : Group}

/-- The checked part of an instruction of one thread that fails its check: the trap, from the machine as the thread reads it. -/
theorem issueAll_traps {m : Dev} {x : Trap} {check : Env → Option Trap} (eff : Env → Who → Dev → Dev) (h : Solo i s r e t g)
    (hstart : startOf i s.dev = m.prepare i) (hx : check e = some x) : issueAll i check eff m = trapped e r x (startOf i s.dev) := by
  have hi := h.issues
  have hfinds := h.finds
  rw [hstart] at hi hfinds ⊢
  rw [issueAll_one _ _ hi h.clear, hx, Option.elim_some]
  exact trap_thr hfinds x

/-- A local access that no aperture takes. -/
theorem localRun_traps {n : Nat} {atomic acq : Bool} {ea : Env → Nat} {kind : Env → AccKind} {rel returns : Option Nat}
    (hexec : exec i s = s.onDev (localRun i n atomic anyLocal ea kind rel acq returns)) (hn : named i = true) (hf : flushes i = false)
    (hs : soloOf i s = some (r, e, t, g)) (hloc : localAt e n (ea e) atomic = none) :
    Does i s fun m => (recordInd i s.dev.nextId s.dev.freshId.2 (trapped e r (apertureTrap e (ea e)) m)).closeWindow i := by
  have hcheck : (if (localAt e n (ea e) atomic).isSome && anyLocal e (ea e) then none else some (apertureTrap e (ea e))) =
      some (apertureTrap e (ea e)) := by simp [hloc]
  unfold Does
  rw [hexec, State.onDev_eq, localRun, longRun]
  simp only
  rw [issueAll_traps _ (solo_of_soloOf hs) (startOf_named hn hf) hcheck]
  rfl

/-- An access outside glob, or misaligned, of an instruction that accesses glob. -/
theorem postRun_traps {n : Nat} {ea : Env → Nat} {kind : Env → AccKind} {rel : Option Nat} {counts : Bool}
    (hexec : exec i s = s.onDev (postRun i n ea kind rel counts)) (hn : named i = false) (hf : flushes i = false)
    (hs : soloOf i s = some (r, e, t, g)) (hbad : apertureOf (ea e) ≠ .glob ∨ ea e % n ≠ 0) :
    Does i s (trapped e r (apertureTrap e (ea e))) := by
  have hcheck : globCheck n ea e = some (apertureTrap e (ea e)) := by
    unfold globCheck
    rw [if_neg]
    simp only [Bool.and_eq_true, beq_iff_eq, not_and_or]
    exact hbad
  unfold Does
  rw [hexec, State.onDev_eq, postRun, issueAll_traps _ (solo_of_soloOf hs) (startOf_plain i s.dev hn hf) hcheck]

end

theorem exec_stG (c : Ctl) (w : MWidth) (d a b : Operand) (s : State) : exec (.stG c w d a b) s = execStG c w d a b s := rfl

/-- Settles O21: the check of each instruction fails, and its trap is taken. -/
theorem apertureTraps : Obligations.ApertureTraps := by
  intro c w d a b s r e t g taken
  refine ⟨?_, ?_, ?_⟩
  · exact fun hs hloc => localRun_traps (n := mwBytes w) (ea := fun e => e.ea a b) (kind := fun _ => .load (mwBytes w))
      (exec_ld c w d a b s) rfl rfl hs hloc
  · exact fun hs hloc => localRun_traps (n := mwBytes w) (ea := fun e => e.ea a b) (kind := fun e => .store (mwBytes w) (storeData e w d))
      (exec_st c w d a b s) rfl rfl hs hloc
  · exact fun hs hbad => postRun_traps (n := mwBytes w) (ea := fun e => e.ea a b) (kind := fun e => .store (mwBytes w) (storeData e w d))
      (exec_stG c w d a b s) rfl rfl hs hbad

end Sys2Proof.Machine
end

section
/-! PROOF. `wait`, `qpush` and `qpop` (R93, R223 to R225). -/

namespace Sys2Proof.Machine

theorem exec_wait (c : Ctl) (cmp : WaitCmp) (d a b : Operand) (s : State) : exec (.wait c cmp d a b) s = execWait c cmp d a b s := rfl
theorem exec_qpush (c : Ctl) (d a b : Operand) (s : State) : exec (.qpush c d a b) s = execQpush c d a b s := rfl
theorem exec_qpop (c : Ctl) (d a b : Operand) (s : State) : exec (.qpop c d a b) s = execQpop c d a b s := rfl

theorem closeWindow_of_noDest {i : Instr} (h : hasRegDest i = false) (m : Dev) : m.closeWindow i = m := by
  unfold Dev.closeWindow
  split
  · simp only [h, Bool.false_eq_true, if_false]
  · rfl

section
variable {i : Instr} {s : State} {r : TRef} {e : Env} {t : Team} {g : Group}

/-- An instruction of one thread that passes its check: its effect, from the machine as the thread reads it. -/
theorem eachThread_solo {check : Env → Option Trap} (eff : Env → Who → Dev → Dev) (hn : named i = false) (hf : flushes i = false)
    (hs : soloOf i s = some (r, e, t, g)) (hcheck : check e = none) : eachThread i check eff s.dev = eff e (.thr r) (startOf i s.dev) := by
  have h := solo_of_soloOf hs
  have hi := h.issues
  rw [startOf_plain i s.dev hn hf] at hi ⊢
  rw [eachThread_one _ _ hi h.clear, hcheck, Option.elim_none]

/-! ## The queue instructions -/

variable {name : Env → Nat} {value : Env → Option DWord} {dest : Env → Dest}

/-- The operation of a queue instruction goes on its way to its queue. -/
theorem queueRun_named (hn : named i = false) (hf : flushes i = false) (hs : soloOf i s = some (r, e, t, g)) {die number : Nat}
    (hname : queueName e.die (name e) = some (die, number)) :
    queueRun i name value dest s.dev =
      { (startOf i s.dev).mapThread r fun h => { h with st := .parked .queue } with
        nextId := (startOf i s.dev).nextId + 1
        qops := (startOf i s.dev).qops ++ [{ id := (startOf i s.dev).nextId, instr := s.dev.nextId, who := r, ctx := e.ctx, pc := e.h.pc.toNat, die,
                                             number, value := value e, dest := dest e, post := postIndices i, waiting := false }] } := by
  simp only [queueRun, eachThread_solo _ hn hf hs (show noCheck e = none from rfl), hname]
  rfl

/-- A name that is a protection fault brings the deferred fault (R224). -/
theorem queueRun_unnamed (hn : named i = false) (hf : flushes i = false) (hs : soloOf i s = some (r, e, t, g))
    (hname : queueName e.die (name e) = none) :
    queueRun i name value dest s.dev =
      { (startOf i s.dev).mapThread r fun h => { h with st := .parked .queue } with
        nextId := (startOf i s.dev).nextId + 1
        late := (startOf i s.dev).late ++
          [⟨(startOf i s.dev).nextId, .thread r e.core, { cause := 0x04, fpc := e.h.pc.toNat, addr := 0, detail := 0 }, none, true⟩] } := by
  simp only [queueRun, eachThread_solo _ hn hf hs (show noCheck e = none from rfl), hname]
  rfl

end

theorem qpush_noDest (c : Ctl) (d a b : Operand) : hasRegDest (.qpush c d a b) = false := rfl

/-- What `wait` of one thread does: its test goes to the die's port. -/
theorem exec_wait_solo {c : Ctl} {cmp : WaitCmp} {d a b : Operand} {s : State} {r : TRef} {e : Env} {t : Team} {g : Group} {k : Nat}
    (hs : soloOf (.wait c cmp d a b) s = some (r, e, t, g)) (hword : dieWord e (e.scalar 64 .int a) = some k) :
    Does (.wait c cmp d a b) s fun m => onItsWay e r 1 (e.scalar 64 .int a) k (.test (waitCode cmp) (e.scalar 64 .int b)) none false none 0 0
      (m.mapThread r fun h => { h with st := .parked (.word (e.scalar 64 .int a) (postIndices (.wait c cmp d a b))) }) := by
  unfold Does
  simp only [exec_wait, execWait, State.onDev_eq]
  rw [eachThread_solo _ rfl rfl hs]
  · simp only [hword]
    rfl
  · simp [hword]

/-- Settles O25: the thread parks, and its test or its operation is on its way. -/
theorem waitsAndQueues : Obligations.WaitsAndQueues := by
  intro c cmp d a b s r e t g
  refine ⟨?_, ?_⟩
  · intro i ea k hs hap hloc
    have hword : dieWord e ea = some k := by simp [dieWord, hap, hloc]
    have hwait := exec_wait_solo hs hword
    cases cmp <;> exact hwait
  · intro queued
    refine ⟨fun hs => ⟨fun die number hname => ?_, fun hname => ?_⟩, fun hs => ⟨fun die number hname => ?_, fun hname => ?_⟩⟩
    · unfold Does
      rw [exec_qpush, execQpush, State.onDev_eq, queueRun_named rfl rfl hs hname]
      exact congrArg (fun m => Host.Outcome.next { s with dev := m }) (closeWindow_of_noDest (qpush_noDest c d a b) _).symm
    · unfold Does
      rw [exec_qpush, execQpush, State.onDev_eq, queueRun_unnamed rfl rfl hs hname]
      exact congrArg (fun m => Host.Outcome.next { s with dev := m }) (closeWindow_of_noDest (qpush_noDest c d a b) _).symm
    · unfold Does
      simp only [exec_qpop, execQpop, State.onDev_eq]
      rw [queueRun_named rfl rfl hs hname]
    · unfold Does
      simp only [exec_qpop, execQpop, State.onDev_eq]
      rw [queueRun_unnamed rfl rfl hs hname]

end Sys2Proof.Machine
end

section
/-! PROOF. The events of the jobs (R92, R123 to R126, R249, R286 to R291, R319, R439, R440). -/

namespace Sys2Proof.Machine

/-! ## A card enters its queue (R123 to R125, R286) -/

theorem exec_jobEnterQueue (core : Nat) (s : State) : exec (.jobEnterQueue core) s = execJobEnterQueue core s := rfl
theorem exec_jobIssue (cluster : Nat) (s : State) : exec (.jobIssue cluster) s = execJobIssue cluster s := rfl
theorem exec_shareComplete (cluster slot : Nat) (s : State) : exec (.shareComplete cluster slot) s = execShareComplete cluster slot s := rfl
theorem exec_jobFail (cluster slot reason : Nat) (s : State) : exec (.jobFail cluster slot reason) s = execJobFail cluster slot reason s := rfl

/-- What a card waits for as it enters its queue (R124, R125, R286). -/
def entryPreds (m : Dev) (x : HeldCard) : List Nat :=
  edgesOf (m.join (clusterOf x.core)) x.job.card x.ordAfter ++ heldBefore m (clusterOf x.core) x.ordAfter

/-- The job as it stands in the queue. -/
def entered (m : Dev) (x : HeldCard) : Job :=
  { x.job with preds := entryPreds m x, state := if (entryPreds m x).isEmpty then JobState.ready else JobState.waiting }

theorem unholdJpost_join (m : Dev) (c k : Nat) : (unholdJpost m c).join k = m.join k := rfl

theorem unholdJpost_cards (m : Dev) (c : Nat) : (unholdJpost m c).cards = m.cards := rfl

theorem enterCard_jobs {m : Dev} {x : HeldCard} (h : x.job.cancelAsked = false) :
    ((enterCard m x).join (clusterOf x.core)).jobs = (m.join (clusterOf x.core)).jobs ++ [entered m x] := by
  simp only [enterCard, entered, entryPreds, h, Bool.false_eq_true, if_false, unholdJpost_join, Dev.join_setJoin, if_true]
  rfl

theorem enterCard_cards {m : Dev} {x : HeldCard} (h : x.job.cancelAsked = false) :
    (enterCard m x).cards = m.cards.filter fun y => y.job.handle != x.job.handle := by
  simp only [enterCard, h, Bool.false_eq_true, if_false, unholdJpost_cards]
  rfl

theorem jobEnterQueue_enters {s : State} {core : Nat} {x : HeldCard} {d1 : Dev} (hx : s.dev.cards.find? (fun c => c.core == core) = some x)
    (hrelease : tryRelease s.dev x.job.who core 4 x.upto = (true, d1)) :
    exec (.jobEnterQueue core) s = .next { s with dev := enterCard d1 x } := by
  simp only [exec_jobEnterQueue, execJobEnterQueue, State.onDev_eq, hx, hrelease, if_true]

/-! ## Issue (R288, R289, R319) -/

theorem poisoned_kerfAdmit (m : Dev) (die mw space a n : Nat) : poisoned (kerfAdmit m die mw) space a n = poisoned m space a n := rfl

theorem tileHeld_kerfAdmit (m : Dev) (die mw ctx core phys : Nat) : tileHeld (kerfAdmit m die mw) ctx core phys = tileHeld m ctx core phys := rfl

/-- A job handed to its engines: its card not poisoned, its tiles held (R439). -/
theorem issueJob_issues {m : Dev} {cl : Nat} {b : Job} (hcard : poisoned m 6 (jobWord cl b.slot) 8 = false)
    (htiles : ∀ t ∈ jobTiles b.card, tileHeld m b.ctx (cl * 16 + t.1) t.2 = true) :
    issueJob m cl b =
      let u := m.mapJob cl b.seq fun x => { x with state := .issued, shares := (List.range (jobShares b.card)).map fun n => ⟨n, none⟩, passes := 0 }
      u.setJoin cl (u.join cl).assign := by
  have hall : ((jobTiles b.card).any fun t => !tileHeld m b.ctx (cl * 16 + t.1) t.2) = false := by
    simpa [List.any_eq_false] using htiles
  simp only [issueJob, hcard, hall, Bool.false_eq_true, if_false]

theorem jobIssue_chosen {s : State} {cluster : Nat} {b : Job} (hplaces : s.mgmt.places = true)
    (hcool : (s.dev.kerfAt (cluster / 5)).emergency = false)
    (hchosen : chooseJob (jobFits s.dev s.mgmt (cluster / 5))
      (fun b => heldBack (heldItems s.dev s.mgmt (cluster / 5)) (.job cluster b.seq) (jobPrio b.card)) (issueOrder (s.dev.join cluster)) none =
        some (none, b)) :
    Makes (.jobIssue cluster) s (issueJob (kerfAdmit s.dev (cluster / 5) (jobMw s.mgmt (cluster / 5) b)) cluster b) := by
  unfold Makes
  simp only [exec_jobIssue, execJobIssue, State.onDev_eq, show Config.clustersPerDie = 5 from rfl, hplaces, hcool, hchosen, Bool.not_true,
    Bool.or_self, Bool.false_eq_true, if_false]

/-! ## The end of a share (R287, R291) -/

section
variable {s : State} {cluster slot : Nat} {b : Job} {x : Share}
  (hb : (s.dev.join cluster).jobs.find? (fun b => b.slot == slot && b.state == .issued && !b.drain) = some b)
  (hx : b.shares.find? b.runs = some x)
include hb hx

theorem shareComplete_others (hmore : 1 < b.shares.length) :
    let u := s.dev.mapJob cluster b.seq fun y => { y with shares := y.shares.filter (· != x) }
    Makes (.shareComplete cluster slot) s (u.setJoin cluster (u.join cluster).assign) := by
  intro u
  unfold Makes
  simp only [exec_shareComplete, execShareComplete, State.onDev_eq, hb, hx, hmore, if_true]
  rfl

/-- The last share ends with the job's work. -/
theorem shareComplete_last (hlast : b.shares.length ≤ 1) {d1 : Dev} (hwork : workOut s.dev cluster b false = (none, d1)) :
    Makes (.shareComplete cluster slot) s d1 := by
  unfold Makes
  simp only [exec_shareComplete, execShareComplete, State.onDev_eq, hb, hx, if_neg (Nat.not_lt.mpr hlast), hwork]

theorem shareComplete_fails (hlast : b.shares.length ≤ 1) {r a : Nat} {d1 : Dev} (hwork : workOut s.dev cluster b false = (some (r, a), d1)) :
    Makes (.shareComplete cluster slot) s (findFailure d1 cluster b r a) := by
  unfold Makes
  simp only [exec_shareComplete, execShareComplete, State.onDev_eq, hb, hx, if_neg (Nat.not_lt.mpr hlast), hwork]

end

theorem workOut_done {m d1 : Dev} {cluster : Nat} {b : Job} {cut : Bool} (h : (runJob (jobEng cluster b cut) b.card).on m = (.ok (), d1)) :
    workOut m cluster b cut = (none, settleJoin (d1.mapJob cluster b.seq fun x => { x.unhand with shares := [], drain := true }) cluster) := by
  simp only [workOut, h]

/-! ## The end of a job (R92, R126, R439, R440) -/

theorem finishJob_wordless {m : Dev} {cluster : Nat} {b : Job} (hlost : b.lost = none) (hcw : jobCw b.card = false) :
    finishJob m cluster b = endJob m cluster b .completed none := by
  simp only [finishJob, hlost, hcw, Bool.false_eq_true, if_false]

theorem finishJob_stored {m d1 : Dev} {cluster : Nat} {b : Job} (hlost : b.lost = none) (hcw : jobCw b.card = true)
    (hstore : storeWord m b = some d1) : finishJob m cluster b = endJob d1 cluster b .completed none := by
  simp only [finishJob, hlost, hcw, hstore, if_true]

section
variable {s : State} {cluster slot : Nat} {b : Job}
  (hb : (s.dev.join cluster).jobs.find? (fun b => b.slot == slot && b.state.status.isNone) = some b)
include hb

/-- Every predecessor is released, one of them failed (R440). -/
theorem jobFail_predecessor (hstate : b.state = .waiting) (hpreds : b.preds = []) (hroot : b.failedRoot.isSome = true) :
    Makes (.jobFail cluster slot 6) s (failJob s.dev cluster b 6 0 0) := by
  unfold Makes
  simp only [exec_jobFail, execJobFail, State.onDev_eq, hb, hstate]
  simp [hpreds, hroot]

/-- Its context halted while it waited on a page fault (R440). -/
theorem jobFail_halted {p : Nat} (hstate : b.state = .paged p) (hhalt : bitOf (ctxWord s.dev b.ctx 0).toNat 63 = false) :
    Makes (.jobFail cluster slot 8) s (failJob s.dev cluster b 8 0 0) := by
  unfold Makes
  simp only [exec_jobFail, execJobFail, State.onDev_eq, hb, hstate]
  simp [hhalt]

/-- Its work meets the finding (R439). -/
theorem jobFail_finding {reason r a : Nat} {d1 : Dev} (hstate : b.state = .issued) (hdrain : b.drain = false)
    (hwork : workOut s.dev cluster b (reason == 5) = (some (r, a), d1)) (hreason : r % 16 = reason) :
    Makes (.jobFail cluster slot reason) s (findFailure d1 cluster b r a) := by
  unfold Makes
  simp only [exec_jobFail, execJobFail, State.onDev_eq, hb, hstate, hdrain, hwork, hreason, Bool.false_eq_true, if_false, if_true]

end

/-- Settles O41, event by event. -/
theorem jobEvents : Obligations.JobEvents := by
  intro s core cluster slot d
  refine ⟨?enter, ?issue, ?share, ?finish, ?fail⟩
  case enter =>
    intro x d1 hx hrelease hcancel j preds
    exact ⟨_, jobEnterQueue_enters hx hrelease, rfl, enterCard_jobs hcancel, enterCard_cards hcancel⟩
  case issue =>
    intro die held b hplaces hcool hchosen hcard htiles d1
    have h := jobIssue_chosen hplaces hcool hchosen
    rw [issueJob_issues ((poisoned_kerfAdmit ..).trans hcard) fun t ht => (tileHeld_kerfAdmit ..).trans (htiles t ht)] at h
    exact h
  case share =>
    intro b x hb hx
    refine ⟨shareComplete_others hb hx, fun hlast => ⟨fun d1 => shareComplete_last hb hx hlast, fun d1 hrun => ?_, fun r a d1 => ?_⟩⟩
    · exact shareComplete_last hb hx hlast (workOut_done hrun)
    · exact shareComplete_fails hb hx hlast
  case finish => exact fun b hlost => ⟨finishJob_wordless hlost, fun d1 => finishJob_stored hlost⟩
  case fail =>
    intro b hb
    exact ⟨jobFail_predecessor hb, fun p => jobFail_halted hb, fun reason r a d1 => jobFail_finding hb⟩

end Sys2Proof.Machine
end

section
/-! PROOF. Migration (R103 to R106, R433). -/

namespace Sys2Proof.Machine

theorem exec_migrationPeriodEnd (slice : Nat) (s : State) : exec (.migrationPeriodEnd slice) s = execMigrationPeriodEnd slice s := rfl
theorem exec_moveSwitch (frame : Nat) (s : State) : exec (.moveSwitch frame) s = execMoveSwitch frame s := rfl
theorem exec_migrationRead (port frame : Nat) (s : State) : exec (.migrationRead port frame) s = execMigrationRead port frame s := rfl
theorem exec_migrationWrite (port frame : Nat) (s : State) : exec (.migrationWrite port frame) s = execMigrationWrite port frame s := rfl

/-! ## The end of a period (R104) -/

/-- A slice's next period begins now. -/
def periodBegun (m : Dev) (slice : Nat) : Dev := { m with periods := AMap.set 0 m.periods slice m.cycle }

section
variable {s : State} {slice : Nat}

theorem periodEnd_early (hearly : s.dev.cycle < periodStart s.dev slice + field s.mgmt.migCfg.toNat 6 0 * 4000000) :
    Makes (.migrationPeriodEnd slice) s s.dev := by
  have hms : s.dev.cycle < periodStart s.dev slice + field s.mgmt.migCfg.toNat 6 0 * ms := hearly
  unfold Makes
  simp only [exec_migrationPeriodEnd, execMigrationPeriodEnd, State.onDev_eq, hms, decide_true, Bool.or_true, if_true]

/-- The period is over: its moves start, but where the slice still moves frames, and its counts close. -/
theorem periodEnd_over (hcounting : s.mgmt.counting = true) (hruns : s.mgmt.runs = true) (hslice : slice < Config.slices)
    (hover : periodStart s.dev slice + field s.mgmt.migCfg.toNat 6 0 * 4000000 ≤ s.dev.cycle) :
    Makes (.migrationPeriodEnd slice) s
      (closePeriod (if s.dev.migr.any fun m => sliceOf m.frame == slice then periodBegun s.dev slice
        else startMoves (periodBegun s.dev slice) slice (field s.mgmt.migCfg.toNat 47 32) (field s.mgmt.migCfg.toNat 31 16)) slice) := by
  have hms : ¬ s.dev.cycle < periodStart s.dev slice + field s.mgmt.migCfg.toNat 6 0 * ms := Nat.not_lt.mpr hover
  unfold Makes
  simp only [exec_migrationPeriodEnd, execMigrationPeriodEnd, State.onDev_eq, hcounting, hruns, Nat.not_le.mpr hslice, hms, decide_false,
    Bool.not_true, Bool.or_self, Bool.false_eq_true, if_false, periodBegun]

end

/-! ## The switch (R106, R433) -/

theorem writeWaits_idle {s : State} (h : bitOf s.mgmt.migReq.toNat 63 = false) (f : Nat) : writeWaits s f = false := by
  simp only [writeWaits, h, Bool.false_and]

theorem moveSwitch_ends {s : State} {frame : Nat} {x : FrameMove} (hx : s.dev.migr.find? (fun x => x.frame == frame) = some x)
    (hidle : bitOf s.mgmt.migReq.toNat 63 = false) : Makes (.moveSwitch frame) s (endMove s.dev x) := by
  unfold Makes
  have hwaits : writeWaits (s.mapDev fun d => endMove d x) (field s.mgmt.migReq.toNat 24 0) = false :=
    writeWaits_idle (s := { s with dev := endMove s.dev x }) hidle _
  simp only [exec_moveSwitch, execMoveSwitch, hx, hwaits, Bool.false_eq_true, if_false]
  rfl

/-! ## The entry block (R105) -/

/-- A write of the request register: `kept` what the register keeps without req, `waiting` the same with req, `f` the frame, and `run` the
write action. -/
def requestWritten (run : State → Nat → State) (s : State) (port : Nat) (kept waiting : DWord) (f : Nat) (req action : Bool) : State :=
  gated s port (some 2) false 0x00040108 fun s =>
    if bitOf s.mgmt.migReq.toNat 63 then s
    else
      let s := s.mapMgmt fun m => { m with migReq := kept }
      if !req then s
      else if !action then s.mapMgmt fun m => { m with migData := indirAt s.dev f }
      else
        let s := s.mapMgmt fun m => { m with migReq := waiting }
        if entMoving (indirAt s.dev f) then s else run s port

/-- The fields of a request that its register keeps (R105). -/
def requestKept (w : Nat) : Nat := putField (putField w 61 25 0) 63 63 0

theorem writeMig_eq (s : State) (port w : Nat) :
    writeMig s port w = requestWritten runWrite s port (BitVec.ofNat 64 (requestKept w)) (BitVec.ofNat 64 (2 ^ 63 + requestKept w)) (field w 24 0)
      (bitOf w 63) (bitOf w 62) := rfl

section
variable {run : State → Nat → State} {s : State} {port f : Nat} {kept waiting : DWord} {req action : Bool}

theorem requestWritten_refused (h : gate s port (some 2) false = .refused) :
    requestWritten run s port kept waiting f req action = { s with dev := discard6A s.dev port 0x00040108 } := by
  simp only [requestWritten, gated, h]

variable (h : gate s port (some 2) false = .taken) (hidle : bitOf s.mgmt.migReq.toNat 63 = false)
include h hidle

theorem requestWritten_read : requestWritten run s port kept waiting f true false =
      { s with mgmt := { s.mgmt with migReq := kept, migData := indirAt s.dev f } } := by
  simp only [requestWritten, gated, h, hidle, Bool.not_true, Bool.not_false, Bool.false_eq_true, if_false, if_true]
  rfl

theorem requestWritten_waits (hmoving : entMoving (indirAt s.dev f) = true) :
    requestWritten run s port kept waiting f true true = { s with mgmt := { s.mgmt with migReq := waiting } } := by
  simp only [requestWritten, gated, h, hidle, Bool.not_true, Bool.false_eq_true, if_false]
  exact if_pos hmoving

theorem requestWritten_runs (hmoving : entMoving (indirAt s.dev f) = false) :
    requestWritten run s port kept waiting f true true = run { s with mgmt := { s.mgmt with migReq := waiting } } port := by
  simp only [requestWritten, gated, h, hidle, Bool.not_true, Bool.false_eq_true, if_false]
  exact if_neg (Bool.eq_false_iff.mp hmoving)

end

/-- A write action carried out at once, for a frame `f` whose entry takes the value. -/
theorem runWrite_taken {s : State} {port f : Nat} {req done : DWord} {d1 : Dev} (hf : field req.toNat 24 0 = f)
    (hdone : BitVec.ofNat 64 (putField req.toNat 63 63 0) = done) (hentry : writeEntry s.dev f s.mgmt.migData = (true, d1)) :
    runWrite { s with mgmt := { s.mgmt with migReq := req } } port = { s with mgmt := { s.mgmt with migReq := done }, dev := d1 } := by
  subst hf hdone
  exact runWrite_eq (s := { s with mgmt := { s.mgmt with migReq := req } }) port hentry

/-! ## The fields of a request (R105) -/

section
variable {f : Nat} (hf : f < 2 ^ 25)
include hf

theorem field_request (a : Nat) : field (2 ^ 62 * a + f) 24 0 = f := by
  simp only [field, Nat.shiftRight_zero]
  omega

theorem bitOf_request_63 (a : Nat) : bitOf (2 ^ 62 * a + f) 63 = decide (a / 2 % 2 = 1) := by
  rw [bitOf, Nat.testBit_eq_decide_div_mod_eq]
  have : (2 ^ 62 * a + f) / 2 ^ 63 = a / 2 := by omega
  rw [this]

theorem bitOf_request_62 (a : Nat) : bitOf (2 ^ 62 * a + f) 62 = decide (a % 2 = 1) := by
  rw [bitOf, Nat.testBit_eq_decide_div_mod_eq]
  have : (2 ^ 62 * a + f) / 2 ^ 62 = a := by omega
  rw [this]

theorem requestKept_request {a : Nat} (ha : a < 4) : requestKept (2 ^ 62 * a + f) = 2 ^ 62 * (a % 2) + f := by
  rw [requestKept, putField_zero _ 61 25 (by decide), putField_zero _ 63 63 (by decide)]
  omega

end

section
variable {s : State} {port frame : Nat} (h : gate s port (some 2) false = .taken) (hidle : bitOf s.mgmt.migReq.toNat 63 = false)
include h hidle

theorem migrationRead_taken : writeMig s port (2 ^ 63 + frame % 2 ^ 25) =
    { s with mgmt := { s.mgmt with migReq := BitVec.ofNat 64 (frame % 2 ^ 25), migData := indirAt s.dev (frame % 2 ^ 25) } } := by
  have hf : frame % 2 ^ 25 < 2 ^ 25 := Nat.mod_lt _ (by decide)
  have hword : 2 ^ 63 + frame % 2 ^ 25 = 2 ^ 62 * 2 + frame % 2 ^ 25 := by omega
  rw [hword, writeMig_eq, bitOf_request_63 hf, bitOf_request_62 hf, requestKept_request hf (by decide), field_request hf]
  exact (requestWritten_read h hidle).trans (by simp only [Nat.mod_self, Nat.mul_zero, Nat.zero_add])

theorem migrationWrite_waits (hmoving : entMoving (indirAt s.dev (frame % 2 ^ 25)) = true) :
    writeMig s port (2 ^ 63 + 2 ^ 62 + frame % 2 ^ 25) =
      { s with mgmt := { s.mgmt with migReq := BitVec.ofNat 64 (2 ^ 63 + 2 ^ 62 + frame % 2 ^ 25) } } := by
  have hf : frame % 2 ^ 25 < 2 ^ 25 := Nat.mod_lt _ (by decide)
  have hword : 2 ^ 63 + 2 ^ 62 + frame % 2 ^ 25 = 2 ^ 62 * 3 + frame % 2 ^ 25 := by omega
  have hnew : 2 ^ 63 + (2 ^ 62 * (3 % 2) + frame % 2 ^ 25) = 2 ^ 62 * 3 + frame % 2 ^ 25 := by omega
  rw [hword, writeMig_eq, bitOf_request_63 hf, bitOf_request_62 hf, requestKept_request hf (by decide), field_request hf, hnew]
  exact requestWritten_waits h hidle hmoving

theorem migrationWrite_taken {d1 : Dev} (hmoving : entMoving (indirAt s.dev (frame % 2 ^ 25)) = false)
    (hentry : writeEntry s.dev (frame % 2 ^ 25) s.mgmt.migData = (true, d1)) :
    writeMig s port (2 ^ 63 + 2 ^ 62 + frame % 2 ^ 25) =
      { s with mgmt := { s.mgmt with migReq := BitVec.ofNat 64 (2 ^ 62 + frame % 2 ^ 25) }, dev := d1 } := by
  have hf : frame % 2 ^ 25 < 2 ^ 25 := Nat.mod_lt _ (by decide)
  have hword : 2 ^ 63 + 2 ^ 62 + frame % 2 ^ 25 = 2 ^ 62 * 3 + frame % 2 ^ 25 := by omega
  have hnew : 2 ^ 63 + (2 ^ 62 * (3 % 2) + frame % 2 ^ 25) = 2 ^ 62 * 3 + frame % 2 ^ 25 := by omega
  have hreq : (BitVec.ofNat 64 (2 ^ 62 * 3 + frame % 2 ^ 25)).toNat = 2 ^ 62 * 3 + frame % 2 ^ 25 := by
    rw [BitVec.toNat_ofNat]
    omega
  have hdone : putField (2 ^ 62 * 3 + frame % 2 ^ 25) 63 63 0 = 2 ^ 62 + frame % 2 ^ 25 := by
    rw [putField_zero _ 63 63 (by decide)]
    omega
  rw [hword, writeMig_eq, bitOf_request_63 hf, bitOf_request_62 hf, requestKept_request hf (by decide), field_request hf, hnew]
  refine (requestWritten_runs h hidle hmoving).trans (runWrite_taken ?_ ?_ hentry)
  · rw [hreq, field_request hf]
  · rw [hreq, hdone]

end

/-- Settles O44, event by event. -/
theorem migrationEvents : Obligations.MigrationEvents := by
  intro s slice frame port d m f
  refine ⟨?period, ?switch, ?taken, ?refused⟩
  case period =>
    intro hcounting hruns hslice
    refine ⟨fun hover => ?_, periodEnd_early⟩
    have hends := periodEnd_over hcounting hruns hslice hover
    refine ⟨fun hbusy => ?_, fun hfree => ?_⟩
    · rw [if_pos (by simpa using hbusy)] at hends
      exact hends
    · rw [if_neg (by simpa using hfree)] at hends
      exact hends
  case switch => exact fun x => moveSwitch_ends
  case taken =>
    intro hgate hidle
    exact ⟨(exec_migrationRead ..).trans (congrArg Host.Outcome.next (migrationRead_taken hgate hidle)),
      fun hmoving => (exec_migrationWrite ..).trans (congrArg Host.Outcome.next (migrationWrite_waits hgate hidle hmoving)),
      fun hmoving d1 hentry => (exec_migrationWrite ..).trans (congrArg Host.Outcome.next (migrationWrite_taken hgate hidle hmoving hentry))⟩
  case refused =>
    intro hgate
    have hrefused : ∀ w, writeMig s port w = { s with dev := discard6A s.dev port 0x00040108 } := fun w => by
      rw [writeMig_eq, requestWritten_refused hgate]
    exact ⟨(exec_migrationRead ..).trans (congrArg Host.Outcome.next (hrefused _)),
      (exec_migrationWrite ..).trans (congrArg Host.Outcome.next (hrefused _))⟩

end Sys2Proof.Machine
end

section
/-! PROOF. Queues, owner entries and the context table (R88, R310, R311, R322, R437, R450). -/

namespace Sys2Proof.Machine

theorem exec_queueEnable (fn : HostFn) (q : Nat) (w : DWord) (s : State) : exec (.queueEnable fn q w) s = execQueueEnable fn q w s := rfl
theorem exec_queueDisable (fn : HostFn) (q : Nat) (w : DWord) (s : State) : exec (.queueDisable fn q w) s = execQueueDisable fn q w s := rfl
theorem exec_queueProgWrite (fn : HostFn) (q : Nat) (v : DWord) (s : State) : exec (.queueProgWrite fn q v) s = execQueueProgWrite fn q v s := rfl
theorem exec_doorbell (fn : HostFn) (q : Nat) (v : DWord) (s : State) : exec (.doorbell fn q v) s = execDoorbell fn q v s := rfl
theorem exec_ownerEntryWrite (port die granule : Nat) (x : Word) (s : State) :
    exec (.ownerEntryWrite port die granule x) s = execOwnerEntryWrite port die granule x s := rfl
theorem exec_contextTableWrite (port ctx word : Nat) (v : DWord) (s : State) :
    exec (.contextTableWrite port ctx word v) s = execContextTableWrite port ctx word v s := rfl

/-! ## Words of a descriptor (R310) -/

theorem bitOf_msb (x : DWord) : bitOf x.toNat 63 = x.msb := by
  rw [bitOf, BitVec.testBit_toNat, BitVec.msb_eq_getLsbD_last]

/-- A descriptor's word 0 with its reserved bits zero. -/
def word0Of (w : DWord) : DWord := w &&& ~~~0x7C0000000#64

theorem word0Of_msb (w : DWord) : (word0Of w).msb = w.msb := by
  rw [word0Of, BitVec.msb_and, show (~~~0x7C0000000#64).msb = true by decide, Bool.and_true]

theorem newWord0_toNat {fn : HostFn} (hfn : fn.fn = 0) (old : Nat) (w : DWord) : newWord0 fn old w.toNat = (word0Of w).toNat := by
  have hword : BitVec.ofNat 64 (putField w.toNat 34 30 0) = word0Of w := by
    rw [ofNat_putField_zero 64 _ 34 30 (by decide), BitVec.ofNat_toNat, BitVec.setWidth_eq]
    rfl
  have hlt : putField w.toNat 34 30 0 < 2 ^ 64 := (putField_zero_le _ _ _).trans_lt w.isLt
  have hpf : isPf fn = true := by simp [isPf, hfn]
  rw [← hword, BitVec.toNat_ofNat, Nat.mod_eq_of_lt hlt, newWord0, if_pos hpf]

/-- The context of a word 0. -/
theorem field_ctx (x : Nat) : field x 44 35 = x / 2 ^ 35 % 1024 := by
  simp [field, Nat.shiftRight_eq_div_pow]

/-- Enabled clear, and nothing else. -/
theorem toNat_enabledClear (x : DWord) : (x &&& 0x7FFFFFFFFFFFFFFF#64).toNat = x.toNat % 2 ^ 63 := by
  rw [BitVec.toNat_and]
  exact Nat.and_two_pow_sub_one_eq_mod x.toNat 63

/-! ## Writes of word 0 (R310, R450) -/

section
variable {s : State} {fn : HostFn} {q : Nat} {w : DWord}
  (hhost : hostOk s fn.port = true) (hopen : s.mgmt.isOpen false = true) (hq : q < Config.queues) (hfn : fn.fn = 0)
  (hsame : (word0Of w).toNat / 2 ^ 45 % 128 = (s.dev.queue q).w0.toNat / 2 ^ 45 % 128)
include hhost hopen hq hfn hsame

/-- A write by the physical function that keeps the queue's core and slot. -/
theorem writeWord0_pf : writeWord0 s fn q w =
    if (s.dev.queue q).w0.msb then
      if (word0Of w).toNat = (s.dev.queue q).w0.toNat || putField (word0Of w).toNat 63 63 1 ≠ (s.dev.queue q).w0.toNat then s
      else { s with dev := stopQueue s.dev q (word0Of w) }
    else if !(word0Of w).msb then { s with dev := s.dev.setQueue q { s.dev.queue q with w0 := word0Of w } }
    else if enableOk s.dev (s.dev.queue q) (word0Of w).toNat then { s with dev := startAgain s.dev q (word0Of w) }
    else { s with dev := report s.dev { cls := 0x62, sev := 0, kind := 5, index := fn.port, ctx := some (field (word0Of w).toNat 44 35),
                                        queue := some q } } := by
  have hreach : reachesQueue s.dev fn q = true := by simp [reachesQueue, isPf, hq, hfn]
  have hfield : field (word0Of w).toNat 51 45 = field (s.dev.queue q).w0.toNat 51 45 := by
    simpa [field, Nat.shiftRight_eq_div_pow] using hsame
  simp only [writeWord0, hhost, hopen, hreach, newWord0_toNat hfn, hfield, bitOf_msb, BitVec.ofNat_toNat, BitVec.setWidth_eq, Bool.not_true,
    Bool.or_self, Bool.false_eq_true, if_false, ne_eq, not_true_eq_false, decide_false, Bool.false_and]

omit hsame in
theorem queueDisable_stops (hold : (s.dev.queue q).w0.msb = true) (hword : word0Of w = (s.dev.queue q).w0 &&& 0x7FFFFFFFFFFFFFFF#64)
    (hclear : w.msb = false) : Makes (.queueDisable fn q w) s (stopQueue s.dev q (word0Of w)) := by
  have hnat : (word0Of w).toNat = (s.dev.queue q).w0.toNat % 2 ^ 63 := by rw [hword, toNat_enabledClear]
  have hset : (s.dev.queue q).w0.toNat / 2 ^ 63 = 1 := by
    have hbit : bitOf (s.dev.queue q).w0.toNat 63 = true := (bitOf_msb _).trans hold
    have hlt := (s.dev.queue q).w0.isLt
    rw [bitOf, Nat.testBit_eq_decide_div_mod_eq, decide_eq_true_eq] at hbit
    omega
  have hback : putField (word0Of w).toNat 63 63 1 = (s.dev.queue q).w0.toNat := by
    rw [hnat]
    simp only [putField, field, Nat.shiftRight_eq_div_pow]
    omega
  have hsame : (word0Of w).toNat / 2 ^ 45 % 128 = (s.dev.queue q).w0.toNat / 2 ^ 45 % 128 := by omega
  have hother : (word0Of w).toNat ≠ (s.dev.queue q).w0.toNat := by omega
  unfold Makes
  rw [exec_queueDisable, execQueueDisable, bitOf_msb, hclear, if_neg Bool.false_ne_true, writeWord0_pf hhost hopen hq hfn hsame, hold]
  simp [hback, hother]

/-- A write that sets enabled is taken where the ring and the context are as they must be (R450). -/
theorem queueEnable_checks (hold : (s.dev.queue q).w0.msb = false) (hset : (word0Of w).msb = true) :
    Makes (.queueEnable fn q w) s
      (if enableOk s.dev (s.dev.queue q) (word0Of w).toNat then startAgain s.dev q (word0Of w)
        else report s.dev { cls := 0x62, sev := 0, kind := 5, index := fn.port, ctx := some (field (word0Of w).toNat 44 35), queue := some q }) := by
  unfold Makes
  rw [exec_queueEnable, execQueueEnable, bitOf_msb, ← word0Of_msb, hset, if_pos rfl, writeWord0_pf hhost hopen hq hfn hsame, hold, hset]
  simp only [Bool.not_true, Bool.false_eq_true, if_false]
  split <;> rfl

end

/-! ## The other writes of a queue (R310, R311) -/

theorem lowWord_put (x : Nat) {tail : Nat} (h : tail < 2 ^ 32) : putField x 31 0 tail = x / 2 ^ 32 * 2 ^ 32 + tail := by
  simp only [putField, field, Nat.shiftRight_zero]
  omega

/-- The tail moved. -/
def doorbellRung (m : Dev) (q tail : Nat) : Dev :=
  m.setQueue q { m.queue q with w3 := BitVec.ofNat 64 ((m.queue q).w3.toNat / 2 ^ 32 * 2 ^ 32 + tail) }

section
variable {s : State} {fn : HostFn} {q : Nat} {v : DWord} (hhost : hostOk s fn.port = true) (hq : q < Config.queues) (hfn : fn.fn = 0)
include hhost hq hfn

theorem queueProgWrite_fresh (hopen : s.mgmt.isOpen false = true) (hdisabled : (s.dev.queue q).enabled = false) :
    Makes (.queueProgWrite fn q v) s (unwatchQueue (s.dev.setQueue q
      { s.dev.queue q with w2 := v, thread := Thread.blank, started := false, exited := false, wait := .none, stopping := false, held := none }) q) := by
  have hpf : isPf fn = true := by simp [isPf, hfn]
  unfold Makes
  simp only [exec_queueProgWrite, execQueueProgWrite, hpf, hhost, hopen, hdisabled, Nat.not_le.mpr hq, decide_false, Bool.not_true, Bool.or_self,
    Bool.false_eq_true, if_false]
  rfl

/-- The doorbell as a physical function writes it. -/
theorem doorbell_pf (hopen : s.mgmt.isOpen true = true) :
    Makes (.doorbell fn q v) s
      (if (s.dev.queue q).ringSize < (v.toNat % 2 ^ 32 + 2 ^ 32 - (s.dev.queue q).head) % 2 ^ 32 then
        report s.dev { cls := 0x63, sev := 0, kind := 5, index := fn.port, ctx := some (s.dev.queue q).ctx, queue := some q }
      else if (s.dev.queue q).wait = .ring ∧ v.toNat % 2 ^ 32 ≠ (s.dev.queue q).head then
        (doorbellRung s.dev q (v.toNat % 2 ^ 32)).readyQueue q
      else doorbellRung s.dev q (v.toNat % 2 ^ 32)) := by
  have hreach : reachesQueue s.dev fn q = true := by simp [reachesQueue, isPf, hq, hfn]
  have htail : v.toNat % 2 ^ 32 < 2 ^ 32 := Nat.mod_lt _ (by decide)
  unfold Makes
  simp only [exec_doorbell, execDoorbell, hhost, hopen, hreach, lowWord_put _ htail, Bool.not_true, Bool.or_self, Bool.false_eq_true, if_false,
    State.mapDev, doorbellRung, Bool.and_eq_true, beq_iff_eq, bne_iff_ne]

end

/-! ## Owner entries (R88) -/

theorem gated_taken {s : State} {port : Nat} {sem : Option Nat} {standby : Bool} (h : gate s port sem standby = .taken) (off : Nat)
    (f : State → State) : gated s port sem standby off f = f s := by
  simp only [gated, h]

/-- An owner entry with its reserved bits zero. -/
theorem ownerWord (x : Word) : BitVec.ofNat 32 (putField x.toNat 27 10 0) = x &&& 0xF00003FF#32 := by
  rw [ofNat_putField_zero 32 _ 27 10 (by decide), BitVec.ofNat_toNat, BitVec.setWidth_eq]
  rfl

theorem ownerWord_toNat (x : Word) : putField x.toNat 27 10 0 = (x &&& 0xF00003FF#32).toNat := by
  have hlt : putField x.toNat 27 10 0 < 2 ^ 32 := (putField_zero_le _ _ _).trans_lt x.isLt
  rw [← ownerWord, BitVec.toNat_ofNat, Nat.mod_eq_of_lt hlt]

theorem bitOf_msb32 (x : Word) : bitOf x.toNat 31 = x.msb := by
  rw [bitOf, BitVec.testBit_toNat, BitVec.msb_eq_getLsbD_last]

/-- The owner entry at a place. -/
def ownerSet (m : Dev) (place : Nat) (new : Word) : Dev := { m with owners := AMap.set 0 m.owners place new }

/-- The granule as a new entry finds it: zeroed where the entry newly gives it to a context. -/
def granuleGiven (m : Dev) (key : Nat) (old new : Word) : Dev :=
  if new.msb = true ∧ (old.msb = false ∨ old.toNat % 1024 ≠ new.toNat % 1024) then zeroGranule m key else m

theorem granuleGiven_eq (m : Dev) (key : Nat) (old new : Word) :
    (if new.msb && (!old.msb || old.toNat % 1024 != new.toNat % 1024) then zeroGranule m key else m) = granuleGiven m key old new := by
  unfold granuleGiven
  exact if_congr (by simp) rfl rfl

theorem ownerEntryWrite_sets {s : State} {port die granule : Nat} {x : Word} (hdie : die < Config.dies) (hgranule : granule < 1023)
    (h : gate s port (some 2) false = .taken) :
    Makes (.ownerEntryWrite port die granule x) s
      (ownerSet (granuleGiven s.dev (scrKey die (granule * 65536)) (ownerEntry s.dev (scrKey die (granule * 65536))) (x &&& 0xF00003FF#32))
        (die * 1024 + granule) (x &&& 0xF00003FF#32)) := by
  have hrange : (decide (Config.dies ≤ die) || decide (1024 ≤ granule)) = false := by
    simp only [Bool.or_eq_false_iff, decide_eq_false_iff_not]
    omega
  unfold Makes
  simp only [exec_ownerEntryWrite, execOwnerEntryWrite, hrange, gated_taken h, ownerWord_toNat, bitOf_msb32, show granule ≠ 1023 by omega,
    BitVec.ofNat_toNat, BitVec.setWidth_eq, Bool.false_eq_true, if_false, State.mapDev, granuleGiven_eq, ownerSet]

/-! ## The context table (R322) -/

theorem ctxMask_plain {word : Nat} (hlow : 0 < word) (hhigh : word < 6) (v : Nat) : ctxMask word v = v := by
  obtain rfl | rfl | rfl | rfl | rfl : word = 1 ∨ word = 2 ∨ word = 3 ∨ word = 4 ∨ word = 5 := by omega
  all_goals rfl

theorem contextTableWrite_sets {s : State} {port ctx word : Nat} {v : DWord} (hctx : ctx < Config.contexts) (hlow : 0 < word) (hhigh : word < 6)
    (h : gate s port (some 2) false = .taken) :
    Makes (.contextTableWrite port ctx word v) s { s.dev with ctxs := AMap.set 0 s.dev.ctxs (ctx * 8 + word) v } := by
  have hrange : (decide (Config.contexts ≤ ctx) || decide (8 ≤ word)) = false := by
    simp only [Bool.or_eq_false_iff, decide_eq_false_iff_not]
    omega
  unfold Makes
  simp only [exec_contextTableWrite, execContextTableWrite, hrange, gated_taken h, ctxMask_plain hlow hhigh, show word ≠ 0 by omega,
    BitVec.ofNat_toNat, BitVec.setWidth_eq, decide_false, Bool.false_and, Bool.false_eq_true, if_false, State.mapDev]

/-- Settles O49, write by write. -/
theorem queueEvents : Obligations.QueueEvents := by
  intro s fn q die granule port ctx word w v x d y reach z same
  refine ⟨?enable, ?disable, ?program, ?doorbell, ?owner, ?context⟩
  case enable =>
    rintro ⟨hhost, hopen, hq, hfn⟩ hsame hold hset
    have h := queueEnable_checks hhost hopen hq hfn hsame hold hset
    refine ⟨fun hok => ?_, fun hbad => ?_⟩
    · rw [if_pos (show enableOk s.dev (s.dev.queue q) (word0Of w).toNat = true from hok)] at h
      exact h
    · rw [if_neg (show ¬ enableOk s.dev (s.dev.queue q) (word0Of w).toNat = true from Bool.eq_false_iff.mp hbad)] at h
      rw [field_ctx] at h
      exact h
  case disable =>
    rintro ⟨hhost, hopen, hq, hfn⟩ hold hword hclear
    exact queueDisable_stops hhost hopen hq hfn hold hword hclear
  case program =>
    rintro ⟨hhost, hopen, hq, hfn⟩ hdisabled
    exact queueProgWrite_fresh hhost hq hfn hopen hdisabled
  case doorbell =>
    intro hhost hopen hq hfn tail moved
    have h := doorbell_pf (v := v) hhost hq hfn hopen
    refine ⟨fun hroom => ?_, fun hfull => ?_⟩
    · rw [if_neg (Nat.not_lt.mpr hroom)] at h
      exact h
    · rw [if_pos hfull] at h
      exact h
  case owner =>
    intro hdie hgranule h
    exact ownerEntryWrite_sets hdie hgranule h
  case context => exact contextTableWrite_sets

end Sys2Proof.Machine
end

section
/-! PROOF. Stores, reductions, commits and returning atomics to glob, as they issue (R96, R211 to R216, R333). -/

namespace Sys2Proof.Machine

/-! ## What issues leaves the bytes of the memories as they are -/

@[simp] theorem acquiring_byteStores (r : TRef) (acq : Bool) (id : Nat) (m : Dev) : (acquiring r acq id m).byteStores = m.byteStores := by
  unfold acquiring
  split <;> rfl

@[simp] theorem awaiting_byteStores (r : TRef) (dest : Option Dest) (v : Option Nat) (mask instr : Nat) (waited : Bool) (m : Dev) :
    (awaiting r dest v mask instr waited m).byteStores = m.byteStores := by
  cases dest <;> rfl

@[simp] theorem requested_byteStores (e : Env) (r : TRef) (ea : Nat) (kind : AccKind) (rel : Option Nat) (acq : Bool) (dest : Option Dest)
    (mask instr : Nat) (m : Dev) : (requested e r ea kind rel acq dest mask instr m).byteStores = m.byteStores := by
  unfold requested
  rw [acquiring_byteStores]
  exact awaiting_byteStores r dest none mask instr false m

section
variable {i : Instr} {s : State} {r : TRef} {e : Env} {t : Team} {g : Group} {n : Nat}

theorem globCheck_passes {ea : Env → Nat} (hap : apertureOf (ea e) = .glob) (haligned : ea e % n = 0) : globCheck n ea e = none := by
  simp [globCheck, hap, haligned]

/-- An instruction of one thread that passes its check, issued once for the run or once for each thread. -/
theorem issueAll_passes {m : Dev} {check : Env → Option Trap} (eff : Env → Who → Dev → Dev) (h : Solo i s r e t g)
    (hstart : startOf i s.dev = m.prepare i) (hcheck : check e = none) : issueAll i check eff m = eff e (.thr r) (startOf i s.dev) := by
  have hi := h.issues
  rw [hstart] at hi ⊢
  rw [issueAll_one _ _ hi h.clear, hcheck, Option.elim_none]

/-! ## Posted accesses (R211, R212, R216) -/

/-- A reduction that counts takes the next ordinal of the thread (R333). -/
def countOrdinal (counts : Bool) (h : Thread) : Thread := if counts then { h with ordinal := (h.ordinal + 1) % 2 ^ 19 } else h

/-- A posted access as it is sent: one request, and the thread's ordinal. -/
def sentPosted (e : Env) (r : TRef) (ea : Nat) (kind : AccKind) (rel : Option Nat) (counts : Bool) (m : Dev) : Dev :=
  (requested e r ea kind rel false none 0 0 m).mapThread r (countOrdinal counts)

/-- A posted access that does not count leaves the thread to its advance alone. -/
theorem sentPosted_uncounted (e : Env) (r : TRef) (ea : Nat) (kind : AccKind) (rel : Option Nat) (m : Dev) :
    sentPosted e r ea kind rel false m = requested e r ea kind rel false none 0 0 m := Dev.touch_id _ r

@[simp] theorem sentPosted_byteStores (e : Env) (r : TRef) (ea : Nat) (kind : AccKind) (rel : Option Nat) (counts : Bool) (m : Dev) :
    (sentPosted e r ea kind rel counts m).byteStores = m.byteStores := by
  simp [sentPosted]

/-- The posted access of one thread whose address passes the check. -/
theorem postRun_does {ea : Env → Nat} {kind : Env → AccKind} {rel : Option Nat} {counts : Bool}
    (hexec : exec i s = s.onDev (postRun i n ea kind rel counts)) (hn : named i = false) (hf : flushes i = false)
    (hs : soloOf i s = some (r, e, t, g)) (hap : apertureOf (ea e) = .glob) (haligned : ea e % n = 0) :
    Does i s fun m => past i r (sentPosted e r (ea e) (kind e) rel counts m) := by
  unfold Does
  rw [hexec, State.onDev_eq, postRun,
    issueAll_passes _ (solo_of_soloOf hs) (startOf_plain i s.dev hn hf) (globCheck_passes hap haligned)]
  cases counts with
  | true => rfl
  | false =>
    simp only [sentPosted_uncounted]
    rfl

/-- No byte changes at issue. -/
theorem postRun_issues {ea : Env → Nat} {kind : Env → AccKind} {rel : Option Nat} {counts : Bool}
    (hexec : exec i s = s.onDev (postRun i n ea kind rel counts)) (hn : named i = false) (hf : flushes i = false)
    (hs : soloOf i s = some (r, e, t, g)) (hap : apertureOf (ea e) = .glob) (haligned : ea e % n = 0) :
    (Does i s fun m => past i r (sentPosted e r (ea e) (kind e) rel counts m)) ∧ ∃ u, exec i s = .next u ∧ sameMemory s.dev u.dev := by
  have hdoes := postRun_does hexec hn hf hs hap haligned
  exact ⟨hdoes, _, hdoes, sameMemory_of_byteStores (by simp [startOf_plain i s.dev hn hf])⟩

/-! ## Returning atomics (R214) -/

/-- What a returning atomic of one thread does, where its address passes the check. -/
theorem atomGRun_issues {op : AtomOp} {ord : MOrder} {sc : Scope} {ty : MType} {d a b : Operand}
    (hexec : exec i s = s.onDev (atomGRun i op ord sc ty d a b)) (hn : named i = true) (hf : flushes i = false)
    (hs : soloOf i s = some (r, e, t, g)) (hap : apertureOf (e.scalar 64 .int a) = .glob) (haligned : e.scalar 64 .int a % tyBytes ty = 0) :
    Issues i s r (requested e r (e.scalar 64 .int a)
      (.atom op ty (e.scalar (8 * tyBytes ty) (Roles.mImm ty) b) (if op = .cas then e.scalar (8 * tyBytes ty) .int d else 0)) (relOf ord sc)
      (acquires ord sc) (if d = .none then none else some (destOf e (Roles.rolesOf i).1 d)) (2 ^ (8 * tyBytes ty) - 1) s.dev.nextId) := by
  unfold Issues Does
  rw [hexec]
  simp only [State.onDev_eq, atomGRun, longRun]
  rw [issueAll_passes _ (solo_of_soloOf hs) (startOf_named hn hf) (globCheck_passes hap haligned)]
  by_cases hnone : d = .none
  · simp only [hnone, if_true]
    rfl
  · simp only [hnone, if_false]
    rfl

end

theorem Issues.keepsMemory {i : Instr} {s : State} {r : TRef} {out : Dev → Dev} (h : Issues i s r out) (hn : named i = true)
    (hf : flushes i = false) (hout : ∀ m, (out m).byteStores = m.byteStores) : ∃ u, exec i s = .next u ∧ sameMemory s.dev u.dev :=
  ⟨_, h, sameMemory_of_byteStores (by simp [hout, startOf_byteStores hn hf])⟩

/-! ## The instructions -/

theorem exec_redGAdd (c ord sc ty d a b) (s : State) :
    exec (.redGAdd c ord sc ty d a b) s = s.onDev (redRun (.redGAdd c ord sc ty d a b) .add ord sc ty d a b) := rfl
theorem exec_redGMin (c ord sc ty d a b) (s : State) :
    exec (.redGMin c ord sc ty d a b) s = s.onDev (redRun (.redGMin c ord sc ty d a b) .min ord sc ty d a b) := rfl
theorem exec_redGMax (c ord sc ty d a b) (s : State) :
    exec (.redGMax c ord sc ty d a b) s = s.onDev (redRun (.redGMax c ord sc ty d a b) .max ord sc ty d a b) := rfl
theorem exec_redGAnd (c ord sc ty d a b) (s : State) :
    exec (.redGAnd c ord sc ty d a b) s = s.onDev (redRun (.redGAnd c ord sc ty d a b) .and ord sc ty d a b) := rfl
theorem exec_redGOr (c ord sc ty d a b) (s : State) :
    exec (.redGOr c ord sc ty d a b) s = s.onDev (redRun (.redGOr c ord sc ty d a b) .or ord sc ty d a b) := rfl
theorem exec_redGXor (c ord sc ty d a b) (s : State) :
    exec (.redGXor c ord sc ty d a b) s = s.onDev (redRun (.redGXor c ord sc ty d a b) .xor ord sc ty d a b) := rfl
theorem exec_redGKahan (c ord sc ty d a b) (s : State) :
    exec (.redGKahan c ord sc ty d a b) s = s.onDev (redRun (.redGKahan c ord sc ty d a b) .kahan ord sc ty d a b) := rfl
theorem exec_redCommit (c ord sc d a b) (s : State) : exec (.redCommit c ord sc d a b) s =
    s.onDev (postRun (.redCommit c ord sc d a b) 128 (fun e => e.ea a b) (fun _ => .commit) (relOf ord sc) false) := rfl
theorem exec_atomGExch (c ord sc ty d a b) (s : State) :
    exec (.atomGExch c ord sc ty d a b) s = s.onDev (atomGRun (.atomGExch c ord sc ty d a b) .exch ord sc ty d a b) := rfl
theorem exec_atomGCas (c ord sc ty d a b) (s : State) :
    exec (.atomGCas c ord sc ty d a b) s = s.onDev (atomGRun (.atomGCas c ord sc ty d a b) .cas ord sc ty d a b) := rfl
theorem exec_atomGAdd (c ord sc ty d a b) (s : State) :
    exec (.atomGAdd c ord sc ty d a b) s = s.onDev (atomGRun (.atomGAdd c ord sc ty d a b) .add ord sc ty d a b) := rfl

theorem fpReduction_add (ty : MType) : fpReduction .add ty = (ty == .f32 || ty == .f64) := Bool.false_or _

/-- Settles O22: each posted access and each returning atomic sends its request, which changes no byte. -/
theorem globRequests : Obligations.GlobRequests := by
  refine ⟨?posted, ?returning⟩
  case posted =>
    intro c w ord sc ty d a b case red
    have reduction : ∀ op i counts, (∀ s, exec i s = s.onDev (redRun i op ord sc ty d a b)) → named i = false → flushes i = false →
        fpReduction op ty = counts → red i op counts := by
      rintro op i _ hexec hn hf rfl s r e t g hs hap haligned
      exact postRun_issues (ea := fun e => e.ea a b) (kind := fun e => .red op ty (e.scalar (8 * tyBytes ty) (Roles.mImm ty) d))
        (hexec s) hn hf hs hap haligned
    refine ⟨?store, reduction .add _ _ (exec_redGAdd c ord sc ty d a b) rfl rfl (fpReduction_add ty),
      reduction .min _ _ (exec_redGMin c ord sc ty d a b) rfl rfl rfl, reduction .max _ _ (exec_redGMax c ord sc ty d a b) rfl rfl rfl,
      reduction .and _ _ (exec_redGAnd c ord sc ty d a b) rfl rfl rfl, reduction .or _ _ (exec_redGOr c ord sc ty d a b) rfl rfl rfl,
      reduction .xor _ _ (exec_redGXor c ord sc ty d a b) rfl rfl rfl, reduction .kahan _ _ (exec_redGKahan c ord sc ty d a b) rfl rfl rfl,
      ?commit⟩
    case store =>
      exact fun s r e t g hs => postRun_issues (ea := fun e => e.ea a b) (kind := fun e => .store (mwBytes w) (storeData e w d))
        (exec_stG c w d a b s) rfl rfl hs
    case commit =>
      exact fun s r e t g hs => postRun_issues (ea := fun e => e.ea a b) (kind := fun _ => .commit)
        (exec_redCommit c ord sc d a b s) rfl rfl hs
  case returning =>
    intro c ord sc ty d a b case
    have atomic : ∀ op i, (∀ s, exec i s = s.onDev (atomGRun i op ord sc ty d a b)) → named i = true → flushes i = false → case op i := by
      intro op i hexec hn hf s r e t g hs n ea hap haligned
      have hissues := atomGRun_issues (hexec s) hn hf hs hap haligned
      exact ⟨hissues, hissues.keepsMemory hn hf (requested_byteStores _ _ _ _ _ _ _ _ _)⟩
    exact ⟨atomic .exch _ (exec_atomGExch c ord sc ty d a b) rfl rfl, atomic .cas _ (exec_atomGCas c ord sc ty d a b) rfl rfl,
      atomic .add _ (exec_atomGAdd c ord sc ty d a b) rfl rfl⟩

end Sys2Proof.Machine
end

section
/-! PROOF. Fences (R53, R111, R112, R116, R217, R218, R332). -/

namespace Sys2Proof.Machine

theorem exec_fence (c ord sc d a b) (s : State) : exec (.fence c ord sc d a b) s = execFence c ord sc d a b s := rfl

/-- A fence is issued after the window of its group is written to the bank (R53). -/
theorem fence_start (c : Ctl) (ord : MOrder) (sc : Scope) (d a b : Operand) (m : Dev) :
    startOf (.fence c ord sc d a b) m =
      (if (issuers m).any fun p => p.2.h.guard c then flushRun m else m).prepare (.fence c ord sc d a b) := rfl

/-- What goes before a fence's release part: with an acquire part, the thread's later accesses follow its reads on their way (R111, R112). -/
def fenceAcquire (ord : MOrder) (sc : Scope) (r : TRef) (m : Dev) : Dev := if acquires ord sc then acquireReads m r (readsOut m r) else m

/-- What a fence of scope `k` releases: it completes once nothing of the thread is outstanding, else the thread parks behind it (R217). -/
def fenceRelease (i : Instr) (r : TRef) (core k : Nat) (m : Dev) : Dev :=
  let x := tryRelease m r core k m.nextId
  if x.1 then past i r x.2 else (past i r x.2).mapThread r fun h => { h with st := .parked (.fence k) }

/-- What a fence does in one thread. -/
def fenceIn (i : Instr) (ord : MOrder) (sc : Scope) (r : TRef) (core : Nat) (m : Dev) : Dev :=
  match relOf ord sc with
  | none => past i r (fenceAcquire ord sc r m)
  | some k => fenceRelease i r core k (fenceAcquire ord sc r m)

section
variable {c : Ctl} {ord : MOrder} {sc : Scope} {d a b : Operand} {s : State}

theorem exec_fence_solo {r : TRef} {e : Env} {t : Team} {g : Group} (hs : soloOf (.fence c ord sc d a b) s = some (r, e, t, g)) :
    Does (.fence c ord sc d a b) s (fenceIn (.fence c ord sc d a b) ord sc r e.core) := by
  have h := solo_of_soloOf hs
  have hi := h.issues
  unfold Does
  rw [fence_start] at hi ⊢
  simp only [exec_fence, execFence, State.onDev_eq]
  rw [eachThread_one _ _ hi h.clear]
  unfold fenceIn
  cases relOf ord sc <;> rfl

theorem exec_fence_queue {q : Nat} {e : Env} (hq : queueOf (.fence c ord sc d a b) s = some (q, e)) :
    Does (.fence c ord sc d a b) s fun m => m.pass (.fence c ord sc d a b) (.que q) := by
  obtain ⟨hi, hclear⟩ := issuers_of_queueOf hq
  unfold Does
  rw [fence_start] at hi ⊢
  simp only [exec_fence, execFence, State.onDev_eq]
  rw [eachThread_one _ _ hi hclear]
  rfl

end

/-! ## What is outstanding before a fence (R116) -/

/-- What stands on its way is no part of the teams. -/
theorem outstandingBefore_teams (m : Dev) (teams : List Team) (r : TRef) (k upto : Nat) :
    outstandingBefore { m with teams := teams } r k upto = outstandingBefore m r k upto := rfl

/-- Readying a fence and its acquire part change nothing but threads. -/
theorem fenceAcquire_start (c : Ctl) (ord : MOrder) (sc : Scope) (d a b : Operand) (r : TRef) (m : Dev) :
    ∃ teams, fenceAcquire ord sc r (startOf (.fence c ord sc d a b) m) = { m with teams := teams } := by
  have hflush : ∃ teams, (if (issuers m).any fun p => p.2.h.guard c then flushRun m else m) = { m with teams := teams } := by
    split
    · unfold flushRun
      split <;> exact ⟨_, rfl⟩
    · exact ⟨_, rfl⟩
  obtain ⟨flushed, hflushed⟩ := hflush
  have hstart : ∃ teams, startOf (.fence c ord sc d a b) m = { m with teams := teams } := by
    rw [fence_start, hflushed]
    unfold Dev.prepare
    split <;> exact ⟨_, rfl⟩
  obtain ⟨started, hstarted⟩ := hstart
  rw [hstarted]
  unfold fenceAcquire
  split <;> exact ⟨_, rfl⟩

/-- So the fence waits for what was outstanding in the machine as it stood. -/
theorem outstanding_at_fence (c : Ctl) (ord : MOrder) (sc : Scope) (d a b : Operand) (r : TRef) (k : Nat) (m : Dev) :
    outstandingBefore (fenceAcquire ord sc r (startOf (.fence c ord sc d a b) m)) r k
      (fenceAcquire ord sc r (startOf (.fence c ord sc d a b) m)).nextId = outstandingBefore m r k m.nextId := by
  obtain ⟨teams, h⟩ := fenceAcquire_start c ord sc d a b r m
  rw [h, outstandingBefore_teams]

section
variable {i : Instr} {r : TRef} {core k : Nat} {m : Dev}

theorem fenceRelease_completes (hnone : outstandingBefore m r k m.nextId = false) :
    fenceRelease i r core k m = past i r (if 5 ≤ k then mergePartials m fun p => p.core == core else m) := by
  simp [fenceRelease, tryRelease, hnone]

theorem fenceRelease_parks (hsome : outstandingBefore m r k m.nextId = true) :
    fenceRelease i r core k m = (past i r m).mapThread r fun h => { h with st := .parked (.fence k) } := by
  simp [fenceRelease, tryRelease, hsome]

end

theorem Does.congr {i : Instr} {s : State} {f out : Dev → Dev} (h : Does i s f) (heq : f (startOf i s.dev) = out (startOf i s.dev)) :
    Does i s out := by
  unfold Does at h ⊢
  rw [h, heq]

/-- Settles O23: an acquire-only fence, one with nothing outstanding, one that waits, and one of a queue thread. -/
theorem fencesComplete : Obligations.FencesComplete := by
  intro c ord sc d a b s i
  refine ⟨?_, fun q e hq => exec_fence_queue hq⟩
  intro r e t g hs acq
  have hdoes := exec_fence_solo hs
  have houtstanding := fun k => outstanding_at_fence c ord sc d a b r k s.dev
  refine ⟨fun hrel => ?acquireOnly, fun k hrel hnone => ?completes, fun k hrel hsome => ?parks⟩
  case acquireOnly => exact hdoes.congr (by rw [fenceIn, hrel]; rfl)
  case completes =>
    refine hdoes.congr ?_
    rw [fenceIn, hrel]
    exact fenceRelease_completes ((houtstanding k).trans hnone)
  case parks =>
    refine hdoes.congr ?_
    rw [fenceIn, hrel]
    exact fenceRelease_parks ((houtstanding k).trans hsome)

end Sys2Proof.Machine
end

section
/-! SUPPORT. From an opcode and a modifier byte to the instruction they stand for: the instruction has that opcode and that byte, so a
slot has no second reading (R138, R141, R153 to R164). -/

namespace Sys2Proof.Laws.Encoding

open Sys2Proof

/-! ## One bit -/

theorem b2n_lt (z : Bool) : b2n z < 2 := by cases z <;> decide

theorem b2n_beq_one (z : Bool) : (b2n z == 1) = z := by cases z <;> rfl

theorem b2n_bit (k : Nat) : b2n (k % 2 == 1) = k % 2 := by
  rcases Nat.mod_two_eq_zero_or_one k with hk | hk <;> simp [hk, b2n]

theorem b2n_one_of_lt {k : Nat} (h : k < 2) : b2n (k == 1) = k := by
  rcases (by omega : k = 0 ∨ k = 1) with rfl | rfl <;> rfl

/-! ## Coded fields: a field reads as the value whose code it holds, and as nothing else -/

theorem IWidth.ofCode_eq_some {n : Nat} {x : IWidth} : IWidth.ofCode n = some x ↔ n = x.code :=
  ⟨by unfold IWidth.ofCode; split <;> rintro ⟨⟩ <;> rfl, by rintro rfl; cases x <;> rfl⟩
theorem FFmt.ofCode_eq_some {n : Nat} {x : FFmt} : FFmt.ofCode n = some x ↔ n = x.code :=
  ⟨by unfold FFmt.ofCode; split <;> rintro ⟨⟩ <;> rfl, by rintro rfl; cases x <;> rfl⟩
theorem Rnd.ofCode_eq_some {n : Nat} {x : Rnd} : Rnd.ofCode n = some x ↔ n = x.code :=
  ⟨by unfold Rnd.ofCode; split <;> rintro ⟨⟩ <;> rfl, by rintro rfl; cases x <;> rfl⟩
theorem Cond.ofCode_eq_some {n : Nat} {x : Cond} : Cond.ofCode n = some x ↔ n = x.code :=
  ⟨by unfold Cond.ofCode; split <;> rintro ⟨⟩ <;> rfl, by rintro rfl; cases x <;> rfl⟩
theorem Shape.ofCode_eq_some {n : Nat} {x : Shape} : Shape.ofCode n = some x ↔ n = x.code :=
  ⟨by unfold Shape.ofCode; split <;> rintro ⟨⟩ <;> rfl, by rintro rfl; cases x <;> rfl⟩
theorem EWidth.ofCode_eq_some {n : Nat} {x : EWidth} : EWidth.ofCode n = some x ↔ n = x.code :=
  ⟨by unfold EWidth.ofCode; split <;> rintro ⟨⟩ <;> rfl, by rintro rfl; cases x <;> rfl⟩
theorem PrngShape.ofCode_eq_some {n : Nat} {x : PrngShape} : PrngShape.ofCode n = some x ↔ n = x.code :=
  ⟨by unfold PrngShape.ofCode; split <;> rintro ⟨⟩ <;> rfl, by rintro rfl; cases x <;> rfl⟩
theorem SfuShape.ofCode_eq_some {n : Nat} {x : SfuShape} : SfuShape.ofCode n = some x ↔ n = x.code :=
  ⟨by unfold SfuShape.ofCode; split <;> rintro ⟨⟩ <;> rfl, by rintro rfl; cases x <;> rfl⟩
theorem CType.ofCode_eq_some {n : Nat} {x : CType} : CType.ofCode n = some x ↔ n = x.code :=
  ⟨by unfold CType.ofCode; split <;> rintro ⟨⟩ <;> rfl, by rintro rfl; cases x <;> rfl⟩
theorem PktSrc.ofCode_eq_some {n : Nat} {x : PktSrc} : PktSrc.ofCode n = some x ↔ n = x.code :=
  ⟨by unfold PktSrc.ofCode; split <;> rintro ⟨⟩ <;> rfl, by rintro rfl; cases x <;> rfl⟩
theorem ShflSize.ofCode_eq_some {n : Nat} {x : ShflSize} : ShflSize.ofCode n = some x ↔ n = x.code :=
  ⟨by unfold ShflSize.ofCode; split <;> rintro ⟨⟩ <;> rfl, by rintro rfl; cases x <;> rfl⟩
theorem ShflMode.ofCode_eq_some {n : Nat} {x : ShflMode} : ShflMode.ofCode n = some x ↔ n = x.code :=
  ⟨by unfold ShflMode.ofCode; split <;> rintro ⟨⟩ <;> rfl, by rintro rfl; cases x <;> rfl⟩
theorem VoteMode.ofCode_eq_some {n : Nat} {x : VoteMode} : VoteMode.ofCode n = some x ↔ n = x.code :=
  ⟨by unfold VoteMode.ofCode; split <;> rintro ⟨⟩ <;> rfl, by rintro rfl; cases x <;> rfl⟩
theorem MatchMode.ofCode_eq_some {n : Nat} {x : MatchMode} : MatchMode.ofCode n = some x ↔ n = x.code :=
  ⟨by unfold MatchMode.ofCode; split <;> rintro ⟨⟩ <;> rfl, by rintro rfl; cases x <;> rfl⟩
theorem ScanOp.ofCode_eq_some {n : Nat} {x : ScanOp} : ScanOp.ofCode n = some x ↔ n = x.code :=
  ⟨by unfold ScanOp.ofCode; split <;> rintro ⟨⟩ <;> rfl, by rintro rfl; cases x <;> rfl⟩
theorem XsetMode.ofCode_eq_some {n : Nat} {x : XsetMode} : XsetMode.ofCode n = some x ↔ n = x.code :=
  ⟨by unfold XsetMode.ofCode; split <;> rintro ⟨⟩ <;> rfl, by rintro rfl; cases x <;> rfl⟩
theorem XgetField.ofCode_eq_some {n : Nat} {x : XgetField} : XgetField.ofCode n = some x ↔ n = x.code :=
  ⟨by unfold XgetField.ofCode; split <;> rintro ⟨⟩ <;> rfl, by rintro rfl; cases x <;> rfl⟩
theorem MOrder.ofCode_eq_some {n : Nat} {x : MOrder} : MOrder.ofCode n = some x ↔ n = x.code :=
  ⟨by unfold MOrder.ofCode; split <;> rintro ⟨⟩ <;> rfl, by rintro rfl; cases x <;> rfl⟩
theorem Scope.ofCode_eq_some {n : Nat} {x : Scope} : Scope.ofCode n = some x ↔ n = x.code :=
  ⟨by unfold Scope.ofCode; split <;> rintro ⟨⟩ <;> rfl, by rintro rfl; cases x <;> rfl⟩
theorem MType.ofCode_eq_some {n : Nat} {x : MType} : MType.ofCode n = some x ↔ n = x.code :=
  ⟨by unfold MType.ofCode; split <;> rintro ⟨⟩ <;> rfl, by rintro rfl; cases x <;> rfl⟩
theorem WaitCmp.ofCode_eq_some {n : Nat} {x : WaitCmp} : WaitCmp.ofCode n = some x ↔ n = x.code :=
  ⟨by unfold WaitCmp.ofCode; split <;> rintro ⟨⟩ <;> rfl, by rintro rfl; cases x <;> rfl⟩
theorem ISat.ofCode_eq_some {n : Nat} {x : ISat} : ISat.ofCode n = some x ↔ n = x.code :=
  ⟨by unfold ISat.ofCode; split <;> rintro ⟨⟩ <;> rfl, by rintro rfl; cases x <;> rfl⟩
theorem File.ofCode_eq_some {n : Nat} {f : File} : File.ofCode n = some f ↔ n = f.code :=
  ⟨by unfold File.ofCode; split <;> rintro ⟨⟩ <;> rfl, by rintro rfl; cases f <;> rfl⟩

/-- The bits of a modifier byte in the layout of R66 are the code of its fields; bits [7:6] are the variant. -/
theorem FpMod.code_of_ofCode {v : Nat} {q : FpMod} (h : FpMod.ofCode v = some q) : v = 64 * (v / 64) + q.code := by
  unfold FpMod.ofCode at h
  obtain ⟨r, hr, rfl⟩ := Option.map_eq_some_iff.mp h
  have hr := Rnd.ofCode_eq_some.mp hr
  simp only [FpMod.code, b2n_bit]
  omega

theorem StexMode.code_of_ofCode {v : Nat} {q : StexMode} (h : StexMode.ofCode v = some q) : v = q.code := by
  unfold StexMode.ofCode at h
  split at h
  · cases h; assumption
  · split at h
    · cases h; assumption
    · split at h <;> cases h
      simp only [StexMode.code, BitVec.toNat_ofNat]
      omega

/-! ## Layouts of the modifier byte -/

/-- `i` is what an opcode, a modifier byte, a control part and three operands stand for: its own fields are these. -/
structure Reads (op m : Nat) (c : Ctl) (d a b : Operand) (i : Instr) : Prop where
  instruction : Roles.isEvent i = false
  opcode : opcodeOf i = op
  modifier : modOf i = m
  ctl : Roles.ctlOf i = c
  operands : Roles.opsOf i = (d, a, b)

/-- The instruction that `o` holds, if any, has the property. -/
def Holding (P : Instr → Prop) (o : Option Instr) : Prop := ∀ i, o = some i → P i

section
variable {α : Type} {P : Instr → Prop} {p : Prop} [Decidable p] {m : Nat}

theorem holding_none : Holding P none := fun _ h => nomatch h

theorem holding_some {i : Instr} (h : P i) : Holding P (some i) := fun _ hj => Option.some.inj hj ▸ h

theorem holding_if {o : Option Instr} (h : p → Holding P o) : Holding P (if p then o else none) := by
  split
  · exact h ‹p›
  · exact holding_none

theorem holding_map {o : Option α} {f : α → Instr} (h : ∀ x, o = some x → P (f x)) : Holding P (o.map f) := by
  cases o with
  | none => exact holding_none
  | some x => exact holding_some (h x rfl)

theorem holding_bind {o : Option α} {f : α → Option Instr} (h : ∀ x, o = some x → Holding P (f x)) : Holding P (o.bind f) := by
  cases o with
  | none => exact holding_none
  | some x => exact h x rfl

theorem holding_noMod {i : Instr} (h : m = 0 → P i) : Holding P (noMod m i) := holding_if fun hm => holding_some (h hm)

theorem holding_flagMod {k : Nat} {f : Bool → Instr} (h0 : m = 0 → P (f false)) (h1 : m = 2 ^ k → P (f true)) :
    Holding P (flagMod m k f) := by
  unfold flagMod
  split
  · exact holding_some (h0 ‹_›)
  · exact holding_if fun hm => holding_some (h1 hm)

theorem holding_fpMod {f : FpMod → Instr} (h : ∀ q, m = q.code → P (f q)) : Holding P (fpMod m 0 f) :=
  holding_if fun hm => holding_map fun q hq => h q (by have := FpMod.code_of_ofCode hq; omega)

theorem holding_fpModBit {f : Bool → FpMod → Instr} (h : ∀ l q, m = 64 * b2n l + q.code → P (f l q)) : Holding P (fpModBit m f) :=
  holding_if fun hm => holding_map fun q hq => h _ q (by rw [b2n_one_of_lt hm]; exact FpMod.code_of_ofCode hq)

theorem holding_memMod {f : MOrder → Scope → MType → Instr}
    (h : ∀ o s t, m = 64 * o.code + 8 * s.code + t.code → P (f o s t)) : Holding P (memMod m f) :=
  holding_bind fun o ho => holding_bind fun s hs => holding_map fun t ht => h o s t (by
    have ho := MOrder.ofCode_eq_some.mp ho
    have hs := Scope.ofCode_eq_some.mp hs
    have ht := MType.ofCode_eq_some.mp ht
    omega)

theorem holding_ordMod {f : MOrder → Scope → Instr} (h : ∀ o s, m = 64 * o.code + 8 * s.code → P (f o s)) : Holding P (ordMod m f) :=
  holding_if fun hm => holding_bind fun o ho => holding_map fun s hs => h o s (by
    have ho := MOrder.ofCode_eq_some.mp ho
    have hs := Scope.ofCode_eq_some.mp hs
    omega)

theorem holding_condMod {f : Bool → Cond → Instr} (h : ∀ z q, m = 8 * b2n z + q.code → P (f z q)) : Holding P (condMod m f) :=
  holding_if fun hm => holding_map fun q hq => h _ q (by
    rw [b2n_one_of_lt (by omega)]
    have hq := Cond.ofCode_eq_some.mp hq
    omega)

/-- An element width in bits [7:6] alone (R158). -/
theorem holding_eWidth {f : EWidth → Instr} (h : ∀ w, m = 64 * w.code → P (f w)) :
    Holding P (if m % 64 = 0 then (EWidth.ofCode (m / 64)).map f else none) :=
  holding_if fun hm => holding_map fun w hw => h w (by have hw := EWidth.ofCode_eq_some.mp hw; omega)

/-- The shape of `sfu` above the fields of R66 (R159). -/
theorem holding_sfu {f : SfuShape → FpMod → Instr} (h : ∀ v q, m = 64 * v.code + q.code → P (f v q)) :
    Holding P ((SfuShape.ofCode (m / 64)).bind fun v => (FpMod.ofCode m).map (f v)) :=
  holding_bind fun v hv => holding_map fun q hq => h v q (by rw [← SfuShape.ofCode_eq_some.mp hv]; exact FpMod.code_of_ofCode hq)

/-- A part number above the fields of R66 (R188, R193). -/
theorem holding_part (hm : m < 256) {f : BitVec 2 → FpMod → Instr} (h : ∀ k q, m = 64 * k.toNat + q.code → P (f k q)) :
    Holding P ((FpMod.ofCode m).map (f (BitVec.ofNat 2 (m / 64)))) :=
  holding_map fun q hq => h _ q (by
    have hq := FpMod.code_of_ofCode hq
    rw [BitVec.toNat_ofNat]
    omega)

end

/-! ## Opcodes, class by class: case `h_k` is row k of the class in the model, and the last one is the opcodes it does not assign -/

section
variable {c : Ctl} {d a b : Operand} {m : Nat}

theorem class0_reads (hm : m < 256) (op : Nat) (w : IWidth) : Holding (Reads (4 * op + w.code) m c d a b) (class0 op w m c d a b) := by
  unfold class0
  split
  case h_1 | h_2 => exact holding_map fun s hs => ⟨rfl, rfl, (ISat.ofCode_eq_some.mp hs).symm, rfl, rfl⟩
  case h_15 => exact holding_some ⟨rfl, rfl, Nat.mod_eq_of_lt hm, rfl, rfl⟩
  case h_23 => exact holding_if fun hm => holding_some ⟨rfl, rfl, Nat.mod_eq_of_lt hm, rfl, rfl⟩
  case h_24 | h_25 => exact holding_if fun _ => holding_map fun q hq => ⟨rfl, rfl, (Cond.ofCode_eq_some.mp hq).symm, rfl, rfl⟩
  case h_26 =>
    refine holding_if fun hm => holding_some ⟨rfl, rfl, ?_, rfl, rfl⟩
    simp only [modOf, BitVec.toNat_ofNat]
    rw [b2n_one_of_lt (by omega)]
    omega
  case h_28 => exact holding_none
  all_goals exact holding_noMod fun hm => ⟨rfl, rfl, hm.symm, rfl, rfl⟩

theorem class1_reads (op : Nat) (f : FFmt) : Holding (Reads (0x100 + 2 * op + f.code) m c d a b) (class1 op f m c d a b) := by
  unfold class1
  split
  case h_6 | h_7 =>
    refine holding_if fun hf => ?_
    subst hf
    exact holding_flagMod (fun hm => ⟨rfl, rfl, hm.symm, rfl, rfl⟩) fun hm => ⟨rfl, rfl, hm.symm, rfl, rfl⟩
  case h_8 => exact holding_condMod fun z q hm => ⟨rfl, rfl, hm.symm, rfl, rfl⟩
  case h_9 =>
    refine holding_if fun hf => ?_
    subst hf
    exact holding_noMod fun hm => ⟨rfl, rfl, hm.symm, rfl, rfl⟩
  case h_10 => exact holding_none
  all_goals exact holding_fpMod fun q hm => ⟨rfl, rfl, hm.symm, rfl, rfl⟩

theorem class2_reads (op : Nat) (sh : Shape) : Holding (Reads (0x200 + 16 * op + sh.code) m c d a b) (class2 op sh m c d a b) := by
  unfold class2
  split
  case h_8 => exact holding_condMod fun z q hm => ⟨rfl, rfl, hm.symm, rfl, rfl⟩
  case h_12 =>
    refine holding_if fun hf => ?_
    subst hf
    exact holding_flagMod (fun hm => ⟨rfl, rfl, hm.symm, rfl, rfl⟩) fun hm => ⟨rfl, rfl, hm.symm, rfl, rfl⟩
  case h_13 => exact holding_none
  all_goals exact holding_fpModBit fun l q hm => ⟨rfl, rfl, hm.symm, rfl, rfl⟩

theorem class3_reads (hm : m < 256) (fn : Nat) : Holding (Reads (0x300 + fn) m c d a b) (class3 fn m c d a b) := by
  unfold class3
  split
  case h_1 => exact holding_noMod fun hm => ⟨rfl, rfl, hm.symm, rfl, rfl⟩
  case h_2 =>
    refine holding_if fun hm => holding_some ⟨rfl, rfl, ?_, rfl, rfl⟩
    simp only [modOf]
    rw [b2n_one_of_lt (by omega), b2n_one_of_lt (by omega)]
    omega
  case h_9 => exact holding_fpMod fun q hm => ⟨rfl, rfl, hm.symm, rfl, rfl⟩
  case h_10 => exact holding_fpModBit fun l q hm => ⟨rfl, rfl, hm.symm, rfl, rfl⟩
  case h_11 => exact holding_part (f := fun k q => .specMueller c k q d a b) hm fun k q hm => ⟨rfl, rfl, hm.symm, rfl, rfl⟩
  case h_12 =>
    refine holding_if fun hm => holding_map fun s hs => ⟨rfl, rfl, ?_, rfl, rfl⟩
    have hs := PrngShape.ofCode_eq_some.mp hs
    simp only [modOf]
    omega
  case h_13 => exact holding_none
  all_goals exact holding_eWidth fun w hm => ⟨rfl, rfl, hm.symm, rfl, rfl⟩

theorem class4_reads (hm : m < 256) (fn : Nat) : Holding (Reads (0x400 + fn) m c d a b) (class4 fn m c d a b) := by
  unfold class4
  split
  case h_13 | h_14 | h_15 | h_16 | h_18 => exact holding_fpMod fun q hm => ⟨rfl, rfl, hm.symm, rfl, rfl⟩
  case h_17 => exact holding_fpModBit fun l q hm => ⟨rfl, rfl, hm.symm, rfl, rfl⟩
  case h_19 =>
    split
    · exact holding_none
    · split
      · refine holding_bind fun t ht => holding_bind fun s hs => holding_fpMod fun q hm => ⟨rfl, ?_, hm.symm, rfl, rfl⟩
        have ht := CType.ofCode_eq_some.mp ht
        have hs := CType.ofCode_eq_some.mp hs
        simp only [opcodeOf]
        omega
      · refine holding_bind fun t ht => holding_bind fun s hs => holding_part (f := fun k q => .cvtPacket c t s k q d a b) hm
          fun k q hm => ⟨rfl, ?_, hm.symm, rfl, rfl⟩
        have ht := Shape.ofCode_eq_some.mp ht
        have hs := PktSrc.ofCode_eq_some.mp hs
        simp only [opcodeOf]
        omega
  all_goals exact holding_sfu fun v q hm => ⟨rfl, rfl, hm.symm, rfl, rfl⟩

theorem class5_reads (fn : Nat) : Holding (Reads (0x500 + fn) m c d a b) (class5 fn m c d a b) := by
  unfold class5
  split
  case h_1 =>
    refine holding_if fun _ => holding_bind fun s hs => holding_map fun q hq => ⟨rfl, rfl, ?_, rfl, rfl⟩
    have hs := ShflSize.ofCode_eq_some.mp hs
    have hq := ShflMode.ofCode_eq_some.mp hq
    simp only [modOf]
    omega
  case h_2 => exact holding_map fun q hq => ⟨rfl, rfl, (VoteMode.ofCode_eq_some.mp hq).symm, rfl, rfl⟩
  case h_3 =>
    refine holding_if fun hm => holding_map fun q hq => ⟨rfl, rfl, ?_, rfl, rfl⟩
    have hq := MatchMode.ofCode_eq_some.mp hq
    simp only [modOf]
    rw [b2n_one_of_lt (by omega)]
    omega
  case h_4 =>
    refine holding_if fun hm => holding_map fun q hq => ⟨rfl, rfl, ?_, rfl, rfl⟩
    have hq := ScanOp.ofCode_eq_some.mp hq
    simp only [modOf]
    rw [b2n_one_of_lt (by omega)]
    omega
  case h_15 => exact holding_none
  all_goals exact holding_noMod fun hm => ⟨rfl, rfl, hm.symm, rfl, rfl⟩

theorem class6_reads (hm : m < 256) (fn : Nat) : Holding (Reads (0x600 + fn) m c d a b) (class6 fn m c d a b) := by
  unfold class6
  split
  case h_1 => exact holding_some ⟨rfl, rfl, Nat.mod_eq_of_lt hm, rfl, rfl⟩
  case h_6 => exact holding_map fun q hq => ⟨rfl, rfl, (XsetMode.ofCode_eq_some.mp hq).symm, rfl, rfl⟩
  case h_7 => exact holding_map fun q hq => ⟨rfl, rfl, (XgetField.ofCode_eq_some.mp hq).symm, rfl, rfl⟩
  case h_8 => exact holding_none
  all_goals exact holding_noMod fun hm => ⟨rfl, rfl, hm.symm, rfl, rfl⟩

theorem class7_reads (fn : Nat) : Holding (Reads (0x700 + fn) m c d a b) (class7 fn m c d a b) := by
  unfold class7
  split
  case h_13 | h_14 | h_15 | h_16 | h_17 | h_18 | h_19 | h_20 => exact holding_memMod fun o s t hm => ⟨rfl, rfl, hm.symm, rfl, rfl⟩
  case h_21 => exact holding_none
  all_goals exact holding_noMod fun hm => ⟨rfl, rfl, hm.symm, rfl, rfl⟩

theorem class8_reads (fn : Nat) : Holding (Reads (0x800 + fn) m c d a b) (class8 fn m c d a b) := by
  unfold class8
  split
  case h_1 | h_2 | h_3 | h_4 | h_5 | h_6 => exact holding_noMod fun hm => ⟨rfl, rfl, hm.symm, rfl, rfl⟩
  case h_17 => exact holding_ordMod fun o s hm => ⟨rfl, rfl, hm.symm, rfl, rfl⟩
  case h_18 => exact holding_none
  all_goals exact holding_memMod fun o s t hm => ⟨rfl, rfl, hm.symm, rfl, rfl⟩

theorem class9_reads (fn : Nat) : Holding (Reads (0x900 + fn) m c d a b) (class9 fn m c d a b) := by
  unfold class9
  split
  case h_1 => exact holding_ordMod fun o s hm => ⟨rfl, rfl, hm.symm, rfl, rfl⟩
  case h_5 => exact holding_flagMod (fun hm => ⟨rfl, rfl, hm.symm, rfl, rfl⟩) fun hm => ⟨rfl, rfl, hm.symm, rfl, rfl⟩
  case h_6 => exact holding_map fun q hq => ⟨rfl, rfl, (WaitCmp.ofCode_eq_some.mp hq).symm, rfl, rfl⟩
  case h_9 => exact holding_none
  all_goals exact holding_noMod fun hm => ⟨rfl, rfl, hm.symm, rfl, rfl⟩

theorem classA_reads (fn : Nat) : Holding (Reads (0xA00 + fn) m c d a b) (classA fn m c d a b) := by
  unfold classA
  split
  case h_1 | h_2 | h_3 | h_4 | h_5 =>
    exact holding_flagMod (fun hm => ⟨rfl, rfl, hm.symm, rfl, rfl⟩) fun hm => ⟨rfl, rfl, hm.symm, rfl, rfl⟩
  case h_18 => exact holding_map fun q hq => ⟨rfl, rfl, (StexMode.code_of_ofCode hq).symm, rfl, rfl⟩
  case h_23 => exact holding_none
  all_goals exact holding_noMod fun hm => ⟨rfl, rfl, hm.symm, rfl, rfl⟩

theorem classB_reads (fn : Nat) : Holding (Reads (0xB00 + fn) m c d a b) (classB fn m c d a b) := by
  unfold classB
  split
  case h_7 => exact holding_none
  all_goals exact holding_noMod fun hm => ⟨rfl, rfl, hm.symm, rfl, rfl⟩

theorem classC_reads (fn : Nat) : Holding (Reads (0xC00 + fn) m c d a b) (classC fn m c d a b) := by
  unfold classC
  split
  case h_3 => exact holding_flagMod (fun hm => ⟨rfl, rfl, hm.symm, rfl, rfl⟩) fun hm => ⟨rfl, rfl, hm.symm, rfl, rfl⟩
  case h_7 => exact holding_none
  all_goals exact holding_noMod fun hm => ⟨rfl, rfl, hm.symm, rfl, rfl⟩

/-- An opcode and a modifier byte are those of the instruction they stand for. -/
theorem instrOf_reads (hm : m < 256) (op : Nat) : Holding (Reads op m c d a b) (instrOf op m c d a b) := by
  have of_class {n : Nat} {o : Option Instr} (hn : n = op) (h : Holding (Reads n m c d a b) o) : Holding (Reads op m c d a b) o := hn ▸ h
  unfold instrOf
  dsimp only
  split
  case h_1 hop => exact holding_bind fun w hw => of_class (by have hw := IWidth.ofCode_eq_some.mp hw; omega) (class0_reads hm _ w)
  case h_2 hop => exact holding_bind fun f hf => of_class (by have hf := FFmt.ofCode_eq_some.mp hf; omega) (class1_reads _ f)
  case h_3 hop => exact holding_bind fun sh hs => of_class (by have hs := Shape.ofCode_eq_some.mp hs; omega) (class2_reads _ sh)
  case h_4 hop => exact of_class (by omega) (class3_reads hm _)
  case h_5 hop => exact of_class (by omega) (class4_reads hm _)
  case h_6 hop => exact of_class (by omega) (class5_reads _)
  case h_7 hop => exact of_class (by omega) (class6_reads hm _)
  case h_8 hop => exact of_class (by omega) (class7_reads _)
  case h_9 hop => exact of_class (by omega) (class8_reads _)
  case h_10 hop => exact of_class (by omega) (class9_reads _)
  case h_11 hop => exact of_class (by omega) (classA_reads _)
  case h_12 hop => exact of_class (by omega) (classB_reads _)
  case h_13 hop => exact of_class (by omega) (classC_reads _)
  case h_14 => exact holding_none

/-- No class above C has an instruction (R153). -/
theorem instrOf_above_classC {op : Nat} (hop : 0xC < op / 256) : instrOf op m c d a b = none := by
  unfold instrOf
  dsimp only
  split
  case h_14 => rfl
  all_goals omega

end

end Sys2Proof.Laws.Encoding
end

section
/-! SUPPORT. Operand fields and slots: the fields put together are read apart again, and those read apart make the slot again (R129 to
R137, R140). -/

namespace Sys2Proof.Laws.Encoding

open Sys2Proof

theorem File.code_lt (f : File) : f.code < 7 := by cases f <;> decide

theorem ofNat_eq_of_mod {n k : Nat} {v : BitVec n} (h : k % 2 ^ n = v.toNat) : BitVec.ofNat n k = v :=
  BitVec.eq_of_toNat_eq (by rw [BitVec.toNat_ofNat, h])

/-! ## Operand fields (R131 to R136) -/

/-- An operand field is read as the operand it was made of; bank 15 means a literal (R133, R135). -/
theorem decodeOperand_encodeOperand {o : Operand} (hbank : ∀ w, o ≠ .cbank 15 w) : decodeOperand (encodeOperand o) = some o := by
  cases o with
  | reg f neg abs i =>
    have hf := File.code_lt f
    have hneg := b2n_lt neg
    have habs := b2n_lt abs
    have hi : i.toNat < 512 := i.isLt
    unfold decodeOperand encodeOperand
    rw [BitVec.toNat_ofNat, Nat.mod_eq_of_lt (by omega)]
    generalize hn : f.code * 2 ^ 17 + b2n neg * 2 ^ 16 + b2n abs * 2 ^ 15 + i.toNat = n
    simp only [show n / 2 ^ 20 = 0 by omega]
    rw [if_neg (by omega), if_neg (by omega), File.ofCode_eq_some.mpr (show n / 2 ^ 17 % 8 = f.code by omega),
      show n / 2 ^ 16 % 2 = b2n neg by omega, show n / 2 ^ 15 % 2 = b2n abs by omega, b2n_beq_one, b2n_beq_one,
      ofNat_eq_of_mod (show n % 2 ^ 9 = i.toNat by omega)]
    rfl
  | ind x off post =>
    have hx : x.toNat < 8 := x.isLt
    have hoff : off.toNat < 64 := off.isLt
    have hpost := b2n_lt post
    unfold decodeOperand encodeOperand
    rw [BitVec.toNat_ofNat, Nat.mod_eq_of_lt (by omega)]
    generalize hn : 2 ^ 20 + x.toNat * 2 ^ 14 + off.toNat * 2 ^ 8 + b2n post * 2 ^ 7 = n
    simp only [show n / 2 ^ 20 = 1 by omega]
    rw [if_neg (by omega), ofNat_eq_of_mod (show n / 2 ^ 14 % 2 ^ 3 = x.toNat by omega),
      ofNat_eq_of_mod (show n / 2 ^ 8 % 2 ^ 6 = off.toNat by omega), show n / 2 ^ 7 % 2 = b2n post by omega, b2n_beq_one]
  | imm v =>
    have hv : v.toNat < 2 ^ 20 := v.isLt
    unfold decodeOperand encodeOperand
    rw [BitVec.toNat_ofNat, Nat.mod_eq_of_lt (by omega)]
    simp only [show (2 * 2 ^ 20 + v.toNat) / 2 ^ 20 = 2 by omega]
    rw [ofNat_eq_of_mod (show (2 * 2 ^ 20 + v.toNat) % 2 ^ 20 = v.toNat by omega)]
  | cbank bank off =>
    have hbank : bank.toNat ≠ 15 := fun h => hbank off ( congrArg (Operand.cbank · off) (BitVec.eq_of_toNat_eq (y := 15#4) h))
    have hb : bank.toNat < 16 := bank.isLt
    have ho : off.toNat < 65536 := off.isLt
    unfold decodeOperand encodeOperand
    rw [BitVec.toNat_ofNat, Nat.mod_eq_of_lt (by omega)]
    generalize hn : 3 * 2 ^ 20 + bank.toNat * 2 ^ 16 + off.toNat = n
    simp only [show n / 2 ^ 20 = 3 by omega]
    rw [if_neg (by omega), ofNat_eq_of_mod (show n / 2 ^ 16 % 2 ^ 4 = bank.toNat by omega),
      ofNat_eq_of_mod (show n % 2 ^ 16 = off.toNat by omega)]
  | lit sel dist =>
    have hs : sel.toNat < 4 := sel.isLt
    have hd : dist.toNat < 8 := dist.isLt
    unfold decodeOperand encodeOperand
    rw [BitVec.toNat_ofNat, Nat.mod_eq_of_lt (by omega)]
    generalize hn : 3 * 2 ^ 20 + 15 * 2 ^ 16 + sel.toNat * 8 + dist.toNat = n
    simp only [show n / 2 ^ 20 = 3 by omega]
    rw [if_pos (by omega), if_neg (by omega), ofNat_eq_of_mod (show n / 8 % 2 ^ 2 = sel.toNat by omega),
      ofNat_eq_of_mod (show n % 2 ^ 3 = dist.toNat by omega)]
  | none => rfl

/-- A field that is read as an operand is the field of that operand. -/
theorem encodeOperand_of_decodeOperand {v : BitVec 22} {o : Operand} (h : decodeOperand v = some o) : encodeOperand o = v := by
  have hv : v.toNat < 2 ^ 22 := v.isLt
  unfold decodeOperand at h
  dsimp only at h
  split at h
  case h_1 =>
    split at h
    · cases h
      exact ofNat_eq_of_mod (by omega)
    · split at h
      · cases h
      · obtain ⟨f, hf, rfl⟩ := Option.map_eq_some_iff.mp h
        have hf := File.ofCode_eq_some.mp hf
        refine ofNat_eq_of_mod ?_
        rw [b2n_bit, b2n_bit, BitVec.toNat_ofNat]
        omega
  case h_2 =>
    split at h <;> cases h
    refine ofNat_eq_of_mod ?_
    rw [b2n_bit, BitVec.toNat_ofNat, BitVec.toNat_ofNat]
    omega
  case h_3 =>
    cases h
    refine ofNat_eq_of_mod ?_
    rw [BitVec.toNat_ofNat]
    omega
  case h_4 h0 h1 h2 =>
    have hclass : v.toNat / 2 ^ 20 = 3 := by
      simp only [imp_false] at h0 h1 h2
      omega
    split at h
    · split at h <;> cases h
      refine ofNat_eq_of_mod ?_
      rw [BitVec.toNat_ofNat, BitVec.toNat_ofNat]
      omega
    · cases h
      refine ofNat_eq_of_mod ?_
      rw [BitVec.toNat_ofNat, BitVec.toNat_ofNat]
      omega

/-! ## Slots (R129, R137, R140) -/

theorem field_eq_div (v hi lo : Nat) : field v hi lo = v / 2 ^ lo % 2 ^ (hi + 1 - lo) := by
  rw [field, Nat.shiftRight_eq_div_pow]

theorem slotField_eq (w : SlotWord) (hi lo : Nat) : slotField w hi lo = w.toNat / 2 ^ lo % 2 ^ (hi + 1 - lo) := field_eq_div ..

section
variable {op m : Nat} {c : Ctl} {d a b : BitVec 22}

/-- Every field of a slot is what was put there. -/
theorem fields_packSlot (hop : op < 2 ^ 12) (hm : m < 2 ^ 8) :
    let w := packSlot op m c d a b
    slotField w 11 0 = op ∧ slotField w 14 12 = c.gpred.toNat ∧ slotField w 15 15 = b2n c.gneg ∧ slotField w 23 16 = m ∧
    slotField w 45 24 = d.toNat ∧ slotField w 67 46 = a.toNat ∧ slotField w 89 68 = b.toNat ∧ slotField w 90 90 = b2n c.switch ∧
    slotField w 92 91 = c.reuse.toNat ∧ slotField w 93 93 = b2n c.yld ∧ slotField w 94 94 = b2n c.uniform ∧ slotField w 95 95 = 0 := by
  have hg : c.gpred.toNat < 8 := c.gpred.isLt
  have hn := b2n_lt c.gneg
  have hd : d.toNat < 2 ^ 22 := d.isLt
  have ha : a.toNat < 2 ^ 22 := a.isLt
  have hb : b.toNat < 2 ^ 22 := b.isLt
  have hs := b2n_lt c.switch
  have hr : c.reuse.toNat < 4 := c.reuse.isLt
  have hy := b2n_lt c.yld
  have hu := b2n_lt c.uniform
  have hw : (packSlot op m c d a b).toNat = op + c.gpred.toNat * 2 ^ 12 + b2n c.gneg * 2 ^ 15 + m * 2 ^ 16 + d.toNat * 2 ^ 24
      + a.toNat * 2 ^ 46 + b.toNat * 2 ^ 68 + b2n c.switch * 2 ^ 90 + c.reuse.toNat * 2 ^ 91 + b2n c.yld * 2 ^ 93
      + b2n c.uniform * 2 ^ 94 := by
    rw [packSlot, BitVec.toNat_ofNat, Nat.mod_eq_of_lt hop, Nat.mod_eq_of_lt hm, Nat.mod_eq_of_lt (by omega)]
  simp only [slotField_eq, hw]
  refine ⟨?_, ?_, ?_, ?_, ?_, ?_, ?_, ?_, ?_, ?_, ?_, ?_⟩
  all_goals omega

theorem decodeCtl_packSlot (hop : op < 2 ^ 12) (hm : m < 2 ^ 8) : decodeCtl (packSlot op m c d a b) = c := by
  obtain ⟨-, hg, hn, -, -, -, -, hs, hr, hy, hu, -⟩ := fields_packSlot (c := c) (d := d) (a := a) (b := b) hop hm
  simp only [decodeCtl, hg, hn, hs, hr, hy, hu, b2n_beq_one, BitVec.ofNat_toNat, BitVec.setWidth_eq]

/-- The fields of a slot whose bit 95 is clear make that slot. -/
theorem packSlot_fields {w : SlotWord} (hres : slotField w 95 95 = 0) :
    packSlot (slotField w 11 0) (slotField w 23 16) (decodeCtl w) (BitVec.ofNat 22 (slotField w 45 24))
      (BitVec.ofNat 22 (slotField w 67 46)) (BitVec.ofNat 22 (slotField w 89 68)) = w := by
  have hw : w.toNat < 2 ^ 96 := w.isLt
  refine ofNat_eq_of_mod ?_
  simp only [slotField_eq] at hres
  simp only [decodeCtl, slotField_eq, BitVec.toNat_ofNat, Nat.reduceAdd, Nat.reduceSub, pow_one, b2n_bit]
  omega

end
end Sys2Proof.Laws.Encoding
end

section
/-! PROOF. Decoding and encoding undo each other (R129 to R141, R153 to R165). -/

namespace Sys2Proof.Laws.Encoding

open Sys2Proof

/-! ## Opcode and modifier byte -/

/-- The fields of every instruction are read as that instruction. -/
theorem instrOf_fields (i : Instr) (h : Roles.isEvent i = false) :
    instrOf (opcodeOf i) (modOf i) (Roles.ctlOf i) (Roles.opsOf i).1 (Roles.opsOf i).2.1 (Roles.opsOf i).2.2 = some i := by
  have read {j : Instr} (hj : Roles.isEvent j = false) (hs : Statement j) :
      instrOf (opcodeOf j) (modOf j) (Roles.ctlOf j) (Roles.opsOf j).1 (Roles.opsOf j).2.1 (Roles.opsOf j).2.2 = some j :=
    hs.elim (fun he => absurd (hj.symm.trans he.1) Bool.false_ne_true) (·.2)
  cases i with
  | add => exact read h (add ..)
  | sub => exact read h (sub ..)
  | mul => exact read h (mul ..)
  | mulHiI => exact read h (mulHiI ..)
  | mulHiN => exact read h (mulHiN ..)
  | mad => exact read h (mad ..)
  | minI => exact read h (minI ..)
  | minN => exact read h (minN ..)
  | maxI => exact read h (maxI ..)
  | maxN => exact read h (maxN ..)
  | shl => exact read h (shl ..)
  | shrN => exact read h (shrN ..)
  | shrI => exact read h (shrI ..)
  | rol => exact read h (rol ..)
  | lop3 => exact read h (lop3 ..)
  | popc => exact read h (popc ..)
  | clz => exact read h (clz ..)
  | ctz => exact read h (ctz ..)
  | brev => exact read h (brev ..)
  | bfeN => exact read h (bfeN ..)
  | bfeI => exact read h (bfeI ..)
  | bfi => exact read h (bfi ..)
  | lea => exact read h (lea ..)
  | cmpI => exact read h (cmpI ..)
  | cmpN => exact read h (cmpN ..)
  | sel => exact read h (sel ..)
  | mov => exact read h (mov ..)
  | addFp => exact read h (addFp ..)
  | subFp => exact read h (subFp ..)
  | mulFp => exact read h (mulFp ..)
  | fmaAcc => exact read h (fmaAcc ..)
  | fmaHor => exact read h (fmaHor ..)
  | minFp => exact read h (minFp ..)
  | maxFp => exact read h (maxFp ..)
  | cmpFp => exact read h (cmpFp ..)
  | classFp => exact read h (classFp ..)
  | addPkt => exact read h (addPkt ..)
  | subPkt => exact read h (subPkt ..)
  | mulPkt => exact read h (mulPkt ..)
  | fmaAccPkt => exact read h (fmaAccPkt ..)
  | fmaHorPkt => exact read h (fmaHorPkt ..)
  | minPkt => exact read h (minPkt ..)
  | maxPkt => exact read h (maxPkt ..)
  | cmpPkt => exact read h (cmpPkt ..)
  | dot => exact read h (dot ..)
  | hsum => exact read h (hsum ..)
  | hmax => exact read h (hmax ..)
  | omse => exact read h (omse ..)
  | pperm => exact read h (pperm ..)
  | plut => exact read h (plut ..)
  | eshl => exact read h (eshl ..)
  | eshr => exact read h (eshr ..)
  | bcast => exact read h (bcast ..)
  | esel => exact read h (esel ..)
  | eins => exact read h (eins ..)
  | eext => exact read h (eext ..)
  | specLerp => exact read h (specLerp ..)
  | specCie => exact read h (specCie ..)
  | specMueller => exact read h (specMueller ..)
  | prng => exact read h (prng ..)
  | sfuRcp => exact read h (sfuRcp ..)
  | sfuRsqrt => exact read h (sfuRsqrt ..)
  | sfuSqrt => exact read h (sfuSqrt ..)
  | sfuExp2 => exact read h (sfuExp2 ..)
  | sfuLog2 => exact read h (sfuLog2 ..)
  | sfuSin => exact read h (sfuSin ..)
  | sfuCos => exact read h (sfuCos ..)
  | sfuTanh => exact read h (sfuTanh ..)
  | sfuSigm => exact read h (sfuSigm ..)
  | sfuErf => exact read h (sfuErf ..)
  | sfuGelu => exact read h (sfuGelu ..)
  | sfuSilu => exact read h (sfuSilu ..)
  | mxqE4M3 => exact read h (mxqE4M3 ..)
  | mxqE5M2 => exact read h (mxqE5M2 ..)
  | mxqE3M2 => exact read h (mxqE3M2 ..)
  | mxqE2M3 => exact read h (mxqE2M3 ..)
  | mxqE2M1 => exact read h (mxqE2M1 ..)
  | mxqI8 => exact read h (mxqI8 ..)
  | cvtScalar => exact read h (cvtScalar ..)
  | cvtPacket => exact read h (cvtPacket ..)
  | shfl => exact read h (shfl ..)
  | vote => exact read h (vote ..)
  | matchV => exact read h (matchV ..)
  | scan => exact read h (scan ..)
  | regroup => exact read h (regroup ..)
  | bra => exact read h (bra ..)
  | brx => exact read h (brx ..)
  | call => exact read h (call ..)
  | ret => exact read h (ret ..)
  | loop => exact read h (loop ..)
  | rep => exact read h (rep ..)
  | exit => exact read h (exit ..)
  | yield => exact read h (yield ..)
  | nop => exact read h (nop ..)
  | plop3 => exact read h (plop3 ..)
  | pget => exact read h (pget ..)
  | pset => exact read h (pset ..)
  | racq => exact read h (racq ..)
  | rrel => exact read h (rrel ..)
  | xset => exact read h (xset ..)
  | xget => exact read h (xget ..)
  | ld => exact read h (ld ..)
  | st => exact read h (st ..)
  | atomExch => exact read h (atomExch ..)
  | atomCas => exact read h (atomCas ..)
  | atomAdd => exact read h (atomAdd ..)
  | atomMin => exact read h (atomMin ..)
  | atomMax => exact read h (atomMax ..)
  | atomAnd => exact read h (atomAnd ..)
  | atomOr => exact read h (atomOr ..)
  | atomXor => exact read h (atomXor ..)
  | stG => exact read h (stG ..)
  | redGAdd => exact read h (redGAdd ..)
  | redGMin => exact read h (redGMin ..)
  | redGMax => exact read h (redGMax ..)
  | redGAnd => exact read h (redGAnd ..)
  | redGOr => exact read h (redGOr ..)
  | redGXor => exact read h (redGXor ..)
  | redGKahan => exact read h (redGKahan ..)
  | atomGExch => exact read h (atomGExch ..)
  | atomGCas => exact read h (atomGCas ..)
  | atomGAdd => exact read h (atomGAdd ..)
  | redCommit => exact read h (redCommit ..)
  | fence => exact read h (fence ..)
  | barTeam => exact read h (barTeam ..)
  | barPair => exact read h (barPair ..)
  | barClu => exact read h (barClu ..)
  | barSys => exact read h (barSys ..)
  | wait => exact read h (wait ..)
  | qpush => exact read h (qpush ..)
  | qpop => exact read h (qpop ..)
  | jpostCopy => exact read h (jpostCopy ..)
  | jpostGather => exact read h (jpostGather ..)
  | jpostMma => exact read h (jpostMma ..)
  | jpostMmaGather => exact read h (jpostMmaGather ..)
  | jpostEpilogue => exact read h (jpostEpilogue ..)
  | jwait => exact read h (jwait ..)
  | jtest => exact read h (jtest ..)
  | jcancel => exact read h (jcancel ..)
  | hstore => exact read h (hstore ..)
  | hload => exact read h (hload ..)
  | tacq => exact read h (tacq ..)
  | trel => exact read h (trel ..)
  | tstat => exact read h (tstat ..)
  | tld => exact read h (tld ..)
  | tst => exact read h (tst ..)
  | trace => exact read h (trace ..)
  | traceResume => exact read h (traceResume ..)
  | stex => exact read h (stex ..)
  | shcProbe => exact read h (shcProbe ..)
  | shcFill => exact read h (shcFill ..)
  | collArm => exact read h (collArm ..)
  | collReady => exact read h (collReady ..)
  | dtime => exact read h (dtime ..)
  | sysr => exact read h (sysr ..)
  | sysw => exact read h (sysw ..)
  | trap => exact read h (trap ..)
  | tret => exact read h (tret ..)
  | brk => exact read h (brk ..)
  | launch => exact read h (launch ..)
  | semWaitGe => exact read h (semWaitGe ..)
  | semSig => exact read h (semSig ..)
  | ttrig => exact read h (ttrig ..)
  | intr => exact read h (intr ..)
  | qnext => exact read h (qnext ..)
  | _ => nomatch h

/-! ## The modifier byte is one byte (R129, R138) -/

theorem ISat.code_lt (s : ISat) : s.code < 256 := by cases s <;> decide
theorem Cond.code_lt (q : Cond) : q.code < 8 := by cases q <;> decide
theorem EWidth.code_lt (w : EWidth) : w.code < 4 := by cases w <;> decide
theorem PrngShape.code_lt (v : PrngShape) : v.code < 4 := by cases v <;> decide
theorem SfuShape.code_lt (v : SfuShape) : v.code < 4 := by cases v <;> decide
theorem ShflSize.code_lt (v : ShflSize) : v.code < 3 := by cases v <;> decide
theorem ShflMode.code_lt (q : ShflMode) : q.code < 4 := by cases q <;> decide
theorem VoteMode.code_lt (q : VoteMode) : q.code < 256 := by cases q <;> decide
theorem MatchMode.code_lt (q : MatchMode) : q.code < 3 := by cases q <;> decide
theorem ScanOp.code_lt (q : ScanOp) : q.code < 8 := by cases q <;> decide
theorem XsetMode.code_lt (q : XsetMode) : q.code < 256 := by cases q <;> decide
theorem XgetField.code_lt (q : XgetField) : q.code < 256 := by cases q <;> decide
theorem WaitCmp.code_lt (q : WaitCmp) : q.code < 256 := by cases q <;> decide
theorem MOrder.code_lt (o : MOrder) : o.code < 4 := by cases o <;> decide
theorem Scope.code_lt (s : Scope) : s.code < 8 := by cases s <;> decide
theorem MType.code_lt (t : MType) : t.code < 8 := by cases t <;> decide

theorem StexMode.code_lt (v : StexMode) : v.code < 256 := by
  cases v with
  | spec | up => decide
  | mueller p q =>
    have hp := p.isLt
    have hq := q.isLt
    simp only [StexMode.code]
    omega

theorem flag_lt {k : Nat} (hk : k < 256) (z : Bool) : k * b2n z < 256 := by
  cases z
  · exact Nat.pos_of_ne_zero (by decide)
  · rwa [b2n, if_pos rfl, Nat.mul_one]

/-- A variant in bits [7:6] over what is below them. -/
theorem variant_lt {k v : Nat} (hk : k < 4) (hv : v < 64) : 64 * k + v < 256 := by omega

theorem bitVariant_lt (z : Bool) (q : FpMod) : 64 * b2n z + q.code < 256 := variant_lt ((b2n_lt z).trans (by decide)) (fp_lt q)

theorem memCode_lt (o : MOrder) (s : Scope) (t : MType) : 64 * o.code + 8 * s.code + t.code < 256 := by
  have ho := MOrder.code_lt o
  have hs := Scope.code_lt s
  have ht := MType.code_lt t
  omega

theorem modOf_lt (i : Instr) : modOf i < 256 := by
  cases i
  case add | sub => exact ISat.code_lt _
  case lop3 tab _ _ _ | plop3 tab _ _ _ => exact tab.isLt
  case lea k _ _ _ => exact k.isLt.trans (by decide)
  case cmpI | cmpN => exact (Cond.code_lt _).trans (by decide)
  case sel np k _ _ _ =>
    have hk := k.isLt
    have hnp := b2n_lt np
    simp only [modOf]
    omega
  case addFp | subFp | mulFp | fmaAcc | fmaHor | specLerp | mxqE4M3 | mxqE5M2 | mxqE3M2 | mxqE2M3 | mxqI8 | cvtScalar =>
    exact (fp_lt _).trans (by decide)
  case cmpFp z q _ _ _ | cmpPkt z q _ _ _ =>
    have hq := Cond.code_lt q
    have hz := b2n_lt z
    simp only [modOf]
    omega
  case addPkt | subPkt | mulPkt | fmaAccPkt | fmaHorPkt | minPkt | maxPkt | dot | hsum | hmax | specCie | mxqE2M1 => exact bitVariant_lt _ _
  case minFp | maxFp | omse | barSys => exact flag_lt (by decide) _
  case jpostCopy | jpostGather | jpostMma | jpostMmaGather | jpostEpilogue | semSig => exact (b2n_lt _).trans (by decide)
  case plut y z _ _ _ =>
    have hy := b2n_lt y
    have hz := b2n_lt z
    simp only [modOf]
    omega
  case eshl | eshr | bcast | esel | eins | eext => exact variant_lt (EWidth.code_lt _) (Nat.zero_lt_succ _)
  case prng => exact variant_lt (PrngShape.code_lt _) (Nat.zero_lt_succ _)
  case specMueller k q _ _ _ | cvtPacket k q _ _ _ => exact variant_lt k.isLt (fp_lt q)
  case sfuRcp | sfuRsqrt | sfuSqrt | sfuExp2 | sfuLog2 | sfuSin | sfuCos | sfuTanh | sfuSigm | sfuErf | sfuGelu | sfuSilu =>
    exact variant_lt (SfuShape.code_lt _) (fp_lt _)
  case shfl y z _ _ _ =>
    have hy := ShflSize.code_lt y
    have hz := ShflMode.code_lt z
    simp only [modOf]
    omega
  case vote => exact VoteMode.code_lt _
  case matchV y z _ _ _ =>
    have hy := b2n_lt y
    have hz := MatchMode.code_lt z
    simp only [modOf]
    omega
  case scan y z _ _ _ =>
    have hy := b2n_lt y
    have hz := ScanOp.code_lt z
    simp only [modOf]
    omega
  case xset => exact XsetMode.code_lt _
  case xget => exact XgetField.code_lt _
  case wait => exact WaitCmp.code_lt _
  case atomExch | atomCas | atomAdd | atomMin | atomMax | atomAnd | atomOr | atomXor | redGAdd | redGMin | redGMax | redGAnd | redGOr | redGXor
      | redGKahan | atomGExch | atomGCas | atomGAdd => exact memCode_lt _ _ _
  case redCommit o s _ _ _ | fence o s _ _ _ => exact memCode_lt o s .b32
  case stex => exact StexMode.code_lt _
  all_goals exact Nat.zero_lt_succ _

/-- An instruction's opcode lies in classes 0 to C (R153). -/
theorem opcodeOf_lt (i : Instr) (h : Roles.isEvent i = false) : opcodeOf i < 0xD00 := by
  by_contra hop
  have hread := instrOf_fields i h
  rw [instrOf_above_classC (by omega)] at hread
  cases hread

/-- No role accepts the constant bank 15, whose field means a literal (R133, R135). -/
theorem ne_bank15_of_accepts {r : Roles.Role} {o : Operand} (h : Roles.accepts r o = true) (w : BitVec 16) : o ≠ .cbank 15 w := by
  rintro rfl
  cases r <;> simp [Roles.accepts] at h

/-- What a slot that decodes holds: no reserved bit, three operands, and a well-formed instruction of its opcode and modifier byte. -/
theorem decode_eq_ok {w : SlotWord} {i : Instr} (h : decode w = .ok i) :
    slotField w 95 95 = 0 ∧ i.wellFormed = true ∧ ∃ d a b, decodeOperand (BitVec.ofNat 22 (slotField w 45 24)) = some d ∧
      decodeOperand (BitVec.ofNat 22 (slotField w 67 46)) = some a ∧ decodeOperand (BitVec.ofNat 22 (slotField w 89 68)) = some b ∧
      instrOf (slotField w 11 0) (slotField w 23 16) (decodeCtl w) d a b = some i := by
  have hbit : slotField w 95 95 < 2 := by
    rw [slotField_eq]
    exact Nat.mod_lt _ (by decide)
  unfold decode at h
  split at h
  · cases h
  · split at h
    · cases h
    · split at h
      · split at h
        · split at h
          · cases h
            exact ⟨by omega, ‹_›, _, _, _, ‹_›, ‹_›, ‹_›, ‹_›⟩
          · cases h
        · cases h
      · cases h

/-- A slot that holds these, and whose opcode is not the literal one, decodes. -/
theorem decode_ok {w : SlotWord} {i : Instr} {d a b : Operand} (hlit : slotField w 11 0 ≠ 0xFFF) (hres : slotField w 95 95 = 0)
    (hd : decodeOperand (BitVec.ofNat 22 (slotField w 45 24)) = some d) (ha : decodeOperand (BitVec.ofNat 22 (slotField w 67 46)) = some a)
    (hb : decodeOperand (BitVec.ofNat 22 (slotField w 89 68)) = some b)
    (hi : instrOf (slotField w 11 0) (slotField w 23 16) (decodeCtl w) d a b = some i) (hwf : i.wellFormed = true) : decode w = .ok i := by
  have hliteral : isLiteral w = false := by rw [isLiteral, beq_false_of_ne hlit, Bool.false_and]
  have hres' : slotField w 95 95 ≠ 1 := by omega
  simp only [decode, hliteral, Bool.false_eq_true, if_false, if_neg hres', hd, ha, hb, hi, hwf, if_true]

/-- Settles O54: the fields of a slot are those put there, and they are read as the instruction they came from. -/
theorem decodeAfterEncode : Obligations.DecodeAfterEncode := by
  intro i hi
  obtain ⟨hwf, hevent⟩ : i.wellFormed = true ∧ Roles.isEvent i = false := by simpa [Instr.encodable] using hi
  obtain ⟨hD, hA, hB⟩ := Machine.wellFormed_accepts i hwf
  have hclass := opcodeOf_lt i hevent
  have hop : opcodeOf i < 2 ^ 12 := hclass.trans (by decide)
  have hread {o : Operand} {r : Roles.Role} (h : Roles.accepts r o = true) :
      decodeOperand (BitVec.ofNat 22 (encodeOperand o).toNat) = some o := by
    rw [BitVec.ofNat_toNat, BitVec.setWidth_eq, decodeOperand_encodeOperand (ne_bank15_of_accepts h)]
  obtain ⟨hop', -, -, hmod', hd, ha, hb, -, -, -, -, hres⟩ := fields_packSlot (c := Roles.ctlOf i) (d := encodeOperand (Roles.opsOf i).1)
    (a := encodeOperand (Roles.opsOf i).2.1) (b := encodeOperand (Roles.opsOf i).2.2) hop (modOf_lt i)
  unfold encode
  refine decode_ok ?_ hres (by rw [hd, hread hD]) (by rw [ha, hread hA]) (by rw [hb, hread hB]) ?_ hwf
  · rw [hop']
    omega
  · rw [hop', hmod', decodeCtl_packSlot hop (modOf_lt i), instrOf_fields i hevent]

theorem decode_literal {w : SlotWord} (h : isLiteral w = true) : decode w = .error .literalSlot := by rw [decode, if_pos h]

/-- A slot is refused wherever it decodes to no instruction. -/
theorem decode_error {w : SlotWord} (h : ∀ i, decode w ≠ .ok i) : ∃ x, decode w = .error x := by
  cases hw : decode w with
  | ok i => exact absurd hw (h i)
  | error x => exact ⟨x, rfl⟩

theorem modifier_lt (w : SlotWord) : slotField w 23 16 < 256 := Nat.mod_lt _ (by decide)

theorem encode_of_decode {w : SlotWord} {i : Instr} (h : decode w = .ok i) : i.encodable = true ∧ encode i = w := by
  obtain ⟨hres, hwf, d, a, b, hd, ha, hb, hi⟩ := decode_eq_ok h
  obtain ⟨hevent, hop, hmod, hctl, hops⟩ := instrOf_reads (modifier_lt w) _ i hi
  refine ⟨by simp [Instr.encodable, hwf, hevent], ?_⟩
  simp only [encode, hop, hmod, hctl, hops, encodeOperand_of_decodeOperand hd, encodeOperand_of_decodeOperand ha,
    encodeOperand_of_decodeOperand hb]
  exact packSlot_fields hres

/-- A field of a slot as its extracted bits. -/
theorem slotField_extractLsb' (w : SlotWord) (hi lo : Nat) : slotField w hi lo = (w.extractLsb' lo (hi + 1 - lo)).toNat := by
  rw [slotField, field, BitVec.extractLsb'_toNat]

/-- A class above C, as a mask of the opcode shows it (R153). -/
theorem classC_lt_of_mask {v : BitVec 12} (h : 0xC00#12 < v &&& 0xF00#12) : 0xC < v.toNat / 256 := by
  have hlow : (v.toNat &&& 0xF00) % 256 = 0 := by rw [show 256 = 2 ^ 8 from rfl, Nat.and_mod_two_pow]; exact Nat.and_zero _
  have hhigh : (v.toNat &&& 0xF00) / 256 ≤ v.toNat / 256 := by
    rw [show 256 = 2 ^ 8 from rfl, Nat.and_div_two_pow]
    exact Nat.and_le_left
  have h : 0xC00 < v.toNat &&& 0xF00 := by simpa [BitVec.lt_def] using h
  omega

/-- Settles O55: what a slot decodes to has that slot's fields, and the refused slots decode to nothing. -/
theorem encodeAfterDecode : Obligations.EncodeAfterDecode := by
  refine ⟨fun w i h => encode_of_decode h, fun w => ⟨?literal, ?reserved, ?above⟩⟩
  case literal =>
    rintro ⟨hop, hhigh⟩
    refine decode_literal ?_
    rw [isLiteral, slotField_extractLsb', slotField_extractLsb', hop, hhigh]
    rfl
  case reserved =>
    intro hmsb
    refine decode_error fun i h => ?_
    obtain ⟨hres, -⟩ := decode_eq_ok h
    have hw : w.toNat < 2 ^ 96 := w.isLt
    rw [slotField_eq] at hres
    rw [BitVec.msb_eq_decide, decide_eq_true_eq] at hmsb
    omega
  case above =>
    intro hclass
    refine decode_error fun i h => ?_
    obtain ⟨-, -, d, a, b, -, -, -, hi⟩ := decode_eq_ok h
    rw [instrOf_above_classC (by rw [slotField_extractLsb']; exact classC_lt_of_mask hclass)] at hi
    cases hi

/-- Settles O56: eighteen slots, each read field by field. -/
theorem decodeExamples : Obligations.DecodeExamples := by
  refine ⟨?_, ?_, ?_, ?_, ?_, ?_, ?_, ?_, ?_, ?_, ?_, ?_, ?_, ?_, ?_, ?_, ?_, ?_⟩
  all_goals rfl

end Sys2Proof.Laws.Encoding
end

section
/-! PROOF. Sums, products and extremes of integers (R171, R173). -/

namespace Sys2Proof.Machine

/-! ## Integer results as bit vectors -/

section
variable {n : Nat}

theorem widthBits_pos (w : IWidth) : 0 < widthBits w := by cases w <;> decide

theorem ofInt_satInt_unsigned_add (x y : Nat) :
    BitVec.ofInt n (satInt .unsigned n ((x : Int) + y)) = BitVec.ofNat n (min (x + y) (2 ^ n - 1)) := by
  have hn : 0 < 2 ^ n := Nat.two_pow_pos n
  have h : satInt .unsigned n ((x : Int) + y) = ((min (x + y) (2 ^ n - 1) : Nat) : Int) := by
    simp only [satInt]
    omega
  rw [h, BitVec.ofInt_natCast]

theorem ofInt_satInt_unsigned_sub {x : Nat} (y : Nat) (hx : x < 2 ^ n) :
    BitVec.ofInt n (satInt .unsigned n ((x : Int) - y)) = BitVec.ofNat n (x - y) := by
  have h : satInt .unsigned n ((x : Int) - y) = ((x - y : Nat) : Int) := by
    simp only [satInt]
    omega
  rw [h, BitVec.ofInt_natCast]

/-- The high half of a product held in 2n bits is that of the product itself. -/
theorem ofNat_wrapInt_high (x : Int) : BitVec.ofNat n (wrapInt x (2 * n) / 2 ^ n) = BitVec.ofInt n (x / 2 ^ n) := by
  have hdiv : x % (2 ^ n * 2 ^ n) / 2 ^ n = x / 2 ^ n % 2 ^ n := by
    rw [Int.emod_def x, Int.emod_def (x / 2 ^ n), Int.mul_assoc, Int.sub_mul_ediv_left _ _ (by positivity),
      Int.ediv_ediv_of_nonneg (by positivity)]
  have hcast : ((wrapInt x (2 * n) / 2 ^ n : Nat) : Int) = x / 2 ^ n % 2 ^ n := by
    have hnonneg : 0 ≤ x % ((2 ^ (2 * n) : Nat) : Int) := Int.emod_nonneg x (by positivity)
    rw [← hdiv, wrapInt, Int.natCast_ediv, Int.toNat_of_nonneg hnonneg]
    push_cast
    rw [Nat.two_mul, pow_add]
  rw [← BitVec.ofInt_natCast, hcast]
  exact BitVec.eq_of_toNat_eq (by simp [BitVec.toNat_ofInt])

theorem ofInt_natCast_sub (x y : Nat) : BitVec.ofInt n ((x : Int) - y) = BitVec.ofNat n x - BitVec.ofNat n y := by
  rw [BitVec.eq_sub_iff_add_eq, ← BitVec.ofInt_natCast, ← BitVec.ofInt_add, Int.sub_add_cancel, BitVec.ofInt_natCast]

theorem ofNat_add_shifted (x y k : Nat) : BitVec.ofNat n (x + y * 2 ^ k) = BitVec.ofNat n x + BitVec.ofNat n y <<< k :=
  BitVec.eq_of_toNat_eq (by simp [Nat.shiftLeft_eq])

theorem ult_ofNat {x y : Nat} (hx : x < 2 ^ n) (hy : y < 2 ^ n) :
    (BitVec.ofNat n x).ult (BitVec.ofNat n y) = decide (x < y) := by
  rw [BitVec.ult, BitVec.toNat_ofNat, BitVec.toNat_ofNat, Nat.mod_eq_of_lt hx, Nat.mod_eq_of_lt hy]

theorem ofNat_min {x y : Nat} (hx : x < 2 ^ n) (hy : y < 2 ^ n) :
    BitVec.ofNat n (min x y) = if (BitVec.ofNat n y).ult (BitVec.ofNat n x) then BitVec.ofNat n y else BitVec.ofNat n x := by
  rw [ult_ofNat hy hx]
  simp only [decide_eq_true_eq]
  split
  · rw [Nat.min_eq_right (by omega)]
  · rw [Nat.min_eq_left (by omega)]

theorem ofNat_max {x y : Nat} (hx : x < 2 ^ n) (hy : y < 2 ^ n) :
    BitVec.ofNat n (max x y) = if (BitVec.ofNat n x).ult (BitVec.ofNat n y) then BitVec.ofNat n y else BitVec.ofNat n x := by
  rw [ult_ofNat hx hy]
  simp only [decide_eq_true_eq]
  split
  · rw [Nat.max_eq_right (by omega)]
  · rw [Nat.max_eq_left (by omega)]

/-- An integer instruction completes with its result modulo 2^n. -/
theorem computes_intOut {i : Instr} {g : Env → Nat} {f : Env → BitVec n}
    (hx : ∀ s, exec i s = s.onDev (aluRun i fun e => intOut n (g e))) (hf : ∀ e, BitVec.ofNat n (g e) = f e)
    (hD : isDestRole (Roles.rolesOf i).1 = true := by rfl) : Computes i fun e => bvOut (f e) :=
  computes_of_result hx (fun e => by rw [intOut_eq_bvOut, hf]) (hD := hD)

/-- The same, where the model wraps a signed number. -/
theorem computes_wrapInt {i : Instr} {g : Env → Int} {f : Env → BitVec n}
    (hx : ∀ s, exec i s = s.onDev (aluRun i fun e => intOut n (wrapInt (g e) n))) (hf : ∀ e, BitVec.ofInt n (g e) = f e)
    (hD : isDestRole (Roles.rolesOf i).1 = true := by rfl) : Computes i fun e => bvOut (f e) :=
  computes_of_result hx (fun e => by rw [intOut_wrapInt, hf]) (hD := hD)

end

/-- Settles O1: each result of the model, a number, is the one of n-bit arithmetic. -/
theorem integerArithmetic : Obligations.IntegerArithmetic := by
  intro c w d a b n
  have hbv (e : Env) (o : Operand) : (e.bv n o).toNat = e.scalar n .int o := e.bv_toNat (widthBits_pos w) o
  have hint (e : Env) (o : Operand) : ((e.bv n o).toInt) = sext (e.scalar n .int o) n := (sext_eq_toInt _ _).symm
  have hlt (e : Env) (o : Operand) : e.scalar n .int o < 2 ^ n := e.scalar_lt (widthBits_pos w) .int o
  refine ⟨?addWrap, ?addSigned, ?addUnsigned, ?subWrap, ?subSigned, ?subUnsigned, ?mul, ?mulHiI, ?mulHiN, ?mad, ?minI, ?minN, ?maxI, ?maxN,
    fun k => ?lea⟩
  case addWrap =>
    refine computes_wrapInt (fun _ => rfl) fun e => ?_
    simp only [satInt, satRead, BitVec.ofInt_add, BitVec.ofInt_natCast]
    rfl
  case subWrap => exact computes_wrapInt (fun _ => rfl) fun e => ofInt_natCast_sub _ _
  case addSigned | subSigned =>
    refine computes_wrapInt (fun _ => rfl) fun e => ?_
    rw [ofInt_satInt_signed, hint, hint]
    rfl
  case addUnsigned => exact computes_wrapInt (fun _ => rfl) fun e => by rw [hbv, hbv]; exact ofInt_satInt_unsigned_add _ _
  case subUnsigned => exact computes_wrapInt (fun _ => rfl) fun e => by rw [hbv, hbv]; exact ofInt_satInt_unsigned_sub _ (hlt e a)
  case mul => exact computes_intOut (fun _ => rfl) fun e => BitVec.ofNat_mul _ _
  case mulHiI => exact computes_intOut (fun _ => rfl) fun e => by rw [hint, hint]; exact ofNat_wrapInt_high _
  case mulHiN => exact computes_intOut (fun _ => rfl) fun e => by rw [hbv, hbv]; rfl
  case mad => exact computes_intOut (fun _ => rfl) fun e => (BitVec.ofNat_add _ _).trans (congrArg (· + e.bv n d) (BitVec.ofNat_mul _ _))
  case minI | maxI =>
    refine computes_intOut (fun _ => rfl) fun e => ?_
    rw [intLt_eq_bv, apply_ite (BitVec.ofNat n)]
    rfl
  case minN => exact computes_intOut (fun _ => rfl) fun e => ofNat_min (hlt e a) (hlt e b)
  case maxN => exact computes_intOut (fun _ => rfl) fun e => ofNat_max (hlt e a) (hlt e b)
  case lea => exact computes_intOut (fun _ => rfl) fun e => ofNat_add_shifted _ _ _

end Sys2Proof.Machine
end

section
/-! PROOF. `launch` of a queue thread (R148 to R152, R283, R284, R449). -/

namespace Sys2Proof.Machine

theorem exec_launch (c : Ctl) (d a b : Operand) (s : State) : exec (.launch c d a b) s = execLaunch c d a b s := rfl

/-! ## A queue thread's instruction -/

/-- The queue thread that executes reads the machine as it stands, and its instruction is its trap or its effect there. -/
theorem eachThread_queue {i : Instr} {s : State} {q : Nat} {e : Env} (check : Env → Option Trap) (eff : Env → Who → Dev → Dev)
    (hn : named i = false) (hf : flushes i = false) (hq : queueOf i s = some (q, e)) :
    e.d = s.dev ∧ eachThread i check eff s.dev = (check e).elim (eff e (.que q) s.dev) (s.dev.trap (.que q)) := by
  obtain ⟨hi, hclear⟩ := issuers_of_queueOf hq
  have hstart := startOf_plain i s.dev hn hf
  obtain ⟨⟨lits, w, hcur⟩, hd, -⟩ := issuers_que (by rw [hi]; exact List.mem_singleton_self (Who.que q, e))
  rw [startOf_cur hf] at hcur
  rw [hstart] at hi hd
  rw [prepare_queue hcur] at hd
  refine ⟨hd, ?_⟩
  rw [eachThread_one _ _ hi hclear, prepare_queue hcur]

/-! ## The checks of a launch (R449) -/

section
variable {d : Dev} {e : Env} {q ea : Nat} {l : List Nat} {stopped : Bool}

/-- Whether an end semaphore's granule is the queue's context's (R283). -/
def endSemOk (d : Dev) (e : Env) (off : Nat) : Bool :=
  match dieOffset e.die off with
  | some p => granuleOk d e.ctx true (scrKey p.1 p.2)
  | none => false

/-- A record that breaks R283 refuses the launch with reason 1. -/
theorem launchRecord_refuses {n : Nat} (hrec : recordBad l (endSemOk d e) = some n) :
    launchRecord d e q ea l stopped = refuseLaunch d e q ea 1 n (l.getD n 0) := by
  unfold launchRecord
  dsimp only
  split
  · rename_i heq
    cases heq.symm.trans hrec
    rfl
  · rename_i heq
    cases heq.symm.trans hrec

/-- A record and a descriptor that pass every check, whose words and banks are read, make the grid. -/
theorem launchRecord_makes {d1 d2 : Dev} {ws : List Nat} {m : Memory} (hrec : recordBad l (endSemOk d e) = none)
    (hctx : bitOf (ctxWord d e.ctx 0).toNat 63 = true) (hread : readWords e.ctx (queueRec e q 0 2) (l.getD 0 0) 128 d = (some ws, d1))
    (hsave : largestSave (kernelOf ws) ≤ field (ctxWord d1 e.ctx 6).toNat 63 32) (hdesc : descriptorBad ws = none)
    (hswizzle : (kernelOf ws).curve = 3 → swizzleOk (kernelOf ws).swizzle = true) (hregions : regionsBad ws (kernelOf ws).tmem = none)
    (hdie : (kernelOf ws).affinity = none ∨ stopped = false)
    (hbanks : readBanks e.ctx (queueRec e q 0 2) ws 0 15 [] d1 = (some m, d2)) :
    launchRecord d e q ea l stopped = makeGrid d2 q l { kernelOf ws with bankData := m } := by
  have hcurve : (decide ((kernelOf ws).curve = 3) && !swizzleOk (kernelOf ws).swizzle) = false := by
    by_cases h : (kernelOf ws).curve = 3
    · rw [hswizzle h, Bool.not_true, Bool.and_false]
    · rw [decide_eq_false h, Bool.false_and]
  have haffinity : ((kernelOf ws).affinity.isSome && stopped) = false := by
    rcases hdie with h | h <;> simp [h]
  unfold launchRecord
  dsimp only
  split
  · rename_i heq
    cases heq.symm.trans hrec
  simp only [hctx, hread, Nat.not_lt.mpr hsave, hdesc, hcurve, hregions, haffinity, hbanks, Bool.not_true, Bool.false_eq_true, if_false]

end

/-! ## What a launch leaves -/

theorem Queue.park_of_running {v : Queue} {w : QWait} (h : v.stopping = false) : v.park w = { v with wait := w } :=
  if_neg (by rw [h]; exact Bool.false_ne_true)

/-- The issue of a `launch` whose record lies in a granule of the context and is not poisoned. -/
theorem launch_makes {c : Ctl} {d a b : Operand} {s : State} {q k : Nat} {e : Env} (hq : queueOf (.launch c d a b) s = some (q, e))
    (hword : queueWord e 64 (e.scalar 64 .int a) = some k) (hgran : granuleOk s.dev e.ctx true k = true)
    (hclean : poisoned s.dev 1 k 64 = false) :
    Makes (.launch c d a b) s (launchRecord s.dev e q (e.scalar 64 .int a) ((List.range 8).map fun j => Memory.readN s.dev.scr (k + 8 * j) 8)
      (s.mgmt.power == .stopped)) := by
  obtain ⟨hd, hrun⟩ := eachThread_queue (i := .launch c d a b) (queueCheck 64 fun e => e.scalar 64 .int a) _ rfl rfl hq
  have hcheck : queueCheck 64 (fun e => e.scalar 64 .int a) e = none := by
    unfold queueCheck
    simp only [hword, hd, hgran, if_true]
  unfold Makes
  rw [exec_launch, execLaunch, State.onDev_eq]
  dsimp only
  rw [hrun, hcheck, Option.elim_none]
  simp only [hword, hclean, Bool.false_eq_true, if_false]

/-- Settles O36: the checks that pass leave the new grid, and a bad record word refuses the launch. -/
theorem launchMakesGrid : Obligations.LaunchMakesGrid := by
  intro c d a b s q e k i ea sem l hq hword hgran hclean
  have hlaunch := launch_makes hq hword hgran hclean
  refine ⟨?makes, ?refuses⟩
  case makes =>
    intro d1 d2 ws m kern hrec hctx hread hsave hdesc hswizzle hregions hdie hbanks hstop v u
    have hdie' : kern.affinity = none ∨ (s.mgmt.power == .stopped) = false := hdie.imp_right beq_false_of_ne
    rw [launchRecord_makes hrec hctx hread hsave hdesc hswizzle hregions hdie' hbanks] at hlaunch
    have hgrid : makeGrid d2 q l { kern with bankData := m } = u.setQueue q { v with launches := v.launches + 1, wait := .grid d2.nextId } := by
      simp only [makeGrid, Laws.Encoding.field_eq_div, pow_zero, Nat.div_one]
      rw [Queue.park_of_running (v := { v with launches := v.launches + 1 }) hstop]
      rfl
    rwa [hgrid] at hlaunch
  case refuses =>
    intro n hrec v
    rw [launchRecord_refuses hrec, refuseLaunch, clearEnabled_eq] at hlaunch
    exact hlaunch

end Sys2Proof.Machine
end

section
/-! SUPPORT. Shifts, single bits and bit fields of numbers as those of bit vectors (R138, R171, R172). -/

namespace Sys2Proof.Machine

section
variable {n x : Nat}

/-! ## Bits and powers of two -/

theorem getLsbD_ofNat_of_lt (v : Nat) {j : Nat} (hj : j < n) : (BitVec.ofNat n v).getLsbD j = bitOf v j := by
  rw [BitVec.getLsbD_ofNat, decide_eq_true hj, Bool.true_and, bitOf]

theorem getMsbD_ofNat_of_lt (v : Nat) {j : Nat} (hj : j < n) : (BitVec.ofNat n v).getMsbD j = bitOf v (n - 1 - j) := by
  rw [BitVec.getMsbD_eq_getLsbD, decide_eq_true hj, Bool.true_and, getLsbD_ofNat_of_lt _ (by omega)]

theorem msb_ofNat_eq_bitOf (m v : Nat) : (BitVec.ofNat (m + 1) v).msb = bitOf v m :=
  (BitVec.msb_eq_getLsbD_last _).trans (getLsbD_ofNat_of_lt v (Nat.lt_succ_self m))

theorem ofNat_mul_two_pow (c : Nat) : BitVec.ofNat n (x * 2 ^ c) = BitVec.ofNat n x <<< c :=
  BitVec.eq_of_toNat_eq (by simp [Nat.shiftLeft_eq])

theorem ofNat_div_two_pow (hx : x < 2 ^ n) (c : Nat) : BitVec.ofNat n (x / 2 ^ c) = BitVec.ofNat n x >>> c := by
  refine BitVec.eq_of_toNat_eq ?_
  rw [BitVec.toNat_ushiftRight, BitVec.toNat_ofNat, BitVec.toNat_ofNat, Nat.mod_eq_of_lt hx, Nat.shiftRight_eq_div_pow,
    Nat.mod_eq_of_lt ((Nat.div_le_self _ _).trans_lt hx)]

/-! ## Shifts and rotation (R171) -/

theorem ofNat_shifted_left (c : Nat) : BitVec.ofNat n (if n ≤ c then 0 else x * 2 ^ c) = BitVec.ofNat n x <<< c := by
  split
  · next h => exact (BitVec.shiftLeft_eq_zero h).symm
  · exact ofNat_mul_two_pow c

theorem ofNat_shifted_right (hx : x < 2 ^ n) (c : Nat) : BitVec.ofNat n (if n ≤ c then 0 else x / 2 ^ c) = BitVec.ofNat n x >>> c := by
  split
  · next h => exact (BitVec.ushiftRight_eq_zero h).symm
  · exact ofNat_div_two_pow hx c

/-- A signed shift by n or more gives the sign everywhere, as one by n does. -/
theorem sshiftRight_min (v : BitVec n) (c : Nat) : v.sshiftRight (min n c) = v.sshiftRight c := by
  rcases Nat.le_total n c with h | h
  · refine BitVec.eq_of_getLsbD_eq fun j hj => ?_
    rw [BitVec.getLsbD_sshiftRight, BitVec.getLsbD_sshiftRight, if_neg (by omega), if_neg (by omega)]
  · rw [Nat.min_eq_right h]

theorem ofInt_shifted_right (c : Nat) :
    BitVec.ofInt n (sext x n / ((2 ^ min n c : Nat) : Int)) = (BitVec.ofNat n x).sshiftRight c := by
  rw [sext_eq_toInt, ← Int.shiftRight_eq_div_pow, ← BitVec.sshiftRight_eq, sshiftRight_min]

/-- The two parts of a rotated value share no bit. -/
theorem ofNat_rotl (hx : x < 2 ^ n) (c : Nat) : BitVec.ofNat n (rotl n x c) = (BitVec.ofNat n x).rotateLeft c := by
  have hapart : BitVec.ofNat n x <<< (c % n) &&& BitVec.ofNat n x >>> (n - c % n) = 0#n := by
    refine BitVec.eq_of_getLsbD_eq fun j hj => ?_
    rw [BitVec.getLsbD_and, BitVec.getLsbD_shiftLeft, BitVec.getLsbD_ushiftRight, BitVec.getLsbD_zero]
    by_cases h : j < c % n
    · simp [h]
    · rw [BitVec.getLsbD_of_ge _ (n - c % n + j) (by omega), Bool.and_false]
  have hmod : BitVec.ofNat n (rotl n x c) = BitVec.ofNat n (x * 2 ^ (c % n) + x / 2 ^ (n - c % n)) :=
    BitVec.eq_of_toNat_eq (by simp [rotl])
  rw [hmod, BitVec.ofNat_add, ofNat_mul_two_pow, ofNat_div_two_pow hx, BitVec.rotateLeft_def, BitVec.add_eq_or_of_and_eq_zero _ _ hapart]

/-! ## Numbers made bit by bit: truth tables and reversal (R138, R171) -/

theorem bitsOf_lt (f : Nat → Bool) (n : Nat) : bitsOf f n < 2 ^ n := by
  induction n with
  | zero => exact Nat.one_pos
  | succ n ih =>
    rw [bitsOf, Nat.pow_succ]
    cases f n <;> simp only [b2n, Bool.false_eq_true, if_false, if_true] <;> omega

theorem testBit_bitsOf (f : Nat → Bool) (j : Nat) : ∀ n, (bitsOf f n).testBit j = (decide (j < n) && f j) := by
  intro n
  induction n with
  | zero => simp [bitsOf]
  | succ n ih =>
    have hsum : bitsOf f (n + 1) = 2 ^ n * b2n (f n) + bitsOf f n := by rw [bitsOf, Nat.add_comm, Nat.mul_comm]
    rw [hsum, Nat.testBit_two_pow_mul_add _ (bitsOf_lt f n), ih]
    rcases Nat.lt_trichotomy j n with h | rfl | h
    · simp [h, Nat.lt_succ_of_lt h]
    · cases hj : f j <;> simp [b2n]
    · have hout : (b2n (f n)).testBit (j - n) = false :=
        Nat.testBit_lt_two_pow (lt_of_le_of_lt (show b2n (f n) ≤ 1 by cases f n <;> decide) (Nat.one_lt_two_pow (by omega)))
      simp [Nat.not_lt.mpr h.le, hout, show ¬ j < n + 1 by omega]

theorem getLsbD_ofNat_bitsOf (f : Nat → Bool) {j : Nat} (hj : j < n) : (BitVec.ofNat n (bitsOf f n)).getLsbD j = f j := by
  rw [getLsbD_ofNat_of_lt _ hj, bitOf, testBit_bitsOf, decide_eq_true hj, Bool.true_and]

theorem getLsbD_foldl_or {m : Nat} (p : Nat → Bool) (f : Nat → BitVec m) (j : Nat) (l : List Nat) : ∀ acc : BitVec m,
    (l.foldl (fun acc t => if p t then acc ||| f t else acc) acc).getLsbD j = (acc.getLsbD j || l.any fun t => p t && (f t).getLsbD j) := by
  induction l with
  | nil => intro acc; simp
  | cons t r ih =>
    intro acc
    rw [List.foldl_cons, ih, List.any_cons]
    cases p t <;> simp [Bool.or_assoc]

/-- A truth table works on each bit by itself (R138). -/
theorem getLsbD_minterms (tab : Byte) (d a b : BitVec n) {j : Nat} (hj : j < n) :
    (minterms tab d a b).getLsbD j =
      (minterms tab (BitVec.ofBool (d.getLsbD j)) (BitVec.ofBool (a.getLsbD j)) (BitVec.ofBool (b.getLsbD j))).getLsbD 0 := by
  have hbit (q : Bool) (v : BitVec n) : (if q then v else ~~~v).getLsbD j =
      (if q then BitVec.ofBool (v.getLsbD j) else ~~~BitVec.ofBool (v.getLsbD j)).getLsbD 0 := by
    cases q <;> cases hv : v.getLsbD j <;> simp [-BitVec.getLsbD_eq_getElem, hv, hj]
  simp only [minterms, getLsbD_foldl_or, BitVec.getLsbD_and, hbit, BitVec.ofNat_eq_ofNat, BitVec.getLsbD_zero]

theorem ofNat_lutBits (tab : Byte) (d a b : Nat) :
    BitVec.ofNat n (bitsOf (fun k => lutBit tab (bitOf d k) (bitOf a k) (bitOf b k)) n) =
      minterms tab (BitVec.ofNat n d) (BitVec.ofNat n a) (BitVec.ofNat n b) := by
  refine BitVec.eq_of_getLsbD_eq fun j hj => ?_
  rw [getLsbD_ofNat_bitsOf _ hj, getLsbD_minterms _ _ _ _ hj, getLsbD_ofNat_of_lt d hj, getLsbD_ofNat_of_lt a hj, getLsbD_ofNat_of_lt b hj,
    lutBit_eq_minterms]

theorem ofNat_reversed : BitVec.ofNat n (bitsOf (fun k => bitOf x (n - 1 - k)) n) = (BitVec.ofNat n x).reverse := by
  refine BitVec.eq_of_getLsbD_eq fun j hj => ?_
  rw [getLsbD_ofNat_bitsOf _ hj, BitVec.getLsbD_reverse, getMsbD_ofNat_of_lt _ hj]

/-! ## Counts of bits (R171) -/

theorem popCount_eq (x n : Nat) : popCount x n = ((List.range n).filter fun k => (BitVec.ofNat n x).getLsbD k).length := by
  have hcount : ∀ m, popCount x m = ((List.range m).filter fun k => bitOf x k).length := by
    intro m
    induction m with
    | zero => rfl
    | succ m ih =>
      rw [popCount, ih, List.range_succ, List.filter_append, List.length_append]
      cases h : bitOf x m <;> simp [b2n, h]
  rw [hcount]
  exact congrArg List.length (List.filter_congr fun k hk => (getLsbD_ofNat_of_lt x (List.mem_range.mp hk)).symm)

theorem trailZeros_eq_find (x : Nat) (k : Nat) : ∀ i, trailZeros x k i = ((List.range' i k).find? fun j => bitOf x j).getD (i + k) := by
  induction k with
  | zero => intro i; rfl
  | succ k ih =>
    intro i
    rw [trailZeros, List.range'_succ, List.find?_cons]
    cases bitOf x i with
    | true => rfl
    | false => rw [if_neg Bool.false_ne_true, ih, Nat.add_right_comm, Nat.add_assoc]

theorem trailZeros_eq (x n : Nat) : trailZeros x n 0 = (((List.range n).find? fun k => (BitVec.ofNat n x).getLsbD k).getD n) := by
  rw [trailZeros_eq_find, ← List.range_eq_range', Nat.zero_add]
  exact congrArg (Option.getD · n) (List.find?_congr fun k hk => (getLsbD_ofNat_of_lt x (List.mem_range.mp hk)).symm)

/-- The leading one of a value that is not zero is bit `log2`. -/
theorem leadZeros_eq (hx : x < 2 ^ n) : leadZeros n x = ((List.range n).find? fun k => (BitVec.ofNat n x).getMsbD k).getD n := by
  unfold leadZeros
  split
  · next h =>
    have hnone : ((List.range n).find? fun k => (BitVec.ofNat n x).getMsbD k) = none := by
      refine List.find?_eq_none.mpr fun k hk => ?_
      rw [getMsbD_ofNat_of_lt x (List.mem_range.mp hk), h, bitOf, Nat.zero_testBit]
      exact Bool.false_ne_true
    rw [hnone, Option.getD_none]
  · next h =>
    have hlog : x.log2 < n := (Nat.log2_lt h).mpr hx
    have hfirst : ((List.range n).find? fun k => (BitVec.ofNat n x).getMsbD k) = some (n - 1 - x.log2) := by
      refine List.find?_range_eq_some.mpr ⟨?_, List.mem_range.mpr (by omega), fun k hk => ?_⟩
      · rw [getMsbD_ofNat_of_lt x (by omega), show n - 1 - (n - 1 - x.log2) = x.log2 by omega]
        exact Nat.testBit_log2 h
      · rw [getMsbD_ofNat_of_lt x (by omega), bitOf,
          Nat.testBit_lt_two_pow (Nat.lt_log2_self.trans_le (Nat.pow_le_pow_right (by decide) (by omega)))]
        rfl
    rw [hfirst, Option.getD_some]

/-! ## Bit fields (R172) -/

theorem fieldSpec_eq (n b : Nat) : fieldSpec n b = (fieldPos n b, fieldLen n b) := by
  have hlen : field b 15 8 = b / 256 % 256 := Laws.Encoding.field_eq_div ..
  simp only [fieldSpec, fieldPos, fieldLen, hlen]
  rfl

theorem extracted_toNat (hx : x < 2 ^ n) (p l : Nat) : ((BitVec.ofNat n x).extractLsb' p l).toNat = x / 2 ^ p % 2 ^ l := by
  rw [BitVec.extractLsb'_toNat, BitVec.toNat_ofNat, Nat.mod_eq_of_lt hx, Nat.shiftRight_eq_div_pow]

theorem ofNat_bfe_unsigned (hx : x < 2 ^ n) (b : Nat) :
    BitVec.ofNat n (bfe false n x b) = ((BitVec.ofNat n x).extractLsb' (fieldPos n b) (fieldLen n b)).setWidth n := by
  rw [← BitVec.ofNat_toNat, extracted_toNat hx]
  simp only [bfe, fieldSpec_eq, Bool.false_eq_true, if_false]
  split
  · next h => rw [h, Nat.pow_zero, Nat.mod_one]
  · rfl

theorem ofNat_bfe_signed (hx : x < 2 ^ n) (b : Nat) :
    BitVec.ofNat n (bfe true n x b) = ((BitVec.ofNat n x).extractLsb' (fieldPos n b) (fieldLen n b)).signExtend n := by
  have hfield : BitVec.ofNat (fieldLen n b) (x / 2 ^ fieldPos n b % 2 ^ fieldLen n b) =
      (BitVec.ofNat n x).extractLsb' (fieldPos n b) (fieldLen n b) := by
    rw [← extracted_toNat hx, BitVec.ofNat_toNat, BitVec.setWidth_eq]
  rw [BitVec.signExtend, ← hfield, ← sext_eq_toInt]
  simp only [bfe, fieldSpec_eq, if_true]
  split
  · next h => simp [h, sext, Nat.mod_one]
  · rw [ofNat_wrapInt, BitVec.setWidth_eq]

/-- The bits of a value with a field put into it. -/
theorem testBit_putField (v f j : Nat) {hi lo : Nat} (h : lo ≤ hi) :
    (putField v hi lo f).testBit j = if lo ≤ j ∧ j ≤ hi then f.testBit (j - lo) else v.testBit j := by
  have hlow : v % 2 ^ lo < 2 ^ lo := Nat.mod_lt _ (by positivity)
  have hwidth : 2 ^ (hi + 1) = 2 ^ (hi + 1 - lo) * 2 ^ lo := by rw [← Nat.pow_add]; congr 1; omega
  have hf : f % 2 ^ (hi + 1 - lo) < 2 ^ (hi + 1 - lo) := Nat.mod_lt _ (by positivity)
  have hmid : 2 ^ lo * (f % 2 ^ (hi + 1 - lo)) + v % 2 ^ lo < 2 ^ (hi + 1) := by
    calc 2 ^ lo * (f % 2 ^ (hi + 1 - lo)) + v % 2 ^ lo
      _ < 2 ^ lo * (f % 2 ^ (hi + 1 - lo) + 1) := by rw [Nat.mul_succ]; omega
      _ ≤ 2 ^ lo * 2 ^ (hi + 1 - lo) := Nat.mul_le_mul_left _ hf
      _ = 2 ^ (hi + 1) := by rw [hwidth, Nat.mul_comm]
  have hsplit : putField v hi lo f = 2 ^ (hi + 1) * (v / 2 ^ (hi + 1)) + (2 ^ lo * (f % 2 ^ (hi + 1 - lo)) + v % 2 ^ lo) := by
    have hzero := putField_zero v hi lo h
    simp only [putField, Nat.zero_mod, Nat.zero_mul, Nat.add_zero] at hzero ⊢
    rw [hzero, Nat.mul_comm (f % _)]
    omega
  rw [hsplit, Nat.testBit_two_pow_mul_add _ hmid, Nat.testBit_two_pow_mul_add _ hlow, Nat.testBit_mod_two_pow, Nat.testBit_mod_two_pow,
    Nat.testBit_div_two_pow]
  by_cases hj : j < hi + 1
  · by_cases hl : j < lo
    · simp [hj, hl, Nat.not_le.mpr hl]
    · simp [hj, hl, Nat.not_lt.mp hl, Nat.le_of_lt_succ hj, show j - lo < hi + 1 - lo by omega]
  · have hback : j - (hi + 1) + (hi + 1) = j := by omega
    simp [hj, hback, show ¬ j ≤ hi by omega]

/-- The bits of a field's mask. -/
theorem getLsbD_fieldMask (p l : Nat) {j : Nat} (hj : j < n) :
    (BitVec.ofNat n ((2 ^ l - 1) * 2 ^ p)).getLsbD j = (decide (p ≤ j) && decide (j - p < l)) := by
  rw [getLsbD_ofNat_of_lt _ hj, bitOf, ← Nat.shiftLeft_eq, Nat.testBit_shiftLeft, Nat.testBit_two_pow_sub_one]

theorem ofNat_bfi (d b : Nat) :
    let mask := BitVec.ofNat n ((2 ^ fieldLen n b - 1) * 2 ^ fieldPos n b)
    BitVec.ofNat n (bfi n d x b) = (BitVec.ofNat n d &&& ~~~mask) ||| (BitVec.ofNat n x <<< fieldPos n b &&& mask) := by
  refine BitVec.eq_of_getLsbD_eq fun j hj => ?_
  have hput : (bfi n d x b).testBit j =
      if fieldPos n b ≤ j ∧ j - fieldPos n b < fieldLen n b then x.testBit (j - fieldPos n b) else d.testBit j := by
    simp only [bfi, fieldSpec_eq]
    split
    · next h => rw [if_neg (by omega)]
    · rw [testBit_putField _ _ _ (by omega)]
      exact if_congr (by omega) rfl rfl
  rw [getLsbD_ofNat_of_lt _ hj, bitOf, hput, BitVec.getLsbD_or, BitVec.getLsbD_and, BitVec.getLsbD_and, BitVec.getLsbD_not,
    BitVec.getLsbD_shiftLeft, getLsbD_fieldMask _ _ hj, getLsbD_ofNat_of_lt d hj, getLsbD_ofNat_of_lt x (show j - fieldPos n b < n by omega)]
  by_cases hp : fieldPos n b ≤ j <;> by_cases hl : j - fieldPos n b < fieldLen n b <;> simp [hp, hl, hj, bitOf]

end

end Sys2Proof.Machine
end

section
/-! PROOF. Shifts, truth tables, counts, bit fields, comparisons and selection (R138, R139, R171 to R173). -/

namespace Sys2Proof.Machine

/-- A comparison completes with its answer in a predicate. -/
theorem computes_predOut {i : Instr} {g f : Env → Bool} (hx : ∀ s, exec i s = s.onDev (aluRun i fun e => predOut (g e)))
    (hgf : ∀ e, g e = f e) (hD : (Roles.rolesOf i).1 = .pred := by rfl) : Computes i fun e => predOut (f e) :=
  computes_of_aluRun hx (fun e => by rw [hgf]) (fun _ => rfl) fun _ _ _ h => by rw [hD] at h; cases h

/-- Settles O2: each result of the model, a number, has the bits of the one of n-bit vectors. -/
theorem integerBits : Obligations.IntegerBits := by
  intro c w d a b n
  have hlt (e : Env) (o : Operand) : e.scalar n .int o < 2 ^ n := e.scalar_lt (widthBits_pos w) .int o
  refine ⟨?shl, ?shrN, ?shrI, ?rol, fun tab => ?lop3, ?popc, ?clz, ?ctz, ?brev, ?bfeN, ?bfeI, ?bfi, fun cond => ?cmpI, fun cond => ?cmpN,
    fun np k => ?sel, ?mov⟩
  case shl => exact computes_intOut (fun _ => rfl) fun e => ofNat_shifted_left _
  case shrN => exact computes_intOut (fun _ => rfl) fun e => ofNat_shifted_right (hlt e a) _
  case shrI => exact computes_wrapInt (fun _ => rfl) fun e => ofInt_shifted_right _
  case rol => exact computes_intOut (fun _ => rfl) fun e => ofNat_rotl (hlt e a) _
  case lop3 => exact computes_intOut (fun _ => rfl) fun e => ofNat_lutBits tab _ _ _
  case popc => exact computes_intOut (fun _ => rfl) fun e => congrArg (BitVec.ofNat n) (popCount_eq _ n)
  case clz => exact computes_intOut (fun _ => rfl) fun e => congrArg (BitVec.ofNat n) (leadZeros_eq (hlt e a))
  case ctz => exact computes_intOut (fun _ => rfl) fun e => congrArg (BitVec.ofNat n) (trailZeros_eq _ n)
  case brev => exact computes_intOut (fun _ => rfl) fun e => ofNat_reversed
  case bfeN => exact computes_intOut (fun _ => rfl) fun e => ofNat_bfe_unsigned (hlt e a) _
  case bfeI => exact computes_intOut (fun _ => rfl) fun e => ofNat_bfe_signed (hlt e a) _
  case bfi => exact computes_intOut (fun _ => rfl) fun e => ofNat_bfi _ _
  case cmpI => exact computes_predOut (fun _ => rfl) fun e => condInt_eq_condBv cond true n _ _
  case cmpN => exact computes_predOut (fun _ => rfl) fun e => condInt_eq_condBv cond false n _ _
  case sel =>
    refine computes_intOut (fun _ => rfl) fun e => ?_
    rw [apply_ite (BitVec.ofNat n)]
    exact if_congr (by cases e.h.pred k.toNat <;> cases np <;> decide) rfl rfl
  case mov => exact computes_intOut (fun _ => rfl) fun _ => rfl

end Sys2Proof.Machine
end

section
/-! PROOF. Scalar floating point (R66 to R68, R71, R174 to R176). -/

namespace Sys2Proof.Machine

/-- The class of an FP32 pattern, read from its bits as a vector (R176). -/
theorem ofNat_classBit {x : Nat} (hx : x < 2 ^ 32) :
    let v := BitVec.ofNat 32 x
    let code := v.toNat % 2 ^ 31
    BitVec.ofNat 32 (2 ^ classBit x) = 1#32 <<<
      if 0x7F800000 < code then (if v.getLsbD 22 then 1 else 0)
      else if code = 0x7F800000 then (if v.msb then 2 else 9)
      else if code = 0 then (if v.msb then 5 else 6)
      else if code < 0x800000 then (if v.msb then 4 else 7)
      else (if v.msb then 3 else 8) := by
  intro v code
  have hcode : code = x % 2 ^ 31 := by rw [show code = v.toNat % 2 ^ 31 from rfl, BitVec.toNat_ofNat, Nat.mod_eq_of_lt hx]
  have hquiet : v.getLsbD 22 = bitOf x 22 := getLsbD_ofNat_of_lt x (by decide)
  have hneg : v.msb = bitOf x 31 := msb_ofNat_eq_bitOf 31 x
  rw [hcode, hquiet, hneg, ← Nat.one_mul (2 ^ classBit x), ofNat_mul_two_pow]
  rfl

/-- Settles O3: the model's value and rounding are those of the statement; the class bit is bit `classBit` of a word of zeros. -/
theorem floatArithmetic : Obligations.FloatArithmetic := by
  refine ⟨fun c f m d a b => ⟨?add, ?sub, ?mul, ?fmaAcc, ?fmaHor⟩, fun c ftzi d a b => ⟨?min, ?max, fun f cond => ?cmp, ?classify⟩⟩
  case add | sub | mul | fmaAcc | fmaHor => exact computes_of_result (fun _ => rfl) fun _ => rfl
  case min | max => exact computes_intOut (fun _ => rfl) fun _ => rfl
  case cmp => exact computes_predOut (fun _ => rfl) fun _ => rfl
  case classify => exact computes_intOut (fun _ => rfl) fun e => ofNat_classBit (e.scalar_lt (by decide) .f32 a)

end Sys2Proof.Machine
end

section
/-! PROOF. Permute, lookup and element moves (R158, R183 to R185). -/

namespace Sys2Proof.Machine

/-! ## The modifier layouts (R158) -/

theorem ofCode_eWidth_eq (k : Nat) : EWidth.ofCode k = [EWidth.e32, .e16, .e8, .e4][k]? := by
  match k with
  | 0 | 1 | 2 | 3 => rfl
  | _ + 4 => rfl

theorem instrOf_plut (m : Nat) (c : Ctl) (d a b : Operand) :
    instrOf 0x301 m c d a b = if m < 4 then some (.plut c (m.testBit 1) (m.testBit 0) d a b) else none := by
  refine (show instrOf 0x301 m c d a b = if m < 4 then some (.plut c (m / 2 == 1) (m % 2 == 1) d a b) else none from rfl).trans ?_
  split
  · next h => interval_cases m <;> rfl
  · rfl

/-- An element move takes its width from bits [7:6] of the modifier byte, the others being zero. -/
theorem instrOf_elementMove {op m : Nat} {c : Ctl} {d a b : Operand} {f : EWidth → Instr}
    (h : instrOf op m c d a b = if m % 64 = 0 then (EWidth.ofCode (m / 64)).map f else none) :
    instrOf op m c d a b = if m % 64 = 0 then [EWidth.e32, .e16, .e8, .e4][m / 64]?.map f else none := by
  rw [h, ofCode_eWidth_eq]

/-! ## Elements -/

theorem ewBits_mul_elemCount (ew : EWidth) : ewBits ew * elemCount (ewBits ew) = 256 := by cases ew <;> rfl

theorem elemCount_ewBits_le (ew : EWidth) : elemCount (ewBits ew) ≤ 64 := by cases ew <;> decide

/-- An instruction that writes every element of D completes with them. -/
theorem computes_wholePacket {i : Instr} {w : Nat} {g f : Env → Nat → Nat}
    (hx : ∀ s, exec i s = s.onDev (aluRun i fun e => wholePacket (genPacket w (g e)))) (hgf : ∀ e k, g e k = f e k)
    (hw : w * elemCount w = 256) (hD : isDestRole (Roles.rolesOf i).1 = true := by rfl) :
    Computes i fun e => packetOut w (List.range (elemCount w)) 0 fun k _ => f e k :=
  computes_of_result hx (fun e => by rw [funext (hgf e)]; exact wholePacket_genPacket hw (f e) 0) (hD := hD)

/-- The byte that a selector names, the selector and the byte as vectors (R183). -/
theorem permByte_eq (d a : Nat) {x : Nat} (hx : x < 2 ^ 8) :
    let s := BitVec.ofNat 8 x
    let v := BitVec.ofNat 8 (elem 8 (if s.getLsbD 5 then d else a) (s.toNat % 32))
    permByte d a x = if s.getLsbD 7 then 0 else if s.getLsbD 6 then (if v.msb then 255 else 0) else v.toNat := by
  intro s v
  have hbit {k : Nat} (hk : k < 8) : s.getLsbD k = bitOf x k := getLsbD_ofNat_of_lt x hk
  have hbyte : v = BitVec.ofNat 8 (byteOf (if bitOf x 5 then d else a) (x % 32)) := by
    rw [show v = BitVec.ofNat 8 (elem 8 (if s.getLsbD 5 then d else a) (s.toNat % 32)) from rfl, hbit (by decide),
      show s.toNat = x from Nat.mod_eq_of_lt hx]
    rfl
  have hval : v.toNat = byteOf (if bitOf x 5 then d else a) (x % 32) := by
    rw [hbyte]
    exact Nat.mod_eq_of_lt (elem_lt 8 _ _)
  have hmsb : v.msb = bitOf (byteOf (if bitOf x 5 then d else a) (x % 32)) 7 := by rw [hbyte, msb_ofNat_eq_bitOf 7]
  rw [hbit (by decide), hbit (by decide), hval, hmsb]
  rfl

/-- One element in every place. -/
theorem broadcast_eq_genPacket (w : Nat) {v : Nat} (hv : v < 2 ^ w) : broadcast w v = genPacket w fun _ => v := by
  rw [broadcast, genPacket, Nat.mod_eq_of_lt hv, List.map_const', List.length_range]

/-- Settles O6: the modifier byte of each opcode, then each move, element by element. -/
theorem packetMoves : Obligations.PacketMoves := by
  intro c ew d a b w n whole x byte
  have hw : w * n = 256 := ewBits_mul_elemCount ew
  refine ⟨fun m => rfl, fun m => instrOf_plut m c d a b, fun k m f hk _ => ?layout, ?pperm, fun half hi => ?plut, ?eshl, ?eshr, ?bcast, ?esel,
    ?eins, ?eext⟩
  case layout =>
    match k, hk with
    | 0, rfl | 1, rfl | 2, rfl | 3, rfl | 4, rfl | 5, rfl => exact instrOf_elementMove rfl
  case pperm => exact computes_wholePacket (fun _ => rfl) (fun e i => permByte_eq _ _ (elem_lt _ _ _)) rfl
  case plut =>
    refine computes_wholePacket (fun _ => rfl) (fun e i => ?_) rfl
    cases half <;> rfl
  case eshl => exact computes_wholePacket (fun _ => rfl) (fun e k => rfl) hw
  case eshr =>
    refine computes_wholePacket (fun _ => rfl) (fun e k => ?_) hw
    simp only [← Nat.not_lt, ite_not]
    rfl
  case bcast =>
    refine computes_of_result (fun _ => rfl) fun e => ?_
    rw [broadcast_eq_genPacket _ (elem_lt _ _ _)]
    exact wholePacket_genPacket hw _ 0
  case esel =>
    refine computes_of_result (fun _ => rfl) fun e => ?_
    refine congrArg (packetOut w · 0 fun k _ => x e k) (List.filter_congr fun k hk => ?_)
    exact (getLsbD_ofNat_of_lt _ ((List.mem_range.mp hk).trans_le (elemCount_ewBits_le ew))).symm
  case eins => exact computes_of_result (fun _ => rfl) fun _ => rfl
  case eext => exact computes_intOut (fun _ => rfl) fun _ => rfl

end Sys2Proof.Machine
end

section
/-! PROOF. Instructions of a whole run: shuffles, votes, matches and scans (R196 to R200). -/

namespace Sys2Proof.Machine

/-! ## Results of a run -/

section
variable {i : Instr}

/-- A run-collective instruction without a second result completes, whatever its destination. -/
theorem computesAll_of_result {g f : List Env → Env → Out} (hx : ∀ s, exec i s = s.onDev (collectiveRun i g))
    (hgf : ∀ ps e, g ps e = f ps e) (hscale : ∀ ps e, (f ps e).scale = none)
    (hD : ∀ x off post, Roles.accepts (Roles.rolesOf i).1 (.ind x off post) = true → isDestRole (Roles.rolesOf i).1 = true) :
    ComputesAll i f := by
  obtain rfl : g = f := funext fun ps => funext (hgf ps)
  intro s hq
  refine computesAll_of_collective i g (fun ps e v hv => ?_) (fun x off post h => hD x off post ?_) hx s hq
  · rw [hscale ps e] at hv
    cases hv
  · rw [← h]
    exact (wellFormed_accepts i (wellFormed_of_quietAll hq)).1

theorem computesAll_intOut {n : Nat} {g : List Env → Env → Nat} {f : List Env → Env → BitVec n}
    (hx : ∀ s, exec i s = s.onDev (collectiveRun i fun ps e => intOut n (g ps e))) (hf : ∀ ps e, BitVec.ofNat n (g ps e) = f ps e)
    (hD : isDestRole (Roles.rolesOf i).1 = true := by rfl) : ComputesAll i fun ps e => bvOut (f ps e) :=
  computesAll_of_result hx (fun ps e => by rw [intOut_eq_bvOut, hf]) (fun _ _ => rfl) fun _ _ _ _ => hD

theorem computesAll_predOut {g f : List Env → Env → Bool}
    (hx : ∀ s, exec i s = s.onDev (collectiveRun i fun ps e => predOut (g ps e))) (hgf : ∀ ps e, g ps e = f ps e)
    (hD : (Roles.rolesOf i).1 = .pred := by rfl) : ComputesAll i fun ps e => predOut (f ps e) :=
  computesAll_of_result hx (fun ps e => by rw [hgf]) (fun _ _ => rfl) fun _ _ _ h => by rw [hD] at h; cases h

end

/-! ## Some of the participants (R198, R199) -/

section
variable (q : Env → Bool) (ps : List Env)

theorem not_isEmpty_filter : (!(ps.filter q).isEmpty) = ps.any q := by
  rw [Bool.eq_iff_iff]
  simp

theorem isEmpty_filter : (ps.filter q).isEmpty = ps.all fun p => !q p := by
  rw [Bool.eq_iff_iff]
  simp

theorem length_filter_beq : ((ps.filter q).length == ps.length) = ps.all q := by
  rw [Bool.eq_iff_iff, beq_iff_eq, List.length_filter_eq_length_iff, List.all_eq_true]

/-- The lane mask of some participants as a sum over all of them. -/
theorem laneMask_filter : laneMask (ps.filter q) = (ps.map fun p => if q p then 2 ^ p.h.lane else 0).sum := by
  have hsum : ∀ m, (ps.filter q).foldl (fun m p => m + 2 ^ p.h.lane) m = m + (ps.map fun p => if q p then 2 ^ p.h.lane else 0).sum := by
    induction ps with
    | nil => intro m; rfl
    | cons p r ih =>
      intro m
      rw [List.filter_cons, List.map_cons, List.sum_cons, ← Nat.add_assoc]
      cases q p with
      | true => exact ih _
      | false => exact ih _
  exact (hsum 0).trans (Nat.zero_add _)

end

/-- Settles O10, mode by mode: the model's lists of participants as counts, sums and minima over all of them. -/
theorem runCollectives : Obligations.RunCollectives := by
  intro c d a b
  refine ⟨fun mode => ⟨?shfl32, ?shfl64, ?shfl256⟩, ?someOf, ?everyOf, ?same, ?mask, ?cnt, ?pre,
    fun b64 => ⟨?matchMask, ?matchLead, ?matchCnt⟩, fun excl op => ?scan⟩
  case shfl32 | shfl64 | shfl256 | scan => exact computesAll_intOut (fun _ => rfl) fun _ _ => rfl
  case someOf => exact computesAll_predOut (fun _ => rfl) fun ps _ => not_isEmpty_filter _ ps
  case everyOf => exact computesAll_predOut (fun _ => rfl) fun ps _ => length_filter_beq _ ps
  case same =>
    refine computesAll_predOut (fun _ => rfl) fun ps _ => ?_
    rw [isEmpty_filter, length_filter_beq, Bool.or_comm]
  case mask | matchMask => exact computesAll_intOut (fun _ => rfl) fun ps _ => congrArg _ (laneMask_filter _ ps)
  case cnt | matchCnt => exact computesAll_intOut (fun _ => rfl) fun ps _ => congrArg _ List.countP_eq_length_filter.symm
  case pre =>
    refine computesAll_intOut (fun _ => rfl) fun ps e => congrArg _ ?_
    rw [List.filter_filter, List.countP_eq_length_filter]
    exact congrArg List.length (List.filter_congr fun p _ => Bool.and_comm _ _)
  case matchLead => exact computesAll_intOut (fun _ => rfl) fun ps e => congrArg _ List.foldl_map

end Sys2Proof.Machine
end

section
/-! PROOF. Branches, calls and loops, and the count of backward branches (R38, R231 to R233). -/

namespace Sys2Proof.Machine

theorem exec_bra (c : Ctl) (d a b : Operand) (s : State) : exec (.bra c d a b) s = execBra c d a b s := rfl
theorem exec_brx (c : Ctl) (d a b : Operand) (s : State) : exec (.brx c d a b) s = execBrx c d a b s := rfl
theorem exec_ret (c : Ctl) (d a b : Operand) (s : State) : exec (.ret c d a b) s = execRet c d a b s := rfl
theorem exec_call (c : Ctl) (d a b : Operand) (s : State) : exec (.call c d a b) s = execCall c d a b s := rfl
theorem exec_loop (c : Ctl) (d a b : Operand) (s : State) : exec (.loop c d a b) s = execLoop c d a b s := rfl

/-! ## Program counters -/

theorem pcPlus_eq_add (pc : Word) (n : Int) : pcPlus pc n = pc + BitVec.ofInt 32 n := by
  rw [pcPlus, ofNat_wrapInt, BitVec.setWidth_eq, BitVec.ofInt_add, BitVec.ofInt_natCast, BitVec.ofNat_toNat, BitVec.setWidth_eq]

theorem pcPlus_one (pc : Word) : pcPlus pc 1 = pc + 1 := pcPlus_eq_add pc 1

/-- The target of a relative branch (R231). -/
theorem pcPlus_branchDist_imm (pc : Word) (v : BitVec 20) : pcPlus pc (branchDist (.imm v)) = pc + v.signExtend 32 := by
  rw [pcPlus_eq_add, branchDist, sext_eq_toInt, BitVec.ofNat_toNat, BitVec.setWidth_eq, BitVec.signExtend]

/-- A decremented loop counter. -/
theorem decremented_toNat (e : Env) (d : Operand) : (e.scalar 32 .int d + 2 ^ 32 - 1) % 2 ^ 32 = (e.bv 32 d - 1).toNat := by
  rw [BitVec.toNat_sub, Env.bv_toNat e (by decide)]
  change _ = (2 ^ 32 - 1 + e.scalar 32 .int d) % 2 ^ 32
  congr 1
  omega

theorem loopPc_imm (e : Env) (n : Word) (v : BitVec 20) :
    loopPc e (.imm v) n.toNat = if n ≠ 0 then e.h.pc + v.signExtend 32 else e.h.pc + 1 := by
  rw [loopPc, pcPlus_branchDist_imm]
  exact if_congr (not_congr (BitVec.toNat_inj (y := 0))) rfl rfl

/-! ## One thread's jump, with the register it writes -/

/-- The thread of a branch: its register written, its post-advances, its PC, and `sr.rep` as it was. -/
theorem outThread_jump {i : Instr} {o : Out} (hscale : o.scale = none) (hdraws : o.draws = 0) (pc : Word) (e : Env) (w : Who) (h : Thread) :
    outThread i o e w (fun h => (pc, h.rep)) h =
      { postAdvance i (wrThread w (Roles.rolesOf i).1 (Roles.opsOf i).1 (firstSlot e (Roles.rolesOf i).1 (Roles.opsOf i).1) (nextSeq e)
        o.val o.mask h) with pc } := by
  obtain ⟨-, hwritten, -⟩ := wrThread_pc w (Roles.rolesOf i).1 (Roles.opsOf i).1 (firstSlot e (Roles.rolesOf i).1 (Roles.opsOf i).1)
    (nextSeq e) o.val o.mask h
  simp only [outThread, hscale, hdraws, BitVec.add_zero]
  generalize wrThread w (Roles.rolesOf i).1 (Roles.opsOf i).1 _ _ _ _ h = k at hwritten ⊢
  obtain ⟨-, -, hadvanced, -⟩ := postAdvance_fixed i k
  have hrep : h.rep = (postAdvance i k).rep := (hadvanced.trans hwritten).symm
  rw [hrep]

/-- A thread that writes its destination and goes to `pc`. -/
theorem jumpTo_writeDest (i : Instr) {o : Out} (hscale : o.scale = none) (hdraws : o.draws = 0) (pc : Word) (e : Env) (w : Who) (m : Dev) :
    jumpTo i w pc (writeDest m w (Roles.rolesOf i).1 (Roles.opsOf i).1 (firstSlot e (Roles.rolesOf i).1 (Roles.opsOf i).1) (nextSeq e)
      o.val o.mask) = m.touch w (outThread i o e w fun h => (pc, h.rep)) (outY i o) := by
  rw [jumpTo, Dev.mapWho_touch, touch_writeDest]
  congr 1
  · funext h
    exact (outThread_jump hscale hdraws pc e w h).symm
  · funext y
    simp only [outY, hscale, id]

/-- A thread that writes no register and goes to `pc`: its destination is none, or a y register in which another thread counts. -/
theorem jumpTo_noOut {i : Instr} (hD : (Roles.opsOf i).1 = .none ∨ ∃ n a k, (Roles.opsOf i).1 = .reg .y n a k) (pc : Word) (e : Env)
    (w : Who) (m : Dev) : jumpTo i w pc m = m.touch w (outThread i noOut e w fun h => (pc, h.rep)) (outY i noOut) := by
  have hthread (first seq : Nat) (h : Thread) : wrThread w (Roles.rolesOf i).1 (Roles.opsOf i).1 first seq 0 0 h = h := by
    rcases hD with hD | ⟨n, a, k, hD⟩ <;> rw [hD] <;> rfl
  have hY : outY i noOut = id := by
    funext y
    rcases hD with hD | ⟨n, a, k, hD⟩ <;> simp [outY, noOut, hD, yPut, yWrite]
  rw [jumpTo, Dev.mapWho_touch, hY]
  congr 1
  funext h
  rw [outThread_jump rfl rfl, noOut, hthread]

/-! ## Branches of a run -/

/-- A branch that writes no register. -/
theorem branches_of_branchRun {i : Instr} {g target : Env → Word} (hx : ∀ s, exec i s = s.onDev (branchRun i g)) (hg : ∀ e, g e = target e)
    (hD : (Roles.rolesOf i).1 = .unused := by rfl) : Branches i (fun _ _ => noOut) target := by
  obtain rfl : g = target := funext hg
  intro s hq
  have hnone : (Roles.opsOf i).1 = .none := eq_none_of_unused (hD ▸ (wellFormed_accepts i (wellFormed_of_quietAll hq)).1)
  exact ⟨_, hx s, ran_of_each i _ _ (fun e h => (g e, h.rep)) _ s hq (fun _ _ _ => rfl) (fun _ _ _ hv => by cases hv)
    (fun _ _ _ h => by simp [hnone] at h) (fun p m => jumpTo_noOut (.inl hnone) (g p.2) p.2 p.1 m) _ (.inl rfl)⟩

/-- A branch whose threads each write operand D. -/
theorem branches_of_writes {i : Instr} {x target : Env → Word}
    (hx : ∀ s, exec i s = s.onDev fun m => countBackward m ((eachThread i noCheck (fun e w m => jumpTo i w (target e)
      (writeDest m w (Roles.rolesOf i).1 (Roles.opsOf i).1 (firstSlot e (Roles.rolesOf i).1 (Roles.opsOf i).1) (nextSeq e)
        (x e).toNat (2 ^ 32 - 1))) m).closeWindow i))
    (hD : isDestRole (Roles.rolesOf i).1 = true := by rfl) : Branches i (fun _ e => bvOut (x e)) target :=
  fun s hq => ⟨_, hx s, ran_of_each i _ _ (fun e h => (target e, h.rep)) _ s hq (fun _ _ _ => rfl) (fun _ _ _ hv => by cases hv)
    (fun _ _ _ _ => hD) (fun p m => jumpTo_writeDest i (o := bvOut (x p.2)) rfl rfl (target p.2) p.2 p.1 m) _ (.inr rfl)⟩

/-! ## A counter in a y register (R233) -/

/-- A thread that issues in a head run is the one at its lane. -/
theorem issuers_run {m : Dev} {team gid : Nat} {lanes : List Nat} {lits : AMap DWord} {w : Word} {p : Who × Env}
    (hcur : m.cur = .run team gid lanes lits w) (hp : p ∈ issuers m) :
    ∃ t g, m.team? team = some t ∧ t.group? gid = some g ∧ g.atLane? p.2.h.lane = some p.2.h ∧
      p = (.thr ⟨team, gid, p.2.h.tid⟩, { d := m, own := some (t, g), q := 0, h := p.2.h, lits }) := by
  simp only [issuers, hcur] at hp
  split at hp
  · cases hp
  · next t ht =>
    split at hp
    · cases hp
    · split at hp
      · cases hp
      · next g hg =>
        obtain ⟨l, -, hl⟩ := List.mem_filterMap.mp hp
        obtain ⟨h, hh, rfl⟩ := Option.map_eq_some_iff.mp hl
        obtain rfl : h.lane = l := by simpa using List.find?_some hh
        exact ⟨t, g, ht, hg, hh, rfl⟩

/-- Threads that issue have lanes of their own. -/
theorem issuers_eq_of_lane {m : Dev} {p q : Who × Env} (hp : p ∈ issuers m) (hq : q ∈ issuers m) (hlane : p.2.h.lane = q.2.h.lane) :
    p = q := by
  cases hcur : m.cur with
  | none => simp [issuers, hcur] at hp
  | queue n lits w =>
    simp only [issuers, hcur, List.mem_singleton] at hp hq
    rw [hp, hq]
  | run team gid lanes lits w =>
    obtain ⟨t, g, ht, hg, hat, hpe⟩ := issuers_run hcur hp
    obtain ⟨t', g', ht', hg', hat', hqe⟩ := issuers_run hcur hq
    obtain rfl : t = t' := Option.some.inj (ht.symm.trans ht')
    obtain rfl : g = g' := Option.some.inj (hg.symm.trans hg')
    have hthread : p.2.h = q.2.h := Option.some.inj (hat.symm.trans (hlane ▸ hat'))
    rw [hpe, hqe, hthread]

/-- The acting threads of an instruction that issues once for its operands are those that issue now. -/
theorem find?_guard_eq_head? {i : Instr} (d : Dev) (hu : uniformIssue i = true) :
    (issuers d).find? (fun p => p.2.h.guard (Roles.ctlOf i)) = (actors i d).head? := by
  rw [actors, prepare_uniform i d hu, List.head?_filter]

/-- Whether a thread is the first that acts: by its name, as the model asks, or by its lane. -/
theorem first_iff_lane {i : Instr} {s : State} (hq : quietAll i s = true) {p : Who × Env} (hp : p ∈ issuers (s.dev.prepare i)) :
    (actors i s.dev).head?.map (·.1) = some p.1 ↔ ((actors i s.dev).map (·.2)).head?.map (·.h.lane) = some p.2.h.lane := by
  simp only [quietAll, quietFor, Bool.and_eq_true, decide_eq_true_eq] at hq
  obtain ⟨⟨⟨-, hnodup⟩, -⟩, -⟩ := hq
  have hsub := (actors_sublist i s.dev).subset
  cases hacts : actors i s.dev with
  | nil => simp
  | cons f rest =>
    have hf : f ∈ issuers (s.dev.prepare i) := hsub (hacts ▸ List.mem_cons_self)
    simp only [List.head?_cons, List.map_cons, Option.map_some, Option.some.injEq]
    exact ⟨fun h => congrArg (·.2.h.lane) (List.inj_on_of_nodup_map hnodup hf hp h),
      fun h => congrArg Prod.fst (issuers_eq_of_lane hf hp h)⟩

/-- What `loop` leaves in a y register: the first acting thread counts, the others do not (R233). -/
def loopYOut (d : Operand) (ps : List Env) (e : Env) : Out :=
  if ps.head?.map (·.h.lane) = some e.h.lane then bvOut (e.bv 32 d - 1) else noOut

/-- Where `loop` goes on its decremented counter (R231). -/
def loopTarget (d : Operand) (v : BitVec 20) (e : Env) : Word := if e.bv 32 d - 1 ≠ 0 then e.h.pc + v.signExtend 32 else e.h.pc + 1

/-- One thread of a `loop` on a y register; the first that acts counts. -/
def loopYStep (i : Instr) (d : Operand) (v : BitVec 20) (first : Prop) [Decidable first] (e : Env) (w : Who) (m : Dev) : Dev :=
  jumpTo i w (loopTarget d v e) (if first then writeDest m w (.dst false) d 0 0 (e.bv 32 d - 1).toNat (2 ^ 32 - 1) else m)

section
variable {c : Ctl} {d b : Operand} {v : BitVec 20}

theorem branches_loop (hd : ∀ n a k, d ≠ .reg .y n a k) :
    Branches (.loop c d (.imm v) b) (fun _ e => bvOut (e.bv 32 d - 1)) (loopTarget d v) := by
  refine branches_of_writes fun s => ?_
  simp only [exec_loop, execLoop, decremented_toNat, loopPc_imm]
  rfl

/-- A `loop` on a y register: the model finds the thread that counts by its name. -/
theorem exec_loop_y {n a : Bool} {k : BitVec 9} (hd : d = .reg .y n a k) (s : State) :
    let i := Instr.loop c d (.imm v) b
    i.wellFormed = true → exec i s = .next { s with dev := countBackward s.dev ((eachThread i noCheck
      (fun e w => loopYStep i d v ((actors i s.dev).head?.map (·.1) = some w) e w) s.dev).closeWindow i) } := by
  intro i hw
  obtain rfl : b = .none := eq_none_of_unused (wellFormed_accepts _ hw).2.2
  subst hd
  have hfirst := find?_guard_eq_head? (i := i) s.dev rfl
  simp only [i, exec_loop, execLoop, State.onDev_eq, decremented_toNat, loopPc_imm]
  rw [← hfirst]
  rfl

theorem loopYStep_touch {n a : Bool} {k : BitVec 9} (hd : d = .reg .y n a k) (ps : List Env) (e : Env) (w : Who) (m : Dev) :
    let i := Instr.loop c d (.imm v) b
    loopYStep i d v (ps.head?.map (·.h.lane) = some e.h.lane) e w m =
      m.touch w (outThread i (loopYOut d ps e) e w fun h => (loopTarget d v e, h.rep)) (outY i (loopYOut d ps e)) := by
  intro i
  subst hd
  have hcount : writeDest m w (.dst false) (.reg .y n a k) 0 0 (e.bv 32 (.reg .y n a k) - 1).toNat (2 ^ 32 - 1) =
      writeDest m w (Roles.rolesOf i).1 (Roles.opsOf i).1 (firstSlot e (Roles.rolesOf i).1 (Roles.opsOf i).1) (nextSeq e)
        (bvOut (e.bv 32 (.reg .y n a k) - 1)).val (bvOut (e.bv 32 (.reg .y n a k) - 1)).mask := by cases w <;> rfl
  by_cases hfirst : ps.head?.map (·.h.lane) = some e.h.lane
  · rw [loopYStep, if_pos hfirst, loopYOut, if_pos hfirst, hcount]
    exact jumpTo_writeDest i rfl rfl _ e w m
  · rw [loopYStep, if_neg hfirst, loopYOut, if_neg hfirst]
    exact jumpTo_noOut (.inr ⟨n, a, k, rfl⟩) _ e w m

theorem branches_loop_y {n a : Bool} {k : BitVec 9} (hd : d = .reg .y n a k) :
    Branches (.loop c d (.imm v) b) (loopYOut d) (loopTarget d v) := by
  intro s hq
  refine ⟨_, exec_loop_y hd s (wellFormed_of_quietAll hq), ?_⟩
  refine ran_of_each _ (loopYOut d) _ (fun e h => (loopTarget d v e, h.rep)) (fun e w => loopYStep (.loop c d (.imm v) b) d v
    (((actors (.loop c d (.imm v) b) s.dev).map (·.2)).head?.map (·.h.lane) = some e.h.lane) e w) s hq (fun _ _ _ => rfl) ?_
    (fun _ _ _ _ => rfl) (fun p m => loopYStep_touch hd _ p.2 p.1 m) _ (.inr ?_)
  · intro qs e w hw
    unfold loopYOut at hw
    split at hw <;> cases hw
  · refine congrArg (Dev.closeWindow · _) (eachThread_congr fun p hp => ?_)
    funext m
    rw [loopYStep, loopYStep, if_congr (first_iff_lane hq hp) rfl rfl]

end

/-! ## Calls -/

theorem branches_call_imm {c : Ctl} {d b : Operand} {v : BitVec 20} :
    Branches (.call c d (.imm v) b) (fun _ e => bvOut (e.h.pc + 1)) fun e => e.h.pc + v.signExtend 32 := by
  refine branches_of_writes fun s => ?_
  simp only [exec_call, execCall, pcPlus_one, pcPlus_branchDist_imm]
  rfl

theorem branches_call_register {c : Ctl} {d a b : Operand} (ha : ∀ v, a ≠ .imm v) :
    Branches (.call c d a b) (fun _ e => bvOut (e.h.pc + 1)) fun e => e.bv 32 a := by
  refine branches_of_writes fun s => ?_
  simp only [exec_call, execCall, pcPlus_one]
  rfl

/-! ## The count of backward branches (R38) -/

/-- A group without its count of backward branches. -/
def Group.uncounted (g : Group) : Group := { g with relief := 0, reliefPc := 0 }

/-- Counting changes nothing, or groups in what `uncounted` does not show. -/
theorem countBackward_cases (s d : Dev) : countBackward s d = d ∨
    ∃ team gid f, countBackward s d = d.mapGroup team gid f ∧ ∀ g, (f g).uncounted = g.uncounted := by
  unfold countBackward
  split
  · split
    · exact .inl rfl
    · refine .inr ⟨_, _, _, rfl, fun g => ?_⟩
      dsimp only
      split <;> rfl
  · exact .inl rfl

theorem mapGroup_uncounted {f : Group → Group} (hf : ∀ g, (f g).uncounted = g.uncounted) (d : Dev) (team gid : Nat) :
    ((d.mapGroup team gid f).teams.map fun t => { t with groups := t.groups.map Group.uncounted })
      = d.teams.map fun t => { t with groups := t.groups.map Group.uncounted } := by
  rw [Dev.mapGroup, Dev.mapTeam, List.map_map]
  refine List.map_congr_left fun t _ => ?_
  have hgroups : (t.groups.map fun g => if g.gid = gid then f g else g).map Group.uncounted = t.groups.map Group.uncounted := by
    rw [List.map_map]
    refine List.map_congr_left fun g _ => ?_
    by_cases hg : g.gid = gid <;> simp [hg, hf]
  by_cases ht : t.id = team <;> simp [ht, Team.mapGroup, hgroups]

/-- Settles O12: the target and the register of each branch, and what the count changes. -/
theorem branchesGo : Obligations.BranchesGo := by
  refine ⟨fun c d b v => ⟨?bra, branches_call_imm, branches_loop, fun n a k => branches_loop_y⟩,
    fun c d a b => ⟨?brx, ?ret, branches_call_register⟩, fun s d => ?count⟩
  case bra => exact branches_of_branchRun (fun _ => rfl) fun e => pcPlus_branchDist_imm e.h.pc v
  case brx => exact branches_of_branchRun (fun _ => rfl) fun _ => rfl
  case ret => exact branches_of_branchRun (fun _ => rfl) fun _ => rfl
  case count =>
    rcases countBackward_cases s d with h | ⟨team, gid, f, h, hf⟩
    · rw [h]
      exact ⟨rfl, rfl⟩
    · rw [h]
      exact ⟨rfl, mapGroup_uncounted hf d team gid⟩

end Sys2Proof.Machine
end

section
/-! PROOF. The bytes of a store to team memory (R206, R207). -/

namespace Sys2Proof.Machine

/-! ## What leaves the accesses on their way as they are -/

/-- A change that no reader of the window sees leaves the accesses on their way. -/
theorem Quiet.scrWrites_eq {d e : Dev} (h : Quiet d e) : e.scrWrites = d.scrWrites := by
  have hrest := congrArg Dev.scrWrites (h.rest d)
  exact hrest

@[simp] theorem Dev.prepare_scrWrites (d : Dev) (i : Instr) : (d.prepare i).scrWrites = d.scrWrites := (prepare_quiet i d).scrWrites_eq
@[simp] theorem Dev.closeWindow_scrWrites (d : Dev) (i : Instr) : (d.closeWindow i).scrWrites = d.scrWrites :=
  (closeWindow_quiet i d).scrWrites_eq

@[simp] theorem past_scrWrites (i : Instr) (r : TRef) (m : Dev) : (past i r m).scrWrites = m.scrWrites := rfl

@[simp] theorem recordInd_scrWrites (i : Instr) (k : Nat) (before d : Dev) : (recordInd i k before d).scrWrites = d.scrWrites := by
  unfold recordInd
  split
  · split <;> rfl
  · rfl

@[simp] theorem clearLong_scrWrites (i : Instr) (d : Dev) : (clearLong i d).scrWrites = d.scrWrites := by
  unfold clearLong
  split
  · dsimp only
    split
    · split <;> rfl
    · rfl
  · rfl

@[simp] theorem drawn_scrWrites (e : Env) (r : TRef) (ea : Nat) (loc : Loc) (kind : AccKind) (rel : Option Nat) (m : Dev) :
    (drawn e r ea loc kind rel m).scrWrites = m.scrWrites := by
  cases loc with
  | tmem k =>
    unfold drawn
    dsimp only
    split <;> rfl
  | scr | bank | stk | miss => rfl

/-- A named instruction that empties no window starts with the accesses on their way as they are. -/
theorem startOf_scrWrites {i : Instr} {d : Dev} (hn : named i = true) (hf : flushes i = false) :
    (startOf i d).scrWrites = d.scrWrites := by
  simp [startOf_named hn hf]

/-! ## The store -/

section
variable {e : Env} {r : TRef} {n v ea k : Nat} {m : Dev}

/-- A store that goes on its way is one more access on its way. -/
theorem stored_scrWrites_ne {loc : Loc} (haway : awayAt e r ea loc (.store n v) none m ≠ none) :
    (stored e r n v ea loc m).scrWrites ≠ m.scrWrites := by
  obtain ⟨⟨space, key⟩, hsome⟩ := Option.ne_none_iff_exists'.mp haway
  simp [stored, hsome, onItsWay, acquiring, awaiting]

/-- A store to team memory that is performed at once writes there and nowhere else. -/
theorem stored_team_byteStores (hhere : awayAt e r ea (.tmem k) (.store n v) none m = none) :
    (stored e r n v ea (.tmem k) m).byteStores = (m.hbm, m.scr, Memory.writeN m.tmem k n v, m.tiles, m.host) := by
  have hdraw := drawn_byteStores e r ea (.tmem k) (.store n v) none m
  simp only [Dev.byteStores, Prod.mk.injEq] at hdraw
  obtain ⟨hhbm, hscr, htmem, htiles, hhost⟩ := hdraw
  simp only [stored, hhere, Loc.write, Dev.byteStores, hhbm, hscr, htmem, htiles, hhost]

end

/-- What a store does to the memories and to the accesses on their way is what its thread's access does. -/
theorem st_solo_next {c : Ctl} {w : MWidth} {d a b : Operand} {s : State} {r : TRef} {e : Env} {t : Team} {g : Group} {loc : Loc}
    (hs : soloOf (.st c w d a b) s = some (r, e, t, g)) (hloc : localAt e (mwBytes w) (e.ea a b) false = some loc) :
    ∃ u, exec (.st c w d a b) s = .next u ∧
      let x := stored e r (mwBytes w) (storeData e w d) (e.ea a b) loc (startOf (.st c w d a b) s.dev)
      u.dev.byteStores = x.byteStores ∧ u.dev.scrWrites = x.scrWrites :=
  ⟨_, exec_st_solo hs hloc, by simp, by simp⟩

/-- Settles O18: on its way the store is one more access and no byte; at once it is one write of its bytes in team memory. -/
theorem teamStoreBytes : Obligations.TeamStoreBytes := by
  intro c w d a b s r e t g k i hs hloc away
  obtain ⟨u, hexec, hbytes, hway⟩ := st_solo_next hs hloc
  have hstart : (startOf i s.dev).byteStores = s.dev.byteStores := startOf_byteStores rfl rfl
  have hstartWay : (startOf i s.dev).scrWrites = s.dev.scrWrites := startOf_scrWrites rfl rfl
  refine ⟨u, hexec, ?_⟩
  by_cases haway : away = none
  · rw [stored_team_byteStores haway] at hbytes
    simp only [Dev.byteStores, Prod.mk.injEq] at hbytes hstart
    obtain ⟨hhbm, hscr, htmem, htiles, hhost⟩ := hbytes
    obtain ⟨hhbm0, hscr0, htmem0, htiles0, hhost0⟩ := hstart
    rw [htmem0] at htmem
    refine ⟨fun h => absurd haway h, fun j _ hj => ?_, fun x hx => ?_, hhbm.trans hhbm0, hscr.trans hscr0, htiles.trans htiles0,
      hhost.trans hhost0⟩
    · rw [htmem, Memory.read_writeN_in _ _ _ _ _ hj, Nat.pow_mul]
    · rw [htmem, Memory.read_writeN_out _ _ _ _ _ hx]
  · have hkept : u.dev.byteStores = s.dev.byteStores := (hbytes.trans (stored_byteStores haway)).trans hstart
    have hnew := stored_scrWrites_ne haway
    rw [hstartWay, ← hway] at hnew
    simp only [Dev.byteStores, Prod.mk.injEq] at hkept
    obtain ⟨hhbm, hscr, htmem, htiles, hhost⟩ := hkept
    exact ⟨fun _ => ⟨htmem, hnew⟩, fun j h => absurd h haway, fun x _ => by rw [htmem], hhbm, hscr, htiles, hhost⟩

end Sys2Proof.Machine
end

section
/-! PROOF. Counterexamples to two statements of this family: a `jwait` whose destination is indirect, and a tile instruction in a queue
thread. -/

namespace Sys2Proof.Machine

/-! ## A `jwait` that waits, its destination indirect (R54, R257) -/

/-- Job 0 of cluster 0, still at its core. -/
def waitingJob : Job :=
  { seq := 0, slot := 0, card := [], who := ⟨0, 0, 0⟩, ctx := 0, core := 0, team := 0, grid := 0, state := .waiting, preds := [],
    failedRoot := none, shares := [], engine := none, drain := false, lost := none, passes := 0, cancelAsked := false }

/-- Lane 0 issues; its group's h0 names the waiting job, its x0 declares slot 0, and its window holds slot 0. -/
def slotInWindow : State :=
  let lane (h : Thread) : Thread := { h with x := [(0, 0x100000)], win := [⟨0, [(0, 7)]⟩] }
  let holder (g : Group) : Group := { g with h := [(0, waitingJob.handle)], threads := g.threads.map lane }
  { State.reset with dev := { State.reset.dev with
      cur := .run 0 0 [0] [] 0
      teams := [(Team.plain { Kernel.plain 0 1 with width := 1 }).mapGroup 0 holder]
      joins := [(0, { count := 1, jobs := [] })]
      cards := [{ core := 0, job := waitingJob, upto := 0, ordAfter := none }] } }

/-- `jwait` of h0 into the slot that x0 names. -/
def waitIndirect : Instr := .jwait Ctl.always (.ind 0 0 false) (.file .h 0) .none

/-- The forwarding windows of all threads. -/
def Dev.windows (d : Dev) : List (List WinEntry) := d.teams.flatMap fun t => t.groups.flatMap fun g => g.threads.map (·.win)

/-- A change of a group that keeps its threads changes no window. -/
theorem windows_mapGroup (d : Dev) (team gid : Nat) (f : Group → Group) (hf : ∀ g, (f g).threads = g.threads) :
    (d.mapGroup team gid f).windows = d.windows := by
  simp only [Dev.windows, Dev.mapGroup, Dev.mapTeam, List.flatMap_map]
  congr 1
  funext t
  split
  · simp only [Team.mapGroup, List.flatMap_map]
    congr 1
    funext g
    split
    · rw [hf]
    · rfl
  · rfl

/-- Refutes O27: a `jwait` that finds its handle pending holds the group before the window is readied, so the window keeps the slots of an
indirect destination; the statement has them written to the bank first. -/
theorem not_handleInstructions : ¬ Obligations.HandleInstructions := by
  intro hall
  have hsome : (soloOf waitIndirect slotInWindow).isSome = true := by decide +kernel
  obtain ⟨⟨r, e, t, g⟩, hsolo⟩ := Option.isSome_iff_exists.mp hsome
  have hpending : (soloOf waitIndirect slotInWindow).map (fun x => statusOf x.2.1 (.file .h 0)) = some none := by decide +kernel
  rw [hsolo] at hpending
  obtain ⟨⟨-, hblocks⟩, -⟩ := hall Ctl.always (.ind 0 0 false) (.file .h 0) .none slotInWindow
  have hstated := congrArg (shows Dev.windows) (hblocks r e t g hsolo (Option.some.inj hpending))
  have hkept : shows Dev.windows (exec waitIndirect slotInWindow) = some [[⟨0, [(0, 7)]⟩]] := by decide +kernel
  have hgiven : (startOf waitIndirect slotInWindow.dev).windows = [[]] := by decide +kernel
  have hheld := windows_mapGroup (startOf waitIndirect slotInWindow.dev) r.team r.gid
    (fun x => { x with block := some (.handle (e.handle (.file .h 0))) }) (fun _ => rfl)
  have hsame : some [[(⟨0, [(0, 7)]⟩ : WinEntry)]] = some [[]] := hkept.symm.trans (hstated.trans (congrArg some (hheld.trans hgiven)))
  exact absurd hsame (by decide)

/-! ## A tile instruction in a queue thread (R25, R263, R282) -/

/-- `tstat` of t0 into y0. -/
def tileStatus : Instr := .tstat Ctl.always (.file .y 0) (.file .t 0) .none

/-- Refutes O28: `tstat`, which no queue thread fetches, leaves a queue thread where it is; the statement has every thread that acts pass. -/
theorem not_tileInstructions : ¬ Obligations.TileInstructions := by
  intro hall
  obtain ⟨-, -, hstat, -⟩ := hall Ctl.always (.file .y 0) (.file .t 0) .none queueIssues
  obtain ⟨u, hnext, hran⟩ := hstat (by decide +kernel) (by decide +kernel)
  obtain ⟨h, hfound, hwent, -⟩ := hran.went _ _ (List.mem_singleton_self _)
  have hstays : exec tileStatus queueIssues = .next queueIssues := rfl
  cases hstays.symm.trans hnext
  cases hfound
  exact absurd hwent (by decide +kernel)

end Sys2Proof.Machine
end

section
/-! PROOF. Events of Auger, the texture units and the shading cache (R267, R268, R271, R273, R274, R445). -/

namespace Sys2Proof.Machine

theorem exec_raySlotGrant (core : Nat) (s : State) : exec (.raySlotGrant core) s = execRaySlotGrant core s := rfl
theorem exec_traceRecord (core slot pick fuel : Nat) (s : State) :
    exec (.traceRecord core slot pick fuel) s = execTraceRecord core slot pick fuel s := rfl
theorem exec_stexResult (id : Nat) (s : State) : exec (.stexResult id) s = execStexResult id s := rfl
theorem exec_shcRequestArrival (id : Nat) (s : State) : exec (.shcRequestArrival id) s = execShcRequestArrival id s := rfl
theorem exec_shcReserveExpiry (core set way : Nat) (s : State) :
    exec (.shcReserveExpiry core set way) s = execShcReserveExpiry core set way s := rfl

/-! ## Auger (R267, R268, R445) -/

section
variable {s : State} {core slot pick fuel id : Nat}

theorem raySlotGrant_makes {r : Ray} {k : Nat} (hray : s.dev.rays.find? (fun r => r.core == core && mayTake s.dev r) = some r)
    (hslot : (List.range Config.raySlots).find? (fun k => !s.dev.rays.any fun x => x.isAt core k) = some k) :
    Makes (.raySlotGrant core) s { s.dev with rays := s.dev.rays.map fun x => if x = r then { r with slot := some k } else x } := by
  simp only [Makes, exec_raySlotGrant, execRaySlotGrant, State.onDev_eq, hray, hslot, beq_iff_eq]

/-- What becomes of a ray that owes a record: status 5, status 0, or the traversal. -/
theorem traceRecord_makes {r : Ray}
    (hray : s.dev.rays.find? (fun r => r.isAt core slot && r.result.isSome && r.candidate.isNone && r.held.isNone) = some r) :
    Makes (.traceRecord core slot pick fuel) s
      (if rayInvalid r then finishRay s.dev core slot r (emptyRecord 5)
       else if rayMisses r then finishRay s.dev core slot r (emptyRecord 0)
       else rayWalk (unitEng s.dev core r.ctx r.who) slot fuel pick r s.dev) := by
  simp only [Makes, exec_traceRecord, execTraceRecord, State.onDev_eq, hray]

/-! ## The texture unit (R271) -/

theorem stexResult_makes {q : TexReq} {v : Nat} {d1 : Dev} (hq : s.dev.tex.find? (fun q => q.id == id) = some q) (hheld : q.held = none)
    (hfirst : ∀ x ∈ s.dev.tex, sameThread x.who q.who = true → q.id ≤ x.id)
    (hvalue : (stexValue (unitEng s.dev q.core q.ctx q.who) q (texWord s.dev q)).on s.dev = (.ok v, d1)) :
    Makes (.stexResult id) s (setResult { d1 with tex := d1.tex.filter fun x => x.id != q.id } q.result v) := by
  have hnone : (s.dev.tex.any fun x => sameThread x.who q.who && decide (x.id < q.id)) = false := by
    simpa using hfirst
  simp only [Makes, exec_stexResult, execStexResult, State.onDev_eq, hq, hheld, hnone, Option.isSome_none, Bool.or_self, Bool.false_eq_true,
    if_false, hvalue, answerTex]

/-! ## The shading cache (R273, R274) -/

/-- A request of a context with a team left is performed (R274). -/
theorem shcRequestArrival_makes {q : ShcReq} (hq : s.dev.shcReqs.find? (fun q => q.id == id) = some q)
    (hteam : ∃ t ∈ s.dev.teams, t.ctx = q.ctx) :
    Makes (.shcRequestArrival id) s (shcPerform { s.dev with shcReqs := s.dev.shcReqs.filter fun x => x.id != id } q) := by
  have hany : (s.dev.teams.any fun t => t.ctx == q.ctx) = true := by simpa using hteam
  simp only [Makes, exec_shcRequestArrival, execShcRequestArrival, State.onDev_eq, hq, hany, if_true]

end

section
variable {d : Dev} {q : ShcReq} {e : ShcEntry} {res way : Nat} {v : List Word}

theorem shcPerform_hit (hfill : q.fill = none) (hres : q.result = some res) (hfind : shcFind d q.core q.ctx q.key = some e)
    (hvalid : e.valid = true) :
    shcPerform d q = setResult (shcPut { d with nextId := d.nextId + 1 } { e with age := d.nextId }) res (shcRecord e.values 1) := by
  have hfind' : shcFind { d with nextId := d.nextId + 1 } q.core q.ctx q.key = some e := hfind
  simp only [shcPerform, Dev.freshId, hfind', hfill, hres, hvalid, if_true]

theorem shcPerform_reserved (hfill : q.fill = none) (hres : q.result = some res) (hfind : shcFind d q.core q.ctx q.key = some e)
    (hvalid : e.valid = false) :
    shcPerform d q = setResult { d with nextId := d.nextId + 1 } res (shcRecord [] 2) := by
  have hfind' : shcFind { d with nextId := d.nextId + 1 } q.core q.ctx q.key = some e := hfind
  simp only [shcPerform, Dev.freshId, hfind', hfill, hres, hvalid, Bool.false_eq_true, if_false]

theorem shcPerform_refill (hfill : q.fill = some v) (hfind : shcFind d q.core q.ctx q.key = some e) :
    shcPerform d q = shcPut { d with nextId := d.nextId + 1 }
      { e with valid := true, values := v, age := if e.valid then e.age else d.nextId } := by
  have hfind' : shcFind { d with nextId := d.nextId + 1 } q.core q.ctx q.key = some e := hfind
  simp only [shcPerform, Dev.freshId, hfind', hfill]

theorem shcPerform_reserves (hfill : q.fill = none) (hres : q.result = some res) (hfind : shcFind d q.core q.ctx q.key = none)
    (hway : shcWay d q.core (shcSet q.key.toNat) = some way) :
    shcPerform d q = setResult (shcPut { d with nextId := d.nextId + 1 }
      { core := q.core, set := shcSet q.key.toNat, way, ctx := q.ctx, key := q.key, valid := false, values := [], age := d.cycle })
      res (shcRecord [] 0) := by
  have hfind' : shcFind { d with nextId := d.nextId + 1 } q.core q.ctx q.key = none := hfind
  have hway' : shcWay { d with nextId := d.nextId + 1 } q.core (shcSet q.key.toNat) = some way := hway
  simp only [shcPerform, Dev.freshId, hfind', hfill, hres, hway']

theorem shcPerform_full (hfill : q.fill = none) (hres : q.result = some res) (hfind : shcFind d q.core q.ctx q.key = none)
    (hway : shcWay d q.core (shcSet q.key.toNat) = none) :
    shcPerform d q = setResult { d with nextId := d.nextId + 1 } res (shcRecord [] 3) := by
  have hfind' : shcFind { d with nextId := d.nextId + 1 } q.core q.ctx q.key = none := hfind
  have hway' : shcWay { d with nextId := d.nextId + 1 } q.core (shcSet q.key.toNat) = none := hway
  simp only [shcPerform, Dev.freshId, hfind', hfill, hres, hway']

theorem shcPerform_fills (hfill : q.fill = some v) (hfind : shcFind d q.core q.ctx q.key = none)
    (hway : shcWay d q.core (shcSet q.key.toNat) = some way) :
    shcPerform d q = shcPut { d with nextId := d.nextId + 1 }
      { core := q.core, set := shcSet q.key.toNat, way, ctx := q.ctx, key := q.key, valid := true, values := v, age := d.nextId } := by
  have hfind' : shcFind { d with nextId := d.nextId + 1 } q.core q.ctx q.key = none := hfind
  have hway' : shcWay { d with nextId := d.nextId + 1 } q.core (shcSet q.key.toNat) = some way := hway
  simp only [shcPerform, Dev.freshId, hfind', hfill, hway']

end

/-- Settles O42, event by event. -/
theorem unitEvents : Obligations.UnitEvents := by
  intro s core slot pick fuel id set way d
  refine ⟨fun r k => raySlotGrant_makes, fun r hray => ?trace, fun q v d1 => stexResult_makes, fun q hq hteam => ?shc, rfl⟩
  case trace =>
    intro makes
    have hmakes : makes _ := traceRecord_makes hray
    refine ⟨fun hinvalid => ?_, fun hvalid hmiss => ?_, fun hvalid hhit => ?_⟩
    · rwa [if_pos hinvalid] at hmakes
    · rwa [if_neg (by simp [hvalid]), if_pos hmiss] at hmakes
    · rwa [if_neg (by simp [hvalid]), if_neg (by simp [hhit])] at hmakes
  case shc =>
    intro d1 makes put place
    have performed : ∀ u, shcPerform { d with shcReqs := d.shcReqs.filter fun x => x.id != id } q = u → makes u :=
      fun u hu => hu ▸ shcRequestArrival_makes hq hteam
    exact ⟨fun e r hfill hres hfind hvalid => performed _ (shcPerform_hit hfill hres hfind hvalid),
      fun e r hfill hres hfind hvalid => performed _ (shcPerform_reserved hfill hres hfind hvalid),
      fun r k hfill hres hfind hway => performed _ (shcPerform_reserves hfill hres hfind hway),
      fun r hfill hres hfind hway => performed _ (shcPerform_full hfill hres hfind hway),
      fun e v hfill hfind => performed _ (shcPerform_refill hfill hfind),
      fun v k hfill hres hfind hway => performed _ (shcPerform_fills hfill hfind hway)⟩

end Sys2Proof.Machine
end

section
/-! PROOF. Requests of one thread to Auger, the texture unit, the shading cache and the stack agents (R267, R269, R271, R274, R276, R277). -/

namespace Sys2Proof.Machine

theorem exec_trace (c : Ctl) (d a b : Operand) (s : State) : exec (.trace c d a b) s = execTrace c d a b s := rfl
theorem exec_traceResume (c : Ctl) (d a b : Operand) (s : State) : exec (.traceResume c d a b) s = execTraceResume c d a b s := rfl
theorem exec_stex (c : Ctl) (mode : StexMode) (d a b : Operand) (s : State) : exec (.stex c mode d a b) s = execStex c mode d a b s := rfl
theorem exec_shcProbe (c : Ctl) (d a b : Operand) (s : State) : exec (.shcProbe c d a b) s = execShcProbe c d a b s := rfl
theorem exec_shcFill (c : Ctl) (d a b : Operand) (s : State) : exec (.shcFill c d a b) s = execShcFill c d a b s := rfl
theorem exec_collReady (c : Ctl) (d a b : Operand) (s : State) : exec (.collReady c d a b) s = execCollReady c d a b s := rfl
theorem exec_collArm (c : Ctl) (d a b : Operand) (s : State) : exec (.collArm c d a b) s = execCollArm c d a b s := rfl

/-! ## Readying an instruction touches the teams alone -/

theorem prepare_teams (i : Instr) (d : Dev) : ∃ l, d.prepare i = { d with teams := l } := by
  unfold Dev.prepare
  split
  · exact ⟨_, rfl⟩
  · exact ⟨_, rfl⟩

theorem clearLong_teams (i : Instr) (d : Dev) : ∃ l, clearLong i d = { d with teams := l } := by
  unfold clearLong
  dsimp only
  split
  · split
    · split <;> exact ⟨_, rfl⟩
    · exact ⟨_, rfl⟩
  · exact ⟨_, rfl⟩

/-- An instruction with a named result takes the name, and readies the window of its group. -/
theorem startOf_teams {i : Instr} {d : Dev} (hn : named i = true) (hf : flushes i = false) :
    ∃ l, startOf i d = { d with teams := l, nextId := d.nextId + 1 } := by
  obtain ⟨k, hk⟩ := clearLong_teams i d.freshId.2
  obtain ⟨l, hl⟩ := prepare_teams i (clearLong i d.freshId.2)
  exact ⟨l, by rw [startOf_named hn hf, hl, hk]; rfl⟩

section
variable {i : Instr} {s : State} {r : TRef} {e : Env} {t : Team} {g : Group}

/-- One thread's instruction with a result of long latency, from what it does before the thread passes. -/
theorem issues_of_longEach {check : Env → Option Trap} {eff : Nat → Env → Who → Dev → Dev} {out : Dev → Dev}
    (hexec : exec i s = s.onDev (longEach i check eff)) (hn : named i = true) (hf : flushes i = false)
    (hs : soloOf i s = some (r, e, t, g)) (hcheck : check e = none)
    (heff : eff s.dev.nextId e (.thr r) (startOf i s.dev) = past i r (out (startOf i s.dev))) : Issues i s r out := by
  have h := solo_of_soloOf hs
  have hi := h.issues
  rw [startOf_named hn hf] at hi heff
  unfold Issues Does
  rw [hexec, startOf_named hn hf, State.onDev_eq, longEach]
  simp only [eachThread_one _ _ hi h.clear, hcheck, Option.elim_none]
  rw [show s.dev.freshId.1 = s.dev.nextId from rfl, heff]

end

/-! ## Auger (R267, R269) -/

section
variable {c : Ctl} {d a b : Operand} {s : State} {r : TRef} {e : Env} {t : Team} {g : Group}

theorem trace_issues (hs : soloOf (.trace c d a b) s = some (r, e, t, g)) : Issues (.trace c d a b) s r fun m =>
    { awaiting r (some (destOf e .pktDst d)) none (2 ^ 256 - 1) s.dev.nextId false m with
      rays := m.rays ++ [newRay e.core r e.ctx (e.scalar 64 .int b)
        ((List.range 16).map fun j => BitVec.ofNat 32 (elem 32 (e.packets 2 a) j)) m.nextId] } :=
  issues_of_longEach (exec_trace c d a b s) rfl rfl hs rfl rfl

/-- The ray that a resume names: in its slot, of the thread, a candidate of it offered (R269). -/
def offeredRay (e : Env) (r : TRef) (v : Nat) (x : Ray) : Bool := x.isAt e.core (v % 2048) && sameThread x.who r && x.candidate.isSome

/-- A resume that names a ray, and decides, hands Auger the ray with the answer. -/
theorem traceResume_answers (hs : soloOf (.traceResume c d a b) s = some (r, e, t, g)) {x : Ray}
    (hx : s.dev.rays.find? (offeredRay e r (e.scalar 32 .int a)) = some x) (hdecides : field (e.scalar 32 .int a) 17 16 ≠ 3) :
    Issues (.traceResume c d a b) s r fun m =>
      (awaiting r (some (destOf e .pktDst d)) none (2 ^ 256 - 1) s.dev.nextId false m).putRay e.core (e.scalar 32 .int a % 2048)
        (x.answer (field (e.scalar 32 .int a) 17 16) (BitVec.ofNat 32 (e.scalar 32 .int b)) m.nextId) := by
  refine issues_of_longEach (exec_traceResume c d a b s) rfl rfl hs rfl ?_
  obtain ⟨l, hstart⟩ := startOf_teams (i := .traceResume c d a b) (d := s.dev) rfl rfl
  rw [hstart]
  simp only [newResult, Dev.freshId]
  unfold offeredRay at hx
  simp only [hx, if_neg hdecides]
  rfl

/-- A resume that names no ray, or decides nothing, has its record at once. -/
theorem traceResume_invalid (hs : soloOf (.traceResume c d a b) s = some (r, e, t, g))
    (hbad : s.dev.rays.find? (offeredRay e r (e.scalar 32 .int a)) = none ∨ field (e.scalar 32 .int a) 17 16 = 3) :
    Issues (.traceResume c d a b) s r fun m =>
      setResult (awaiting r (some (destOf e .pktDst d)) none (2 ^ 256 - 1) s.dev.nextId false m) m.nextId (emptyRecord 6) := by
  refine issues_of_longEach (exec_traceResume c d a b s) rfl rfl hs rfl ?_
  obtain ⟨l, hstart⟩ := startOf_teams (i := .traceResume c d a b) (d := s.dev) rfl rfl
  rw [hstart]
  simp only [newResult, Dev.freshId]
  unfold offeredRay at hbad
  cases hx : s.dev.rays.find? fun x => x.isAt e.core (e.scalar 32 .int a % 2048) && sameThread x.who r && x.candidate.isSome with
  | none => rfl
  | some x =>
    have hdecides : field (e.scalar 32 .int a) 17 16 = 3 := hbad.resolve_left (by rw [hx]; exact Option.some_ne_none x)
    simp only [if_pos hdecides]
    rfl

/-! ## The texture unit and the shading cache (R271, R274) -/

theorem stex_issues {mode : StexMode} (hs : soloOf (.stex c mode d a b) s = some (r, e, t, g)) : Issues (.stex c mode d a b) s r fun m =>
    let u := awaiting r (some (destOf e .pktDst d)) none (stexMask mode (lamCountOf g.lambda)) s.dev.nextId false m
    { u with
      nextId := u.nextId + 1
      tex := u.tex ++ [{ id := u.nextId, who := r, ctx := e.ctx, core := e.core, mode, index := e.scalar 32 .int b,
                         packet := e.packet 32 .int a, lambda := g.lambda, result := m.nextId, held := none }] } := by
  refine issues_of_longEach (exec_stex c mode d a b s) rfl rfl hs rfl ?_
  simp only [(solo_of_soloOf hs).own]
  rfl

theorem shcProbe_issues (hs : soloOf (.shcProbe c d a b) s = some (r, e, t, g)) : Issues (.shcProbe c d a b) s r fun m =>
    let u := awaiting r (some (destOf e .pktDst d)) none (2 ^ 256 - 1) s.dev.nextId false m
    { u with
      nextId := u.nextId + 1
      shcReqs := u.shcReqs ++ [{ id := u.nextId, who := r, ctx := e.ctx, core := e.core, key := e.bv 64 a, fill := none,
                                 result := some m.nextId }] } :=
  issues_of_longEach (exec_shcProbe c d a b s) rfl rfl hs rfl rfl

theorem shcFill_does (hs : soloOf (.shcFill c d a b) s = some (r, e, t, g)) : Does (.shcFill c d a b) s fun m => past (.shcFill c d a b) r
    { m with
      nextId := m.nextId + 1
      shcReqs := m.shcReqs ++ [{ id := m.nextId, who := r, ctx := e.ctx, core := e.core, key := e.bv 64 a
                                 fill := some ((List.range 7).map fun j => BitVec.ofNat 32 (elem 32 (e.packet 32 .int b) j))
                                 result := none }] } := by
  unfold Does
  rw [exec_shcFill, execShcFill, State.onDev_eq, eachThread_solo _ rfl rfl hs rfl]
  rfl

/-! ## The stack agents (R276, R277) -/

theorem collReady_does (hs : soloOf (.collReady c d a b) s = some (r, e, t, g)) : Does (.collReady c d a b) s fun m =>
    past (.collReady c d a b) r
      { m with
        nextId := m.nextId + 1
        collReqs := m.collReqs ++ [{ id := m.nextId, who := r, core := e.core, ctx := e.ctx, selector := e.count a, image := none,
                                     result := none }] } := by
  unfold Does
  rw [exec_collReady, execCollReady, State.onDev_eq, eachThread_solo _ rfl rfl hs rfl]
  rfl

/-- An image lies in a die's scratchpad or in team memory (R276). -/
theorem imageAt_cases {ea : Nat} {loc : Loc} (h : imageAt e ea = some loc) : (∃ k, loc = .scr k) ∨ ∃ k, loc = .tmem k := by
  unfold imageAt at h
  split at h
  · next hap =>
    simp only [Bool.or_eq_true, beq_iff_eq] at hap
    unfold localAt at h
    dsimp only at h
    split at h
    · cases h
    · rcases hap with hap | hap
      · rw [hap] at h
        cases hown : e.own with
        | none => rw [hown] at h; cases h
        | some p =>
          rw [hown] at h
          dsimp only at h
          split at h
          · cases h
          · exact .inr ⟨_, (Option.some.inj h).symm⟩
      · rw [hap] at h
        obtain ⟨p, -, hp⟩ := Option.map_eq_some_iff.mp h
        exact .inl ⟨_, hp.symm⟩
  · cases h

/-- The newest request to an agent, with an image, performed: the entry is armed, and the request answered. -/
theorem performColl_arm (m : Dev) (q : CollReq) {image : List DWord} (hq : q.image = some image) :
    performColl { m with collReqs := m.collReqs ++ [q] } q =
      let x := armEntry { m with collReqs := m.collReqs.filter fun x => x.id != q.id } q.ctx q.selector image
      q.result.elim x.2 fun id => setResult x.2 id x.1 := by
  have hfilter : (m.collReqs ++ [q]).filter (fun x => x.id != q.id) = m.collReqs.filter fun x => x.id != q.id := by
    simp
  cases hres : q.result <;> simp only [performColl, hq, hres, hfilter, Option.elim_none, Option.elim_some]

/-- The newest request waits for none where the thread has no earlier one to the entry. -/
theorem collBehind_newest {m : Dev} {q : CollReq}
    (hfirst : ∀ x ∈ m.collReqs, sameThread x.who q.who = true → field x.selector 15 0 ≠ field q.selector 15 0) :
    collBehind { m with collReqs := m.collReqs ++ [q] } q = false := by
  simp only [collBehind, List.any_append, List.any_cons, List.any_nil, Nat.lt_irrefl, decide_false, Bool.and_false, Bool.false_and,
    Bool.or_false, List.any_eq_false, Bool.and_eq_true, beq_iff_eq, not_and]
  exact fun x hx hsame => hfirst x hx hsame.1

/-- The newest request to an agent, with an image, is performed as it comes where the thread has no earlier one to the entry. -/
theorem performColl_newest {m : Dev} {q : CollReq} {image : List DWord} (hq : q.image = some image)
    (hfirst : ∀ x ∈ m.collReqs, sameThread x.who q.who = true → field x.selector 15 0 ≠ field q.selector 15 0) :
    (if collBehind { m with collReqs := m.collReqs ++ [q] } q then { m with collReqs := m.collReqs ++ [q] }
      else performColl { m with collReqs := m.collReqs ++ [q] } q) =
      let x := armEntry { m with collReqs := m.collReqs.filter fun x => x.id != q.id } q.ctx q.selector image
      q.result.elim x.2 fun id => setResult x.2 id x.1 := by
  rw [if_neg (by rw [collBehind_newest hfirst]; exact Bool.false_ne_true), performColl_arm m q hq]

/-- The request of `coll.arm` as its agent gets it, performed unless it waits for an earlier one. -/
def askAgent (e : Env) (r : TRef) (d b : Operand) (k : Nat) (image : List DWord) (m : Dev) : Dev :=
  let p := armResult e r d k m
  let q : CollReq :=
    { id := p.2.nextId, who := r, core := e.core, ctx := e.ctx, selector := e.scalar 32 .int b, image := some image, result := p.1 }
  let u : Dev := { p.2 with nextId := p.2.nextId + 1 }
  if collBehind { u with collReqs := u.collReqs ++ [q] } q then { u with collReqs := u.collReqs ++ [q] }
  else performColl { u with collReqs := u.collReqs ++ [q] } q

/-- A request that waits for none arms the entry at once, and its answer is awaited where D is used. -/
theorem askAgent_arms {m : Dev} {k : Nat} {image : List DWord}
    (hfirst : ∀ q ∈ m.collReqs, sameThread q.who r = true → field q.selector 15 0 ≠ field (e.count b) 15 0) :
    askAgent e r d b k image m =
      let u := awaiting r (if d = .none then none else some (destOf e (.optDst false) d)) none (2 ^ 32 - 1) k false m
      let x := armEntry { u with nextId := u.nextId + 1, collReqs := u.collReqs.filter fun q => q.id != u.nextId } e.ctx (e.count b) image
      if d = .none then x.2 else setResult x.2 m.nextId x.1 := by
  by_cases hd : d = .none
  · subst hd
    exact performColl_newest
      (m := { m with nextId := m.nextId + 1 })
      (q := { id := m.nextId, who := r, core := e.core, ctx := e.ctx, selector := e.count b, image := some image, result := none }) rfl hfirst
  · have hres : armResult e r d k m = (some m.nextId, awaiting r (some (destOf e (.optDst false) d)) none (2 ^ 32 - 1) k false m) := by
      unfold armResult
      split
      · exact absurd rfl hd
      · rfl
    simp only [askAgent, hres, if_neg hd]
    exact performColl_newest
      (m := { awaiting r (some (destOf e (.optDst false) d)) none (2 ^ 32 - 1) k false m with nextId := m.nextId + 2 })
      (q := { id := m.nextId + 1, who := r, core := e.core, ctx := e.ctx, selector := e.count b, image := some image, result := some m.nextId })
      rfl hfirst

theorem collArm_issues {loc : Loc} (hs : soloOf (.collArm c d a b) s = some (r, e, t, g))
    (hloc : imageAt e (e.scalar 64 .int a) = some loc) (hgran : ∀ k, loc = .scr k → granuleOk s.dev e.ctx false k = true)
    (hclean : loc.poisoned s.dev none 0 64 = false)
    (hfirst : ∀ q ∈ s.dev.collReqs, sameThread q.who r = true → field q.selector 15 0 ≠ field (e.count b) 15 0) :
    Issues (.collArm c d a b) s r fun m =>
      let u := awaiting r (if d = .none then none else some (destOf e (.optDst false) d)) none (2 ^ 32 - 1) s.dev.nextId false m
      let x := armEntry { u with nextId := u.nextId + 1, collReqs := u.collReqs.filter fun q => q.id != u.nextId } e.ctx (e.count b)
        ((List.range 8).map fun j => BitVec.ofNat 64 (ownView s.dev r loc 64 / 2 ^ (64 * j)))
      if d = .none then x.2 else setResult x.2 m.nextId x.1 := by
  have hcheck : (if (imageAt e (e.scalar 64 .int a)).isSome then none else some (apertureTrap e (e.scalar 64 .int a))) = none := by
    rw [hloc]; rfl
  refine issues_of_longEach (exec_collArm c d a b s) rfl rfl hs hcheck ?_
  obtain ⟨l, hstart⟩ := startOf_teams (i := .collArm c d a b) (d := s.dev) rfl rfl
  have hreqs : (startOf (.collArm c d a b) s.dev).collReqs = s.dev.collReqs := by rw [hstart]
  rw [← hreqs] at hfirst
  refine Eq.trans ?_ (congrArg (past (.collArm c d a b) r) (askAgent_arms hfirst))
  rcases imageAt_cases hloc with ⟨k, rfl⟩ | ⟨k, rfl⟩
  · have hgran' : granuleOk (startOf (.collArm c d a b) s.dev) e.ctx false k = true := by rw [hstart]; exact hgran k rfl
    have hclean' : (Loc.scr k).poisoned (startOf (.collArm c d a b) s.dev) none 0 64 = false := by rw [hstart]; exact hclean
    have hview : ownView (startOf (.collArm c d a b) s.dev) r (.scr k) 64 = ownView s.dev r (.scr k) 64 := by rw [hstart]; rfl
    simp only [hloc, hgran', hclean', hview, Option.any_some, Bool.not_true, Bool.false_eq_true, if_false]
    rfl
  · have hclean' : (Loc.tmem k).poisoned (startOf (.collArm c d a b) s.dev) none 0 64 = false := by rw [hstart]; exact hclean
    have hview : ownView (startOf (.collArm c d a b) s.dev) r (.tmem k) 64 = ownView s.dev r (.tmem k) 64 := by rw [hstart]; rfl
    simp only [hloc, hclean', hview, Option.any_none, Bool.false_eq_true, if_false]
    rfl

end

/-- Settles O29, request by request. -/
theorem unitRequests : Obligations.UnitRequests := by
  refine ⟨fun c mode d a b s r e t g => ⟨trace_issues, fun hs => ⟨fun x => traceResume_answers hs, traceResume_invalid hs⟩, stex_issues,
    shcProbe_issues, shcFill_does⟩, fun c d a b s r e t g => ⟨collReady_does, fun loc hs => collArm_issues hs⟩⟩

end Sys2Proof.Machine
end

section
/-! PROOF. The other instructions of a queue thread: semaphores, `ttrig`, `intr` and `qnext` (R284, R310, R311). -/

namespace Sys2Proof.Machine

theorem exec_semWaitGe (c : Ctl) (d a b : Operand) (s : State) : exec (.semWaitGe c d a b) s = execSemWaitGe c d a b s := rfl
theorem exec_semSig (c : Ctl) (set : Bool) (d a b : Operand) (s : State) : exec (.semSig c set d a b) s = execSemSig c set d a b s := rfl
theorem exec_ttrig (c : Ctl) (d a b : Operand) (s : State) : exec (.ttrig c d a b) s = execTtrig c d a b s := rfl
theorem exec_intr (c : Ctl) (d a b : Operand) (s : State) : exec (.intr c d a b) s = execIntr c d a b s := rfl
theorem exec_qnext (c : Ctl) (d a b : Operand) (s : State) : exec (.qnext c d a b) s = execQnext c d a b s := rfl

section
variable {i : Instr} {c : Ctl} {d a b : Operand} {s : State} {q k : Nat} {e : Env}

/-- A queue thread's instruction that passes its check. -/
theorem makes_of_queue {check : Env → Option Trap} {eff : Env → Who → Dev → Dev} (hexec : exec i s = s.onDev (eachThread i check eff))
    (hn : named i = false) (hf : flushes i = false) (hq : queueOf i s = some (q, e)) (hcheck : check e = none) :
    Makes i s (eff e (.que q) s.dev) := by
  unfold Makes
  rw [hexec, State.onDev_eq, (eachThread_queue check eff hn hf hq).2, hcheck, Option.elim_none]

/-- A queue thread stands in no team. -/
theorem own_of_queueOf (hq : queueOf i s = some (q, e)) : e.own = none := by
  obtain ⟨hi, -⟩ := issuers_of_queueOf hq
  obtain ⟨-, -, hown, -⟩ := issuers_que (by rw [hi]; exact List.mem_singleton_self (Who.que q, e))
  exact hown

/-- A result without a second one and without Philox words: D written, and the thread passes. -/
theorem writeOut_plain (val mask : Nat) (e : Env) (w : Who) (m : Dev) :
    writeOut i { val, mask } e w m =
      (writeDest m w (Roles.rolesOf i).1 (Roles.opsOf i).1 (firstSlot e (Roles.rolesOf i).1 (Roles.opsOf i).1) (nextSeq e) val mask).pass i w := by
  have hsame : (fun h : Thread => { h with pos := h.pos + BitVec.ofNat 64 0 }) = id := by
    funext h
    simp
  simp only [writeOut, hsame, Dev.pass, Dev.mapWho_touch]
  exact Dev.touch_touch _ w id _ id id fun _ => rfl

/-! ## Semaphores (R284) -/

/-- A word in a granule of the queue's context passes the check. -/
theorem queueCheck_passes (hd : e.d = s.dev) {n : Nat} {ea : Env → Nat} (hword : queueWord e n (ea e) = some k)
    (hgran : granuleOk s.dev e.ctx true k = true) : queueCheck n ea e = none := by
  unfold queueCheck
  simp only [hword, hd, hgran, if_true]

/-- `sem.wait.ge` on a readable word: passed where the word has reached b, else a wait with a watch on the word. -/
theorem semWaitGe_makes (hq : queueOf (.semWaitGe c d a b) s = some (q, e)) (hword : queueWord e 8 (e.scalar 64 .int a) = some k)
    (hgran : granuleOk s.dev e.ctx true k = true) (hclean : poisoned s.dev 1 k 8 = false) :
    Makes (.semWaitGe c d a b) s
      (if e.scalar 64 .int b ≤ Memory.readN s.dev.scr k 8 then s.dev.pass (.semWaitGe c d a b) (.que q)
       else
        let m := s.dev.setQueue q ((s.dev.queue q).park (.word (e.scalar 64 .int a)))
        if (m.queue q).wait == .none then m
        else { m with watch := m.watch ++ [⟨k, .queue q, 2, e.scalar 64 .int b, watchRoom m k⟩] }) := by
  have hd := (eachThread_queue noCheck (fun _ _ m => m) rfl rfl hq).1
  have := makes_of_queue (exec_semWaitGe c d a b s) rfl rfl hq (queueCheck_passes (ea := fun e => e.scalar 64 .int a) hd hword hgran)
  simpa only [hword, hclean, Bool.false_eq_true, if_false] using this

theorem semWaitGe_waits (hq : queueOf (.semWaitGe c d a b) s = some (q, e)) (hword : queueWord e 8 (e.scalar 64 .int a) = some k)
    (hgran : granuleOk s.dev e.ctx true k = true) (hclean : poisoned s.dev 1 k 8 = false)
    (hbelow : Memory.readN s.dev.scr k 8 < e.scalar 64 .int b) (hstop : (s.dev.queue q).stopping = false) :
    Makes (.semWaitGe c d a b) s { s.dev.setQueue q { s.dev.queue q with wait := .word (e.scalar 64 .int a) } with
      watch := s.dev.watch ++ [⟨k, .queue q, 2, e.scalar 64 .int b, watchRoom s.dev k⟩] } := by
  have := semWaitGe_makes hq hword hgran hclean
  rw [if_neg (Nat.not_le.mpr hbelow), Queue.park_of_running hstop] at this
  dsimp only at this
  rw [if_neg (by rw [Dev.queue_setQueue, if_pos rfl]; exact Bool.false_ne_true)] at this
  exact this

/-- `sem.sig` on a readable word: the word is written, and who waits on it is tested. -/
theorem semSig_makes {set : Bool} (hq : queueOf (.semSig c set d a b) s = some (q, e))
    (hword : queueWord e 8 (e.scalar 64 .int a) = some k) (hgran : granuleOk s.dev e.ctx true k = true)
    (hclean : poisoned s.dev 1 k 8 = false) :
    Makes (.semSig c set d a b) s ((wakeWords { s.dev with
      scr := Memory.writeN s.dev.scr k 8
        (if set then e.scalar 64 .int b else (Memory.readN s.dev.scr k 8 + e.scalar 64 .int b) % 2 ^ 64)
      poison := unpoison s.dev 1 k 8 } k 8).pass (.semSig c set d a b) (.que q)) := by
  have hd := (eachThread_queue noCheck (fun _ _ m => m) rfl rfl hq).1
  have := makes_of_queue (exec_semSig c set d a b s) rfl rfl hq (queueCheck_passes (ea := fun e => e.scalar 64 .int a) hd hword hgran)
  simp only [hword, hclean, Bool.false_eq_true, if_false] at this
  exact this

/-! ## Time and interrupts (R284, R453) -/

theorem ttrig_makes (hq : queueOf (.ttrig c d a b) s = some (q, e)) :
    Makes (.ttrig c d a b) s (if timeReached s.dev (e.scalar 64 .int a) then s.dev.pass (.ttrig c d a b) (.que q)
      else s.dev.setQueue q ((s.dev.queue q).park (.time (BitVec.ofNat 64 (e.scalar 64 .int a))))) :=
  makes_of_queue (exec_ttrig c d a b s) rfl rfl hq rfl

/-- An instant as `ttrig` takes it: the value modulo 2^64. -/
theorem timeReached_ofNat (m : Dev) (n : Nat) : timeReached m n = true ↔ (dtime64 m - BitVec.ofNat 64 n).msb = false := by
  rw [← timeReached_iff, timeReached, timeReached, BitVec.toNat_ofNat, Nat.mod_mod]

theorem notify_msi (m : Dev) (port fn v : Nat) :
    m.notify (.msi port fn v) = if m.isLost port then m else { m with notices := m.notices ++ [.msi port fn v] } := rfl

/-! ## The ring (R284, R311) -/

theorem head_eq (v : Queue) : v.head = v.w3.toNat / 2 ^ 32 := by
  rw [Queue.head, Laws.Encoding.field_eq_div]
  have := v.w3.isLt
  omega

theorem tail_eq (v : Queue) : v.tail = v.w3.toNat % 2 ^ 32 := by
  rw [Queue.tail, Laws.Encoding.field_eq_div, pow_zero, Nat.div_one]

/-- The head put back into its half of word 3 (R310). -/
theorem putField_head (w n : Nat) (hw : w < 2 ^ 64) (hn : n < 2 ^ 32) : putField w 63 32 n = n * 2 ^ 32 + w % 2 ^ 32 := by
  rw [putField, Laws.Encoding.field_eq_div]
  omega

/-- At an empty ring the thread waits. -/
theorem qnext_waits (hq : queueOf (.qnext c d a b) s = some (q, e)) (hempty : (s.dev.queue q).head = (s.dev.queue q).tail)
    (hstop : (s.dev.queue q).stopping = false) :
    Makes (.qnext c d a b) s (s.dev.setQueue q { s.dev.queue q with wait := .ring }) := by
  have hmakes := makes_of_queue (exec_qnext c d a b s) rfl rfl hq rfl
  simp only [if_pos hempty, Queue.park_of_running hstop] at hmakes
  exact hmakes

/-- An entry in a granule of the context, not poisoned, is taken: the head goes on, and the entry is the result. -/
theorem qnext_takes (hq : queueOf (.qnext c d a b) s = some (q, e)) (hentry : (s.dev.queue q).head ≠ (s.dev.queue q).tail)
    (hgran : granuleOk s.dev e.ctx true (ringKey (s.dev.queue q) (s.dev.queue q).head) = true)
    (hclean : poisoned s.dev 1 (ringKey (s.dev.queue q) (s.dev.queue q).head) 8 = false) :
    Makes (.qnext c d a b) s ((writeDest
      (s.dev.setQueue q { s.dev.queue q with
        w3 := BitVec.ofNat 64 (putField (s.dev.queue q).w3.toNat 63 32 (((s.dev.queue q).head + 1) % 2 ^ 32)) })
      (.que q) (.dst true) d (firstSlot e (.dst true) d) 0
      (Memory.readN s.dev.scr (ringKey (s.dev.queue q) (s.dev.queue q).head) 8) (2 ^ 64 - 1)).pass (.qnext c d a b) (.que q)) := by
  have hmakes := makes_of_queue (exec_qnext c d a b s) rfl rfl hq rfl
  simp only [if_neg hentry, hgran, hclean, Bool.not_true, Bool.false_eq_true, if_false, writeOut_plain, nextSeq, own_of_queueOf hq] at hmakes
  exact hmakes

end

/-- Settles O37, instruction by instruction. -/
theorem queueInstructions : Obligations.QueueInstructions := by
  intro c d a b s q e pass ea v wait word
  refine ⟨?semWait, ?semSig, ?ttrig, ?intr, ?qnext⟩
  case semWait =>
    rintro i hq k ⟨hword, hgran, hclean⟩
    refine ⟨fun hreached => ?_, semWaitGe_waits hq hword hgran hclean⟩
    have hmakes := semWaitGe_makes hq hword hgran hclean
    rwa [if_pos hreached] at hmakes
  case semSig =>
    rintro set i hq k ⟨hword, hgran, hclean⟩
    exact semSig_makes hq hword hgran hclean
  case ttrig =>
    intro i hq
    have hmakes := ttrig_makes hq
    refine ⟨fun hreached => ?_, fun hearly hstop => ?_⟩
    · rwa [if_pos ((timeReached_ofNat _ _).mpr hreached)] at hmakes
    · have hnot : ¬ timeReached s.dev (e.scalar 64 .int a) = true := by
        rw [timeReached_ofNat, hearly]
        exact Bool.noConfusion
      rwa [if_neg hnot, Queue.park_of_running hstop] at hmakes
  case intr =>
    intro i hq
    exact makes_of_queue (exec_intr c d a b s) rfl rfl hq rfl
  case qnext =>
    intro i hq head k
    have hhead : (s.dev.queue q).head = head := head_eq _
    have htail : (s.dev.queue q).tail = v.w3.toNat % 2 ^ 32 := tail_eq _
    refine ⟨fun hempty hstop => qnext_waits hq (by rw [hhead, htail, hempty]) hstop, fun hentry hgran hclean => ?_⟩
    intro role
    have hmakes := qnext_takes hq (by rw [hhead, htail]; exact Ne.symm hentry) (hhead ▸ hgran) (hhead ▸ hclean)
    rw [hhead, putField_head _ _ v.w3.isLt (Nat.mod_lt _ (by decide))] at hmakes
    exact hmakes

end Sys2Proof.Machine
end

section
/-! PROOF. `jpost` of one thread: the card held at its core, the group held at its `jpost`, and the job-card trap (R241 to R249). -/

namespace Sys2Proof.Machine

/-! ## The instructions -/

/-- What the five instructions of `jpost` have in common: `kind` of the job, `.ord`, and the operands. -/
structure PostsJob (i : Instr) (kind : Nat) (ord : Bool) (d a : Operand) : Prop where
  runs : ∀ s, exec i s = s.onDev (jpostRun i kind ord d a)
  roles : Roles.rolesOf i = (.optHandle, .packets 2, .unused)
  ops : (Roles.opsOf i).1 = d
  name : named i = false
  window : flushes i = false

theorem jpostCopy_posts (c : Ctl) (ord : Bool) (d a b : Operand) : PostsJob (.jpostCopy c ord d a b) 0 ord d a :=
  ⟨fun _ => rfl, rfl, rfl, rfl, rfl⟩
theorem jpostGather_posts (c : Ctl) (ord : Bool) (d a b : Operand) : PostsJob (.jpostGather c ord d a b) 1 ord d a :=
  ⟨fun _ => rfl, rfl, rfl, rfl, rfl⟩
theorem jpostMma_posts (c : Ctl) (ord : Bool) (d a b : Operand) : PostsJob (.jpostMma c ord d a b) 2 ord d a :=
  ⟨fun _ => rfl, rfl, rfl, rfl, rfl⟩
theorem jpostMmaGather_posts (c : Ctl) (ord : Bool) (d a b : Operand) : PostsJob (.jpostMmaGather c ord d a b) 3 ord d a :=
  ⟨fun _ => rfl, rfl, rfl, rfl, rfl⟩
theorem jpostEpilogue_posts (c : Ctl) (ord : Bool) (d a b : Operand) : PostsJob (.jpostEpilogue c ord d a b) 4 ord d a :=
  ⟨fun _ => rfl, rfl, rfl, rfl, rfl⟩

/-! ## A card posted (R248, R255) -/

/-- Bit 43 of a posted header is `.ord` (R243). -/
theorem jobOrd_cardPosted (kind : Nat) (ord compat : Bool) (c : List DWord) : jobOrd (cardPosted kind ord compat c) = ord := by
  have hcompat : b2n compat ≤ 1 := by cases compat <;> decide
  have hord : b2n ord ≤ 1 := by cases ord <;> decide
  have hbit : ∀ x y : Nat, (x * 2 ^ 60 + y * 2 ^ 58 + field (cardWord c 0) 57 44 * 2 ^ 44 + b2n ord * 2 ^ 43 + b2n compat * 2 ^ 42 +
      cardWord c 0 % 2 ^ 42) % 2 ^ 64 / 2 ^ 43 % 2 = b2n ord := by
    intro x y
    generalize field (cardWord c 0) 57 44 = f
    generalize cardWord c 0 = w
    omega
  simp only [jobOrd, cardPosted, cardWord, List.getD_cons_zero, BitVec.toNat_ofNat, bitOf, Nat.testBit_eq_decide_div_mod_eq] at hbit ⊢
  rw [hbit]
  cases ord <;> rfl

/-- The job that a thread posts: the next of its cluster, in the first free entry. -/
def newJob (d : Dev) (r : TRef) (t : Team) (g : Group) (card : List DWord) : Job :=
  { seq := (d.join (clusterOf g.core)).count, slot := freeEntry d (clusterOf g.core), card, who := r, ctx := t.ctx, core := g.core,
    team := t.id, grid := t.grid, state := .waiting, preds := [], failedRoot := none, shares := [], engine := none, drain := false,
    lost := none, passes := 0, cancelAsked := false }

/-- The job that a post with `.ord` follows: the group's last one, where it went to the same cluster (R125). -/
def follows (g : Group) (ord : Bool) : Option Nat :=
  match g.lastPost with
  | some p => if ord && p.1 == clusterOf g.core then some p.2 else none
  | none => none

/-- The machine with the card held at its core and counted at its cluster (R248). -/
def cardHeld (d : Dev) (r : TRef) (t : Team) (g : Group) (ord : Bool) (card : List DWord) (m : Dev) : Dev :=
  { m.setJoin (clusterOf g.core)
      { d.join (clusterOf g.core) with
        count := ((d.join (clusterOf g.core)).count + 1) % 2 ^ 37
        jobs := (d.join (clusterOf g.core)).jobs.filter fun x => x.slot != freeEntry d (clusterOf g.core) } with
    cards := m.cards ++ [{ core := g.core, job := newJob d r t g card, upto := m.nextId, ordAfter := follows g ord }] }

section
variable {i : Instr} {kind : Nat} {ord : Bool} {d a : Operand} {s : State} {r : TRef} {e : Env} {t : Team} {g : Group}

/-- What `jpost` leaves of one thread's card, and its handle. -/
theorem postCard_solo {m : Dev} {l : List Team} (hm : m = { s.dev with teams := l }) (hf : m.Finds r t g e.h) (hown : e.own = some (t, g))
    (card : List DWord) (hord : jobOrd card = ord) :
    postCard e r card m = ((newJob s.dev r t g card).handle,
      (cardHeld s.dev r t g ord card m).mapGroup r.team r.gid fun x =>
        { x with lastPost := some (clusterOf g.core, (s.dev.join (clusterOf g.core)).count) }) := by
  have hgroup : m.group? t.id g.gid = some g := by rw [hf.team_id, hf.group_gid, hf.group?]
  subst hord
  simp only [postCard, hown, hgroup, Option.bind_some]
  rw [← hf.team_id, ← hf.group_gid]
  subst hm
  rfl

/-! ## One issue for a run of one thread -/

/-- The thread that acts for a run of one. -/
theorem actor_one {m : Dev} {w : Who} (hi : issuers m = [(w, e)]) (hc : clear e i = true) : actor i m = some (w, e) := by
  simp only [clear, Bool.and_eq_true] at hc
  obtain ⟨⟨hguard, -⟩, -⟩ := hc
  simp only [actor, hi, List.find?_cons, hguard]

/-- The single issue of a run of one thread that executes. -/
theorem uniformOnce_one {m : Dev} {w : Who} (check : Env → Option Trap) (eff : Env → Who → Dev → Dev) (hi : issuers m = [(w, e)])
    (hc : clear e i = true) : uniformOnce i check eff m = (check e).elim (eff e w m) (m.trap w) := by
  have hactor := actor_one hi hc
  have halive : m.alive w = true := issuers_alive _ (w, e) (by rw [hi]; exact List.mem_singleton_self _)
  simp only [clear, Bool.and_eq_true, Option.isNone_iff_eq_none] at hc
  obtain ⟨⟨hguard, hrange⟩, hpoison⟩ := hc
  rw [actor] at hactor
  simp only [uniformOnce, hactor]
  simp only [hi, List.foldl_cons, List.foldl_nil, if_true, issueOne, halive, hguard, hrange, hpoison, Bool.not_true, Bool.false_eq_true,
    if_false]
  cases check e <;> rfl

theorem cardRoom_prepare (core : Nat) : cardRoom (s.dev.prepare i) core = cardRoom s.dev core := by
  obtain ⟨l, hl⟩ := prepare_teams i s.dev
  rw [hl]
  rfl

/-! ## The three outcomes of `jpost` (R242, R248, R249) -/

/-- The job-card trap (R242). -/
def cardTrap (e : Env) : Trap := { cause := 0x08, fpc := e.h.pc.toNat, resume := e.h.pc.toNat }

theorem cardCheck_team (hown : e.own = some (t, g)) :
    cardCheck kind ord a e = if cardOk t.kernel.tmem (e.card kind ord a) then none else some (cardTrap e) := by
  simp only [cardCheck, hown]
  rfl

/-- `jpost` without a handle destination, of one thread. -/
theorem jpostRun_plain (hs : soloOf i s = some (r, e, t, g)) (hstart : startOf i s.dev = s.dev.prepare i) :
    jpostRun i kind ord .none a s.dev =
      (cardCheck kind ord a e).elim (postOne i kind ord a e (.thr r) (s.dev.prepare i)) ((s.dev.prepare i).trap (.thr r)) := by
  have h := solo_of_soloOf hs
  rw [jpostRun, if_pos rfl, eachThread_one _ _ (hstart ▸ h.issues) h.clear]

/-- `jpost` with a handle destination, of one thread. -/
theorem jpostRun_handle (hs : soloOf i s = some (r, e, t, g)) (hstart : startOf i s.dev = s.dev.prepare i) (hd : d ≠ .none) :
    jpostRun i kind ord d a s.dev =
      if (cardCheck kind ord a e).isNone && !cardRoom s.dev e.core then holdGroup (s.dev.prepare i) (.thr r) .jpost
      else ((cardCheck kind ord a e).elim (postHandle i kind ord d a e (.thr r) (s.dev.prepare i))
        ((s.dev.prepare i).trap (.thr r))).closeWindow i := by
  have h := solo_of_soloOf hs
  have hi : issuers (s.dev.prepare i) = [(.thr r, e)] := hstart ▸ h.issues
  have hclear := h.clear
  simp only [clear, Bool.and_eq_true] at hclear
  obtain ⟨⟨-, hrange⟩, hpoison⟩ := hclear
  rw [jpostRun, if_neg hd]
  simp only [actor_one hi h.clear, hrange, hpoison, Bool.true_and, cardRoom_prepare, uniformOnce_one _ _ hi h.clear]

/-- The machine with the card and its handle, where the thread's D names a register of file h. -/
theorem postHandle_held {v n : Bool} {k : BitVec 9} {m : Dev} {l : List Team} (hm : m = { s.dev with teams := l })
    (hf : m.Finds r t g e.h) (hown : e.own = some (t, g)) (hord : jobOrd (e.card kind ord a) = ord) :
    postHandle i kind ord (.reg .h v n k) a e (.thr r) m =
      past i r ((cardHeld s.dev r t g ord (e.card kind ord a) m).mapGroup r.team r.gid fun x =>
        { x with
          lastPost := some (clusterOf g.core, (s.dev.join (clusterOf g.core)).count)
          h := AMap.set 0 x.h k.toNat (newJob s.dev r t g (e.card kind ord a)).handle
          hfin := AMap.set 0 x.hfin k.toNat 0 }) := by
  simp only [postHandle, postCard_solo hm hf hown _ hord]
  exact congrArg (past i r) (Dev.mapGroup_comp _ r.team r.gid _ _ fun _ => rfl)

/-- The machine with the card, where the thread asks for no handle. -/
theorem postOne_held {m : Dev} {l : List Team} (hm : m = { s.dev with teams := l }) (hf : m.Finds r t g e.h) (hown : e.own = some (t, g))
    (hord : jobOrd (e.card kind ord a) = ord) (hroom : cardRoom m e.core = true) :
    postOne i kind ord a e (.thr r) m =
      past i r ((cardHeld s.dev r t g ord (e.card kind ord a) m).mapGroup r.team r.gid fun x =>
        { x with lastPost := some (clusterOf g.core, (s.dev.join (clusterOf g.core)).count) }) := by
  simp only [postOne, hroom, if_true, postCard_solo hm hf hown _ hord]
  rfl

/-- The group held at its `jpost`, whatever D is. -/
theorem jpostRun_waits (hs : soloOf i s = some (r, e, t, g)) (hstart : startOf i s.dev = s.dev.prepare i)
    (hcheck : cardCheck kind ord a e = none) (hroom : cardRoom s.dev e.core = false) :
    jpostRun i kind ord d a s.dev = (s.dev.prepare i).mapGroup r.team r.gid fun x => { x with block := some .jpost } := by
  by_cases hd : d = .none
  · subst hd
    rw [jpostRun_plain hs hstart, hcheck, Option.elim_none]
    simp only [postOne, cardRoom_prepare, hroom, Bool.false_eq_true, if_false]
    rfl
  · rw [jpostRun_handle hs hstart hd, if_pos (by rw [hcheck, hroom]; rfl)]
    rfl

/-- An instruction without a destination leaves the window open. -/
theorem PostsJob.noDest (p : PostsJob i kind ord .none a) : hasRegDest i = false := by
  simp only [hasRegDest, p.roles, p.ops]
  rfl

/-- The job-card trap, whatever D is. -/
theorem jpostRun_traps (p : PostsJob i kind ord d a) (hs : soloOf i s = some (r, e, t, g)) (hstart : startOf i s.dev = s.dev.prepare i)
    (hcheck : cardCheck kind ord a e = some (cardTrap e)) :
    jpostRun i kind ord d a s.dev = (trapped e r (cardTrap e) (s.dev.prepare i)).closeWindow i := by
  have htrap : (s.dev.prepare i).trap (.thr r) (cardTrap e) = trapped e r (cardTrap e) (s.dev.prepare i) :=
    trap_thr (hstart ▸ (solo_of_soloOf hs).finds) _
  by_cases hd : d = .none
  · subst hd
    rw [jpostRun_plain hs hstart, hcheck, Option.elim_some, htrap, closeWindow_of_noDest p.noDest]
  · rw [jpostRun_handle hs hstart hd, if_neg (by rw [hcheck]; exact Bool.false_ne_true), hcheck, Option.elim_some, htrap]

end

/-- What `JobPosts` says of one of the five instructions. -/
theorem PostsJob.does {i : Instr} {kind : Nat} {ord : Bool} {d a : Operand} (p : PostsJob i kind ord d a) {s : State} {r : TRef} {e : Env}
    {t : Team} {g : Group} (hs : soloOf i s = some (r, e, t, g)) :
    (cardOk t.kernel.tmem (e.card kind ord a) = true → cardRoom s.dev e.core = true →
      (d = .none → Does i s fun m => past i r ((cardHeld s.dev r t g ord (e.card kind ord a) m).mapGroup r.team r.gid fun x =>
        { x with lastPost := some (clusterOf g.core, (s.dev.join (clusterOf g.core)).count) })) ∧
      ∀ v n k, d = .reg .h v n k → Does i s fun m =>
        (past i r ((cardHeld s.dev r t g ord (e.card kind ord a) m).mapGroup r.team r.gid fun x =>
          { x with
            lastPost := some (clusterOf g.core, (s.dev.join (clusterOf g.core)).count)
            h := AMap.set 0 x.h k.toNat (newJob s.dev r t g (e.card kind ord a)).handle
            hfin := AMap.set 0 x.hfin k.toNat 0 })).closeWindow i) ∧
    (cardOk t.kernel.tmem (e.card kind ord a) = true → cardRoom s.dev e.core = false →
      Does i s fun m => m.mapGroup r.team r.gid fun x => { x with block := some .jpost }) ∧
    (cardOk t.kernel.tmem (e.card kind ord a) = false → Does i s fun m => (trapped e r (cardTrap e) m).closeWindow i) := by
  have hsolo := solo_of_soloOf hs
  have hstart : startOf i s.dev = s.dev.prepare i := startOf_plain i s.dev p.name p.window
  have hfinds : (s.dev.prepare i).Finds r t g e.h := hstart ▸ hsolo.finds
  have hord : jobOrd (e.card kind ord a) = ord := jobOrd_cardPosted _ _ _ _
  obtain ⟨l, hprepare⟩ := prepare_teams i s.dev
  have hcheck := cardCheck_team (kind := kind) (ord := ord) (a := a) hsolo.own
  simp only [Does, p.runs, State.onDev_eq, hstart]
  refine ⟨fun hcard hroom => ⟨fun hd => ?_, fun v n k hd => ?_⟩, fun hcard hroom => ?_, fun hcard => ?_⟩
  · subst hd
    rw [if_pos hcard] at hcheck
    rw [jpostRun_plain hs hstart, hcheck, Option.elim_none,
      postOne_held hprepare hfinds hsolo.own hord (by rw [cardRoom_prepare, hroom])]
  · subst hd
    rw [if_pos hcard] at hcheck
    rw [jpostRun_handle hs hstart (by simp), if_neg (by rw [hcheck, hroom]; exact Bool.false_ne_true), hcheck, Option.elim_none,
      postHandle_held hprepare hfinds hsolo.own hord]
  · rw [if_pos hcard] at hcheck
    rw [jpostRun_waits hs hstart hcheck hroom]
  · rw [if_neg (by rw [hcard]; exact Bool.false_ne_true)] at hcheck
    rw [jpostRun_traps p hs hstart hcheck]

/-- Settles O26: the five instructions of `jpost` have one rule, from the machine that the thread reads. -/
theorem jobPosts : Obligations.JobPosts := by
  intro c ord d a b
  exact ⟨fun s r e t g hs => (jpostCopy_posts c ord d a b).does hs, fun s r e t g hs => (jpostGather_posts c ord d a b).does hs,
    fun s r e t g hs => (jpostMma_posts c ord d a b).does hs, fun s r e t g hs => (jpostMmaGather_posts c ord d a b).does hs,
    fun s r e t g hs => (jpostEpilogue_posts c ord d a b).does hs⟩

end Sys2Proof.Machine
end

section
/-! PROOF. Firings of stack agents: requests, messages of peers, re-plans and time limits (R276, R277, R336 to R342, R469 to R471). -/

namespace Sys2Proof.Machine

theorem exec_collFire (stack entry : Nat) (s : State) : exec (.collFire stack entry) s = execCollFire stack entry s := rfl
theorem exec_firingMessage (stack : Nat) (m : Posted FireMsg) (s : State) : exec (.firingMessage stack m) s = execFiringMessage stack m s := rfl
theorem exec_chunkArrival (stack : Nat) (k : Posted CollChunk) (s : State) : exec (.chunkArrival stack k) s = execChunkArrival stack k s := rfl
theorem exec_collAbortArrival (stack entry : Nat) (n : Posted Nat) (s : State) :
    exec (.collAbortArrival stack entry n) s = execCollAbortArrival stack entry n s := rfl
theorem exec_collReplan (stack entry : Nat) (m : ReplanMsg) (s : State) : exec (.collReplan stack entry m) s = execCollReplan stack entry m s := rfl
theorem exec_replanTimeout (stack entry : Nat) (s : State) : exec (.replanTimeout stack entry) s = execReplanTimeout stack entry s := rfl
theorem exec_firingTimeout (stack entry : Nat) (s : State) : exec (.firingTimeout stack entry) s = execFiringTimeout stack entry s := rfl

/-! ## The oldest request, or the firing that goes on (R276, R277) -/

section
variable {s : State} {stack entry : Nat}

/-- The oldest request to an entry that may proceed. -/
def firstRequest (d : Dev) (stack entry : Nat) : Option CollReq :=
  d.collReqs.find? fun q => field q.selector 15 0 == stack * 4096 + entry && !collBehind d q

theorem collFire_pumps (hfirst : firstRequest s.dev stack entry = none) : Makes (.collFire stack entry) s (pumpAll stack entry s.dev) := by
  unfold firstRequest at hfirst
  simp only [Makes, exec_collFire, execCollFire, State.onDev_eq, hfirst]

theorem collFire_performs {q : CollReq} {d1 : Dev} (hfirst : firstRequest s.dev stack entry = some q)
    (hready : (q.image.isSome = true ∧ d1 = s.dev) ∨ (q.image = none ∧ tryRelease s.dev q.who q.core 7 q.id = (true, d1))) :
    Makes (.collFire stack entry) s (performColl d1 q) := by
  unfold firstRequest at hfirst
  simp only [Makes, exec_collFire, execCollFire, State.onDev_eq, hfirst]
  obtain ⟨harm, rfl⟩ | ⟨hready, hrelease⟩ := hready
  · simp only [harm, if_true]
  · simp only [hready, Option.isSome_none, Bool.false_eq_true, if_false, hrelease, if_true]

end

/-! ## A message next in its sequence (R341, R342) -/

/-- The request next in its sequence was delivered: it waits no more, and the next number is awaited. -/
def Dev.received (d : Dev) (r : RemoteReq) : Dev :=
  d.setIn r.src { d.in_ r.src with
    next := ((d.in_ r.src).next + 1) % 65536
    waiting := (d.in_ r.src).waiting.filter fun x => x.seq != r.seq }

/-- What an agent does with a message of a peer, and its answer. -/
theorem deliverOne_agent {r : RemoteReq} {stack : Nat} {m : AgentMsg} (hop : r.op = .agent stack m) (d : Dev) :
    deliverOne d r = (.done, answer (takeAgent stack m d) r (some 0)) := by
  simp only [deliverOne, hop]

/-- The one waiting request of a pair, next in its sequence and done with. -/
theorem deliverWaiting_one {d u : Dev} {r : RemoteReq} (hwait : (d.in_ r.src).waiting = [r]) (hseq : r.seq = (d.in_ r.src).next)
    (hone : deliverOne d r = (.done, u)) : deliverWaiting r.src 1 d = u.received r := by
  have hnext : (r.seq == (d.in_ r.src).next) = true := beq_iff_eq.mpr hseq
  simp only [deliverWaiting, hwait, List.find?_cons, hnext, hone]
  rfl

/-- The machine once an agent has acted on a message of a peer and has answered it. -/
def Dev.messaged (d : Dev) (stack : Nat) (m : AgentMsg) (r : RemoteReq) : Dev :=
  (answer (takeAgent stack m (d.setIn r.src { d.in_ r.src with waiting := [r] })) r (some 0)).received r

/-- A message of a peer that is next in its sequence, with no other waiting. -/
theorem arrive_agent {d : Dev} {r : RemoteReq} {stack : Nat} {m : AgentMsg} (hop : r.op = .agent stack m) (hseq : r.seq = (d.in_ r.src).next)
    (hwait : (d.in_ r.src).waiting = []) : arrive d r = d.messaged stack m r := by
  have hahead : (r.seq + 65536 - (d.in_ r.src).next) % 65536 = 0 := by omega
  have hwindow : (r.seq + 65536 - (d.in_ r.src).next) % 65536 < Config.e2eWindow := by rw [hahead]; decide
  have hin : (d.setIn r.src { d.in_ r.src with waiting := [r] }).in_ r.src = { d.in_ r.src with waiting := [r] } := by
    rw [Dev.in_setIn, if_pos rfl]
  simp only [arrive, if_pos hwindow, hwait, List.any_nil, Bool.false_eq_true, if_false, List.nil_append, List.length_nil, Nat.zero_add]
  exact deliverWaiting_one (by rw [hin]) (by rw [hin]; exact hseq) (deliverOne_agent hop _)

/-- A message of a peer that reaches its agent, whatever instruction brings it. -/
theorem makes_messaged {i : Instr} {s : State} {stack : Nat} {h : AgentHead} {m : AgentMsg}
    (hexec : exec i s = .next (reachPart s (agentRequest stack h m))) (hruns : s.mgmt.runs = true) (hgen : h.gen = s.mgmt.boot.gen)
    (hseq : h.seq = (s.dev.in_ (agentPair stack h.src)).next) (hwait : (s.dev.in_ (agentPair stack h.src)).waiting = []) :
    Makes i s (s.dev.messaged stack m (agentRequest stack h m)) := by
  have hserved : ¬ ((agentRequest stack h m).gen ≠ s.mgmt.boot.gen || badContext s.dev (agentRequest stack h m)) = true := by
    simp [agentRequest, badContext, hgen]
  have harrive := arrive_agent (d := s.dev) (r := agentRequest stack h m) rfl hseq hwait
  simp only [Makes, hexec, reachPart, hruns, Bool.not_true, Bool.false_eq_true, if_false, State.mapDev, if_neg hserved, harrive]

/-! ## What a message does (R336, R339, R469 to R471) -/

section
variable {d : Dev} {stack entry : Nat}

theorem takeFire_running {m : FireMsg} (hrun : entryRunning (entryWord d stack m.entry 0) = true)
    (hnow : aheadOf (d.firing stack m.entry) m.count = 0) :
    takeAgent stack (.fire m) d = pumpAll stack m.entry (judge d (collJob d stack m.entry) m) := by
  simp only [takeAgent, takeFire, hrun, hnow, decide_true, Bool.and_true, if_true]

theorem takeFire_early {m : FireMsg}
    (hlater : entryRunning (entryWord d stack m.entry 0) = false ∨ 0 < aheadOf (d.firing stack m.entry) m.count)
    (hbound : aheadOf (d.firing stack m.entry) m.count < 32768) :
    takeAgent stack (.fire m) d =
      d.setFiring stack m.entry { d.firing stack m.entry with early := (d.firing stack m.entry).early ++ [m] } := by
  have hnot : ¬ (entryRunning (entryWord d stack m.entry 0) && decide (aheadOf (d.firing stack m.entry) m.count = 0)) = true := by
    rw [Bool.and_eq_true, decide_eq_true_eq]
    rintro ⟨hrun, hnow⟩
    obtain hidle | hahead := hlater
    · rw [hrun] at hidle
      cases hidle
    · omega
  simp only [takeAgent, takeFire, if_neg hnot, if_pos hbound]

theorem takeChunk_running {k : CollChunk} (hrun : entryRunning (entryWord d stack k.entry 0) = true)
    (hcount : k.count = (d.firing stack k.entry).count) (hrank : k.rank ≠ (collJob d stack k.entry).rank)
    (hfits : (k.off, k.bytes.length) ∈ (List.range (collJob d stack k.entry).n).flatMap
      fun r => piecesOf (collJob d stack k.entry) (d.firing stack k.entry).plan r) :
    takeAgent stack (.chunk k) d =
      pumpAll stack k.entry (d.setFiring stack k.entry { d.firing stack k.entry with got := (d.firing stack k.entry).got ++ [k] }) := by
  simp only [takeAgent, takeChunk]
  rw [if_pos]
  simp only [Bool.and_eq_true, decide_eq_true_eq, bne_iff_ne, List.contains_iff_mem]
  exact ⟨⟨⟨hrun, hcount⟩, hfits⟩, hrank⟩

theorem takeAbort_running {n : Nat} (hrun : entryRunning (entryWord d stack entry 0) = true) (hnow : aheadOf (d.firing stack entry) n = 0) :
    takeAgent stack (.abort entry n) d = failFiring d (collJob d stack entry) 5 := by
  simp only [takeAgent, takeAbort, hrun, hnow, decide_true, Bool.and_true, if_true]

theorem takeAbort_idle {n : Nat} (hidle : entryRunning (entryWord d stack entry 0) = false)
    (hbound : aheadOf (d.firing stack entry) n < 32768) :
    takeAgent stack (.abort entry n) d =
      d.setFiring stack entry { d.firing stack entry with aborts := (d.firing stack entry).aborts ++ [n] } := by
  simp only [takeAgent, takeAbort, hidle, Bool.false_and, Bool.false_eq_true, if_false, if_pos hbound]

theorem mayReplan_iff (c : CollJob) (f : Firing) : mayReplan c f = true ↔ c.gather = true ∨ f.determinism = false := by
  simp [mayReplan]

theorem takeReplan_running {agrees : Bool} {n rank plane : Nat} (hrun : entryRunning (entryWord d stack entry 0) = true)
    (hnow : aheadOf (d.firing stack entry) n = 0)
    (hmay : (collJob d stack entry).gather = true ∨ (d.firing stack entry).determinism = false)
    (hmember : rank < (collJob d stack entry).n) (hother : rank ≠ (collJob d stack entry).rank) :
    takeReplan stack entry agrees n rank plane d =
      goReplan (d.setFiring stack entry (noteReplan d.cycle plane (if agrees then some rank else none) (d.firing stack entry)))
        (collJob d stack entry) := by
  have hpart : (mayReplan (collJob d stack entry) (d.firing stack entry) && decide (rank < (collJob d stack entry).n) &&
      rank != (collJob d stack entry).rank) = true := by
    simp only [Bool.and_eq_true, decide_eq_true_eq, bne_iff_ne, mayReplan_iff]
    exact ⟨⟨hmay, hmember⟩, hother⟩
  simp only [takeReplan, hrun, hnow, decide_true, Bool.and_true, if_true, if_pos hpart]

end

/-! ## A bad link seen, and the time limits (R469 to R471) -/

section
variable {s : State} {stack entry : Nat}

/-- A firing with a re-plan newly proposed, which nobody has answered. -/
theorem noteReplan_first {f : Firing} (hnone : f.replan = none) (now plane : Nat) :
    noteReplan now plane none f = { f with replan := some { since := now, plane, own := false, answered := [] } } := by
  simp only [noteReplan, hnone, Option.getD_none]

theorem collReplan_sees {q : Nat} (hbad : badPlane s.dev stack (s.dev.firing stack entry) = some q)
    (hrun : entryRunning (entryWord s.dev stack entry 0) = true)
    (hmay : (collJob s.dev stack entry).gather = true ∨ (s.dev.firing stack entry).determinism = false)
    (hnone : (s.dev.firing stack entry).replan = none) (d1 : Dev)
    (hd1 : d1 = s.dev.setFiring stack entry
      { s.dev.firing stack entry with replan := some { since := s.dev.cycle, plane := q, own := false, answered := [] } }) :
    Makes (.collReplan stack entry .seen) s
      (goReplan ((peersOf d1 (collJob s.dev stack entry)).foldl (fun d id =>
        postAgent d stack id (.propose entry (s.dev.firing stack entry).count (collJob s.dev stack entry).rank q)) d1)
        (collJob s.dev stack entry)) := by
  subst hd1
  simp only [Makes, exec_collReplan, execCollReplan, State.onDev_eq, proposeReplan, hbad, hrun, (mayReplan_iff _ _).mpr hmay, hnone,
    Option.isNone_none, Bool.and_true, if_true, noteReplan_first hnone]

theorem collReplan_sound (hgood : badPlane s.dev stack (s.dev.firing stack entry) = none) :
    Makes (.collReplan stack entry .seen) s s.dev := by
  simp only [Makes, exec_collReplan, execCollReplan, State.onDev_eq, proposeReplan, hgood]

theorem replanTimeout_fails {p : Replan} (hreplan : (s.dev.firing stack entry).replan = some p)
    (hrun : entryRunning (entryWord s.dev stack entry 0) = true) (hlate : p.since + 4000000 ≤ s.dev.cycle) :
    Makes (.replanTimeout stack entry) s (failFiring s.dev (collJob s.dev stack entry) 4) := by
  have hms : p.since + ms ≤ s.dev.cycle := hlate
  simp only [Makes, exec_replanTimeout, execReplanTimeout, State.onDev_eq, hreplan, hrun, hms, decide_true, Bool.and_true, if_true]

theorem firingTimeout_fails {t : Nat} (hsince : (s.dev.firing stack entry).since = some t)
    (hrun : entryRunning (entryWord s.dev stack entry 0) = true) (hlate : t + 4000000000 ≤ s.dev.cycle)
    (hmissing : (s.dev.firing stack entry).agreed.length + 1 < (collJob s.dev stack entry).n) :
    Makes (.firingTimeout stack entry) s (failFiring s.dev (collJob s.dev stack entry) 7) := by
  have hms : t + 1000 * ms ≤ s.dev.cycle := hlate
  simp only [Makes, exec_firingTimeout, execFiringTimeout, State.onDev_eq, hsince, hrun, hms, hmissing, decide_true, Bool.and_true, if_true]

end

/-- Settles O43: requests, messages by the delivery of one request, and re-plans and time limits of the running firing. -/
theorem collectiveEvents : Obligations.CollectiveEvents := by
  intro s stack entry
  refine ⟨fun q d1 => collFire_performs, collFire_pumps, fun h n rank plane => ⟨fun m => ?_, fun k => ?_, ?_, ?_, ?_⟩,
    ⟨fun m hentry => ?_, fun k hentry hrun hcount hrank hfits => ?_, fun n rank plane => ⟨takeAbort_running, takeAbort_idle, ?_⟩⟩,
    fun q hbad hrun hmay hnone => collReplan_sees hbad hrun hmay hnone _ rfl, collReplan_sound, fun p => replanTimeout_fails,
    fun t => firingTimeout_fails⟩
  · exact fun hruns hgen hseq _ hwait => makes_messaged (exec_firingMessage stack ⟨h, m⟩ s) hruns hgen hseq hwait
  · exact fun hruns hgen hseq _ hwait => makes_messaged (exec_chunkArrival stack ⟨h, k⟩ s) hruns hgen hseq hwait
  · exact fun hruns hgen hseq _ hwait => makes_messaged (exec_collAbortArrival stack entry ⟨h, n⟩ s) hruns hgen hseq hwait
  · exact fun hruns hgen hseq _ hwait => makes_messaged (exec_collReplan stack entry (.message h false n rank plane) s) hruns hgen hseq hwait
  · exact fun hruns hgen hseq _ hwait => makes_messaged (exec_collReplan stack entry (.message h true n rank plane) s) hruns hgen hseq hwait
  · subst hentry
    exact ⟨takeFire_running, takeFire_early⟩
  · subst hentry
    exact takeChunk_running hrun hcount hrank hfits
  · exact fun hrun hnow hmay hmember hother =>
      ⟨takeReplan_running (agrees := false) hrun hnow hmay hmember hother, takeReplan_running (agrees := true) hrun hnow hmay hmember hother⟩

end Sys2Proof.Machine
end

section
/-! PROOF. Kerf's samples, recovery, the module stop, silent sensors and idle dies (R318, R357, R451, R452). -/

namespace Sys2Proof.Machine

theorem exec_kerfSample (die mw : Nat) (temp : Int) (s : State) : exec (.kerfSample die mw temp) s = execKerfSample die mw temp s := rfl
theorem exec_thermalRecovery (die : Nat) (s : State) : exec (.thermalRecovery die) s = execThermalRecovery die s := rfl
theorem exec_emergencyTimeout (die : Nat) (s : State) : exec (.emergencyTimeout die) s = execEmergencyTimeout die s := rfl
theorem exec_powerSensorSilent (die : Nat) (s : State) : exec (.powerSensorSilent die) s = execPowerSensorSilent die s := rfl
theorem exec_dieIdle (die : Nat) (s : State) : exec (.dieIdle die) s = execDieIdle die s := rfl

/-! ## What a record in the global log changes (R398 to R401) -/

/-- A message goes to the notices, which alone it can change. -/
theorem Dev.notify_changes (d : Dev) (n : Notice) : ∃ l, d.notify n = { d with notices := l } := by
  obtain h | h := d.notify_cases n
  · exact ⟨d.notices, h⟩
  · exact ⟨_, h⟩

/-- A record placed in the global log changes the log, its counters and the notices. -/
theorem placeGlobal_changes (d : Dev) (ws : List Nat) : ∃ log wr dropped armed l,
    placeGlobal d ws = { d with glog := log, gwr := wr, gdropped := dropped, garmed := armed, notices := l } := by
  have hmessage (d : Dev) (b : Bool) (n : Notice) : ∃ l, (if b then d.notify n else d) = { d with notices := l } := by
    split
    · exact d.notify_changes n
    · exact ⟨d.notices, rfl⟩
  unfold placeGlobal
  dsimp only
  split
  · exact ⟨_, _, _, _, _, rfl⟩
  · obtain ⟨l0, h0⟩ := hmessage { d with glog := _, gwr := _ } (bitOf d.garmed 0) (.msi 0 0 d.gvec0)
    obtain ⟨l1, h1⟩ := hmessage { d with glog := _, gwr := _, notices := l0 } (bitOf d.garmed 1) (.msi 1 0 d.gvec1)
    rw [h0, h1]
    exact ⟨_, _, _, _, _, rfl⟩

/-- A Kerf record is one of no context: besides the global log it changes the number of its source. -/
theorem kerfRecord_changes (d : Dev) (die cls sev d0 : Nat) : ∃ seq log wr dropped armed l,
    kerfRecord d die cls sev d0 = { d with recSeq := seq, glog := log, gwr := wr, gdropped := dropped, garmed := armed, notices := l } := by
  obtain ⟨log, wr, dropped, armed, l, h⟩ := placeGlobal_changes
    { d with recSeq := AMap.set 0 d.recSeq (6 * 4096 + die) ((AMap.get 0 d.recSeq (6 * 4096 + die) + 1) % 2 ^ 32) } _
  exact ⟨_, log, wr, dropped, armed, l, h⟩

/-! ## The module stop (R452) -/

/-- A module stop leaves no team, grid, held contribution, die scratchpad or team memory. -/
theorem moduleStop_clears (die : Nat) (s : State) :
    (moduleStop die s).dev.teams = [] ∧ (moduleStop die s).dev.grids = [] ∧ (moduleStop die s).dev.contribs = [] ∧
      (moduleStop die s).dev.scr = [] ∧ (moduleStop die s).dev.tmem = [] := by
  unfold moduleStop
  dsimp only
  obtain ⟨seq, log, wr, dropped, armed, l, h⟩ := kerfRecord_changes (linksDown (computeOff (haltAll { s.dev with contribs := [] }))) die 0x69 3
    ((s.dev.kerfAt die).temp.toNat % 65536)
  rw [h]
  exact ⟨rfl, rfl, rfl, rfl, rfl⟩

/-! ## The events (R357, R451) -/

section
variable {s : State} {die : Nat}

/-- A die with no resident team and no job that runs or waits on a page is not busy. -/
theorem dieBusy_of_idle {d : Dev} (hteams : ∀ t ∈ d.teams, t.resident = true → dieOf t.core ≠ die)
    (hjobs : ∀ j ∈ d.joins, j.1 / 5 = die → ∀ b ∈ j.2.jobs, b.state ≠ .issued ∧ ∀ p, b.state ≠ .paged p) : dieBusy d die = false := by
  have hteam : (d.teams.any fun t => t.resident && dieOf t.core == die) = false := by
    simpa only [List.any_eq_false, Bool.and_eq_true, beq_iff_eq, not_and] using hteams
  rw [dieBusy, hteam, Bool.false_or, List.any_eq_false]
  intro j hj
  rw [Bool.and_eq_true, List.any_eq_true, beq_iff_eq]
  rintro ⟨hdie, b, hb, hruns⟩
  obtain ⟨hissued, hpaged⟩ := hjobs j hj hdie b hb
  cases hstate : b.state with
  | issued => exact hissued hstate
  | paged p => exact hpaged p hstate
  | _ => simp [hstate] at hruns

theorem dieIdle_eq (hruns : s.mgmt.runs = true) (hdie : die < Config.dies) (hidle : dieBusy s.dev die = false) :
    Makes (.dieIdle die) s
      (if s.dev.cycle + 1 < max 1 (AMap.get 0 s.dev.idle die) + 4000000 then s.dev
        else s.dev.setKerf die { s.dev.kerfAt die with gated := true }) := by
  simp only [Makes, exec_dieIdle, execDieIdle, State.onDev_eq, hruns, Nat.not_le.mpr hdie, hidle, show ms = 4000000 from rfl, Bool.not_true,
    decide_false, Bool.false_or, decide_eq_true_eq]

theorem thermalRecovery_cools {c : Nat} (hthrottled : (s.dev.kerfAt die).throttled = true) (hbelow : (s.dev.kerfAt die).below92 = some c)
    (hms : c + 4000000 ≤ s.dev.cycle) (hcalm : (s.dev.kerfAt die).emergency = false) :
    Makes (.thermalRecovery die) s (kerfRecord (s.dev.setKerf die { s.dev.kerfAt die with throttled := false }) die 0x67 0 1) := by
  simp only [Makes, exec_thermalRecovery, execThermalRecovery, State.onDev_eq, hthrottled, hbelow, hcalm, show ms = 4000000 from rfl, hms,
    decide_true, Bool.and_true, Bool.not_true, Bool.and_false, Bool.false_and, if_true]

theorem emergencyTimeout_stops (hruns : s.mgmt.runs = true) (hemergency : (s.dev.kerfAt die).emergency = true)
    (hlong : (s.dev.kerfAt die).since + 400000000 ≤ s.dev.cycle) : exec (.emergencyTimeout die) s = .next (moduleStop die s) := by
  have hms : (s.dev.kerfAt die).since + 100 * ms ≤ s.dev.cycle := hlong
  simp only [exec_emergencyTimeout, execEmergencyTimeout, hruns, hemergency, hms, decide_true, Bool.and_true, if_true]

theorem powerSensorSilent_records (hruns : s.mgmt.runs = true) (hheard : (s.dev.kerfAt die).silent = false) (hdie : die < Config.dies)
    (hlong : (s.dev.kerfAt die).sampled + 400000 ≤ s.dev.cycle) :
    Makes (.powerSensorSilent die) s (kerfRecord (s.dev.setKerf die { s.dev.kerfAt die with silent := true }) die 0x6B 3 0) := by
  have hms : (s.dev.kerfAt die).sampled + ms / 10 ≤ s.dev.cycle := hlong
  simp only [Makes, exec_powerSensorSilent, execPowerSensorSilent, State.onDev_eq, hruns, hheard, hdie, hms, Bool.not_false, decide_true,
    Bool.and_true, if_true]

end

/-- Settles O46, event by event. -/
theorem kerfEvents : Obligations.KerfEvents := by
  intro s die mw temp d k
  refine ⟨?sample, fun c => thermalRecovery_cools, ?stop, powerSensorSilent_records, ?idle⟩
  case sample =>
    intro hruns hdie hcool hot danger k1 d1 d2
    have hstop : ¬ deg 115 ≤ temp := Int.not_le.mpr hcool
    simp only [Makes, exec_kerfSample, execKerfSample, hruns, Nat.not_le.mpr hdie, if_neg hstop, Bool.not_true, decide_false, Bool.or_self,
      Bool.false_eq_true, if_false]
    rfl
  case stop =>
    intro hruns hemergency hlong
    exact ⟨_, emergencyTimeout_stops hruns hemergency hlong, rfl, rfl, moduleStop_clears die s⟩
  case idle =>
    intro hruns hteams hjobs hdie
    have hexec := dieIdle_eq hruns hdie (dieBusy_of_idle hteams hjobs)
    refine ⟨fun hlong => ?_, fun hshort => ?_⟩
    · rwa [if_neg (Nat.not_lt.mpr hlong)] at hexec
    · rwa [if_pos hshort] at hexec

end Sys2Proof.Machine
end

section
/-! PROOF. The management block of semaphore 2, port semaphores, the watchdog limit and K (R319, R323, R326, R327, R414, R423, R446, R450,
R466). -/

namespace Sys2Proof.Machine

theorem exec_contextInvalidation (port ctx : Nat) (s : State) :
    exec (.contextInvalidation port ctx) s = execContextInvalidation port ctx s := rfl
theorem exec_invalidationComplete (s : State) : exec .invalidationComplete s = execInvalidationComplete s := rfl
theorem exec_faultRetry (port ctx page : Nat) (s : State) : exec (.faultRetry port ctx page) s = execFaultRetry port ctx page s := rfl
theorem exec_faultFail (port ctx page : Nat) (s : State) : exec (.faultFail port ctx page) s = execFaultFail port ctx page s := rfl
theorem exec_rayDiscard (port ctx : Nat) (s : State) : exec (.rayDiscard port ctx) s = execRayDiscard port ctx s := rfl
theorem exec_pairReopen (port : Nat) (v : DWord) (s : State) : exec (.pairReopen port v) s = execPairReopen port v s := rfl
theorem exec_portSemaphoreRead (port n : Nat) (same : Option SemAccess) (s : State) :
    exec (.portSemaphoreRead port n same) s = execPortSemaphoreRead port n same s := rfl
theorem exec_portSemaphoreRelease (port n : Nat) (v : SemWrite) (s : State) :
    exec (.portSemaphoreRelease port n v) s = execPortSemaphoreRelease port n v s := rfl
theorem exec_mgmtRegisterWrite (fn : HostFn) (off : Nat) (v : DWord) (s : State) :
    exec (.mgmtRegisterWrite fn off v) s = execMgmtRegisterWrite fn off v s := rfl

/-! ## The gate (R326, R351, R450) -/

theorem gated_closed {s : State} {port : Nat} {sem : Option Nat} {standby : Bool} (h : gate s port sem standby = .closed) (off : Nat)
    (f : State → State) : gated s port sem standby off f = s := by
  simp only [gated, h]

theorem gated_refused {s : State} {port : Nat} {sem : Option Nat} {standby : Bool} (h : gate s port sem standby = .refused) (off : Nat)
    (f : State → State) : gated s port sem standby off f = { s with dev := discard6A s.dev port off } := by
  simp only [gated, h]

/-- Only a port whose link is up has a write taken. -/
theorem port_lt_two_of_taken {s : State} {port : Nat} {sem : Option Nat} {standby : Bool} (h : gate s port sem standby = .taken) : port < 2 := by
  by_contra hport
  simp [gate, hostOk, hport] at h

/-- Each write of the block, with its offset, is behind the gate of semaphore 2. -/
theorem blockWrites_gated (s : State) (port ctx page : Nat) (v : DWord) :
    ∀ x ∈ [(Instr.contextInvalidation port ctx, 0x40000), (.faultRetry port ctx page, 0x40018), (.faultFail port ctx page, 0x40018),
      (.rayDiscard port ctx, 0x40020), (.pairReopen port v, 0x70100)],
      ∃ f, exec x.1 s = .next (gated s port (some 2) false x.2 f) := by
  simp only [List.forall_mem_cons, List.not_mem_nil, false_implies, implies_true, and_true]
  exact ⟨⟨_, rfl⟩, ⟨_, rfl⟩, ⟨_, rfl⟩, ⟨_, rfl⟩, ⟨_, rfl⟩⟩

/-! ## The word of a fault's resolution (R423) -/

/-- The word that resolves the fault of page `p` of context `c`, with its action: 0 retries, 1 fails. -/
def faultWord (p action c : Nat) : Nat := p * 4096 + action * 1024 + c

section
variable {p action c : Nat} (hp : p < 2 ^ 44) (haction : action < 2) (hc : c < 1024)
include hp haction hc

theorem faultWord_fields : field (2 ^ 63 + faultWord p action c) 9 0 = c ∧ field (2 ^ 63 + faultWord p action c) 11 10 = action ∧
    field (2 ^ 63 + faultWord p action c) 55 12 = p ∧ field (2 ^ 63 + faultWord p action c) 55 0 = faultWord p action c := by
  simp only [Laws.Encoding.field_eq_div, faultWord]
  omega

theorem faultWord_bits : bitOf (2 ^ 63 + faultWord p action c) 63 = true ∧ bitOf (2 ^ 63 + faultWord p action c) 10 = decide (action = 1) := by
  simp only [bitOf, Nat.testBit_eq_decide_div_mod_eq, faultWord, decide_eq_true_eq, decide_eq_decide]
  omega

/-- The resolution asked for, with the gate open. -/
theorem writeFault_resolves {s : State} {port : Nat} (h : gate s port (some 2) false = .taken) :
    writeFault s port (2 ^ 63 + faultWord p action c) =
      { s with
        mgmt := { s.mgmt with faultReg := BitVec.ofNat 64 (faultWord p action c) }
        dev := if action = 1 then
            contextError (dropPage s.dev c p) { cls := 0x43, sev := 2, kind := 5, index := port, ctx := some c, addr := p * 4096 }
          else retryPage s.dev c p } := by
  obtain ⟨hctx, hact, hpage, hkept⟩ := faultWord_fields hp haction hc
  obtain ⟨hreq, hfail⟩ := faultWord_bits hp haction hc
  simp only [writeFault, gated_taken h, hctx, hact, hpage, hkept, hreq, hfail, Nat.not_le.mpr haction, if_false, Bool.not_true,
    Bool.false_eq_true]
  obtain rfl | rfl : action = 0 ∨ action = 1 := by omega
  · rfl
  · rfl

end

/-- No access to a page whose waiting accesses were discarded waits there any more. -/
theorem dropPage_waits {d : Dev} {ctx page : Nat} {a : Access} (ha : a ∈ (dropPage d ctx page).reqs) (hpage : a.inPage ctx page = true) :
    a.faulted = false ∧ sideBlocked d ctx a.addr = false := by
  have hkept : (!(a.inPage ctx page && (a.faulted || sideBlocked d ctx a.addr))) = true := (List.mem_filter.mp ha).2
  simpa [hpage] using hkept

/-! ## Writes of the block with the gate open (R327, R423, R446, R466) -/

section
variable {s : State} {port : Nat} {v : DWord} (h : gate s port (some 2) false = .taken)
include h

theorem contextInvalidation_starts {ctx : Nat} (hidle : bitOf s.mgmt.inval.toNat 31 = false) :
    exec (.contextInvalidation port ctx) s = .next { s with mgmt := { s.mgmt with inval := BitVec.ofNat 64 (2 ^ 31 + ctx % 1024) } } := by
  simp only [exec_contextInvalidation, execContextInvalidation, gated_taken h, hidle, Bool.false_eq_true, if_false, State.mapMgmt]

theorem faultRetry_taken {ctx page : Nat} :
    exec (.faultRetry port ctx page) s = .next { s with
      mgmt := { s.mgmt with faultReg := BitVec.ofNat 64 (page % 2 ^ 44 * 4096 + ctx % 1024) }
      dev := retryPage s.dev (ctx % 1024) (page % 2 ^ 44) } := by
  have hword : faultWord (page % 2 ^ 44) 0 (ctx % 1024) = page % 2 ^ 44 * 4096 + ctx % 1024 := by simp only [faultWord]; omega
  have hresolves := writeFault_resolves (p := page % 2 ^ 44) (c := ctx % 1024) (Nat.mod_lt _ (by decide)) Nat.zero_lt_two
    (Nat.mod_lt _ (by decide)) h
  rw [hword, if_neg Nat.zero_ne_one, ← Nat.add_assoc] at hresolves
  exact congrArg Host.Outcome.next hresolves

theorem faultFail_taken {ctx page : Nat} :
    exec (.faultFail port ctx page) s = .next { s with
      mgmt := { s.mgmt with faultReg := BitVec.ofNat 64 (page % 2 ^ 44 * 4096 + 1024 + ctx % 1024) }
      dev := contextError (dropPage s.dev (ctx % 1024) (page % 2 ^ 44))
        { cls := 0x43, sev := 2, kind := 5, index := port, ctx := some (ctx % 1024), addr := page % 2 ^ 44 * 4096 } } := by
  have hword : faultWord (page % 2 ^ 44) 1 (ctx % 1024) = page % 2 ^ 44 * 4096 + 1024 + ctx % 1024 := by simp only [faultWord]
  have hresolves := writeFault_resolves (p := page % 2 ^ 44) (c := ctx % 1024) (Nat.mod_lt _ (by decide)) Nat.one_lt_two
    (Nat.mod_lt _ (by decide)) h
  rw [hword, if_pos rfl, ← Nat.add_assoc, ← Nat.add_assoc] at hresolves
  exact congrArg Host.Outcome.next hresolves

theorem rayDiscard_taken {ctx : Nat} :
    exec (.rayDiscard port ctx) s = .next { s with
      mgmt := { s.mgmt with rayReg := BitVec.ofNat 64 (ctx % 1024) }
      dev := report (discardRays s.dev (ctx % 1024)) { cls := 0x66, sev := 0, kind := 5, index := port, ctx := some (ctx % 1024) } } := by
  have hctx : field (2 ^ 63 + ctx % 1024) 9 0 = ctx % 1024 := by
    rw [Laws.Encoding.field_eq_div]
    omega
  have hreq : bitOf (2 ^ 63 + ctx % 1024) 63 = true := by
    rw [bitOf, Nat.testBit_eq_decide_div_mod_eq, decide_eq_true_eq]
    omega
  simp only [exec_rayDiscard, execRayDiscard, writeRay, gated_taken h, hctx, hreq, if_true, State.mapMgmt, State.mapDev]

/-- The fault register without its request bit keeps its fields. -/
theorem writeFault_keeps {w : Nat} (hplain : bitOf w 63 = false) (haction : bitOf w 11 = false) :
    writeFault s port w = { s with mgmt := { s.mgmt with faultReg := BitVec.ofNat 64 (w % 2 ^ 56) } } := by
  have hact : ¬ 2 ≤ field w 11 10 := by
    rw [bitOf, Nat.testBit_eq_decide_div_mod_eq, decide_eq_false_iff_not] at haction
    rw [Laws.Encoding.field_eq_div]
    omega
  have hkept : field w 55 0 = w % 2 ^ 56 := rfl
  simp only [writeFault, gated_taken h, hact, hkept, hplain, if_false, Bool.not_false, if_true, State.mapMgmt]

/-- The ray-discard register without its request bit keeps the context. -/
theorem writeRay_keeps {w : Nat} (hplain : bitOf w 63 = false) :
    writeRay s port w = { s with mgmt := { s.mgmt with rayReg := BitVec.ofNat 64 (w % 1024) } } := by
  have hctx : field w 9 0 = w % 1024 := rfl
  simp only [writeRay, gated_taken h, hctx, hplain, Bool.false_eq_true, if_false, State.mapMgmt]

/-- A reopening asked for while none runs (R466). -/
theorem pairReopen_taken (hidle : bitOf s.mgmt.reopenReg.toNat 63 = false) :
    exec (.pairReopen port v) s = .next (
      if bitOf v.toNat 63 && !bitOf v.toNat 23 && v.toNat / 2 ^ 19 % 16 != 0 then { s with dev := discard6A s.dev port 0x00070100 }
      else { s with mgmt := { s.mgmt with
        reopenReg := BitVec.ofNat 64 (b2n (bitOf v.toNat 63 && !(reopenPairs s.dev v.toNat).isEmpty) * 2 ^ 63 + v.toNat % 2 ^ 24) } }) := by
  have hlow : field v.toNat 23 0 = v.toNat % 2 ^ 24 := rfl
  have hhigh : field v.toNat 22 19 = v.toNat / 2 ^ 19 % 16 := Laws.Encoding.field_eq_div ..
  simp only [exec_pairReopen, execPairReopen, gated_taken h, hidle, hlow, hhigh, Bool.false_eq_true, if_false, State.mapMgmt]

theorem pairReopen_keeps (hidle : bitOf s.mgmt.reopenReg.toNat 63 = false) (hplain : bitOf v.toNat 63 = false) :
    exec (.pairReopen port v) s = .next { s with mgmt := { s.mgmt with reopenReg := BitVec.ofNat 64 (v.toNat % 2 ^ 24) } } := by
  rw [pairReopen_taken h hidle, hplain]
  simp only [Bool.false_and, Bool.false_eq_true, if_false, b2n, Nat.zero_mul, Nat.zero_add]

theorem pairReopen_waits (hidle : bitOf s.mgmt.reopenReg.toNat 63 = false) (hreq : bitOf v.toNat 63 = true)
    (hname : bitOf v.toNat 23 = true ∨ v.toNat / 2 ^ 19 % 16 = 0) (hclosed : reopenPairs s.dev v.toNat ≠ []) :
    exec (.pairReopen port v) s = .next { s with mgmt := { s.mgmt with reopenReg := BitVec.ofNat 64 (2 ^ 63 + v.toNat % 2 ^ 24) } } := by
  have hgood : (!bitOf v.toNat 23 && v.toNat / 2 ^ 19 % 16 != 0) = false := by
    obtain hagent | hzero := hname
    · rw [hagent, Bool.not_true, Bool.false_and]
    · rw [hzero, bne_self_eq_false, Bool.and_false]
  have hpairs : (reopenPairs s.dev v.toNat).isEmpty = false := List.isEmpty_eq_false_iff.mpr hclosed
  rw [pairReopen_taken h hidle, hreq, Bool.true_and, hgood, hpairs]
  simp only [Bool.false_eq_true, if_false, Bool.not_false, Bool.and_true, b2n, if_true, Nat.one_mul]

theorem pairReopen_discards (hidle : bitOf s.mgmt.reopenReg.toNat 63 = false) (hreq : bitOf v.toNat 63 = true)
    (hendpoint : bitOf v.toNat 23 = false) (hreserved : v.toNat / 2 ^ 19 % 16 ≠ 0) :
    Makes (.pairReopen port v) s (discard6A s.dev port 0x00070100) := by
  have hbad : (v.toNat / 2 ^ 19 % 16 != 0) = true := bne_iff_ne.mpr hreserved
  rw [Makes, pairReopen_taken h hidle, hreq, hendpoint, hbad]
  rfl

end

theorem invalidationComplete_runs {s : State} (hasked : bitOf s.mgmt.inval.toNat 31 = true) (hruns : s.mgmt.runs = true) :
    exec .invalidationComplete s = .next { s with
      mgmt := { s.mgmt with inval := BitVec.ofNat 64 (s.mgmt.inval.toNat % 1024) }
      dev := { s.dev with
        tlb := s.dev.tlb.filter fun x => x.ctx != s.mgmt.inval.toNat % 1024
        ats := []
        remotes := s.dev.remotes.filter fun r => r.1 != s.mgmt.inval.toNat % 1024 } } := by
  simp only [exec_invalidationComplete, execInvalidationComplete, hasked, hruns, Bool.not_true, Bool.or_self, Bool.false_eq_true, if_false]

/-! ## Port semaphores (R326) -/

section
variable {s : State} {port : Nat} {x y : SemAccess}

/-- An access of a port whose link is up, to one of the 32 semaphores. -/
theorem semReaching_some (hhost : hostOk s port = true) (hsem : semOf x < 32) : semReaching s port (some x) = some x := by
  simp [semReaching, hhost, hsem]

/-- One port alone in a fabric cycle has its access. -/
theorem semCycle_alone (hhost : hostOk s port = true) (hsem : semOf x < 32) : semCycle port x none s = semAccess s port x := by
  have hlt : port < 2 := by
    by_contra hport
    simp [hostOk, hport] at hhost
  have hmine := semReaching_some hhost hsem
  have hother (p : Nat) : semReaching s p none = none := rfl
  obtain rfl | rfl : port = 0 ∨ port = 1 := by omega
  · simp [semCycle, hmine, hother, tieOrder]
  · simp [semCycle, hmine, hother, tieOrder]

/-- Both ports in one fabric cycle: the loser of the last tie goes first. -/
theorem semCycle_both (hzero : hostOk s 0 = true) (hone : hostOk s 1 = true) (hx : semOf x < 32) (hy : semOf y < 32)
    (hopen : s.mgmt.isOpen true = true) : semCycle 0 x (some y) s =
      let w := tieWinner s.mgmt
      semAccess (semAccess { s with mgmt := { s.mgmt with tieLoser := some (1 - w) } } w (if w = 0 then x else y)) (1 - w)
        (if 1 - w = 0 then x else y) := by
  have hfirst := semReaching_some hzero hx
  have hsecond := semReaching_some hone hy
  obtain hw | hw : tieWinner s.mgmt = 0 ∨ tieWinner s.mgmt = 1 := by
    have : tieWinner s.mgmt < 2 := Nat.mod_lt _ Nat.zero_lt_two
    omega
  · simp [semCycle, hfirst, hsecond, tieOrder, hopen, hw]
  · simp [semCycle, hfirst, hsecond, tieOrder, hopen, hw]

theorem semAccess_read {n : Nat} (hopen : s.mgmt.isOpen true = true) : semAccess s port (.read n) = readSem n s port := if_pos hopen

/-- A read of a semaphore leaves the block open. -/
theorem readSem_isOpen (n : Nat) : (readSem n s port).mgmt.isOpen true = s.mgmt.isOpen true := by
  unfold readSem
  dsimp only
  split <;> rfl

/-- A read of a free semaphore grants it and answers the word from before. -/
theorem readSem_free {n : Nat} (hhost : hostOk s port = true) (hfree : (s.mgmt.sem n).held = false) :
    readSem n s port = { s with
      mgmt := s.mgmt.setSem n { held := true, owner := port, gen := ((s.mgmt.sem n).gen + 1) % 65536 }
      dev := { s.dev with notices := s.dev.notices ++ [.readData port false (toBytes 8 (s.mgmt.sem n).word)] } } := by
  have hup : s.dev.isLost port = false := by
    rw [hostOk, Bool.and_eq_true, Bool.not_eq_true'] at hhost
    exact hhost.2
  simp only [readSem, hfree, Bool.false_eq_true, if_false, State.mapMgmt, State.mapDev, Dev.notify, hup]

theorem releaseSem_owner {n : Nat} {w : Word} (hhost : hostOk s port = true) (hopen : s.mgmt.isOpen true = true)
    (hholds : s.mgmt.holds port n = true) (hclear : w.getLsbD 31 = false) :
    releaseSem n w s port = { s with mgmt := s.mgmt.setSem n { s.mgmt.sem n with held := false } } := by
  have hbit : bitOf w.toNat 31 = false := hclear
  simp only [releaseSem, hhost, hopen, hholds, hbit, Bool.not_false, Bool.and_self, if_true, State.mapMgmt]

theorem portSemaphoreRead_grants {n : Nat} (hn : n < 32) (hhost : hostOk s port = true) (hopen : s.mgmt.isOpen true = true)
    (hfree : (s.mgmt.sem n).held = false) :
    exec (.portSemaphoreRead port n none) s = .next { s with
      mgmt := s.mgmt.setSem n { held := true, owner := port, gen := ((s.mgmt.sem n).gen + 1) % 65536 }
      dev := { s.dev with notices := s.dev.notices ++ [.readData port false (toBytes 8 (s.mgmt.sem n).word)] } } := by
  rw [exec_portSemaphoreRead, execPortSemaphoreRead, semCycle_alone (x := .read n) hhost hn, semAccess_read hopen, readSem_free hhost hfree]

/-- Reads by both ports: each answers from the state that the one before it left. -/
theorem portSemaphoreRead_tie {n k : Nat} (hn : n < 32) (hk : k < 32) (hzero : hostOk s 0 = true) (hone : hostOk s 1 = true)
    (hopen : s.mgmt.isOpen true = true) :
    let w := tieWinner s.mgmt
    exec (.portSemaphoreRead 0 n (some (.read k))) s = .next (readSem (if 1 - w = 0 then n else k)
      (readSem (if w = 0 then n else k) { s with mgmt := { s.mgmt with tieLoser := some (1 - w) } } w) (1 - w)) := by
  intro w
  have hread (p : Nat) : (if p = 0 then SemAccess.read n else .read k) = .read (if p = 0 then n else k) := (apply_ite SemAccess.read _ n k).symm
  have hfirst : ({ s with mgmt := { s.mgmt with tieLoser := some (1 - w) } } : State).mgmt.isOpen true = true := hopen
  rw [exec_portSemaphoreRead, execPortSemaphoreRead, semCycle_both (x := .read n) (y := .read k) hzero hone hn hk hopen]
  dsimp only
  rw [hread, hread, semAccess_read hfirst, semAccess_read ((readSem_isOpen _).trans hfirst)]

theorem portSemaphoreRelease_frees {n : Nat} {w : Word} (hn : n < 32) (hhost : hostOk s port = true) (hopen : s.mgmt.isOpen true = true)
    (hholds : s.mgmt.holds port n = true) (hclear : w.getLsbD 31 = false) :
    exec (.portSemaphoreRelease port n ⟨w, none⟩) s =
      .next { s with mgmt := s.mgmt.setSem n { s.mgmt.sem n with held := false } } := by
  have halone : semCycle port (.write n w) none s = semAccess s port (.write n w) := semCycle_alone hhost hn
  exact congrArg Host.Outcome.next (halone.trans (releaseSem_owner hhost hopen hholds hclear))

end

/-! ## Registers by their offset (R319, R323, R414) -/

section
variable {s : State} {port off : Nat} {v : DWord}

/-- A write below the queue descriptors by a physical function goes by its offset. -/
theorem mgmtRegisterWrite_pf (hoff : off < 0x01000000) : exec (.mgmtRegisterWrite ⟨port, 0⟩ off v) s = .next (putOffset s port off v) := by
  simp only [exec_mgmtRegisterWrite, execMgmtRegisterWrite, Nat.not_le.mpr hoff, decide_false, Bool.false_and, Bool.false_eq_true, if_false,
    isPf, beq_self_eq_true, if_true]

theorem putOffset_fault (hport : port < 2) : putOffset s port 0x40018 v = writeFault s port v.toNat := by
  have hwindow : 0x40018 ≠ 0x400 + 8 * port := by omega
  simp [putOffset, hwindow]

theorem putOffset_ray (hport : port < 2) : putOffset s port 0x40020 v = writeRay s port v.toNat := by
  have hwindow : 0x40020 ≠ 0x400 + 8 * port := by omega
  simp [putOffset, hwindow]

theorem putOffset_watchdog (hport : port < 2) :
    putOffset s port 0x40010 v = putReg s port (some 2) false 0x40010 (putWatchdog v.toNat) := by
  have hwindow : 0x40010 ≠ 0x400 + 8 * port := by omega
  simp [putOffset, hwindow]

theorem putOffset_k (hport : port < 2) : putOffset s port 0x20088 v = putReg s port (some 0) false 0x20088 (putK v.toNat) := by
  have hwindow : 0x20088 ≠ 0x400 + 8 * port := by omega
  simp [putOffset, hwindow]

theorem putReg_taken {sem : Option Nat} {standby : Bool} (h : gate s port sem standby = .taken) {f : Mgmt → Put} {m : Mgmt}
    (hput : f s.mgmt = .taken m) : putReg s port sem standby off f = { s with mgmt := m } := by
  simp only [putReg, gated_taken h, hput]

theorem putReg_noted {sem : Option Nat} {standby : Bool} (h : gate s port sem standby = .taken) {f : Mgmt → Put}
    (hput : f s.mgmt = .noted) : putReg s port sem standby off f = { s with dev := discard6A s.dev port off } := by
  simp only [putReg, gated_taken h, hput]

theorem putWatchdog_range {w : Nat} (hlow : 20 ≤ w % 64) (hhigh : w % 64 ≤ 40) (m : Mgmt) :
    putWatchdog w m = .taken { m with wdLog2 := w % 64 } := by
  have hfield : field w 5 0 = w % 64 := rfl
  simp only [putWatchdog, hfield, Nat.not_lt.mpr hlow, Nat.not_lt.mpr hhigh, decide_false, Bool.or_self, Bool.false_eq_true, if_false]

end

/-- Settles O48, write by write. -/
theorem registerEvents : Obligations.RegisterEvents := by
  intro s port ctx page n fn v d m c p sets word sem guarded
  refine ⟨?closed, ?refused, ?taken, invalidationComplete_runs, portSemaphoreRead_grants,
    fun k => portSemaphoreRead_tie,
    fun w hn _ hhost hopen hholds hclear => portSemaphoreRelease_frees hn hhost hopen hholds hclear, ?watchdog, ?k, ?kzero⟩
  case closed =>
    intro h x hx
    obtain ⟨f, hf⟩ := blockWrites_gated s port ctx page v x hx
    rw [hf, gated_closed h]
  case refused =>
    intro h x hx
    obtain ⟨f, hf⟩ := blockWrites_gated s port ctx page v x hx
    rw [Makes, hf, gated_refused h]
  case taken =>
    intro h
    have hport := port_lt_two_of_taken h
    refine ⟨contextInvalidation_starts h, faultRetry_taken h, faultFail_taken h, fun a => dropPage_waits, rayDiscard_taken h, ?plain,
      fun hidle => ⟨pairReopen_keeps h hidle, pairReopen_waits h hidle, pairReopen_discards h hidle⟩⟩
    rintro rfl hplain
    refine ⟨fun haction => ?_, ?_⟩
    · exact (mgmtRegisterWrite_pf (by decide)).trans (congrArg _ ((putOffset_fault hport).trans (writeFault_keeps h hplain haction)))
    · exact (mgmtRegisterWrite_pf (by decide)).trans (congrArg _ ((putOffset_ray hport).trans (writeRay_keeps h hplain)))
  case watchdog =>
    rintro h hlow hhigh rfl
    exact (mgmtRegisterWrite_pf (by decide)).trans (congrArg _ ((putOffset_watchdog (port_lt_two_of_taken h)).trans
      (putReg_taken h (putWatchdog_range hlow hhigh s.mgmt))))
  case k =>
    rintro h hk rfl
    exact (mgmtRegisterWrite_pf (by decide)).trans (congrArg _ ((putOffset_k (port_lt_two_of_taken h)).trans
      (putReg_taken h (if_neg hk))))
  case kzero =>
    rintro h hk rfl
    exact (mgmtRegisterWrite_pf (by decide)).trans (congrArg _ ((putOffset_k (port_lt_two_of_taken h)).trans
      (putReg_noted h (if_pos hk))))

end Sys2Proof.Machine
end

section
/-! PROOF. The entry into a trap handler (R390 to R392). -/

namespace Sys2Proof.Machine

/-! ## What writes on a thread's stack change (R84) -/

section
variable (t : Team) (g : Group) (lane : Nat)

theorem stkWrite_changes (d : Dev) (o : Nat) (b : Byte) : ∃ m q, stkWrite d t g lane o b = { d with tmem := m, scr := q } := by
  unfold stkWrite
  split
  · cases stkByte t g lane o with
    | tmem k => exact ⟨_, d.scr, rfl⟩
    | scr k => exact ⟨d.tmem, _, rfl⟩
  · exact ⟨d.tmem, d.scr, rfl⟩

theorem stkPutN_changes (n : Nat) : ∀ (d : Dev) (o v : Nat), ∃ m q, stkPutN d t g lane o n v = { d with tmem := m, scr := q } := by
  induction n with
  | zero => exact fun d _ _ => ⟨d.tmem, d.scr, rfl⟩
  | succ n ih =>
    intro d o v
    obtain ⟨m, q, hfirst⟩ := stkWrite_changes t g lane d o (BitVec.ofNat 8 v)
    obtain ⟨m', q', hrest⟩ := ih { d with tmem := m, scr := q } (o + 1) (v / 256)
    exact ⟨m', q', by rw [stkPutN, hfirst, hrest]⟩

theorem stkCure_changes (d : Dev) (o n : Nat) : ∃ p, stkCure d t g lane o n = { d with poison := p } := by
  unfold stkCure
  split
  · exact ⟨d.poison, rfl⟩
  · split <;> exact ⟨_, rfl⟩

/-- Words pushed on a stack change the local memories and end poison in them. -/
theorem stkWords_changes (l : List Nat) : ∀ (d : Dev) (o : Nat), ∃ m q p,
    stkWords t g lane d o l = { d with tmem := m, scr := q, poison := p } := by
  induction l with
  | nil => exact fun d _ => ⟨d.tmem, d.scr, d.poison, rfl⟩
  | cons w r ih =>
    intro d o
    obtain ⟨m, q, hput⟩ := stkPutN_changes t g lane 8 d o w
    obtain ⟨p, hcure⟩ := stkCure_changes t g lane { d with tmem := m, scr := q } o 8
    obtain ⟨m', q', p', hrest⟩ := ih { d with tmem := m, scr := q, poison := p } (o + 8)
    exact ⟨m', q', p', by rw [stkWords, stkWriteN, hput, hcure, hrest]⟩

end

/-- A stack reads alike before and after a change of threads. -/
theorem stkReadN_of_mapThread (d : Dev) (r : TRef) (f : Thread → Thread) (t : Team) (g : Group) (lane o n : Nat) :
    stkReadN (d.mapThread r f) t g lane o n = stkReadN d t g lane o n :=
  stkReadN_congr t g lane n o fun _ _ => stkRead_congr t g lane _ rfl rfl rfl

/-- Settles O31: the frame's words are read back as they were pushed, and nothing but the stack and the thread is changed. -/
theorem trapEntry : Obligations.TrapEntry := by
  intro d d1 d2 r x t g h b e base entry hteam hgroup hthread hbase hclean0 hclean1 hb he hpc hdepth hsp hstk u sp at_
  have hfind : d.Finds r t g h := ⟨hteam, hgroup, hthread⟩
  have hu : u = (stkWords t g h.lane d2 sp (trapFrame x h)).mapThread r (enterHandler (handlerTrap x h) b e) :=
    takeTrap_handled hfind hbase hclean0 hclean1 hb he hpc hdepth hsp
  have hteams : d2.teams = d.teams := by
    have h1 := partRead_teams d t.ctx entry 8
    have h2 := partRead_teams d1 t.ctx (entry + 8) 8
    rw [hb] at h1
    rw [he] at h2
    exact h2.trans h1
  obtain ⟨m, q, p, hpushed⟩ := stkWords_changes t g h.lane (trapFrame x h) d2 sp
  have hword (k : Nat) (hk : k < 8) : at_ k = (trapFrame x h).getD k 0 % 2 ^ 64 := by
    have hfits : sp + 8 * (trapFrame x h).length ≤ t.kernel.stackS := by
      simp only [trapFrame, List.length_cons, List.length_nil]
      omega
    have hread := stkReadN_stkWords t g h.lane (trapFrame x h) d2 sp k hk hfits
    rw [← hread, ← stkReadN_of_mapThread, ← hu]
  rw [hpushed] at hu
  have hframe : ({ d2 with tmem := m, scr := q, poison := p } : Dev).Finds r t g h := hfind.of_teams hteams
  refine ⟨(hword 0 (by decide)).trans (Nat.mod_eq_of_lt ?_), hword 1 (by decide), hword 2 (by decide), hword 3 (by decide),
    (hword 4 (by decide)).trans (Nat.mod_eq_of_lt h.trap.isLt), hword 5 (by decide), hword 6 (by decide), hword 7 (by decide), ?_,
    fun r' hother => ?_, ?_⟩
  · show x.resume % 2 ^ 32 * 2 ^ 32 + x.fpc % 2 ^ 32 < 2 ^ 64
    omega
  · rw [hu]
    exact (hframe.mapThread (enterHandler (handlerTrap x h) b e) fun _ => rfl).thread?
  · rw [hu, Dev.thread?_mapThread _ (enterHandler (handlerTrap x h) b e) (fun _ => rfl), if_neg hother]
    rfl
  · rw [hu]
    exact ⟨rfl, rfl, rfl, rfl⟩

end Sys2Proof.Machine
end

section
/-! PROOF. Scrubs, uncorrectable errors, parity errors and refresh (R335, R428 to R434). -/

namespace Sys2Proof.Machine

theorem exec_scrubPass (unit n : Nat) (s : State) : exec (.scrubPass unit n) s = execScrubPass unit n s := rfl
theorem exec_eccUncorrectable (site : PoisonSite) (s : State) : exec (.eccUncorrectable site) s = execEccUncorrectable site s := rfl
theorem exec_refreshSubarray (stack bank sub : Nat) (s : State) :
    exec (.refreshSubarray stack bank sub) s = execRefreshSubarray stack bank sub s := rfl
theorem exec_mgmtHeartbeat (stack : Nat) (missed : Bool) (s : State) :
    exec (.mgmtHeartbeat stack missed) s = execMgmtHeartbeat stack missed s := rfl
theorem exec_refreshTakeover (stack : Nat) (s : State) : exec (.refreshTakeover stack) s = execRefreshTakeover stack s := rfl
theorem exec_refreshAllBank (stack : Nat) (s : State) : exec (.refreshAllBank stack) s = execRefreshAllBank stack s := rfl

theorem Makes.congr {i : Instr} {s : State} {d e : Dev} (h : Makes i s d) (hd : d = e) : Makes i s e := hd ▸ h

/-! ## Errors that are corrected, and errors that are not (R428 to R430) -/

theorem scrubPass_counts {s : State} {unit n : Nat} (hn : n ≠ 0) (hunit : unit < 832) :
    Makes (.scrubPass unit n) s (rateNote s.dev 0x46 unit n 0 0 true fun r =>
      { cls := 0x46, sev := 0, kind := (scrubSource unit).1, index := (scrubSource unit).2, ctx := none, d0 := r.count }) := by
  simp only [Makes, exec_scrubPass, execScrubPass, State.onDev_eq, hn, Nat.not_le.mpr hunit, decide_false, Bool.or_self, Bool.false_eq_true,
    if_false]

/-- Where no migration write waits, an uncorrectable error does what its place makes of it. -/
theorem eccUncorrectable_poisons {s : State} (hidle : bitOf s.mgmt.migReq.toNat 63 = false) (site : PoisonSite) :
    Makes (.eccUncorrectable site) s (poisonSite s.dev site) := by
  have hwaits : writeWaits { s with dev := poisonSite s.dev site } (field s.mgmt.migReq.toNat 24 0) = false :=
    writeWaits_idle (s := { s with dev := poisonSite s.dev site }) hidle _
  simp only [Makes, exec_eccUncorrectable, execEccUncorrectable, hwaits, Bool.false_eq_true, if_false, State.mapDev]

theorem poisonSite_tmem_new {d : Dev} {a : Nat} (hnew : (⟨2, poisonWord 2 a⟩ : Poison) ∉ d.poison) :
    poisonSite d (.tmem a) = { d with poison := d.poison ++ [⟨2, poisonWord 2 a⟩] } := by
  simp only [poisonSite, addPoison, List.contains_iff_mem, if_neg hnew]

theorem poisonSite_slot (d : Dev) (team gid tid k : Nat) :
    poisonSite d (.slot team gid tid k) =
      d.mapThread ⟨team, gid, tid⟩ fun h => if k ∈ h.bad then h else { h with bad := h.bad ++ [k] } := by
  simp only [poisonSite, List.contains_iff_mem]

/-! ## Refresh by the management core, and by the controller (R335, R434) -/

section
variable {s : State} {stack bank sub : Nat}

theorem refreshSubarray_starts (hstack : stack < Config.hbmStacks) (hcore : (s.dev.stackAt stack).allBank = false) (hsub : sub < 64)
    (hbank : ∀ x ∈ (s.dev.stackAt stack).refreshing, x.1 ≠ bank) :
    Makes (.refreshSubarray stack bank sub) s
      (s.dev.setStack stack { s.dev.stackAt stack with refreshing := (s.dev.stackAt stack).refreshing ++ [(bank, sub)] }) := by
  have hfree : ((s.dev.stackAt stack).refreshing.any fun p => p.1 == bank) = false := by
    simpa only [List.any_eq_false, beq_iff_eq] using hbank
  simp only [Makes, exec_refreshSubarray, execRefreshSubarray, State.onDev_eq, Nat.not_le.mpr hstack, hcore, Nat.not_le.mpr hsub, hfree,
    decide_false, Bool.or_self, Bool.false_eq_true, if_false]

theorem mgmtHeartbeat_counts (hstack : stack < Config.hbmStacks) (hcore : (s.dev.stackAt stack).allBank = false) (missed : Bool) :
    Makes (.mgmtHeartbeat stack missed) s
      (s.dev.setStack stack { s.dev.stackAt stack with missed := if missed then (s.dev.stackAt stack).missed + 1 else 0 }) := by
  simp only [Makes, exec_mgmtHeartbeat, execMgmtHeartbeat, State.onDev_eq, Nat.not_le.mpr hstack, hcore, decide_false, Bool.or_self,
    Bool.false_eq_true, if_false]

theorem refreshTakeover_records (hcore : (s.dev.stackAt stack).allBank = false) (hmissed : 3 ≤ (s.dev.stackAt stack).missed) :
    Makes (.refreshTakeover stack) s
      (report (s.dev.setStack stack { s.dev.stackAt stack with allBank := true, refreshing := [] })
        { cls := 0x4C, sev := 3, kind := 4, index := stack, ctx := none }) := by
  simp only [Makes, exec_refreshTakeover, execRefreshTakeover, State.onDev_eq, hcore, Nat.not_lt.mpr hmissed, decide_false, Bool.or_self,
    Bool.false_eq_true, if_false]

theorem refreshAllBank_busy (hall : (s.dev.stackAt stack).allBank = true) :
    Makes (.refreshAllBank stack) s (s.dev.setStack stack { s.dev.stackAt stack with busy := true }) := by
  simp only [Makes, exec_refreshAllBank, execRefreshAllBank, State.onDev_eq, hall, if_true]

end

/-- Settles O45, event by event. -/
theorem errorEvents : Obligations.ErrorEvents := by
  intro s unit n stack bank sub a d v p
  refine ⟨scrubPass_counts, fun hidle => ⟨fun hnew => (eccUncorrectable_poisons hidle _).congr (poisonSite_tmem_new hnew),
      fun team gid tid k => (eccUncorrectable_poisons hidle _).congr (poisonSite_slot d team gid tid k), eccUncorrectable_poisons hidle⟩,
    fun ctx kind index => rfl, fun hstack hcore => ⟨refreshSubarray_starts hstack hcore, mgmtHeartbeat_counts hstack hcore true,
      mgmtHeartbeat_counts hstack hcore false, refreshTakeover_records hcore⟩, refreshAllBank_busy, rfl⟩

end Sys2Proof.Machine
end

section
/-! PROOF. A counterexample to the statement about boot: a lost-port table that lists a port with its default value (R351, R453). -/

namespace Sys2Proof.Machine

/-- The part in Reset with the link of port 0 trained; the table of lost ports lists port 1 as not lost. -/
def resetListingPort1 : State :=
  { State.reset with
    mgmt := { Mgmt.reset with boot := { Boot.blank with trained0 := true } }
    dev := { Dev.reset with lost := [(1, 0)] } }

/-- Refutes O47: the training of port 1 drops the entry of port 1 from the table of lost ports, while the statement keeps the table and
assumes only that port 1 reads as not lost; a table that lists the default value, not in its canonical form, is changed. -/
theorem not_bootEvents : ¬ Obligations.BootEvents := by
  intro hall
  obtain ⟨-, -, htrained, -⟩ := hall resetListingPort1 0 0 0
  have hlost := congrArg (shows Dev.lost) (htrained rfl rfl rfl)
  exact absurd hlost (by decide +kernel)

end Sys2Proof.Machine
end

section
/-! PROOF. Device time set, disciplined by PTP and by 1PPS, and the 1PPS output (R347 to R350). -/

namespace Sys2Proof.Machine

theorem exec_timeSet (port : Nat) (v : DWord) (s : State) : exec (.timeSet port v) s = execTimeSet port v s := rfl
theorem exec_ptpMessage (h : PtpHead) (m : PtpMsg) (s : State) : exec (.ptpMessage h m) s = execPtpMessage h m s := rfl
theorem exec_ppsInput (s : State) : exec .ppsInput s = execPpsInput s := rfl
theorem exec_ppsOutputEdge (s : State) : exec .ppsOutputEdge s = execPpsOutputEdge s := rfl

/-! ## An offset in whole nanoseconds applied: up to the limit, above it, below it (R350) -/

theorem applyOffset_slews {d : Dev} {us : Nat} {o : Int} (hlow : -((us : Int) * 1000) ≤ o) (hhigh : o ≤ (us : Int) * 1000) :
    applyOffset d us (nsUnits o) = { d with slew := o * 65536, half := false } := by
  have hin : -nsUnits (us * 1000) ≤ nsUnits o ∧ nsUnits o ≤ nsUnits (us * 1000) := by
    simp only [nsUnits]
    omega
  rw [applyOffset, if_pos hin]
  rfl

theorem applyOffset_steps {d : Dev} {us : Nat} {o : Int} (hlarge : (us : Int) * 1000 < o) (hlater : 0 < o) :
    applyOffset d us (nsUnits o) = d.stepTo (d.units + (nsUnits o).toNat) := by
  have hout : ¬ (-nsUnits (us * 1000) ≤ nsUnits o ∧ nsUnits o ≤ nsUnits (us * 1000)) := by
    simp only [nsUnits]
    omega
  have hpos : 0 < nsUnits o := by
    simp only [nsUnits]
    omega
  simp only [applyOffset, if_neg hout, if_pos hpos]

theorem applyOffset_halves {d : Dev} {us : Nat} {o : Int} (hlarge : o < -((us : Int) * 1000)) (hearlier : o < 0) :
    applyOffset d us (nsUnits o) = { d with slew := o * 65536, half := true } := by
  have hout : ¬ (-nsUnits (us * 1000) ≤ nsUnits o ∧ nsUnits o ≤ nsUnits (us * 1000)) := by
    simp only [nsUnits]
    omega
  have hneg : ¬ 0 < nsUnits o := by
    simp only [nsUnits]
    omega
  simp only [applyOffset, if_neg hout, if_neg hneg]
  rfl

/-- A count of 2^-16 ns, put together again from its seconds, nanoseconds and fraction. -/
theorem time_split (n : Nat) : (n / 65536 / 10 ^ 9 * 10 ^ 9 + n / 65536 % 10 ^ 9) * 65536 + n % 65536 = n := by omega

theorem units_stepTo (d : Dev) (n : Nat) : (d.stepTo n).units = n := time_split n

theorem units_stepTo_later (d : Dev) {o : Int} (hlater : 0 < o) :
    (((d.stepTo (d.units + (nsUnits o).toNat)).units : Nat) : Int) = ((d.units : Nat) : Int) + o * 65536 := by
  rw [units_stepTo]
  simp only [nsUnits]
  omega

/-! ## The time set by host software (R349) -/

theorem timeSet_applies {s : State} {port : Nat} {v : DWord} (h : gate s port (some 1) false = .taken) (hns : v.toNat / 2 ^ 32 < 10 ^ 9) :
    Makes (.timeSet port v) s (applyOffset s.dev s.mgmt.stepUs
      ((((s.mgmt.setSecs.toNat * 10 ^ 9 + v.toNat / 2 ^ 32) * 65536 + v.toNat % 65536 : Nat) : Int) - ((s.dev.units : Nat) : Int))) := by
  have hfield : field v.toNat 63 32 = v.toNat / 2 ^ 32 := by
    rw [Laws.Encoding.field_eq_div]
    omega
  have hfrac : field v.toNat 15 0 = v.toNat % 65536 := rfl
  simp only [Makes, exec_timeSet, execTimeSet, gated_taken h, hfield, hfrac, Nat.not_le.mpr hns, if_false, State.mapDev]

/-! ## The timing port (R348) -/

section
variable {s : State} {h : PtpHead} {msg : PtpMsg}

theorem ptpMessage_foreign (hother : h.domain ≠ s.mgmt.domain ∨ h.transport ≠ s.mgmt.transport) : exec (.ptpMessage h msg) s = .next s := by
  have hnot : ¬ (s.mgmt.disciplined && s.mgmt.source == 1 && h.domain == s.mgmt.domain && h.transport == s.mgmt.transport) = true := by
    simp only [Bool.and_eq_true, beq_iff_eq]
    rintro ⟨⟨-, hdomain⟩, htransport⟩
    exact hother.elim (· hdomain) (· htransport)
  rw [exec_ptpMessage, execPtpMessage, if_neg hnot]

theorem ptpMessage_taken (hon : s.mgmt.disciplined = true) (hsource : s.mgmt.source = 1) (hdomain : h.domain = s.mgmt.domain)
    (htransport : h.transport = s.mgmt.transport) (msg : PtpMsg) : exec (.ptpMessage h msg) s = .next (ptpTake s h msg) := by
  simp only [exec_ptpMessage, execPtpMessage, hon, hsource, hdomain, htransport, beq_self_eq_true, Bool.and_self, if_true]

theorem ptpTake_firstMaster {l : List Nat} (hnone : s.mgmt.ptp.best = none) :
    ptpTake s h (.announce l) = { s with mgmt := { s.mgmt with master := true, ptp := { s.mgmt.ptp with best := some (h.source, l) } } } := by
  simp only [ptpTake, announced, hnone, State.mapMgmt]

/-- The Delay_Req after a Sync whose origin time is known. -/
theorem askDelay_eq (s : State) (origin received : Int) : askDelay s origin received =
    { s with
      mgmt := { s.mgmt with ptp := { s.mgmt.ptp with
        pending := none, down := some (origin, received), asked := some (s.mgmt.ptp.next, s.dev.nsNow), next := (s.mgmt.ptp.next + 1) % 65536 } }
      dev := { s.dev with notices := s.dev.notices ++ [.delayReq s.mgmt.ptp.next] } } := rfl

end

/-! ## Messages of the master that is followed (R348 to R350) -/

section
variable {s : State} {h : PtpHead} {l : List Nat} (hbest : s.mgmt.ptp.best = some (h.source, l))
include hbest

theorem follows_best : (s.mgmt.ptp.best.any fun b => b.1 == h.source) = true := by
  rw [hbest]
  exact beq_self_eq_true h.source

theorem ptpTake_sync (origin corr : Int) : ptpTake s h (.sync false origin corr) = askDelay s (origin + corr) s.dev.nsNow := by
  simp only [ptpTake, follows_best hbest, Bool.not_true, Bool.false_eq_true, if_false]

theorem ptpTake_syncTwoStep (origin corr : Int) : ptpTake s h (.sync true origin corr) =
    { s with mgmt := { s.mgmt with ptp := { s.mgmt.ptp with pending := some (h.seq, s.dev.nsNow, corr) } } } := by
  simp only [ptpTake, follows_best hbest, Bool.not_true, Bool.false_eq_true, if_false, if_true, State.mapPtp, State.mapMgmt]

theorem ptpTake_followUp {received c : Int} (hpending : s.mgmt.ptp.pending = some (h.seq, received, c)) (origin corr : Int) :
    ptpTake s h (.followUp origin corr) = askDelay s (origin + corr + c) received := by
  simp only [ptpTake, follows_best hbest, hpending, beq_self_eq_true, Bool.and_self, if_true]

/-- The offset measured by an exchange is recorded, counted towards the lock and applied. -/
theorem ptpTake_delayResp {received corr sent t1 t2 o : Int} {d : Dev} (hasked : s.mgmt.ptp.asked = some (h.seq, sent))
    (hdown : s.mgmt.ptp.down = some (t1, t2)) (ho : o = ((received - corr - sent) - (t2 - t1)) / 2)
    (hd : applyOffset s.dev s.mgmt.stepUs (nsUnits o) = d) :
    ptpTake s h (.delayResp received corr) =
      { s with
        mgmt := { s.mgmt with
          offset := o
          good := if -100 ≤ o ∧ o ≤ 100 then min 16 (s.mgmt.good + 1) else 0
          ptp := { s.mgmt.ptp with asked := none } }
        dev := d } := by
  have hmeasured : ptpTake s h (.delayResp received corr) = takeOffset (s.mapPtp fun p => { p with asked := none }) o := by
    simp only [ptpTake, follows_best hbest, hasked, hdown, beq_self_eq_true, Bool.and_self, if_true, ho]
  rw [hmeasured, ← hd]
  rfl

theorem ptpTake_silence : ptpTake s h .silence =
    { s with mgmt := { s.mgmt with master := false, ptp := { Ptp.blank with next := s.mgmt.ptp.next } } } := by
  simp only [ptpTake, follows_best hbest, if_true, State.mapMgmt]

end

/-! ## The pulse per second (R349, R350) -/

theorem ppsInput_takes {s : State} (hon : s.mgmt.disciplined = true) (hsource : s.mgmt.source = 2) (hwritten : bitOf s.mgmt.ppsSecs.toNat 63 = true)
    {o : Int} (ho : o = ((s.mgmt.ppsSecs.toNat % 2 ^ 48 * 10 ^ 9 : Nat) : Int) - ((s.dev.secs * 10 ^ 9 + s.dev.nanos : Nat) : Int)) :
    exec .ppsInput s = .next { s with
      mgmt := { s.mgmt with
        offset := o
        good := if -100 ≤ o ∧ o ≤ 100 then min 16 (s.mgmt.good + 1) else 0
        ppsSecs := BitVec.ofNat 64 (s.mgmt.ppsSecs.toNat % 2 ^ 48) }
      dev := applyOffset s.dev s.mgmt.stepUs (o * 65536) } := by
  simp only [exec_ppsInput, execPpsInput, hon, hsource, hwritten, beq_self_eq_true, Bool.and_self, if_true, ← ho, takeOffset, nsUnits,
    State.mapMgmt]

theorem ppsOutputEdge_sends {s : State} (hnear : s.dev.nanos < 5 ∨ 10 ^ 9 - 5 ≤ s.dev.nanos ∨ (s.dev.nanos = 5 ∧ s.dev.frac = 0)) :
    Makes .ppsOutputEdge s { s.dev with notices := s.dev.notices ++ [.pps] } := by
  have hin : (s.dev.nanos < 5 || 10 ^ 9 - 5 ≤ s.dev.nanos || (s.dev.nanos == 5 && s.dev.frac == 0)) = true := by
    simpa only [Bool.or_eq_true, Bool.and_eq_true, decide_eq_true_eq, beq_iff_eq, or_assoc] using hnear
  simp only [Makes, exec_ppsOutputEdge, execPpsOutputEdge, State.mapDev, hin, if_true]
  rfl

/-- Settles O51: the time set, the messages of the timing port one by one, and the pulses. -/
theorem timeEvents : Obligations.TimeEvents := by
  intro s port v h msg c1 c2 present d m limit taken
  refine ⟨timeSet_applies, fun hon hsource => ⟨ptpMessage_foreign, fun hdomain htransport => ?port⟩,
    fun hon hsource hwritten => ppsInput_takes hon hsource hwritten rfl, ppsOutputEdge_sends, rfl⟩
  case port =>
    have htake := ptpMessage_taken hon hsource hdomain htransport
    refine ⟨fun l hnone => ?_, fun l hbest => ⟨?_, ?_, fun t2 c hpending => ?_, fun sent t1 t2 hasked hdown => ?offset, ?_⟩⟩
    · rw [htake, ptpTake_firstMaster hnone]
    · rw [htake, ptpTake_sync hbest, askDelay_eq]
    · rw [htake, ptpTake_syncTwoStep hbest]
    · rw [htake, ptpTake_followUp hbest hpending, askDelay_eq]
    case offset =>
      intro o p
      refine ⟨fun hlow hhigh => ?_, fun hlarge hlater => ⟨_, (htake _).trans (congrArg _
        (ptpTake_delayResp hbest hasked hdown rfl (applyOffset_steps hlarge hlater))), rfl, units_stepTo_later d hlater, rfl⟩,
        fun hlarge hearlier => ?_⟩
      · rw [htake, ptpTake_delayResp hbest hasked hdown rfl (applyOffset_slews hlow hhigh)]
      · rw [htake, ptpTake_delayResp hbest hasked hdown rfl (applyOffset_halves hlarge hearlier)]
    · rw [htake, ptpTake_silence hbest]

end Sys2Proof.Machine
end

section
/-! PROOF. Link ports fail, retrain, come up, change their rate and are disabled (R337, R457 to R460, R462). -/

namespace Sys2Proof.Machine

theorem exec_laneSignalLoss (link : LinkId) (s : State) : exec (.laneSignalLoss link) s = execLaneSignalLoss link s := rfl
theorem exec_replayLimit (link : LinkId) (s : State) : exec (.replayLimit link) s = execReplayLimit link s := rfl
theorem exec_creditTimeout (link : LinkId) (s : State) : exec (.creditTimeout link) s = execCreditTimeout link s := rfl
theorem exec_flitCrcError (link : LinkId) (s : State) : exec (.flitCrcError link) s = execFlitCrcError link s := rfl
theorem exec_portRetrain (link : LinkId) (s : State) : exec (.portRetrain link) s = execPortRetrain link s := rfl
theorem exec_portUp (link : LinkId) (s : State) : exec (.portUp link) s = execPortUp link s := rfl
theorem exec_portDegraded (link : LinkId) (low : Bool) (s : State) : exec (.portDegraded link low) s = execPortDegraded link low s := rfl
theorem exec_portDisable (port : Nat) (link : LinkId) (v : DWord) (s : State) :
    exec (.portDisable port link v) s = execPortDisable port link v s := rfl

/-! ## A port that fails (R458, R462) -/

/-- A record of no context changes the number of its source, the global log and the notices. -/
theorem report_contextless_changes (d : Dev) (r : ErrRec) (h : r.ctx = none) : ∃ seq log wr dropped armed l,
    report d r = { d with recSeq := seq, glog := log, gwr := wr, gdropped := dropped, garmed := armed, notices := l } := by
  simp only [report, h]
  obtain ⟨log, wr, dropped, armed, l, hplaced⟩ := placeGlobal_changes
    { d with recSeq := AMap.set 0 d.recSeq (r.kind * 4096 + r.index) ((AMap.get 0 d.recSeq (r.kind * 4096 + r.index) + 1) % 2 ^ 32) } _
  exact ⟨_, log, wr, dropped, armed, l, hplaced⟩

theorem report_contextless_outs (d : Dev) (r : ErrRec) (h : r.ctx = none) : (report d r).outs = d.outs := by
  obtain ⟨seq, log, wr, dropped, armed, l, hchanges⟩ := report_contextless_changes d r h
  rw [hchanges]

/-- A port that fails where the part has sent nothing: its state and its record. -/
theorem failPort_quiet {d : Dev} {k : Nat} (hworks : (d.port k).state ≠ .failed) (houts : d.outs = []) (reason : Nat) :
    failPort d k reason = portRecord (d.setPort k { d.port k with
      state := .failed, failures := ((d.port k).failures + 1) % 65536, reason, failedAt := d.cycle }) k 0x80 reason := by
  have hnobody (v : Port) : (portRecord (d.setPort k v) k 0x80 reason).destinations = [] := by
    rw [Dev.destinations, portRecord, report_contextless_outs _ _ rfl, Dev.setPort_outs, houts, List.map_nil]
  unfold failPort
  dsimp only
  rw [if_neg hworks, hnobody, List.foldl_nil]

section
variable {s : State} {link : LinkId}

theorem linkFails_eq (hruns : s.mgmt.runs = true) (reason : Nat) :
    linkFails link reason s = { s with dev := failPort s.dev (linkKey link) reason } := if_pos hruns

theorem laneSignalLoss_fails (hruns : s.mgmt.runs = true) : Makes (.laneSignalLoss link) s (failPort s.dev (linkKey link) 1) := by
  rw [Makes, exec_laneSignalLoss, execLaneSignalLoss, linkFails_eq hruns]

theorem replayLimit_fails (hruns : s.mgmt.runs = true) : Makes (.replayLimit link) s (failPort s.dev (linkKey link) 2) := by
  rw [Makes, exec_replayLimit, execReplayLimit, linkFails_eq hruns]

theorem creditTimeout_fails (hruns : s.mgmt.runs = true) : Makes (.creditTimeout link) s (failPort s.dev (linkKey link) 3) := by
  rw [Makes, exec_creditTimeout, execCreditTimeout, linkFails_eq hruns]

/-! ## Training and rate (R337, R457, R459) -/

theorem portRetrain_trains (hruns : s.mgmt.runs = true)
    (hdown : (s.dev.port (linkKey link)).state = .failed ∨
      ((s.dev.port (linkKey link)).state = .training ∧ (s.dev.port (linkKey link)).reason ≠ 0))
    (henabled : (s.dev.port (linkKey link)).disable = false) (hlong : (s.dev.port (linkKey link)).failedAt + 40000000 ≤ s.dev.cycle) :
    Makes (.portRetrain link) s (s.dev.setPort (linkKey link)
      { s.dev.port (linkKey link) with state := .training, trainedAt := s.dev.cycle, failedAt := s.dev.cycle }) := by
  have hretrains : (s.dev.port (linkKey link)).retrains = true := by
    simpa [Port.retrains, henabled] using hdown
  have hms : (s.dev.port (linkKey link)).failedAt + 10 * ms ≤ s.dev.cycle := hlong
  simp only [Makes, exec_portRetrain, execPortRetrain, hruns, hretrains, hms, decide_true, Bool.and_self, if_true, State.mapDev]

theorem portUp_first (hruns : s.mgmt.runs = true) (htraining : (s.dev.port (linkKey link)).state = .training)
    (hlong : (s.dev.port (linkKey link)).trainedAt + 4000000 ≤ s.dev.cycle) (hnever : (s.dev.port (linkKey link)).reason = 0) :
    Makes (.portUp link) s (s.dev.setPort (linkKey link) { s.dev.port (linkKey link) with state := .up }) := by
  have hms : (s.dev.port (linkKey link)).trainedAt + ms ≤ s.dev.cycle := hlong
  simp only [Makes, exec_portUp, execPortUp, hruns, htraining, hms, hnever, beq_self_eq_true, decide_true, Bool.and_self, if_true, State.mapDev]

theorem flitCrcError_restarts (htraining : (s.dev.port (linkKey link)).state = .training) :
    Makes (.flitCrcError link) s (s.dev.setPort (linkKey link) { s.dev.port (linkKey link) with trainedAt := s.dev.cycle }) := by
  simp only [Makes, exec_flitCrcError, execFlitCrcError, State.mapDev, if_pos htraining]

theorem portDegraded_low (hup : (s.dev.port (linkKey link)).state = .up) :
    Makes (.portDegraded link true) s (s.dev.setPort (linkKey link) { s.dev.port (linkKey link) with state := .degraded }) := by
  simp only [Makes, exec_portDegraded, execPortDegraded, State.mapDev, hup]

theorem portDegraded_back (hlow : (s.dev.port (linkKey link)).state = .degraded) :
    Makes (.portDegraded link false) s (s.dev.setPort (linkKey link) { s.dev.port (linkKey link) with state := .up }) := by
  simp only [Makes, exec_portDegraded, execPortDegraded, State.mapDev, hlow]

end

/-! ## The disable bit (R458, R460) -/

section
variable {s : State} {port : Nat} {link : LinkId} {v : DWord} (h : gate s port (some 2) false = .taken)
include h

theorem portDisable_clears (hclear : v.getLsbD 2 = false) :
    Makes (.portDisable port link v) s (s.dev.setPort (linkKey link) { s.dev.port (linkKey link) with disable := false }) := by
  have hbit : bitOf v.toNat 2 = false := hclear
  simp only [Makes, exec_portDisable, execPortDisable, gated_taken h, State.mapDev, hbit, Bool.not_false, if_true]

/-- The bit set: a working port fails with reason 4, a failed one has that reason from then on. -/
theorem portDisable_sets (hset : v.getLsbD 2 = true) :
    Makes (.portDisable port link v) s
      (let p := s.dev.port (linkKey link)
       let d1 := s.dev.setPort (linkKey link) { p with disable := true }
       if p.state = .failed then d1.setPort (linkKey link) { p with disable := true, reason := 4 } else failPort d1 (linkKey link) 4) := by
  have hbit : bitOf v.toNat 2 = true := hset
  simp only [Makes, exec_portDisable, execPortDisable, gated_taken h, State.mapDev, hbit, Bool.not_true, Bool.false_eq_true, if_false,
    Dev.port_setPort, if_true]

end

/-- Settles O52, event by event. -/
theorem linkEvents : Obligations.LinkEvents := by
  intro s link port v d k p
  refine ⟨fun hruns => ⟨laneSignalLoss_fails hruns, replayLimit_fails hruns, creditTimeout_fails hruns, portRetrain_trains hruns,
    portUp_first hruns⟩, fun hruns hworks houts =>
      (laneSignalLoss_fails hruns).congr (failPort_quiet hworks houts 1), flitCrcError_restarts, portDegraded_low, portDegraded_back,
    fun h => ⟨portDisable_clears h, fun hset => ⟨fun hworks => ?works, fun hfailed => ?failed⟩⟩⟩
  case works =>
    have hexec := portDisable_sets h hset (link := link)
    rwa [if_neg hworks] at hexec
  case failed =>
    have hexec := portDisable_sets h hset (link := link)
    rwa [if_pos hfailed] at hexec

end Sys2Proof.Machine
end

section
/-! PROOF. The end-to-end layer towards other packages and from them (R340 to R345, R435, R436, R461 to R467). -/

namespace Sys2Proof.Machine

theorem exec_e2eResendTimeout (dst : PeerId) (seq : Nat) (s : State) : exec (.e2eResendTimeout dst seq) s = execE2eResendTimeout dst seq s := rfl
theorem exec_e2eAckArrival (dst : PeerId) (seq : Nat) (v : Option DWord) (s : State) :
    exec (.e2eAckArrival dst seq v) s = execE2eAckArrival dst seq v s := rfl
theorem exec_e2eBusyAnswer (dst : PeerId) (seq : Nat) (s : State) : exec (.e2eBusyAnswer dst seq) s = execE2eBusyAnswer dst seq s := rfl
theorem exec_unreachableAnswer (dst : PeerId) (gen : Nat) (s : State) : exec (.unreachableAnswer dst gen) s = execUnreachableAnswer dst gen s := rfl
theorem exec_unreachableDeclare (dst : PeerId) (s : State) : exec (.unreachableDeclare dst) s = execUnreachableDeclare dst s := rfl
theorem exec_reopenRetry (s : State) : exec .reopenRetry s = execReopenRetry s := rfl
theorem exec_resyncArrival (src : PeerId) (seq : Nat) (s : State) : exec (.resyncArrival src seq) s = execResyncArrival src seq s := rfl
theorem exec_e2eRequestArrival (r : RemoteReq) (s : State) : exec (.e2eRequestArrival r) s = .next (reachPart s r) := rfl

/-! ## The source: resends and suspicion (R343, R461) -/

section
variable {s : State} {dst : PeerId} {seq : Nat} {x : Sent} (hx : (s.dev.out dst).sent.find? (fun x => x.seq == seq) = some x)
include hx

/-- A request without a usable port is sent again. -/
theorem e2eResendTimeout_portless (hlate : x.at_ + 80000 ≤ s.dev.cycle) (hport : x.port = 255 ∨ (s.dev.port x.port).usable = false) :
    Makes (.e2eResendTimeout dst seq) s (resend dst s.dev x) := by
  have hms : ¬ s.dev.cycle < x.at_ + ms / 50 := Nat.not_lt.mpr hlate
  have hout : (x.port = 255 || !(s.dev.port x.port).usable) = true := by
    simpa only [Bool.or_eq_true, decide_eq_true_eq, Bool.not_eq_true'] using hport
  simp only [Makes, exec_e2eResendTimeout, execE2eResendTimeout, State.mapDev, hx, if_neg hms, if_pos hout]

section
variable (hlate : x.at_ + 80000 ≤ s.dev.cycle) (hport : x.port ≠ 255) (husable : (s.dev.port x.port).usable = true)
include hlate hport husable

/-- A suspect port that loses one more request stays so for 10 ms more. -/
theorem e2eResendTimeout_suspect (hsuspect : ∃ y ∈ (s.dev.out dst).suspects, y.port = x.port) :
    Makes (.e2eResendTimeout dst seq) s (resend dst (mapPairs s.dev dst (setSuspect x.port (some ⟨x.port, s.dev.cycle, false⟩))) x) := by
  have hms : ¬ s.dev.cycle < x.at_ + ms / 50 := Nat.not_lt.mpr hlate
  have hany : ((s.dev.out dst).suspects.any fun y => y.port == x.port) = true := by
    simpa only [List.any_eq_true, beq_iff_eq] using hsuspect
  simp only [Makes, exec_e2eResendTimeout, execE2eResendTimeout, State.mapDev, hx, if_neg hms, hport, husable, hany, decide_false,
    Bool.not_true, Bool.or_self, Bool.false_eq_true, if_false, if_true]

/-- A port that is not suspect is charged with the loss, and becomes suspect at its third in a row. -/
theorem e2eResendTimeout_misses (hsound : ∀ y ∈ (s.dev.out dst).suspects, y.port ≠ x.port) :
    Makes (.e2eResendTimeout dst seq) s
      (let d1 := s.dev.setOut dst { s.dev.out dst with
        misses := if (x.port, x.seq) ∈ (s.dev.out dst).misses then (s.dev.out dst).misses else (s.dev.out dst).misses ++ [(x.port, x.seq)] }
       if 3 ≤ missesOf d1 dst x.port then suspectPort d1 dst x.port else resend dst d1 x) := by
  have hms : ¬ s.dev.cycle < x.at_ + ms / 50 := Nat.not_lt.mpr hlate
  have hnone : ((s.dev.out dst).suspects.any fun y => y.port == x.port) = false := by
    simpa only [List.any_eq_false, beq_iff_eq] using hsound
  simp only [Makes, exec_e2eResendTimeout, execE2eResendTimeout, State.mapDev, hx, if_neg hms, hport, husable, hnone, decide_false,
    Bool.not_true, Bool.or_self, Bool.false_eq_true, if_false, List.contains_iff_mem]

end

/-! ## The source: answers (R342, R435, R436) -/

theorem e2eAckArrival_answers (v : DWord) :
    Makes (.e2eAckArrival dst seq (some v)) s (progressIssuer (answerAccess (settleSent s.dev dst x) dst x v) x.access.who) := by
  simp only [Makes, exec_e2eAckArrival, execE2eAckArrival, State.mapDev, hx]

theorem e2eAckArrival_unreachable :
    Makes (.e2eAckArrival dst seq none) s (progressIssuer (unreachable (settleSent s.dev dst x) x.access dst) x.access.who) := by
  simp only [Makes, exec_e2eAckArrival, execE2eAckArrival, State.mapDev, hx]

theorem e2eBusyAnswer_waits : Makes (.e2eBusyAnswer dst seq) s (rateNote
    (s.dev.setOut dst { s.dev.out dst with
      sent := (s.dev.out dst).sent.map fun x => if x.seq = seq then { x with at_ := s.dev.cycle } else x }) 0x87 dst 1 dst 0 false
    fun r => { cls := 0x87, sev := 0, kind := 5, index := 0, ctx := none, d0 := dst, d1 := r.count }) := by
  have hany : ((s.dev.out dst).sent.any fun x => x.seq == seq) = true :=
    List.any_eq_true.mpr ⟨x, List.mem_of_find?_eq_some hx, List.find?_some (p := fun x : Sent => x.seq == seq) hx⟩
  simp only [Makes, exec_e2eBusyAnswer, execE2eBusyAnswer, State.mapDev, hany, if_true]

end

/-! ## Destinations that are unreachable (R435, R465 to R467) -/

/-- A message of a stack agent that waited for room is lost: its firing fails; an abort needs none (R435). -/
def loseWaiting (dst : PeerId) (d : Dev) (m : AgentMsg) : Dev :=
  match m with
  | .abort _ _ => d
  | _ => loseFiring d (pairStack dst) (msgEntry m) 1

section
variable {s : State} {dst : PeerId}

theorem unreachableAnswer_closes {gen : Nat} {x : Sent} (hx : x ∈ (s.dev.out dst).sent) (hgen : x.gen ≠ gen) :
    Makes (.unreachableAnswer dst gen) s
      (let o := s.dev.out dst
       let d1 : Dev := { s.dev with
        remotes := s.dev.remotes.filter fun r => !(field r.2.2.1.toNat 18 0 == dst && field r.2.2.2.toNat 31 16 != gen) }
       let d2 := d1.setOut dst
        { o with sent := o.sent.filter fun x => x.gen == gen, queue := [], closed := true, closedAt := s.dev.cycle, fresh := true, reported := gen }
       loseSent (o.queue.foldl (loseWaiting dst) d2) dst (o.sent.filter fun x => x.gen != gen)) := by
  have hold : ((s.dev.out dst).sent.filter fun x => x.gen != gen).isEmpty = false :=
    List.isEmpty_eq_false_iff_exists_mem.mpr ⟨x, List.mem_filter.mpr ⟨hx, bne_iff_ne.mpr hgen⟩⟩
  have hout : ({ s.dev with
      remotes := s.dev.remotes.filter fun r => !(field r.2.2.1.toNat 18 0 == dst && field r.2.2.2.toNat 31 16 != gen) } : Dev).out dst =
      s.dev.out dst := rfl
  simp only [Makes, exec_unreachableAnswer, execUnreachableAnswer, State.mapDev, hout, hold, Bool.false_eq_true, if_false]
  rfl

/-- What is left of a pair that is declared unreachable. -/
def PeerOut.givenUp (o : PeerOut) (now : Nat) : PeerOut := { o with sent := [], queue := [], closed := true, closedAt := now, fresh := false }

theorem Dev.filter_remotes_true (d : Dev) : ({ d with remotes := d.remotes.filter fun _ => true } : Dev) = d := by
  rw [List.filter_true]

section
variable (hopen : (s.dev.out dst).closed = false) (hlost : routesLost s.dev dst = true)
include hopen hlost

theorem unreachableDeclare_endpoint (hendpoint : isAgent dst = false) :
    Makes (.unreachableDeclare dst) s
      (let d1 := s.dev.setOut dst ((s.dev.out dst).givenUp s.dev.cycle)
       report (loseSent { d1 with remotes := d1.remotes.filter fun r => field r.2.2.1.toNat 18 0 != dst } dst (s.dev.out dst).sent)
        { cls := 0x83, sev := 3, kind := 5, index := 0, ctx := none, d0 := dst % 2 ^ 24 }) := by
  simp only [Makes, exec_unreachableDeclare, execUnreachableDeclare, State.mapDev, hopen, hlost, hendpoint, Bool.not_true, Bool.or_self,
    Bool.false_or, Bool.false_eq_true, if_false]
  rfl

theorem unreachableDeclare_agent (hagent : isAgent dst = true) :
    Makes (.unreachableDeclare dst) s
      (report (loseAgent (loseSent (s.dev.setOut dst ((s.dev.out dst).givenUp s.dev.cycle)) dst (s.dev.out dst).sent) (pairStack dst) (pairAgent dst))
        { cls := 0x83, sev := 3, kind := 4, index := pairStack dst, ctx := none, d0 := dst % 2 ^ 24 }) := by
  simp only [Makes, exec_unreachableDeclare, execUnreachableDeclare, State.mapDev, hopen, hlost, hagent, Bool.not_true, Bool.or_self,
    Bool.true_or, Bool.false_eq_true, if_false, if_true]
  rw [Dev.filter_remotes_true]
  rfl

end
end

/-! ## A closed pair reopens (R466, R467) -/

/-- The pair that a reopening names by an endpoint, where it is closed. -/
theorem reopenPairs_endpoint {d : Dev} {w : Nat} (hendpoint : bitOf w 23 = false) :
    reopenPairs d w = if (d.out (w % 2 ^ 19)).closed then [w % 2 ^ 19] else [] := by
  have hpeer : field w 18 0 = w % 2 ^ 19 := rfl
  simp only [reopenPairs, hendpoint, Bool.false_eq_true, if_false, hpeer, List.filter_cons, List.filter_nil]

theorem not_isAgent_of_lt {p : PeerId} (hp : p < 2 ^ 23) : isAgent p = false := Nat.testBit_lt_two_pow hp

/-- The number that a resynchronisation names: 0 where the destination has begun anew (R466, R467). -/
def PeerOut.resyncSeq (o : PeerOut) : Nat := if o.fresh then 0 else o.next

/-- A pair open again: the next number of its requests, and what is sent again. -/
def PeerOut.reopened (o : PeerOut) : PeerOut := if o.fresh then o.reopen else { PeerOut.blank with next := o.resyncSeq }

theorem PeerOut.reopened_open (o : PeerOut) : o.reopened.closed = false := by
  unfold PeerOut.reopened
  split <;> rfl

section
variable {s : State} {peer : PeerId}

/-- The machine once a pair with an endpoint is open again. -/
def Dev.reopened (d : Dev) (peer : PeerId) : Dev :=
  report ((d.setOut peer (d.out peer).reopened).notify (.fabric 2 peer (d.out peer).resyncSeq))
    { cls := 0x84, sev := 0, kind := 5, index := 0, ctx := none, d0 := peer }

theorem Dev.reopened_closed (d : Dev) (peer : PeerId) : ((d.reopened peer).out peer).closed = false := by
  have houts : (d.reopened peer).outs = (d.setOut peer (d.out peer).reopened).outs := by
    rw [Dev.reopened, report_contextless_outs _ _ rfl]
    obtain ⟨l, h⟩ := (d.setOut peer (d.out peer).reopened).notify_changes (.fabric 2 peer (d.out peer).resyncSeq)
    rw [h]
  have hout : (d.reopened peer).out peer = (d.setOut peer (d.out peer).reopened).out peer := congrArg (AMap.get PeerOut.blank · peer) houts
  rw [hout, Dev.out_setOut, if_pos rfl, PeerOut.reopened_open]

theorem reopenPair_opens {d : Dev} (hpeer : peer < 2 ^ 19) (hlate : (d.out peer).closedAt + 40000000 ≤ d.cycle) (hport : reopenPort d peer = true) :
    reopenPair d peer = d.reopened peer := by
  have hendpoint : isAgent peer = false := not_isAgent_of_lt (hpeer.trans (by decide))
  have hname : peer % 2 ^ 24 = peer := Nat.mod_eq_of_lt (hpeer.trans (by decide))
  have hms : ¬ d.cycle < (d.out peer).closedAt + 10 * ms := Nat.not_lt.mpr hlate
  simp only [reopenPair, if_neg hms, hport, hendpoint, hname, Bool.not_true, Bool.false_eq_true, if_false, Dev.reopened, PeerOut.reopened,
    PeerOut.resyncSeq]

theorem reopenPair_early {d : Dev} (hearly : d.cycle < (d.out peer).closedAt + 40000000) : reopenPair d peer = d := by
  have hms : d.cycle < (d.out peer).closedAt + 10 * ms := hearly
  simp only [reopenPair, if_pos hms]

variable {w : Nat} (hw : s.mgmt.reopenReg.toNat = w) (hreq : bitOf w 63 = true) (hendpoint : bitOf w 23 = false)
  (hclosed : (s.dev.out (w % 2 ^ 19)).closed = true)
include hw hreq hendpoint hclosed

theorem reopenRetry_opens (hlate : (s.dev.out (w % 2 ^ 19)).closedAt + 40000000 ≤ s.dev.cycle) (hport : reopenPort s.dev (w % 2 ^ 19) = true) :
    exec .reopenRetry s = .next { s with
      mgmt := { s.mgmt with reopenReg := BitVec.ofNat 64 (w % 2 ^ 24) }
      dev := s.dev.reopened (w % 2 ^ 19) } := by
  have hpair : reopenPairs s.dev w = [w % 2 ^ 19] := by rw [reopenPairs_endpoint hendpoint, if_pos hclosed]
  have hnone : reopenPairs (s.dev.reopened (w % 2 ^ 19)) w = [] := by
    rw [reopenPairs_endpoint hendpoint, Dev.reopened_closed, if_neg Bool.false_ne_true]
  have hopens : reopenPair s.dev (w % 2 ^ 19) = s.dev.reopened (w % 2 ^ 19) := reopenPair_opens (Nat.mod_lt _ (by decide)) hlate hport
  rw [exec_reopenRetry, execReopenRetry]
  dsimp only
  rw [hw, hreq, hpair, List.foldl_cons, List.foldl_nil, hopens, hnone]
  rfl

theorem reopenRetry_early (hearly : s.dev.cycle < (s.dev.out (w % 2 ^ 19)).closedAt + 40000000) : exec .reopenRetry s = .next s := by
  have hpair : reopenPairs s.dev w = [w % 2 ^ 19] := by rw [reopenPairs_endpoint hendpoint, if_pos hclosed]
  simp only [exec_reopenRetry, execReopenRetry, hw, hreq, hpair, List.foldl_cons, List.foldl_nil, reopenPair_early hearly, Bool.not_true,
    Bool.false_eq_true, if_false, List.isEmpty_cons]

end

/-! ## The destination (R340, R342, R345, R462) -/

section
variable {s : State} {r : RemoteReq} (hruns : s.mgmt.runs = true)
include hruns

theorem e2eRequestArrival_unreachable (hbad : r.gen ≠ s.mgmt.boot.gen ∨ badContext s.dev r = true) :
    Makes (.e2eRequestArrival r) s (answer s.dev r none) := by
  have hrefused : (r.gen ≠ s.mgmt.boot.gen || badContext s.dev r) = true := by
    simpa only [Bool.or_eq_true, decide_eq_true_eq] using hbad
  simp only [Makes, exec_e2eRequestArrival, reachPart, hruns, Bool.not_true, Bool.false_eq_true, if_false, State.mapDev, if_pos hrefused]

theorem e2eRequestArrival_arrives (hgen : r.gen = s.mgmt.boot.gen) (hgood : badContext s.dev r = false) :
    Makes (.e2eRequestArrival r) s (arrive s.dev r) := by
  have hserved : ¬ (r.gen ≠ s.mgmt.boot.gen || badContext s.dev r) = true := by simp [hgen, hgood]
  simp only [Makes, exec_e2eRequestArrival, reachPart, hruns, Bool.not_true, Bool.false_eq_true, if_false, State.mapDev, if_neg hserved]

end

/-- A write of all its bytes at its home slice. -/
def Dev.remoteWritten (d : Dev) (r : RemoteReq) (n v : Nat) : Dev :=
  physStore (recallLine (takeTag d (sliceAt r.addr)).2 (lineOf r.addr)) r.addr n v

section
variable {d : Dev} {r : RemoteReq} {n v : Nat} (hop : r.op = .write n v (2 ^ n - 1))
include hop

theorem performRemote_write : performRemote d r = (some 0, d.remoteWritten r n v) := by
  have hall : (2 ^ n - 1) % 2 ^ n = 2 ^ n - 1 := Nat.mod_eq_of_lt (Nat.sub_lt (Nat.two_pow_pos n) Nat.one_pos)
  simp only [performRemote, hop, hall, if_true]
  rfl

theorem deliverOne_write (hframe : frameOk d r.addr = true) (htier : tierLost d d.isLost r.addr = false) :
    deliverOne d r = (.done, answer (d.remoteWritten r n v) r (some 0)) := by
  have hreturns : reqReturns r = false := by simp only [reqReturns, hop]
  have hreads : reqReads r = false := by simp only [reqReads, hop]
  have hsupported : remoteSupported (.write n v (2 ^ n - 1)) = true := rfl
  simp only [deliverOne, hop, hsupported, hreturns, hreads, hframe, htier, performRemote_write hop, answerOnce, Bool.not_true, Bool.false_and,
    Bool.or_self, Bool.false_eq_true, if_false]

/-- A write next in its sequence, with no other request of the pair waiting. -/
theorem arrive_write (hseq : r.seq = (d.in_ r.src).next) (hwait : (d.in_ r.src).waiting = []) (hframe : frameOk d r.addr = true)
    (htier : tierLost d d.isLost r.addr = false) :
    arrive d r = (answer ((d.setIn r.src { d.in_ r.src with waiting := [r] }).remoteWritten r n v) r (some 0)).received r := by
  have hahead : (r.seq + 65536 - (d.in_ r.src).next) % 65536 = 0 := by omega
  have hwindow : (r.seq + 65536 - (d.in_ r.src).next) % 65536 < Config.e2eWindow := by rw [hahead]; decide
  have hin : (d.setIn r.src { d.in_ r.src with waiting := [r] }).in_ r.src = { d.in_ r.src with waiting := [r] } := by
    rw [Dev.in_setIn, if_pos rfl]
  simp only [arrive, if_pos hwindow, hwait, List.any_nil, Bool.false_eq_true, if_false, List.nil_append, List.length_nil, Nat.zero_add]
  exact deliverWaiting_one (by rw [hin]) (by rw [hin]; exact hseq) (deliverOne_write hop hframe htier)

end

/-- Settles O53: what the source does with its requests and its pairs, and what the destination does with a request that arrives. -/
theorem packageEvents : Obligations.PackageEvents := by
  intro s dst seq gen link r d o
  refine ⟨fun x hx => ⟨e2eResendTimeout_portless hx, fun hlate hport husable => ⟨e2eResendTimeout_suspect hx hlate hport husable, ?misses⟩,
      e2eAckArrival_answers hx, e2eAckArrival_unreachable hx, e2eBusyAnswer_waits hx⟩,
    rfl, fun x => unreachableAnswer_closes, unreachableDeclare_endpoint, unreachableDeclare_agent,
    fun hreq hendpoint hclosed => ⟨reopenRetry_opens rfl hreq hendpoint hclosed, reopenRetry_early rfl hreq hendpoint hclosed⟩,
    fun hruns => ⟨?resync, fun hgen => e2eRequestArrival_unreachable hruns (.inl hgen),
      fun _ hbad => e2eRequestArrival_unreachable hruns (.inr hbad),
      fun hgen hgood => ⟨e2eRequestArrival_arrives hruns hgen hgood, ?write⟩⟩, rfl⟩
  case misses =>
    intro hsound
    have hexec := e2eResendTimeout_misses hx hlate hport husable hsound
    refine ⟨fun hfew => ?_, fun hmany => ?_⟩
    · rwa [if_neg (Nat.not_le.mpr hfew)] at hexec
    · rwa [if_pos hmany] at hexec
  case resync => exact congrArg Host.Outcome.next (if_pos hruns)
  case write =>
    intro n v hop hseq hwait _ hframe htier
    exact (e2eRequestArrival_arrives hruns hgen hgood).congr (arrive_write hop hseq hwait hframe htier)

end Sys2Proof.Machine
end

section
/-! PROOF. What a step can answer, and the passing of time (R28, R106, R347, R350, R351). -/

namespace Sys2Proof.Machine

/-! ## Instructions and events -/

theorem exec_answers (i : Instr) (s : State) : ∃ t, exec i s = .next t := by
  cases i
  case collReplan stack entry m =>
    cases m with
    | seen => exact ⟨_, rfl⟩
    | message h agrees count rank plane => exact ⟨_, rfl⟩
  all_goals exact ⟨_, rfl⟩

/-- An instruction changes the machine alone; the host's registers and the moves to come stay. -/
theorem exec_instruction {i : Instr} (h : Roles.isEvent i = false) (s : State) : ∃ d, exec i s = .next { s with dev := d } := by
  -- an event contradicts the hypothesis; the meaning of every instruction acts on the machine alone
  cases i <;> cases h
  all_goals exact ⟨_, rfl⟩

theorem runAttempt_answers (a : Attempt) (s : State) : ∃ t, runAttempt a s = .next t := by
  cases a with
  | hold d => exact ⟨_, rfl⟩
  | due i d => exact exec_answers i _
  | run i d =>
    obtain ⟨t, ht⟩ := exec_answers i { s with dev := d }
    exact ⟨_, by rw [runAttempt, ht, finish]⟩

/-! ## A move (R351) -/

theorem stepMove_unpowered {s : State} {m : Move} (hoff : s.mgmt.power = .off) (hm : m ≠ .event .powerGood) :
    stepMove m s = .fault .unpowered := by
  have hstops : (s.mgmt.power == .off && m != .event .powerGood) = true := by
    rw [hoff, bne_iff_ne.mpr hm]
    rfl
  unfold stepMove
  rw [if_pos hstops]

/-- A move that finds the module powered, or brings the power, answers. -/
theorem stepMove_answers {s : State} {m : Move} (hgoes : s.mgmt.power ≠ .off ∨ m = .event .powerGood) : ∃ t, stepMove m s = .next t := by
  have hpowered : ¬ (s.mgmt.power == .off && m != .event .powerGood) = true := by
    simp only [Bool.and_eq_true, beq_iff_eq, bne_iff_ne]
    rintro ⟨hoff, hm⟩
    exact hgoes.elim (· hoff) hm
  unfold stepMove
  rw [if_neg hpowered]
  cases m with
  | tick n => exact ⟨_, rfl⟩
  | event i =>
    dsimp only
    split
    · exact exec_answers i s
    · exact ⟨_, rfl⟩
  | issue core gslot =>
    dsimp only
    split
    · exact runAttempt_answers _ s
    · exact ⟨_, rfl⟩
  | serve cc =>
    dsimp only
    split
    · exact runAttempt_answers _ s
    · exact ⟨_, rfl⟩

theorem step_answers {s : State} (hgoes : s.mgmt.power ≠ .off ∨ (takeMove s).1 = .event .powerGood) : ∃ t, step s = .next t := by
  obtain ⟨t, ht⟩ := stepMove_answers (s := (takeMove s).2) (m := (takeMove s).1) (by rwa [takeMove_mgmt])
  exact ⟨t.settled, by rw [step, ht, settled]⟩

theorem step_unpowered {s : State} (hoff : s.mgmt.power = .off) (hm : (takeMove s).1 ≠ .event .powerGood) : step s = .fault .unpowered :=
  congrArg settled (stepMove_unpowered (by rwa [takeMove_mgmt]) hm)

theorem step_not_refused (s : State) (x : Refusal) : step s ≠ .refused x := by
  by_cases hgoes : s.mgmt.power ≠ .off ∨ (takeMove s).1 = .event .powerGood
  · obtain ⟨t, ht⟩ := step_answers hgoes
    simp [ht]
  · rw [not_or, not_not] at hgoes
    simp [step_unpowered hgoes.1 hgoes.2]

theorem takeMove_cons {s : State} {m : Move} {r : List Move} (h : s.moves = m :: r) : takeMove s = (m, { s with moves := r }) := by
  simp only [takeMove, h]

/-- A step makes the head of the tape, and the units follow. -/
theorem step_cons {s : State} {m : Move} {r : List Move} (h : s.moves = m :: r) : step s = settled (stepMove m { s with moves := r }) := by
  rw [step, takeMove_cons h]

theorem stepMove_event {s : State} {i : Instr} (hpower : s.mgmt.power ≠ .off) (hevent : Roles.isEvent i = true) :
    stepMove (.event i) s = exec i s := by
  have hpowered : (s.mgmt.power == .off) = false := beq_eq_false_iff_ne.mpr hpower
  simp only [stepMove, hpowered, hevent, Bool.false_and, Bool.false_eq_true, if_false, if_true]

theorem stepMove_tick {s : State} (hpower : s.mgmt.power ≠ .off) (n : Nat) : stepMove (.tick n) s = .next { s with dev := passTime n s.dev } := by
  have hpowered : (s.mgmt.power == .off) = false := beq_eq_false_iff_ne.mpr hpower
  simp only [stepMove, hpowered, Bool.false_and, Bool.false_eq_true, if_false]

/-- What the units do after a move takes no move from the tape, and changes neither semaphores nor boot. -/
theorem settled_keeps (u : State) : u.settled.moves = u.moves ∧ u.settled.mgmt.sems = u.mgmt.sems ∧ u.settled.mgmt.boot = u.mgmt.boot := by
  unfold State.settled finishStandby
  split
  · exact ⟨rfl, rfl, rfl⟩
  · exact ⟨rfl, rfl, rfl⟩

/-! ## The passing of time (R28, R106, R347, R350) -/

/-- The machine without what the bays change as time passes. -/
def Dev.sansTeams (d : Dev) : Dev := { d with teams := [] }

/-- The machine without what the bays and the moves of frames change as time passes. -/
def Dev.sansCopies (d : Dev) : Dev := { d with teams := [], hbm := [], host := [], migr := [] }

theorem settleBay_sansTeams (d : Dev) (core bay : Nat) : (settleBay d core bay).sansTeams = d.sansTeams := by
  unfold settleBay
  extract_lets now upd d1 l room enter d2 l2 next
  have hsettled : d1.sansTeams = d.sansTeams :=
    foldl_keeps Dev.sansTeams (fun d p => upd d p (Group.settle now (d.outstanding p.1 p.2.gid))) (fun _ _ => rfl) (d.bay core bay) d
  have hentered : d2.sansTeams = d1.sansTeams :=
    foldl_keeps Dev.sansTeams (fun d p =>
      upd d p fun g => { g with active := some now, laneNo := none, runs := 0, since := if g.canRun then some now else none })
      (fun _ _ => rfl) enter d1
  have hplaced := foldl_keeps Dev.sansTeams (fun d p => upd d p.1 fun g => { g with laneNo := some p.2, runs := 0 }) (fun _ _ => rfl) next d2
  exact hplaced.trans (hentered.trans hsettled)

theorem settleBays_sansTeams (d : Dev) : (settleBays d).sansTeams = d.sansTeams :=
  foldl_keeps Dev.sansTeams _ (fun _ _ => settleBay_sansTeams _ _ _) _ d

theorem Place.write_sansCopies (d : Dev) (b : Byte) (p : Place) : (p.write d b).sansCopies = d.sansCopies := by
  cases p with
  | hbm k => rfl
  | host k =>
    unfold Place.write
    dsimp only
    split <;> rfl

theorem copyBytes_sansCopies (d : Dev) (src dst : Place) (off n : Nat) : (copyBytes d src dst off n).sansCopies = d.sansCopies :=
  foldl_keeps Dev.sansCopies _ (fun _ _ => Place.write_sansCopies _ _ _) _ d

theorem copyLines_sansCopies (n : Nat) (d : Dev) (m : FrameMove) : (copyLines n d m).sansCopies = d.sansCopies := by
  unfold copyLines
  split
  · rfl
  · exact copyBytes_sansCopies _ _ _ _ _

/-- The machine as its time starts to pass: bays settled, lines copied. -/
def Dev.caughtUp (n : Nat) (d : Dev) : Dev := (settleBays d).migr.foldl (copyLines n) (settleBays d)

theorem settleBays_changes (d : Dev) : ∃ teams, settleBays d = { d with teams } := by
  have hrest : settleBays d = { (settleBays d).sansTeams with teams := (settleBays d).teams } := rfl
  rw [settleBays_sansTeams] at hrest
  exact ⟨_, hrest⟩

theorem caughtUp_changes (n : Nat) (d : Dev) : ∃ teams hbm host migr, d.caughtUp n = { d with teams, hbm, host, migr } := by
  obtain ⟨teams, hbays⟩ := settleBays_changes d
  have hcopied : (d.caughtUp n).sansCopies = (settleBays d).sansCopies := foldl_keeps Dev.sansCopies _ (copyLines_sansCopies n) _ _
  have hrest : d.caughtUp n = { (d.caughtUp n).sansCopies with
    teams := (d.caughtUp n).teams, hbm := (d.caughtUp n).hbm, host := (d.caughtUp n).host, migr := (d.caughtUp n).migr } := rfl
  rw [hcopied, hbays] at hrest
  exact ⟨_, _, _, _, hrest⟩

/-- Where no frame moves, nothing is copied. -/
theorem caughtUp_still {d : Dev} (hstill : d.migr = []) (n : Nat) : ∃ teams, d.caughtUp n = { d with teams } := by
  obtain ⟨teams, hbays⟩ := settleBays_changes d
  refine ⟨teams, ?_⟩
  rw [Dev.caughtUp, hbays]
  show d.migr.foldl _ _ = _
  rw [hstill, List.foldl_nil]

theorem passTime_cycle (n : Nat) (d : Dev) : (passTime n d).cycle = d.cycle + n := by
  have hadds : (passTime n d).cycle = (d.caughtUp n).cycle + n := rfl
  obtain ⟨teams, hbm, host, migr, hcaught⟩ := caughtUp_changes n d
  rw [hadds, hcaught]

theorem passTime_queues (n : Nat) (d : Dev) : (passTime n d).queues = d.queues := by
  have hkeeps : (passTime n d).queues = (d.caughtUp n).queues := rfl
  obtain ⟨teams, hbm, host, migr, hcaught⟩ := caughtUp_changes n d
  rw [hkeeps, hcaught]

/-- Where no frame moves, time changes no byte. -/
theorem passTime_memory {d : Dev} (hstill : d.migr = []) (n : Nat) : sameMemory d (passTime n d) := by
  have hkeeps : sameMemory (d.caughtUp n) (passTime n d) := fun _ => ⟨rfl, rfl, rfl, rfl, rfl⟩
  obtain ⟨teams, hcaught⟩ := caughtUp_still hstill n
  rw [hcaught] at hkeeps
  exact hkeeps

/-- What `n` cycles absorb of the offset that is left, beside the time that they take (R350). -/
def Dev.absorbed (n : Nat) (d : Dev) : Int :=
  let base : Int := n * 16384
  if 0 ≤ d.slew then min d.slew (base / 5000) else -(min (-d.slew) (if d.half then base / 2 else base / 5000))

theorem passTime_counts (n : Nat) (d : Dev) :
    (passTime n d).units = (d.caughtUp n).units + ((n : Int) * 16384 + (d.caughtUp n).absorbed n).toNat := time_split _

/-- With no offset to absorb, a cycle is 0.25 ns of device time. -/
theorem passTime_units {d : Dev} (hslew : d.slew = 0) (n : Nat) : (passTime n d).units = d.units + n * 16384 := by
  obtain ⟨teams, hbm, host, migr, hcaught⟩ := caughtUp_changes n d
  have habsorbed : ({ d with teams, hbm, host, migr } : Dev).absorbed n = 0 := by
    simp only [Dev.absorbed, hslew, Int.le_refl, if_true]
    omega
  have hunits : ({ d with teams, hbm, host, migr } : Dev).units = d.units := rfl
  rw [passTime_counts, hcaught, habsorbed, hunits]
  omega

/-- Settles O58: every instruction and event answers with a next state, a step stops where the module has no power, and time passes. -/
theorem stepAnswers : Obligations.StepAnswers := by
  refine ⟨fun i s => ?exec, fun s r => ⟨step_not_refused s, fun hpower => step_answers (.inl hpower), fun m h hoff hm => ?unpowered,
    fun i h hpower hevent => ?event, settled_keeps, fun n h hpower => ⟨?tick, passTime_cycle n s.dev, passTime_queues n s.dev,
      fun hstill => passTime_memory hstill n,
      fun hslew _ _ _ => ⟨passTime_units hslew n, Nat.mod_lt _ (by decide), Nat.mod_lt _ (by decide)⟩⟩⟩⟩
  case exec =>
    obtain ⟨t, ht⟩ := exec_answers i s
    refine ⟨t, ht, fun hinstr => ?_⟩
    obtain ⟨d, hd⟩ := exec_instruction hinstr s
    cases ht.symm.trans hd
    exact ⟨rfl, rfl⟩
  case unpowered => exact step_unpowered hoff (by rwa [takeMove_cons h])
  case event => rw [step_cons h, stepMove_event (s := { s with moves := r }) hpower hevent]
  case tick => rw [step_cons h, stepMove_tick (s := { s with moves := r }) hpower, settled]

end Sys2Proof.Machine
end
